-- ==== Sys2Proof/Word.lean ====
section
/-! DEFINITION. The word types of the machine (spec 00 R3, 01 R13) and their plainest arithmetic. -/

namespace Sys2Proof

/-- A 32-bit register or code word. -/
abbrev Word := BitVec 32
/-- A 64-bit register pair, address or descriptor word. -/
abbrev DWord := BitVec 64
/-- A byte of memory. -/
abbrev Byte := BitVec 8
/-- A lane mask: bit `i` is lane `i` of the team (R8, R24); the lane word `Lg` is bits `[32g+31:32g]`. -/
abbrev Mask := BitVec 1024

/-- The pair of a high and a low word (R14). -/
def Word.pair (hi lo : Word) : DWord := hi ++ lo

/-- Low half of a pair (R14: the even register). -/
def DWord.lo (d : DWord) : Word := d.extractLsb' 0 32
/-- High half of a pair (R14: the odd register). -/
def DWord.hi (d : DWord) : Word := d.extractLsb' 32 32

end Sys2Proof
end

