-- ==== Sys2Proof/Config.lean ====
section
/-! DEFINITION. What the part fixes once, and the free values: constants without a body, which nothing can
evaluate. A free value is applied to the operands it depends on or to the counter `freeCtr` of the state. -/

namespace Sys2Proof.Config

/-- Lanes of the widest team (R8). -/
def maxLanes : Nat := 1024
/-- Depth of the mask stack (R21). -/
def stackDepth : Nat := 16
/-- Largest command queue of a matrix context (R166). -/
def commandQueue : Nat := 16
/-- Entries of a cluster's copy queue (R198). -/
def copyQueue : Nat := 64
/-- Range-lock entries for a core's own operations (R234). -/
def rangeEntries : Nat := 56
/-- Range-lock entries reserved for incoming carries (R234). -/
def carryEntries : Nat := 8
/-- Entries of a die's task queue (R206). -/
def taskQueue : Nat := 4096
/-- Entries of a queue's launch list (R280). -/
def launchList : Nat := 64
/-- Sweeps a Dusk engine queues (R304). -/
def duskQueue : Nat := 64
/-- Query slots of a stack (R320). -/
def querySlots : Nat := 256
/-- Visited capacity of a query (R328). -/
def visitedMax : Nat := 4096
/-- Stepping reported by IDREG and IDENT: B0 (R372). -/
def stepping : BitVec 8 := 0x10

/-- Free value: clocks that pass at a step (DESIGN CHOICE, log 4: the spec states no clock count of a step). -/
opaque clocksOf : Nat → Nat
/-- Free value: nanoseconds of the device timebase that pass at a step (log 4). -/
opaque nanosOf : Nat → Nat
/-- Free value: the lanes a trapping load has already written (R150), or a late load's lanes that hold the loaded value
(R267; log 22). -/
opaque freeLanes : Nat → Mask
/-- Free value: a word for which the spec states no result (R201's TX outside its range; log 27). -/
opaque freeWord : Nat → Word
/-- Free value: the scale code, counted from the least with E = 1, of a block whose largest magnitude m · 2^e no scale
that may be written covers (R43, R311; log 66). -/
opaque overScale : (m : Nat) → (e : Int) → Nat
/-- Free value: the BARF byte that a carry of another device counts down (R358 gives it no place in a flit; log 29). -/
opaque carryBar : (src : BitVec 19) → (seq : BitVec 16) → BitVec 8
/-- Free value: the bytes, in units of 16, that a carry of another device announces (R358 fixes STAT at the first flit, and
gives LEN no place in a flit; log 29). -/
opaque carryUnits : (src : BitVec 19) → (seq : BitVec 16) → BitVec 8
/-- Free value: the port on which a device's flits arrive (R354 has them take one path, which other devices' tables set;
log 37). -/
opaque arrivalPort : (src : BitVec 19) → BitVec 4
/-- Free value: whether a query has written word `k` of its result area when other agents move (R232, R334; log 95). -/
opaque resultPart : (draw k : Nat) → Bool
/-- Free value: the dimensions of a page's summary that a page step writes before other agents move (R313; log 80); 0 is
all that are left. -/
opaque summaryPart : Nat → Nat
/-- Free value: whether a load of scratch that races with an engine's write returns what the write replaced (R232;
log 79). -/
opaque racesOld : (draw off : Nat) → Bool
/-- Free value: whether a lane of a read that breaks the promise of R68 finds what the register held before (R71;
log 8). -/
opaque readsOld : (draw position lane : Nat) → Bool
/-- Free value: package power in W that PSTAT reports (R349; log 15). -/
opaque packagePower : Nat → BitVec 16
/-- Free value: sensor readings of TELEM (R370; log 15). -/
opaque sensors : Nat → List Byte
/-- Free value: whether PUF reconstruction (step 2) or the rails and memory training (step 6) of a bring-up fail (R369;
log 16). -/
opaque bringUpFails : (step draw : Nat) → Bool
/-- Free value: SHAKE256 of a byte string, in the given number of bytes (R366, R368; log 16). -/
opaque shake256 : List Byte → Nat → List Byte
/-- Free value: whether an Ed448 signature over a message verifies under a key (R366; log 16). -/
opaque ed448Verifies : (key msg sig : List Byte) → Bool
/-- Free value: the Ed448 signature of a message with the private key of a seed (R368, R371; log 16). -/
opaque ed448Sign : (seed msg : List Byte) → List Byte
/-- Free value: the Ed448 public key of a seed (R368; log 16). -/
opaque ed448Public : (seed : List Byte) → List Byte
/-- Free value: the seed that the SRAM PUF gives with the helper data of the flash (R368; log 16). -/
opaque pufSeed : (helper : List Byte) → List Byte
/-- Free value: whether a TLB that holds an entry for a granule answers an access with it rather than with a walk (R260;
log 6). -/
opaque tlbAnswers : (draw g : Nat) → Bool
/-- Free value: the bytes of a part the spec names but does not lay out (boot ROM, firmware, SPDM and MCTP
response framing; log 16). -/
opaque opaqueBytes : (what : Nat) → List Byte → List Byte
/-- Free value: a byte that a load from a page of a peer device returns (R355 gives stores and atomics alone; log 23). -/
opaque peerByte : (draw addr : Nat) → Byte
/-- Free value: which of the words that a core holds or memory gives the k-th word of a fetch is, where they differ
(R87; log 50). -/
opaque codeHeld : (draw k : Nat) → Nat
/-- Free value: the operation code of a HACC step on a peer's page, by its RH (R353 lists none; log 72). -/
opaque haccCode : BitVec 2 → BitVec 4
/-- Free value: whether the peer that answers a HACC step with these bits has placed it (log 72). -/
opaque haccPlaced : Nat → Bool
/-- Free value: a byte of host memory that the host has not posted (R347; log 17). -/
opaque hostByte : Nat → Byte

end Sys2Proof.Config
end

