-- ==== Sys2Proof/Syntax.lean ====
section
/-! DEFINITION. The abstract instructions and steps: one constructor of `Instr` for each row of the spec's table
of operations and events. Register numbers, types, rounding modes and scopes are constructors or fields already
decoded; an event carries what names it (a team, an engine) and what the spec leaves to the world outside. -/

namespace Sys2Proof

/-- A register or value operand (R26); the reserved codes have no constructor. Code 0xF0 (`zero`) and code 0xE0
(`const 0`) are different encodings of zero. -/
inductive Operand where
  | v (n : BitVec 7)
  | s (n : BitVec 6)
  | p (n : BitVec 3)
  | q (n : BitVec 2)
  | k (n : BitVec 4)
  | const (c : BitVec 4)
  | zero
  | lane
  | group
  | team
  | owner
  | lit32 (w : Word)
  | lit64 (w : DWord)
deriving DecidableEq, Repr

/-- A type number (R64). -/
inductive Ty where
  | b32 | b64 | s8 | s16 | s32 | s64 | n8 | n16 | n32 | n64
  | f32 | f16 | bf16 | e4m3 | e5m2 | fx | mx6 | mx6b | mx4
deriving DecidableEq, Repr

/-- A rounding mode (R47, R65). -/
inductive RM where
  | rne | rtz | rdn | rup | sr | sat
deriving DecidableEq, Repr

/-- A scope (R67): none, or `.team` to `.sys`. -/
inductive Scope where
  | none | team | core | die | dev | sys
deriving DecidableEq, Repr

/-- The comparison of SCMP and ISET (R88, R109). -/
inductive Cmp where
  | eq | ne | lt | le | gt | ge
deriving DecidableEq, Repr

/-- The type of SCMP (R88). -/
inductive ScmpTy where
  | s32 | n32 | f32 | s64 | n64
deriving DecidableEq, Repr

/-- The form of QSET (R89): a constant, or `.any`/`.all` of a predicate, negated or not. -/
inductive QsetForm where
  | const (v : Bool)
  | any (p : BitVec 3) (neg : Bool)
  | all (p : BitVec 3) (neg : Bool)
deriving DecidableEq, Repr

/-- The kind of TLBINV with the operands of each (R211, R215). -/
inductive TlbKind where
  | page (s : BitVec 6) (large : Bool) (asid : BitVec 16)
  | asid (asid : BitVec 16)
  | all
deriving DecidableEq, Repr

/-- The extension word X1 (R63); its reserved bits are zero. -/
structure X1 where
  c   : Operand
  ty  : Ty
  rm  : RM
  sat : Bool
  na  : Bool
  nb  : Bool
  fn  : BitVec 6
deriving DecidableEq, Repr

/-- The operands of an F1 instruction (R63); `x = none` is W = 0. -/
structure F1 where
  d : Operand
  a : Operand
  b : Operand
  x : Option X1
deriving DecidableEq, Repr

/-- The extension word X2 (R66). -/
structure X2 where
  b   : Operand
  sz  : BitVec 4
  sc  : Scope
  rh  : BitVec 2
  fn  : BitVec 3
  imm : BitVec 12
deriving DecidableEq, Repr

/-- The operands of an F2 instruction (R66); `x = none` is W = 0. -/
structure F2 where
  l  : BitVec 4
  tk : BitVec 3
  d  : Operand
  a  : Operand
  x  : Option X2
deriving DecidableEq, Repr

/-- A Ghehorn flit (R353): header fields, payload, and whether a reserved field of its header is non-zero. -/
structure Flit where
  ty   : BitVec 4
  dst  : BitVec 19
  src  : BitVec 19
  ttl  : BitVec 6
  seq  : BitVec 16
  opc  : BitVec 8
  addr : BitVec 48
  data : List Byte
  resv : Bool
deriving DecidableEq, Repr

/-- Where the front end takes a grid from (R280, R286, R288): a command queue, a die's task queue, or a batch of a
token queue. -/
inductive GridSource where
  | queue (ctx q : Nat)
  | task (die j : Nat)
  | batch (die q : Nat)
deriving DecidableEq, Repr

/-- The SPDM requests the responder answers (R371). -/
inductive SpdmRequest where
  | negotiate
  | certificate (slot : Nat)
  | challenge (slot : Nat) (nonce : List Byte)
  | measurements (index slot : Nat)
  | keyExchange (requesterKey : List Byte) (overMctp : Bool)
  | other (code : Byte)
deriving DecidableEq, Repr

/-- One constructor for each row of the spec's table of operations and events. -/
inductive Instr where
  | mov (o : F1)
  | sel (o : F1)
  | iadd (o : F1)
  | isub (o : F1)
  | iadc (o : F1)
  | isbc (o : F1)
  | imul (o : F1)
  | imulh (o : F1)
  | imad (o : F1)
  | imin (o : F1)
  | imax (o : F1)
  | iabs (o : F1)
  | ineg (o : F1)
  | andL (o : F1)
  | orL (o : F1)
  | xorL (o : F1)
  | andn (o : F1)
  | notL (o : F1)
  | shl (o : F1)
  | shr (o : F1)
  | sar (o : F1)
  | rot (o : F1)
  | bfx (o : F1)
  | bfi (o : F1)
  | popc (o : F1)
  | clz (o : F1)
  | brev (o : F1)
  | lea (o : F1)
  | iset (o : F1)
  | bytep (o : F1)
  | fadd (o : F1)
  | fsub (o : F1)
  | fmul (o : F1)
  | ffma (o : F1)
  | fmin (o : F1)
  | fmax (o : F1)
  | fset (o : F1)
  | frcp (o : F1)
  | frsq (o : F1)
  | fsqrt (o : F1)
  | fexp2 (o : F1)
  | flog2 (o : F1)
  | fscale (o : F1)
  | fexpo (o : F1)
  | fclass (o : F1)
  | frnd (o : F1)
  | cvt (o : F1)
  | pack (o : F1)
  | unpk (o : F1)
  | hfma2 (o : F1)
  | hadd2 (o : F1)
  | hmul2 (o : F1)
  | dot4 (o : F1)
  | dot2 (o : F1)
  | pand (o : F1)
  | por (o : F1)
  | pxor (o : F1)
  | pnot (o : F1)
  | pmov (o : F1)
  | sval (o : F1)
  | shfl (o : F1)
  | bcast (o : F1)
  | vote (o : F1)
  | reduce (o : F1)
  | scan (o : F1)
  | lrscan (o : F1)
  | segred (o : F1)
  | segscan (o : F1)
  | compact (o : F1)
  | matchP (o : F1)
  | exset (o : F1)
  | exdeal (o : F1)
  | exclr (o : F1)
  | ld (o : F2)
  | st (o : F2)
  | lda (o : F2)
  | waitk (o : F2)
  | atom (o : F2)
  | atomn (o : F2)
  | cas (o : F2)
  | hacc (o : F2)
  | gather (o : F2)
  | scatr (o : F2)
  | lockl (o : F2)
  | unlockl (o : F2)
  | pfetch (o : F2)
  | fence (o : F2)
  | cflush (o : F2)
  | cinval (o : F2)
  | wbload (o : F2)
  | wbdrop (o : F2)
  | mma (o : F2)
  | mmas (o : F2)
  | accz (o : F2)
  | accld (o : F2)
  | accst (o : F2)
  | accdr (o : F2)
  | accrd (o : F2)
  | accrdSt (o : F2)
  | attn (o : F2)
  | attnfin (o : F2)
  | psel (o : F2)
  | kvapp (o : F2)
  | demote (o : F2)
  | kvres (o : F2)
  | copy (o : F2)
  | copyy (o : F2)
  | bseal (o : F2)
  | waitb (o : F2)
  | binit (o : F2)
  | arrive (o : F2)
  | arrdrop (o : F2)
  | bwait (o : F2)
  | qsrch (o : F2)
  | lksend (o : F2)
  | spawn (o : F2)
  | glaunch (o : F2)
  | gscan (o : F2)
  | xacq (o : F2)
  | xrel (o : F2)
  | tqpush (o : F2)
  | nop
  | prep (b : BitVec 3) (off : BitVec 18)
  | preps (b : BitVec 3) (off : BitVec 18) (s : BitVec 6)
  | scmp (q : BitVec 2) (cc : Cmp) (ty : ScmpTy) (a b : Operand)
  | xfer (b : BitVec 3) (q : BitVec 2) (neg cnd : Bool)
  | xcall (b : BitVec 3) (q : BitVec 2) (neg cnd : Bool) (link : Option (BitVec 6))
  | xany (b p : BitVec 3) (neg : Bool)
  | xall (b p : BitVec 3) (neg : Bool)
  | ifP (p : BitVec 3)
  | ifnP (p : BitVec 3)
  | elseP
  | endif
  | loopP
  | breakP (p : BitVec 3)
  | contP (p : BitVec 3)
  | endloop (q : BitVec 2)
  | serial
  | endserial (q : BitVec 2)
  | yieldP (n : BitVec 14)
  | exitP (p : BitVec 3)
  | exitSaved
  | trapU (q : BitVec 2) (neg cnd : Bool) (code : BitVec 14)
  | icsync
  | bkpt (code : BitVec 14)
  | qset (q : BitVec 2) (md : QsetForm)
  | srd (d : BitVec 6) (reg : BitVec 16)
  | swr (d : BitVec 6) (reg : BitVec 16)
  | statesvTeam (va : Option (BitVec 6))
  | statesvBar (va : Option (BitVec 6))
  | statersTeam (va : Option (BitVec 6))
  | statersBar (va : Option (BitVec 6))
  | svc (code : BitVec 16)
  | eret
  | clkrd (d : BitVec 6) (clk : Bool)
  | tlbinv (kind : TlbKind)
  | worldx (secure : Bool)
  | clauseFetch (t : Nat)
  | prefetchFill (t : Nat) (b : BitVec 3)
  | issuePortChoice (core sub port : Nat)
  | yieldWaitEnd (t : Nat)
  | f2Completion (t k : Nat)
  | translationResult (t k : Nat) (hit : Bool)
  | trapEntry (t : Nat)
  | teamPark (t : Nat)
  | parkedReissue (t : Nat)
  | faultRecordWrite (ctx : Nat)
  | watchdogExpiry (t : Nat)
  | contextReset (ctx : Nat)
  | commandAcceptance (t k : Nat)
  | wbloadDecode (core m : Nat)
  | wbdropExecute (core m : Nat)
  | mmaKStep (core m : Nat)
  | commandResume (core m : Nat)
  | tileImageOperation (core m : Nat)
  | accdrDrain (core m : Nat)
  | kvappAppend (core m : Nat)
  | pselSelection (core m : Nat)
  | attnPage (core m : Nat)
  | attnfinMerge (core m : Nat)
  | copyAcceptance (t k : Nat)
  | copyRow (j : Nat)
  | waitkDone (t k : Nat)
  | bwaitDone (t k : Nat)
  | waitbDone (t k : Nat)
  | xacqGrant (t k : Nat)
  | xacqTimeout (t k : Nat)
  | gscanWaitEnd (t k : Nat)
  | queryRound (q : Nat)
  | vertexDistance (q : Nat) (v : Word)
  | queryCompletion (q : Nat)
  | duskPageStep (die ctx : Nat)
  | handBack (j : Nat)
  | kvresRestore (die ctx : Nat)
  | backgroundSweep (ctx : Nat)
  | doorbell (fn ctx q : Nat) (idx : Word)
  | gridStart (src : GridSource)
  | castPlace (g core : Nat)
  | coresidentHold (g : Nat)
  | teamRetire (t : Nat)
  | tokenQueueTimer (die q : Nat)
  | tokenQueueBind (die q : Nat) (record : List Byte)
  | cdesc (fn ctx : Nat) (pa : DWord)
  | ccmdPreempt (fn ctx : Nat)
  | ccmdResume (fn ctx : Nat)
  | ccmdReset (fn ctx : Nat)
  | ccmdUnregister (fn ctx : Nat)
  | dusktb (fn ctx : Nat) (va : DWord)
  | resolveRetry (fn : Nat) (word : DWord)
  | resolveFail (fn : Nat) (word : DWord)
  | resolveRetryAll (fn : Nat) (word : DWord)
  | ckctlCheckpoint
  | ckctlLoad
  | ckctlClear
  | checkpointComplete
  | checkpointLoadComplete
  | pmode (value : Word)
  | powerModeChange
  | wheelSettingChange
  | sshare (stack : Nat) (value : Word)
  | graphRegistration (g : Nat) (record : List Byte)
  | graphUnregistration (g : Nat) (record : List Byte)
  | unregistrationEffect (g : Nat)
  | registerWrite (fn off n : Nat) (value : Nat)
  | hostPostedWrite (fn pa : Nat) (data : List Byte)
  | pieceAcknowledgement (j : Nat)
  | hostRead (fn pa n : Nat)
  | atsAnswer (t k : Nat) (granted : Bool)
  | hostAtsInvalidation (page : Nat)
  | remoteStore (f : Flit)
  | remoteAtomic (f : Flit)
  | acknowledgement (f : Flit)
  | atomicResponse (f : Flit)
  | refusal (f : Flit)
  | carryData (f : Flit)
  | carryEnd (f : Flit)
  | carryStatus (f : Flit)
  | flitForward (f : Flit)
  | flitReplay (port : Nat)
  | portUp (port : Nat) (neighbour : BitVec 19)
  | portDown (port : Nat)
  | pfail
  | mainRailFailure
  | retvLoss
  | coldReset
  | warmReset
  | vfFunctionLevelReset (vf : Nat)
  | thermalAlert
  | thermtrip
  | stackAlert (stack pseudo owed : Nat)
  | patrolScrub (line : Nat) (correctable : Bool)
  | ident
  | telem
  | sbReset (arg : Byte)
  | fwstage (off : Nat) (chunk : List Byte)
  | fwcommit
  | cktrig
  | wrtset (authorised : Bool) (table : List Byte)
  | worldTableSwitch
  | pmset (value : Word)
  | spdmRequest (req : SpdmRequest)
  | mctpControl (msg : List Byte)
  | dynamicAddressAssignment (addr : BitVec 7)
  | flitDiscard (f : Flit)
  | pstatUpdate
  | clockThrottle (down : Bool)
  | ccmdReserved (fn ctx : Nat) (cmd : BitVec 3)
deriving DecidableEq, Repr

end Sys2Proof
end

