-- ==== Sys2Proof/WellFormed.lean ====
section
/-! DEFINITION. Which instructions have an encoding the spec allows: every check of R63 to R67, R82, R102, R125,
R142 to R144, R165, R195 and R211 that the encoding alone decides. Checks that need the running team (its budget, its
barriers, its tiles) stand with the meanings. -/

namespace Sys2Proof

/-- Why an instruction is not well formed, by name. -/
inductive IllFormed where
  | unusedOperand | needsExt | noExt | badType | badRounding | badSaturation | badNegation | badFn
  | badDest | badSource | badSize | badScope | badHint | badOffset | badLookahead | badToken | badCondition
deriving DecidableEq, Repr

namespace Ty

/-- Width in bits of one element (R38, R39). -/
def bits : Ty → Nat
  | b32 | s32 | n32 | f32 => 32
  | b64 | s64 | n64 => 64
  | s8 | n8 | e4m3 | e5m2 => 8
  | s16 | n16 | f16 | bf16 => 16
  | fx => 64
  | mx6 | mx6b => 6
  | mx4 => 4

/-- Does an operand of this type occupy an even-odd pair (R14)? -/
def is64 : Ty → Bool
  | b64 | s64 | n64 | fx => true
  | _ => false

def isSigned : Ty → Bool
  | s8 | s16 | s32 | s64 => true
  | _ => false

/-- The integer types 2 to 9 of R64. -/
def isInt : Ty → Bool
  | s8 | s16 | s32 | s64 | n8 | n16 | n32 | n64 => true
  | _ => false

/-- The floating-point types 10 to 14 of R64. -/
def isFloat : Ty → Bool
  | f32 | f16 | bf16 | e4m3 | e5m2 => true
  | _ => false

/-- The formats 16 to 18 of R64. -/
def isMx : Ty → Bool
  | mx6 | mx6b | mx4 => true
  | _ => false

/-- Type number of R64. -/
def code : Ty → Nat
  | b32 => 0 | b64 => 1 | s8 => 2 | s16 => 3 | s32 => 4 | s64 => 5 | n8 => 6 | n16 => 7 | n32 => 8 | n64 => 9
  | f32 => 10 | f16 => 11 | bf16 => 12 | e4m3 => 13 | e5m2 => 14 | fx => 15 | mx6 => 16 | mx6b => 17 | mx4 => 18

/-- The type of a number; 19 to 63 are reserved (R64). -/
def ofCode : Nat → Option Ty
  | 0 => some b32 | 1 => some b64 | 2 => some s8 | 3 => some s16 | 4 => some s32 | 5 => some s64 | 6 => some n8
  | 7 => some n16 | 8 => some n32 | 9 => some n64 | 10 => some f32 | 11 => some f16 | 12 => some bf16
  | 13 => some e4m3 | 14 => some e5m2 | 15 => some fx | 16 => some mx6 | 17 => some mx6b | 18 => some mx4
  | _ => none

end Ty

namespace Operand

def isV : Operand → Bool
  | v _ => true
  | _ => false
def isS : Operand → Bool
  | s _ => true
  | _ => false
def isP : Operand → Bool
  | p _ => true
  | _ => false
def isQ : Operand → Bool
  | q _ => true
  | _ => false
def isK : Operand → Bool
  | k _ => true
  | _ => false
/-- An even S code, which holds a 64-bit value (R14; "Pair" of R165). -/
def isPair : Operand → Bool
  | s n => n.toNat % 2 == 0
  | _ => false
/-- Does a V or S code start an aligned run of `r` registers (R14, R143)? Other codes pass. -/
def runOk (r : Nat) : Operand → Bool
  | v n => n.toNat % r == 0
  | s n => n.toNat % r == 0
  | _ => true
def isLit : Operand → Bool
  | lit32 _ | lit64 _ => true
  | _ => false
/-- An S or Q or K destination makes the scalar form (R26, R101). -/
def isScalarDest : Operand → Bool
  | s _ | q _ | k _ => true
  | _ => false

/-- A class 0 or 1 source of 32 or 64 bits; in the scalar form no per-lane code is allowed (R26, R27, R14). -/
def srcOk (w64 scalar : Bool) : Operand → Bool
  | v n => !scalar && (!w64 || n.toNat % 2 == 0)
  | s n => !w64 || n.toNat % 2 == 0
  | p _ | q _ => false
  | k _ | const _ | zero | team | lit32 _ => true
  | lane | group | owner => !scalar
  | lit64 _ => w64

/-- A class 0 destination: V, S or K (R101). -/
def dstOk (w64 : Bool) : Operand → Bool
  | v n => !w64 || n.toNat % 2 == 0
  | s n => !w64 || n.toNat % 2 == 0
  | k _ => true
  | _ => false

/-- A destination of ISET and FSET (R109, R115): P, Q, V or S. -/
def dstCmp : Operand → Bool
  | v _ | s _ | p _ | q _ => true
  | _ => false

/-- A predicate or condition source; a P code only in the vector form (R26, R122). -/
def condOk (scalar : Bool) : Operand → Bool
  | p _ => !scalar
  | q _ => true
  | _ => false

/-- A uniform 32-bit value of class 1 (R128). -/
def uniform1 : Operand → Bool
  | s _ | k _ | const _ | zero | lit32 _ => true
  | _ => false

/-- A base address A of class 2 (R144). -/
def base2 : Operand → Bool
  | v n => n.toNat % 2 == 0
  | s n => n.toNat % 2 == 0
  | zero | lit32 _ | lit64 _ => true
  | const c => c != 0
  | _ => false

/-- An index B of class 2 (R144). -/
def index2 : Operand → Bool
  | v _ | s _ | const _ | zero | lit32 _ => true
  | _ => false

/-- Store data of `z` bytes in D (R144, R143). -/
def data2 (z : Nat) (o : Operand) : Bool :=
  match o with
  | v _ | s _ => o.runOk (max 1 (z / 4))
  | zero | const _ => decide (z ≤ 4)
  | _ => false

/-- A class 3 or 4 offset (R165). -/
def offset3 : Operand → Bool
  | s _ | zero | const _ | lit32 _ => true
  | _ => false

/-- Kc of R165: a K code, or 0xF0 for none. -/
def kc : Operand → Bool
  | k _ | zero => true
  | _ => false

end Operand

/-! ### F1: classes 0 and 1 -/

/-- One row of the tables of R102 and R125. -/
structure F1Rule where
  nin  : Nat
  ext  : Bool := false
  dflt : Ty
  tys  : List Ty
  rms  : List RM := [.rne]
  sat  : Bool := false
  na   : Bool := false
  nb   : Bool := false
  fn   : BitVec 6 → Bool := fun f => f == 0

/-- The extension fields in force: those of X1, or the defaults of R63. -/
def F1.ext (o : F1) (dflt : Ty) : X1 :=
  o.x.getD { c := .zero, ty := dflt, rm := .rne, sat := false, na := false, nb := false, fn := 0 }

/-- The third input: C when X1 is there, else D (R63). -/
def F1.third (o : F1) : Operand :=
  match o.x with
  | some x => x.c
  | none => o.d

/-- The scalar form (R26). -/
def F1.scalar (o : F1) : Bool := o.d.isScalarDest

/-- First check that fails, by name. -/
def firstFail : List (Bool × IllFormed) → Option IllFormed
  | [] => none
  | (true, _) :: rest => firstFail rest
  | (false, e) :: _ => some e

def iw : List Ty := [.s32, .n32, .s64, .n64]
def ik : List Ty := iw ++ [.s8, .n8, .s16, .n16]
def bw : List Ty := [.b32, .b64]
def rmAll : List RM := [.rne, .rtz, .rdn, .rup, .sr, .sat]
def rmDir : List RM := [.rne, .rtz, .rdn, .rup]
def rmDirSr : List RM := rmDir ++ [.sr]

/-- The checks of one F1 instruction: its row's fields, then its operand kinds. -/
def F1Rule.check (r : F1Rule) (o : F1) (kinds : List (Bool × IllFormed)) : Option IllFormed :=
  let x := o.ext r.dflt
  firstFail ([
    (!r.ext || o.x.isSome, .needsExt),
    (r.nin ≥ 3 || x.c == .zero, .unusedOperand),
    (r.nin ≥ 2 || o.b == .zero, .unusedOperand),
    (r.nin ≥ 1 || o.a == .zero, .unusedOperand),
    (r.tys.contains x.ty, .badType),
    (r.rms.contains x.rm, .badRounding),
    (!x.sat || r.sat, .badSaturation),
    (!x.na || r.na, .badNegation),
    (!x.nb || r.nb, .badNegation),
    (r.fn x.fn, .badFn)] ++ kinds)

/-- D, A and B of one width (R101), and C when it stands. -/
def kinds3 (o : F1) (wd wa wb wc : Bool) (nin : Nat) : List (Bool × IllFormed) :=
  [(o.d.dstOk wd, .badDest), (nin < 1 || o.a.srcOk wa o.scalar, .badSource),
   (nin < 2 || o.b.srcOk wb o.scalar, .badSource),
   (nin < 3 || o.x.isNone || o.third.srcOk wc o.scalar, .badSource)]

/-- An integer opcode whose operands all have the type's width. -/
def chkInt (o : F1) (nin : Nat) (dflt : Ty) (tys : List Ty) (sat neg : Bool) : Option IllFormed :=
  let w := (o.ext dflt).ty.is64
  { nin := nin, dflt := dflt, tys := tys, sat := sat, na := neg, nb := neg : F1Rule }.check o (kinds3 o w w w w nin)

/-- The shifts and BFX, BFI: B is 32-bit (R110, R111). -/
def chkShift (o : F1) (nin : Nat) (dflt : Ty) (tys : List Ty) : Option IllFormed :=
  let w := (o.ext dflt).ty.is64
  { nin := nin, dflt := dflt, tys := tys : F1Rule }.check o (kinds3 o w w false w nin)

/-- IADC and ISBC (R107). -/
def chkCarry (o : F1) : Option IllFormed :=
  let x := o.ext .n32
  let w := x.ty.is64
  let cOk := match x.c with
    | .p _ => !o.scalar
    | .q _ | .zero => true
    | .const c => c == 1
    | _ => false
  let fnOk := x.fn.extractLsb' 4 2 == 0
    && (x.fn.getLsbD 3 || x.fn.extractLsb' 0 3 == 0)
    && (!x.fn.getLsbD 3 || !o.scalar || (x.fn.extractLsb' 0 3).toNat ≤ 3)
  { nin := 3, ext := true, dflt := .n32, tys := [.n32, .n64], fn := fun _ => fnOk : F1Rule }.check o
    (kinds3 o w w w w 2 ++ [(cOk, .badSource)])

/-- An FP32 opcode (R102 rows 20 to 2F). -/
def chkFp (o : F1) (nin : Nat) (rms : List RM) (na nb : Bool) (fn : BitVec 6 → Bool) : Option IllFormed :=
  { nin := nin, dflt := .f32, tys := [.f32], rms := rms, na := na, nb := nb, fn := fn : F1Rule }.check o
    (kinds3 o false false false false nin)

/-- A half-width or dot-product opcode (R117, R118). -/
def chkPacked (o : F1) (nin : Nat) (dflt : Ty) (tys : List Ty) (neg : Bool) (fn : BitVec 6 → Bool) :
    Option IllFormed :=
  let x := o.ext dflt
  { nin := nin, dflt := dflt, tys := tys, rms := if x.ty.isInt then [.rne] else rmAll, sat := x.ty.isInt,
    na := neg, nb := neg, fn := fn : F1Rule }.check o (kinds3 o false false false false nin)

/-- The permitted pairs of CVT with their rounding modes and saturation (R119): `none` where the pair is not. -/
def cvtPair (src dst : Ty) : Option (List RM × Bool) :=
  if src.isInt && dst.isInt then some ([.rne], true)
  else if src.isInt && dst.isFloat then some (rmAll, false)
  else if (src.isFloat || src.isMx) && dst.isFloat then some (rmAll, false)
  else if (src.isFloat || src.isMx) && dst.isInt then some (rmDirSr, false)
  else if src == .f32 && dst == .fx then some ([.rne], false)
  else if src == .fx && dst.isFloat then some (rmAll, false)
  else none

/-- A run of ten registers from an even V or S code (R120). -/
def Operand.run10 (scalar : Bool) : Operand → Bool
  | .v n => !scalar && n.toNat % 2 == 0 && n.toNat + 9 < 128
  | .s n => n.toNat % 2 == 0 && n.toNat + 9 < 64
  | _ => false

/-- CVT (R119, R120). B of a form from .fx is 0xF0: R119 excepts the .fx forms, and R120 gives that one no B (DEDUCED,
log 69). -/
def chkCvt (o : F1) : Option IllFormed :=
  match o.x with
  | none => some .needsExt
  | some x =>
    match Ty.ofCode x.fn.toNat with
    | none => some .badFn
    | some src =>
      match cvtPair src x.ty with
      | none => some .badType
      | some (rms, sat) =>
        let toFx := x.ty == .fx
        let bOk := match o.b with
          | .const _ | .zero | .s _ => true
          | .v _ => !o.scalar
          | _ => false
        let aOk := if src == .fx then o.a.run10 o.scalar else o.a.srcOk src.is64 o.scalar
        { nin := if toFx then 2 else 1, ext := true, dflt := .f32, tys := [x.ty], rms := rms, sat := sat,
          fn := fun _ => true : F1Rule }.check o
          [(o.d.dstOk x.ty.is64, .badDest), (aOk, .badSource), (!toFx || bOk, .badSource)]

/-- The packed formats of PACK and UNPK, with their element counts (R121). -/
def packCount : Ty → Option Nat
  | .f16 | .bf16 => some 2
  | .e4m3 | .e5m2 | .mx6 | .mx6b => some 4
  | .mx4 => some 8
  | _ => none

/-- PACK and UNPK (R121). -/
def chkPack (o : F1) (rms : List RM) (na : Bool) : Option IllFormed :=
  match o.x with
  | none => some .needsExt
  | some x =>
    match (Ty.ofCode x.fn.toNat).bind packCount with
    | none => some .badFn
    | some n =>
      let kOk := match o.b with
        | .zero => true
        | .const c => 1 ≤ c.toNat && c.toNat ≤ 7 && c.toNat < n
        | _ => false
      { nin := 2, ext := true, dflt := .f32, tys := [.f32], rms := rms, na := na, fn := fun _ => true : F1Rule }.check o
        [(o.d.dstOk false, .badDest), (o.a.srcOk false o.scalar, .badSource), (kOk, .badSource)]

/-- PAND, POR, PXOR, PNOT, PMOV (R122). -/
def chkPred (o : F1) (nin : Nat) (nb wide : Bool) : Option IllFormed :=
  let sc := o.scalar
  let aOk := o.a.condOk sc || (wide && match o.a with
    | .v _ => !sc
    | .s _ | .k _ | .const _ | .zero => true
    | _ => false)
  { nin := nin, dflt := .b32, tys := [.b32], na := true, nb := nb : F1Rule }.check o
    [(o.d.isP || o.d.isQ, .badDest), (aOk, .badSource), (nin < 2 || o.b.condOk sc, .badSource)]

/-- SVAL (R105). -/
def chkSval (o : F1) : Option IllFormed :=
  let aOk := match o.a with
    | .zero => true
    | .const c => 1 ≤ c.toNat && c.toNat ≤ 8 && (!o.scalar || (c.toNat != 3 && c.toNat != 5))
    | _ => false
  { nin := 1, dflt := .b32, tys := [.b32] : F1Rule }.check o [(o.d.dstOk false, .badDest), (aOk, .badSource)]

/-- FCLASS (R101, R116): B stands with a P or Q destination only. -/
def chkFclass (o : F1) : Option IllFormed :=
  { nin := 2, dflt := .f32, tys := [.f32] : F1Rule }.check o
    [(o.d.dstOk false || o.d.isP || o.d.isQ, .badDest), (o.a.srcOk false o.scalar, .badSource),
     (if o.d.isP || o.d.isQ then o.b.srcOk false o.scalar else o.b == .zero, .badSource)]

/-- ISET and FSET (R109, R115). -/
def chkSet (o : F1) (dflt : Ty) (tys : List Ty) (neg : Bool) (maxCc : Nat) : Option IllFormed :=
  let w := (o.ext dflt).ty.is64
  { nin := 2, dflt := dflt, tys := tys, na := neg, nb := neg, fn := fun f => f.toNat ≤ maxCc : F1Rule }.check o
    [(o.d.dstCmp, .badDest), (o.a.srcOk w o.scalar, .badSource), (o.b.srcOk w o.scalar, .badSource)]

/-- SEL (R104). -/
def chkSel (o : F1) : Option IllFormed :=
  let w := (o.ext .b32).ty.is64
  { nin := 3, ext := true, dflt := .b32, tys := bw : F1Rule }.check o
    (kinds3 o w w w w 2 ++ [(o.third.condOk o.scalar, .badSource)])

/-- IMAD with its wide form (R106). -/
def chkImad (o : F1) : Option IllFormed :=
  let x := o.ext .s32
  let w := x.ty.is64
  if x.fn == 1 then
    { nin := 3, dflt := .s32, tys := [.s32, .n32], sat := true, na := true, nb := true, fn := fun _ => true : F1Rule }.check o
      (kinds3 o true false false true 3)
  else
    { nin := 3, dflt := .s32, tys := iw, sat := true, na := true, nb := true : F1Rule }.check o (kinds3 o w w w w 3)

/-- POPC and CLZ: D is 32-bit (R110). -/
def chkCount (o : F1) : Option IllFormed :=
  let w := (o.ext .b32).ty.is64
  { nin := 1, dflt := .b32, tys := bw : F1Rule }.check o (kinds3 o false w false false 1)

/-- LEA (R108). -/
def chkLea (o : F1) : Option IllFormed :=
  { nin := 2, dflt := .b64, tys := [.b64], fn := fun f => f.extractLsb' 4 2 == 0 : F1Rule }.check o
    (kinds3 o true true false false 2)

/-- DOT4 (R118): FN may name the type of B for the floating forms. -/
def chkDot4 (o : F1) : Option IllFormed :=
  let x := o.ext .e4m3
  chkPacked o 3 .e4m3 [.e4m3, .e5m2, .s8, .n8] false fun f => f == 0 || (!x.ty.isInt && (f == 13 || f == 14))

/-! ### Class 1 -/

/-- A class 1 instruction with a V destination and plain sources. -/
def chkLane (o : F1) (r : F1Rule) (kinds : List (Bool × IllFormed)) : Option IllFormed :=
  r.check o kinds

/-- The types of a reduction operation (R132). -/
def redTypes (op : Nat) : List Ty :=
  if op ≤ 2 then iw ++ [.f32] else if op ≤ 5 then bw else []

/-- REDUCE, SCAN, SEGRED, SEGSCAN: FN holds the operation in [2:0] and `flags` bits above it (R125). -/
def chkRed (o : F1) (nin : Nat) (maxFn : Nat) (bOk : Operand → Bool) : Option IllFormed :=
  let x := o.ext .f32
  let op := (x.fn.extractLsb' 0 3).toNat
  { nin := nin, dflt := .f32, tys := redTypes op, sat := op == 0 && x.ty.isInt,
    fn := fun f => f.toNat ≤ maxFn && op ≤ 5 : F1Rule }.check o
    [(o.d.isV && o.d.runOk (if x.ty.is64 then 2 else 1), .badDest), (o.a.srcOk x.ty.is64 false, .badSource),
     (nin < 2 || bOk o.b, .badSource)]

/-- A move between lanes with types BW. -/
def chkMove (o : F1) (nin : Nat) (fn : BitVec 6 → Bool) (bOk : Operand → Bool) : Option IllFormed :=
  let w := (o.ext .b32).ty.is64
  { nin := nin, dflt := .b32, tys := bw, fn := fn : F1Rule }.check o
    [(o.d.isV && o.d.runOk (if w then 2 else 1), .badDest), (o.a.srcOk w false, .badSource),
     (nin < 2 || bOk o.b, .badSource)]

/-- BCAST (R128). -/
def bcastB : Operand → Bool
  | .s _ | .k _ | .const _ | .zero | .lit32 _ => true
  | _ => false

/-- VOTE (R129). -/
def chkVote (o : F1) : Option IllFormed :=
  let x := o.ext .b32
  { nin := 1, dflt := .b32, tys := [.b32], na := true, fn := fun f => f.toNat ≤ 4 : F1Rule }.check o
    [(o.d.isV || (o.d.isP && x.fn.toNat ≤ 1), .badDest), (o.a.condOk false, .badSource)]

/-- LRSCAN (R135). -/
def chkLrscan (o : F1) : Option IllFormed :=
  let x := o.ext .f32
  { nin := 3, ext := true, dflt := .f32, tys := [.f32], fn := fun f => f.toNat ≤ 1 : F1Rule }.check o
    [(o.d.isV && (x.fn == 1 || o.d.runOk 2), .badDest), (o.a.isV || o.a.uniform1, .badSource),
     (o.b.isV || o.b.uniform1, .badSource), (x.c == .zero || x.c.isPair, .badSource)]

/-! ### F2: classes 2, 3 and 4 -/

/-- The extension fields in force: those of X2, or the defaults of R66. -/
def F2.ext (o : F2) : X2 :=
  o.x.getD { b := .zero, sz := 2, sc := .none, rh := 0, fn := 0, imm := 0 }

/-- Access size in bytes of an SZ value (R143). -/
def szBytes (sz : BitVec 4) : Nat := 2 ^ (sz.toNat % 8)
/-- Does SZ name scratch (R143)? -/
def szScratch (sz : BitVec 4) : Bool := 8 ≤ sz.toNat
/-- SZ values 0 to 4 and 8 to 12 (R143). -/
def szPlain (sz : BitVec 4) : Bool := sz.toNat ≤ 4 || (8 ≤ sz.toNat && sz.toNat ≤ 12)
/-- SZ values of the atomics (R154). -/
def szAtomic (sz : BitVec 4) : Bool := [2, 3, 10, 11].contains sz.toNat

/-- The vector form of class 2: D, A or B is a V code (R144). -/
def F2.vector (o : F2) : Bool := o.d.isV || o.a.isV || o.ext.b.isV

/-- Checks shared by every F2 instruction: not both L and TK (R68). -/
def F2.checkAll (o : F2) (kinds : List (Bool × IllFormed)) : Option IllFormed :=
  firstFail ((o.l == 0 || o.tk == 0, .badLookahead) :: kinds)

/-- A field that a row gives no use holds its default (R141, R165, R195). -/
def F2.unused (o : F2) (b sz sc rh fn imm : Bool) : List (Bool × IllFormed) :=
  let x := o.ext
  [(!b || x.b == .zero, .unusedOperand), (!sz || x.sz == 2, .badSize), (!sc || x.sc == .none, .badScope),
   (!rh || x.rh == 0, .badHint), (!fn || x.fn == 0, .badFn), (!imm || x.imm == 0, .badOffset)]

/-- LD (R142, R144, R147, R149). -/
def chkLd (o : F2) : Option IllFormed :=
  let x := o.ext
  let z := szBytes x.sz
  o.checkAll [(szPlain x.sz, .badSize), (x.fn.getLsbD 0 == false, .badFn),
    (!x.fn.getLsbD 2 || z ≤ 2, .badFn), (!x.fn.getLsbD 1 || x.sc != .none, .badFn),
    (!szScratch x.sz || x.rh == 0, .badHint), (o.a.base2, .badSource), (x.b.index2, .badSource),
    ((o.d.isV || (o.d.isS && !o.vector)) && o.d.runOk (max 1 (z / 4)), .badDest)]

/-- ST. -/
def chkSt (o : F2) : Option IllFormed :=
  let x := o.ext
  let z := szBytes x.sz
  o.checkAll [(szPlain x.sz, .badSize), (x.fn.getLsbD 0 == false && x.fn.getLsbD 2 == false, .badFn),
    (!x.fn.getLsbD 1 || x.sc != .none, .badFn),
    (!szScratch x.sz || x.rh == 0, .badHint), (o.a.base2, .badSource), (x.b.index2, .badSource),
    (o.d.data2 z, .badDest)]

/-- LDA (R151). -/
def chkLda (o : F2) : Option IllFormed :=
  let x := o.ext
  let z := szBytes x.sz
  o.checkAll [(szPlain x.sz, .badSize), (x.fn.extractLsb' 0 2 == 0, .badFn), (!x.fn.getLsbD 2 || z ≤ 2, .badFn),
    (x.sc == .none, .badScope), (!szScratch x.sz || x.rh == 0, .badHint), (o.a.base2, .badSource),
    (x.b.isK, .badSource),
    ((o.d.isV || (o.d.isS && !o.a.isV)) && o.d.runOk (max 1 (z / 4)), .badDest)]

/-- WAITK (R152). -/
def chkWaitk (o : F2) : Option IllFormed :=
  o.checkAll ([(o.tk == 0, .badToken), (o.d.isK, .badDest), (o.a.offset3, .badSource)]
    ++ o.unused true true false true true true)

/-- ATOM (R154, R155). -/
def chkAtom (o : F2) : Option IllFormed :=
  let x := o.ext
  let r := szBytes x.sz / 4
  o.checkAll [(szAtomic x.sz, .badSize), (x.sc != .none, .badScope), (o.a.base2, .badSource),
    (x.b.index2 && x.b.runOk r, .badSource), ((o.d.isV || (o.d.isS && !o.vector)) && o.d.runOk r, .badDest)]

/-- ATOMN. Its data may be a constant where z is 4, as R144 says of store data (DEDUCED, log 69). -/
def chkAtomn (o : F2) : Option IllFormed :=
  let x := o.ext
  o.checkAll [(szAtomic x.sz, .badSize), (x.sc != .none, .badScope), (o.a.base2, .badSource),
    (x.b.index2, .badSource), (o.d.data2 (szBytes x.sz), .badDest)]

/-- CAS (R156). -/
def chkCas (o : F2) : Option IllFormed :=
  let x := o.ext
  let r := szBytes x.sz / 4
  o.checkAll [(szAtomic x.sz, .badSize), (x.sc != .none, .badScope), (x.fn == 0, .badFn), (o.a.base2, .badSource),
    (x.b.index2 && x.b.runOk r, .badSource), ((o.d.isV || (o.d.isS && !o.vector)) && o.d.runOk r, .badDest)]

/-- HACC (R158). -/
def chkHacc (o : F2) : Option IllFormed :=
  let x := o.ext
  let c := (x.imm.extractLsb' 0 5).toNat
  o.checkAll [(x.sz == 2 || x.sz == 10, .badSize), (x.sc != .none, .badScope), (x.rh != 3, .badHint),
    (x.imm.extractLsb' 5 7 == 0 && 4 ≤ c && c ≤ 20, .badOffset), (o.a.base2 && !o.a.isV, .badSource),
    (x.b.index2, .badSource), (o.d.isV, .badDest)]

/-- GATHER and SCATR (R159). -/
def chkGather (o : F2) (add : Bool) : Option IllFormed :=
  let x := o.ext
  o.checkAll [(x.sz == 2 || x.sz == 3, .badSize), (x.sc == .none, .badScope), (x.rh == 0 || x.rh == 1, .badHint),
    (x.fn == 0 || (add && x.fn == 1), .badFn), (o.a.base2 && !o.a.isV, .badSource), (x.b.isV, .badSource),
    (o.d.isV && o.d.runOk (szBytes x.sz / 4), .badDest)]

/-- LOCKL, UNLOCKL, CFLUSH, CINVAL: scalar range forms (R160, R163). -/
def chkRange (o : F2) (scopes : List Scope) (dS dZ : Bool) (fns : List (BitVec 3)) : Option IllFormed :=
  let x := o.ext
  o.checkAll ([(scopes.contains x.sc, .badScope), (fns.contains x.fn, .badFn), (o.a.base2 && !o.a.isV, .badSource),
    (x.b.index2 && !x.b.isV, .badSource), ((dS && o.d.isS) || (dZ && o.d == .zero), .badDest)]
    ++ o.unused false true false true false true)

/-- PFETCH (R161). -/
def chkPfetch (o : F2) : Option IllFormed :=
  let x := o.ext
  o.checkAll [(o.l == 0, .badLookahead), (o.tk == 0, .badToken), (x.sz.toNat ≤ 4, .badSize),
    (x.sc == .core || x.sc == .die, .badScope), (x.fn == 0, .badFn), (o.a.base2, .badSource),
    (x.b.index2, .badSource), (o.d == .zero, .badDest)]

/-- FENCE (R162, R228). -/
def chkFence (o : F2) : Option IllFormed :=
  let x := o.ext
  o.checkAll ([(o.l == 0, .badLookahead), (o.tk == 0, .badToken), (x.sc != .none, .badScope), (x.fn.toNat ≤ 2, .badFn),
    (o.d == .zero, .badDest), (o.a == .zero, .badSource)] ++ o.unused true true false true false true)

/-- The address operand of a class 3 or 4 row with SZ 2 (pair) or 10 (offset). -/
def addr3 (sz : BitVec 4) (a : Operand) : Bool :=
  (sz == 2 && a.isPair) || (sz == 10 && a.offset3)

/-- Class 3 (R165), by the fields a row uses. -/
def chkMat (o : F2) (kinds : List (Bool × IllFormed)) : Option IllFormed :=
  o.checkAll ((o.ext.rh == 0, .badHint) :: kinds)

def chkWbload (o : F2) : Option IllFormed :=
  let x := o.ext
  chkMat o ([(o.d.kc, .badDest), (x.sz == 2 || x.sz == 10, .badSize), (addr3 x.sz o.a, .badSource),
    (x.b.isS || x.b == .zero, .badSource), (x.imm.extractLsb' 5 7 == 0, .badOffset)]
    ++ o.unused false false true true true false)

def chkWbdrop (o : F2) : Option IllFormed :=
  let x := o.ext
  chkMat o ([(o.d.kc, .badDest), (o.a == .zero, .unusedOperand), (x.imm.extractLsb' 5 7 == 0, .badOffset)]
    ++ o.unused true true true true true false)

def chkMma (o : F2) : Option IllFormed :=
  let x := o.ext
  chkMat o ([(o.d.kc, .badDest), (o.a.isPair, .badSource), (x.fn == 0 || x.fn == 1, .badFn),
    (x.imm.extractLsb' 5 3 == 0, .badOffset)] ++ o.unused true true true true false false)

def chkMmas (o : F2) : Option IllFormed :=
  let x := o.ext
  chkMat o ([(o.d.kc, .badDest), (o.a.isPair, .badSource), (x.sz == 2 || x.sz == 10, .badSize),
    (addr3 x.sz x.b, .badSource), (x.fn == 0 || x.fn == 1, .badFn), (x.imm.extractLsb' 0 8 == 0, .badOffset)]
    ++ o.unused false false true true false false)

def chkAccz (o : F2) : Option IllFormed :=
  let x := o.ext
  chkMat o ([(o.d.kc, .badDest), (o.a == .zero, .unusedOperand), (x.imm.extractLsb' 0 4 == 0, .badOffset)]
    ++ o.unused true true true true true false)

/-- ACCLD and ACCST. -/
def chkAccImage (o : F2) : Option IllFormed :=
  let x := o.ext
  chkMat o ([(o.d.kc, .badDest), (x.sz == 2 || x.sz == 10, .badSize), (addr3 x.sz o.a, .badSource),
    (x.fn.toNat ≤ 2, .badFn), (x.imm.extractLsb' 0 8 == 0, .badOffset)] ++ o.unused true false true true false false)

def chkAccdr (o : F2) : Option IllFormed :=
  let x := o.ext
  let scOk := (x.sz == 10 && x.sc == .core) || (x.sz == 2 && [Scope.core, .die, .dev, .sys].contains x.sc)
  chkMat o ([(o.d.kc, .badDest), (x.sz == 2 || x.sz == 10, .badSize), (addr3 x.sz o.a, .badSource),
    (scOk, .badScope), (x.imm.extractLsb' 0 8 == 0, .badOffset)] ++ o.unused true false false true true false)

def chkAccrd (o : F2) : Option IllFormed :=
  let x := o.ext
  chkMat o ([(o.d.isV, .badDest), (o.a.offset3, .badSource), (x.imm.extractLsb' 0 8 == 0, .badOffset)]
    ++ o.unused true true true true true false)

/-- The status form: ST = 1, row and tile unused (R165, R168). -/
def chkAccrdSt (o : F2) : Option IllFormed :=
  let x := o.ext
  chkMat o ([(o.d.isS, .badDest), (o.a == .zero, .unusedOperand), (x.fn == 1 || x.fn == 3, .badFn)]
    ++ o.unused true true true true false true)

/-- ATTN, ATTNFIN, PSEL, DEMOTE: a command block in scratch. -/
def chkBlock (o : F2) : Option IllFormed :=
  chkMat o ([(o.d.kc, .badDest), (o.a.offset3, .badSource), (o.ext.sz == 10, .badSize)]
    ++ o.unused true false true true true true)

def chkKvapp (o : F2) : Option IllFormed :=
  chkMat o ([(o.d.kc, .badDest), (o.a.isPair, .badSource), (o.ext.b.offset3, .badSource)]
    ++ o.unused false true true true true true)

def chkKvres (o : F2) : Option IllFormed :=
  chkMat o ([(o.d.kc, .badDest), (o.a.isPair, .badSource)] ++ o.unused true true true true true true)

/-! Class 4 (R195). -/

def chkCopy (o : F2) : Option IllFormed :=
  o.checkAll ([(o.d.kc, .badDest), (o.a.offset3, .badSource), (o.ext.sz == 10, .badSize)]
    ++ o.unused true false true false true true)

def chkCopyy (o : F2) : Option IllFormed :=
  o.checkAll ([(o.d.kc, .badDest), (o.a == .zero, .unusedOperand)] ++ o.unused true true true false true true)

/-- BSEAL and XREL: no operand. -/
def chkBare (o : F2) : Option IllFormed :=
  o.checkAll ([(o.d == .zero, .unusedOperand), (o.a == .zero, .unusedOperand)] ++ o.unused true true true true true true)

def chkWaitb (o : F2) : Option IllFormed :=
  let aOk := match o.a with
    | .zero => true
    | .const c => 1 ≤ c.toNat && c.toNat ≤ 7
    | _ => false
  o.checkAll ([(o.tk == 0, .badToken), (o.d == .zero, .unusedOperand), (aOk, .badSource)]
    ++ o.unused true true false true true true)

def chkBinit (o : F2) : Option IllFormed :=
  o.checkAll ([(o.d == .zero, .unusedOperand), (o.a.offset3, .badSource), (o.ext.b.offset3, .badSource)]
    ++ o.unused false true true true true true)

def chkArrive (o : F2) : Option IllFormed :=
  o.checkAll ([(o.d.isS || o.d == .zero, .badDest), (o.a.offset3, .badSource), (o.ext.b.offset3, .badSource)]
    ++ o.unused false true false true true true)

def chkArrdrop (o : F2) : Option IllFormed :=
  o.checkAll ([(o.d == .zero, .unusedOperand), (o.a.offset3, .badSource)] ++ o.unused true true true true true true)

def chkBwait (o : F2) : Option IllFormed :=
  let dOk := match o.d with
    | .s _ | .const _ | .zero => true
    | _ => false
  o.checkAll ([(o.tk == 0, .badToken), (dOk, .badDest), (o.a.offset3, .badSource)]
    ++ o.unused true true false true true true)

def chkQsrch (o : F2) : Option IllFormed :=
  let x := o.ext
  o.checkAll ([(o.d == .zero, .unusedOperand), (x.sz == 2 || x.sz == 10, .badSize), (addr3 x.sz o.a, .badSource)]
    ++ o.unused true false true true true true)

/-- LKSEND: as COPY but without a hint. -/
def chkLksend (o : F2) : Option IllFormed :=
  o.checkAll ([(o.d.kc, .badDest), (o.a.offset3, .badSource), (o.ext.sz == 10, .badSize)]
    ++ o.unused true false true true true true)

/-- SPAWN and GLAUNCH. -/
def chkLaunch (o : F2) : Option IllFormed :=
  o.checkAll ([(o.d.isQ, .badDest), (o.a.isPair, .badSource), (o.ext.b.offset3, .badSource)]
    ++ o.unused false true true true true true)

def chkGscan (o : F2) : Option IllFormed :=
  let x := o.ext
  o.checkAll ([(o.d.isPair, .badDest), (o.a.isPair, .badSource), (x.b.isQ, .badSource), (x.fn.toNat ≤ 1, .badFn)]
    ++ o.unused false true true true false true)

def chkXacq (o : F2) : Option IllFormed :=
  o.checkAll ([(o.d.isS || o.d == .zero, .badDest), (o.a.offset3, .badSource)] ++ o.unused true true true true true true)

def chkTqpush (o : F2) : Option IllFormed :=
  let dOk := match o.d with
    | .v _ | .s _ | .const _ | .zero => true
    | _ => false
  o.checkAll ([(dOk, .badDest), (o.a.isV || o.a.offset3, .badSource)] ++ o.unused true true true true false true)

/-! ### F3 and F4 -/

/-- An S register used as a 64-bit value is even (R14). -/
def evenS (n : BitVec 6) : Bool := n.toNat % 2 == 0

/-- SCMP sources (R88). -/
def scmpSrc (w64 : Bool) : Operand → Bool
  | .s n => !w64 || n.toNat % 2 == 0
  | .k _ | .const _ | .zero | .team => true
  | _ => false

def ScmpTy.is64 : ScmpTy → Bool
  | .s64 | .n64 => true
  | _ => false

/-- Is the step an encoded instruction (not an event of another agent)? -/
def Instr.encoded : Instr → Bool
  | .clauseFetch .. | .prefetchFill .. | .issuePortChoice .. | .yieldWaitEnd .. | .f2Completion ..
  | .translationResult .. | .trapEntry .. | .teamPark .. | .parkedReissue .. | .faultRecordWrite ..
  | .watchdogExpiry .. | .contextReset .. | .commandAcceptance .. | .wbloadDecode .. | .wbdropExecute ..
  | .mmaKStep .. | .commandResume .. | .tileImageOperation .. | .accdrDrain .. | .kvappAppend .. | .pselSelection ..
  | .attnPage .. | .attnfinMerge .. | .copyAcceptance .. | .copyRow .. | .waitkDone .. | .bwaitDone ..
  | .waitbDone .. | .xacqGrant .. | .xacqTimeout .. | .gscanWaitEnd .. | .queryRound .. | .vertexDistance ..
  | .queryCompletion .. | .duskPageStep .. | .handBack .. | .kvresRestore .. | .backgroundSweep .. | .doorbell ..
  | .gridStart .. | .castPlace .. | .coresidentHold .. | .teamRetire .. | .tokenQueueTimer .. | .tokenQueueBind ..
  | .cdesc .. | .ccmdPreempt .. | .ccmdResume .. | .ccmdReset .. | .ccmdUnregister .. | .dusktb ..
  | .resolveRetry .. | .resolveFail .. | .resolveRetryAll .. | .ckctlCheckpoint | .ckctlLoad | .ckctlClear
  | .checkpointComplete | .checkpointLoadComplete | .pmode .. | .powerModeChange | .wheelSettingChange | .sshare ..
  | .graphRegistration .. | .graphUnregistration .. | .unregistrationEffect .. | .registerWrite ..
  | .hostPostedWrite .. | .pieceAcknowledgement .. | .hostRead .. | .atsAnswer .. | .hostAtsInvalidation ..
  | .remoteStore .. | .remoteAtomic .. | .acknowledgement .. | .atomicResponse .. | .refusal .. | .carryData ..
  | .carryEnd .. | .carryStatus .. | .flitForward .. | .flitReplay .. | .portUp .. | .portDown .. | .pfail
  | .mainRailFailure | .retvLoss | .coldReset | .warmReset | .vfFunctionLevelReset .. | .thermalAlert | .thermtrip
  | .stackAlert .. | .patrolScrub .. | .ident | .telem | .sbReset .. | .fwstage .. | .fwcommit | .cktrig
  | .wrtset .. | .worldTableSwitch | .pmset .. | .spdmRequest .. | .mctpControl .. | .dynamicAddressAssignment ..
  | .flitDiscard .. | .pstatUpdate | .clockThrottle .. | .ccmdReserved .. => false
  | _ => true

/-- The static check of an instruction: `none` when it is well formed. An event has no encoding and nothing to
check. -/
def Instr.illFormed : Instr → Option IllFormed
  | .mov o => chkInt o 1 .b32 bw false false
  | .sel o => chkSel o
  | .iadd o | .isub o => chkInt o 2 .s32 ik true true
  | .iadc o | .isbc o => chkCarry o
  | .imul o => chkInt o 2 .s32 ik true true
  | .imulh o => chkInt o 2 .s32 iw false false
  | .imad o => chkImad o
  | .imin o | .imax o => chkInt o 2 .s32 ik false false
  | .iabs o => chkInt o 1 .s32 [.s8, .s16, .s32, .s64] true false
  | .ineg o => chkInt o 1 .s32 ik true false
  | .andL o | .orL o | .xorL o | .andn o => chkInt o 2 .b32 bw false false
  | .notL o => chkInt o 1 .b32 bw false false
  | .shl o | .shr o | .sar o | .rot o => chkShift o 2 .b32 bw
  | .bfx o => chkShift o 2 .n32 iw
  | .bfi o => chkShift o 3 .b32 bw
  | .popc o | .clz o => chkCount o
  | .brev o => chkInt o 1 .b32 bw false false
  | .lea o => chkLea o
  | .iset o => chkSet o .s32 iw false 5
  | .bytep o => chkInt o 3 .b32 [.b32] false false
  | .fadd o | .fsub o | .fmul o => chkFp o 2 rmAll true true (· == 0)
  | .ffma o => chkFp o 3 rmAll true true (· == 0)
  | .fmin o | .fmax o => chkFp o 2 [.rne] true true (· == 0)
  | .fset o => chkSet o .f32 [.f32] true 7
  | .frcp o | .frsq o | .fsqrt o | .fexp2 o | .flog2 o => chkFp o 1 [.rne] true false (· == 0)
  | .fscale o => chkFp o 2 rmAll true true (· == 0)
  | .fexpo o => chkFp o 1 [.rne] false false (· == 0)
  | .fclass o => chkFclass o
  | .frnd o => chkFp o 1 rmDirSr true false (·.toNat ≤ 1)
  | .cvt o => chkCvt o
  | .pack o => chkPack o rmAll true
  | .unpk o => chkPack o [.rne] false
  | .hfma2 o => chkPacked o 3 .f16 [.f16, .bf16] true (· == 0)
  | .hadd2 o | .hmul2 o => chkPacked o 2 .f16 [.f16, .bf16] true (· == 0)
  | .dot4 o => chkDot4 o
  | .dot2 o => chkPacked o 3 .f16 [.f16, .bf16, .s16, .n16] false (· == 0)
  | .pand o | .por o | .pxor o => chkPred o 2 true false
  | .pnot o => chkPred o 1 false false
  | .pmov o => chkPred o 1 false true
  | .sval o => chkSval o
  | .shfl o => chkMove o 2 (fun f => f.toNat < 44) (·.srcOk false false)
  | .bcast o => chkMove o 2 (·.toNat ≤ 1) (fun b => if (o.ext .b32).fn == 1 then b == .zero else bcastB b)
  | .vote o => chkVote o
  | .reduce o => chkRed o 1 15 fun _ => true
  | .scan o => chkRed o 1 31 fun _ => true
  | .lrscan o => chkLrscan o
  | .segred o => chkRed o 2 15 fun b => b == .owner || b.isV
  | .segscan o => chkRed o 2 15 Operand.isP
  | .compact o => chkMove o 2 (·.toNat ≤ 1) Operand.isP
  | .matchP o => { nin := 1, dflt := .b32, tys := bw : F1Rule }.check o
      [(o.d.isV, .badDest), (o.a.srcOk (o.ext .b32).ty.is64 false, .badSource)]
  | .exset o => { nin := 2, dflt := .n32, tys := [.n32] : F1Rule }.check o
      [(o.d.isV, .badDest), (o.a.isV || o.a.uniform1, .badSource), (o.b.isV || o.b.uniform1, .badSource)]
  | .exdeal o => { nin := 0, dflt := .n32, tys := [.n32], fn := (·.toNat ≤ 1) : F1Rule }.check o
      [(o.d.isV, .badDest)]
  | .exclr o => firstFail [(o.x.isNone, .noExt), (o.d == .zero, .unusedOperand), (o.a == .zero, .unusedOperand),
      (o.b == .zero, .unusedOperand)]
  | .ld o => chkLd o
  | .st o => chkSt o
  | .lda o => chkLda o
  | .waitk o => chkWaitk o
  | .atom o => chkAtom o
  | .atomn o => chkAtomn o
  | .cas o => chkCas o
  | .hacc o => chkHacc o
  | .gather o => chkGather o false
  | .scatr o => chkGather o true
  | .lockl o => chkRange o [.core, .die] true false [0]
  | .unlockl o => chkRange o [.core, .die] true true [0]
  | .pfetch o => chkPfetch o
  | .fence o => chkFence o
  | .cflush o => chkRange o [.core, .die, .dev, .sys] false true [0, 1]
  | .cinval o => chkRange o [.core, .die, .dev, .sys] false true [0]
  | .wbload o => chkWbload o
  | .wbdrop o => chkWbdrop o
  | .mma o => chkMma o
  | .mmas o => chkMmas o
  | .accz o => chkAccz o
  | .accld o | .accst o => chkAccImage o
  | .accdr o => chkAccdr o
  | .accrd o => chkAccrd o
  | .accrdSt o => chkAccrdSt o
  | .attn o | .attnfin o | .psel o | .demote o => chkBlock o
  | .kvapp o => chkKvapp o
  | .kvres o => chkKvres o
  | .copy o => chkCopy o
  | .copyy o => chkCopyy o
  | .bseal o | .xrel o => chkBare o
  | .waitb o => chkWaitb o
  | .binit o => chkBinit o
  | .arrive o => chkArrive o
  | .arrdrop o => chkArrdrop o
  | .bwait o => chkBwait o
  | .qsrch o => chkQsrch o
  | .lksend o => chkLksend o
  | .spawn o | .glaunch o => chkLaunch o
  | .gscan o => chkGscan o
  | .xacq o => chkXacq o
  | .tqpush o => chkTqpush o
  | .preps _ _ s => firstFail [(evenS s, .badSource)]
  | .scmp _ _ ty a b => firstFail [(scmpSrc ty.is64 a, .badSource), (scmpSrc ty.is64 b, .badSource)]
  | .xfer _ _ neg cnd => firstFail [(cnd || !neg, .badCondition)]
  | .xcall _ _ neg cnd link => firstFail [(cnd || !neg, .badCondition), (link.all evenS, .badDest)]
  | .trapU _ neg cnd _ => firstFail [(cnd || !neg, .badCondition)]
  | .statesvTeam va | .statesvBar va | .statersTeam va | .statersBar va => firstFail [(va.all evenS, .badSource)]
  | .clkrd d _ => firstFail [(evenS d, .badDest)]
  | .tlbinv (.page s _ _) => firstFail [(evenS s, .badSource)]
  | _ => none

/-- A well-formed instruction. -/
abbrev Instr.WellFormed (i : Instr) : Prop := i.illFormed = none

end Sys2Proof
end

