-- ==== Sys2Proof/Decode.lean ====
section
/-! DEFINITION. From words to instructions and back: the operand codes of R26 and R27, the formats of R59 to R73, the
opcode map of R74 and the fates of R75. Decoding is total and refuses by name; every refusal is the ILLEGAL_INSTR or
ILLEGAL_CLAUSE of R75, which the running team takes as a trap. -/

namespace Sys2Proof

/-- Why a word sequence is no instruction of its clause (R75). -/
inductive DecodeError where
  /-- The words end before the instruction does; a fetched clause never does (R62). -/
  | truncated
  | reservedOpcode
  | reservedOperand
  /-- A literal code outside a literal position (R62). -/
  | literalPlace
  | reservedField
  | reservedType
  | reservedRounding
  | reservedScope
  /-- W does not fit the opcode (R72, R73, R82). -/
  | extensionWord
  /-- A terminal instruction before the last position, or another opcode at the E position (R61). -/
  | terminalPlace
  | badForm (e : IllFormed)
deriving DecidableEq, Repr

/-- Bits [lo+n-1:lo] of a word. -/
abbrev Word.field (w : Word) (lo n : Nat) : BitVec n := w.extractLsb' lo n

/-! ### Operand codes (R26, R27) -/

/-- The code of an operand. -/
def Operand.code : Operand → BitVec 8
  | .v n => 0#1 ++ n
  | .s n => 0b10#2 ++ n
  | .p n => 0b11000#5 ++ n
  | .q n => 0b110010#6 ++ n
  | .k n => 0b1101#4 ++ n
  | .const n => 0b1110#4 ++ n
  | .zero => 0xF0
  | .lane => 0xF1
  | .group => 0xF2
  | .team => 0xF3
  | .owner => 0xF4
  | .lit32 _ => 0xF8
  | .lit64 _ => 0xF9

/-- The words a literal code takes, low word first (R3, R62). -/
def Operand.literal : Operand → List Word
  | .lit32 w => [w]
  | .lit64 d => [d.lo, d.hi]
  | _ => []

/-- The operand of a code that takes no literal word (R26); a literal code is refused (R62). -/
def Operand.ofCode (c : BitVec 8) : Except DecodeError Operand :=
  if c.toNat < 0x80 then .ok (.v (c.extractLsb' 0 7))
  else if c.toNat < 0xC0 then .ok (.s (c.extractLsb' 0 6))
  else if c.toNat < 0xC8 then .ok (.p (c.extractLsb' 0 3))
  else if c.toNat < 0xCC then .ok (.q (c.extractLsb' 0 2))
  else if c.toNat < 0xD0 then .error .reservedOperand
  else if c.toNat < 0xE0 then .ok (.k (c.extractLsb' 0 4))
  else if c.toNat < 0xF0 then .ok (.const (c.extractLsb' 0 4))
  else match c.toNat with
    | 0xF0 => .ok .zero
    | 0xF1 => .ok .lane
    | 0xF2 => .ok .group
    | 0xF3 => .ok .team
    | 0xF4 => .ok .owner
    | 0xF8 | 0xF9 => .error .literalPlace
    | _ => .error .reservedOperand

/-- The operand of a code at a literal position, with the words left after its literal (R62). -/
def Operand.source (c : BitVec 8) (ws : List Word) : Except DecodeError (Operand × List Word) :=
  if c == 0xF8 then
    match ws with
    | w :: rest => .ok (.lit32 w, rest)
    | _ => .error .truncated
  else if c == 0xF9 then
    match ws with
    | lo :: hi :: rest => .ok (.lit64 (Word.pair hi lo), rest)
    | _ => .error .truncated
  else
    match Operand.ofCode c with
    | .ok o => .ok (o, ws)
    | .error e => .error e

/-! ### Fields shared by the formats -/

/-- RM of R65. -/
def RM.code : RM → BitVec 3
  | .rne => 0 | .rtz => 1 | .rdn => 2 | .rup => 3 | .sr => 4 | .sat => 5

def RM.ofCode (c : BitVec 3) : Except DecodeError RM :=
  match c.toNat with
  | 0 => .ok .rne | 1 => .ok .rtz | 2 => .ok .rdn | 3 => .ok .rup | 4 => .ok .sr | 5 => .ok .sat
  | _ => .error .reservedRounding

/-- SC of R67. -/
def Scope.code : Scope → BitVec 3
  | .none => 0 | .team => 1 | .core => 2 | .die => 3 | .dev => 4 | .sys => 5

def Scope.ofCode (c : BitVec 3) : Except DecodeError Scope :=
  match c.toNat with
  | 0 => .ok .none | 1 => .ok .team | 2 => .ok .core | 3 => .ok .die | 4 => .ok .dev | 5 => .ok .sys
  | _ => .error .reservedScope

/-- CC of R88. -/
def Cmp.code : Cmp → BitVec 3
  | .eq => 0 | .ne => 1 | .lt => 2 | .le => 3 | .gt => 4 | .ge => 5

def Cmp.ofCode (c : BitVec 3) : Except DecodeError Cmp :=
  match c.toNat with
  | 0 => .ok .eq | 1 => .ok .ne | 2 => .ok .lt | 3 => .ok .le | 4 => .ok .gt | 5 => .ok .ge
  | _ => .error .reservedField

/-- ST of R88. -/
def ScmpTy.code : ScmpTy → BitVec 3
  | .s32 => 0 | .n32 => 1 | .f32 => 2 | .s64 => 3 | .n64 => 4

def ScmpTy.ofCode (c : BitVec 3) : Except DecodeError ScmpTy :=
  match c.toNat with
  | 0 => .ok .s32 | 1 => .ok .n32 | 2 => .ok .f32 | 3 => .ok .s64 | 4 => .ok .n64
  | _ => .error .reservedType

/-- Refuse unless a check holds. -/
def require (ok : Bool) (e : DecodeError) : Except DecodeError Unit :=
  if ok then .ok () else .error e

/-! ### F1 and X1 (R63 to R65) -/

/-- The word X1. -/
def X1.word (x : X1) : Word :=
  x.c.code ++ BitVec.ofNat 4 x.ty.code ++ x.rm.code ++ BitVec.ofBool x.sat ++ BitVec.ofBool x.na
    ++ BitVec.ofBool x.nb ++ x.fn ++ 0#8

/-- The words of an F1 instruction with opcode `op`. -/
def F1.words (o : F1) (op : BitVec 7) : List Word :=
  let w : Word := BitVec.ofBool o.x.isSome ++ op ++ o.d.code ++ o.a.code ++ o.b.code
  match o.x with
  | none => w :: (o.a.literal ++ o.b.literal)
  | some x => w :: x.word :: (o.a.literal ++ o.b.literal ++ x.c.literal)

/-- X1 without its operand C. -/
def X1.fields (x : Word) (c : Operand) : Except DecodeError X1 := do
  require (x.field 0 8 == 0) .reservedField
  let rm ← RM.ofCode (x.field 17 3)
  match Ty.ofCode (x.field 20 4).toNat with
  | none => .error .reservedType
  | some ty =>
    .ok { c := c, ty := ty, rm := rm, sat := x.getLsbD 16, na := x.getLsbD 15, nb := x.getLsbD 14, fn := x.field 8 6 }

/-- The operands of an F1 instruction whose first word is `w`, with the words left over. -/
def F1.ofWords (w : Word) (ws : List Word) : Except DecodeError (F1 × List Word) := do
  let d ← Operand.ofCode (w.field 16 8)
  if w.getLsbD 31 then
    match ws with
    | [] => .error .truncated
    | x :: ws =>
      let (a, ws) ← Operand.source (w.field 8 8) ws
      let (b, ws) ← Operand.source (w.field 0 8) ws
      let (c, ws) ← Operand.source (x.field 24 8) ws
      let x1 ← X1.fields x c
      .ok ({ d := d, a := a, b := b, x := some x1 }, ws)
  else
    let (a, ws) ← Operand.source (w.field 8 8) ws
    let (b, ws) ← Operand.source (w.field 0 8) ws
    .ok ({ d := d, a := a, b := b, x := none }, ws)

/-! ### F2 and X2 (R66, R67) -/

/-- The word X2. -/
def X2.word (x : X2) : Word :=
  x.b.code ++ x.sz ++ x.sc.code ++ x.rh ++ x.fn ++ x.imm

/-- The words of an F2 instruction with opcode `op`. -/
def F2.words (o : F2) (op : BitVec 7) : List Word :=
  let w : Word := BitVec.ofBool o.x.isSome ++ op ++ o.l ++ o.tk ++ 0#1 ++ o.d.code ++ o.a.code
  match o.x with
  | none => w :: o.a.literal
  | some x => w :: x.word :: (o.a.literal ++ x.b.literal)

/-- The operands of an F2 instruction whose first word is `w`, with the words left over. -/
def F2.ofWords (w : Word) (ws : List Word) : Except DecodeError (F2 × List Word) := do
  require (!w.getLsbD 16) .reservedField
  let d ← Operand.ofCode (w.field 8 8)
  if w.getLsbD 31 then
    match ws with
    | [] => .error .truncated
    | x :: ws =>
      let (a, ws) ← Operand.source (w.field 0 8) ws
      let (b, ws) ← Operand.source (x.field 24 8) ws
      let sc ← Scope.ofCode (x.field 17 3)
      .ok ({ l := w.field 20 4, tk := w.field 17 3, d := d, a := a,
             x := some { b := b, sz := x.field 20 4, sc := sc, rh := x.field 15 2, fn := x.field 12 3,
                         imm := x.field 0 12 } }, ws)
  else
    let (a, ws) ← Operand.source (w.field 0 8) ws
    .ok ({ l := w.field 20 4, tk := w.field 17 3, d := d, a := a, x := none }, ws)

/-! ### Opcode map of classes 0 to 4 (R74) -/

/-- Opcodes of class 0 (R74); an OP value that is not here is reserved. -/
def class0Op : Nat → Option (F1 → Instr)
  | 0x00 => some .mov
  | 0x01 => some .sel
  | 0x02 => some .iadd
  | 0x03 => some .isub
  | 0x04 => some .iadc
  | 0x05 => some .isbc
  | 0x06 => some .imul
  | 0x07 => some .imulh
  | 0x08 => some .imad
  | 0x09 => some .imin
  | 0x0A => some .imax
  | 0x0B => some .iabs
  | 0x0C => some .ineg
  | 0x0D => some .andL
  | 0x0E => some .orL
  | 0x0F => some .xorL
  | 0x10 => some .andn
  | 0x11 => some .notL
  | 0x12 => some .shl
  | 0x13 => some .shr
  | 0x14 => some .sar
  | 0x15 => some .rot
  | 0x16 => some .bfx
  | 0x17 => some .bfi
  | 0x18 => some .popc
  | 0x19 => some .clz
  | 0x1A => some .brev
  | 0x1B => some .lea
  | 0x1C => some .iset
  | 0x1D => some .bytep
  | 0x20 => some .fadd
  | 0x21 => some .fsub
  | 0x22 => some .fmul
  | 0x23 => some .ffma
  | 0x24 => some .fmin
  | 0x25 => some .fmax
  | 0x26 => some .fset
  | 0x27 => some .frcp
  | 0x28 => some .frsq
  | 0x29 => some .fsqrt
  | 0x2A => some .fexp2
  | 0x2B => some .flog2
  | 0x2C => some .fscale
  | 0x2D => some .fexpo
  | 0x2E => some .fclass
  | 0x2F => some .frnd
  | 0x30 => some .cvt
  | 0x31 => some .pack
  | 0x32 => some .unpk
  | 0x33 => some .hfma2
  | 0x34 => some .hadd2
  | 0x35 => some .hmul2
  | 0x36 => some .dot4
  | 0x37 => some .dot2
  | 0x40 => some .pand
  | 0x41 => some .por
  | 0x42 => some .pxor
  | 0x43 => some .pnot
  | 0x44 => some .pmov
  | 0x46 => some .sval
  | _ => none

/-- Opcodes of class 1 (R74); an OP value that is not here is reserved. -/
def class1Op : Nat → Option (F1 → Instr)
  | 0x00 => some .shfl
  | 0x01 => some .bcast
  | 0x02 => some .vote
  | 0x03 => some .reduce
  | 0x04 => some .scan
  | 0x05 => some .lrscan
  | 0x06 => some .segred
  | 0x07 => some .segscan
  | 0x08 => some .compact
  | 0x09 => some .matchP
  | 0x0A => some .exset
  | 0x0B => some .exdeal
  | 0x0C => some .exclr
  | _ => none

/-- Opcodes of class 2 (R74); an OP value that is not here is reserved. -/
def class2Op : Nat → Option (F2 → Instr)
  | 0x00 => some .ld
  | 0x01 => some .st
  | 0x02 => some .lda
  | 0x03 => some .waitk
  | 0x04 => some .atom
  | 0x05 => some .atomn
  | 0x06 => some .cas
  | 0x07 => some .hacc
  | 0x08 => some .gather
  | 0x09 => some .scatr
  | 0x0A => some .lockl
  | 0x0B => some .unlockl
  | 0x0C => some .pfetch
  | 0x0D => some .fence
  | 0x0E => some .cflush
  | 0x0F => some .cinval
  | _ => none

/-- Opcodes of class 3 (R74); an OP value that is not here is reserved. -/
def class3Op : Nat → Option (F2 → Instr)
  | 0x00 => some .wbload
  | 0x01 => some .wbdrop
  | 0x02 => some .mma
  | 0x03 => some .mmas
  | 0x04 => some .accz
  | 0x05 => some .accld
  | 0x06 => some .accst
  | 0x07 => some .accdr
  | 0x08 => some fun o => if o.ext.fn.getLsbD 0 then .accrdSt o else .accrd o
  | 0x09 => some .attn
  | 0x0A => some .attnfin
  | 0x0B => some .psel
  | 0x0C => some .kvapp
  | 0x0E => some .demote
  | 0x0F => some .kvres
  | _ => none

/-- Opcodes of class 4 (R74); an OP value that is not here is reserved. -/
def class4Op : Nat → Option (F2 → Instr)
  | 0x00 => some .copy
  | 0x01 => some .copyy
  | 0x02 => some .bseal
  | 0x03 => some .waitb
  | 0x04 => some .binit
  | 0x05 => some .arrive
  | 0x06 => some .arrdrop
  | 0x07 => some .bwait
  | 0x08 => some .qsrch
  | 0x09 => some .lksend
  | 0x0A => some .spawn
  | 0x0B => some .glaunch
  | 0x0C => some .gscan
  | 0x0D => some .xacq
  | 0x0E => some .xrel
  | 0x0F => some .tqpush
  | _ => none

/-! ### F3: class 5 (R72, R82) -/

/-- The F3 word: opcode, BR, QN, NEG, CND, PN and [13:0]. -/
def f3Word (x : Bool) (op : BitVec 7) (b : BitVec 3) (q : BitVec 2) (neg cnd : Bool) (p : BitVec 3) (low : BitVec 14) :
    Word :=
  BitVec.ofBool x ++ op ++ b ++ q ++ BitVec.ofBool neg ++ BitVec.ofBool cnd ++ p ++ low

/-- An S code. -/
def sOperand : Operand → Except DecodeError (BitVec 6)
  | .s n => .ok n
  | _ => .error .reservedOperand

/-- X3 of PREPS and XCALL: A an S code, X3[15:0] zero, and B the code that PREPS has by R84 (0xF0), or zero for XCALL
(R72, R90; DEDUCED, log 21). -/
def x3Link (b : BitVec 8) (x : Word) : Except DecodeError (BitVec 6) := do
  require (x.field 0 16 == 0) .reservedField
  require (x.field 16 8 == b) .reservedOperand
  let o ← Operand.ofCode (x.field 24 8)
  sOperand o

/-- A class 5 instruction without X3. -/
def class5Plain (w : Word) : Except DecodeError Instr :=
  let b := w.field 21 3
  let q := w.field 19 2
  let neg := w.getLsbD 18
  let cnd := w.getLsbD 17
  let p := w.field 14 3
  let low := w.field 0 14
  let only (bU qU nU cU pU lU : Bool) (i : Instr) : Except DecodeError Instr :=
    if (bU || b == 0) && (qU || q == 0) && (nU || !neg) && (cU || !cnd) && (pU || p == 0) && (lU || low == 0) then .ok i
    else .error .reservedField
  match (w.field 24 7).toNat with
  | 0x00 => only false false false false false false .nop
  | 0x01 => if w.field 18 3 == 0 then .ok (.prep b (w.field 0 18)) else .error .reservedField
  | 0x04 => only true true true true false false (.xfer b q neg cnd)
  | 0x05 => only true true true true false false (.xcall b q neg cnd none)
  | 0x06 => only true false true false true false (.xany b p neg)
  | 0x07 => only true false true false true false (.xall b p neg)
  | 0x08 => only false false false false true false (.ifP p)
  | 0x09 => only false false false false true false (.ifnP p)
  | 0x0A => only false false false false false false .elseP
  | 0x0B => only false false false false false false .endif
  | 0x0C => only false false false false false false .loopP
  | 0x0D => only false false false false true false (.breakP p)
  | 0x0E => only false false false false true false (.contP p)
  | 0x0F => only false true false false false false (.endloop q)
  | 0x10 => only false false false false false false .serial
  | 0x11 => only false true false false false false (.endserial q)
  | 0x12 => only false false false false false true (.yieldP low)
  | 0x13 =>
    if low == 0 then only false false false false true false (.exitP p)
    else if low == 0x2000 && p == 7 then only false false false false true true .exitSaved
    else .error .reservedField
  | 0x14 => only false true true true false true (.trapU q neg cnd low)
  | 0x16 => only false false false false false false .icsync
  | 0x17 => only false false false false false true (.bkpt low)
  | 0x18 =>
    if low.extractLsb' 0 11 != 0 then .error .reservedField
    else
      let val := low.getLsbD 11
      match (low.extractLsb' 12 2).toNat with
      | 0 => only false true false false false true (.qset q (.const val))
      | 1 => if val then .error .reservedField else only false true true false true true (.qset q (.any p neg))
      | 2 => if val then .error .reservedField else only false true true false true true (.qset q (.all p neg))
      | _ => .error .reservedField
  | 0x02 | 0x03 => .error .extensionWord
  | _ => .error .reservedOpcode

/-- A class 5 instruction with X3. -/
def class5Ext (w x : Word) : Except DecodeError Instr :=
  let b := w.field 21 3
  let q := w.field 19 2
  match (w.field 24 7).toNat with
  | 0x02 => do
    require (w.field 18 3 == 0) .reservedField
    let s ← x3Link 0xF0 x
    .ok (.preps b (w.field 0 18) s)
  | 0x03 => do
    require (b == 0 && w.field 14 5 == 0 && w.field 0 8 == 0 && x.field 0 16 == 0) .reservedField
    let cc ← Cmp.ofCode (w.field 11 3)
    let ty ← ScmpTy.ofCode (w.field 8 3)
    let a ← Operand.ofCode (x.field 24 8)
    let c ← Operand.ofCode (x.field 16 8)
    .ok (.scmp q cc ty a c)
  | 0x05 => do
    require (w.field 0 17 == 0) .reservedField
    let s ← x3Link 0 x
    .ok (.xcall b q (w.getLsbD 18) (w.getLsbD 17) (some s))
  | op => if op ≤ 0x18 && op != 0x15 then .error .extensionWord else .error .reservedOpcode

/-! ### F4: class 6 (R73, R211) -/

def f4Word (x : Bool) (op : BitVec 7) (d : BitVec 8) (imm : BitVec 16) : Word :=
  BitVec.ofBool x ++ op ++ d ++ imm

/-- The optional VA operand of STATESV and STATERS. -/
def vaCode : Option (BitVec 6) → BitVec 8
  | none => 0xF0
  | some s => (Operand.s s).code

/-- The reverse: an S code, or 0xF0 for SAVEPTR. -/
def vaOperand : Operand → Except DecodeError (Option (BitVec 6))
  | .zero => .ok none
  | .s n => .ok (some n)
  | _ => .error .reservedOperand

/-- D = 0xF0. -/
def noOperand (o : Operand) : Except DecodeError Unit :=
  require (o == .zero) .reservedOperand

/-- A class 6 instruction without X4. -/
def class6Plain (w : Word) : Except DecodeError Instr := do
  let d ← Operand.ofCode (w.field 16 8)
  let imm := w.field 0 16
  match (w.field 24 7).toNat with
  | 0x00 => do
    let s ← sOperand d
    .ok (.srd s imm)
  | 0x01 => do
    let s ← sOperand d
    .ok (.swr s imm)
  | 0x02 => do
    let s ← vaOperand d
    if imm == 0 then .ok (.statesvTeam s) else if imm == 1 then .ok (.statesvBar s) else .error .reservedField
  | 0x03 => do
    let s ← vaOperand d
    if imm == 0 then .ok (.statersTeam s) else if imm == 1 then .ok (.statersBar s) else .error .reservedField
  | 0x04 => do
    noOperand d
    .ok (.svc imm)
  | 0x05 => do
    noOperand d
    require (imm == 0) .reservedField
    .ok .eret
  | 0x06 => do
    let s ← sOperand d
    require (imm.toNat ≤ 1) .reservedField
    .ok (.clkrd s (imm == 1))
  | 0x08 => do
    noOperand d
    require (imm.toNat ≤ 1) .reservedField
    .ok (.worldx (imm == 1))
  | 0x07 => .error .extensionWord
  | _ => .error .reservedOpcode

/-- A class 6 instruction with X4: TLBINV (R211). -/
def class6Ext (w x : Word) : Except DecodeError Instr := do
  let d ← Operand.ofCode (w.field 16 8)
  match (w.field 24 7).toNat with
  | 0x07 => do
    require (x.field 17 15 == 0) .reservedField
    match (w.field 0 16).toNat with
    | 0 => do
      let s ← sOperand d
      .ok (.tlbinv (.page s (x.getLsbD 16) (x.field 0 16)))
    | 1 => do
      noOperand d
      require (!x.getLsbD 16) .reservedField
      .ok (.tlbinv (.asid (x.field 0 16)))
    | 2 => do
      noOperand d
      require (x == 0) .reservedField
      .ok (.tlbinv .all)
    | _ => .error .reservedField
  | op => if op ≤ 0x08 then .error .extensionWord else .error .reservedOpcode

/-! ### Instructions -/

/-- A well-formed instruction, or its refusal by name. -/
def Instr.checked (i : Instr) (rest : List Word) : Except DecodeError (Instr × List Word) :=
  match i.illFormed with
  | none => .ok (i, rest)
  | some e => .error (.badForm e)

/-- The opcode map of an F1 class. -/
def f1Op (cls : Nat) : Nat → Option (F1 → Instr) :=
  match cls with
  | 0 => class0Op
  | _ => class1Op

/-- The opcode map of an F2 class. -/
def f2Op (cls : Nat) : Nat → Option (F2 → Instr) :=
  match cls with
  | 2 => class2Op
  | 3 => class3Op
  | _ => class4Op

/-- Decodes the first instruction of the words by the format of its class (R61): the instruction with the words left
over. -/
def decodeInstr (cls : Nat) (ws : List Word) : Except DecodeError (Instr × List Word) :=
  match ws with
  | [] => .error .truncated
  | w :: ws =>
    let op := (w.field 24 7).toNat
    if cls ≤ 1 then
      match f1Op cls op with
      | none => .error .reservedOpcode
      | some f => do
        let (o, rest) ← F1.ofWords w ws
        (f o).checked rest
    else if cls ≤ 4 then
      match f2Op cls op with
      | none => .error .reservedOpcode
      | some f => do
        let (o, rest) ← F2.ofWords w ws
        (f o).checked rest
    else if w.getLsbD 31 then
      match ws with
      | [] => .error .truncated
      | x :: rest => do
        let i ← if cls == 5 then class5Ext w x else class6Ext w x
        i.checked rest
    else do
      let i ← if cls == 5 then class5Plain w else class6Plain w
      i.checked ws

/-- Words of the instruction that begins the list, from its codes alone (R62). -/
def instrLength (cls : Nat) (ws : List Word) : Nat :=
  let lit (c : BitVec 8) : Nat := if c == 0xF8 then 1 else if c == 0xF9 then 2 else 0
  match ws with
  | [] => 1
  | w :: ws =>
    let x := ws.headD 0
    let ext := w.getLsbD 31
    1 + ext.toNat +
      (if cls ≤ 1 then lit (w.field 8 8) + lit (w.field 0 8) + (if ext then lit (x.field 24 8) else 0)
       else if cls ≤ 4 then lit (w.field 0 8) + (if ext then lit (x.field 24 8) else 0)
       else 0)

/-- The terminal instructions (R61). -/
def Instr.terminal : Instr → Bool
  | .xfer .. | .xcall .. | .xany .. | .xall .. | .exitP .. | .exitSaved | .trapU .. | .eret | .svc .. => true
  | _ => false

/-- The six class 5 terminal instructions, which may stand at an E position (R61). -/
def Instr.terminal5 : Instr → Bool
  | .xfer .. | .xcall .. | .xany .. | .xall .. | .exitP .. | .exitSaved | .trapU .. => true
  | _ => false

/-! ### Clauses (R59 to R62, R75) -/

/-- A clause header (R60). -/
structure Header where
  n   : Nat
  cls : Nat
  e   : Bool
  y   : Bool
  wt  : BitVec 7
deriving DecidableEq, Repr

/-- The header of a word; `none` is ILLEGAL_CLAUSE (R75). Bit `t - 1` of `wt` names token `t`. -/
def Header.ofWord (w : Word) : Option Header :=
  let n := (w.field 28 4).toNat
  let cls := (w.field 25 3).toNat
  let e := w.getLsbD 24
  if n == 0 || cls == 7 || w.field 0 16 != 0 || (e && cls == 5) then none
  else some { n := n, cls := cls, e := e, y := w.getLsbD 23, wt := w.field 16 7 }

/-- The word of a header. -/
def Header.word (h : Header) : Word :=
  BitVec.ofNat 4 h.n ++ BitVec.ofNat 3 h.cls ++ BitVec.ofBool h.e ++ BitVec.ofBool h.y ++ h.wt ++ 0#16

/-- The class by which position `pos` (from 1) of a clause is decoded (R61). -/
def Header.classAt (h : Header) (pos : Nat) : Nat :=
  if h.e && pos == h.n then 5 else h.cls

/-- Decodes position `pos` of a clause, the terminal rules of R61 included. -/
def decodeAt (h : Header) (pos : Nat) (ws : List Word) : Except DecodeError (Instr × List Word) := do
  let (i, rest) ← decodeInstr (h.classAt pos) ws
  if h.e && pos == h.n then
    if i.terminal5 then .ok (i, rest) else .error .terminalPlace
  else if i.terminal && pos != h.n then .error .terminalPlace
  else .ok (i, rest)

/-- Words of positions `pos` to `pos + k - 1` of a clause, from codes alone (R62). -/
def clauseWords (h : Header) (pos : Nat) : Nat → List Word → Nat
  | 0, _ => 0
  | k + 1, ws =>
    let l := instrLength (h.classAt pos) ws
    l + clauseWords h (pos + 1) k (ws.drop l)

/-! ### The encoder -/

/-- The class of an encoded instruction; an event has none and answers 7, which no clause has (R75). -/
def Instr.cls (i : Instr) : Nat :=
  if i.encoded then
    match i with
    | .shfl _ | .bcast _ | .vote _ | .reduce _ | .scan _ | .lrscan _ | .segred _ | .segscan _ | .compact _
    | .matchP _ | .exset _ | .exdeal _ | .exclr _ => 1
    | .ld _ | .st _ | .lda _ | .waitk _ | .atom _ | .atomn _ | .cas _ | .hacc _ | .gather _ | .scatr _ | .lockl _
    | .unlockl _ | .pfetch _ | .fence _ | .cflush _ | .cinval _ => 2
    | .wbload _ | .wbdrop _ | .mma _ | .mmas _ | .accz _ | .accld _ | .accst _ | .accdr _ | .accrd _ | .attn _
    | .attnfin _ | .psel _ | .kvapp _ | .demote _ | .kvres _ | .accrdSt _ => 3
    | .copy _ | .copyy _ | .bseal _ | .waitb _ | .binit _ | .arrive _ | .arrdrop _ | .bwait _ | .qsrch _
    | .lksend _ | .spawn _ | .glaunch _ | .gscan _ | .xacq _ | .xrel _ | .tqpush _ => 4
    | .nop | .prep .. | .preps .. | .scmp .. | .xfer .. | .xcall .. | .xany .. | .xall .. | .ifP _ | .ifnP _ | .elseP
    | .endif | .loopP | .breakP _ | .contP _ | .endloop _ | .serial | .endserial _ | .yieldP _ | .exitP _ | .exitSaved
    | .trapU .. | .icsync | .bkpt _ | .qset .. => 5
    | .srd .. | .swr .. | .statesvTeam _ | .statesvBar _ | .statersTeam _ | .statersBar _ | .svc _ | .eret | .clkrd ..
    | .tlbinv _ | .worldx _ => 6
    | _ => 0
  else 7

/-- The words of an instruction; an event has none. -/
def encode : Instr → List Word
  | .mov o => o.words 0x00
  | .sel o => o.words 0x01
  | .iadd o => o.words 0x02
  | .isub o => o.words 0x03
  | .iadc o => o.words 0x04
  | .isbc o => o.words 0x05
  | .imul o => o.words 0x06
  | .imulh o => o.words 0x07
  | .imad o => o.words 0x08
  | .imin o => o.words 0x09
  | .imax o => o.words 0x0A
  | .iabs o => o.words 0x0B
  | .ineg o => o.words 0x0C
  | .andL o => o.words 0x0D
  | .orL o => o.words 0x0E
  | .xorL o => o.words 0x0F
  | .andn o => o.words 0x10
  | .notL o => o.words 0x11
  | .shl o => o.words 0x12
  | .shr o => o.words 0x13
  | .sar o => o.words 0x14
  | .rot o => o.words 0x15
  | .bfx o => o.words 0x16
  | .bfi o => o.words 0x17
  | .popc o => o.words 0x18
  | .clz o => o.words 0x19
  | .brev o => o.words 0x1A
  | .lea o => o.words 0x1B
  | .iset o => o.words 0x1C
  | .bytep o => o.words 0x1D
  | .fadd o => o.words 0x20
  | .fsub o => o.words 0x21
  | .fmul o => o.words 0x22
  | .ffma o => o.words 0x23
  | .fmin o => o.words 0x24
  | .fmax o => o.words 0x25
  | .fset o => o.words 0x26
  | .frcp o => o.words 0x27
  | .frsq o => o.words 0x28
  | .fsqrt o => o.words 0x29
  | .fexp2 o => o.words 0x2A
  | .flog2 o => o.words 0x2B
  | .fscale o => o.words 0x2C
  | .fexpo o => o.words 0x2D
  | .fclass o => o.words 0x2E
  | .frnd o => o.words 0x2F
  | .cvt o => o.words 0x30
  | .pack o => o.words 0x31
  | .unpk o => o.words 0x32
  | .hfma2 o => o.words 0x33
  | .hadd2 o => o.words 0x34
  | .hmul2 o => o.words 0x35
  | .dot4 o => o.words 0x36
  | .dot2 o => o.words 0x37
  | .pand o => o.words 0x40
  | .por o => o.words 0x41
  | .pxor o => o.words 0x42
  | .pnot o => o.words 0x43
  | .pmov o => o.words 0x44
  | .sval o => o.words 0x46
  | .shfl o => o.words 0x00
  | .bcast o => o.words 0x01
  | .vote o => o.words 0x02
  | .reduce o => o.words 0x03
  | .scan o => o.words 0x04
  | .lrscan o => o.words 0x05
  | .segred o => o.words 0x06
  | .segscan o => o.words 0x07
  | .compact o => o.words 0x08
  | .matchP o => o.words 0x09
  | .exset o => o.words 0x0A
  | .exdeal o => o.words 0x0B
  | .exclr o => o.words 0x0C
  | .ld o => o.words 0x00
  | .st o => o.words 0x01
  | .lda o => o.words 0x02
  | .waitk o => o.words 0x03
  | .atom o => o.words 0x04
  | .atomn o => o.words 0x05
  | .cas o => o.words 0x06
  | .hacc o => o.words 0x07
  | .gather o => o.words 0x08
  | .scatr o => o.words 0x09
  | .lockl o => o.words 0x0A
  | .unlockl o => o.words 0x0B
  | .pfetch o => o.words 0x0C
  | .fence o => o.words 0x0D
  | .cflush o => o.words 0x0E
  | .cinval o => o.words 0x0F
  | .wbload o => o.words 0x00
  | .wbdrop o => o.words 0x01
  | .mma o => o.words 0x02
  | .mmas o => o.words 0x03
  | .accz o => o.words 0x04
  | .accld o => o.words 0x05
  | .accst o => o.words 0x06
  | .accdr o => o.words 0x07
  | .accrd o => o.words 0x08
  | .accrdSt o => o.words 0x08
  | .attn o => o.words 0x09
  | .attnfin o => o.words 0x0A
  | .psel o => o.words 0x0B
  | .kvapp o => o.words 0x0C
  | .demote o => o.words 0x0E
  | .kvres o => o.words 0x0F
  | .copy o => o.words 0x00
  | .copyy o => o.words 0x01
  | .bseal o => o.words 0x02
  | .waitb o => o.words 0x03
  | .binit o => o.words 0x04
  | .arrive o => o.words 0x05
  | .arrdrop o => o.words 0x06
  | .bwait o => o.words 0x07
  | .qsrch o => o.words 0x08
  | .lksend o => o.words 0x09
  | .spawn o => o.words 0x0A
  | .glaunch o => o.words 0x0B
  | .gscan o => o.words 0x0C
  | .xacq o => o.words 0x0D
  | .xrel o => o.words 0x0E
  | .tqpush o => o.words 0x0F
  | .nop => [f3Word false 0x00 0 0 false false 0 0]
  | .prep b off => [0#1 ++ 0x01#7 ++ b ++ 0#3 ++ off]
  | .preps b off s => [1#1 ++ 0x02#7 ++ b ++ 0#3 ++ off, (Operand.s s).code ++ 0xF0#8 ++ 0#16]
  | .scmp q cc ty a b =>
    [f3Word true 0x03 0 q false false 0 (cc.code ++ ty.code ++ 0#8), a.code ++ b.code ++ 0#16]
  | .xfer b q neg cnd => [f3Word false 0x04 b q neg cnd 0 0]
  | .xcall b q neg cnd none => [f3Word false 0x05 b q neg cnd 0 0]
  | .xcall b q neg cnd (some s) => [f3Word true 0x05 b q neg cnd 0 0, (Operand.s s).code ++ 0#24]
  | .xany b p neg => [f3Word false 0x06 b 0 neg false p 0]
  | .xall b p neg => [f3Word false 0x07 b 0 neg false p 0]
  | .ifP p => [f3Word false 0x08 0 0 false false p 0]
  | .ifnP p => [f3Word false 0x09 0 0 false false p 0]
  | .elseP => [f3Word false 0x0A 0 0 false false 0 0]
  | .endif => [f3Word false 0x0B 0 0 false false 0 0]
  | .loopP => [f3Word false 0x0C 0 0 false false 0 0]
  | .breakP p => [f3Word false 0x0D 0 0 false false p 0]
  | .contP p => [f3Word false 0x0E 0 0 false false p 0]
  | .endloop q => [f3Word false 0x0F 0 q false false 0 0]
  | .serial => [f3Word false 0x10 0 0 false false 0 0]
  | .endserial q => [f3Word false 0x11 0 q false false 0 0]
  | .yieldP n => [f3Word false 0x12 0 0 false false 0 n]
  | .exitP p => [f3Word false 0x13 0 0 false false p 0]
  | .exitSaved => [f3Word false 0x13 0 0 false false 7 0x2000]
  | .trapU q neg cnd code => [f3Word false 0x14 0 q neg cnd 0 code]
  | .icsync => [f3Word false 0x16 0 0 false false 0 0]
  | .bkpt code => [f3Word false 0x17 0 0 false false 0 code]
  | .qset q (.const v) => [f3Word false 0x18 0 q false false 0 (0#2 ++ BitVec.ofBool v ++ 0#11)]
  | .qset q (.any p neg) => [f3Word false 0x18 0 q neg false p (1#2 ++ 0#12)]
  | .qset q (.all p neg) => [f3Word false 0x18 0 q neg false p (2#2 ++ 0#12)]
  | .srd d reg => [f4Word false 0x00 (Operand.s d).code reg]
  | .swr d reg => [f4Word false 0x01 (Operand.s d).code reg]
  | .statesvTeam va => [f4Word false 0x02 (vaCode va) 0]
  | .statesvBar va => [f4Word false 0x02 (vaCode va) 1]
  | .statersTeam va => [f4Word false 0x03 (vaCode va) 0]
  | .statersBar va => [f4Word false 0x03 (vaCode va) 1]
  | .svc code => [f4Word false 0x04 0xF0 code]
  | .eret => [f4Word false 0x05 0xF0 0]
  | .clkrd d clk => [f4Word false 0x06 (Operand.s d).code (BitVec.ofNat 16 clk.toNat)]
  | .tlbinv (.page s large asid) => [f4Word true 0x07 (Operand.s s).code 0, 0#15 ++ BitVec.ofBool large ++ asid]
  | .tlbinv (.asid asid) => [f4Word true 0x07 0xF0 1, 0#16 ++ asid]
  | .tlbinv .all => [f4Word true 0x07 0xF0 2, 0]
  | .worldx secure => [f4Word false 0x08 0xF0 (BitVec.ofNat 16 secure.toNat)]
  | _ => []

/-! ### A bare word -/

/-- The classes in which a bare word is tried: the encodings with most fixed bits first (DESIGN CHOICE, log 13: a word
says nothing of its class, which stands in the clause header). -/
def bareClasses : List Nat := [5, 6, 4, 3, 2, 1, 0]

/-- The first class of the list in which the words decode. -/
def firstClass (ws : List Word) : List Nat → Option (Nat × Instr)
  | [] => none
  | c :: cs =>
    match decodeInstr c ws with
    | .ok (i, _) => some (c, i)
    | .error _ => firstClass ws cs

/-- The words of an instruction given as a number, bit 0 the least significant bit of the first word; the words above
are zero. The longest instruction has 8 words (R27). -/
def tableWords (nbits w : Nat) : List Word :=
  (List.range 8).map fun k => BitVec.ofNat 32 ((w % 2 ^ nbits) >>> (32 * k))

/-- The instruction this decoder reads from a bare word. -/
def decodeTableWord (nbits w : Nat) : Option Instr :=
  (firstClass (tableWords nbits w) bareClasses).map (·.2)

end Sys2Proof
end

