-- ==== Sys2Proof/Machine/State.lean ====
section
/-! DEFINITION. The state of the device, as plain data: every piece of state the spec gives it, and the model's own
fields (agenda, cur, freeCtr), which the inventory names as such. -/

namespace Sys2Proof

/-- A register that a window or a token can guard; K registers do not count, and nothing writes P7. -/
inductive Reg where
  | v (n : Nat)
  | s (n : Nat)
  | p (n : Nat)
  | q (n : Nat)
deriving DecidableEq, Repr

end Sys2Proof

namespace Sys2Proof.Machine

/-! ### Memory -/

/-- Bytes by address, strictly rising, none equal to what an unlisted address reads as (0; DESIGN CHOICE, log 1). -/
abbrev Memory := List Host.Cell

/-- What an unlisted address of device memory or scratch reads as (log 1). -/
def Memory.unlisted : Byte := 0

/-- The canonical form: addresses strictly rise from `lo` and no entry holds the unlisted byte. -/
def Memory.wfFrom (lo : Nat) : Memory → Bool
  | [] => true
  | (a, b) :: rest => lo ≤ a && b != Memory.unlisted && Memory.wfFrom (a + 1) rest

/-- The canonical form of a memory. -/
def Memory.wf (m : Memory) : Bool := Memory.wfFrom 0 m

/-! ### Traps and translation -/

/-- The traps of R76. -/
inductive TrapCode where
  | illegalClause | illegalInstr | unpreparedTarget | maskStackOverflow | maskStackMismatch | illegalConvergence
  | rangeLock | misaligned | pageFault | protection | memoryError | barrierBroken | expandState | userTrap | breakpoint
  | preempt | lookaheadViolation | privileged | worldViolation | weightStream | kvDescriptor | watchdog | extTimeout
deriving DecidableEq, Repr

/-- A trap with the values its entry gives INFO, ADDR and the lane record (R98, R264). -/
structure Trap where
  code  : TrapCode
  info  : BitVec 16 := 0
  addr  : DWord := 0
  lanes : DWord := 0
deriving DecidableEq, Repr

/-- What a mapping in device memory carries to the caches (R250, R258, R260): the ASID and granule it translates, its leaf
entry, and the die through whose L2 the access goes (none: the accesses of the front end, which go to the home die). -/
structure Page where
  asid : BitVec 16
  g    : Nat
  leaf : DWord
  via  : Option Nat
deriving DecidableEq, Repr

/-- The outcome of translating one granule for one access (R257, R259). A mapped granule carries the physical, host or
peer address of its first byte. -/
inductive Xlat where
  | mapped (base : Nat) (page : Page)
  | host (base : Nat)
  | peer (dev : BitVec 19) (base : Nat)
  | missing
  | denied
  | world
  /-- The walk met an uncorrectable error (R274). -/
  | walkError
  /-- An MT = 1 leaf whose ATS answer has not come (R347). -/
  | awaitAts (page : Nat)
deriving DecidableEq, Repr

/-- Where to resume (R98): EPC, IDX, RK and CMASK. -/
structure Resume where
  epc   : DWord
  idx   : BitVec 4
  rk    : BitVec 2
  cmask : BitVec 15
  /-- It goes on inside a clause that a missing page had parked (R268): its start is no clause boundary. -/
  inside : Bool := false
deriving DecidableEq, Repr

/-- A parked team (R269): where it re-issues, the granules not yet cleared, each with the address of the lowest lane that
met it, and the lane records of the lanes that met each (R264). -/
structure Park where
  resume  : Resume
  missing : List (Nat × DWord)
  fetch   : Bool
  lanes   : List (Nat × DWord) := []
  /-- A resolve has failed one of them: ADDR and the lane record of the PROTECTION to be entered (R97, R271). -/
  failed  : Option (DWord × DWord) := none
deriving DecidableEq, Repr

/-! ### A team (01) -/

/-- A branch-target register (R17) with the words its prefetch has copied (R85). -/
structure Branch where
  target : BitVec 52
  valid  : Bool
  gen    : BitVec 8
  pf     : BitVec 2
  copy   : List Word
deriving DecidableEq, Repr

/-- The kind of a mask-stack entry (R91). -/
inductive MaskKind where
  | ifK | elseK | loopX | loopC | serialX | serialR
deriving DecidableEq, Repr

/-- A mask-stack entry (R21, R91). -/
structure MaskEntry where
  kind : MaskKind
  mask : Mask
deriving DecidableEq, Repr

/-- Expand state (R20, R28). Lane i's pair and owner are entry i of the lists; a lane past the end has (0, 0) and no
owner (0xFFFF_FFFF). -/
structure Expand where
  armed  : Bool
  total  : Word
  cursor : Word
  pairs  : List (Word × Word)
  owners : List Word
deriving DecidableEq, Repr

/-- The last copy descriptor of a team with its MCBASE and origin offset (R198, R199). -/
structure LastCopy where
  desc   : List Byte
  mcbase : Word
  origin : Word
deriving DecidableEq, Repr

/-- What a register held before an instruction wrote it that has completed, with lookahead checking disabled: an instruction
that breaks the promise of R68 may still read it (R71). `upto` is the last position of the window in its clause. -/
structure Shadow where
  tk     : Nat
  clause : Nat
  upto   : Nat
  reg    : Reg
  old    : List Word
deriving DecidableEq, Repr

/-- An outstanding F2 instruction (R68, R70, R265): what it read at issue, and the translations it has received. -/
structure Outst where
  /-- Position in its clause. -/
  pos    : Nat
  /-- Which clause of the team it belongs to. -/
  clause : Nat
  instr  : Instr
  l      : Nat
  tk     : Nat
  /-- Active mask at issue. -/
  act    : Mask
  /-- Lane (0 for a scalar form) and address of each access, in lane order. -/
  addrs  : List (Nat × Nat)
  /-- Lane and D value, lane and B value, each of the access size. -/
  data   : List (Nat × Nat)
  datb   : List (Nat × Nat)
  /-- Operand values of a per-team form. -/
  args   : List Nat
  /-- Bytes read before acceptance: a copy descriptor or a command block. -/
  block  : List Byte
  /-- Granules (VA[63:16]) whose translation the instruction needs, and the outcomes received, in order. -/
  needs  : List Nat
  outs   : List (Nat × Xlat)
  /-- A trap the instruction met at its completion (R265); it is then not complete. -/
  fail   : Option Trap
  /-- Global issue order (R209, R166). -/
  seq    : Nat
  /-- Clock of issue (R209). -/
  since  : Nat
  /-- Its command is in the queue of its matrix context (ACCRD, R166). -/
  taken  : Bool
  /-- Its steps on peer pages have been sent, and it waits for their answers (R355). -/
  sent   : Bool := false
deriving DecidableEq, Repr

/-- Clause execution of a team. -/
structure Clause where
  header : Header
  /-- The clause's words after its header, as fetched. -/
  words  : List Word
  /-- Position of the next instruction, from 1; above N at the end of the clause. -/
  pos    : Nat
  /-- Word offset of that instruction in `words`. -/
  woff   : Nat
  /-- Positions that a re-issue skips (R268). -/
  skip   : BitVec 15
  /-- The clause address set by a taken transfer, or none for the clause in sequence (R90). -/
  next   : Option DWord
deriving DecidableEq, Repr

/-- One resident team. -/
structure Team where
  /-- The model's key of the team. -/
  id      : Nat
  ctx     : Nat
  core    : Nat
  sub     : Nat
  cast    : Nat
  cslot   : Nat
  grid    : Nat
  index   : BitVec 24
  n       : Nat
  pri     : Nat
  lchk    : Bool
  /-- Launch budget b and extension granules (R14, R22). -/
  base    : Nat
  extg    : Nat
  /-- Register runs held: group (with 1 for an extension run), first granule, length (R290). -/
  runs    : List (Nat × Bool × Nat × Nat)
  v       : List (List Word)
  s       : List Word
  p       : List Mask
  q       : BitVec 4
  b       : List Branch
  k       : List (BitVec 16)
  stack   : List MaskEntry
  openNo  : BitVec 3
  openSeq : Nat
  sealed  : List Nat
  expand  : Expand
  last    : Option LastCopy
  act     : Mask
  exited  : Mask
  tmask   : Mask
  hnd     : Bool
  psave   : Bool
  svl     : Bool
  world   : Bool
  stamp   : BitVec 8
  tbase   : DWord
  saveptr : DWord
  ts      : List DWord
  fpstat  : BitVec 5
  srseed  : Word
  srstream : Word
  svcvec  : DWord
  /-- Address of the clause header in execution or to be fetched. -/
  pc      : DWord
  clause  : Option Clause
  /-- Number of the clause, to tell an outstanding instruction of an earlier one. -/
  clauseNo : Nat
  /-- The prefetched copy that the next fetch uses (R87), or none. -/
  via     : Option (List Word)
  /-- Is the next fetch the target of a transfer (R98)? -/
  target  : Bool
  outst   : List Outst
  /-- Stores and atomics without a result that have completed (R70) and are not performed yet. -/
  posted  : List Outst
  /-- Registers that instructions still in their windows or under their tokens have written (R71). -/
  shadows : List Shadow := []
  /-- What an ERET or a resolve set up for the next clause (R99, R268). -/
  resume  : Option Resume
  park    : Option Park
  /-- Granules a resolve cleared while the team was collecting (R272). -/
  cleared : List Nat
  /-- A trap whose entry waits for outstanding instructions to settle, with its position (R265). -/
  pending : Option (Trap × Nat)
  /-- Each MEMORY_ERROR of a load of an earlier clause, taken at the next boundary (R267). -/
  late    : List Trap
  preempt : Bool
  wdogDue : Bool
  wdog    : Nat
  /-- Clocks of a YIELD wait still to run, taken up at the end of the clause (R95). -/
  yieldN  : Option Nat
  yield   : Option Nat
  /-- Port held, pass-over count, clock of the last clause's end (none: never issued), Y of that clause (R292). -/
  port    : Option Nat
  passed  : Nat
  lastEnd : Option Nat
  lastY   : Bool
  /-- Order of placement of its cast. -/
  placed  : Nat
  /-- Started at RENTRY and not yet past its first boundary (R299). -/
  restored : Bool
  /-- The team has ended and waits to retire (R16, R296). -/
  ended   : Bool
  /-- The team's remote writes not yet acknowledged (R241). -/
  unacked : Nat
deriving DecidableEq, Repr

/-! ### Caches (11) -/

/-- The retention class of a line (R147, R249). -/
inductive Retention where
  | stream | normal | sticky
deriving DecidableEq, Repr

/-- A virtual line in an L1 or in a die's L2 (R248, R250, R260). In the list of its cache the most recently used line
stands first. -/
structure Line where
  asid  : BitVec 16
  /-- Line number VA[51:7]. -/
  line  : Nat
  /-- Physical address of its first byte, and the leaf entry of its page, both as the line was filled. -/
  base  : Nat
  leaf  : DWord
  /-- Home die (R250); NH is 1 in the L2 of another die. -/
  home  : Nat
  ret   : Retention
  /-- Free-value count at which it was filled: the oldest sticky line has the least (R249). -/
  since : Nat
  data  : List Byte
  /-- Bytes written here and not yet written back; none in an L1. -/
  dirty : BitVec 128
  /-- Its 32-byte bursts that read uncorrectable when it was filled. -/
  bad   : BitVec 4
deriving DecidableEq, Repr

/-- A line of code that a core's instruction cache holds (R86, R87): ASID, line number VA[51:7], bytes. -/
structure CodeLine where
  asid  : BitVec 16
  line  : Nat
  bytes : List Byte
deriving DecidableEq, Repr

/-! ### Cores, casts and engines (08, 09, 10, 11) -/

/-- The space of a registered range (R234): scratch of a cast, or an ASID. -/
inductive Space where
  | scratch (cast : Nat)
  | virt (asid : BitVec 16)
deriving DecidableEq, Repr

/-- A range-lock entry (R234): the operation that holds it, its kind and its bytes. -/
structure RangeLock where
  op    : Nat
  dest  : Bool
  space : Space
  lo    : Nat
  len   : Nat
  carry : Bool
deriving DecidableEq, Repr

/-- The state of a weight-buffer entry (R174). -/
inductive WeightState where
  | free | loading | ready | bad
deriving DecidableEq, Repr

/-- A weight-buffer entry (R172, R174): its owner is a matrix context of the core. -/
structure Weight where
  state  : WeightState
  owner  : Nat
  units  : Nat
  bfmt   : Nat
  se8    : Bool
  npanel : Nat
  bytes  : List Byte
  /-- The context whose WBLOAD filled it, and that command. -/
  ctx    : Nat
  load   : Nat
deriving DecidableEq, Repr

/-- A queued command of a matrix context (R166, R178). -/
structure Command where
  op     : Nat
  instr  : Instr
  team   : Nat
  ctx    : Nat
  kc     : Option (BitVec 4)
  /-- Operand values: addresses, MATD. -/
  args   : List Nat
  block  : List Byte
  /-- Descriptor VAs with the snapshots of their four words (R184). -/
  snaps  : List (Nat × List DWord)
  /-- The weight entry an MMA uses, or the stream header of a WBLOAD. -/
  weight : Weight
  /-- Lanes written by an ACCRD. -/
  outst  : Option Nat
  /-- The command has started; its progress value (R178). -/
  started : Bool
  prog   : Nat
  /-- Granule at which the command is suspended, with its address; none when running (R178, R273). -/
  susp   : Option (Nat × DWord)
  /-- A resolve has cleared that granule (R271). -/
  cleared : Bool
  /-- World of the issuing team. -/
  world  : Bool
  /-- Its effects are made; it ends when its remote writes are acknowledged (R166, R355). -/
  fin    : Bool
  /-- Bounds that a suspended PSEL has formed, with their MSTAT bits (R273). -/
  bounds : List (Word × Word)
  /-- The mass additions that an ATTN or ATTNFIN has made, once its output is written, and M and L of its rows as they
  were then (R190, R191). -/
  massed : Option Nat
  final  : List (Word × Word) := []
deriving DecidableEq, Repr

/-- A matrix context of a core (R164 to R168): its cast, its tiles (4,096 words each, unlisted words +0). -/
structure Matrix where
  owner : Option Nat
  tiles : List (List Word)
  mstat : Word
  queue : List Command
deriving DecidableEq, Repr

/-- A residency lock (R160, R254): context, ASID and line number VA[63:7]. -/
structure LineLock where
  ctx  : Nat
  asid : BitVec 16
  line : Nat
deriving DecidableEq, Repr

/-- One core site: number 48 d + 12 c + k (R32). -/
structure Core where
  no      : Nat
  partw   : Word
  matrix  : List Matrix
  weights : List Weight
  ranges  : List RangeLock
  locks   : List LineLock
  /-- The matrix context that the engine served last (R295). -/
  served  : Nat
  /-- Its L1 and its instruction cache. -/
  l1      : List Line
  code    : List CodeLine
deriving DecidableEq, Repr

/-- A change that reaches a barrier (R201 to R203): bytes landed; an arrival of a slot with its byte count; an arrival that
breaks it; a drop; a BINIT with its setting; a word restored (R213). -/
inductive BarChange where
  | land (bytes : Nat)
  | arrive (slot bytes : Nat)
  | refused
  | drop (slot : Nat)
  | init (setting : Word)
  | put (word : DWord)
deriving DecidableEq, Repr

/-- What scratch held before an engine operation wrote it, for the teams that have not synchronised with the write: until
they do, their loads race with it (R230, R232). A copy is named by its team and its batch (R200). -/
structure Lag where
  teams : List Nat
  off   : Nat
  old   : List Byte
  copy  : Option (Nat × Nat)
deriving DecidableEq, Repr

/-- The changes of a barrier in one clock, with its word before them (R201). -/
structure BarClock where
  bar     : Nat
  /-- Free-value count at the first of them, which names the clock. -/
  mark    : Nat
  before  : DWord
  changes : List BarChange
  /-- The teams that made one: what such a team does next comes in a later clock. -/
  teams   : List Nat
  /-- The last of them was made in the step under way. -/
  fresh   : Bool
deriving DecidableEq, Repr

/-- A resident cast (R11, R12, R33, R201, R246). -/
structure Cast where
  id     : Nat
  core   : Nat
  number : Nat
  grid   : Nat
  index  : Nat
  size   : Nat
  nb     : Nat
  bars   : List DWord
  /-- The barriers changed in the clock of the last step (log 78). -/
  recent : List BarClock := []
  mcbase : DWord
  mctx   : Option Nat
  scratch : Memory
  /-- 32-byte blocks of scratch that read uncorrectable (R274). -/
  bad    : List Nat
  /-- What engine writes replaced, for loads that race with them. -/
  lag    : List Lag := []
  /-- Teams of the cast not yet retired or saved. -/
  live   : Nat
  /-- Order of placement. -/
  order  : Nat
deriving DecidableEq, Repr

/-- A copy in a cluster's copy engine (R198). -/
structure CopyOp where
  op      : Nat
  cluster : Nat
  team    : Nat
  ctx     : Nat
  world   : Bool
  kc      : Option (BitVec 4)
  /-- Issued by COPYY. -/
  again   : Bool
  /-- Its retention hint (R147, R198). -/
  rh      : BitVec 2 := 0
  batch   : Nat
  desc    : List Byte
  mcbase  : Word
  /-- Casts the copy lands in, for a multicast. -/
  casts   : List Nat
  cast    : Nat
  core    : Nat
  row     : Nat
  susp    : Option (Nat × DWord)
deriving DecidableEq, Repr

/-- A carry of LKSEND (R205, R358) from its acceptance to its status. -/
structure CarryOut where
  op    : Nat
  team  : Nat
  core  : Nat
  cast  : Nat
  off   : Nat
  dev   : BitVec 19
  /-- First sequence number of its flits, and how many they are. -/
  seq   : BitVec 16
  flits : Nat
  /-- LEN and BARF of its descriptor. -/
  len   : Nat
  bar   : BitVec 8
  kc    : Option (BitVec 4)
deriving DecidableEq, Repr

/-- A carry arriving (R358): its source and endpoint; STAT, its landing range and its barrier, fixed at its first flit; and
the reserved entry it holds (R234). -/
structure CarryIn where
  src   : BitVec 19
  ep    : Nat
  stat  : Nat
  cast  : Nat
  core  : Nat
  off   : Nat
  len   : Nat
  bar   : BitVec 8
  op    : Nat
  /-- Its reserved entry is granted (R236). -/
  granted : Bool
  /-- Bytes that have come and not landed yet, with their scratch offsets; and how many have landed. -/
  data  : List (Nat × List Byte)
  landed : Nat
  /-- Its carry-end flit, once it has come. -/
  ended : Option Flit
  /-- The clock of its first flit. -/
  clk   : Nat := 0
deriving DecidableEq, Repr

/-- Where a sweep came from (R304). -/
inductive SweepSource where
  | demote | kvres | background
deriving DecidableEq, Repr

/-- What a page step does next (R309, R310, R313): the CAS that sets BUSY, once or again; the rewrite from the read of
NTOK to the page's bytes; the union summary; the commit on word 1; the swap of word 0; the exact summary; the halving. -/
inductive DuskPhase where
  | swap | swapAgain | body | union | commit | renew | exact | halve
deriving DecidableEq, Repr

/-- A page step in progress (R309, R310): the descriptor's address and its word 0, the free entry taken (R319), NTOK and
DIM as read, the new level, the exact summary (none where the summary stands) and its address, the dimensions written,
and the translations that the rest of the step uses. -/
structure DuskStep where
  va    : Nat
  w0    : DWord
  phase : DuskPhase
  taken : Option Nat
  ntok  : Nat
  dim   : Nat
  level : Nat
  sumva : Nat
  sum   : List Byte
  done  : Nat
  outs  : List (Nat × Xlat)
deriving DecidableEq, Repr

/-- A sweep queued in a Dusk engine (R304, R309): its parameters, its counts and its list position. -/
structure Sweep where
  op     : Nat
  die    : Nat
  ctx    : Nat
  source : SweepSource
  world  : Bool
  team   : Nat
  core   : Nat
  m      : Nat
  cast   : Nat
  kc     : Option (BitVec 4)
  np     : Nat
  nrec   : Nat
  thr    : List Nat
  listva : Nat
  /-- Status words: scratch offset, or STVA of a background sweep. -/
  status : Nat
  table  : DWord
  pos    : Nat
  counts : List Nat
  /-- The binding of the context's storage table that it uses, by number (R350). -/
  bind   : Nat := 0
  /-- The page step at the list position, once the page is visited. -/
  step   : Option DuskStep
  /-- The snapshot of a KVRES (R314). -/
  snap   : List DWord
  susp   : Option (Nat × DWord)
deriving DecidableEq, Repr

/-- A hand-back waiting for its grace or for room (R307, R314). -/
structure HandBack where
  die   : Nat
  ctx   : Nat
  entry : DWord
  grace : Bool
  table : DWord
  world : Bool
  susp  : Option (Nat × DWord)
  told  : Bool
deriving DecidableEq, Repr

/-- A query in its owning stack (R320, R328); a pair is an FP32 distance and an identifier. -/
structure Query where
  id     : Nat
  stack  : Nat
  ctx    : Nat
  world  : Bool
  team   : Nat
  packet : List Byte
  /-- Translations of the result area and the record (R326). -/
  outs   : List (Nat × Xlat)
  vis    : List Word
  cand   : List (Word × Word)
  res    : List (Word × Word)
  /-- Vertices of the expansion under way, each with its distance once it has arrived. -/
  fresh  : List (Word × Option Word)
  rounds : Nat
  full   : Bool
  nandist : Bool
  badrec : Bool
  status : Option Nat
  /-- Its results are written; it completes when writes to a peer device are acknowledged (R233, R355). -/
  written : Bool
  ord    : Bool
  seq    : Nat
  /-- Words of its result area written before the others (R334). -/
  shown  : List Nat := []
deriving DecidableEq, Repr

/-- A registered graph (R321). -/
structure Graph where
  g       : Nat
  record  : List Byte
  leaving : Bool
deriving DecidableEq, Repr

/-! ### Contexts, queues and grids (12, 13) -/

/-- CSTAT.STATE of R350. -/
inductive CtxState where
  | free | registered | preempting | preempted | resetting | reset
deriving DecidableEq, Repr

/-- An item of a queue's order (R280): ring entries covered by one doorbell, or a launch-list descriptor with the clock
that added it. -/
inductive QueueItem where
  | ring (first count : Nat)
  | list (gd : DWord) (clk : Nat)
deriving DecidableEq, Repr

/-- A command queue of a context (R279, R280). -/
structure Queue where
  q     : Nat
  /-- The queue-table entry as read at the last valid doorbell. -/
  ring  : DWord
  qwva  : DWord
  rszl  : Nat
  pri   : Nat
  en    : Bool
  qirq  : Bool
  prod  : Word
  cidx  : Word
  ninc  : Word
  items : List QueueItem
  stopped : Bool
deriving DecidableEq, Repr

/-- A fault ring with the records that wait for it (R270, R278). -/
structure FaultRing where
  host    : Bool
  base    : Nat
  len     : Nat
  prod    : Nat
  records : List (List Word)
deriving DecidableEq, Repr

/-- A context with its descriptor and its block (R278, R350). -/
structure Context where
  no     : Nat
  state  : CtxState
  last   : BitVec 4
  lknak  : Bool
  cirq   : BitVec 11
  pv     : Bool
  pasid  : BitVec 20
  dusktb : DWord
  pwbase : DWord
  pwn    : Word
  cfunc  : BitVec 6
  root   : Nat
  world  : Bool
  domain : BitVec 5
  asid   : BitVec 16
  dbg    : Bool
  wdh    : Bool
  wdl    : Nat
  fringHost : Bool
  fring  : Nat
  frl    : Nat
  qtab   : DWord
  fprod  : Nat
  /-- Fault records waiting to be written, each its eight words (R270). -/
  records : List (List Word)
  /-- Rings of earlier registrations with the records that still wait for space in them: no record is dropped (R270). -/
  backlog : List FaultRing
  queues : List Queue
  /-- Storage table in force, with its header; the time of the next background sweep (R305, R317). -/
  table  : DWord
  header : List Byte
  bgAt   : Option Nat
  /-- Bindings and unbindings of a storage table so far (R350). -/
  binds  : Nat := 0
  /-- The most recently started grid of each descriptor address (R358). -/
  started : List (DWord × Nat)
deriving DecidableEq, Repr

/-- The rotation of a die's front end (R285): the context whose cast it placed last, and for each context the number of
the source it placed from last. -/
structure FrontEnd where
  ctx    : Nat
  queues : List (Nat × Nat)
deriving DecidableEq, Repr

/-- A task-queue entry of a die (R206, R286). -/
structure Task where
  ctx  : Nat
  gd   : DWord
  args : List Word
deriving DecidableEq, Repr

/-- A batch of a token queue waiting to start (R288). -/
structure Batch where
  first : Nat
  count : Nat
deriving DecidableEq, Repr

/-- A bound token queue (R287, R288). -/
structure TokenQueue where
  die      : Nat
  q        : Nat
  ctx      : Nat
  buf      : DWord
  gdva     : DWord
  capl     : Nat
  thr      : Nat
  tmo      : Nat
  tpc      : Nat
  pushed   : Nat
  launched : Nat
  freed    : Nat
  /-- Device time at which the running timer expires. -/
  timer    : Option Nat
  batches  : List Batch
  /-- It has had pushes in the clock that runs: its trigger is tested as that clock ends (R288). -/
  fresh    : Bool := false
deriving DecidableEq, Repr

/-- A grid from its start to its completion (R281 to R300). -/
structure Grid where
  id      : Nat
  ctx     : Nat
  source  : GridSource
  gdva    : DWord
  /-- The 128 bytes of the descriptor as read at start. -/
  desc    : List Byte
  args    : List Word
  /-- Values taken from kernel records where the descriptor leaves them to it (R283). -/
  cvb     : Nat
  pvb     : Nat
  scrl    : Nat
  partw   : Word
  nteam   : Nat
  pri     : Nat
  dies    : List Nat
  /-- Next cast to place, and teams not yet retired. -/
  nextCast : Nat
  unretired : Nat
  /-- Saved teams by cast index, with their cast slots (R299, R300). -/
  saved   : List (Nat × List Nat)
  /-- Clock at which it came to the head of its queue; whether it holds other grids back (R291). -/
  headAt  : Option Nat
  holding : Bool
  /-- Tokens of the batch it runs (R288). -/
  tokens  : Nat
  order   : Nat
deriving DecidableEq, Repr

/-- A TLB entry (R260): ASID, the page (granule number or 256 MiB page) and the leaf with its level. -/
structure TlbEntry where
  asid  : BitVec 16
  large : Bool
  page  : Nat
  leaf  : DWord
deriving DecidableEq, Repr

/-! ### Package, links and management (16, 17) -/

/-- A piece of a posted write not yet acknowledged (R346). -/
structure Piece where
  fn    : Nat
  route : Nat
  pa    : Nat
  data  : List Byte
deriving DecidableEq, Repr

/-- A remote store or atomic sent and not answered (R355, R359): the team, its outstanding instruction and the lane of an
atomic step. -/
structure Remote where
  team  : Nat
  ctx   : Nat
  dst   : BitVec 19
  seq   : BitVec 16
  atomic : Bool
  /-- Position, clause and lane of an atomic step of a team; none for a store, and for the count of a front end. -/
  lane  : Option (Nat × Nat × Nat)
  port  : Nat
deriving DecidableEq, Repr

/-- Port state of PORTSTAT (R349). -/
inductive PortState where
  | down | training | up
deriving DecidableEq, Repr

/-- A Ghehorn port (R349). -/
structure Port where
  en    : Bool
  state : PortState
  peer  : BitVec 19
deriving DecidableEq, Repr

/-- The world region table (R363): SDOM, DUAL and the entries (BASE page, LIMIT page) with V = 1, by index. -/
structure WorldTable where
  sdom    : Word
  dual    : Word
  entries : List (Nat × Nat × Nat)
  /-- The 1,040 bytes it was loaded from. -/
  bytes   : List Byte
deriving DecidableEq, Repr

/-- An ATS request of a fetch or an engine that the host has not answered (R347): who asked (a team or an operation),
its context and die, the host page and the virtual address. -/
structure AtsWait where
  key  : Nat
  ctx  : Nat
  die  : Nat
  page : Nat
  va   : DWord
  /-- The host has refused; the front end meets it at its next attempt. -/
  refused : Bool
deriving DecidableEq, Repr

/-- Something the device sends out: an interrupt, a completion, an answer of the side-band port by its message type
(vendor-defined with VENDID, SPDM, MCTP control; R370), a flit. -/
inductive Output where
  | msix (fn vec : Nat)
  | inBand
  | readData (fn : Nat) (data : List Byte)
  | unsupported (fn : Nat)
  | sideband (vendid : BitVec 16) (code : Nat) (data : List Byte)
  | spdm (data : List Byte)
  | mctp (data : List Byte)
  | flit (port : Nat) (f : Flit)
deriving DecidableEq, Repr

/-- Who moves in a turn: a team (fetching, choosing or issuing), an event of the table, some lanes of an outstanding
access of a team, which are performed before its F2_COMPLETION performs the rest (R71, R150, R154), a store that
completes and is performed later (R70), a line of code that a team's core reads ahead (R87), or an error that arises in a
32-byte burst of memory or a block of a cast's scratch (R338): uncorrectable, or, past what the code detects, wrong bits
without a report; the carries that have come and wait to land (R358); or a DEMOTE or KVRES that passes to Dusk (R166). -/
inductive Turn where
  | team (t : Nat)
  | event (i : Instr)
  | lanes (t k : Nat) (mask : Mask)
  | post (t k : Nat)
  | code (t line : Nat)
  | memError (burst : Nat) (silent : Option (List Byte))
  | scratchError (cast block : Nat)
  | landing
  | dusk (core m : Nat)
deriving DecidableEq, Repr

/-- The management controller: straps, flash and reset state (R366 to R373). -/
structure Mgmt where
  recovery : Bool
  /-- Images as bytes: firmware slots A and B, configuration copies 0 and 1. -/
  fw       : List (List Byte)
  config   : List (List Byte)
  /-- PUF helper data and the DevID certificate chain in the flash (R366); no bytes stand for those delivered. -/
  puf      : List Byte
  chain    : List Byte
  /-- Slot marked for boot, and the slot that runs. -/
  marked   : Nat
  running  : Nat
  /-- The firmware and configuration images that the last boot accepted (R368, R371, R372). -/
  image    : List Byte
  cfg      : List Byte
  firstUse : Bool
  /-- Chunks have been staged and not committed; a slot marked not valid (R373). -/
  staging  : Bool
  dead     : Option Nat
  counters : List Nat
  bootsel  : Bool
  recov    : Bool
  sbaddr   : BitVec 7
  dynaddr  : Option (BitVec 7)
  /-- A world table waiting to take effect (R364). -/
  wrtNext  : Option WorldTable
  /-- Side-band commands and outside accesses that wait for it, in their order (R364, R370). -/
  waiting  : List Turn
  /-- A reset that waits for a checkpoint to end (R373): some true is cold; and the virtual functions whose reset waits
  so. -/
  resetDue : Option Bool
  flrDue   : List Nat
  /-- An SPDM secured session whose requester key digest equals OWNKH (R370). -/
  session  : Bool
  vendid   : BitVec 16
  ownkh    : List Byte
deriving DecidableEq, Repr

/-- A checkpoint or a load under way (R341, R342). -/
inductive CkOp where
  | checkpoint | load
deriving DecidableEq, Repr

/-- Device-wide registers (R349, R342, R367). -/
structure Regs where
  devid   : BitVec 19
  pmode   : BitVec 3
  /-- Power mode and wheel setting in force (R303, R361). -/
  pmodeOn : BitVec 3
  wctl    : BitVec 2
  wctlOn  : BitVec 2
  slotmap : List (BitVec 5)
  slotmapOn : List (BitVec 5)
  sshare  : List (BitVec 4)
  /-- PSTAT as last updated. -/
  pstat   : Word
  mhz     : Nat
  ckstat  : Word
  ckseq   : Word
  grstat  : BitVec 10
  routeg  : List Byte
  routem  : List Byte
  /-- Record windows of BAR0 by offset: INWIN, GRAPH, EP, TQ (R349). -/
  windows : Memory
  sites   : List (BitVec 48)
  clw     : Word
  cken    : Bool
  svcns   : DWord
  svcs    : DWord
deriving DecidableEq, Repr

/-- Telemetry counts (R336, R338, R353, R363). -/
structure Telemetry where
  noMemory      : Nat
  correctable   : Nat
  uncorrectable : Nat
  discarded     : Nat
  refused       : Nat
deriving DecidableEq, Repr

/-- The whole device. -/
structure State where
  /-- The model's own: whose turns come next, before the order of its own (log 2). -/
  agenda  : List Turn
  /-- The model's own: the team whose instruction is being performed (log 2). -/
  cur     : Option Nat
  /-- The model's own: argument of the next free value (log 4). -/
  freeCtr : Nat
  /-- The model's own: next unused key of a team, operation, grid, cast or query. -/
  nextId  : Nat
  /-- Arithmetic clocks since reset, and nanoseconds since the last cold reset (R215). -/
  clk     : Nat
  ns      : Nat
  mem     : Memory
  /-- 32-byte bursts that read uncorrectable, by burst number (R274, R338). -/
  poison  : List Nat
  tlb     : List TlbEntry
  hostMem : List Host.Cell
  /-- ATS answers the IOD holds: PASID and host page (R347). -/
  ats     : List (BitVec 20 × Nat)
  atsWaits : List AtsWait
  contexts : List Context
  grids   : List Grid
  casts   : List Cast
  teams   : List Team
  /-- The front end of each die, by die number: whose cast it placed last (R285). -/
  fronts  : List FrontEnd
  cores   : List Core
  /-- The L2 of each die, by die number, and the locks held there. -/
  l2      : List (List Line)
  locks2  : List (Nat × LineLock)
  copies  : List CopyOp
  carries : List CarryOut
  landing : List CarryIn
  sweeps  : List Sweep
  /-- The contexts that each die's Dusk engine has served, the last one first (R304). -/
  dusk    : List (List Nat)
  handbacks : List HandBack
  queries : List Query
  graphs  : List Graph
  tasks   : List (Nat × Task)
  tokens  : List TokenQueue
  pieces  : List Piece
  remotes : List Remote
  /-- Flits that have come and are not performed yet, those of each source in their order: what this device sends to
  itself, and what waits behind a carry of its pair (R354). -/
  inbox : List Flit
  seqs    : List (BitVec 19 × BitVec 16)
  /-- The sequence number after the last flit received from each other device (R354). -/
  inSeqs  : List (BitVec 19 × BitVec 16)
  ports   : List Port
  regs    : Regs
  wrt     : WorldTable
  tele    : Telemetry
  mgmt    : Mgmt
  ck      : Option CkOp
  /-- The device is stopped until a reset: after a checkpoint, at THERMTRIP, or without power (R341, R361). -/
  stopped : Bool
  /-- AUXV or main rails, and RETV, are present (R340, R369). -/
  mainOn  : Bool
  retvOn  : Bool
  out     : List Output
deriving DecidableEq, Repr

/-! ### Stops -/

/-- Faults: the machine stops. -/
inductive Fault where
  /-- An encoded instruction was to be performed and no team performs it (raised by every encoded instruction's meaning
  when `cur` names no resident team). No run of `step` reaches it; safe. -/
  | noTeam
deriving DecidableEq, Repr

/-- Refusals: no meaning. -/
inductive Refusal where
  /-- An instruction whose meaning is not written yet; raised by `exec` alone. Safe. -/
  | notModelled (mnemonic : String)
deriving DecidableEq, Repr

/-! ### Reset -/

/-- A clear branch-target register (R13): Invalid; its TARGET, which STATESV.team saves and for which R13 gives no value,
is 0 (DESIGN CHOICE, log 92). -/
def Branch.reset : Branch := { target := 0, valid := false, gen := 0, pf := 0, copy := [] }

/-- Idle expand state (R13). -/
def Expand.reset : Expand := { armed := false, total := 0, cursor := 0, pairs := [], owners := [] }

/-- A FREE weight entry (R174). -/
def Weight.reset : Weight :=
  { state := .free, owner := 0, units := 0, bfmt := 0, se8 := false, npanel := 0, bytes := [], ctx := 0,
    load := 0 }

/-- A matrix context that no cast holds. -/
def Matrix.reset : Matrix := { owner := none, tiles := [], mstat := 0, queue := [] }

/-- A core after reset: no cast; PARTW 0 (DESIGN CHOICE, log 5). -/
def Core.reset (no : Nat) : Core :=
  { no := no, partw := 0, matrix := List.replicate 4 Matrix.reset, weights := List.replicate 32 Weight.reset,
    ranges := [], locks := [], served := 3, l1 := [], code := [] }

/-- A context number that no context holds (R350). -/
def Context.reset (no : Nat) : Context :=
  { no := no, state := .free, last := 0, lknak := false, cirq := 0, pv := false, pasid := 0, dusktb := 0, pwbase := 0,
    pwn := 0, cfunc := 0, root := 0, world := false, domain := 0, asid := 0, dbg := false, wdh := false, wdl := 0,
    fringHost := false, fring := 0, frl := 6, qtab := 0, fprod := 0, records := [], backlog := [], queues := [],
        table := 0,
    header := [], bgAt := none, started := [] }

/-- A front end that has placed nothing: contexts and queue numbers go round from 0. -/
def FrontEnd.reset : FrontEnd := { ctx := 1023, queues := [] }

/-- A port after reset (R349, R369). -/
def Port.reset : Port := { en := false, state := .down, peer := 0 }

/-- The world region table of the model's configuration image: no entry (DESIGN CHOICE, log 3). -/
def WorldTable.reset : WorldTable := { sdom := 0, dual := 0, entries := [], bytes := List.replicate 1040 0 }

/-- Device registers after bring-up with the model's configuration image (log 3): 11 sites of each cluster, every
cluster of both classes, CKEN 0, PMODE 0, SVCNS and SVCS 0. -/
def Regs.reset : Regs :=
  { devid := 0, pmode := 0, pmodeOn := 0, wctl := 0, wctlOn := 0, slotmap := List.replicate 32 0,
    slotmapOn := List.replicate 32 0, sshare := List.replicate 8 2, pstat := 0, mhz := 1200, ckstat := 0, ckseq := 0,
    grstat := 0, routeg := [], routem := [], windows := [], sites := List.replicate 4 0x7FF7FF7FF7FF#48,
    clw := 0xAAAAAAAA#32, cken := false, svcns := 0, svcs := 0 }

/-- The management controller after bring-up (log 3). -/
def Mgmt.reset : Mgmt :=
  { recovery := false, fw := [[], []], config := [[], []], puf := [], chain := [], marked := 0, running := 0,
    image := [], cfg := [], firstUse := false, staging := false, dead := none, counters := [0, 0], bootsel := false,
    recov := false, sbaddr := 0, dynaddr := none,
    wrtNext := none, waiting := [], resetDue := none, flrDue := [], session := false, vendid := 0, ownkh := [] }

/-- The device right after reset: brought up (R369), no context registered, memory with nothing listed. -/
def State.reset : State :=
  { agenda := [], cur := none, freeCtr := 0, nextId := 1, clk := 0, ns := 0, mem := [], poison := [], tlb := [],
    hostMem := [], ats := [], atsWaits := [], contexts := [], grids := [], casts := [], teams := [],
    fronts := List.replicate 4 FrontEnd.reset, cores := [], l2 := List.replicate 4 [], locks2 := [],
    copies := [], carries := [], landing := [], sweeps := [], dusk := List.replicate 4 [], handbacks := [],
    queries := [], graphs := [], tasks := [], tokens := [], pieces := [], remotes := [], inbox := [],
    seqs := [], inSeqs := [], ports := List.replicate 16 Port.reset, regs := Regs.reset, wrt := WorldTable.reset,
    tele := { noMemory := 0, correctable := 0, uncorrectable := 0, discarded := 0, refused := 0 }, mgmt := Mgmt.reset,
    ck := none, stopped := false, mainOn := true, retvOn := true, out := [] }

end Sys2Proof.Machine
end

