-- ==== Sys2Proof/Machine/Num.lean ====
section
/-! DEFINITION. Number formats and rounding (spec 02): exact values, Round, exact sums and the correctly rounded
functions. An exact value that is not dyadic is carried as a dyadic value with a sticky bit. -/

namespace Sys2Proof.Machine

/-! ### Flags (R35, R51) -/

/-- The sticky flags, in the bit order of FPSTAT: NV 4, DZ 3, OF 2, UF 1, NX 0. -/
abbrev Flags := BitVec 5

def flagNV : Flags := 0b10000
def flagDZ : Flags := 0b01000
def flagOF : Flags := 0b00100
def flagUF : Flags := 0b00010
def flagNX : Flags := 0b00001

/-- A flag when a condition holds. -/
def Flags.when (c : Bool) (f : Flags) : Flags := if c then f else 0

/-! ### Formats (R39) -/

/-- How a format encodes NaN. -/
inductive NanKind where
  | ieee | e4m3 | none
deriving DecidableEq, Repr

/-- A floating-point format: exponent bits, mantissa bits, bias, infinity, NaN. -/
structure Fmt where
  e    : Nat
  m    : Nat
  bias : Nat
  inf  : Bool
  nan  : NanKind
deriving DecidableEq, Repr

def Fmt.f32 : Fmt := { e := 8, m := 23, bias := 127, inf := true, nan := .ieee }
def Fmt.f16 : Fmt := { e := 5, m := 10, bias := 15, inf := true, nan := .ieee }
def Fmt.bf16 : Fmt := { e := 8, m := 7, bias := 127, inf := true, nan := .ieee }
def Fmt.e4m3 : Fmt := { e := 4, m := 3, bias := 7, inf := false, nan := .e4m3 }
def Fmt.e5m2 : Fmt := { e := 5, m := 2, bias := 15, inf := true, nan := .ieee }
def Fmt.mx6 : Fmt := { e := 2, m := 3, bias := 1, inf := false, nan := .none }
def Fmt.mx6b : Fmt := { e := 3, m := 2, bias := 3, inf := false, nan := .none }
def Fmt.mx4 : Fmt := { e := 2, m := 1, bias := 1, inf := false, nan := .none }

/-- The floating-point format of a type. -/
def Fmt.ofTy : Ty → Fmt
  | .f16 => .f16 | .bf16 => .bf16 | .e4m3 => .e4m3 | .e5m2 => .e5m2 | .mx6 => .mx6 | .mx6b => .mx6b | .mx4 => .mx4
  | _ => .f32

namespace Fmt

/-- Width of the format. -/
def width (f : Fmt) : Nat := 1 + f.e + f.m

/-- Bits of the canonical NaN (R41); +0 where the format has none (R49). -/
def canonicalNan (f : Fmt) : Nat :=
  match f.nan with
  | .ieee => (2 ^ f.e - 1) * 2 ^ f.m + 2 ^ (f.m - 1)
  | .e4m3 => 2 ^ (f.e + f.m) - 1
  | .none => 0

/-- Bits of the largest finite magnitude. -/
def maxBits (f : Fmt) : Nat :=
  match f.nan with
  | .ieee => (2 ^ f.e - 1) * 2 ^ f.m - 1
  | .e4m3 => 2 ^ (f.e + f.m) - 2
  | .none => 2 ^ (f.e + f.m) - 1

/-- Bits of infinity, for a format that has it. -/
def infBits (f : Fmt) : Nat := (2 ^ f.e - 1) * 2 ^ f.m

/-- Exponent of the spacing of subnormals, 1 − β − m. -/
def minExp (f : Fmt) : Int := 1 - (f.bias : Int) - (f.m : Int)

/-- Sign bit in place. -/
def sign (f : Fmt) (neg : Bool) : Nat := if neg then 2 ^ (f.e + f.m) else 0

end Fmt

/-! ### Exact values -/

/-- A NaN, an infinity, or (−1)^neg · m · 2^e; m = 0 is a signed zero. -/
inductive FVal where
  | nan (signalling : Bool)
  | inf (neg : Bool)
  | fin (neg : Bool) (m : Nat) (e : Int)
deriving DecidableEq, Repr

namespace FVal

def zero : FVal := .fin false 0 0

def isNan : FVal → Bool
  | nan _ => true
  | _ => false
def isSNan : FVal → Bool
  | nan s => s
  | _ => false
def isInf : FVal → Bool
  | inf _ => true
  | _ => false
def isZero : FVal → Bool
  | fin _ m _ => m == 0
  | _ => false
/-- The sign of a value that is not a NaN. -/
def isNeg : FVal → Bool
  | nan _ => false
  | inf s => s
  | fin s _ _ => s
/-- Sign flipped; a NaN stays. -/
def neg : FVal → FVal
  | nan s => nan s
  | inf s => inf !s
  | fin s m e => fin (!s) m e

/-- An integer as an exact value. -/
def ofInt (i : Int) : FVal := .fin (decide (i < 0)) i.natAbs 0

/-- Comparison key of finite and infinite values at a common exponent: sign and magnitude as an integer. -/
def scaled (e : Int) : FVal → Int
  | fin s m e' => let v : Int := m * 2 ^ (e' - e).toNat; if s then -v else v
  | _ => 0

/-- Numeric comparison of two values that are not NaN: −1, 0 or 1 as `a` is below, equal to or above `b`; −0 equals
+0. -/
def cmp (a b : FVal) : Int :=
  match a, b with
  | inf s, inf t => if s == t then 0 else if s then -1 else 1
  | inf s, _ => if s then -1 else 1
  | _, inf t => if t then 1 else -1
  | fin _ _ e, fin _ _ f =>
    let g := min e f
    let x := a.scaled g
    let y := b.scaled g
    if x < y then -1 else if x == y then 0 else 1
  | _, _ => 0

/-- Order in which −0 lies below +0 (R114): `a` at or below `b`. -/
def le0 (a b : FVal) : Bool :=
  let c := a.cmp b
  c < 0 || (c == 0 && (!(a.isZero && b.isZero) || a.isNeg || !b.isNeg))

end FVal

/-- The value an encoding stands for (R40). -/
def Fmt.decode (f : Fmt) (x : Nat) : FVal :=
  let s := x.testBit (f.e + f.m)
  let ef := (x >>> f.m) % 2 ^ f.e
  let mf := x % 2 ^ f.m
  let top := 2 ^ f.e - 1
  match f.nan with
  | .ieee =>
    if ef == top then
      if mf == 0 then .inf s else .nan (!mf.testBit (f.m - 1))
    else if ef == 0 then .fin s mf f.minExp
    else .fin s (2 ^ f.m + mf) ((ef : Int) - f.bias - f.m)
  | .e4m3 =>
    if ef == top && mf == 2 ^ f.m - 1 then .nan false
    else if ef == 0 then .fin s mf f.minExp
    else .fin s (2 ^ f.m + mf) ((ef : Int) - f.bias - f.m)
  | .none =>
    if ef == 0 then .fin s mf f.minExp
    else .fin s (2 ^ f.m + mf) ((ef : Int) - f.bias - f.m)

/-! ### Rounding (R47 to R51) -/

/-- Whether the magnitude goes up, for a remainder `r` of `2^k` (with `sticky` a little more) above the even or odd
quotient `a`. SR compares the distance from the lower neighbour on the number line with the top 24 bits of `h`. -/
def roundUp (rm : RM) (h : Word) (neg odd : Bool) (r k : Nat) (sticky : Bool) : Bool :=
  let inexact := r != 0 || sticky
  match rm with
  | .rne | .sat => 2 * r > 2 ^ k || (2 * r == 2 ^ k && (sticky || odd))
  | .rtz => false
  | .rdn => neg && inexact
  | .rup => !neg && inexact
  | .sr =>
    inexact &&
    (if neg then
      let d := ((2 ^ k - r) * 2 ^ 24 - sticky.toNat) / 2 ^ k
      !(d > (h >>> 8).toNat)
     else (r * 2 ^ 24) / 2 ^ k > (h >>> 8).toNat)

/-- A finite value at spacing 2^qe: its magnitude in units of the spacing, and whether the value changed. -/
def roundAt (rm : RM) (h : Word) (neg : Bool) (m : Nat) (e qe : Int) (sticky : Bool) : Nat × Bool :=
  if qe ≤ e then
    let y := m <<< (e - qe).toNat
    (if roundUp rm h neg (y % 2 == 1) 0 1 sticky then y + 1 else y, sticky)
  else
    -- past log2 m + 30 a longer shift changes no decision of any mode
    let k := min (qe - e).toNat (m.log2 + 30)
    let a := m >>> k
    let r := m % 2 ^ k
    (if roundUp rm h neg (a % 2 == 1) r k sticky then a + 1 else a, r != 0 || sticky)

/-- The result of an overflow (R48). -/
def Fmt.overflow (f : Fmt) (rm : RM) (neg : Bool) : Nat :=
  let toInf := f.inf && match rm with
    | .rne => true
    | .rdn => neg
    | .rup => !neg
    | _ => false
  f.sign neg + (if toInf then f.infBits else f.maxBits)

/-- Special inputs of Round (R49). -/
def Fmt.special (f : Fmt) (rm : RM) : FVal → Nat × Flags
  | .nan s =>
    match f.nan with
    | .none => (0, flagNV)
    | _ => (f.canonicalNan, Flags.when s flagNV)
  | .inf s =>
    if rm == .sat then (f.sign s + f.maxBits, flagNX)
    else if f.inf then (f.sign s + f.infBits, 0)
    else match f.nan with
      | .e4m3 => (f.canonicalNan, flagNV)
      | _ => (f.sign s + f.maxBits, flagNX)
  | .fin s _ _ => (f.sign s, 0)

/-- Round(x, fmt, rm) with its flags (R47 to R49, R51); `h` is the draw of SR, and `sticky` says that the exact
magnitude lies strictly between m and m + 1 units. -/
def Fmt.round (f : Fmt) (rm : RM) (h : Word) (x : FVal) (sticky : Bool := false) : Nat × Flags :=
  match x with
  | .fin s m e =>
    if m == 0 && !sticky then (f.sign s, 0)
    else
      let qe := max ((m.log2 : Int) + e - f.m) f.minExp
      let (y, changed) := roundAt rm h s m e qe sticky
      let bits := ((qe - f.minExp).toNat) * 2 ^ f.m + y
      if bits > f.maxBits then (f.overflow rm s, flagOF ||| flagNX)
      else
        (f.sign s + bits,
          Flags.when changed flagNX ||| Flags.when (changed && bits < 2 ^ f.m) flagUF)
  | _ => f.special rm x

/-- Least and greatest value of an integer type (R38). -/
def Ty.lo (t : Ty) : Int := if t.isSigned then -(2 ^ (t.bits - 1)) else 0
def Ty.hi (t : Ty) : Int := if t.isSigned then 2 ^ (t.bits - 1) - 1 else 2 ^ t.bits - 1

/-- Clamp to the range of a type. -/
def Ty.clamp (t : Ty) (v : Int) : Int := max (Ty.lo t) (min (Ty.hi t) v)

/-- Round to an integer type (R50). -/
def roundInt (t : Ty) (rm : RM) (h : Word) (x : FVal) : Int × Flags :=
  match x with
  | .nan _ => (0, flagNV)
  | .inf s => (if s then Ty.lo t else Ty.hi t, flagNV)
  | .fin s m e =>
    if m == 0 then (0, 0)
    else
      let (y, changed) := roundAt rm h s m e 0 false
      let v : Int := if s then -y else y
      if v < Ty.lo t || v > Ty.hi t then (Ty.clamp t v, flagNV)
      else (v, Flags.when changed flagNX)

/-! ### Exact arithmetic -/

/-- An exact product, with NV when it is 0 × Inf (R113). A NaN operand gives a quiet NaN; signalling operands are
counted by the caller. The sign of a zero product is the exclusive OR of the factors' signs in every mode: R113 speaks
of the signs of terms and not of factors (DEDUCED, log 46). -/
def FVal.mul (a b : FVal) : FVal × Bool :=
  match a, b with
  | .nan _, _ | _, .nan _ => (.nan false, false)
  | .inf s, x => if x.isZero then (.nan false, true) else (.inf (s != x.isNeg), false)
  | x, .inf s => if x.isZero then (.nan false, true) else (.inf (s != x.isNeg), false)
  | .fin s m e, .fin t n f => (.fin (s != t) (m * n) (e + f), false)

/-- The least exponent of the finite non-zero terms. -/
def minExponent : List FVal → Option Int
  | [] => none
  | .fin _ m e :: rest =>
    if m == 0 then minExponent rest
    else match minExponent rest with
      | none => some e
      | some g => some (min e g)
  | _ :: rest => minExponent rest

/-- The sum of the terms of a list in units of 2^g. -/
def sumScaled (g : Int) : List FVal → Int
  | [] => 0
  | x :: rest => x.scaled g + sumScaled g rest

/-- The exact sum of a list under R54, with whether +Inf met −Inf; `negZero` is the sign of an exact zero that not all
terms share. -/
def exactSum (terms : List FVal) (negZero : Bool := false) : FVal × Bool :=
  let pos := terms.contains (.inf false)
  let neg := terms.contains (.inf true)
  if terms.any FVal.isNan then (.nan (terms.any FVal.isSNan), pos && neg)
  else
    if pos && neg then (.nan false, true)
    else if pos then (.inf false, false)
    else if neg then (.inf true, false)
    else match minExponent terms with
      | none => (.fin (terms != [] && (terms.all FVal.isNeg || (negZero && !terms.all (!·.isNeg)))) 0 0, false)
      | some g =>
        let v := sumScaled g terms
        if v == 0 then (.fin negZero 0 0, false) else (.fin (decide (v < 0)) v.natAbs g, false)

/-- An exact result rounded once; an infinite one is that infinity in every mode (R54 step 2, R113). -/
def Fmt.roundSum (f : Fmt) (rm : RM) (h : Word) (x : FVal) : Nat × Flags :=
  match x with
  | .inf s => if f.inf then (f.sign s + f.infBits, 0) else f.special rm x
  | _ => f.round rm h x

/-- ExactSum(list, fmt, rm) of R54 with its flags. -/
def Fmt.exactSum (f : Fmt) (rm : RM) (h : Word) (terms : List FVal) : Nat × Flags :=
  let (s, invalid) := Machine.exactSum terms
  let (r, fl) := f.roundSum rm h s
  (r, fl ||| Flags.when invalid flagNV)

/-- a + b under R113: an exact zero takes the sign both terms share, else +0, or −0 under RDN. -/
def addR113 (rm : RM) (a b : FVal) : FVal × Bool :=
  exactSum [a, b] (rm == .rdn)

/-- a · b + c in format `f` with one rounding (R113); `nv` of the result counts signalling operands. -/
def Fmt.fma (f : Fmt) (rm : RM) (h : Word) (a b c : FVal) : Nat × Flags :=
  let snan := a.isSNan || b.isSNan || c.isSNan
  let (p, bad) := a.mul b
  if bad || p.isNan || c.isNan then (f.canonicalNan, Flags.when (snan || bad) flagNV)
  else
    let (s, inv) := addR113 rm p c
    let (r, fl) := f.roundSum rm h s
    (r, fl ||| Flags.when inv flagNV)

/-- a + b in format `f` (R113). -/
def Fmt.add (f : Fmt) (rm : RM) (h : Word) (a b : FVal) : Nat × Flags :=
  if a.isNan || b.isNan then (f.canonicalNan, Flags.when (a.isSNan || b.isSNan) flagNV)
  else
    let (s, inv) := addR113 rm a b
    let (r, fl) := f.roundSum rm h s
    (r, fl ||| Flags.when inv flagNV)

/-- a · b in format `f` (R113). -/
def Fmt.mulR (f : Fmt) (rm : RM) (h : Word) (a b : FVal) : Nat × Flags :=
  let snan := a.isSNan || b.isSNan
  let (p, bad) := a.mul b
  if p.isNan then (f.canonicalNan, Flags.when (snan || bad) flagNV) else f.roundSum rm h p

/-! ### Stochastic rounding (R52) -/

def mix32 (z : Word) : Word :=
  let z := z ^^^ (z >>> 16)
  let z := z * 0x7FEB352D
  let z := z ^^^ (z >>> 15)
  let z := z * 0x846CA68B
  z ^^^ (z >>> 16)

/-- H(seed, stream, index) of R52. -/
def hMix (seed stream : Word) (index : DWord) : Word :=
  let h := mix32 (seed ^^^ 0x9E3779B9)
  let h := mix32 (h ^^^ stream)
  let h := mix32 (h ^^^ index.lo)
  mix32 (h ^^^ index.hi ^^^ 0x6A09E667)

/-! ### Correctly rounded functions (R56) -/

/-- The integer square root, bit by bit from bit `k - 1`. -/
def isqrtFrom (n : Nat) : Nat → Nat → Nat
  | 0, r => r
  | k + 1, r =>
    let r' := r + 2 ^ k
    isqrtFrom n k (if r' * r' ≤ n then r' else r)

/-- floor(√n). -/
def isqrt (n : Nat) : Nat := isqrtFrom n (n.log2 / 2 + 1) 0

/-- n / (m · 2^e) for n = 2^k with at least 80 quotient bits: magnitude, exponent and whether bits were lost. -/
def recip (m : Nat) (e : Int) : Nat × Int × Bool :=
  let k := m.log2 + 80
  (2 ^ k / m, -(k : Int) - e, 2 ^ k % m != 0)

/-- a / b with at least 80 quotient bits. -/
def divide (ma : Nat) (ea : Int) (mb : Nat) (eb : Int) : Nat × Int × Bool :=
  let k := mb.log2 + 80
  ((ma * 2 ^ k) / mb, ea - eb - k, (ma * 2 ^ k) % mb != 0)

/-- √(m · 2^e) with at least 80 bits. -/
def sqrtParts (m : Nat) (e : Int) : Nat × Int × Bool :=
  let up : Nat := if e % 2 == 0 then 160 else 161
  let n := m * 2 ^ up
  let r := isqrt n
  (r, (e - up) / 2, r * r != n)

/-- Natural logarithm of 2 times 2^320, rounded down. -/
def ln2Fix : Nat :=
  1480553391661173448385607439722553250922680800745876974795605978609098082859138712941075737848984

/-- Sum of y^k / k! from the term `t` of index `k`, in units of 2^-320. -/
def expTerms (y : Nat) : Nat → Nat → Nat → Nat
  | 0, _, _ => 0
  | n + 1, k, t => t + expTerms y n (k + 1) (t * y / 2 ^ 320 / (k + 1))

/-- 2^x for a finite non-zero x that is no integer: magnitude and exponent, with a sticky rest. Correct rounding rests
on no FP32 argument lying within 2^-200 of a rounding boundary (PRESUMED, log 9). -/
def exp2Parts (neg : Bool) (m : Nat) (e : Int) : Nat × Int :=
  if (m.log2 : Int) + e < -100 then
    if neg then (2 ^ 101 - 1, -101) else (2 ^ 100, -100)
  else if (m.log2 : Int) + e > 40 then
    if neg then (1, -1000) else (1, 1000)
  else
    let fr := (-e).toNat
    let n := m >>> fr
    let f := m % 2 ^ fr
    -- x = i + g / 2^fr with 0 < g < 2^fr
    let i : Int := if neg then -(n : Int) - 1 else n
    let g := if neg then 2 ^ fr - f else f
    let y := g * ln2Fix / 2 ^ fr
    (expTerms y 90 0 (2 ^ 320) / 2 ^ 20, i - 300)

/-- Fraction bits of log2 of z / 2^400 (1 ≤ z / 2^400 < 2), most significant first. -/
def log2Bits : Nat → Nat → Nat → Nat
  | 0, _, acc => acc
  | n + 1, z, acc =>
    let z2 := z * z / 2 ^ 400
    if z2 ≥ 2 ^ 401 then log2Bits n (z2 / 2) (2 * acc + 1) else log2Bits n z2 (2 * acc)

/-- log2 of m · 2^e for m no power of two: sign, magnitude and exponent, with a sticky rest (log 9). -/
def log2Parts (m : Nat) (e : Int) : Bool × Nat × Int :=
  let l := m.log2
  let i : Int := (l : Int) + e
  let z := m * 2 ^ 400 / 2 ^ l
  let b := log2Bits 160 z 0
  let v : Int := i * 2 ^ 160 + b
  if v < 0 then (true, v.natAbs - 1, -160) else (false, v.natAbs, -160)

/-- Is m a power of two? -/
def isPow2 (m : Nat) : Bool := m != 0 && 2 ^ m.log2 == m

/-- FRCP (R56). -/
def frcp (x : FVal) : Nat × Flags :=
  match x with
  | .nan s => (Fmt.f32.canonicalNan, Flags.when s flagNV)
  | .inf s => (Fmt.f32.sign s, 0)
  | .fin s m e =>
    if m == 0 then (Fmt.f32.sign s + Fmt.f32.infBits, flagDZ)
    else
      let (q, qe, st) := recip m e
      Fmt.f32.round .rne 0 (.fin s q qe) st

/-- FSQRT (R56). -/
def fsqrt (x : FVal) : Nat × Flags :=
  match x with
  | .nan s => (Fmt.f32.canonicalNan, Flags.when s flagNV)
  | .inf s => if s then (Fmt.f32.canonicalNan, flagNV) else (Fmt.f32.infBits, 0)
  | .fin s m e =>
    if m == 0 then (Fmt.f32.sign s, 0)
    else if s then (Fmt.f32.canonicalNan, flagNV)
    else
      let (r, re, st) := sqrtParts m e
      Fmt.f32.round .rne 0 (.fin false r re) st

/-- FRSQ (R56). -/
def frsq (x : FVal) : Nat × Flags :=
  match x with
  | .nan s => (Fmt.f32.canonicalNan, Flags.when s flagNV)
  | .inf s => if s then (Fmt.f32.canonicalNan, flagNV) else (0, 0)
  | .fin s m e =>
    if m == 0 then (Fmt.f32.sign s + Fmt.f32.infBits, flagDZ)
    else if s then (Fmt.f32.canonicalNan, flagNV)
    else
      let (q, qe, st) := recip m e
      let (r, re, st') := sqrtParts (q * 2 ^ 160) (qe - 160)
      Fmt.f32.round .rne 0 (.fin false r re) (st || st')

/-- FEXP2 (R56). -/
def fexp2 (x : FVal) : Nat × Flags :=
  match x with
  | .nan s => (Fmt.f32.canonicalNan, Flags.when s flagNV)
  | .inf s => if s then (0, 0) else (Fmt.f32.infBits, 0)
  | .fin s m e =>
    if m == 0 then Fmt.f32.round .rne 0 (.fin false 1 0)
    else
      let whole := e ≥ 0 || m % 2 ^ (-e).toNat == 0
      if whole && (m.log2 : Int) + e ≤ 20 then
        let n : Int := if e ≥ 0 then (m * 2 ^ e.toNat : Nat) else (m / 2 ^ (-e).toNat : Nat)
        Fmt.f32.round .rne 0 (.fin false 1 (if s then -n else n))
      else
        let (r, re) := exp2Parts s m e
        Fmt.f32.round .rne 0 (.fin false r re) true

/-- FLOG2 (R56). -/
def flog2 (x : FVal) : Nat × Flags :=
  match x with
  | .nan s => (Fmt.f32.canonicalNan, Flags.when s flagNV)
  | .inf s => if s then (Fmt.f32.canonicalNan, flagNV) else (Fmt.f32.infBits, 0)
  | .fin s m e =>
    if m == 0 then (Fmt.f32.sign true + Fmt.f32.infBits, flagDZ)
    else if s then (Fmt.f32.canonicalNan, flagNV)
    else if isPow2 m then Fmt.f32.round .rne 0 (FVal.ofInt ((m.log2 : Int) + e))
    else
      let (neg, r, re) := log2Parts m e
      Fmt.f32.round .rne 0 (.fin neg r re) true

/-! ### Scales and packed streams (R42 to R45) -/

/-- DecodeVS12 of R43, with the descriptor error. -/
def decodeVs12 (s : BitVec 12) : FVal × Bool :=
  let e := (s.extractLsb' 4 8).toNat
  let f := (s.extractLsb' 0 4).toNat
  if e == 255 then (.nan false, false)
  else if e == 0 then (.zero, f != 0)
  else (.fin false (16 + f) ((e : Int) - 131), false)

/-- An E8M0 scale as VS12 (R44). -/
def e8m0 (b : Byte) : BitVec 12 := b ++ 0#4

/-- An element times its scale (R43): a zero scale gives +0, a NaN scale NaN. -/
def scaledElem (f : Fmt) (x : Nat) (scale : FVal) : FVal :=
  match scale with
  | .nan _ => .nan false
  | _ => if scale.isZero then .zero else ((f.decode x).mul scale).1

/-- Little-endian number of a byte list. -/
def leNat : List Byte → Nat
  | [] => 0
  | b :: rest => b.toNat + 256 * leNat rest

/-- `n` little-endian bytes of a number. -/
def leBytes : Nat → Nat → List Byte
  | 0, _ => []
  | n + 1, v => BitVec.ofNat 8 v :: leBytes n (v / 256)

/-- Bits [lo+w-1:lo] of a stream (R42). -/
def streamBits (bs : List Byte) (lo w : Nat) : Nat :=
  (leNat ((bs.drop (lo / 8)).take ((lo % 8 + w + 7) / 8)) >>> (lo % 8)) % 2 ^ w

/-- Scale `i` of VS12 scales packed two to three bytes (R45): 12-bit stream elements. -/
def vs12At (bs : List Byte) (i : Nat) : BitVec 12 := BitVec.ofNat 12 (streamBits bs (12 * i) 12)

/-- Elements of `w` bits as a byte stream (R42). -/
def packStream (w : Nat) (xs : List Nat) : List Byte :=
  leBytes ((w * xs.length + 7) / 8) (xs.foldr (fun x acc => x % 2 ^ w + 2 ^ w * acc) 0)

/-! ### Combine of the linear-recurrence scan (R57) -/

/-- A pair (a, b) of FP32 bit patterns, or Empty. -/
abbrev LrPair := Option (Word × Word)

/-- Combine(e, l) with the flags it raises (R57). -/
def lrCombine (e l : LrPair) : LrPair × Flags :=
  match e, l with
  | none, l => (l, 0)
  | e, none => (e, 0)
  | some (ea, eb), some (la, lb) =>
    let dec (w : Word) := Fmt.f32.decode w.toNat
    let (a, fa) := Fmt.f32.mulR .rne 0 (dec la) (dec ea)
    let (b, fb) := Fmt.f32.fma .rne 0 (dec la) (dec eb) (dec lb)
    (some (BitVec.ofNat 32 a, BitVec.ofNat 32 b), fa ||| fb)

end Sys2Proof.Machine
end

