-- ==== Sys2Proof/Machine/Flags.lean ====
section
/-! DEFINITION. Merging floating-point flags into FPSTAT (R35). -/

namespace Sys2Proof.Machine

/-- Flags of a class 0 or 1 instruction merged into FPSTAT (R35). -/
def Team.raise (t : Team) (f : Flags) : Team := { t with fpstat := t.fpstat ||| f }

/-- The flags of the lanes that raise them, merged. -/
def Flags.all (fs : List Flags) : Flags := fs.foldl (· ||| ·) 0

end Sys2Proof.Machine
end

