-- ==== Sys2Proof/Machine/Ops.lean ====
section
/-! DEFINITION. The named operations over memory, registers, masks and teams, and taking a trap and returning from one
(R97 to R100, R265, R268). -/

namespace Sys2Proof.Machine

/-- The result of an instruction or a step. -/
abbrev Result := Host.Outcome State Fault Refusal

/-! ### Lists by index -/

/-- Element `i` set to `x`, the list extended with `d` where it is shorter. -/
def setAt (l : List α) (i : Nat) (x d : α) : List α :=
  match i, l with
  | 0, [] => [x]
  | 0, _ :: r => x :: r
  | i + 1, [] => d :: setAt [] i x d
  | i + 1, y :: r => y :: setAt r i x d

/-- Replaces the elements that a test names. -/
def replaceIf (l : List α) (p : α → Bool) (f : α → α) : List α := l.map fun x => if p x then f x else x

/-! ### Memory as cells -/

/-- One byte. -/
def Memory.read (m : Memory) (a : Nat) : Byte :=
  match m with
  | [] => Memory.unlisted
  | (x, b) :: r => if a == x then b else if a < x then Memory.unlisted else Memory.read r a

/-- One byte written, the canonical form kept. -/
def Memory.write (m : Memory) (a : Nat) (b : Byte) : Memory :=
  match m with
  | [] => if b == Memory.unlisted then [] else [(a, b)]
  | (x, c) :: r =>
    if a < x then (if b == Memory.unlisted then (x, c) :: r else (a, b) :: (x, c) :: r)
    else if a == x then (if b == Memory.unlisted then r else (a, b) :: r)
    else (x, c) :: Memory.write r a b

/-- `n` bytes from an address. -/
def Memory.readN (m : Memory) (a n : Nat) : List Byte := (List.range n).map fun k => m.read (a + k)

/-- Bytes written from an address, each where the test allows it. -/
def Memory.writeIf (m : Memory) (a : Nat) (ok : Nat → Bool) : List Byte → Memory
  | [] => m
  | b :: bs => Memory.writeIf (if ok a then m.write a b else m) (a + 1) ok bs

/-- Bytes written from an address. -/
def Memory.writeN (m : Memory) (a : Nat) (bs : List Byte) : Memory := m.writeIf a (fun _ => true) bs

/-! ### Physical memory (R336, R338) -/

/-- Is there memory at a physical address (R336)? -/
def hasMemory (pa : Nat) : Bool := pa < 0x8000000000 || (0x10000000000 ≤ pa && pa < 0x20000000000)

/-- `n` bytes at a physical address; a range without memory reads zero (R336). -/
def State.physRead (s : State) (pa n : Nat) : List Byte :=
  (List.range n).map fun k => if hasMemory (pa + k) then s.mem.read (pa + k) else 0

/-- Does a read of the range meet an uncorrectable burst (R274)? -/
def State.physBad (s : State) (pa n : Nat) : Bool :=
  s.poison.any fun b => decide (pa < 32 * b + 32) && decide (32 * b < pa + n)

/-- Does a write of the range cover a whole burst? -/
def coversBurst (pa n b : Nat) : Bool := decide (pa ≤ 32 * b) && decide (32 * b + 32 ≤ pa + n)

/-- An access to a range without memory is counted (R336). -/
def State.countNoMemory (s : State) (pa : Nat) : State :=
  if hasMemory pa then s else { s with tele := { s.tele with noMemory := s.tele.noMemory + 1 } }

/-- The bytes of a line that a write of `n` bytes at offset `off` of it covers. -/
def lineMask (off n : Nat) : BitVec 128 := BitVec.ofNat 128 ((2 ^ n - 1) * 2 ^ off)

/-- The bursts of a line whose 32 bytes a mask covers whole. -/
def wholeBursts (m : BitVec 128) : BitVec 4 :=
  BitVec.ofNat 4 ((List.range 4).foldr (fun i acc => 2 * acc + (m.extractLsb' (32 * i) 32 == 0xFFFFFFFF#32).toNat) 0)

/-- Bytes put into a line at an offset; `dirty` says that they wait to be written back. A burst all of whose bytes have
been written is good. -/
def Line.put (l : Line) (off : Nat) (bs : List Byte) (dirty : Bool) : Line :=
  let m := lineMask off bs.length
  let d := if dirty then l.dirty ||| m else l.dirty &&& ~~~m
  { l with data := l.data.take off ++ bs ++ l.data.drop (off + bs.length), dirty := d,
           bad := l.bad &&& ~~~(wholeBursts (l.dirty ||| m)) }

/-- A write at a physical address, which looks up no cache (R338, R345): a burst written whole becomes good; bytes of an
uncorrectable burst written in part are not kept, and each such burst is counted; bytes where there is no memory are
discarded. -/
def State.physWrite (s : State) (pa : Nat) (bs : List Byte) : State :=
  let n := bs.length
  let lost := s.poison.filter fun b => decide (pa < 32 * b + 32) && decide (32 * b < pa + n) && !coversBurst pa n b
  let ok (a : Nat) := hasMemory a && (!s.poison.contains (a / 32) || coversBurst pa n (a / 32))
  ({ s with
      mem := s.mem.writeIf pa ok bs
      poison := s.poison.filter fun b => !coversBurst pa n b
      tele := { s.tele with uncorrectable := s.tele.uncorrectable + lost.length } }).countNoMemory pa

/-- A little-endian number at a physical address. -/
def State.phys (s : State) (pa n : Nat) : Nat := leNat (s.physRead pa n)

/-! ### Lane masks (R8, R24) -/

/-- The positions 0 to n − 1. -/
def lanesBelow (n : Nat) : Mask := BitVec.ofNat 1024 (2 ^ n - 1)

/-- The lanes of a mask below `n`, ascending. -/
def Mask.lanes (m : Mask) (n : Nat) : List Nat := (List.range n).filter fun i => m.getLsbD i

/-- A mask from a test on lanes below `n`. -/
def maskOf (n : Nat) (p : Nat → Bool) : Mask :=
  BitVec.ofNat 1024 ((List.range n).foldr (fun i acc => 2 * acc + (p i).toNat) 0)

/-- Lane word of group g (R24). -/
def Mask.laneWord (m : Mask) (g : Nat) : Word := (m >>> (32 * g)).setWidth 32

/-- The group word G (R24). -/
def Mask.groups (m : Mask) : Word :=
  BitVec.ofNat 32 ((List.range 32).foldr (fun g acc => 2 * acc + (Mask.laneWord m g != 0).toNat) 0)

/-- Number of lanes of a mask of an n-lane team. -/
def Mask.count (m : Mask) (n : Nat) : Nat := (Mask.lanes m n).length

/-- The lowest lane alone, or the empty mask (R91). -/
def Mask.lowest (m : Mask) : Mask := m &&& (-m)

/-- The lanes of the team that exist (R8). -/
def Team.existing (t : Team) : Mask := lanesBelow t.n

/-- The active lanes, ascending. -/
def Team.lanes (t : Team) : List Nat := Mask.lanes t.act t.n

/-! ### Finding and replacing parts of the state -/

/-- The team of a key. -/
def State.team? (s : State) (id : Nat) : Option Team := s.teams.find? fun t => t.id == id

/-- The team put back under its key. -/
def State.setTeam (s : State) (t : Team) : State := { s with teams := replaceIf s.teams (·.id == t.id) fun _ => t }

/-- A change of the team of a key. -/
def State.onTeam (s : State) (id : Nat) (f : Team → Team) : State :=
  { s with teams := replaceIf s.teams (·.id == id) f }

/-- The cast of a key. -/
def State.cast? (s : State) (id : Nat) : Option Cast := s.casts.find? fun c => c.id == id

def State.onCast (s : State) (id : Nat) (f : Cast → Cast) : State :=
  { s with casts := replaceIf s.casts (·.id == id) f }

/-- A core site; one that nothing has touched is as after reset. -/
def State.core (s : State) (no : Nat) : Core := (s.cores.find? fun c => c.no == no).getD (Core.reset no)

def State.setCore (s : State) (c : Core) : State :=
  if s.cores.any (·.no == c.no) then { s with cores := replaceIf s.cores (·.no == c.no) fun _ => c }
  else { s with cores := s.cores ++ [c] }

def State.onCore (s : State) (no : Nat) (f : Core → Core) : State := s.setCore (f (s.core no))

/-- A context; a number that nothing has touched is as after reset. -/
def State.ctx (s : State) (no : Nat) : Context := (s.contexts.find? fun c => c.no == no).getD (Context.reset no)

def State.setCtx (s : State) (c : Context) : State :=
  if s.contexts.any (·.no == c.no) then { s with contexts := replaceIf s.contexts (·.no == c.no) fun _ => c }
  else { s with contexts := s.contexts ++ [c] }

def State.onCtx (s : State) (no : Nat) (f : Context → Context) : State := s.setCtx (f (s.ctx no))

/-- Does the wheel run in Isolated mode (R303, R360)? -/
def Regs.isolated (r : Regs) : Bool := r.wctlOn == 2 || r.pmodeOn == 3

/-- Does a world region table wait to take effect? New accesses wait with it (R364). -/
def State.switching (s : State) : Bool := s.mgmt.wrtNext.isSome

/-- May a context's teams and operations move? -/
def State.going (s : State) (ctx : Nat) : Bool := (s.ctx ctx).state != .resetting && !s.stopped

/-- May they start an access (R364)? -/
def State.alive (s : State) (ctx : Nat) : Bool := s.going ctx && !s.switching

def State.grid? (s : State) (id : Nat) : Option Grid := s.grids.find? fun g => g.id == id

def State.onGrid (s : State) (id : Nat) (f : Grid → Grid) : State :=
  { s with grids := replaceIf s.grids (·.id == id) f }

/-- Matrix context m of a core. -/
def Core.mctx (c : Core) (m : Nat) : Matrix := c.matrix.getD m Matrix.reset

def State.onMatrix (s : State) (core m : Nat) (f : Matrix → Matrix) : State :=
  s.onCore core fun c => { c with matrix := setAt c.matrix m (f (c.mctx m)) Matrix.reset }

/-- Weight entry n of a core. -/
def Core.weight (c : Core) (n : Nat) : Weight := c.weights.getD n Weight.reset

def State.onWeight (s : State) (core n : Nat) (f : Weight → Weight) : State :=
  s.onCore core fun c => { c with weights := setAt c.weights n (f (c.weight n)) Weight.reset }

/-- A key nobody has used. -/
def State.fresh (s : State) : Nat × State := (s.nextId, { s with nextId := s.nextId + 1 })

/-- The argument of a fresh free value (log 4). -/
def State.draw (s : State) : Nat × State := (s.freeCtr, { s with freeCtr := s.freeCtr + 1 })

/-- Something sent out of the device. -/
def State.emit (s : State) (o : Output) : State := { s with out := s.out ++ [o] }

/-! ### Registers (R13 to R18) -/

/-- Lane i of V register r. -/
def Team.readV (t : Team) (r i : Nat) : Word := (t.v.getD r []).getD i 0

/-- V register r written in the lanes of a mask. -/
def Team.writeV (t : Team) (r : Nat) (m : Mask) (f : Nat → Word) : Team :=
  { t with v := setAt t.v r ((List.range t.n).map fun i => if m.getLsbD i then f i else t.readV r i) [] }

def Team.readS (t : Team) (r : Nat) : Word := t.s.getD r 0

def Team.writeS (t : Team) (r : Nat) (w : Word) : Team := { t with s := setAt t.s r w 0 }

/-- The pair of an even S register (R14). -/
def Team.readSS (t : Team) (r : Nat) : DWord := Word.pair (t.readS (r + 1)) (t.readS r)

def Team.writeSS (t : Team) (r : Nat) (d : DWord) : Team := (t.writeS r d.lo).writeS (r + 1) d.hi

/-- Predicate r; P7 is true in every lane (R13). -/
def Team.readP (t : Team) (r : Nat) : Mask := if r == 7 then BitVec.allOnes 1024 else t.p.getD r 0

/-- Predicate r written in the lanes of a mask; P7 ignores the write (R26). -/
def Team.writeP (t : Team) (r : Nat) (m v : Mask) : Team :=
  if r == 7 then t else { t with p := setAt t.p r ((t.readP r &&& ~~~m) ||| (v &&& m)) 0 }

def Team.readQ (t : Team) (r : Nat) : Bool := t.q.getLsbD r

def Team.writeQ (t : Team) (r : Nat) (b : Bool) : Team :=
  { t with q := if b then t.q ||| (1#4 <<< r) else t.q &&& ~~~(1#4 <<< r) }

/-- A register in lane i, one word: an S register, Q or P as every lane sees it. -/
def Team.regWord (t : Team) (r : Reg) (i : Nat) : Word :=
  match r with
  | .v n => t.readV n i
  | .s n => t.readS n
  | .p n => (BitVec.ofBool ((t.readP n).getLsbD i)).setWidth 32
  | .q n => (BitVec.ofBool (t.readQ n)).setWidth 32

/-- A register set in every lane. -/
def Team.setReg (t : Team) (r : Reg) (f : Nat → Word) : Team :=
  match r with
  | .v n => t.writeV n (lanesBelow t.n) f
  | .s n => t.writeS n (f 0)
  | .p n => t.writeP n (lanesBelow t.n) (maskOf t.n fun i => (f i).getLsbD 0)
  | .q n => t.writeQ n ((f 0).getLsbD 0)

def Team.readK (t : Team) (r : Nat) : BitVec 16 := t.k.getD r 0

def Team.writeK (t : Team) (r : Nat) (w : BitVec 16) : Team := { t with k := setAt t.k r w 0 }

/-- An arrival counter incremented (R18); a YIELD wait of the team ends (R95). -/
def Team.bumpK (t : Team) (r : Nat) : Team := { t.writeK r (t.readK r + 1) with yield := none }

/-- The counter Kc of an engine operation's team, when there is one and the team is still there (R16). -/
def State.bump (s : State) (team : Nat) (kc : Option (BitVec 4)) : State :=
  match kc with
  | none => s
  | some k => s.onTeam team fun t => t.bumpK k.toNat

def Team.readTS (t : Team) (r : Nat) : DWord := t.ts.getD r 0
def Team.writeTS (t : Team) (r : Nat) (d : DWord) : Team := { t with ts := setAt t.ts r d 0 }

def Team.branch (t : Team) (r : Nat) : Branch := t.b.getD r Branch.reset
def Team.setBranch (t : Team) (r : Nat) (b : Branch) : Team := { t with b := setAt t.b r b Branch.reset }

/-- Register budget in registers (R14, R22). -/
def Team.budget (t : Team) : Nat := 8 * (t.base + t.extg)

/-- The owner index that code 0xF4 reads in a lane (R28). -/
def Team.owner (t : Team) (i : Nat) : Word :=
  if t.expand.armed then t.expand.owners.getD i 0xFFFFFFFF else 0xFFFFFFFF

/-! ### Identification words (R31 to R34) -/

def Context.ctxid (c : Context) (world : Bool) : Word :=
  BitVec.ofBool world ++ c.domain ++ BitVec.ofNat 10 c.no ++ c.asid

/-- Die, cluster and site of a core number. -/
def coreDie (core : Nat) : Nat := core / 48
def coreCluster (core : Nat) : Nat := core / 12
def coreSite (core : Nat) : Nat := core % 12

def Team.info (t : Team) (castNo : Nat) : Word :=
  BitVec.ofNat 2 (coreDie t.core) ++ BitVec.ofNat 2 (t.core % 48 / 12) ++ BitVec.ofNat 4 (coreSite t.core)
    ++ BitVec.ofNat 3 t.sub ++ BitVec.ofNat 3 castNo ++ BitVec.ofNat 2 t.cslot ++ 0#5 ++ BitVec.ofNat 11 t.n

def State.teamInfo (s : State) (t : Team) : Word := t.info ((s.cast? t.cast).elim 0 (·.number))

/-- Lane record of R264: the lowest failing lane and how many fail. -/
def Team.laneRecord (t : Team) (failing : List Nat) : DWord :=
  match failing with
  | [] => 0
  | l :: _ => t.owner l ++ 0#5 ++ BitVec.ofNat 11 failing.length ++ 0#5 ++ BitVec.ofNat 11 l

/-! ### Clause progress (R59, R68, R267) -/

/-- Bits `lo` to `hi - 1` of a CMASK. -/
def cmaskBelow (pos : Nat) : BitVec 15 := BitVec.ofNat 15 (2 ^ (pos - 1) - 1)

/-- The next position that a re-issue does not skip, with its word offset (R268). -/
def Clause.skipTo (h : Header) (ws : List Word) (skip : BitVec 15) : Nat → Nat → Nat → Nat × Nat
  | 0, pos, off => (pos, off)
  | k + 1, pos, off =>
    if pos ≤ h.n && skip.getLsbD (pos - 1) then
      Clause.skipTo h ws skip k (pos + 1) (off + instrLength (h.classAt pos) (ws.drop off))
    else (pos, off)

/-- Past the instruction at the current position (R59, R268). -/
def Clause.advance (c : Clause) : Clause :=
  let off := c.woff + instrLength (c.header.classAt c.pos) (c.words.drop c.woff)
  let (p, o) := Clause.skipTo c.header c.words c.skip 15 (c.pos + 1) off
  { c with pos := p, woff := o }

/-- The clause placed at a position, for a re-issue or a continuation (R99, R268). -/
def Clause.at (h : Header) (ws : List Word) (pos : Nat) (skip : BitVec 15) : Clause :=
  let off := clauseWords h 1 (min (pos - 1) h.n) ws
  { header := h, words := ws, pos := pos, woff := off, skip := skip, next := none }

/-- The answer is a mapping. -/
def Xlat.isMapped : Xlat → Bool
  | .mapped .. | .host _ | .peer .. => true
  | _ => false

/-- An answer other than a mapping ends the instruction not complete (R265). -/
def Xlat.isBad : Xlat → Bool
  | .missing | .denied | .world | .walkError => true
  | _ => false

/-- A failed outstanding instruction: a trap at its completion, or a granule that is not mapped. -/
def Outst.failed (o : Outst) : Bool := o.fail.isSome || o.outs.any (·.2.isBad)

/-- The instructions of the team that may be unperformed: those posted, then those outstanding. -/
def Team.unperformed (t : Team) : List Outst := t.posted ++ t.outst

/-- Outstanding instructions of the clause in execution. -/
def Team.mine (t : Team) : List Outst := t.outst.filter fun o => o.clause == t.clauseNo

/-- The team issues nothing further: it settles a trap or a translation outcome (R265). -/
def Team.settling (t : Team) : Bool := t.pending.isSome || t.mine.any Outst.failed

/-- No instruction of an earlier clause is outstanding. -/
def Team.earlierDone (t : Team) : Bool := t.outst.all fun o => o.clause == t.clauseNo

/-- Address of the clause in sequence (R59). -/
def Team.seqAddr (t : Team) (c : Clause) : DWord := t.pc + BitVec.ofNat 64 (4 * (1 + c.words.length))

/-- The clause ends when its last instruction has issued, nothing without a token is outstanding, and every token
instruction of it is checked (R68, R267). -/
def Team.closeClause (checked : Outst → Bool) (clk : Nat) (t : Team) : Team :=
  match t.clause with
  | none => t
  | some c =>
    if c.pos ≤ c.header.n || t.settling || t.mine.any (fun o => o.tk == 0 || !checked o) then t
    else
      { t with
        pc := c.next.getD (t.seqAddr c), clause := none, clauseNo := t.clauseNo + 1, port := none,
        target := c.next.isSome, via := if c.next.isSome then t.via else none,
        ended := t.ended || t.existing &&& ~~~t.exited == 0,
        lastEnd := some clk, lastY := c.header.y, restored := false, yield := t.yieldN, yieldN := none }

/-! ### Traps (R97 to R100) -/

/-- The 8-bit codes of R76. -/
def TrapCode.code : TrapCode → BitVec 8
  | .illegalClause => 0x01 | .illegalInstr => 0x02 | .unpreparedTarget => 0x03 | .maskStackOverflow => 0x04
  | .maskStackMismatch => 0x05 | .illegalConvergence => 0x06 | .rangeLock => 0x07 | .misaligned => 0x08
  | .pageFault => 0x09 | .protection => 0x0A | .memoryError => 0x0B | .barrierBroken => 0x0C | .expandState => 0x0D
  | .userTrap => 0x0E | .breakpoint => 0x0F | .preempt => 0x10 | .lookaheadViolation => 0x11 | .privileged => 0x12
  | .worldViolation => 0x13 | .weightStream => 0x14 | .kvDescriptor => 0x15 | .watchdog => 0x16 | .extTimeout => 0x17

/-- TS1 of a frame (R98). -/
def frameWord (info : BitVec 16) (rk : BitVec 2) (cmask : BitVec 15) (idx : BitVec 4) (code : BitVec 8) : DWord :=
  0#16 ++ info ++ 0#3 ++ rk ++ cmask ++ idx ++ code

/-- The five frame registers written (R98). -/
def Team.writeFrame (t : Team) (info : BitVec 16) (code : BitVec 8) (addr lanes : DWord) (r : Resume) : Team :=
  ((((t.writeTS 0 r.epc).writeTS 1 (frameWord info r.rk r.cmask r.idx code)).writeTS 2 addr).writeTS 3 lanes).writeTS 4
    (BitVec.ofNat 64 t.stack.length)

/-- The handler entered (R97): frame, TMASK, every existing lane not exited active, HND; the clause at `base` starts.
Outstanding instructions of the clause that have not completed are dropped with their tokens. A YIELD wait, pending or
running, ends: it does not hold off the handler (DEDUCED, log 67). A first clause at RENTRY has then ended (R395). -/
def Team.enter (t : Team) (info : BitVec 16) (code : BitVec 8) (addr lanes : DWord) (r : Resume) (base : DWord)
    (psave : Bool) : Team :=
  { t.writeFrame info code addr lanes r with
    tmask := t.act, act := t.existing &&& ~~~t.exited, hnd := true, psave := psave,
    pc := base, clause := none, clauseNo := t.clauseNo + 1,
    outst := t.outst.filter fun o => o.clause != t.clauseNo,
    pending := none, resume := none, park := none, cleared := [], port := none, target := false, via := none,
    yield := none, yieldN := none, shadows := [], restored := false }

/-- A kind 3 fault record (R270, R275, R399) for a fault met on a die. -/
def contextRecord (c : Context) (die : Nat) (reason : Nat) (code : BitVec 8) (va : DWord) : List Word :=
  [va.lo, va.hi, c.ctxid c.world, BitVec.ofNat 2 die ++ 0#30, 3#3 ++ 0#21 ++ code, BitVec.ofNat 32 reason, 0, 0]

/-- A fault-ring record queued for its context (R270). -/
def State.record (s : State) (ctx : Nat) (ws : List Word) : State :=
  s.onCtx ctx fun c => { c with records := c.records ++ [ws] }

/-- A context faults (R275): one kind 3 record, and the reset of R276 begins. A context already resetting or not
registered does not fault again. -/
def State.contextFault (s : State) (ctx die reason : Nat) (code : BitVec 8) (va : DWord) : State :=
  let c := s.ctx ctx
  if c.state == .registered || c.state == .preempting || c.state == .preempted then
    (s.record ctx (contextRecord c die reason code va)).onCtx ctx fun c => { c with state := .resetting }
  else s

/-- A kind 5 record (R270): a queue or completion fault with its cause. -/
def State.queueFault (s : State) (ctx die cause queue : Nat) (wr : Bool) (code : BitVec 8) (va : DWord) : State :=
  let c := s.ctx ctx
  s.record ctx [va.lo, va.hi, c.ctxid c.world, BitVec.ofNat 2 die ++ 0#30, 5#3 ++ BitVec.ofBool wr ++ 0#20 ++ code,
    0#8 ++ BitVec.ofNat 8 queue ++ 0#8 ++ BitVec.ofNat 8 cause, 0, 0]

/-- A clause that ends by a trap, a park, SVC or ERET gives up its port: it is the team's last clause (R292). -/
def Team.endsClause (t : Team) (clk : Nat) : Team :=
  if t.port.isSome then { t with lastEnd := some clk, lastY := t.clause.elim false (·.header.y) } else t

/-- A trap other than PAGE_FAULT taken by a team that has settled (R97, R100): in a handler the context faults with
REASON 1. -/
def State.enterTrap (s : State) (t : Team) (tr : Trap) (r : Resume) : State :=
  if t.hnd then s.contextFault t.ctx (coreDie t.core) 1 tr.code.code 0
  else s.setTeam ((t.endsClause s.clk).enter tr.info tr.code.code tr.addr tr.lanes r t.tbase (tr.code == .preempt))

/-- CMASK of a clause at an instruction that is not complete (R98, R265): the issued positions that completed, and those
a re-issue skips. A taken transfer is complete when its clause ends: it is re-issued (DEDUCED, log 89). -/
def Team.cmask (t : Team) (c : Clause) (stopAt : Option Nat) : BitVec 15 :=
  let issued := cmaskBelow c.pos ||| c.skip
  let open' := t.mine.foldl (fun (m : BitVec 15) o => m ||| (1#15 <<< (o.pos - 1))) 0
  let here := match stopAt with
    | some p => 1#15 <<< (p - 1)
    | none => 0
  let taken : BitVec 15 := if c.next.isSome then 1#15 <<< (c.header.n - 1) else 0
  issued &&& ~~~(open' ||| here ||| taken)

/-- The resume values of a trap at an instruction of a clause (R98). -/
def Team.resumeAt (t : Team) (c : Clause) (pos : Nat) (rk : BitVec 2) (epc : DWord) : Resume :=
  { epc := epc, idx := BitVec.ofNat 4 pos, rk := rk, cmask := t.cmask c (if rk == 0 then some pos else none) }

/-- Resume kind and EPC by trap code (R98): USER_TRAP resumes at the clause in sequence, BREAKPOINT after its
instruction, every other trap at its instruction. -/
def Team.trapResume (t : Team) (c : Clause) (pos : Nat) (code : TrapCode) : Resume :=
  match code with
  | .userTrap => { t.resumeAt c pos 0 (t.seqAddr c) with rk := 2 }
  | .breakpoint => { t.resumeAt c pos 0 t.pc with rk := 1 }
  | _ => t.resumeAt c pos 0 t.pc

/-- An instruction raises a trap (R97, R265): entered at once when nothing of the team is outstanding, else held until the
outstanding instructions have settled. -/
def State.trapNow (s : State) (t : Team) (c : Clause) (tr : Trap) : State :=
  if t.outst.isEmpty then s.enterTrap t tr (t.trapResume c c.pos tr.code)
  else s.setTeam { t with pending := some (tr, c.pos) }

/-- Return from the handler (R99), after its checks: Act, HND, PSAVE, level, and the resume of TS0 and TS1. -/
def Team.leave (t : Team) : Team :=
  let ts1 := t.readTS 1
  let r : Resume := { epc := t.readTS 0, idx := ts1.extractLsb' 8 4, rk := ts1.extractLsb' 27 2,
                      cmask := ts1.extractLsb' 12 15 }
  { t with
    act := t.tmask &&& ~~~t.exited, hnd := false, psave := false, svl := false, pc := r.epc, clause := none,
    clauseNo := t.clauseNo + 1, port := none, target := false, via := none,
    resume := some r, restored := false }

end Sys2Proof.Machine
end

