-- ==== Sys2Proof/Machine/Barrier.lean ====
section
/-! DEFINITION. Named barriers (R201 to R203) and what a team does when it ends. -/

namespace Sys2Proof.Machine

/-- A barrier word by fields (R201). -/
structure Bar where
  phase : BitVec 16
  brk   : Bool
  part  : BitVec 4
  arr   : BitVec 4
  exp   : BitVec 3
  tx    : Int
deriving DecidableEq, Repr

/-- The fields of a barrier word. -/
def Bar.ofWord (w : DWord) : Bar :=
  { phase := w.extractLsb' 48 16, brk := w.getLsbD 47, part := w.extractLsb' 40 4, arr := w.extractLsb' 36 4,
    exp := w.extractLsb' 32 3, tx := w.lo.toInt }

/-- The word of the fields. -/
def Bar.word (b : Bar) : DWord :=
  b.phase ++ BitVec.ofBool b.brk ++ 0#3 ++ b.part ++ b.arr ++ 0#1 ++ b.exp ++ BitVec.ofInt 32 b.tx

/-- Number of slots in a set. -/
def slotCount (x : BitVec 4) : Nat := ((List.range 4).filter fun i => x.getLsbD i).length

/-- The completion test of R201. -/
def Bar.complete (b : Bar) : Bar :=
  if !b.brk && b.exp != 0 && b.exp.toNat ≤ slotCount b.arr && b.tx == 0 then { b with phase := b.phase + 1, arr := 0 }
  else b

/-- Has an operation left TX outside the .s32 range (R201)? -/
def Bar.txOut (b : Bar) : Bool := decide (b.tx < -(2 ^ 31)) || decide (2 ^ 31 ≤ b.tx)

/-- The breaking test of R201, for the slots that hold a team which has not ended. -/
def Bar.break (b : Bar) (live : BitVec 4) : Bar :=
  let l := b.part &&& live
  let short := decide (b.tx ≤ 0) && decide (slotCount b.arr + slotCount (l &&& ~~~b.arr) < b.exp.toNat)
  if short || b.txOut then { b with brk := true } else b

/-- A slot removed from PART and ARR (R203). -/
def Bar.drop (b : Bar) (slot : Nat) : Bar :=
  let m : BitVec 4 := 1#4 <<< slot
  if b.brk then b
  else
    let had := b.part &&& m != 0
    { b with part := b.part &&& ~~~m, arr := b.arr &&& ~~~m, exp := if had && b.exp != 0 then b.exp - 1 else b.exp }

/-- A barrier word as STATERS.bar takes it (R213). -/
def restoredBar (w : DWord) : Bar :=
  let b := Bar.ofWord w
  { b with arr := b.arr &&& b.part, exp := if 4 < b.exp.toNat then 4 else b.exp }

/-- The part of a change in step 1 of R201: TX and ARR. -/
def Bar.count (b : Bar) : BarChange → Bar
  | .land n => { b with tx := b.tx - (n : Int) }
  | .arrive slot n => { b with tx := b.tx + (n : Int), arr := b.arr ||| (1#4 <<< slot) }
  | _ => b

/-- The part of a change in step 3: the drops. -/
def Bar.dropped (b : Bar) : BarChange → Bar
  | .drop slot => b.drop slot
  | _ => b

/-- The part of a change in step 5: a BINIT (R202), or a word restored, to which the completion test applies (R213). -/
def Bar.renewed (b : Bar) : BarChange → Bar
  | .init w => { b with brk := false, part := w.extractLsb' 4 4, arr := 0, exp := w.extractLsb' 0 3, tx := 0 }
  | .put w => (restoredBar w).complete
  | _ => b

/-- The changes of one clock up to the second test of completion (R201, steps 1 to 4). -/
def Bar.counted (b : Bar) (cs : List BarChange) : Bar :=
  (cs.foldl Bar.dropped (cs.foldl Bar.count b).complete).complete

/-- The changes of one clock (R201, steps 1 to 6). -/
def Bar.clock (b : Bar) (live : BitVec 4) (cs : List BarChange) : Bar :=
  let b5 := cs.foldl Bar.renewed (b.counted cs)
  ({ b5 with brk := b5.brk || cs.contains .refused } : Bar).break live

/-- Slots of a cast that hold a team which has not ended. -/
def State.liveSlots (s : State) (cast : Nat) : BitVec 4 :=
  (s.teams.filter fun t => t.cast == cast && !t.ended).foldl (fun m t => m ||| (1#4 <<< t.cslot)) 0

/-- A waiting BWAIT on a barrier after a change of it: released when its phase is over, broken when the barrier is
broken or reinitialised (R201 to R203). Its third argument is 0 while it waits, 1 broken and 2 released, in the clock that
its fourth names. -/
def bwaitMark (n mark : Nat) (b : Bar) (reinit : Bool) (o : Outst) : Outst :=
  match o.instr, o.args with
  | .bwait _, ph :: k :: 0 :: _ =>
    if k != n then o
    else if b.phase.toNat != ph then { o with args := [ph, k, 2, mark] }
    else if b.brk || reinit then { o with args := [ph, k, 1, mark] } else o
  | _, _ => o

/-- A BWAIT that was released, or broke, in the clock whose changes are taken again waits again. -/
def bwaitAgain (n mark : Nat) (o : Outst) : Outst :=
  match o.instr, o.args with
  | .bwait _, [ph, k, _, x] => if k == n && x == mark then { o with args := [ph, k, 0] } else o
  | _, _ => o

/-- Barrier n of a cast. -/
def Cast.bar (c : Cast) (n : Nat) : Bar := Bar.ofWord (c.bars.getD n 0)

/-- The clock that a change of barrier n by a team, or by a landing, belongs to: that of the changes before it, where every
step since has changed a barrier, no clock has passed and the team made none of them; else a clock of its own (R201;
log 78). -/
def Cast.clockOf (c : Cast) (n : Nat) (who : Option Nat) (mark : Nat) : BarClock :=
  let own : BarClock := { bar := n, mark := mark, before := c.bars.getD n 0, changes := [], teams := [], fresh := false }
  match c.recent.find? (·.bar == n) with
  | none => own
  | some r => if who.elim false r.teams.contains then own else r

/-- A change of one barrier, applied with the changes of its clock before it (R201): waiting teams are told. -/
def State.barChange (s : State) (cast n : Nat) (ch : BarChange) (who : Option Nat := none) : State :=
  match s.cast? cast with
  | none => s
  | some c =>
    let r := c.clockOf n who s.freeCtr
    let b0 := Bar.ofWord r.before
    let cs := r.changes ++ [ch]
    let b2 := b0.clock (s.liveSlots cast) cs
    -- the spec states no TX for a count that left its range (log 27)
    let b := if b2.txOut then { b2 with tx := (Config.freeWord s.freeCtr).toInt } else b2
    let reinit := cs.any fun x => match x with | .init _ => true | _ => false
    -- a phase that completed in this clock releases before a break counts
    let mark (o : Outst) : Outst :=
      bwaitMark n r.mark b reinit (bwaitMark n r.mark { b0.counted cs with brk := false } false (bwaitAgain n r.mark o))
    { s.onCast cast fun c => { c with
        bars := setAt c.bars n b.word 0
        recent := { r with changes := cs, teams := who.toList ++ r.teams, fresh := true } :: c.recent.filter (·.bar != n) } with
      teams := s.teams.map fun t => if t.cast == cast then { t with outst := t.outst.map mark } else t }

/-- After a step in which `n` clocks passed: the clock of the barrier changes goes on only where the step made one and no
clock passed (log 78). -/
def State.ageBars (s : State) (n : Nat) : State :=
  if s.casts.all (·.recent.isEmpty) then s
  else
    let on := n == 0 && s.casts.any fun c => c.recent.any (·.fresh)
    { s with casts := s.casts.map fun c =>
        { c with recent := if on then c.recent.map fun r => { r with fresh := false } else [] } }

/-- The implicit drop of a team that ends, from every barrier of its cast that holds its slot (R203). -/
def State.implicitDrop (s : State) (t : Team) : State :=
  match s.cast? t.cast with
  | none => s
  | some c =>
    ((List.range c.nb).filter fun n => (c.bar n).part.getLsbD t.cslot).foldl
      (fun s n => s.barChange t.cast n (.drop t.cslot) (some t.id)) s

/-- A team put back after it has moved: one that has just ended drops out of its barriers. -/
def State.putTeam (s : State) (t : Team) : State :=
  let was := (s.team? t.id).elim false (·.ended)
  let s1 := s.setTeam t
  if t.ended && !was then s1.implicitDrop t else s1

end Sys2Proof.Machine
end

