-- ==== Sys2Proof/Machine/Operands.lean ====
section
/-! DEFINITION. Operand values (R26 to R28), the registers an instruction reads and writes (R68, R101, R142), and the
checks every encoded instruction passes when it reaches issue (R7, R68 to R71, R266). -/

namespace Sys2Proof.Machine

/-! ### Operand values -/

/-- The FP32 value of a constant code in a floating-point position (R27). -/
def constFloat (c : BitVec 4) : Word := BitVec.ofNat 32 (Fmt.f32.round .rne 0 (FVal.ofInt c.toNat)).1

/-- A source of 32 bits or fewer in lane i (R26); `flt` marks an FP32 position. -/
def Team.word (t : Team) (flt : Bool) (i : Nat) : Operand → Word
  | .v n => t.readV n.toNat i
  | .s n => t.readS n.toNat
  | .p n => (BitVec.ofBool ((t.readP n.toNat).getLsbD i)).setWidth 32
  | .q n => (BitVec.ofBool (t.readQ n.toNat)).setWidth 32
  | .k n => (t.readK n.toNat).setWidth 32
  | .const c => if flt then constFloat c else c.setWidth 32
  | .zero => 0
  | .lane => BitVec.ofNat 32 i
  | .group => BitVec.ofNat 32 (i / 32)
  | .team => t.index.setWidth 32
  | .owner => t.owner i
  | .lit32 w => w
  | .lit64 d => d.lo

/-- A 64-bit source in lane i; `sx` marks a position of type .s64, where a 32-bit literal is sign-extended (R27). -/
def Team.dword (t : Team) (sx : Bool) (i : Nat) : Operand → DWord
  | .v n => Word.pair (t.readV (n.toNat + 1) i) (t.readV n.toNat i)
  | .s n => t.readSS n.toNat
  | .lit32 w => if sx then w.signExtend 64 else w.setWidth 64
  | .lit64 d => d
  | o => (t.word false i o).setWidth 64

/-- A condition source in lane i: a P or Q code, or constant 1 (R104, R107). -/
def Team.cond (t : Team) (i : Nat) (o : Operand) : Bool := (t.word false i o).getLsbD 0

/-- A source of a class 0 or 1 instruction as a number: 64-bit or 32-bit position. -/
def Team.num (t : Team) (w64 sx flt : Bool) (i : Nat) (o : Operand) : Nat :=
  if w64 then (t.dword sx i o).toNat else (t.word flt i o).toNat

/-- A uniform value of a per-team form: a word. -/
def Team.uword (t : Team) (o : Operand) : Word := t.word false 0 o

/-- A uniform 64-bit value of a per-team form. -/
def Team.udword (t : Team) (o : Operand) : DWord := t.dword false 0 o

/-- A class 0 or 1 result written to its destination (R26, R101): V and P in the active lanes, S, Q and K once. -/
def Team.put (t : Team) (d : Operand) (w64 : Bool) (f : Nat → Nat) : Team :=
  match d with
  | .v n =>
    let t' := t.writeV n.toNat t.act fun i => BitVec.ofNat 32 (f i)
    if w64 then t'.writeV (n.toNat + 1) t.act fun i => BitVec.ofNat 32 (f i >>> 32) else t'
  | .s n => if w64 then t.writeSS n.toNat (BitVec.ofNat 64 (f 0)) else t.writeS n.toNat (BitVec.ofNat 32 (f 0))
  | .p n => t.writeP n.toNat t.act (maskOf t.n fun i => (f i).testBit 0)
  | .q n => t.writeQ n.toNat ((f 0).testBit 0)
  | .k n => t.writeK n.toNat (BitVec.ofNat 16 (f 0))
  | _ => t

/-- A class 0 or 1 result with its flags (R35, R101): the vector form counts active lanes alone. -/
def Team.putFlags (t : Team) (d : Operand) (w64 : Bool) (f : Nat → Nat × Flags) : Team :=
  let t' := t.put d w64 fun i => (f i).1
  t'.raise (if d.isScalarDest then (f 0).2 else Flags.all (t.lanes.map fun i => (f i).2))

/-- The draw of stochastic rounding for element k of lane i (R52). -/
def Team.drawSr (t : Team) (k i : Nat) : Word :=
  hMix t.srseed t.srstream (BitVec.ofNat 64 (k * 2 ^ 40 + t.index.toNat * 2 ^ 10 + i))

end Sys2Proof.Machine

namespace Sys2Proof

/-! ### Registers read and written (R68) -/

/-- The registers of an operand that takes a run of `r`. -/
def Operand.regs (r : Nat) : Operand → List Reg
  | .v n => (List.range r).map fun k => .v (n.toNat + k)
  | .s n => (List.range r).map fun k => .s (n.toNat + k)
  | .p n => if r == 0 || n == 7 then [] else [.p n.toNat]
  | .q n => if r == 0 then [] else [.q n.toNat]
  | _ => []

/-- An S pair. -/
def pairRegs (n : BitVec 6) : List Reg := [.s n.toNat, .s (n.toNat + 1)]

/-- Runs of D, A, B and the third input of an F1 instruction. -/
def F1.regs (o : F1) (d a b c : Nat) : List Reg := o.d.regs d ++ o.a.regs a ++ o.b.regs b ++ o.third.regs c

/-- Width in registers of the type in force. -/
def F1.run (o : F1) (dflt : Ty) : Nat := if (o.ext dflt).ty.is64 then 2 else 1

/-- The registers an F1 instruction reads or writes; none for another format. -/
def Instr.f1Regs : Instr → List Reg
  | .mov o | .notL o | .brev o => o.regs (o.run .b32) (o.run .b32) 0 0
  | .sel o => o.regs (o.run .b32) (o.run .b32) (o.run .b32) 1
  | .iadd o | .isub o | .imul o | .imulh o | .imin o | .imax o =>
    o.regs (o.run .s32) (o.run .s32) (o.run .s32) 0
  | .iadc o | .isbc o =>
    let x := o.ext .n32
    let co : List Reg :=
      if x.fn.getLsbD 3 then
        (if o.scalar then [.q (x.fn.extractLsb' 0 2).toNat]
         else (Operand.p (x.fn.extractLsb' 0 3)).regs 1)
      else []
    o.regs (o.run .n32) (o.run .n32) (o.run .n32) 1 ++ co
  | .imad o =>
    let x := o.ext .s32
    if x.fn == 1 then o.regs 2 1 1 2 else o.regs (o.run .s32) (o.run .s32) (o.run .s32) (o.run .s32)
  | .iabs o | .ineg o => o.regs (o.run .s32) (o.run .s32) 0 0
  | .andL o | .orL o | .xorL o | .andn o => o.regs (o.run .b32) (o.run .b32) (o.run .b32) 0
  | .shl o | .shr o | .sar o | .rot o => o.regs (o.run .b32) (o.run .b32) 1 0
  | .bfx o => o.regs (o.run .n32) (o.run .n32) 1 0
  | .bfi o => o.regs (o.run .b32) (o.run .b32) 1 (o.run .b32)
  | .popc o | .clz o => o.regs 1 (o.run .b32) 0 0
  | .lea o => o.regs 2 2 1 0
  | .iset o => o.regs 1 (o.run .s32) (o.run .s32) 0
  | .bytep o | .ffma o | .hfma2 o | .dot4 o | .dot2 o => o.regs 1 1 1 1
  | .fadd o | .fsub o | .fmul o | .fmin o | .fmax o | .fset o | .fscale o | .fclass o | .hadd2 o | .hmul2 o
  | .pand o | .por o | .pxor o | .pack o | .unpk o => o.regs 1 1 1 0
  | .frcp o | .frsq o | .fsqrt o | .fexp2 o | .flog2 o | .fexpo o | .frnd o | .pnot o | .pmov o | .sval o =>
    o.regs 1 1 0 0
  | .cvt o =>
    let src := (o.x.bind fun x => Ty.ofCode x.fn.toNat).getD .f32
    o.regs (o.run .f32) (if src == .fx then 10 else if src.is64 then 2 else 1) 1 0
  | .shfl o | .bcast o | .compact o => o.regs (o.run .b32) (o.run .b32) 1 0
  | .vote o => o.regs 1 1 0 0
  | .reduce o | .scan o => o.regs (o.run .f32) (o.run .f32) 0 0
  | .segred o | .segscan o => o.regs (o.run .f32) (o.run .f32) 1 0
  | .lrscan o => o.regs (if (o.ext .f32).fn == 1 then 1 else 2) 1 1 2
  | .matchP o => o.regs 1 (o.run .b32) 0 0
  | .exset o => o.regs 1 1 1 0
  | .exdeal o => .p 6 :: o.regs 1 0 0 0
  | _ => []

/-- Registers of the access size: the run of D (R143). -/
def F2.run (o : F2) : Nat := max 1 (szBytes o.ext.sz / 4)

/-- The registers an F2 instruction writes (R142, R165, R195). -/
def Instr.f2Writes : Instr → List Reg
  | .ld o | .lda o | .atom o | .cas o | .gather o => o.d.regs o.run
  | .hacc o => (Operand.p o.ext.fn).regs 1
  | .lockl o | .unlockl o | .accrdSt o | .arrive o | .xacq o | .accrd o | .spawn o | .glaunch o => o.d.regs 1
  | .gscan o => o.d.regs 2 ++ o.ext.b.regs 1
  | .wbload o => o.ext.b.regs 1
  | .tqpush o => (Operand.p o.ext.fn).regs 1
  | _ => []

/-- The registers an F2 instruction reads. -/
def Instr.f2Reads : Instr → List Reg
  | .ld o | .pfetch o => o.a.regs 2 ++ o.ext.b.regs 1
  | .st o | .atomn o | .scatr o => o.d.regs o.run ++ o.a.regs 2 ++ o.ext.b.regs 1
  | .lda o => o.a.regs 2
  | .waitk o => o.a.regs 1
  | .atom o => o.a.regs 2 ++ o.ext.b.regs o.run
  | .cas o => o.d.regs o.run ++ o.a.regs 2 ++ o.ext.b.regs o.run
  | .hacc o => o.d.regs 1 ++ o.a.regs 2 ++ o.ext.b.regs 1
  | .gather o => o.a.regs 2 ++ o.ext.b.regs 1
  | .lockl o | .unlockl o | .cflush o | .cinval o => o.a.regs 2 ++ o.ext.b.regs 1
  | .wbload o | .accld o | .accst o | .accdr o => if o.ext.sz == 2 then o.a.regs 2 else o.a.regs 1
  | .mma o | .kvres o => o.a.regs 2
  | .mmas o => o.a.regs 2 ++ (if o.ext.sz == 2 then o.ext.b.regs 2 else o.ext.b.regs 1)
  | .accrd o | .attn o | .attnfin o | .psel o | .demote o | .copy o | .lksend o | .xacq o => o.a.regs 1
  | .kvapp o | .spawn o | .glaunch o => o.a.regs 2 ++ o.ext.b.regs 1
  | .binit o | .arrive o => o.a.regs 1 ++ o.ext.b.regs 1
  | .arrdrop o => o.a.regs 1
  | .bwait o | .tqpush o => o.d.regs 1 ++ o.a.regs 1
  | .qsrch o => if o.ext.sz == 2 then o.a.regs 2 else o.a.regs 1
  | .gscan o => o.a.regs 2 ++ o.d.regs 2
  | _ => []

/-- The registers a class 5 or 6 instruction reads or writes. STATESV and STATERS wait until nothing is outstanding,
and name no register here. -/
def Instr.f3Regs : Instr → List Reg
  | .preps _ _ s => pairRegs s
  | .scmp q _ ty a b =>
    .q q.toNat :: a.regs (if ty.is64 then 2 else 1) ++ b.regs (if ty.is64 then 2 else 1)
  | .xfer _ q _ cnd => if cnd then [.q q.toNat] else []
  | .xcall _ q _ cnd link => (if cnd then [.q q.toNat] else []) ++ link.elim [] pairRegs
  | .xany _ p _ | .xall _ p _ | .ifP p | .ifnP p | .breakP p | .contP p | .exitP p => (Operand.p p).regs 1
  | .endloop q | .endserial q => [.q q.toNat]
  | .trapU q _ cnd _ => if cnd then [.q q.toNat] else []
  | .qset q (.const _) => [.q q.toNat]
  | .qset q (.any p _) | .qset q (.all p _) => .q q.toNat :: (Operand.p p).regs 1
  | .srd d reg | .swr d reg =>
    if reg.toNat ≤ 2 || (8 ≤ reg.toNat && reg.toNat ≤ 15) || reg == 0x8100 then pairRegs d else [.s d.toNat]
  | .clkrd d _ => pairRegs d
  | .tlbinv (.page s _ _) => pairRegs s
  | _ => []

/-- Every register an instruction reads or writes (R68). -/
def Instr.regs (i : Instr) : List Reg := i.f1Regs ++ i.f2Writes ++ i.f2Reads ++ i.f3Regs

/-- The registers a window instruction writes: those of F2, and the link pair of an XCALL (R266). -/
def Instr.windowWrites : Instr → List Reg
  | .xcall _ _ _ _ link => link.elim [] pairRegs
  | i => i.f2Writes

/-- The F2 operands of an instruction. -/
def Instr.f2? : Instr → Option F2
  | .ld o | .st o | .lda o | .waitk o | .atom o | .atomn o | .cas o | .hacc o | .gather o | .scatr o | .lockl o
  | .unlockl o | .pfetch o | .fence o | .cflush o | .cinval o | .wbload o | .wbdrop o | .mma o | .mmas o | .accz o
  | .accld o | .accst o | .accdr o | .accrd o | .accrdSt o | .attn o | .attnfin o | .psel o | .kvapp o | .demote o
  | .kvres o | .copy o | .copyy o | .bseal o | .waitb o | .binit o | .arrive o | .arrdrop o | .bwait o | .qsrch o
  | .lksend o | .spawn o | .glaunch o | .gscan o | .xacq o | .xrel o | .tqpush o => some o
  | _ => none

/-- Does the instruction start an engine operation (R70)? -/
def Instr.starts : Instr → Bool
  | .wbload _ | .wbdrop _ | .mma _ | .mmas _ | .accz _ | .accld _ | .accst _ | .accdr _ | .accrd _ | .accrdSt _
  | .attn _ | .attnfin _ | .psel _ | .kvapp _ | .demote _ | .kvres _ | .copy _ | .copyy _ | .qsrch _ | .lksend _ => true
  | _ => false

/-- Does the third interlock of R266 hold the instruction until every earlier one is checked? -/
def Instr.needsChecked : Instr → Bool
  | .ld o | .st o => o.ext.fn.getLsbD 1
  | .waitk o | .bwait o | .arrive o | .waitb o => o.ext.sc != .none
  | .scatr o => o.ext.fn == 1
  | .fence _ | .atom _ | .atomn _ | .cas _ | .hacc _ | .gscan _ | .spawn _ | .glaunch _ | .tqpush _ => true
  | i => i.starts

end Sys2Proof

namespace Sys2Proof.Machine

/-- An outstanding instruction is checked (R265): every granule it needs has a mapping, and it waits for no engine's
acceptance. -/
def Outst.checked (o : Outst) : Bool :=
  !o.instr.starts && !o.failed && o.needs.all fun g => o.outs.any fun (h, x) => h == g && x.isMapped

/-- Is there a V register of the instruction that the budget does not hold (R14, R22)? -/
def Team.beyondBudget (t : Team) (rs : List Reg) : Bool :=
  rs.any fun
    | .v n => decide (t.budget ≤ n)
    | _ => false

/-! ### Reaching issue (R7) -/

/-- The instruction must wait for an outstanding one of its clause that it does not stand in the window of (R68). -/
def Team.heldByWindow (t : Team) (c : Clause) : Bool := t.mine.any fun o => o.tk == 0 && decide (o.pos + o.l < c.pos)

/-- ILLEGAL_INSTR from the encoding and the team's budget and clause (R75). -/
def Team.illegal (t : Team) (c : Clause) (i : Instr) : Bool :=
  i.illFormed.isSome || t.beyondBudget i.regs || i.f2?.any fun o => decide (c.header.n - c.pos < o.l.toNat)

/-- The instruction breaks the promise of R68: it depends on an outstanding one (R71). A PFETCH, which never traps once
decoded, is not checked (R161). -/
def Team.breaksPromise (t : Team) (i : Instr) : Bool :=
  match i with
  | .pfetch _ => false
  | _ => t.outst.any fun o => o.instr.f2Writes.any fun r => i.regs.contains r

/-- The interlocks of R266 that hold an instruction at issue: it writes what an earlier outstanding one of the clause
read, or it needs every earlier one checked. -/
def Team.interlocked (t : Team) (i : Instr) : Bool :=
  (t.mine.any fun o => o.instr.f2Reads.any fun r => i.windowWrites.contains r)
    || (i.needsChecked && t.outst.any fun o => !o.checked)

/-- The team and clause of the instruction being performed. -/
def State.current (s : State) : Option (Team × Clause) :=
  (s.cur.bind s.team?).bind fun t => t.clause.map fun c => (t, c)

/-- What every encoded instruction does on reaching issue: it waits, or takes the first trap of R7 that applies (`pre`
are the traps of step 2 beyond ILLEGAL_INSTR from the encoding, `post` those of steps 4 to 6), or has its effect `k`. -/
def issue (i : Instr) (s : State) (pre post : State → Team → Clause → Option Trap)
    (k : State → Team → Clause → State) : Result :=
  match s.current with
  | none => .fault .noTeam
  | some (t, c) =>
    if t.settling || t.heldByWindow c then .next s
    else if t.illegal c i then .next (s.trapNow t c { code := .illegalInstr })
    else match pre s t c with
      | some tr => .next (s.trapNow t c tr)
      | none =>
        if t.lchk && t.breaksPromise i then .next (s.trapNow t c { code := .lookaheadViolation })
        else if t.interlocked i then .next s
        else match post s t c with
          | some tr => .next (s.trapNow t c tr)
          | none => .next (k s t c)

/-- No trap. -/
def noTrap : State → Team → Clause → Option Trap := fun _ _ _ => none

/-- The instruction has issued: the clause goes on, and ends when it can. -/
def State.done (s : State) (t : Team) (c : Clause) : State :=
  s.putTeam (({ t with clause := some c.advance } : Team).closeClause Outst.checked s.clk)

/-- A class 0 or 1 instruction: it changes its team alone. -/
def issueF1 (i : Instr) (s : State) (f : Team → Team) : Result :=
  issue i s noTrap noTrap fun s t c => s.done (f t) c

end Sys2Proof.Machine
end

