-- ==== Sys2Proof/Machine/Alu.lean ====
section
/-! DEFINITION. Class 0: moves, integer arithmetic, logic, shifts and bit fields (spec 05, R104 to R112). -/

namespace Sys2Proof.Machine

/-! ### Shared computations -/

/-- Int(v, ty) of R106: the low bits of a value as an integer of the type. -/
def intOf (ty : Ty) (v : Nat) : Int :=
  let w := ty.bits
  let u := v % 2 ^ w
  if ty.isSigned && u.testBit (w - 1) then (u : Int) - 2 ^ w else u

/-- An integer modulo 2^w (R106). -/
def wrap (w : Nat) (v : Int) : Nat := (v % (2 ^ w : Nat)).toNat

/-- One element of an integer operation (R106): negation, operation, saturation, wrap. -/
def intElem (ty : Ty) (x : X1) (op : Int → Int → Int → Int) (a b c : Nat) : Nat :=
  let w := ty.bits
  let neg (n : Bool) (v : Nat) : Int := if n then intOf ty (wrap w (-(intOf ty v))) else intOf ty v
  let v := op (neg x.na a) (neg x.nb b) (intOf ty c)
  wrap w (if x.sat then Ty.clamp ty v else v)

/-- An integer operation on a register value, element by element for a packed type (R38, R106). -/
def intLane (ty : Ty) (x : X1) (op : Int → Int → Int → Int) (a b c : Nat) : Nat :=
  let w := ty.bits
  let n := if w < 32 then 32 / w else 1
  (List.range n).foldr (fun k acc => intElem ty x op (a >>> (w * k)) (b >>> (w * k)) (c >>> (w * k)) + 2 ^ w * acc) 0

/-- A class 0 instruction whose operands all have the type's width: `f` maps the three inputs to the result. -/
def aluWide (i : Instr) (o : F1) (dflt : Ty) (f : X1 → Nat → Nat → Nat → Nat) (s : State) : Result :=
  let x := o.ext dflt
  let w := x.ty.is64
  let sx := x.ty.isSigned
  issueF1 i s fun t => t.put o.d w fun l =>
    f x (t.num w sx false l o.a) (t.num w sx false l o.b) (t.num w sx false l o.third)

/-- An integer opcode of R106. -/
def aluInt (i : Instr) (o : F1) (op : Ty → Int → Int → Int → Int) (s : State) : Result :=
  aluWide i o .s32 (fun x => intLane x.ty x (op x.ty)) s

/-- A logic or shift opcode of R110: B is taken as 32 bits where `b32` holds. -/
def aluBits (i : Instr) (o : F1) (dflt : Ty) (b32 : Bool) (f : Ty → Nat → Nat → Nat → Nat) (s : State) : Result :=
  let x := o.ext dflt
  let w := x.ty.is64
  let sx := x.ty.isSigned
  issueF1 i s fun t => t.put o.d w fun l =>
    f x.ty (t.num w sx false l o.a) (t.num (w && !b32) sx false l o.b) (t.num w sx false l o.third)

/-! ### Moves, selection and system values (R104, R105) -/

/-- R104. -/
def execMov (o : F1) (s : State) : Result := aluWide (.mov o) o .b32 (fun _ a _ _ => a) s

/-- R104: A where C is true, B elsewhere. -/
def execSel (o : F1) (s : State) : Result :=
  let w := (o.ext .b32).ty.is64
  issueF1 (.sel o) s fun t => t.put o.d w fun l =>
    if t.cond l o.third then t.num w false false l o.a else t.num w false false l o.b

/-- The values of R105, by selector. -/
def Team.svalOf (t : Team) (sel l : Nat) : Nat :=
  match sel with
  | 0 => t.n
  | 1 => (t.n + 31) / 32
  | 2 => Mask.count t.act t.n
  | 3 => Mask.count t.act l
  | 4 => (Mask.groups t.act).toNat
  | 5 => (Mask.laneWord t.act (l / 32)).toNat
  | 6 => t.stack.length
  | 7 => if t.expand.armed then t.expand.total.toNat else 0
  | _ => if t.expand.armed then t.expand.cursor.toNat else 0

/-- R105. -/
def execSval (o : F1) (s : State) : Result :=
  issueF1 (.sval o) s fun t => t.put o.d false fun l => t.svalOf (t.word false 0 o.a).toNat l

/-! ### Integer arithmetic (R106 to R109) -/

/-- R106. -/
def execIadd (o : F1) (s : State) : Result := aluInt (.iadd o) o (fun _ x y _ => x + y) s
/-- R106. -/
def execIsub (o : F1) (s : State) : Result := aluInt (.isub o) o (fun _ x y _ => x - y) s
/-- R106. -/
def execImul (o : F1) (s : State) : Result := aluInt (.imul o) o (fun _ x y _ => x * y) s
/-- R106: the upper half of the exact product. -/
def execImulh (o : F1) (s : State) : Result := aluInt (.imulh o) o (fun ty x y _ => x * y / (2 ^ ty.bits : Nat)) s
/-- R106. -/
def execImin (o : F1) (s : State) : Result := aluInt (.imin o) o (fun _ x y _ => min x y) s
/-- R106. -/
def execImax (o : F1) (s : State) : Result := aluInt (.imax o) o (fun _ x y _ => max x y) s
/-- R106. -/
def execIabs (o : F1) (s : State) : Result := aluInt (.iabs o) o (fun _ x _ _ => (x.natAbs : Int)) s
/-- R106. -/
def execIneg (o : F1) (s : State) : Result := aluInt (.ineg o) o (fun _ x _ _ => -x) s

/-- The wide form of IMAD (R106): 32-bit factors, a 64-bit addend and result. -/
def imadWide (x : X1) (a b c : Nat) : Nat :=
  let ty : Ty := if x.ty.isSigned then .s64 else .n64
  let neg (n : Bool) (v : Nat) : Int := if n then intOf x.ty (wrap 32 (-(intOf x.ty v))) else intOf x.ty v
  let v := neg x.na a * neg x.nb b + intOf ty c
  wrap 64 (if x.sat then Ty.clamp ty v else v)

/-- R106, with the wide form. -/
def execImad (o : F1) (s : State) : Result :=
  let x := o.ext .s32
  if x.fn == 1 then
    issueF1 (.imad o) s fun t => t.put o.d true fun l =>
      imadWide x (t.num false false false l o.a) (t.num false false false l o.b) (t.num true x.ty.isSigned false l o.third)
  else aluInt (.imad o) o (fun _ x y z => x * y + z) s

/-- The carry chain (R107): sum or difference with a carry, and the carry-out. -/
def carryStep (sub : Bool) (w a b : Nat) (ci : Bool) : Nat × Bool :=
  let v : Int := if sub then (a : Int) - b - ci.toNat else (a : Int) + b + ci.toNat
  (wrap w v, decide (v < 0) || decide ((2 ^ w : Nat) ≤ v))

/-- IADC and ISBC (R107): sources are read before the result and the carry-out are written. -/
def aluCarry (i : Instr) (o : F1) (sub : Bool) (s : State) : Result :=
  let x := o.ext .n32
  let w := x.ty.is64
  issueF1 i s fun t =>
    let r l := carryStep sub x.ty.bits (t.num w false false l o.a) (t.num w false false l o.b) (t.cond l o.third)
    let t' := t.put o.d w fun l => (r l).1
    let n : Nat := (x.fn.extractLsb' 0 3).toNat
    if !x.fn.getLsbD 3 then t'
    else if o.scalar then t'.writeQ n (r 0).2
    else t'.writeP n t.act (maskOf t.n fun l => (r l).2)

/-- R107. -/
def execIadc (o : F1) (s : State) : Result := aluCarry (.iadc o) o false s
/-- R107. -/
def execIsbc (o : F1) (s : State) : Result := aluCarry (.isbc o) o true s

/-- R108: A plus the extended B shifted by k. -/
def leaOf (fn : BitVec 6) (a b : Nat) : Nat :=
  let e := if fn.getLsbD 3 then wrap 64 (intOf .s32 b) else b
  (a + e * 2 ^ (fn.extractLsb' 0 3).toNat) % 2 ^ 64

/-- R108. -/
def execLea (o : F1) (s : State) : Result :=
  issueF1 (.lea o) s fun t => t.put o.d true fun l =>
    leaOf (o.ext .b64).fn (t.num true false false l o.a) (t.num false false false l o.b)

/-- The comparisons of R88, by number. -/
def cmpOf (cc : Nat) (lt eq : Bool) : Bool :=
  match cc with
  | 0 => eq
  | 1 => !eq
  | 2 => lt
  | 3 => lt || eq
  | 4 => !(lt || eq)
  | _ => !lt

/-- R109. -/
def execIset (o : F1) (s : State) : Result :=
  let x := o.ext .s32
  let w := x.ty.is64
  issueF1 (.iset o) s fun t => t.put o.d false fun l =>
    let a := intOf x.ty (t.num w x.ty.isSigned false l o.a)
    let b := intOf x.ty (t.num w x.ty.isSigned false l o.b)
    (cmpOf x.fn.toNat (decide (a < b)) (a == b)).toNat

/-! ### Logic, shifts and bit fields (R110, R111, R112) -/

/-- R110. -/
def execAndL (o : F1) (s : State) : Result := aluBits (.andL o) o .b32 false (fun _ a b _ => a &&& b) s
/-- R110. -/
def execOrL (o : F1) (s : State) : Result := aluBits (.orL o) o .b32 false (fun _ a b _ => a ||| b) s
/-- R110. -/
def execXorL (o : F1) (s : State) : Result := aluBits (.xorL o) o .b32 false (fun _ a b _ => a ^^^ b) s

/-- NOT of a value of w bits. -/
def notBits (w v : Nat) : Nat := 2 ^ w - 1 - v % 2 ^ w

/-- R110. -/
def execAndn (o : F1) (s : State) : Result :=
  aluBits (.andn o) o .b32 false (fun ty a b _ => a &&& notBits ty.bits b) s
/-- R110. -/
def execNotL (o : F1) (s : State) : Result := aluBits (.notL o) o .b32 false (fun ty a _ _ => notBits ty.bits a) s

/-- The shifts of R110: s = B[7:0]. -/
def shlOf (w a b : Nat) : Nat := if w ≤ b % 256 then 0 else a * 2 ^ (b % 256) % 2 ^ w
def shrOf (w a b : Nat) : Nat := if w ≤ b % 256 then 0 else a / 2 ^ (b % 256)
def sarOf (w a b : Nat) : Nat :=
  let v : Int := if a.testBit (w - 1) then (a : Int) - (2 ^ w : Nat) else a
  wrap w (v / (2 ^ min (b % 256) w : Nat))
def rotOf (w a b : Nat) : Nat :=
  let r := b % 256 % w
  (a * 2 ^ r + a / 2 ^ (w - r)) % 2 ^ w

/-- R110. -/
def execShl (o : F1) (s : State) : Result := aluBits (.shl o) o .b32 true (fun ty a b _ => shlOf ty.bits a b) s
/-- R110. -/
def execShr (o : F1) (s : State) : Result := aluBits (.shr o) o .b32 true (fun ty a b _ => shrOf ty.bits a b) s
/-- R110. -/
def execSar (o : F1) (s : State) : Result := aluBits (.sar o) o .b32 true (fun ty a b _ => sarOf ty.bits a b) s
/-- R110. -/
def execRot (o : F1) (s : State) : Result := aluBits (.rot o) o .b32 true (fun ty a b _ => rotOf ty.bits a b) s

/-- R111. -/
def bfxOf (ty : Ty) (a b : Nat) : Nat :=
  let f := min (b / 256 % 256) ty.bits
  let v := a / 2 ^ (b % 256) % 2 ^ f
  if ty.isSigned && f != 0 && v.testBit (f - 1) then v + (2 ^ ty.bits - 2 ^ f) else v
/-- R111. -/
def bfiOf (w a b c : Nat) : Nat :=
  let f := min (b / 256 % 256) w
  let m := (2 ^ f - 1) * 2 ^ (b % 256) % 2 ^ w
  (c &&& notBits w m) ||| (a * 2 ^ (b % 256) % 2 ^ w &&& m)

/-- R111. -/
def execBfx (o : F1) (s : State) : Result := aluBits (.bfx o) o .n32 true (fun ty a b _ => bfxOf ty a b) s
/-- R111. -/
def execBfi (o : F1) (s : State) : Result := aluBits (.bfi o) o .b32 true (fun ty a b c => bfiOf ty.bits a b c) s

/-- Number of 1 bits among the low w. -/
def popBits (w v : Nat) : Nat := ((List.range w).filter v.testBit).length
/-- Leading zero bits of a value of w bits. -/
def clzBits (w v : Nat) : Nat := if v == 0 then w else w - 1 - v.log2
/-- Bit i moved to bit w − 1 − i. -/
def brevBits (w v : Nat) : Nat := (List.range w).foldl (fun acc i => 2 * acc + (v.testBit i).toNat) 0

/-- POPC and CLZ: a 32-bit result (R110). -/
def aluCount (i : Instr) (o : F1) (f : Nat → Nat → Nat) (s : State) : Result :=
  let x := o.ext .b32
  issueF1 i s fun t => t.put o.d false fun l => f x.ty.bits (t.num x.ty.is64 false false l o.a)

/-- R110. -/
def execPopc (o : F1) (s : State) : Result := aluCount (.popc o) o popBits s
/-- R110. -/
def execClz (o : F1) (s : State) : Result := aluCount (.clz o) o clzBits s
/-- R110. -/
def execBrev (o : F1) (s : State) : Result := aluBits (.brev o) o .b32 false (fun ty a _ _ => brevBits ty.bits a) s

/-- R112: byte k of the result under nibble k of the selector. -/
def bytepOf (a b c : Nat) : Nat :=
  (List.range 4).foldr (fun k acc =>
    let nib := c >>> (4 * k) % 16
    let byte := (a + 2 ^ 32 * b) >>> (8 * (nib % 8)) % 256
    (if nib.testBit 3 then (if byte.testBit 7 then 255 else 0) else byte) + 256 * acc) 0

/-- R112. -/
def execBytep (o : F1) (s : State) : Result :=
  aluWide (.bytep o) o .b32 (fun _ a b c => bytepOf a b c) s

end Sys2Proof.Machine
end

