-- ==== Sys2Proof/Machine/Fp.lean ====
section
/-! DEFINITION. Class 0: floating-point arithmetic, packed formats and conversions (spec 05, R113 to R121; R56). -/

namespace Sys2Proof.Machine

/-! ### Shared computations -/

/-- The sign bit flipped where a negation field says so (R65). -/
def negBits (f : Fmt) (n : Bool) (v : Nat) : Nat := if n then v ^^^ f.sign true else v

/-- An FP32 opcode: `f` maps the bits of A and B (after NA and NB), the bits of the third input and the draw of SR to
the result with its flags. -/
def fpOp (i : Instr) (o : F1) (f : X1 → Nat → Nat → Nat → Word → Nat × Flags) (s : State) : Result :=
  let x := o.ext .f32
  issueF1 i s fun t => t.putFlags o.d false fun l =>
    f x (negBits .f32 x.na (t.word true l o.a).toNat) (negBits .f32 x.nb (t.word true l o.b).toNat)
      (t.word true l o.third).toNat (t.drawSr 0 l)

/-- Decode of FP32 bits. -/
def dec32 (v : Nat) : FVal := Fmt.f32.decode v

/-! ### FP32 arithmetic (R113 to R116) -/

/-- R113. -/
def execFadd (o : F1) (s : State) : Result := fpOp (.fadd o) o (fun x a b _ h => Fmt.f32.add x.rm h (dec32 a) (dec32 b)) s
/-- R113. -/
def execFsub (o : F1) (s : State) : Result :=
  fpOp (.fsub o) o (fun x a b _ h => Fmt.f32.add x.rm h (dec32 a) (dec32 b).neg) s
/-- R113. -/
def execFmul (o : F1) (s : State) : Result := fpOp (.fmul o) o (fun x a b _ h => Fmt.f32.mulR x.rm h (dec32 a) (dec32 b)) s
/-- R113. -/
def execFfma (o : F1) (s : State) : Result :=
  fpOp (.ffma o) o (fun x a b c h => Fmt.f32.fma x.rm h (dec32 a) (dec32 b) (dec32 c)) s

/-- FMIN and FMAX return an operand unchanged (R114). -/
def fpMinMax (isMax : Bool) (a b : Nat) : Nat × Flags :=
  let x := dec32 a
  let y := dec32 b
  let fl := Flags.when (x.isSNan || y.isSNan) flagNV
  let r := if x.isNan && y.isNan then Fmt.f32.canonicalNan
    else if x.isNan then b else if y.isNan then a
    else if x.le0 y == isMax then b else a
  (r, fl)

/-- R114. -/
def execFmin (o : F1) (s : State) : Result := fpOp (.fmin o) o (fun _ a b _ _ => fpMinMax false a b) s
/-- R114. -/
def execFmax (o : F1) (s : State) : Result := fpOp (.fmax o) o (fun _ a b _ _ => fpMinMax true a b) s

/-- The comparisons of R115 with their flags. -/
def fpCompare (cc : Nat) (a b : FVal) : Bool × Flags :=
  let nan := a.isNan || b.isNan
  let nv := if 2 ≤ cc && cc ≤ 5 then nan else a.isSNan || b.isSNan
  let r := if cc == 6 then nan else if cc == 7 then !nan
    else if nan then cc == 1
    else cmpOf cc (decide (a.cmp b < 0)) (a.cmp b == 0)
  (r, Flags.when nv flagNV)

/-- R115. -/
def execFset (o : F1) (s : State) : Result :=
  fpOp (.fset o) o (fun x a b _ _ => let (r, fl) := fpCompare x.fn.toNat (dec32 a) (dec32 b); (r.toNat, fl)) s

/-- R56. -/
def execFrcp (o : F1) (s : State) : Result := fpOp (.frcp o) o (fun _ a _ _ _ => Machine.frcp (dec32 a)) s
/-- R56. -/
def execFrsq (o : F1) (s : State) : Result := fpOp (.frsq o) o (fun _ a _ _ _ => Machine.frsq (dec32 a)) s
/-- R56. -/
def execFsqrt (o : F1) (s : State) : Result := fpOp (.fsqrt o) o (fun _ a _ _ _ => Machine.fsqrt (dec32 a)) s
/-- R56. -/
def execFexp2 (o : F1) (s : State) : Result := fpOp (.fexp2 o) o (fun _ a _ _ _ => Machine.fexp2 (dec32 a)) s
/-- R56. -/
def execFlog2 (o : F1) (s : State) : Result := fpOp (.flog2 o) o (fun _ a _ _ _ => Machine.flog2 (dec32 a)) s

/-- FSCALE (R116): A times 2^n, rounded once. -/
def fscaleOf (rm : RM) (h : Word) (a : Nat) (n : Int) : Nat × Flags :=
  match dec32 a with
  | .nan sg => (Fmt.f32.canonicalNan, Flags.when sg flagNV)
  | .inf _ => (a, 0)
  | .fin sg m e => if m == 0 then (a, 0) else Fmt.f32.round rm h (.fin sg m (e + n))

/-- R116: B is a 32-bit integer position, its negation taken modulo 2^32. -/
def execFscale (o : F1) (s : State) : Result :=
  let x := o.ext .f32
  issueF1 (.fscale o) s fun t => t.putFlags o.d false fun l =>
    let b := intOf .s32 (t.word false l o.b).toNat
    fscaleOf x.rm (t.drawSr 0 l) (negBits .f32 x.na (t.word true l o.a).toNat)
      (if x.nb then intOf .s32 (wrap 32 (-b)) else b)

/-- FEXPO (R116). -/
def fexpoOf (a : Nat) : Nat × Flags :=
  match dec32 a with
  | .nan sg => (0x7FFFFFFF, Flags.when sg flagNV)
  | .inf _ => (0x7FFFFFFF, 0)
  | .fin _ m e => if m == 0 then (0x80000000, 0) else (wrap 32 ((m.log2 : Int) + e), 0)

/-- R116. -/
def execFexpo (o : F1) (s : State) : Result := fpOp (.fexpo o) o (fun _ a _ _ _ => fexpoOf a) s

/-- The class mask of R116. -/
def fclassOf (a : Nat) : Nat :=
  match dec32 a with
  | .nan sg => if sg then 1 else 2
  | .inf sg => if sg then 4 else 512
  | .fin sg m _ =>
    if m == 0 then (if sg then 32 else 64)
    else if m < 2 ^ 23 then (if sg then 16 else 128)
    else (if sg then 8 else 256)

/-- R116: a P or Q destination receives the test against B[9:0]. -/
def execFclass (o : F1) (s : State) : Result :=
  issueF1 (.fclass o) s fun t => t.put o.d false fun l =>
    let m := fclassOf (t.word true l o.a).toNat
    if o.d.isP || o.d.isQ then (m &&& (t.word false l o.b).toNat % 1024 != 0).toNat else m

/-- FRND (R116): to an integral value at spacing 1. -/
def frndOf (rm : RM) (h : Word) (exact : Bool) (a : Nat) : Nat × Flags :=
  match dec32 a with
  | .nan sg => (Fmt.f32.canonicalNan, Flags.when sg flagNV)
  | .inf _ => (a, 0)
  | .fin sg m e =>
    if m == 0 || 0 ≤ e then (a, 0)
    else
      let (y, changed) := roundAt rm h sg m e 0 false
      ((Fmt.f32.round .rne 0 (.fin sg y 0)).1, Flags.when (exact && changed) flagNX)

/-- R116. -/
def execFrnd (o : F1) (s : State) : Result := fpOp (.frnd o) o (fun x a _ _ h => frndOf x.rm h (x.fn == 1) a) s

/-! ### Half-width arithmetic and dot products (R117, R118) -/

/-- The two elements of a register combined into a register, their flags merged (R117). -/
def halves (f : Nat → Nat × Flags) : Nat × Flags :=
  ((f 0).1 + 2 ^ 16 * (f 1).1, (f 0).2 ||| (f 1).2)

/-- HADD2, HMUL2 and HFMA2 (R117). A constant code gives FP32 bits here as in every floating-point position (R27; log 10). -/
def fpHalf (i : Instr) (o : F1) (f : Fmt → RM → Word → FVal → FVal → FVal → Nat × Flags) (s : State) : Result :=
  let x := o.ext .f16
  let fm := Fmt.ofTy x.ty
  issueF1 i s fun t => t.putFlags o.d false fun l => halves fun k =>
    let el (n : Bool) (c : Operand) := fm.decode (negBits fm n ((t.word true l c).toNat >>> (16 * k) % 2 ^ 16))
    f fm x.rm (t.drawSr k l) (el x.na o.a) (el x.nb o.b) (el false o.third)

/-- R117. -/
def execHfma2 (o : F1) (s : State) : Result := fpHalf (.hfma2 o) o (fun fm rm h a b c => fm.fma rm h a b c) s
/-- R117. -/
def execHadd2 (o : F1) (s : State) : Result := fpHalf (.hadd2 o) o (fun fm rm h a b _ => fm.add rm h a b) s
/-- R117. -/
def execHmul2 (o : F1) (s : State) : Result := fpHalf (.hmul2 o) o (fun fm rm h a b _ => fm.mulR rm h a b) s

/-- A floating-point dot product (R118): every product exact, one rounding. -/
def dotFloat (fa fb : Fmt) (n : Nat) (rm : RM) (h : Word) (a b c : Nat) : Nat × Flags :=
  let w := 32 / n
  let ps := (List.range n).map fun k =>
    (fa.decode (a >>> (w * k) % 2 ^ w), fb.decode (b >>> (w * k) % 2 ^ w))
  let nv := ps.any fun (x, y) => x.isSNan || y.isSNan || (x.mul y).2
  let (r, fl) := Fmt.f32.exactSum rm h (dec32 c :: ps.map fun (x, y) => (x.mul y).1)
  (r, fl ||| Flags.when nv flagNV)

/-- An integer dot product (R118). -/
def dotInt (ty : Ty) (sat : Bool) (n a b c : Nat) : Nat :=
  let w := 32 / n
  let tc : Ty := if ty.isSigned then .s32 else .n32
  let v := (List.range n).foldl (fun acc k => acc + intOf ty (a >>> (w * k)) * intOf ty (b >>> (w * k))) (intOf tc c)
  wrap 32 (if sat then Ty.clamp tc v else v)

/-- DOT4 and DOT2 (R118). -/
def fpDot (i : Instr) (o : F1) (dflt : Ty) (n : Nat) (s : State) : Result :=
  let x := o.ext dflt
  issueF1 i s fun t => t.putFlags o.d false fun l =>
    let a := (t.word (!x.ty.isInt) l o.a).toNat
    let b := (t.word (!x.ty.isInt) l o.b).toNat
    if x.ty.isInt then (dotInt x.ty x.sat n a b (t.word false l o.third).toNat, 0)
    else
      let tb := if x.fn == 13 then Ty.e4m3 else if x.fn == 14 then Ty.e5m2 else x.ty
      dotFloat (Fmt.ofTy x.ty) (Fmt.ofTy tb) n x.rm (t.drawSr 0 l) a b (t.word true l o.third).toNat

/-- R118. -/
def execDot4 (o : F1) (s : State) : Result := fpDot (.dot4 o) o .e4m3 4 s
/-- R118. -/
def execDot2 (o : F1) (s : State) : Result := fpDot (.dot2 o) o .f16 2 s

/-! ### Conversions (R119 to R121) -/

/-- The value of the ten words of a .fx normal form (R46, R120). -/
def fxValue (ws : Nat → Nat) : FVal :=
  let u := (List.range 10).foldr (fun k acc => ws k + 2 ^ 32 * acc) 0
  let v : Int := if u.testBit 319 then (u : Int) - (2 ^ 320 : Nat) else u
  .fin (decide (v < 0)) v.natAbs (-160)

/-- Split digit c_j of an FP32 value (R46, R120), as .s64. -/
def fxDigit (a j : Nat) : Nat × Flags :=
  match dec32 a with
  | .nan _ | .inf _ => (0, flagNV)
  | .fin sg m e =>
    let mag := m <<< (e + 160).toNat
    let c : Int := if 9 ≤ j then 0 else mag >>> (32 * j) % 2 ^ 32
    (wrap 64 (if sg then -c else c), 0)

/-- The value CVT converts, or none for a NaN or infinity kept apart (R119): integers exactly, floats decoded. -/
def cvtSource (src : Ty) (v : Nat) : FVal :=
  if src.isInt then FVal.ofInt (intOf src v) else (Fmt.ofTy src).decode v

/-- A result narrower than 32 bits, its upper bits copies of the sign for .s8 and .s16 and zero otherwise (R119). -/
def cvtFill (dst : Ty) (v : Nat) : Nat :=
  if dst.bits < 32 && dst.isSigned then wrap 32 (intOf dst v) else v

/-- CVT between integers and floats (R119). -/
def cvtOf (dst src : Ty) (rm : RM) (sat : Bool) (h : Word) (v : Nat) : Nat × Flags :=
  if dst.isInt then
    if src.isInt then
      let i := intOf src v
      (cvtFill dst (wrap dst.bits (if sat then Ty.clamp dst i else i)), 0)
    else
      let (i, fl) := roundInt dst rm h (cvtSource src v)
      (cvtFill dst (wrap dst.bits i), fl)
  else (Fmt.ofTy dst).round rm h (cvtSource src v)

/-- Register k of a run that an operand starts, in lane l (R120). -/
def Team.runWord (t : Team) (l : Nat) (o : Operand) (k : Nat) : Nat :=
  match o with
  | .v n => (t.readV (n.toNat + k) l).toNat
  | .s n => (t.readS (n.toNat + k)).toNat
  | _ => 0

/-- R119, R120. -/
def execCvt (o : F1) (s : State) : Result :=
  let x := o.ext .f32
  let src := (Ty.ofCode x.fn.toNat).getD .f32
  issueF1 (.cvt o) s fun t => t.putFlags o.d x.ty.is64 fun l =>
    if x.ty == .fx then fxDigit (t.word true l o.a).toNat (t.word false l o.b).toNat
    else if src == .fx then (Fmt.ofTy x.ty).round x.rm (t.drawSr 0 l) (fxValue (t.runWord l o.a))
    else cvtOf x.ty src x.rm x.sat (t.drawSr 0 l) (t.num src.is64 src.isSigned (!src.isInt) l o.a)

/-- Bits of one element place of a packed register (R42): 6-bit elements stand in byte places. -/
def packSlot (ty : Ty) : Nat := if ty.bits == 6 then 8 else ty.bits

/-- The packed format and element number of PACK and UNPK (R121). -/
def packArgs (o : F1) : Ty × Nat :=
  ((Ty.ofCode (o.ext .f32).fn.toNat).getD .f16, match o.b with | .const c => c.toNat | _ => 0)

/-- R121: element k of D written, the other bits kept. -/
def execPack (o : F1) (s : State) : Result :=
  let x := o.ext .f32
  let (ty, k) := packArgs o
  let w := packSlot ty
  issueF1 (.pack o) s fun t => t.putFlags o.d false fun l =>
    let (r, fl) := (Fmt.ofTy ty).round x.rm (t.drawSr k l) (dec32 (negBits .f32 x.na (t.word true l o.a).toNat))
    let old := (t.word false l o.d).toNat
    ((old &&& notBits 32 ((2 ^ w - 1) * 2 ^ (w * k))) ||| r * 2 ^ (w * k), fl)

/-- R121: element k of A decoded exactly. -/
def execUnpk (o : F1) (s : State) : Result :=
  let (ty, k) := packArgs o
  issueF1 (.unpk o) s fun t => t.putFlags o.d false fun l =>
    Fmt.f32.round .rne 0 ((Fmt.ofTy ty).decode ((t.word true l o.a).toNat >>> (packSlot ty * k) % 2 ^ ty.bits))

end Sys2Proof.Machine
end

