-- ==== Sys2Proof/Machine/Control.lean ====
section
/-! DEFINITION. Class 5: targets, transfers, divergence, leaving, trapping and waiting (spec 04). -/

namespace Sys2Proof.Machine

/-! ### Shared computations -/

/-- An instruction of class 5 that changes its team alone. -/
def issueF3 (i : Instr) (s : State) (f : Team → Team) : Result :=
  issue i s noTrap noTrap fun s t c => s.done (f t) c

/-- A structured instruction (R91): it traps and changes nothing, or changes masks, stack and Q. -/
def issueMask (i : Instr) (s : State) (f : Team → Except TrapCode Team) : Result :=
  issue i s noTrap
    (fun _ t _ => match f t with
      | .error e => some { code := e }
      | .ok _ => none)
    fun s t c => match f t with
      | .error _ => s
      | .ok t' => s.done t' c

/-- A branch-target register prepared, with its prefetch started (R83). -/
def Team.prepare (t : Team) (b : BitVec 3) (target : BitVec 52) : Team :=
  t.setBranch b.toNat { target := target, valid := true, gen := t.stamp, pf := 1, copy := [] }

/-- The condition of a conditional transfer or TRAP (R90). -/
def Team.condition (t : Team) (q : BitVec 2) (neg cnd : Bool) : Bool := !cnd || (t.readQ q.toNat != neg)

/-- The active lanes whose predicate is true (R91). -/
def Team.activeWith (t : Team) (p : BitVec 3) : Mask := t.act &&& t.readP p.toNat

/-- The next clause goes to B's target (R90), through its prefetched copy when that is good (R87). -/
def Team.transfer (t : Team) (c : Clause) (br : Branch) : Team × Clause :=
  ({ t with via := if br.pf == 2 && br.gen == t.stamp then some br.copy else none },
    { c with next := some (br.target.setWidth 64) })

/-- A transfer instruction (R90): `take` decides, `link` is what XCALL writes first, and `hold` keeps it at issue. -/
def issueTransfer (i : Instr) (s : State) (b : BitVec 3) (take : Team → Bool) (link : Team → Clause → Team)
    (hold : Team → Bool := fun _ => false) : Result :=
  issue i s noTrap
    (fun _ t _ =>
      if take t && !(t.branch b.toNat).valid then some { code := .unpreparedTarget, info := b.setWidth 16 } else none)
    fun s t c =>
      if take t && hold t then s
      else if take t then
        let br := t.branch b.toNat
        let (t', c') := (link t c).transfer c br
        s.done t' c'
      else s.done t c

/-! ### Targets and conditions (R83, R84, R88, R89) -/

/-- R83: the offset counts words from the PREP word. -/
def execPrep (b : BitVec 3) (off : BitVec 18) (s : State) : Result :=
  issue (.prep b off) s noTrap noTrap fun s t c =>
    let a := t.pc + BitVec.ofNat 64 (4 * (1 + c.woff)) + 4 * off.signExtend 64
    s.done (t.prepare b (a.setWidth 52)) c

/-- The target of PREPS (R84). -/
def prepsTarget (t : Team) (off : BitVec 18) (s : BitVec 6) : DWord := t.readSS s.toNat + 4 * off.signExtend 64

/-- R84. ADDR of its traps is the target address (log 12). -/
def execPreps (b : BitVec 3) (off : BitVec 18) (r : BitVec 6) (s : State) : Result :=
  issue (.preps b off r) s noTrap
    (fun _ t _ =>
      let a := prepsTarget t off r
      if a.extractLsb' 0 2 != 0 then some { code := .misaligned, addr := a }
      else if a.extractLsb' 52 12 != 0 then some { code := .protection, addr := a }
      else none)
    fun s t c => s.done (t.prepare b ((prepsTarget t off r).setWidth 52)) c

/-- Compare of R88. -/
def scmpOf (t : Team) (cc : Cmp) (ty : ScmpTy) (a b : Operand) : Bool :=
  let n : Nat := match cc with | .eq => 0 | .ne => 1 | .lt => 2 | .le => 3 | .gt => 4 | .ge => 5
  let int (it : Ty) : Bool :=
    let x := intOf it (t.num it.is64 it.isSigned false 0 a)
    let y := intOf it (t.num it.is64 it.isSigned false 0 b)
    cmpOf n (decide (x < y)) (x == y)
  match ty with
  | .s32 => int .s32
  | .n32 => int .n32
  | .s64 => int .s64
  | .n64 => int .n64
  | .f32 => (fpCompare n (dec32 (t.word true 0 a).toNat) (dec32 (t.word true 0 b).toNat)).1

/-- R88. -/
def execScmp (q : BitVec 2) (cc : Cmp) (ty : ScmpTy) (a b : Operand) (s : State) : Result :=
  issueF3 (.scmp q cc ty a b) s fun t => t.writeQ q.toNat (scmpOf t cc ty a b)

/-- R89. -/
def qsetOf (t : Team) : QsetForm → Bool
  | .const v => v
  | .any p neg => (t.activeWith p != 0) != neg
  | .all p neg => (t.activeWith p == t.act) != neg

/-- R89. -/
def execQset (q : BitVec 2) (md : QsetForm) (s : State) : Result :=
  issueF3 (.qset q md) s fun t => t.writeQ q.toNat (qsetOf t md)

/-! ### Transfers (R90) -/

/-- R90. -/
def execXfer (b : BitVec 3) (q : BitVec 2) (neg cnd : Bool) (s : State) : Result :=
  issueTransfer (.xfer b q neg cnd) s b (fun t => t.condition q neg cnd) fun t _ => t

/-- R90: the return address in the S pair and in B7. A call through B7 waits for the instructions of its clause, so that a
re-issue finds the B7 that it goes to (log 89). -/
def execXcall (b : BitVec 3) (q : BitVec 2) (neg cnd : Bool) (link : Option (BitVec 6)) (s : State) : Result :=
  issueTransfer (.xcall b q neg cnd link) s b (fun t => t.condition q neg cnd)
    (fun t c =>
      let ret := t.seqAddr c
      let t' := match link with
        | some r => t.writeSS r.toNat ret
        | none => t
      t'.prepare 7 (ret.setWidth 52))
    fun t => b == 7 && !t.mine.isEmpty

/-- R90. -/
def execXany (b p : BitVec 3) (neg : Bool) (s : State) : Result :=
  issueTransfer (.xany b p neg) s b
    (fun t => (t.act &&& (if neg then ~~~t.readP p.toNat else t.readP p.toNat)) != 0) fun t _ => t

/-- R90. -/
def execXall (b p : BitVec 3) (neg : Bool) (s : State) : Result :=
  issueTransfer (.xall b p neg) s b
    (fun t => (t.act &&& (if neg then ~~~t.readP p.toNat else t.readP p.toNat)) == t.act) fun t _ => t

/-! ### Divergence (R91); the top of the stack is the head of the list -/

/-- IF and IFN, for the lanes `p`. -/
def Team.pushIf (t : Team) (p : Mask) : Except TrapCode Team :=
  if t.stack.length == Config.stackDepth then .error .maskStackOverflow
  else .ok { t with stack := { kind := .ifK, mask := t.act &&& ~~~p } :: t.stack, act := p }

/-- ELSE. -/
def Team.elseSwap (t : Team) : Except TrapCode Team :=
  match t.stack with
  | { kind := .ifK, mask := m } :: r =>
    .ok { t with stack := { kind := .elseK, mask := t.act } :: r, act := m &&& ~~~t.exited }
  | _ => .error .maskStackMismatch

/-- ENDIF. -/
def Team.popIf (t : Team) : Except TrapCode Team :=
  match t.stack with
  | e :: r =>
    if e.kind == .ifK || e.kind == .elseK then .ok { t with stack := r, act := (t.act ||| e.mask) &&& ~~~t.exited }
    else .error .maskStackMismatch
  | [] => .error .maskStackMismatch

/-- LOOP. -/
def Team.pushLoop (t : Team) : Except TrapCode Team :=
  if 14 < t.stack.length then .error .maskStackOverflow
  else .ok { t with stack := { kind := .loopC, mask := 0 } :: { kind := .loopX, mask := t.act } :: t.stack }

/-- The highest entry that is neither IF nor ELSE, which must be LOOPC: `f` changes its mask. -/
def onLoopC (f : Mask → Mask) : List MaskEntry → Option (List MaskEntry)
  | [] => none
  | e :: r =>
    if e.kind == .ifK || e.kind == .elseK then (onLoopC f r).map (e :: ·)
    else if e.kind == .loopC then some ({ e with mask := f e.mask } :: r)
    else none

/-- BREAK and CONT, for the lanes `p`; CONT parks them in the LOOPC entry. -/
def Team.leaveLoop (t : Team) (p : Mask) (cont : Bool) : Except TrapCode Team :=
  match onLoopC (fun m => if cont then m ||| p else m) t.stack with
  | some st => .ok { t with stack := st, act := t.act &&& ~~~p }
  | none => .error .maskStackMismatch

/-- ENDLOOP. -/
def Team.endLoop (t : Team) (q : BitVec 2) : Except TrapCode Team :=
  match t.stack with
  | { kind := .loopC, mask := m } :: r =>
    let c := (t.act ||| m) &&& ~~~t.exited
    if c != 0 then .ok ({ t with stack := { kind := .loopC, mask := 0 } :: r, act := c }.writeQ q.toNat true)
    else .ok ({ t with stack := r.tail, act := (r.head?.elim 0 (·.mask)) &&& ~~~t.exited }.writeQ q.toNat false)
  | _ => .error .maskStackMismatch

/-- SERIAL. -/
def Team.pushSerial (t : Team) : Except TrapCode Team :=
  if 14 < t.stack.length then .error .maskStackOverflow
  else
    let f := Mask.lowest t.act
    .ok { t with stack := { kind := .serialR, mask := t.act &&& ~~~f } :: { kind := .serialX, mask := t.act } :: t.stack,
                 act := f }

/-- ENDSERIAL. -/
def Team.endSerial (t : Team) (q : BitVec 2) : Except TrapCode Team :=
  match t.stack with
  | { kind := .serialR, mask := m0 } :: r =>
    let m := m0 &&& ~~~t.exited
    if m != 0 then
      let f := Mask.lowest m
      .ok ({ t with stack := { kind := .serialR, mask := m &&& ~~~f } :: r, act := f }.writeQ q.toNat true)
    else .ok ({ t with stack := r.tail, act := (r.head?.elim 0 (·.mask)) &&& ~~~t.exited }.writeQ q.toNat false)
  | _ => .error .maskStackMismatch

/-- R91. -/
def execIfP (p : BitVec 3) (s : State) : Result := issueMask (.ifP p) s fun t => t.pushIf (t.activeWith p)
/-- R91. -/
def execIfnP (p : BitVec 3) (s : State) : Result :=
  issueMask (.ifnP p) s fun t => t.pushIf (t.act &&& ~~~t.readP p.toNat)
/-- R91. -/
def execElseP (s : State) : Result := issueMask .elseP s Team.elseSwap
/-- R91. -/
def execEndif (s : State) : Result := issueMask .endif s Team.popIf
/-- R91. -/
def execLoopP (s : State) : Result := issueMask .loopP s Team.pushLoop
/-- R91. -/
def execBreakP (p : BitVec 3) (s : State) : Result :=
  issueMask (.breakP p) s fun t => t.leaveLoop (t.activeWith p) false
/-- R91. -/
def execContP (p : BitVec 3) (s : State) : Result :=
  issueMask (.contP p) s fun t => t.leaveLoop (t.activeWith p) true
/-- R91. -/
def execEndloop (q : BitVec 2) (s : State) : Result := issueMask (.endloop q) s fun t => t.endLoop q
/-- R91. -/
def execSerial (s : State) : Result := issueMask .serial s Team.pushSerial
/-- R91. -/
def execEndserial (q : BitVec 2) (s : State) : Result := issueMask (.endserial q) s fun t => t.endSerial q

/-! ### Leaving, trapping and waiting (R86, R94, R95) -/

/-- Does group g of the team hold a lane that has not exited (R16)? -/
def Team.groupLives (t : Team) (g : Nat) : Bool := Mask.laneWord (t.existing &&& ~~~t.exited) g != 0

/-- Lanes leave (R94); the slices of groups without a lane return to the sub-core (R16). -/
def Team.exitLanes (t : Team) (e : Mask) : Team :=
  let t' := { t with exited := t.exited ||| e, act := t.act &&& ~~~e }
  { t' with runs := t'.runs.filter fun r => t'.groupLives r.1 }

/-- R94. The team ends with its clause when no lane is left (R16). -/
def execExitP (p : BitVec 3) (s : State) : Result := issueF3 (.exitP p) s fun t => t.exitLanes (t.activeWith p)

/-- R95: USER_TRAP when the condition holds. -/
def execTrapU (q : BitVec 2) (neg cnd : Bool) (code : BitVec 14) (s : State) : Result :=
  issue (.trapU q neg cnd code) s noTrap noTrap fun s t c =>
    if t.condition q neg cnd then s.trapNow t c { code := .userTrap, info := code.setWidth 16 } else s.done t c

/-- R95: BREAKPOINT when the context's DBG is set. -/
def execBkpt (code : BitVec 14) (s : State) : Result :=
  issue (.bkpt code) s noTrap noTrap fun s t c =>
    if (s.ctx t.ctx).dbg then s.trapNow t c { code := .breakpoint, info := code.setWidth 16 } else s.done t c

/-- R95. -/
def execNop (s : State) : Result := issueF3 .nop s id

/-- R95: a count of 0 has the effect of header bit Y. Of two counts in one clause the later one holds (DEDUCED, log
67). -/
def execYieldP (n : BitVec 14) (s : State) : Result :=
  issue (.yieldP n) s noTrap noTrap fun s t c =>
    if n == 0 then s.done t { c with header := { c.header with y := true } }
    else s.done { t with yieldN := some n.toNat } c

/-- Does an outstanding instruction store (R86)? -/
def Outst.stores (o : Outst) : Bool :=
  match o.instr with
  | .st _ | .atom _ | .atomn _ | .cas _ | .hacc _ | .scatr _ | .gscan _ | .spawn _ | .tqpush _ => true
  | _ => false

/-- R86: waits for the earlier stores; then the stamp, PF 3 in every valid target, and the core's code lines of the ASID
and fetched code dropped. -/
def execIcsync (s : State) : Result :=
  issue .icsync s noTrap noTrap fun s t c =>
    let asid := (s.ctx t.ctx).asid
    if t.unperformed.any Outst.stores then s
    else
      let stale (br : Branch) : Branch := if br.valid then { br with pf := 3 } else br
      (s.onCore t.core fun k => { k with code := k.code.filter (·.asid != asid) }).done
        { t with stamp := t.stamp + 1, via := none, b := t.b.map stale } c

end Sys2Proof.Machine
end

