-- ==== Sys2Proof/Machine/Access.lean ====
section
/-! DEFINITION. Translation (R256 to R260, R347, R355, R363), reading and writing through a translation, sending a
flit (R353, R354), and the range-lock table (R234, R146). -/

namespace Sys2Proof.Machine

/-! ### The page table (R257, R258) -/

/-- Is a page-table entry malformed at its level (R257)? -/
def malformed (e : DWord) (lvl : Nat) : Bool :=
  let leaf := e.getLsbD 62
  e.extractLsb' 48 5 != 0 || e.extractLsb' 0 12 != 0 || e.extractLsb' 53 2 == 3
    || (leaf && lvl == 1) || (!leaf && lvl == 3)
    || (leaf && lvl == 2 && e.extractLsb' 12 16 != 0) || (leaf && lvl == 3 && e.extractLsb' 12 4 != 0)
    || (!leaf && e.extractLsb' 12 3 != 0)

/-- What a walk returns. -/
inductive Walk where
  | leaf (e : DWord) (large : Bool)
  | missing
  | denied
  | error
deriving DecidableEq, Repr

/-- The walk of granule g from a table, from a level on (R257). -/
def State.walkFrom (s : State) (g : Nat) : (fuel lvl t : Nat) → Walk
  | 0, _, _ => .missing
  | fuel + 1, lvl, t =>
    let idx := if lvl == 1 then g / 2 ^ 24 % 4096 else if lvl == 2 then g / 2 ^ 12 % 4096 else g % 4096
    if s.physBad (t + 8 * idx) 8 then .error
    else
      let e := BitVec.ofNat 64 (s.phys (t + 8 * idx) 8)
      if !e.getLsbD 63 then .missing
      else if malformed e lvl then .denied
      else if e.getLsbD 62 then .leaf e (lvl == 2)
      else s.walkFrom g fuel (lvl + 1) ((e.extractLsb' 15 33).toNat * 2 ^ 15)

/-- The addresses of the entries that the walk reads. -/
def State.walkReads (s : State) (g : Nat) : (fuel lvl t : Nat) → List Nat
  | 0, _, _ => []
  | fuel + 1, lvl, t =>
    let a := t + 8 * (if lvl == 1 then g / 2 ^ 24 % 4096 else if lvl == 2 then g / 2 ^ 12 % 4096 else g % 4096)
    let e := BitVec.ofNat 64 (s.phys a 8)
    a :: if s.physBad a 8 || !e.getLsbD 63 || malformed e lvl || e.getLsbD 62 then []
         else s.walkReads g fuel (lvl + 1) ((e.extractLsb' 15 33).toNat * 2 ^ 15)

/-- The walk of a granule from a context's root. -/
def State.walk (s : State) (c : Context) (g : Nat) : Walk := s.walkFrom g 3 1 c.root

/-- The TLB's leaf for a granule (R260). -/
def State.tlbLeaf (s : State) (asid : BitVec 16) (g : Nat) : Option TlbEntry :=
  s.tlb.find? fun e => e.asid == asid && (if e.large then e.page == g / 4096 else e.page == g)

/-! ### Checking a leaf (R259, R347, R355, R363) -/

/-- Who accesses: level, world, whether it reads, writes or fetches, and the die through whose L2 it goes. -/
structure Mode where
  user  : Bool
  world : Bool
  rd    : Bool
  wr    : Bool
  fetch : Bool
  via   : Option Nat := none
  /-- An access of an engine at .dev. -/
  dev   : Bool := false
deriving DecidableEq, Repr

/-- Is a physical address in a secure page (R363)? -/
def State.securePa (s : State) (pa : Nat) : Bool :=
  s.wrt.entries.any fun (_, b, l) => decide (b ≤ pa / 65536) && decide (pa / 65536 ≤ l)

/-- Does a physical range touch a secure page? -/
def State.secureRange (s : State) (pa n : Nat) : Bool :=
  s.wrt.entries.any fun (_, b, l) => decide (b ≤ (pa + n - 1) / 65536) && decide (pa / 65536 ≤ l)

/-- The address a leaf gives the first byte of granule g. -/
def leafBase (e : DWord) (large : Bool) (g : Nat) : Nat :=
  if large then (e.extractLsb' 28 20).toNat * 2 ^ 28 + g % 4096 * 65536 else (e.extractLsb' 16 32).toNat * 65536

/-- The address of the peer-window entry that a leaf with MT = 2 names; none past the table (R355). -/
def Context.windowAddr (c : Context) (e : DWord) : Option Nat :=
  let n := (e.extractLsb' 16 32).toNat
  if c.pwn.toNat ≤ n then none else some (c.pwbase.toNat + 16 * n)

/-- The peer window of a leaf with MT = 2 (R355). An entry that reads uncorrectable is an error of the walk that reads it
(R274; DEDUCED, log 81). -/
def State.peerWindow (s : State) (c : Context) (e : DWord) (large : Bool) (g : Nat) : Xlat :=
  match c.windowAddr e with
  | none => .denied
  | some a =>
    let w0 := BitVec.ofNat 64 (s.phys a 8)
    let w1 := BitVec.ofNat 64 (s.phys (a + 8) 8)
    if s.physBad a 16 then .walkError
    else if !w0.getLsbD 63 || w0.extractLsb' 19 44 != 0 || w1.extractLsb' 48 16 != 0
      || w1.extractLsb' 0 16 != 0 then .denied
    else .peer (w0.setWidth 19) ((w1.extractLsb' 16 32).toNat * 65536 + if large then g % 4096 * 65536 else 0)

/-- The check of R259 on an entry whose granule starts at `base`: the outcome that refuses the access, if one does. -/
def State.refused? (s : State) (m : Mode) (e : DWord) (base : Nat) : Option Xlat :=
  if !m.world && (e.getLsbD 57 || ((e.extractLsb' 53 2).toNat == 0 && s.securePa base)) then some .world
  else if !e.getLsbD 58 && m.user then some .denied
  else if (m.rd && !e.getLsbD 61) || (m.wr && !e.getLsbD 60) || (m.fetch && !e.getLsbD 59) then some .denied
  else none

/-- The outcome of a leaf for an access (R259), then by its memory target. -/
def State.checkLeaf (s : State) (c : Context) (m : Mode) (e : DWord) (large : Bool) (g : Nat) : Xlat :=
  let base := leafBase e large g
  match s.refused? m e base, (e.extractLsb' 53 2).toNat with
  | some x, _ => x
  | none, 0 => .mapped base { asid := c.asid, g := g, leaf := e, via := m.via }
  | none, 1 =>
    if !c.pv then .denied
    else if s.ats.contains (c.pasid, base / 65536) then .host base
    else .awaitAts (base / 65536)
  | none, _ => s.peerWindow c e large g

/-- The translation of granule g, through a TLB entry when `hit` and there is one (R257, R260). A virtual address
with bits [63:52] non-zero is PROTECTION (R256). -/
def State.translate (s : State) (c : Context) (m : Mode) (hit : Bool) (g : Nat) : Xlat :=
  if 2 ^ 36 ≤ g then .denied
  else match if hit then s.tlbLeaf c.asid g else none with
  | some e => s.checkLeaf c m e.leaf e.large g
  | none =>
    match s.walk c g with
    | .leaf e large => s.checkLeaf c m e large g
    | .missing => .missing
    | .denied => .denied
    | .error => .walkError

/-- The translation of an access that names no choice between a held entry and a walk (R260 fixes none; log 6): where the
two answers differ, either. -/
def State.translateEither (s : State) (c : Context) (m : Mode) (g : Nat) : Xlat :=
  let held := s.translate c m true g
  let walked := s.translate c m false g
  if held == walked || !Config.tlbAnswers s.freeCtr g then walked else held

/-- The reads of a translation where there is no memory are counted (R336): those of its walk (none when a TLB entry
answers) and that of a peer-window entry. -/
def State.countWalk (s : State) (c : Context) (leaf : Option DWord) (walked : Bool) (g : Nat) : State :=
  let s1 := if walked then (s.walkReads g 3 1 c.root).foldl (·.countNoMemory ·) s else s
  match leaf with
  | some e => if (e.extractLsb' 53 2).toNat == 2 then (c.windowAddr e).elim s1 s1.countNoMemory else s1
  | none => s1

/-- A walk that finds a leaf leaves it in the TLB (R260). -/
def State.fillTlb (s : State) (c : Context) (g : Nat) : State :=
  if 2 ^ 36 ≤ g then s
  else match s.walk c g with
  | .leaf e large =>
    let s1 := s.countWalk c (some e) true g
    let new : TlbEntry := { asid := c.asid, large := large, page := if large then g / 4096 else g, leaf := e }
    if s.tlb.contains new then s1
    else { s1 with tlb := new :: s.tlb.filter fun o =>
             !(o.asid == new.asid && o.large == new.large && o.page == new.page) }
  | _ => s.countWalk c none true g

/-- After a translation: an answer from the TLB leaves it as it is; a walk fills it (R260; log 6). -/
def State.fillAfter (s : State) (c : Context) (hit : Bool) (g : Nat) : State :=
  match if hit then s.tlbLeaf c.asid g else none with
  | some e => s.countWalk c (some e.leaf) false g
  | none => s.fillTlb c g

/-! ### Through a translation -/

/-- A byte of host memory (R347; log 17). -/
def State.hostByte (s : State) (a : Nat) : Byte := ((s.hostMem.find? fun c => c.1 == a).map (·.2)).getD (Config.hostByte a)

/-- A byte of host memory written. -/
def hostWrite (m : List Host.Cell) (a : Nat) (b : Byte) : List Host.Cell :=
  match m with
  | [] => [(a, b)]
  | (x, c) :: r => if a < x then (a, b) :: (x, c) :: r else if a == x then (a, b) :: r else (x, c) :: hostWrite r a b

/-- Bytes of host memory written from an address. -/
def hostWriteN (m : List Host.Cell) (a : Nat) : List Byte → List Host.Cell
  | [] => m
  | b :: bs => hostWriteN (hostWrite m a b) (a + 1) bs

/-- Is the page system-coherent: its accesses bypass L1 and L2 (R258)? -/
def Page.sysc (p : Page) : Bool := p.leaf.getLsbD 56

/-- The pieces of a range of a granule that lie in one line each. -/
def lineChunks (off n : Nat) : List (Nat × Nat) :=
  if n == 0 then []
  else (List.range ((off + n - 1) / 128 + 1 - off / 128)).map fun k =>
    let lo := max off ((off / 128 + k) * 128)
    (lo, min (off + n) ((off / 128 + k + 1) * 128) - lo)

/-- The line of a page that holds an offset. -/
def Page.line (p : Page) (off : Nat) : Nat := p.g * 512 + off / 128

/-- The die whose translation unit translates a granule of an ASID (R261). -/
def unitDie (asid : BitVec 16) (g : Nat) : Nat :=
  (g % 16 ^^^ g / 16 % 16 ^^^ g / 256 % 16 ^^^ g / 4096 % 16 ^^^ g / 65536 % 16 ^^^ asid.toNat % 16) / 4

/-- The home die of a line at a physical address (R250): that of its HBM4E stack, or of the unit that translates it. -/
def lineHome (pa : Nat) (asid : BitVec 16) (g : Nat) : Nat := if pa < 0x8000000000 then pa / 2 ^ 37 else unitDie asid g

/-- Is a line the line of the same address and ASID? -/
def Line.same (k l : Line) : Bool := l.asid == k.asid && l.line == k.line

/-- The line of a page at an offset of its granule, without its bytes. -/
def Page.at (p : Page) (b off : Nat) : Line :=
  { asid := p.asid, line := p.line off, base := b + off / 128 * 128, leaf := p.leaf,
    home := lineHome (b + off) p.asid p.g,
    ret := .normal, since := 0, data := [], dirty := 0, bad := 0 }

/-- Is an access of a page cached: device memory that exists, in a page that is not system-coherent (R250, R336)? -/
def Page.cached (p : Page) (pa : Nat) : Bool := !p.sysc && hasMemory pa

/-- A line in the L2 of a die. -/
def State.l2? (s : State) (d : Nat) (k : Line) : Option Line := (s.l2.getD d []).find? k.same

/-- A change of the lines of a die's L2. -/
def State.onL2 (s : State) (d : Nat) (f : List Line → List Line)
    : State := { s with l2 := setAt s.l2 d (f (s.l2.getD d [])) [] }

/-- A line of a die's L2 as the most recently used. -/
def State.putL2 (s : State) (d : Nat) (l : Line) : State := s.onL2 d fun ls => l :: ls.filter fun x => !l.same x

/-- Bytes that reach the home die (R251): into the line that its L2 holds, to be written back later; with no such line,
into memory. -/
def State.homeStore (s : State) (k : Line) (off : Nat) (bs : List Byte) : State :=
  match s.l2? k.home k with
  | none => s.physWrite (k.base + off) bs
  | some l => s.putL2 k.home (l.put off bs true)

/-- The line that an engine of a die finds: that of its own L2, or else that of the home die's (R251). -/
def State.foundLine (s : State) (p : Page) (b off : Nat) : Option Line :=
  if p.cached (b + off) then
    let k := p.at b off
    (p.via.bind (s.l2? · k)).or (s.l2? k.home k)
  else none

/-- `n` bytes at an offset of a mapped granule, as an engine reads them: from a line of L2, or else from memory (R251).
A load from a peer page gives free bytes (log 23). -/
def State.xread (s : State) (x : Xlat) (off n : Nat) : List Byte :=
  match x with
  | .mapped b p => (lineChunks off n).flatMap fun (o, k) =>
    match s.foundLine p b o with
    | some l => (l.data.drop (o % 128)).take k
    | none => s.physRead (b + o) k
  | .host b => (List.range n).map fun k => s.hostByte (b + off + k)
  | .peer _ b => (List.range n).map fun k => Config.peerByte s.freeCtr (b + off + k)
  | _ => List.replicate n 0

/-- Does a read of memory through a page meet an uncorrectable burst (R274)? In a compressed page of HBM4E it meets one
anywhere in the 1 KiB blocks it reads (R255). -/
def State.pageBad (s : State) (p : Page) (pa n : Nat) : Bool :=
  if p.leaf.getLsbD 55 && decide (pa < 0x8000000000) then
    s.physBad (pa / 1024 * 1024) ((pa + n + 1023) / 1024 * 1024 - pa / 1024 * 1024)
  else s.physBad pa n

/-- Does a range of a line's bytes meet a burst of it that is uncorrectable? -/
def Line.badAt (l : Line) (off n : Nat) : Bool :=
  (List.range 4).any fun b => l.bad.getLsbD b && decide (off < 32 * b + 32) && decide (32 * b < off + n)

/-- Does the read meet an uncorrectable burst (R274)? -/
def State.xbad (s : State) (x : Xlat) (off n : Nat) : Bool :=
  match x with
  | .mapped b p => (lineChunks off n).any fun (o, k) =>
    match s.foundLine p b o with
    | some l => l.badAt (o % 128) k
    | none => s.pageBad p (b + o) k
  | _ => false

/-- A copy of a line in the L2 of a die that is not its home follows bytes written through. -/
def State.patchCopy (s : State) (d : Nat) (k : Line) (off : Nat) (bs : List Byte) : State :=
  if (s.l2? d k).isNone || k.home == d then s
  else s.onL2 d fun ls => ls.map fun x => if k.same x then x.put off bs false else x

/-- Bytes that an engine of a die writes inside one line: through to the home die, with any copy in its own die's L2
(R251); of a page that is never cached, into memory. -/
def State.engStore (s : State) (p : Page) (b off : Nat) (bs : List Byte) : State :=
  if p.cached (b + off) then
    let k := p.at b off
    let s1 := s.homeStore k (off % 128) bs
    p.via.elim s1 fun d => s1.patchCopy d k (off % 128) bs
  else s.physWrite (b + off) bs

/-- Bytes written at an offset of a mapped granule, as an engine writes them, line by line; a peer page is written by
flits instead. -/
def State.xwrite (s : State) (x : Xlat) (off : Nat) (bs : List Byte) : State :=
  match x with
  | .mapped b p => (lineChunks off bs.length).foldl (fun (s : State) c =>
      s.engStore p b c.1 ((bs.drop (c.1 - off)).take c.2)) s
  | .host b => { s with hostMem := hostWriteN s.hostMem (b + off) bs }
  | _ => s

/-- The mapping among the outcomes an instruction has received (the last one stands). -/
def lookupX (outs : List (Nat × Xlat)) (g : Nat) : Option Xlat := ((outs.filter (·.1 == g)).getLast?).map (·.2)

/-- Granule number of an address. -/
def granule (va : Nat) : Nat := va / 65536

/-- The granules of a range, ascending. -/
def granules (va n : Nat) : List Nat :=
  if n == 0 then [] else (List.range ((va + n - 1) / 65536 + 1 - va / 65536)).map (va / 65536 + ·)

/-- A read of a virtual range through outcomes. -/
def State.vread (s : State) (outs : List (Nat × Xlat)) (va n : Nat) : List Byte :=
  (granules va n).flatMap fun g =>
    let lo := max va (g * 65536)
    let hi := min (va + n) ((g + 1) * 65536)
    s.xread ((lookupX outs g).getD .missing) (lo - g * 65536) (hi - lo)

/-- Does the read meet an uncorrectable burst? -/
def State.vbad (s : State) (outs : List (Nat × Xlat)) (va n : Nat) : Bool :=
  (granules va n).any fun g =>
    let lo := max va (g * 65536)
    let hi := min (va + n) ((g + 1) * 65536)
    s.xbad ((lookupX outs g).getD .missing) (lo - g * 65536) (hi - lo)

/-- A write of a virtual range through outcomes. -/
def State.vwrite (s : State) (outs : List (Nat × Xlat)) (va : Nat) (bs : List Byte) : State :=
  (granules va bs.length).foldl (fun s g =>
    let lo := max va (g * 65536)
    let hi := min (va + bs.length) ((g + 1) * 65536)
    s.xwrite ((lookupX outs g).getD .missing) (lo - g * 65536) ((bs.drop (lo - va)).take (hi - lo))) s

/-- A read of a virtual range through outcomes is counted where its granule maps no memory (R336). -/
def State.countReads (s : State) (outs : List (Nat × Xlat)) (va n : Nat) : State :=
  (granules va n).foldl (fun (s : State) g =>
    match lookupX outs g with
    | some (.mapped b _) => s.countNoMemory (b + (max va (g * 65536) - g * 65536))
    | _ => s) s

/-! ### Hits (R260) -/

/-- The lines of a range inside granule g, by number. -/
def rangeLines (va n g : Nat) : List Nat :=
  let lo := max va (g * 65536) - g * 65536
  (lineChunks lo (min (va + n) ((g + 1) * 65536) - g * 65536 - lo)).map fun c => g * 512 + c.1 / 128

/-- The line that an access hits: in the L1 of a core, where it looks there, or in the L2 of the die it goes through; an
access that goes to the home die finds the line there. -/
def State.heldLine (s : State) (l1 via : Option Nat) (asid : BitVec 16) (n : Nat) : Option Line :=
  let found (ls : List Line) : Option Line := ls.find? fun l => l.asid == asid && l.line == n
  (l1.bind fun c => found (s.core c).l1).or
    (match via with
     | some d => found (s.l2.getD d [])
     | none => (List.range 4).findSome? fun d => (found (s.l2.getD d [])).filter (·.home == d))

/-- Does an access hit every line it touches? -/
def State.hitsAll (s : State) (l1 via : Option Nat) (asid : BitVec 16) (lines : List Nat) : Bool :=
  !lines.isEmpty && lines.all fun n => (s.heldLine l1 via asid n).isSome

/-- The answer of a granule to an access of some of its lines: each line that it hits is checked against that line's own
copies, and `miss` answers for the others; of two outcomes the earlier in the order of R263 (R259, R260). -/
def State.hitAnswer (s : State) (m : Mode) (l1 : Option Nat) (asid : BitVec 16) (lines : List Nat) (miss : Xlat) : Xlat :=
  let held := lines.filterMap (s.heldLine l1 m.via asid)
  let base (l : Line) : Nat := l.base - l.line % 512 * 128
  let refs := held.filterMap fun l => s.refused? m l.leaf (base l)
  let rest := if s.hitsAll l1 m.via asid lines then
      held.head?.elim miss fun l => .mapped (base l) { asid := asid, g := l.line / 512, leaf := l.leaf, via := m.via }
    else miss
  if refs.contains .world || rest == .world then .world else refs.head?.getD rest

/-- Every granule of a range translated for an access. -/
def State.xlatRange (s : State) (c : Context) (m : Mode) (va n : Nat) : List (Nat × Xlat) :=
  (granules va n).map fun g => (g, s.hitAnswer m none c.asid (rangeLines va n g) (s.translateEither c m g))

/-- The first of the outcomes, by the order of R263, that is no mapping. -/
def firstBad (outs : List (Nat × Xlat)) : Option (Nat × Xlat) :=
  (outs.find? (·.2 == .world)).or ((outs.find? (·.2 == .denied)).or
    ((outs.find? (·.2 == .walkError)).or ((outs.find? (·.2 == .missing)).or (outs.find? fun o => !o.2.isMapped))))

/-- The trap code of an outcome (R259, R270). -/
def Xlat.trap : Xlat → TrapCode
  | .world => .worldViolation
  | .denied => .protection
  | .walkError => .memoryError
  | _ => .pageFault

/-! ### Engine accesses (R178, R273 to R275) -/

/-- The access of an engine operation of a die: user level, in the world of its issuing team. -/
def engMode (die : Nat) (world rd wr : Bool) : Mode :=
  { user := true, world := world, rd := rd, wr := wr, fetch := false, via := some die }

/-- The access of a Dusk engine: its reads are acquires at .dev (R304). -/
def duskMode (die : Nat) (world rd wr : Bool) : Mode := { engMode die world rd wr with dev := true }

/-- A kind 2 record (R270): the engine command that met a missing page, with its progress. -/
def engRecord (c : Context) (world : Bool) (core cls op m prog : Nat) (wr : Bool) (va : DWord) : List Word :=
  [va.lo, va.hi, c.ctxid world,
    BitVec.ofNat 2 (coreDie core) ++ BitVec.ofNat 2 (core % 48 / 12) ++ BitVec.ofNat 4 (coreSite core) ++
        BitVec.ofNat 3 cls
      ++ BitVec.ofNat 7 op ++ BitVec.ofNat 2 m ++ 0#12,
    2#3 ++ BitVec.ofBool wr ++ 0#20 ++ 0x09#8, 0, 0, BitVec.ofNat 32 prog]

/-- Who an engine operation is, for a fault: its key, context, core, class, OP, matrix context and progress. -/
structure EngineId where
  key   : Nat
  ctx   : Nat
  core  : Nat
  world : Bool
  cls   : Nat
  op    : Nat
  m     : Nat
  prog  : Nat
deriving DecidableEq, Repr

/-- An engine operation meets a granule it cannot use (R178, R198, R273, R274): a missing page suspends it (`susp`) with
a kind 2 record, whose WR tells a write (`wr`); DENIED,
    WORLD and a failed walk fault the context; an unanswered ATS request is kept. -/
def State.engFail (s : State) (e : EngineId) (x : Xlat) (va : DWord) (wr : Bool) (susp : State → State) : State :=
  match x with
  | .denied | .world => s.contextFault e.ctx (coreDie e.core) 8 x.trap.code va
  | .walkError => s.contextFault e.ctx (unitDie (s.ctx e.ctx).asid (granule va.toNat)) 4 0 0
  | .awaitAts p =>
    let w : AtsWait := { key := e.key, ctx := e.ctx, die := coreDie e.core, page := p, va := va, refused := false }
    if s.atsWaits.contains w then s else { s with atsWaits := s.atsWaits ++ [w] }
  | _ => susp (s.record e.ctx (engRecord (s.ctx e.ctx) e.world e.core e.cls e.op e.m e.prog wr va))

/-- The first address of a range whose granule gives no mapping, with the outcome; none when all do. -/
def State.engCheck (s : State) (c : Context) (m : Mode) (va n : Nat) : Option (Xlat × DWord) :=
  (firstBad (s.xlatRange c m va n)).map fun (g, x) => (x, BitVec.ofNat 64 (max va (g * 65536)))

/-! ### Scratch (R145, R246, R274) -/

/-- `n` bytes of a cast's scratch. -/
def Cast.sread (c : Cast) (off n : Nat) : List Byte := c.scratch.readN off n

/-- Does a read of scratch meet an uncorrectable block? -/
def Cast.sbad (c : Cast) (off n : Nat) : Bool :=
  c.bad.any fun b => decide (off < 32 * b + 32) && decide (32 * b < off + n)

/-- Do two byte ranges overlap? -/
def overlaps (a n b m : Nat) : Bool := decide (a < b + m) && decide (b < a + n)

/-- A write of scratch inside the cast's size; a block written whole becomes good. -/
def Cast.swrite (c : Cast) (off : Nat) (bs : List Byte) : Cast :=
  { c with scratch := c.scratch.writeIf off (fun a => a < c.size) bs,
           bad := c.bad.filter fun b => !coversBurst off bs.length b
           lag := c.lag.filter fun x => !overlaps off bs.length x.off x.old.length }

/-- A write of scratch by an engine operation: teams that do not synchronise with it may still read what it replaces. -/
def Cast.landed (c : Cast) (teams : List Nat) (copy : Option (Nat × Nat)) (off : Nat) (bs : List Byte) : Cast :=
  let old := c.sread off bs.length
  let c1 := c.swrite off bs
  if old == bs then c1 else { c1 with lag := { teams := teams, off := off, old := old, copy := copy } :: c1.lag }

/-- A write of an engine operation to the scratch of a cast. -/
def State.landScratch (s : State) (cast : Nat) (copy : Option (Nat × Nat)) (off : Nat) (bs : List Byte) : State :=
  s.onCast cast fun c => c.landed ((s.teams.filter (·.cast == cast)).map (·.id)) copy off bs

/-- A team has synchronised with some engine writes of its cast's scratch. -/
def Cast.caughtUp (c : Cast) (team : Nat) (p : Lag → Bool) : Cast :=
  let left := c.lag.map fun x => if p x then { x with teams := x.teams.filter (· != team) } else x
  { c with lag := left.filter fun x => !x.teams.isEmpty }

/-- A load of scratch by a team: what scratch holds, but for the bytes of an engine's write that it races with, which are
all old or all new; once it has met the new ones it meets no old ones (R223, R232). -/
def Cast.view (c : Cast) (team draw off n : Nat) : Cast × List Byte :=
  let mine (x : Lag) : Bool := x.teams.contains team && overlaps off n x.off x.old.length
  let old (x : Lag) : Bool := mine x && Config.racesOld draw x.off
  let put (bs : List Byte) (x : Lag) : List Byte :=
    let lo := max off x.off
    let hi := min (off + n) (x.off + x.old.length)
    bs.take (lo - off) ++ (x.old.drop (lo - x.off)).take (hi - lo) ++ bs.drop (hi - off)
  if c.lag.any mine then
    (c.caughtUp team fun x => mine x && !old x, (c.lag.filter old).foldl put (c.sread off n))
  else (c, c.sread off n)

/-! ### Sending a flit (R353, R354) -/

/-- The sequence number of the next flit to a device, and the state that has used it. -/
def State.nextSeq (s : State) (dst : BitVec 19) : BitVec 16 × State :=
  match s.seqs.find? (·.1 == dst) with
  | some (_, n) => (n, { s with seqs := replaceIf s.seqs (·.1 == dst) fun _ => (dst, n + 1) })
  | none => (0, { s with seqs := s.seqs ++ [(dst, 1)] })

/-- The route byte of a destination (R354). -/
def Regs.route (r : Regs) (dst : BitVec 19) : Byte :=
  if dst.extractLsb' 10 9 == r.devid.extractLsb' 10 9 then r.routem.getD (dst.extractLsb' 0 10).toNat 0
  else r.routeg.getD (dst.extractLsb' 10 9).toNat 0

/-- The port a flit to a device leaves through; none when the route or the port refuses it (R354, R359). -/
def State.portFor (s : State) (dst : BitVec 19) : Option Nat :=
  let b := s.regs.route dst
  let p := (b.extractLsb' 0 4).toNat
  if b.getLsbD 7 && (s.ports.getD p Port.reset).state == .up then some p else none

/-- The first header word of a flit (R353), in bytes: the payload of an acknowledgement, a refusal and a carry status, which
names the flit they answer (DESIGN CHOICE, log 39). -/
def headerWord (f : Flit) : List Byte :=
  leBytes 8 (f.ty.toNat * 2 ^ 60 + f.dst.toNat * 2 ^ 41 + f.src.toNat * 2 ^ 22 + f.ttl.toNat * 2 ^ 16 + f.seq.toNat)

/-- The destination and sequence number of the flit that an answer names. -/
def flitAnswers (f : Flit) : BitVec 19 × BitVec 16 :=
  (BitVec.ofNat 19 (leNat (f.data.take 8) / 2 ^ 41), BitVec.ofNat 16 (leNat (f.data.take 8)))

/-- A flit of this device to the source of another, with the next number of their pair (R353). -/
def State.answerTo (s : State) (f : Flit) (ty : BitVec 4) (opc : BitVec 8) (data : List Byte) : Flit × State :=
  let (n, s1) := s.nextSeq f.src
  ({ ty := ty, dst := f.src, src := s.regs.devid, ttl := 16, seq := n, opc := opc, addr := 0, data := data,
     resv := false }, s1)

/-- A flit of this device that has no way on: it is answered with a refusal, which stays here when the flit is this
device's own, and is dropped where it has no way either (R354, R357). -/
def State.refuseFlit (s : State) (f : Flit) : State :=
  let (r, s1) := s.answerTo f 8 0 (headerWord f)
  if f.src == s.regs.devid then { s1 with inbox := s1.inbox ++ [r] }
  else match s1.portFor f.src with
  | some p => s1.emit (.flit p r)
  | none => s1

/-- A flit handed to the IOD: delivered inside it, sent on its port, or refused (R354). -/
def State.send (s : State) (f : Flit) : State :=
  if f.dst == s.regs.devid then { s with inbox := s.inbox ++ [f] }
  else match s.portFor f.dst with
  | some p => s.emit (.flit p f)
  | none => s.refuseFlit f

/-- A request of this device to a peer, with the record of what its answer is for. -/
def State.request (s : State) (ty : BitVec 4) (dst : BitVec 19) (opc : BitVec 8) (addr : Nat) (data : List Byte)
    (r : BitVec 16 → Nat → Remote) : State :=
  let (n, s1) := s.nextSeq dst
  let f : Flit := { ty := ty, dst := dst, src := s.regs.devid, ttl := 16, seq := n, opc := opc,
                    addr := BitVec.ofNat 48 addr, data := data, resv := false }
  { s1.send f with remotes := s1.remotes ++ [r n ((s1.portFor dst).getD 16)] }

/-! ### Range locks (R146, R234) -/

/-- The scratch packets of outstanding QSRCH of a core's teams: source ranges until acceptance (R204). -/
def State.packets (s : State) (core : Nat) : List RangeLock :=
  (s.teams.filter (·.core == core)).flatMap fun t => t.outst.filterMap fun o => match o.instr with
    | .qsrch q =>
      if szScratch q.ext.sz && !o.failed then
        some { op := o.seq, dest := false, space := .scratch t.cast, lo := o.args.getD 0 0,
               len := o.args.getD 1 0, carry := false }
      else none
    | _ => none

/-- The ranges registered in the table of a core. -/
def State.rangesOf (s : State) (core : Nat) : List RangeLock := (s.core core).ranges ++ s.packets core

/-- A thread access meets a registered range of its core: a load a destination, a store either kind. -/
def State.rangeHit (s : State) (core : Nat) (sp : Space) (a n : Nat) (store : Bool) : Bool :=
  (s.rangesOf core).any fun r => (store || r.dest) && r.space == sp && overlaps a n r.lo r.len

/-- The entries of an operation released. -/
def State.releaseRanges (s : State) (core op : Nat) : State :=
  s.onCore core fun c => { c with ranges := c.ranges.filter (·.op != op) }

/-- Entries a core has left for its own operations. -/
def State.rangesLeft (s : State) (core : Nat) : Nat :=
  Config.rangeEntries - ((s.rangesOf core).filter (!·.carry)).length

end Sys2Proof.Machine
end

