-- ==== Sys2Proof/Machine/Cache.lean ====
section
/-! DEFINITION. L1 and the L2 of a die (spec 11): the partition word, sets and victims (R246 to R250), filling and
writing back lines (R250 to R253), the accesses of a team at the place where each is performed (R248, R251, R154), and
what acquires, releases and invalidations do to lines (R163, R215, R252). -/

namespace Sys2Proof.Machine

/-! ### The partition word and the sets (R242, R243, R246, R247, R250) -/

/-- Accumulator blocks of a partition word (R242). -/
def partAb (w : Word) : Nat := match (w.extractLsb' 25 2).toNat with | 0 => 2 | 1 => 4 | _ => 8
/-- Register blocks. -/
def partRblk (w : Word) : Nat := (w.extractLsb' 27 5).toNat
/-- L1 ways W (R243). -/
def partWays (w : Word) : Nat := 4 * (24 - partRblk w - partAb w)
/-- Is the partition word valid (R243)? -/
def partValid (w : Word) : Bool :=
  8 ≤ partRblk w && partRblk w ≤ 16 && w.extractLsb' 25 2 != 3 && w.extractLsb' 0 17 == 0
    && partRblk w + partAb w < 24
/-- Tiles of each matrix context (R243). -/
def partTiles (w : Word) : Nat := 2 * partAb w
/-- Extension timeout in clocks (R242). -/
def partTimeout (w : Word) : Nat :=
  let n := (w.extractLsb' 21 4).toNat
  if n == 0 then 2 ^ 20 else 2 ^ (n + 9)

/-- Scratch lines of a cast of `size` bytes in L1 set `i` (R246). -/
def setLines (size i : Nat) : Nat := size / 128 / 256 + if i < size / 128 % 256 then 1 else 0

/-- The lines that locks of one cache hold: a line that two contexts of an ASID have locked is one line (R247, R254,
R256). -/
def lockedLines (ks : List LineLock) : List (BitVec 16 × Nat) := (ks.map fun k => (k.asid, k.line)).eraseDups

/-- Scratch lines pinned in an L1 set of a core: P(s) of R247. -/
def State.pinned (s : State) (core i : Nat) : Nat :=
  ((s.casts.filter (·.core == core)).map fun c => setLines c.size i).foldl (· + ·) 0

/-- Lines pinned and locked in an L1 set of a core: P(s) + L(s) of R247. -/
def State.setUse (s : State) (core i : Nat) : Nat :=
  s.pinned core i + ((lockedLines (s.core core).locks).filter fun k => k.2 % 256 == i).length

/-- Slice and set of a line in L2 (R250). -/
def l2Set (line : Nat) : Nat × Nat :=
  ((line % 16 ^^^ line / 16 % 16 ^^^ line / 256 % 16 ^^^ line / 4096 % 16), line / 16 % 2048)

/-- Byte writes as an address map, later writes over earlier ones. -/
def byteMap (m : List Host.Cell) (a : Nat) (bs : List Byte) : List Host.Cell := hostWriteN m a bs

/-- A sorted byte map cut into contiguous runs that do not cross a 128-byte line. -/
def lineRuns : List Host.Cell → List (Nat × List Byte)
  | [] => []
  | (a, b) :: rest =>
    match lineRuns rest with
    | (a', bs) :: more => if a + 1 == a' && a' % 128 != 0 then (a, b :: bs) :: more else (a, [b]) :: (a', bs) :: more
    | [] => [(a, [b])]

/-! ### Lines in one cache (R249) -/

/-- Does a lock hold the line? -/
def Line.lockedBy (l : Line) (k : LineLock) : Bool := k.asid == l.asid && k.line == l.line

/-- The least recently used line of a class; the most recently used stands first. -/
def oldestUse (c : Retention) (ls : List Line) : Option Line := (ls.filter (·.ret == c)).getLast?

/-- The victim among candidates: of the lowest class, the least recently used (R249). -/
def victim? (ls : List Line) : Option Line :=
  (oldestUse .stream ls).or ((oldestUse .normal ls).or (oldestUse .sticky ls))

/-- The line that has been sticky longest. -/
def oldestSticky : List Line → Option Line
  | [] => none
  | l :: r =>
    match oldestSticky r with
    | none => if l.ret == .sticky then some l else none
    | some o => if l.ret == .sticky && decide (l.since < o.since) then some l else some o

/-- With more than `half` sticky lines among the candidates that `p` names, the oldest becomes default (R249). -/
def demoteSticky (p : Line → Bool) (half : Nat) (ls : List Line) : List Line :=
  let st := ls.filter fun l => p l && l.ret == .sticky
  if half < st.length then
    match oldestSticky st with
    | some o => ls.map fun l => if o.same l then { l with ret := .normal } else l
    | none => ls
  else ls

/-- A line put into its set of `ways` lines that no scratch pins, for the lines `inSet`; `free` names those that no lock
holds. The second part is the line that had to leave. At most half of the candidate ways may be sticky (R249). Where a
sticky line comes into a full set, the victim is chosen first and the oldest sticky line demoted after (R249 gives no order;
DESIGN CHOICE, log 93). -/
def fillSet (inSet free : Line → Bool) (ways : Nat) (l : Line) (ls : List Line) : List Line × Option Line :=
  let set := ls.filter inSet
  let half := (ways - (set.filter fun x => !free x).length) / 2
  let settle (r : List Line) := if l.ret == .sticky then demoteSticky (fun x => inSet x && free x) half r else r
  if set.length < ways then (settle (l :: ls), none)
  else match victim? (set.filter free) with
  | some v => (settle (l :: ls.filter fun x => !v.same x), some v)
  | none => (ls, none)

/-! ### The L2 of a die (R250, R251) -/

/-- Is a line locked in the L2 of a die? -/
def State.locked2 (s : State) (d : Nat) (l : Line) : Bool := s.locks2.any fun k => k.1 == d && l.lockedBy k.2

/-- A line as memory holds it. -/
def State.fromMemory (s : State) (k : Line) : Line :=
  let p : Page := { asid := k.asid, g := k.line / 512, leaf := k.leaf, via := none }
  let bad := (List.range 4).foldr (fun i acc => 2 * acc + (s.pageBad p (k.base + 32 * i) 32).toNat) 0
  { k with data := s.physRead k.base 128, dirty := 0, bad := BitVec.ofNat 4 bad }

/-- A context fault of every context of an ASID (R275, REASON 7). -/
def State.faultAsid (s : State) (d : Nat) (asid : BitVec 16) : State :=
  (s.contexts.filter (·.asid == asid)).foldl (fun (s : State) c => s.contextFault c.no d 7 0 0) s

/-- The dirty bytes of a line as runs of an address each. -/
def Line.dirtyRuns (l : Line) : List (Nat × List Byte) :=
  lineRuns ((List.range 128).filterMap fun i => if l.dirty.getLsbD i then some (l.base + i, l.data.getD i 0) else none)

/-- The bursts of a line that hold a dirty byte. -/
def Line.dirtyBursts (l : Line) : List Nat := (List.range 4).filter fun i => l.dirty.extractLsb' (32 * i) 32 != 0#32

/-- A line of a die's L2 is written back (R251): another home die merges its dirty bytes alone; at its own home its dirty
bursts go whole to memory (R338). A dirty burst that was filled uncorrectable, and not written whole since, faults the
contexts of its ASID and leaves memory as it is (R274, REASON 7). -/
def State.writeBack (s : State) (d : Nat) (l : Line) : State :=
  if l.home != d then l.dirtyRuns.foldl (fun (s : State) r => s.homeStore l (r.1 - l.base) r.2) s
  else
    let (bad, good) := l.dirtyBursts.partition l.bad.getLsbD
    let s1 := good.foldl (fun (s : State) i => s.physWrite (l.base + 32 * i) ((l.data.drop (32 * i)).take 32)) s
    if bad.isEmpty then s1 else s1.faultAsid d l.asid

/-- The lines of a die's L2 that `p` names are written back and stay, clean. -/
def State.cleanL2 (s : State) (d : Nat) (p : Line → Bool) : State :=
  (((s.l2.getD d []).filter fun l => p l && l.dirty != 0).foldl (fun (s : State) l => s.writeBack d l) s).onL2 d fun ls =>
    ls.map fun l => if p l then { l with dirty := 0 } else l

/-- A line allocated in the L2 of a die, at the given class; a line whose fill meets an uncorrectable burst is kept for
a store alone (R274). The line that leaves is written back. -/
def State.allocL2 (s : State) (d : Nat) (l : Line) (ret : Option Retention) (store : Bool) : State :=
  match ret with
  | none => s
  | some r =>
    if l.bad != 0 && !store then s
    else
      let ls := s.l2.getD d []
      let new := { l with ret := r, since := s.freeCtr, dirty := 0 }
      let (ls', out) := fillSet (fun x => l2Set x.line == l2Set l.line) (fun x => !s.locked2 d x) 16 new ls
      let s1 := s.onL2 d fun _ => ls'
      match out with
      | some v => s1.writeBack d v
      | none => s1

/-- A line for an access at the L2 of a die: the one it holds; else memory's at its home die; else that of the home die's
L2, which allocates it as well (R251). `ret` is the class to allocate at, or none (R147). -/
def State.fetchLine (s : State) (d : Nat) (k : Line) (ret : Option Retention) (store : Bool) : State × Line :=
  match s.l2? d k with
  | some l => (s.putL2 d l, l)
  | none =>
    if k.home == d then
      let l := s.fromMemory k
      (s.allocL2 d l ret store, l)
    else match s.l2? k.home k with
    | some l => ((s.putL2 k.home l).allocL2 d l ret store, l)
    | none =>
      let l := s.fromMemory k
      ((s.allocL2 k.home l ret store).allocL2 d l ret store, l)

/-! ### The L1 of a core (R248) -/

/-- A line in the L1 of a core. -/
def State.l1? (s : State) (core : Nat) (k : Line) : Option Line := (s.core core).l1.find? k.same

/-- A change of the lines of an L1. -/
def State.onL1 (s : State) (core : Nat) (f : List Line → List Line) : State :=
  s.onCore core fun c => { c with l1 := f c.l1 }

/-- Does a lock of the core hold the line? -/
def Core.locked1 (c : Core) (l : Line) : Bool := c.locks.any l.lockedBy

/-- A line allocated in the L1 of a core; nothing in an L1 is dirty. -/
def State.allocL1 (s : State) (core : Nat) (l : Line) (ret : Retention) : State :=
  if l.bad != 0 then s
  else
    let c := s.core core
    let new := { l with ret := ret, since := s.freeCtr, dirty := 0 }
    s.onL1 core fun ls => (fillSet (fun x => x.line % 256 == l.line % 256) (fun x => !c.locked1 x)
      (partWays c.partw - s.pinned core (l.line % 256)) new ls).1

/-- A copy in the L1 of a core follows a line that the core has read or written elsewhere. -/
def State.refreshL1 (s : State) (core : Nat) (l : Line) : State :=
  s.onL1 core fun ls => ls.map fun x => if x.same l then { x with data := l.data } else x

/-- A copy in the L1 of a core follows bytes that the core has stored (R248). It keeps its place in the order of use: R249
does not say whether such a store is a use (DESIGN CHOICE, log 93). -/
def State.patchL1 (s : State) (core : Nat) (k : Line) (off : Nat) (bs : List Byte) : State :=
  s.onL1 core fun ls => ls.map fun x => if x.same k then x.put off bs false else x

/-- The lines of a set that must leave for it to hold `ways` lines: the victims of R249, one after another. -/
def surplus (ways : Nat) : (fuel : Nat) → List Line → List Line → List Line
  | 0, _, _ => []
  | n + 1, locked, cands =>
    if locked.length + cands.length ≤ ways then []
    else match victim? cands with
    | some v => v :: surplus ways n locked (cands.filter fun x => !v.same x)
    | none => []

/-- After scratch has been pinned, each L1 set gives up victims for it (R247). -/
def State.trimL1 (s : State) (core : Nat) : State :=
  let c := s.core core
  let out := ((c.l1.map (·.line % 256)).eraseDups).flatMap fun i =>
    let set := c.l1.filter (·.line % 256 == i)
    surplus (partWays c.partw - s.pinned core i) set.length (set.filter c.locked1) (set.filter fun l => !c.locked1 l)
  if out.isEmpty then s else s.onL1 core fun ls => ls.filter fun l => !out.any l.same

/-! ### Accesses of a team (R147, R154, R248, R251) -/

/-- Where an access is performed. -/
inductive Place where
  | l1 | l2 | home
deriving DecidableEq, Repr

/-- The place of an access by its scope; GATHER and SCATR bypass L1 (R248, R251). -/
def placeOf (sc : Scope) (bypass : Bool) : Place :=
  match sc with
  | .none | .team | .core => if bypass then .l2 else .l1
  | .die => .l2
  | .dev | .sys => .home

/-- The class at which a retention hint allocates in L2 (R147). -/
def retOf (rh : BitVec 2) : Option Retention :=
  match rh.toNat with | 0 => some .normal | 1 => some .stream | 2 => some .sticky | _ => none

/-- A line for a read at its home die by an agent of die `d` (R251): what d's L2 holds dirty of it is written back first,
and d's copy then follows what the home die holds, so that no later access through d reads an older value (R221, R223;
DEDUCED, log 71). -/
def State.homeLine (s : State) (d : Nat) (k : Line) (ret : Option Retention) : State × Line :=
  let s0 := if k.home == d then s else s.cleanL2 d k.same
  let (s1, l) := s0.fetchLine k.home k ret false
  (if k.home == d then s1
   else s1.onL2 d fun ls => ls.map fun y => if k.same y then { y with data := l.data, bad := l.bad } else y, l)

/-- A load of a team's core, inside one line: the bytes, and whether they are uncorrectable. The copies
nearer to the core follow what a load at the home die reads (R221, R223; DEDUCED, log 71). -/
def State.loadAt (s : State) (core : Nat) (x : Xlat) (off n : Nat) (pl : Place) (ret : Option Retention) :
    State × List Byte × Bool :=
  match x with
  | .mapped b p =>
    if !p.cached (b + off) then (s.countNoMemory (b + off), s.physRead (b + off) n, s.pageBad p (b + off) n)
    else
      let k := p.at b off
      let die := coreDie core
      let bytes (l : Line) := (l.data.drop (off % 128)).take n
      match pl with
      | .l1 =>
        match s.l1? core k with
        | some l => (s.onL1 core fun ls => l :: ls.filter fun y => !l.same y, bytes l, false)
        | none =>
          let (s1, l) := s.fetchLine die k ret false
          let s2 := match ret with
            | some .normal => s1.allocL1 core l .normal
            | some .sticky => s1.allocL1 core l .sticky
            | _ => s1
          (s2, bytes l, l.badAt (off % 128) n)
      | .l2 =>
        let (s1, l) := s.fetchLine die k ret false
        (s1.refreshL1 core l, bytes l, l.badAt (off % 128) n)
      | .home =>
        let (s1, l) := s.homeLine die k ret
        (s1.refreshL1 core l, bytes l, l.badAt (off % 128) n)
  | x => (s, s.xread x off n, s.xbad x off n)

/-- Bytes of a line stored at the L2 of a die, which fetches the line for them: at the home die they reach its L2 or
memory; at another they wait in its L2, when that holds the line, to be written back (R251). -/
def State.storeL2 (s : State) (d : Nat) (k : Line) (off : Nat) (bs : List Byte) (ret : Option Retention) : State :=
  let s1 := (s.fetchLine d k ret true).1
  if k.home == d then s1.homeStore k off bs
  else match s1.l2? d k with
  | some l => s1.putL2 d (l.put off bs true)
  | none => s1.homeStore k off bs

/-- A store of a team's core, inside one line: at its die's L2 or at the home die's, and into the copies nearer to the
core (R248, R251). -/
def State.storeAt (s : State) (core : Nat) (x : Xlat) (off : Nat) (bs : List Byte) (pl : Place) (ret : Option Retention) :
    State :=
  match x with
  | .mapped b p =>
    if !p.cached (b + off) then s.physWrite (b + off) bs
    else
      let k := p.at b off
      let o := off % 128
      let die := coreDie core
      let d := if pl == .home then k.home else die
      let s1 := s.storeL2 d k o bs ret
      (if d == die then s1 else s1.patchCopy die k o bs).patchL1 core k o bs
  | x => s.xwrite x off bs

/-- A load of any length through one granule, line by line. -/
def State.loadLines (s : State) (core : Nat) (x : Xlat) (off n : Nat) (pl : Place) (ret : Option Retention) :
    State × List Byte × Bool :=
  (lineChunks off n).foldl (fun (a : State × List Byte × Bool) c =>
    let (s1, bs, bad) := a.1.loadAt core x c.1 c.2 pl ret
    (s1, a.2.1 ++ bs, a.2.2 || bad)) (s, [], false)

/-- A store of any length through one granule, line by line. -/
def State.storeLines (s : State) (core : Nat) (x : Xlat) (off : Nat) (bs : List Byte) (pl : Place) (ret : Option Retention) :
    State :=
  (lineChunks off bs.length).foldl (fun (s : State) c =>
    s.storeAt core x c.1 ((bs.drop (c.1 - off)).take c.2) pl ret) s

/-- What each line of a virtual range, through its outcomes, has done to the state: `f` is given the state, the mapping and
the offset and length of the line's part. -/
def State.overLines (s : State) (outs : List (Nat × Xlat)) (va n : Nat) (f : State → Page → Nat → Nat → Nat → State) : State :=
  (granules va n).foldl (fun (s : State) g =>
    let lo := max va (g * 65536)
    let hi := min (va + n) ((g + 1) * 65536)
    match lookupX outs g with
    | some (.mapped b p) =>
      (lineChunks (lo - g * 65536) (hi - lo)).foldl (fun (s : State) c => if p.cached (b + c.1) then f s p b c.1 c.2 else s) s
    | _ => s) s

/-- An engine's read brings the lines it misses into the L2 of the die it goes through, and into the home die's (R251),
at a class (R147); a read at .dev is made of the home die's line. -/
def State.fillLines (s : State) (outs : List (Nat × Xlat)) (va n : Nat) (dev : Bool) (ret : Option Retention) : State :=
  s.overLines outs va n fun s p b off _ =>
    let k := p.at b off
    match p.via with
    | some d => if dev then (s.homeLine d k ret).1 else (s.fetchLine d k ret false).1
    | none => (s.fetchLine k.home k ret false).1

/-- An engine's write finds its lines in the L2 of their home dies, where it is performed (R251), at a class (R147). -/
def State.openLines (s : State) (outs : List (Nat × Xlat)) (va n : Nat) (ret : Option Retention) : State :=
  s.overLines outs va n fun s p b off _ => let k := p.at b off; (s.fetchLine k.home k ret true).1

/-- What a core's own engine writes reaches a copy in the core's L1, since the engine's release and the team's acquire at
.core order them without dropping a line (R219, R226, R252; DEDUCED, log 83). -/
def State.patchCore (s : State) (core : Nat) (outs : List (Nat × Xlat)) (va : Nat) (bs : List Byte) : State :=
  s.overLines outs va bs.length fun s p b off n =>
    s.patchL1 core (p.at b off) (off % 128) ((bs.drop (p.g * 65536 + off - va)).take n)

/-- A load of a virtual range by a team at a place, through its outcomes. -/
def State.teamRead (s : State) (core : Nat) (outs : List (Nat × Xlat)) (va n : Nat) (pl : Place)
    : State × List Byte × Bool :=
  (granules va n).foldl (fun (a : State × List Byte × Bool) g =>
    let lo := max va (g * 65536)
    let hi := min (va + n) ((g + 1) * 65536)
    let (s1, bs, bad) := a.1.loadLines core ((lookupX outs g).getD .missing) (lo - g * 65536) (hi - lo) pl (some .normal)
    (s1, a.2.1 ++ bs, a.2.2 || bad)) (s, [], false)

/-- A store of a virtual range by a team at a place, through its outcomes. -/
def State.teamWrite (s : State) (core : Nat) (outs : List (Nat × Xlat)) (va : Nat) (bs : List Byte) (pl : Place)
    : State :=
  (granules va bs.length).foldl (fun (s : State) g =>
    let lo := max va (g * 65536)
    let hi := min (va + bs.length) ((g + 1) * 65536)
    s.storeLines core ((lookupX outs g).getD .missing) (lo - g * 65536) ((bs.drop (lo - va)).take (hi - lo)) pl
      (some .normal)) s

/-! ### Acquires, releases and invalidations (R163, R215, R252) -/

/-- Release at .dev or .sys: the dirty lines of the ASID whose home is another die are written back (R252). -/
def State.releaseLines (s : State) (die : Nat) (asid : BitVec 16) : State :=
  s.cleanL2 die fun l => l.asid == asid && l.home != die

/-- Lines of a die's L2 leave it, written back; those that a lock holds are fetched again (R252). -/
def State.dropL2 (s : State) (d : Nat) (p : Line → Bool) : State :=
  let s1 := s.cleanL2 d p
  let again := (s1.l2.getD d []).filter fun l => p l && s1.locked2 d l
  again.foldl (fun (s : State) l => (s.fetchLine d l (some l.ret) false).1) (s1.onL2 d fun ls => ls.filter fun l => !p l)

/-- Lines of an L1 leave it; those that a lock holds are fetched again (R252). -/
def State.dropL1 (s : State) (core : Nat) (p : Line → Bool) : State :=
  let c := s.core core
  let again := c.l1.filter fun l => p l && c.locked1 l
  again.foldl (fun (s : State) l =>
    let (s1, n) := s.fetchLine (coreDie core) l (some .normal) false
    s1.allocL1 core n l.ret) (s.onL1 core fun ls => ls.filter fun l => !p l)

/-- A prefetched copy of which some line is invalidated is stale (R85). -/
def Team.dropPrefetch (t : Team) (gone : Nat → Bool) : Team :=
  { t with b := t.b.map fun br =>
      if br.pf == 2 && (List.range (4 * br.copy.length)).any fun k => gone ((br.target.toNat + k) / 128)
      then { br with pf := 3, copy := [] } else br }

/-- The prefetches of the teams that `who` names, after an invalidation of lines of an ASID (R85; log 60). -/
def State.dropPrefetch (s : State) (who : Team → Bool) (asid : BitVec 16) (gone : Nat → Bool) : State :=
  { s with teams := replaceIf s.teams (fun u => who u && (s.ctx u.ctx).asid == asid) (Team.dropPrefetch · gone) }

/-- An acquire's lines (R252): at .die or wider, the L1 lines of the ASID; at .dev or .sys, those of the die's L2 whose
home is another die as well. -/
def State.acquireLines (s : State) (core : Nat) (asid : BitVec 16) (sc : Scope) : State :=
  let die := coreDie core
  let s1 := if sc == .dev || sc == .sys then s.dropL2 die fun l => l.asid == asid && l.home != die else s
  if sc == .die || sc == .dev || sc == .sys then
    (s1.dropL1 core (·.asid == asid)).dropPrefetch (·.core == core) asid fun _ => true
  else s1

/-- A release's lines (R252). -/
def State.releaseAt (s : State) (core : Nat) (asid : BitVec 16) (sc : Scope) : State :=
  if sc == .dev || sc == .sys then s.releaseLines (coreDie core) asid else s

/-- Dirty lines of some dies' L2s are written back: those of other home dies first, since they make lines of their home
die dirty, and then those of the dies' own (R251). -/
def State.cleanDies (s : State) (dies : List Nat) (p : Line → Bool) : State :=
  let s1 := dies.foldl (fun (s : State) d => s.cleanL2 d fun l => p l && l.home != d) s
  dies.foldl (fun (s : State) d => s.cleanL2 d p) s1

/-- Lines leave some dies' L2s, written back as `cleanDies` says; those that a lock holds are fetched again. -/
def State.dropDies (s : State) (dies : List Nat) (p : Line → Bool) : State :=
  dies.foldl (fun (s : State) d => s.dropL2 d p) (s.cleanDies dies p)

/-- Lines leave every cache of the device, written back; those that a lock holds are fetched again. -/
def State.dropLines (s : State) (p : Line → Bool) : State :=
  let s1 := s.dropDies (List.range 4) p
  (s1.cores.filter fun c => c.l1.any p).foldl (fun (s : State) c => s.dropL1 c.no p) s1

/-- Every dirty line of every L2 is written back. -/
def State.cleanAll (s : State) : State := s.cleanDies (List.range 4) fun _ => true

end Sys2Proof.Machine
end

