-- ==== Sys2Proof/Machine/Lanes.lean ====
section
/-! DEFINITION. Class 1: moves between lanes, votes, reductions and scans (spec 06, R124 to R135, R139; R57). -/

namespace Sys2Proof.Machine

/-! ### Shared computations -/

/-- The active rank of a lane (R105): active lanes numbered below it. -/
def Team.rank (t : Team) (l : Nat) : Nat := Mask.count t.act l

/-- A result written to a V destination in the lanes of a mask instead of the active ones (R131, R137, R139). -/
def Team.putIn (t : Team) (m : Mask) (d : Operand) (w64 : Bool) (f : Nat → Nat) : Team :=
  { ({ t with act := m } : Team).put d w64 f with act := t.act }

/-- An operation that moves values of .b32 or .b64 between lanes: `f` gives the value written in a lane from the
team's A values. -/
def laneMove (i : Instr) (o : F1) (f : Team → (Nat → Nat) → Nat → Nat) (s : State) : Result :=
  let w := (o.ext .b32).ty.is64
  issueF1 i s fun t => t.put o.d w (f t fun l => t.num w false false l o.a)

/-- The combination of a list of terms (R132), with its flags. -/
def redCombine (op : Nat) (ty : Ty) (sat : Bool) (terms : List Nat) : Nat × Flags :=
  if op == 0 then
    if ty == .f32 then Fmt.f32.exactSum .rne 0 (terms.map dec32)
    else
      let v := terms.foldl (fun acc x => acc + intOf ty x) 0
      (wrap ty.bits (if sat then Ty.clamp ty v else v), 0)
  else if op ≤ 2 then
    let isMax := op == 2
    if ty == .f32 then
      let good := terms.filter fun v => !(dec32 v).isNan
      let fl := Flags.when (terms.any fun v => (dec32 v).isSNan) flagNV
      if terms != [] && good.isEmpty then (Fmt.f32.canonicalNan, fl)
      else (good.foldl (fun acc v => (fpMinMax isMax acc v).1) (Fmt.f32.sign isMax + Fmt.f32.infBits), fl)
    else
      let vs := terms.map (intOf ty)
      (wrap ty.bits (if isMax then vs.foldl max (Ty.lo ty) else vs.foldl min (Ty.hi ty)), 0)
  else if op == 3 then (terms.foldl (· &&& ·) (2 ^ ty.bits - 1), 0)
  else if op == 4 then (terms.foldl (· ||| ·) 0, 0)
  else (terms.foldl (· ^^^ ·) 0, 0)

/-- A reduction or scan: `pick` gives the lanes whose terms the result of a lane combines (R133, R134). -/
def laneReduce (i : Instr) (o : F1) (pick : Team → X1 → Nat → List Nat) (s : State) : Result :=
  let x := o.ext .f32
  let w := x.ty.is64
  issueF1 i s fun t =>
    let a l := t.num w x.ty.isSigned (x.ty == .f32) l o.a
    t.putFlags o.d w fun l => redCombine (x.fn.extractLsb' 0 3).toNat x.ty x.sat ((pick t x l).map a)

/-! ### Moving values between lanes (R127 to R131) -/

/-- The lane SHFL reads from, or none when it is out of range (R127). -/
def shflLane (n : Nat) (fn : BitVec 6) (i b : Nat) : Option Nat :=
  let seg := (fn.extractLsb' 2 4).toNat
  let z := if seg == 0 then 1024 else 2 ^ seg
  let base := i / z * z
  let pos := i - base
  let q : Option Nat := match (fn.extractLsb' 0 2).toNat with
    | 0 => if b < z then some b else none
    | 1 => if b ≤ pos then some (pos - b) else none
    | 2 => if pos + b < z then some (pos + b) else none
    | _ => some (pos ^^^ b % z)
  q.bind fun q => if base + q < n then some (base + q) else none

/-- R127. -/
def execShfl (o : F1) (s : State) : Result :=
  laneMove (.shfl o) o (fun t a l => a ((shflLane t.n (o.ext .b32).fn l (t.word false l o.b).toNat).getD l)) s

/-- R128: the A value of lane b, whether lane b is active or not, as R128 writes it, although R124 lets only active lanes
supply values (DEDUCED, log 68). -/
def execBcast (o : F1) (s : State) : Result :=
  laneMove (.bcast o) o (fun t a _ =>
    if (o.ext .b32).fn == 1 then (t.lanes.head?.map a).getD 0
    else
      let b := (t.word false 0 o.b).toNat
      if b < t.n then a b else 0) s

/-- R129. -/
def voteOf (t : Team) (op : Nat) (m : Mask) (l : Nat) : Nat :=
  match op with
  | 0 => (m != 0).toNat
  | 1 => (m == t.act).toNat
  | 2 => (Mask.laneWord m (l / 32)).toNat
  | 3 => Mask.count m t.n
  | _ => (Mask.groups m).toNat

/-- R129: S is the set of active lanes in which the bit is true. -/
def execVote (o : F1) (s : State) : Result :=
  let x := o.ext .b32
  issueF1 (.vote o) s fun t =>
    let m := t.act &&& maskOf t.n fun l => t.cond l o.a != x.na
    t.put o.d false (voteOf t x.fn.toNat m)

/-- R130: D is one 32-bit register for a 64-bit type too, at any V code: a lane index needs no pair (DEDUCED, log 68). -/
def execMatchP (o : F1) (s : State) : Result :=
  let w := (o.ext .b32).ty.is64
  issueF1 (.matchP o) s fun t =>
    let a l := t.num w false false l o.a
    t.put o.d false fun l => (t.lanes.find? fun j => a j == a l).getD l

/-- R131: lanes past the selection keep D, or take 0 with ZF. -/
def execCompact (o : F1) (s : State) : Result :=
  let x := o.ext .b32
  let w := x.ty.is64
  issueF1 (.compact o) s fun t =>
    let sel := t.lanes.filter fun l => t.cond l o.b
    let m := if x.fn == 1 then t.act else t.act &&& maskOf t.n fun l => t.rank l < sel.length
    t.putIn m o.d w fun l =>
      match sel[t.rank l]? with
      | some j => t.num w false false j o.a
      | none => 0

/-! ### Reductions and scans (R133 to R135) -/

/-- R133. -/
def execReduce (o : F1) (s : State) : Result :=
  laneReduce (.reduce o) o (fun t x l => t.lanes.filter fun j => !x.fn.getLsbD 3 || j / 32 == l / 32) s

/-- R134. -/
def execScan (o : F1) (s : State) : Result :=
  laneReduce (.scan o) o (fun t x l => t.lanes.filter fun j =>
    (!x.fn.getLsbD 4 || j / 32 == l / 32) && (j < l || (j == l && !x.fn.getLsbD 3))) s

/-- The first lane of a lane's segment: the last head at or below it, or the first active lane (R134). -/
def segHead (t : Team) (o : F1) (l : Nat) : Nat :=
  ((t.lanes.filter fun j => j ≤ l && t.cond j o.b).getLast?).getD 0

/-- R134. -/
def execSegscan (o : F1) (s : State) : Result :=
  laneReduce (.segscan o) o (fun t x l => t.lanes.filter fun j =>
    decide (segHead t o l ≤ j) && (j < l || (j == l && !x.fn.getLsbD 3))) s

/-- One doubling step of a group (R57): element j combines with element j − d. -/
def lrStep (d : Nat) (xs : List LrPair) : List (LrPair × Flags) :=
  (List.range xs.length).map fun j =>
    if d ≤ j then lrCombine (xs.getD (j - d) none) (xs.getD j none) else (xs.getD j none, 0)

/-- The doubling steps of a group, with their flags. -/
def lrGroup : List Nat → List LrPair → Flags → List LrPair × Flags
  | [], xs, fl => (xs, fl)
  | d :: ds, xs, fl =>
    let ys := lrStep d xs
    lrGroup ds (ys.map (·.1)) (fl ||| Flags.all (ys.map (·.2)))

/-- The groups in order (R57): each lane's result is Combine(carry, x). -/
def lrGroups : List (List LrPair) → LrPair → Flags → List LrPair × Flags
  | [], _, fl => ([], fl)
  | g :: gs, carry, fl =>
    let (xs, f1) := lrGroup [1, 2, 4, 8, 16] g 0
    let rs := (xs.zip g).map fun (x, y) => if y.isSome then lrCombine carry x else (none, 0)
    let (next, f2) := if gs.isEmpty then (carry, 0) else lrCombine carry (xs.getD 31 none)
    let (rest, f3) := lrGroups gs next (fl ||| f1 ||| Flags.all (rs.map (·.2)) ||| f2)
    (rs.map (·.1) ++ rest, f3)

/-- The inclusive results of LRSCAN over all positions of the team's groups (R57, R135), with the flags. -/
def lrScan (t : Team) (o : F1) : List LrPair × Flags :=
  let lane (l : Nat) : LrPair :=
    if t.act.getLsbD l then some (t.word true l o.a, t.word true l o.b) else none
  let carry : LrPair := match o.third with
    | .s n => some (t.readS (n.toNat + 1), t.readS n.toNat)
    | _ => none
  lrGroups ((List.range ((t.n + 31) / 32)).map fun g => (List.range 32).map fun j => lane (32 * g + j)) carry 0

/-- R135: the b component in D, and the a component in D + 1 unless BONLY. -/
def execLrscan (o : F1) (s : State) : Result :=
  let bonly := (o.ext .f32).fn == 1
  issueF1 (.lrscan o) s fun t =>
    let (rs, fl) := lrScan t o
    let pair l := ((rs.getD l none).getD (0, 0))
    (t.put o.d (!bonly) fun l => (pair l).2.toNat + 2 ^ 32 * (if bonly then 0 else (pair l).1.toNat)).raise fl

/-- R139: each target lane that exists and has not exited combines the values sent to it, active or not. The flags of
every lane written are merged, an inactive one's too (DEDUCED, log 68). -/
def execSegred (o : F1) (s : State) : Result :=
  let x := o.ext .f32
  let w := x.ty.is64
  issueF1 (.segred o) s fun t =>
    let sent := t.lanes.map fun l => ((t.word false l o.b).toNat, t.num w x.ty.isSigned (x.ty == .f32) l o.a)
    let terms l := (sent.filter (·.1 == l)).map (·.2)
    let m := t.existing &&& ~~~t.exited &&& maskOf t.n fun l => sent.any (·.1 == l)
    let r l := redCombine (x.fn.extractLsb' 0 3).toNat x.ty x.sat
      ((if x.fn.getLsbD 3 then [t.num w false false l o.d] else []) ++ terms l)
    (t.putIn m o.d w fun l => (r l).1).raise (Flags.all ((Mask.lanes m t.n).map fun l => (r l).2))

end Sys2Proof.Machine
end

