-- ==== Sys2Proof/Machine/Mem.lean ====
section
/-! DEFINITION. Class 2 (spec 07): issue and completion of loads, stores, atomics, HACC, GATHER and SCATR, waits,
fences and residency. -/

namespace Sys2Proof.Machine

/-! ### Addresses and checks at issue (R144 to R146) -/

/-- The lanes in which a class 2 instruction acts: the active ones, or once for a scalar form (R144). -/
def Team.actLanes (t : Team) (o : F2) : List Nat := if o.vector then t.lanes else [0]

/-- The address of a lane (R67, R145); `idx` says that B is an index. -/
def Team.vaddr (t : Team) (o : F2) (idx : Bool) (l : Nat) : Nat :=
  let x := o.ext
  let z : DWord := BitVec.ofNat 64 (szBytes x.sz)
  let b : DWord := if idx then (t.word false l x.b).setWidth 64 else 0
  (t.dword false l o.a + b * z + x.imm.signExtend 64 * z).toNat

/-- The space of an access of a team: its cast's scratch, or its ASID. -/
def State.spaceOf (s : State) (t : Team) (scr : Bool) : Space :=
  if scr then .scratch t.cast else .virt (s.ctx t.ctx).asid

/-- Scratch size of the team's cast. -/
def State.scratchSize (s : State) (t : Team) : Nat := (s.cast? t.cast).elim 0 (·.size)

/-- A trap that names lanes: ADDR of the lowest failing lane, and the lane record in vector form (R145, R264). -/
def laneTrap (t : Team) (vec : Bool) (code : TrapCode) (fails : List (Nat × Nat)) : Option Trap :=
  match fails with
  | [] => none
  | (_, va) :: _ =>
    some { code := code, addr := BitVec.ofNat 64 va, lanes := if vec then t.laneRecord (fails.map (·.1)) else 0 }

/-- MISALIGNED, RANGE_LOCK and scratch PROTECTION of lane accesses of `z` bytes, in the order of R7; `store` selects
the ranges of R146. -/
def accessTraps (s : State) (t : Team) (o : F2) (accs : List (Nat × Nat)) (z : Nat) (store : Bool) : Option Trap :=
  let scr := szScratch o.ext.sz
  let fail (p : Nat → Bool) := accs.filter fun a => p a.2
  (laneTrap t o.vector .misaligned (fail fun va => va % z != 0)).or
    ((laneTrap t o.vector .rangeLock (fail fun va => s.rangeHit t.core (s.spaceOf t scr) va z store)).or
      (laneTrap t o.vector .protection (fail fun va => scr && decide (s.scratchSize t < va + z))))

/-- An outstanding entry of the instruction in hand (R68). -/
def Team.entry (t : Team) (c : Clause) (i : Instr) (o : F2) (seq since : Nat) : Outst :=
  { pos := c.pos, clause := t.clauseNo, instr := i, l := o.l.toNat, tk := o.tk.toNat, act := t.act, addrs := [],
    data := [], datb := [], args := [], block := [], needs := [], outs := [], fail := none, seq := seq, since := since,
    taken := false }

/-- The instruction becomes outstanding, and the clause goes on (R68). -/
def State.enqueue (s : State) (t : Team) (c : Clause) (e : Outst) : State :=
  ({ s with nextId := s.nextId + 1 } : State).done { t with outst := t.outst ++ [e] } c

/-- Is a 0xF8 literal among the data of the instruction sign-extended: it is the operand of an 8-byte .min or .max of
signed type, whose operation code alone shows that type (R27, R154; DEDUCED, log 69)? -/
def Instr.litSigned : Instr → Bool
  | .atom o => szBytes o.ext.sz == 8 && (o.ext.fn == 1 || o.ext.fn == 2)
  | _ => false

/-- The data of a lane: the low bytes of a run, or a constant (R144); `sx` says that a literal is sign-extended. -/
def Team.data (t : Team) (sx : Bool) (o : Operand) (r l : Nat) : Nat :=
  match o with
  | .lit32 w => if sx then (w.signExtend 64).toNat else w.toNat
  | .v n => (List.range r).foldr (fun k acc => (t.readV (n.toNat + k) l).toNat + 2 ^ 32 * acc) 0
  | .s n => (List.range r).foldr (fun k acc => (t.readS (n.toNat + k)).toNat + 2 ^ 32 * acc) 0
  | o => (t.word false l o).toNat

/-- Distinct granules of a list of addresses. -/
def granulesOf (scr : Bool) (accs : List (Nat × Nat)) : List Nat :=
  if scr then [] else (accs.map fun a => granule a.2).eraseDups

/-- A lane access instruction at issue: addresses (with B as an index or not) and the data it captures. With no lane it
accesses nothing and completes at issue (R145). -/
def issueAccess (i : Instr) (o : F2) (idx store : Bool) (dat : Option Operand) (datb : Option Operand)
    (empty : Team → Team) (s : State) : Result :=
  let z := szBytes o.ext.sz
  let accs (t : Team) := (t.actLanes o).map fun l => (l, t.vaddr o idx l)
  issue i s noTrap (fun s t _ => accessTraps s t o (accs t) z store) fun s t c =>
    let a := accs t
    let grab (d : Option Operand) := match d with
      | some d => (t.actLanes o).map fun l => (l, t.data (Instr.litSigned i) d o.run l % 2 ^ (8 * z))
      | none => []
    if a.isEmpty then s.done (empty t) c
    else s.enqueue t c { t.entry c i o s.nextId s.clk with
      addrs := a, data := grab dat, datb := grab datb, needs := granulesOf (szScratch o.ext.sz) a }

/-! ### Loads, stores and atomics at issue -/

/-- R149. -/
def execLd (o : F2) (s : State) : Result := issueAccess (.ld o) o true false none none id s
/-- R149. -/
def execSt (o : F2) (s : State) : Result := issueAccess (.st o) o true true (some o.d) none id s
/-- The counter of LDA (R151). -/
def ldaCounter (o : F2) : Nat := match o.ext.b with | .k n => n.toNat | _ => 0
/-- R151: with no active lane the counter still goes up. -/
def execLda (o : F2) (s : State) : Result :=
  issueAccess (.lda o) o false false none none (fun t => t.bumpK (ldaCounter o)) s
/-- R155. -/
def execAtom (o : F2) (s : State) : Result := issueAccess (.atom o) o false true (some o.ext.b) none id s
/-- R155. -/
def execAtomn (o : F2) (s : State) : Result := issueAccess (.atomn o) o true true (some o.d) none id s
/-- R156. -/
def execCas (o : F2) (s : State) : Result := issueAccess (.cas o) o false true (some o.ext.b) (some o.d) id s
/-- R159. -/
def execGather (o : F2) (s : State) : Result := issueAccess (.gather o) o true false none none id s
/-- R159. -/
def execScatr (o : F2) (s : State) : Result := issueAccess (.scatr o) o true true (some o.d) none id s

/-- Slot exponent c of HACC (R158). -/
def haccSlots (o : F2) : Nat := 2 ^ (o.ext.imm.extractLsb' 0 5).toNat

/-- R158: the whole table is checked before any slot is read, and fails in every active lane together. The value of
.fadd is a floating-point position, in which a constant is its FP32 value (R27). -/
def execHacc (o : F2) (s : State) : Result :=
  let scr := szScratch o.ext.sz
  let n := 8 * haccSlots o
  let base (t : Team) := (t.udword o.a).toNat
  issue (.hacc o) s noTrap
    (fun s t _ =>
      if t.lanes.isEmpty then none
      else
        let all := t.lanes.map fun l => (l, base t)
        if base t % 8 != 0 then laneTrap t true .misaligned all
        else if s.rangeHit t.core (s.spaceOf t scr) (base t) n true then laneTrap t true .rangeLock all
        else if scr && decide (s.scratchSize t < base t + n) then laneTrap t true .protection all
        else none)
    fun s t c =>
      if t.lanes.isEmpty then s.done t c
      else s.enqueue t c { t.entry c (.hacc o) o s.nextId s.clk with
        addrs := t.lanes.map fun l => (l, base t)
        data := t.lanes.map fun l => (l, (t.word false l o.d).toNat)
        datb := t.lanes.map fun l => (l, (t.word (o.ext.rh == 2) l o.ext.b).toNat)
        needs := if scr then [] else granules (base t) n }

/-! ### Waits, fences and residency at issue -/

/-- What an acquire does to lines when it completes (R252). -/
def State.acquire (s : State) (t : Team) (sc : Scope) : State :=
  let s1 := s.acquireLines t.core (s.ctx t.ctx).asid sc
  if sc == .none then s1 else s1.onCast t.cast fun c => c.caughtUp t.id fun _ => true

/-- An acquire of WAITB: for the copies of batches that have finished alone (R200). -/
def State.acquireCopies (s : State) (t : Team) (sc : Scope) : State :=
  let s1 := s.acquireLines t.core (s.ctx t.ctx).asid sc
  if sc == .none then s1
  else s1.onCast t.cast fun c => c.caughtUp t.id fun x =>
    x.copy.elim false fun (u, b) => u == t.id && decide (b < t.openSeq) && !t.sealed.contains b

/-- What a release does to lines before its write (R252). -/
def State.release (s : State) (t : Team) (sc : Scope) : State := s.releaseAt t.core (s.ctx t.ctx).asid sc

/-- The scope of a wait that may acquire. -/
def Instr.waitScope : Instr → Scope
  | .waitk o | .bwait o | .waitb o => o.ext.sc
  | _ => .none

/-- Has a counter reached a count (R152)? -/
def kReached (k n : BitVec 16) : Bool := decide ((k - n).toNat < 2 ^ 15)

/-- R152: completes at issue when the count is reached. -/
def execWaitk (o : F2) (s : State) : Result :=
  let k := match o.d with | .k n => n.toNat | _ => 0
  issue (.waitk o) s noTrap noTrap fun s t c =>
    let n := (t.uword o.a).setWidth 16
    if kReached (t.readK k) n then (s.done t c).acquire t o.ext.sc
    else s.enqueue t c { t.entry c (.waitk o) o s.nextId s.clk with args := [k, n.toNat] }

/-- Does the entry access memory? -/
def Outst.accesses (o : Outst) : Bool :=
  match o.instr with
  | .waitk _ | .bwait _ | .waitb _ | .xacq _ | .xrel _ | .bseal _ => false
  | i => !i.starts

/-- R162, R228: the fence waits until the team's earlier accesses are performed and, at .sys, its remote writes are
acknowledged (R241). -/
def execFence (o : F2) (s : State) : Result :=
  issue (.fence o) s noTrap noTrap fun s t c =>
    if t.unperformed.any Outst.accesses || (o.ext.sc == .sys && t.unacked != 0) then s
    else
      let s1 := if o.ext.fn == 1 then s else s.release t o.ext.sc
      let s2 := s1.done t c
      if o.ext.fn == 2 then s2 else s2.acquire t o.ext.sc

/-- The line of one address fetched for a prefetch (R161): into the die's L2, and for .core into the core's L1. An address
that is misaligned, or not mapped or not permitted or in error, is dropped. -/
def State.prefetchLine (s : State) (t : Team) (o : F2) (va : Nat) : State :=
  let m : Mode := { user := !t.svl, world := t.world, rd := true, wr := false, fetch := false,
                    via := some (coreDie t.core) }
  if va % szBytes o.ext.sz != 0 then s
  else match s.hitAnswer m (if o.ext.sc == .core then some t.core else none) (s.ctx t.ctx).asid [va / 128]
      (s.translateEither (s.ctx t.ctx) m (granule va)) with
  | .mapped b p =>
    let off := va % 65536
    if !p.cached (b + off) then s
    else
      let (s1, l) := s.fetchLine (coreDie t.core) (p.at b off) (retOf o.ext.rh) false
      if o.ext.sc == .core && (s1.l1? t.core l).isNone && l.bad == 0 then
        (retOf o.ext.rh).elim s1 fun r => if r == .stream then s1 else s1.allocL1 t.core l r
      else s1
  | _ => s

/-- R161: a prefetch fills lines, and changes no value that an access reads. -/
def execPfetch (o : F2) (s : State) : Result :=
  issue (.pfetch o) s noTrap noTrap fun s t c =>
    (((t.actLanes o).map fun l => t.vaddr o true l).foldl (fun (s : State) va => s.prefetchLine t o va) s).done t c

/-- The lines of a range (R160): first line and count. -/
def lineRange (a len : Nat) : List Nat :=
  if len == 0 then [] else (List.range ((a + len - 1) / 128 + 1 - a / 128)).map (a / 128 + ·)

/-- A residency instruction at issue: its base and length, and the granules LOCKL reads. -/
def issueRange (i : Instr) (o : F2) (translate : Bool) (s : State) : Result :=
  issue i s noTrap noTrap fun s t c =>
    let a := (t.udword o.a).toNat
    let n := (t.uword o.ext.b).toNat
    s.enqueue t c { t.entry c i o s.nextId s.clk with
      args := [a, n], needs := if translate then granules a n else [] }

/-- R160. -/
def execLockl (o : F2) (s : State) : Result := issueRange (.lockl o) o true s
/-- R160. -/
def execUnlockl (o : F2) (s : State) : Result := issueRange (.unlockl o) o false s
/-- R163. -/
def execCflush (o : F2) (s : State) : Result := issueRange (.cflush o) o false s
/-- R163. -/
def execCinval (o : F2) (s : State) : Result := issueRange (.cinval o) o false s

/-! ### Order between outstanding accesses of a team (R221, R226, R266) -/

/-- Does the instruction write memory? -/
def Instr.memWrites : Instr → Bool
  | .st _ | .atom _ | .atomn _ | .cas _ | .hacc _ | .scatr _ | .gscan _ | .spawn _ | .glaunch _ | .tqpush _ => true
  | _ => false

/-- The ranges an outstanding access touches: scratch or not, first byte, length. -/
def Outst.ranges (e : Outst) : List (Bool × Nat × Nat) :=
  match e.instr with
  | .hacc o => (e.addrs.take 1).map fun a => (szScratch o.ext.sz, a.2, 8 * haccSlots o)
  | .ld o | .st o | .lda o | .atom o | .atomn o | .cas o | .gather o | .scatr o =>
    e.addrs.map fun a => (szScratch o.ext.sz, a.2, szBytes o.ext.sz)
  | .lockl _ | .cflush _ | .cinval _ => [(false, e.args.getD 0 0, e.args.getD 1 0)]
  | .tqpush _ => e.addrs.map fun a => (false, a.2, 4)
  | _ => []

/-- The ranges of system-coherent pages, host pages and peer pages among those an entry touches, by what they are
outside the ASID: one location whatever virtual addresses reach it (R217, R258). -/
def Outst.coherent (e : Outst) : List (Nat × Nat × Nat) :=
  e.ranges.flatMap fun r =>
    if r.1 then []
    else (granules r.2.1 r.2.2).filterMap fun g =>
      let lo := max r.2.1 (g * 65536) - g * 65536
      let n := min (r.2.1 + r.2.2) ((g + 1) * 65536) - g * 65536 - lo
      match lookupX e.outs g with
      | some (.mapped b p) => if p.sysc then some (2, b + lo, n) else none
      | some (.host b) => some (3, b + lo, n)
      | some (.peer d b) => some (4 + d.toNat, b + lo, n)
      | _ => none

/-- Every location an entry is known to touch: scratch, virtual, and coherent memory (R217). -/
def Outst.places (e : Outst) : List (Nat × Nat × Nat) := e.ranges.map (fun r => (r.1.toNat, r.2)) ++ e.coherent

/-- Do two ranges meet in a block of `u` bytes? -/
def meet (u : Nat) (x y : Nat × Nat × Nat) : Bool :=
  x.1 == y.1 && x.2.2 != 0 && y.2.2 != 0 && decide (x.2.1 / u ≤ (y.2.1 + y.2.2 - 1) / u) && decide (y.2.1 / u ≤ (x.2.1 + x.2.2 - 1) / u)

/-- Has every granule that the entry needs been answered? -/
def Outst.answered (e : Outst) : Bool := e.needs.all fun g => e.outs.any (·.1 == g)

/-- Do two accesses of a team meet: in a 128-byte line where one writes (R266), or in a byte where both read, since no
later read returns an older value (R223)? An access to coherent memory may meet one that is not translated yet (R217). -/
def Outst.meets (e l : Outst) (writes : Bool) : Bool :=
  (e.places.any fun x => l.places.any (meet (if writes then 128 else 1) x))
    || (!l.coherent.isEmpty && !e.answered && e.ranges.any (!·.1))

/-- An acquire: later accesses are performed after it (R228). -/
def Instr.acquires : Instr → Bool
  | .ld o => o.ext.fn.getLsbD 1
  | .atom o | .atomn o | .cas o => o.ext.rh.getLsbD 0
  | .waitk o | .bwait o | .waitb o => o.ext.sc != .none
  | .gscan _ => true
  | _ => false

/-- A release: it is performed after earlier accesses (R228). -/
def Instr.releases : Instr → Bool
  | .st o => o.ext.fn.getLsbD 1
  | .atom o | .atomn o | .cas o => o.ext.rh.getLsbD 1
  | .gscan _ | .spawn _ | .glaunch _ | .tqpush _ => true
  | i => i.starts

/-- A release at .sys waits for the team's remote writes (R241). -/
def Instr.sysRelease : Instr → Bool
  | .st o => o.ext.fn.getLsbD 1 && o.ext.sc == .sys
  | .atom o | .atomn o | .cas o => o.ext.rh.getLsbD 1 && o.ext.sc == .sys
  | _ => false

/-- CFLUSH and CINVAL act on what the earlier stores to their lines have written, and before the later ones (R163). -/
def Outst.maintains (e : Outst) : Bool := match e.instr with | .cflush _ | .cinval _ => true | _ => false

/-- LOCKL reads its range (R259) and returns nothing of it. -/
def Outst.locks (e : Outst) : Bool := match e.instr with | .lockl _ => true | _ => false

/-- The later entry is performed after the earlier one. -/
def mustFollow (e l : Outst) : Bool :=
  let writes := e.maintains || l.maintains || Instr.memWrites e.instr || Instr.memWrites l.instr
  Instr.acquires e.instr || (Instr.releases l.instr && e.accesses)
    || ((writes || !(e.locks || l.locks)) && e.meets l writes)

/-- May the entry be performed now, as the order of the team's accesses goes? -/
def Team.inOrder (t : Team) (e : Outst) : Bool :=
  !(t.unperformed.any fun p => decide (p.seq < e.seq) && mustFollow p e) && (!Instr.sysRelease e.instr || t.unacked == 0)

/-! ### Completion -/

/-- The entry leaves: its token may clear, which ends a YIELD wait (R69, R95), and the clause may end. -/
def Team.drop (t : Team) (clk : Nat) (e : Outst) : Team :=
  let rest := t.outst.filter (·.seq != e.seq)
  let cleared := e.tk != 0 && !rest.any (·.tk == e.tk)
  ({ t with outst := rest, yield := if cleared then none else t.yield } : Team).closeClause Outst.checked clk

/-- The registers that an entry writes as they stand before its results, when an instruction may read them against the
promise of R68 (R71). -/
def Team.shadowsOf (t : Team) (e : Outst) : List Shadow :=
  if t.lchk || (e.l == 0 && e.tk == 0) then []
  else (Instr.f2Writes e.instr).map fun r =>
    { tk := e.tk, clause := e.clause, upto := e.pos + e.l, reg := r, old := (List.range t.n).map (t.regWord r) }

/-- An outstanding instruction completes with a change of its team (R70). -/
def State.complete (s : State) (t : Team) (e : Outst) : State :=
  s.putTeam (({ t with shadows := t.shadows ++ (s.team? t.id).elim [] (·.shadowsOf e) } : Team).drop s.clk e)

/-- A trap met at completion: held in the entry, or late when the entry's clause has ended (R265, R267). R267 speaks of loads
alone: a late MEMORY_ERROR of an ATOM, a CAS or a HACC with a token is entered as a load's is, with RK 2 and INFO 1, where
R157 gives RK 0 for one within its clause (DEDUCED, log 73). -/
def State.failEntry (s : State) (t : Team) (e : Outst) (tr : Trap) : State :=
  if e.clause == t.clauseNo then
    s.setTeam { t with outst := replaceIf t.outst (·.seq == e.seq) fun e => { e with fail := some tr } }
  else
    s.putTeam ({ t with late := t.late ++ [{ tr with info := 1 }] }.drop s.clk e)

/-- Values written to a register run in the lanes that a mask names (R143). -/
def Team.writeRun (t : Team) (d : Operand) (r : Nat) (ok : Nat → Bool) (vals : List (Nat × Nat)) : Team :=
  let val (k l : Nat) : Word := BitVec.ofNat 32 (((vals.find? (·.1 == l)).elim 0 (·.2)) >>> (32 * k))
  match d with
  | .v n =>
    let m := maskOf t.n fun l => ok l && vals.any (·.1 == l)
    (List.range r).foldl (fun t k => t.writeV (n.toNat + k) m (val k)) t
  | .s n => if vals.isEmpty || !ok 0 then t else (List.range r).foldl (fun t k => t.writeS (n.toNat + k) (val k 0)) t
  | _ => t

/-- A loaded value in its register (R149): sign- or zero-extended when it is 1 or 2 bytes. -/
def loadExtend (z : Nat) (sx : Bool) (v : Nat) : Nat :=
  if sx && z ≤ 2 then wrap 32 (intOf (if z == 1 then .s8 else .s16) v) else v

/-- SX of a load: bit 14 of X2 (R142, R149). -/
def loadSx (o : F2) : Bool := o.ext.fn.getLsbD 2

/-- Where a class 2 access is performed (R154, R159, R248, R251). -/
def Instr.place : Instr → Place
  | .ld o | .st o | .atom o | .atomn o | .cas o | .hacc o => placeOf o.ext.sc false
  | .gather _ | .scatr _ => .l2
  | _ => .l1

/-- The class at which a class 2 access allocates (R147): by its hint, or default where RH is no hint. -/
def Instr.ret : Instr → Option Retention
  | .ld o | .st o | .lda o | .gather o | .scatr o => retOf o.ext.rh
  | _ => some .normal

/-- A load of one lane: from scratch of the team's cast, or through its translation at the instruction's place; the
bytes, and whether they are uncorrectable. -/
def State.aload (s : State) (t : Team) (e : Outst) (scr : Bool) (va n : Nat) : State × List Byte × Bool :=
  if scr then (s, (s.cast? t.cast).elim [] fun c => c.sread va n, (s.cast? t.cast).elim false fun c => c.sbad va n)
  else s.loadAt t.core ((lookupX e.outs (granule va)).getD .missing) (va % 65536) n (Instr.place e.instr) (Instr.ret e.instr)

/-- The bytes a load of one lane would return. -/
def State.aread (s : State) (t : Team) (e : Outst) (scr : Bool) (va n : Nat) : List Byte := (s.aload t e scr va n).2.1

/-- Would that load meet an uncorrectable error? -/
def State.abad (s : State) (t : Team) (e : Outst) (scr : Bool) (va n : Nat) : Bool := (s.aload t e scr va n).2.2

/-- A store of one lane. -/
def State.astore (s : State) (t : Team) (e : Outst) (scr : Bool) (va : Nat) (bs : List Byte) : State :=
  if scr then s.onCast t.cast fun c => c.swrite va bs
  else s.storeAt t.core ((lookupX e.outs (granule va)).getD .missing) (va % 65536) bs (Instr.place e.instr)
    (Instr.ret e.instr)

/-- The peer address of an access, when its page is a peer's. -/
def peerOf (outs : List (Nat × Xlat)) (va : Nat) : Option (BitVec 19 × Nat) :=
  match lookupX outs (granule va) with
  | some (.peer d b) => some (d, b + va % 65536)
  | _ => none

/-- The load of one lane. -/
def State.tload (s : State) (t : Team) (e : Outst) (scr : Bool) (va n : Nat) : State × List Byte × Bool :=
  if !scr then s.aload t e scr va n
  else match s.cast? t.cast with
  | none => (s, [], false)
  | some c =>
    let (c1, bs) := c.view t.id s.freeCtr va n
    (s.onCast c.id fun _ => c1, bs, c.sbad va n)

/-- The lanes of a load in ascending order: the state after them, the loaded values, and the lanes that meet an
uncorrectable error. -/
def loadLanes (t : Team) (e : Outst) (z : Nat) (scr sx : Bool) :
    List (Nat × Nat) → State → State × List (Nat × Nat) × List (Nat × Nat)
  | [], s => (s, [], [])
  | (l, va) :: rest, s =>
    let (s1, bs, bad) := s.tload t e scr va z
    let (s2, vals, bads) := loadLanes t e z scr sx rest s1
    (s2, (l, loadExtend z sx (leNat bs)) :: vals, if bad then (l, va) :: bads else bads)

/-- The lanes of a load whose granule is mapped. -/
def mappedLanes (e : Outst) (scr : Bool) : List (Nat × Nat) :=
  e.addrs.filter fun a => scr || ((lookupX e.outs (granule a.2)).elim false Xlat.isMapped)

/-- A load performed in lanes of its own. -/
def State.loads (s : State) (t : Team) (e : Outst) (o : F2) (sx : Bool) (lanes : List (Nat × Nat)) :
    State × List (Nat × Nat) × List (Nat × Nat) :=
  loadLanes t e (szBytes o.ext.sz) (szScratch o.ext.sz) sx lanes s

/-- The values that a load returns in the lanes whose granule is mapped. -/
def State.loaded (s : State) (t : Team) (e : Outst) (o : F2) (sx : Bool) : List (Nat × Nat) :=
  (s.loads t e o sx (mappedLanes e (szScratch o.ext.sz))).2.1

/-- The scope of an acquire load; none for another. -/
def loadAcquire : Instr → Scope
  | .ld o => if o.ext.fn.getLsbD 1 then o.ext.sc else .none
  | _ => .none

/-- A load completes (R149), or meets an uncorrectable error in some lanes (R274). -/
def completeLoad (s : State) (t : Team) (e : Outst) (o : F2) (sx : Bool) (after : Team → Team) : State :=
  let (s1, vals, bad) := s.loads t e o sx (mappedLanes e (szScratch o.ext.sz))
  match laneTrap t o.vector .memoryError bad with
  | some tr =>
    -- each lane of the destination holds its old value or the loaded one (R150, R267)
    let free := Config.freeLanes s.freeCtr
    let t' := t.writeRun o.d o.run (fun l => free.getLsbD l && !(bad.any (·.1 == l))) vals
    ({ s1 with freeCtr := s.freeCtr + 1 } : State).failEntry t' e tr
  | none =>
    (s1.complete (after (t.writeRun o.d o.run (fun _ => true) vals)) e).acquire t (loadAcquire e.instr)

/-- The address and payload of the flit that writes bytes of one line, given as runs: the bytes themselves where they are
one run; else a byte mask and the line (DESIGN CHOICE, log 24). -/
def linePayload : List (Nat × List Byte) → Nat × List Byte
  | [r] => r
  | rs =>
    let line := (rs.headD (0, [])).1 / 128 * 128
    let m := rs.foldl (fun m r => m ||| lineMask (r.1 - line) r.2.length) 0#128
    (line, leBytes 16 m.toNat ++ rs.foldl (fun (l : List Byte) r =>
      l.take (r.1 - line) ++ r.2 ++ l.drop (r.1 - line + r.2.length)) (List.replicate 128 0))

/-- The flits that write a sorted byte map: one for each line (R355). -/
def lineFlits (m : List Host.Cell) : List (Nat × List Byte) :=
  let rs := lineRuns m
  ((rs.map (·.1 / 128)).eraseDups).map fun k => linePayload (rs.filter (·.1 / 128 == k))

/-- Remote stores sent for the bytes of peer pages (R355), for a team or an engine operation of key `key`. -/
def State.remoteStores (s : State) (key ctx : Nat) (world : Bool) (ws : List (BitVec 19 × Nat × List Byte)) : State :=
  let devs := (ws.map (·.1)).eraseDups
  devs.foldl (fun (s : State) d =>
    let m := (ws.filter (·.1 == d)).foldl (fun m w => byteMap m w.2.1 w.2.2) []
    (lineFlits m).foldl (fun (s : State) r =>
      let s' := s.request 1 d (BitVec.ofBool world ++ 0#7) r.1 r.2
        fun n p => { team := key, ctx := ctx, dst := d, seq := n, atomic := false, lane := none, port := p }
      s'.onTeam key fun t => { t with unacked := t.unacked + 1 }) s) s

/-- The scope of a release store; none for another. -/
def storeRelease : Instr → Scope
  | .st o => if o.ext.fn.getLsbD 1 then o.ext.sc else .none
  | _ => .none

/-- The location of an access (R217): its address in scratch or in the ASID; in coherent memory, host memory or a peer's,
the address there, whatever virtual address reaches it. -/
def Outst.location (e : Outst) (scr : Bool) (va : Nat) : Nat × Nat :=
  let off := va % 65536
  match if scr then none else lookupX e.outs (granule va) with
  | some (.mapped b p) => if p.sysc then (1, b + off) else (0, va)
  | some (.host b) => (2, b + off)
  | some (.peer d b) => (3 + d.toNat, b + off)
  | _ => (0, va)

/-- Has some lane above lane `l` the location of its access? -/
def Outst.covered (e : Outst) (scr : Bool) (lanes : List (Nat × Nat)) (a : Nat × Nat) : Bool :=
  lanes.any fun b => decide (a.1 < b.1) && e.location scr b.2 == e.location scr a.2

/-- The bytes a store writes in some of its lanes: each lane's address with its data. A lane writes nothing where a
higher lane of the store has its location: no read ever observes such a value (R149, R222). -/
def storeBytes (e : Outst) (o : F2) (lanes : List (Nat × Nat)) : List (Nat × List Byte) :=
  (lanes.filter fun a => !e.covered (szScratch o.ext.sz) e.addrs a).map fun a =>
    (a.2, leBytes (szBytes o.ext.sz) ((e.data.find? (·.1 == a.1)).elim 0 Prod.snd))

/-- The lanes of a store performed. -/
def State.stores (s : State) (t : Team) (e : Outst) (o : F2) (ws : List (Nat × List Byte)) : State :=
  ws.foldl (fun (s : State) w => s.astore t e (szScratch o.ext.sz) w.1 w.2) s

/-- A store is performed (R149, R150): a release first writes back what R252 asks for; the bytes of a peer page leave as
flits. -/
def performStore (s : State) (t : Team) (e : Outst) (o : F2) : State :=
  let ws := storeBytes e o e.addrs
  let remote := if szScratch o.ext.sz then []
    else ws.filterMap fun w => (peerOf e.outs w.1).map fun p => (p.1, p.2, w.2)
  ((s.release t (storeRelease e.instr)).stores t e o ws).remoteStores t.id t.ctx t.world remote

/-- A store is performed and completes. -/
def completeStore (s : State) (t : Team) (e : Outst) (o : F2) : State := performStore (s.complete t e) t e o

/-- The new value of an atomic (R155) on w-bit values. -/
def atomicNew (op w old x : Nat) : Nat :=
  let s : Ty := if w == 64 then .s64 else .s32
  match op with
  | 0 => (old + x) % 2 ^ w
  | 1 => wrap w (min (intOf s old) (intOf s x))
  | 2 => wrap w (max (intOf s old) (intOf s x))
  | 3 => min old x
  | 4 => max old x
  | 5 => old &&& x
  | 6 => old ||| x
  | _ => x

/-- The scope at which an atomic acquires (bit 0 of its order) or releases (bit 1); none where it does not (R154). -/
def atomicScope (i : Instr) (bit : Nat) : Scope :=
  match i with
  | .atom o | .atomn o | .cas o => if o.ext.rh.getLsbD bit then o.ext.sc else .none
  | _ => .none

/-- The lanes of an atomic in ascending order (R154): each an indivisible step at its place; a step on a peer page is a
flit. Stops at a lane that meets an uncorrectable error (R157). `vals` collects the old values. -/
def atomicLanes (t : Team) (e : Outst) (z op : Nat) (scr : Bool) :
    List (Nat × Nat) → State → List (Nat × Nat) → State × List (Nat × Nat) × Option (Nat × Nat)
  | [], s, vals => (s, vals, none)
  | (l, va) :: rest, s, vals =>
    let (s0, bs, bad) := s.aload t e scr va z
    if bad then (s0, vals, some (l, va))
    else
      let x := (e.data.find? (·.1 == l)).elim 0 Prod.snd
      let y := (e.datb.find? (·.1 == l)).elim 0 Prod.snd
      match if scr then none else peerOf e.outs va with
      | some (d, pa) =>
        let opc : BitVec 8 := BitVec.ofBool t.world ++ 0#2 ++ BitVec.ofBool (z == 8) ++ BitVec.ofNat 4 op
        let data := if op == 8 then leBytes z y ++ leBytes z x else leBytes z x
        let s' := s.request 2 d opc pa data
          fun n p => { team := t.id, ctx := t.ctx, dst := d, seq := n, atomic := true,
                       lane := some (e.pos, e.clause, l), port := p }
        atomicLanes t e z op scr rest s' vals
      | none =>
        let old := leNat bs
        let new := if op == 8 then (if old == y then x else old) else atomicNew op (8 * z) old x
        atomicLanes t e z op scr rest (s0.astore t e scr va (leBytes z new)) (vals ++ [(l, old)])

/-- Is a remote step of the entry unanswered? -/
def State.awaiting (s : State) (t : Team) (e : Outst) : Bool :=
  s.remotes.any fun r => r.team == t.id && (r.lane.elim false fun (p, c, _) => p == e.pos && c == e.clause)

/-- An atomic completes (R155, R156): the old values in D, where it returns them. With remote steps one that returns them
stays outstanding until they are answered (R355); one that returns nothing has completed (R70). At an uncorrectable error the lanes before it stand, D among them (R157). -/
def completeAtomic (s : State) (t : Team) (e : Outst) (o : F2) (op : Nat) (ret : Bool) : State :=
  let z := szBytes o.ext.sz
  let (s1, vals, bad) := atomicLanes t e z op (szScratch o.ext.sz) e.addrs (s.release t (atomicScope e.instr 1)) []
  let t' := if ret then t.writeRun o.d o.run (fun _ => true) vals else t
  match bad with
  | some (l, va) =>
    s1.failEntry t' e { code := .memoryError, addr := BitVec.ofNat 64 va,
                        lanes := if o.vector then t.laneRecord [l] else 0 }
  | none =>
    if s1.awaiting t e then
      if ret then s1.setTeam { t' with outst := replaceIf t'.outst (·.seq == e.seq) fun e => { e with sent := true } }
      else s1.complete { t' with posted := t'.posted ++ [{ e with sent := true }] } e
    else (s1.complete t' e).acquire t (atomicScope e.instr 0)

/-! ### Stores that complete before they are performed (R70) -/

/-- May the access complete before it is performed: a store, or an atomic without a result that meets no uncorrectable
error, whose translation and checks are done (R70, R157)? -/
def State.postable (s : State) (t : Team) (e : Outst) : Bool :=
  let sound (o : F2) := !e.addrs.any fun a => s.abad t e (szScratch o.ext.sz) a.2 (szBytes o.ext.sz)
  !e.sent && match e.instr with
  | .st _ => true
  | .scatr o => o.ext.fn != 1 || sound o
  | .atomn o => sound o
  | _ => false

/-- The access completes and is performed later. -/
def State.post (s : State) (t : Team) (e : Outst) : State := s.complete { t with posted := t.posted ++ [e] } e

/-- An atomic without a result, posted before, is performed; with remote steps it stays until they are answered. An
error that has arisen since it completed is taken as one of an earlier clause is (log 73). -/
def performAtomic (s : State) (t : Team) (e : Outst) (o : F2) (op : Nat) : State :=
  let rest := t.posted.filter (·.seq != e.seq)
  let (s1, _, bad) := atomicLanes t e (szBytes o.ext.sz) op (szScratch o.ext.sz) e.addrs
    (s.release t (atomicScope e.instr 1)) []
  match bad with
  | some (l, va) =>
    let tr : Trap := { code := .memoryError, addr := BitVec.ofNat 64 va,
                       lanes := if o.vector then t.laneRecord [l] else 0, info := 1 }
    s1.onTeam t.id fun u => { u with posted := rest, late := u.late ++ [tr] }
  | none =>
    if s1.awaiting t e then
      s1.onTeam t.id fun u => { u with posted := replaceIf u.posted (·.seq == e.seq) fun e => { e with sent := true } }
    else (s1.onTeam t.id fun u => { u with posted := rest }).acquire t (atomicScope e.instr 0)

/-- A posted access is performed. -/
def State.perform (s : State) (t : Team) (e : Outst) : State :=
  let s0 := s.onTeam t.id fun u => { u with posted := u.posted.filter (·.seq != e.seq) }
  if e.sent then s0.acquire t (atomicScope e.instr 0)
  else match e.instr with
  | .scatr o => if o.ext.fn == 1 then performAtomic s t e o 0 else performStore s0 t e o
  | .atomn o => performAtomic s t e o o.ext.fn.toNat
  | .st o => performStore s0 t e o
  | _ => s0

/-- The operation of HACC on a slot value (R158). -/
def haccOp (rh : Nat) (old v : Nat) : Nat :=
  match rh with
  | 0 => (old + v) % 2 ^ 32
  | 1 => max old v
  | _ => (Fmt.f32.add .rne 0 (dec32 old) (dec32 v)).1

/-- The probing loop of one lane (R158): the slot to write with its key and value; none when it is not placed. -/
def haccProbe (rd : Nat → Nat) (slots rh k v : Nat) : Nat → Option (Nat × Nat × Nat)
  | 0 => none
  | n + 1 =>
    let sl := (k + (7 - n)) % slots
    let key := rd (8 * sl)
    if key == k then some (sl, k, haccOp rh (rd (8 * sl + 4)) v)
    else if key == 0xFFFFFFFF then some (sl, k, v)
    else haccProbe rd slots rh k v n

/-- The lanes of HACC in ascending order (R158), up to the first that is not placed. -/
def haccLanes (t : Team) (e : Outst) (o : F2) : List (Nat × Nat) → State → List Nat → State × List Nat × Option Nat
  | [], s, placed => (s, placed, none)
  | (l, base) :: rest, s, placed =>
    let scr := szScratch o.ext.sz
    let slots := haccSlots o
    let k := (e.data.find? (·.1 == l)).elim 0 Prod.snd
    let v := (e.datb.find? (·.1 == l)).elim 0 Prod.snd
    let rd (off : Nat) := leNat (s.aread t e scr (base + off) 4)
    let slot (j : Nat) := (k + j) % slots
    let badAt (j : Nat) := s.abad t e scr (base + 8 * slot j) 8
    -- the first probe that meets an error, the key or an empty slot
    let stop := (List.range 8).find? fun j => badAt j || rd (8 * slot j) == k || rd (8 * slot j) == 0xFFFFFFFF
    -- the slots read show what engines have written there: the team meets nothing older afterwards (R223)
    let probed (x : Lag) : Bool := (List.range (stop.elim 8 (· + 1))).any fun j =>
      overlaps (base + 8 * slot j) 8 x.off x.old.length
    let s := if scr && k != 0xFFFFFFFF then s.onCast t.cast fun c => c.caughtUp t.id probed else s
    if k != 0xFFFFFFFF && stop.any badAt then (s, placed, some l)
    else
      match if k == 0xFFFFFFFF then none else haccProbe rd slots o.ext.rh.toNat (k % 2 ^ 32) v 8 with
      | some (sl, key, val) =>
        let s1 := (s.aload t e scr (base + 8 * sl) 8).1
        haccLanes t e o rest (s1.astore t e scr (base + 8 * sl) (leBytes 4 key ++ leBytes 4 val)) (placed ++ [l])
      | none => (s, placed, none)

/-- Does the table of a HACC lie in a peer's memory? -/
def Outst.peerTable (e : Outst) : Bool :=
  !e.sent && e.outs.any fun x => match x.2 with
    | .peer .. => true
    | _ => false

/-- HACC on a peer's page: one flit for each active lane, whose step the peer performs (R241, R355). The spec gives the
operation no code, and the flit no payload layout: the code is free, and key and value follow one another (log 72). -/
def State.sendHacc (s : State) (t : Team) (e : Outst) (o : F2) : State :=
  let s1 := e.addrs.foldl (fun (s : State) a =>
    match peerOf e.outs a.2 with
    | none => s
    | some (d, pa) =>
      let word (vs : List (Nat × Nat)) := leBytes 4 ((vs.find? (·.1 == a.1)).elim 0 Prod.snd)
      s.request 2 d (BitVec.ofBool t.world ++ 0#3 ++ Config.haccCode o.ext.rh) pa (word e.data ++ word e.datb)
        fun n p => { team := t.id, ctx := t.ctx, dst := d, seq := n, atomic := true,
                     lane := some (e.pos, e.clause, a.1), port := p }) s
  s1.onTeam t.id fun u => { u with outst := replaceIf u.outst (·.seq == e.seq) fun e => { e with sent := true } }

/-- HACC completes: the status predicate in the active lanes (R158), or in those before an uncorrectable error (R157);
`args` names lanes placed earlier. -/
def completeHacc (s : State) (t : Team) (e : Outst) (o : F2) : State :=
  let (s1, placed, bad) := haccLanes t e o e.addrs s []
  let put (m : Mask) : Team := t.writeP o.ext.fn.toNat m (maskOf t.n fun l => placed.contains l || e.args.contains l)
  match bad with
  | some l =>
    s1.failEntry (put (e.act &&& lanesBelow l)) e
      { code := .memoryError, addr := BitVec.ofNat 64 ((e.addrs.head?).elim 0 Prod.snd), lanes := t.laneRecord [l] }
  | none => s1.complete (put e.act) e

/-! ### Residency (R160, R163, R243, R254) -/

/-- The locks a level holds (R160): core L1 or die L2. -/
def State.locksAt (s : State) (t : Team) (core : Bool) : List LineLock :=
  if core then (s.core t.core).locks else (s.locks2.filter (·.1 == coreDie t.core)).map (·.2)

/-- Would locking lines leave a set over its lockable ways (R254)? A line already locked, by any context of the ASID,
takes no further way. -/
def State.setsFull (s : State) (t : Team) (core : Bool) (asid : BitVec 16) (lines : List Nat) : Bool :=
  let w := partWays (s.core t.core).partw
  let held := lockedLines (s.locksAt t core)
  let new := lines.filter fun n => !held.contains (asid, n)
  new.any fun n =>
    if core then decide (w < 2 + s.setUse t.core (n % 256) + (new.filter fun m => m % 256 == n % 256).length)
    else
      decide (12 < (held.filter fun k => l2Set k.2 == l2Set n).length + (new.filter fun m => l2Set m == l2Set n).length)

/-- A locked line is brought into its cache (R160): into the die's L2, and for a lock at .core into the core's L1. A page
that is never cached holds no line. -/
def State.bringLocked (s : State) (t : Team) (outs : List (Nat × Xlat)) (core : Bool) (n : Nat) : State :=
  match lookupX outs (n / 512) with
  | some (.mapped b p) =>
    let off := n % 512 * 128
    if !p.cached (b + off) then s
    else
      let (s1, l) := s.fetchLine (coreDie t.core) (p.at b off) (some .normal) false
      if core && (s1.l1? t.core l).isNone then s1.allocL1 t.core l .normal else s1
  | _ => s

/-- LOCKL completes (R160, R254): STAT 1 before STAT 2; all or nothing. -/
def completeLockl (s : State) (t : Team) (e : Outst) (o : F2) : State :=
  let core := o.ext.sc == .core
  let c := s.ctx t.ctx
  let mine := (s.locksAt t core).filter fun k => k.ctx == t.ctx
  let new := (lineRange (e.args.getD 0 0) (e.args.getD 1 0)).filter fun n =>
    !mine.any fun k => k.line == n && k.asid == c.asid
  let quota := if core then (((s.core t.core).partw.extractLsb' 17 4).toNat) * 256 else 32768
  let stat : Nat := if quota < mine.length + new.length then 1 else if s.setsFull t core c.asid new then 2 else 0
  let locks := new.map fun n => ({ ctx := t.ctx, asid := c.asid, line := n } : LineLock)
  let s1 := if stat != 0 then s
    else if core then s.onCore t.core fun k => { k with locks := k.locks ++ locks }
    else { s with locks2 := s.locks2 ++ locks.map fun k => (coreDie t.core, k) }
  let s2 := if stat != 0 then s1 else new.foldl (fun (s : State) n => s.bringLocked t e.outs core n) s1
  let w : Word := BitVec.ofNat 2 stat ++ BitVec.ofNat 30 (if stat == 0 then new.length else 0)
  s2.complete (t.writeRun o.d 1 (fun _ => true) [(0, w.toNat)]) e

/-- The locks of a level that cover a range for the team's context (`any` for every context of the ASID). -/
def lockCovered (c : Context) (t : Team) (any : Bool) (lines : List Nat) (k : LineLock) : Bool :=
  k.asid == c.asid && (any || k.ctx == t.ctx) && lines.contains k.line

/-- Locks released at the given levels. -/
def State.unlock (s : State) (t : Team) (core die dev any : Bool) (lines : List Nat) : State :=
  let c := s.ctx t.ctx
  let hit := lockCovered c t any lines
  let s1 := if core then s.onCore t.core fun k => { k with locks := k.locks.filter fun l => !hit l } else s
  if die then
    { s1 with locks2 := s1.locks2.filter fun (d, l) => !(hit l && (dev || d == coreDie t.core)) }
  else s1

/-- UNLOCKL completes (R160). -/
def completeUnlockl (s : State) (t : Team) (e : Outst) (o : F2) : State :=
  let core := o.ext.sc == .core
  let lines := lineRange (e.args.getD 0 0) (e.args.getD 1 0)
  let n := ((s.locksAt t core).filter (lockCovered (s.ctx t.ctx) t false lines)).length
  (s.unlock t core (!core) false false lines).complete
    (t.writeRun o.d 1 (fun _ => true) [(0, n % 2 ^ 30)]) e

/-- The lines of a residency instruction (R160). -/
def Outst.lines (e : Outst) : List Nat := lineRange (e.args.getD 0 0) (e.args.getD 1 0)

/-- The lines of the ASID that a maintenance instruction covers. -/
def maintained (s : State) (t : Team) (e : Outst) (l : Line) : Bool :=
  l.asid == (s.ctx t.ctx).asid && e.lines.contains l.line

/-- The dies whose L2 a maintenance instruction reaches (R163). -/
def diesReached (t : Team) (sc : Scope) : List Nat :=
  match sc with
  | .die => [coreDie t.core]
  | .dev | .sys => List.range 4
  | _ => []

/-- CFLUSH completes: every dirty line is written back; with INV the lines then leave the caches reached (R163). -/
def completeCflush (s : State) (t : Team) (e : Outst) (o : F2) : State :=
  let p := maintained s t e
  let dies := diesReached t o.ext.sc
  if o.ext.fn == 1 then
    let s1 := (s.dropDies dies p).dropL1 t.core p
    (s1.dropPrefetch (·.core == t.core) (s.ctx t.ctx).asid e.lines.contains).complete
      (t.dropPrefetch e.lines.contains) e
  else (s.cleanDies dies p).complete t e

/-- CINVAL completes: the lines' locks end at every level it reaches, and the lines, written back, leave it (R163). -/
def completeCinval (s : State) (t : Team) (e : Outst) (o : F2) : State :=
  let sc := o.ext.sc
  let p := maintained s t e
  let s1 := s.unlock t true (sc != .core) (sc == .dev || sc == .sys) true e.lines
  let s2 := (s1.dropDies (diesReached t sc) p).dropL1 t.core p
  (s2.dropPrefetch (·.core == t.core) (s.ctx t.ctx).asid e.lines.contains).complete (t.dropPrefetch e.lines.contains) e

end Sys2Proof.Machine
end

