-- ==== Sys2Proof/Machine/Engine.lean ====
section
/-! DEFINITION. What the engines share: fields of a block, register runs of a sub-core (R290), registering and holding
ranges (R166, R234, R235), reads and writes of an engine operation (R273 to R275, R355), and which operations of a team
have not completed (R16). -/

namespace Sys2Proof.Machine

/-! ### Fields of a block of bytes -/

/-- The little-endian number of `n` bytes at an offset. -/
def field (bs : List Byte) (off n : Nat) : Nat := leNat ((bs.drop off).take n)

/-- A .s32 field. -/
def fieldS32 (bs : List Byte) (off : Nat) : Int := (BitVec.ofNat 32 (field bs off 4)).toInt

/-- Bits `lo` to `hi` of a number. -/
def bitsOf (x hi lo : Nat) : Nat := x / 2 ^ lo % 2 ^ (hi + 1 - lo)

/-- The counter a K code names; none for 0xF0 (R165). -/
def counterOf : Operand → Option (BitVec 4)
  | .k n => some n
  | _ => none

/-! ### Register runs (R290) -/

/-- Alignment of a run of b granules. -/
def runAlign (b : Nat) : Nat := if b ≤ 1 then 1 else if b ≤ 2 then 2 else if b ≤ 4 then 4 else if b ≤ 8 then 8 else 16

/-- The lowest-numbered free run of b granules in a share of `cap`. -/
def freeRun (cap : Nat) (used : List (Nat × Nat)) (b : Nat) : Option Nat :=
  ((List.range (cap / runAlign b)).map (· * runAlign b)).find? fun a =>
    decide (a + b ≤ cap) && !used.any fun (u, n) => overlaps a b u n

/-- Runs of b granules for groups in ascending order, each the lowest that is free. -/
def giveRuns (cap b : Nat) (ext : Bool) : List Nat → List (Nat × Nat) → Option (List (Nat × Bool × Nat × Nat))
  | [], _ => some []
  | g :: gs, used =>
    match freeRun cap used b with
    | none => none
    | some a => (giveRuns cap b ext gs ((a, b) :: used)).map ((g, ext, a, b) :: ·)

/-- Granules a sub-core holds. -/
def State.usedRuns (s : State) (core sub : Nat) : List (Nat × Nat) :=
  (s.teams.filter fun t => t.core == core && t.sub == sub).flatMap fun t => t.runs.map fun r => (r.2.2.1, r.2.2.2)

/-- Register share of a sub-core in granules (R243). -/
def Core.share (c : Core) : Nat := 16 * partRblk c.partw

/-! ### Ranges -/

/-- A range of an operation, when it holds a byte. -/
def rangeOf (op : Nat) (dest : Bool) (sp : Space) (lo len : Nat) : List RangeLock :=
  if len == 0 then [] else [{ op := op, dest := dest, space := sp, lo := lo, len := len, carry := false }]

/-- Do the tables of the cores have room for all the ranges (R234)? -/
def State.rangeRoom (s : State) (adds : List (Nat × RangeLock)) : Bool :=
  adds.all fun (c, _) => decide ((adds.filter (·.1 == c)).length ≤ s.rangesLeft c)

/-- All the ranges of an operation registered in one clock (R234). -/
def State.register (s : State) (adds : List (Nat × RangeLock)) : State :=
  adds.foldl (fun (s : State) (c, r) => s.onCore c fun k => { k with ranges := k.ranges ++ [r] }) s

/-- The ranges of an operation released in every table. -/
def State.releaseOp (s : State) (op : Nat) : State :=
  { s with cores := s.cores.map fun c => { c with ranges := c.ranges.filter (·.op != op) } }

/-- An outstanding thread access of the core reaches the ranges and must be performed first (R235). -/
def State.heldByAccess (s : State) (adds : List (Nat × RangeLock)) : Bool :=
  adds.any fun (core, r) => s.teams.any fun t => t.core == core && t.unperformed.any fun o =>
    !o.failed && (r.dest || Instr.memWrites o.instr) && o.ranges.any fun (scr, lo, n) =>
      r.space == s.spaceOf t scr && overlaps lo n r.lo r.len

/-- Ranges registered earlier hold the operation in its queue (R166): a destination under its source, or either kind
under its destination. -/
def Core.holds (c : Core) (op : Nat) : Bool :=
  let earlier := c.ranges.takeWhile (·.op != op)
  (c.ranges.filter (·.op == op)).any fun r =>
    earlier.any fun e => (r.dest || e.dest) && e.space == r.space && overlaps r.lo r.len e.lo e.len

/-! ### Reads and writes of an engine -/

/-- The pieces of a write that go to peer pages. -/
def peerPieces (outs : List (Nat × Xlat)) (va : Nat) (bs : List Byte) : List (BitVec 19 × Nat × List Byte) :=
  (granules va bs.length).filterMap fun g =>
    let lo := max va (g * 65536)
    let hi := min (va + bs.length) ((g + 1) * 65536)
    match lookupX outs g with
    | some (.peer d b) => some (d, b + (lo - g * 65536), (bs.drop (lo - va)).take (hi - lo))
    | _ => none

/-- Bytes that an engine operation writes to memory of this device, at a retention class (R147, R251); those of a core's
matrix engine reach that core's L1. -/
def State.engPut (s : State) (e : EngineId) (outs : List (Nat × Xlat)) (va : Nat) (bs : List Byte)
    (ret : Option Retention := some .normal) : State :=
  let s1 := (s.openLines outs va bs.length ret).vwrite outs va bs
  if e.cls == 3 && decide (e.op < 14) then s1.patchCore e.core outs va bs else s1

/-- A write of an engine operation through its translations; bytes of a peer page leave as remote stores (R355). -/
def State.engWrite (s : State) (e : EngineId) (outs : List (Nat × Xlat)) (va : Nat) (bs : List Byte)
    (ret : Option Retention := some .normal) : State :=
  (s.engPut e outs va bs ret).remoteStores e.key e.ctx e.world (peerPieces outs va bs)

/-- Writes of an engine operation, in order. -/
def State.engWrites (s : State) (e : EngineId) (outs : List (Nat × Xlat)) (ws : List (Nat × List Byte)) : State :=
  (ws.foldl (fun (s : State) w => s.engPut e outs w.1 w.2) s).remoteStores e.key e.ctx e.world
    (ws.flatMap fun w => peerPieces outs w.1 w.2)

/-- Are remote writes of an operation unacknowledged? -/
def State.unanswered (s : State) (key : Nat) : Bool := s.remotes.any (·.team == key)

/-- An uncorrectable error in data that an engine reads (R274, R275). -/
def State.engBad (s : State) (ctx core : Nat) : State := s.contextFault ctx (coreDie core) 3 0 0

/-- The first range of several that meets a granule without a mapping: the outcome, the address, and whether the access
is a write. -/
def State.engChecks (s : State) (c : Context) (rs : List (Mode × Nat × Nat)) : Option (Xlat × DWord × Bool) :=
  rs.findSome? fun (m, va, n) => (s.engCheck c m va n).map fun (x, a) => (x, a, m.wr)

/-- The translations of several ranges. -/
def State.engOuts (s : State) (c : Context) (rs : List (Mode × Nat × Nat)) : List (Nat × Xlat) :=
  rs.flatMap fun (m, va, n) => s.xlatRange c m va n

/-- The walks of an engine's accesses fill the TLB; an access that hits every line makes none (R260). -/
def State.engWalk (s : State) (c : Context) (rs : List (Mode × Nat × Nat)) : State :=
  rs.foldl (fun (s : State) (m, va, n) => (granules va n).foldl (fun (s : State) g =>
    if s.hitsAll none m.via c.asid (rangeLines va n g) then s else s.fillTlb c g) s) s

/-- What the accesses of an engine leave behind: walks fill the TLB (R260), lines that its reads miss are filled, at a
retention class (R147, R251), and reads where there is no memory are counted (R336). -/
def State.engTouch (s : State) (c : Context) (rs : List (Mode × Nat × Nat)) (ret : Option Retention := some .normal) :
    State :=
  (rs.filter (·.1.rd)).foldl (fun (x : State) (m, va, n) =>
    let outs := s.xlatRange c m va n
    (x.countReads outs va n).fillLines outs va n m.dev ret) (s.engWalk c rs)

/-- The outstanding entry k of a team whose context may move. -/
def State.entry? (s : State) (t k : Nat) : Option (Team × Outst) :=
  match s.team? t with
  | none => none
  | some tm =>
    if s.going tm.ctx then (tm.outst.find? fun o => o.seq == k && !o.failed).map fun o => (tm, o) else none

/-- The outstanding entry k whose granules are being translated: it has met no trap of its own, and granules without a
mapping do not end its translations (R263). -/
def State.translating? (s : State) (t k : Nat) : Option (Team × Outst) :=
  match s.team? t with
  | none => none
  | some tm =>
    if s.going tm.ctx then (tm.outst.find? fun o => o.seq == k && o.fail.isNone).map fun o => (tm, o) else none

/-! ### Operations of a team (R16) -/

/-- The teams whose engine operations have not completed, one entry an operation: copies, carries, commands, sweeps,
queries. -/
def State.engineTeams (s : State) : List Nat :=
  s.copies.map (·.team) ++ s.carries.map (·.team)
    ++ s.cores.flatMap (fun c => c.matrix.flatMap fun m => m.queue.map (·.team))
    ++ (s.sweeps.filter (·.source != .background)).map (·.team) ++ s.queries.map (·.team)

/-- Has every engine operation of a team completed? -/
def State.engineIdle (s : State) (team : Nat) : Bool := !s.engineTeams.contains team

end Sys2Proof.Machine
end

