-- ==== Sys2Proof/Machine/Copy.lean ====
section
/-! DEFINITION. Copies, copy batches and their waits (R197 to R200). -/

namespace Sys2Proof.Machine

/-! ### The copy descriptor (R197) -/

/-- A copy descriptor by fields; strides are .s32. -/
structure CopyDesc where
  src    : Nat
  dst    : Nat
  rowLen : Nat
  rows   : Nat
  sstr   : Int
  dstr   : Int
  mcmask : Nat
  mc     : Bool
  bv     : Bool
  dscr   : Bool
  sscr   : Bool
  bar    : Nat
deriving DecidableEq, Repr

/-- The fields of 64 bytes. -/
def CopyDesc.ofBytes (bs : List Byte) : CopyDesc :=
  let ctl := field bs 0x20 4
  { src := field bs 0 8, dst := field bs 8 8, rowLen := field bs 0x10 4, rows := field bs 0x14 4,
    sstr := fieldS32 bs 0x18, dstr := fieldS32 bs 0x1C, mcmask := bitsOf ctl 27 16, mc := ctl.testBit 15,
    bv := ctl.testBit 14, dscr := ctl.testBit 13, sscr := ctl.testBit 12, bar := bitsOf ctl 6 0 }

/-- Does a field of its first 32 bytes break R197, whatever the others hold? -/
def copyHeadBad (bs : List Byte) : Bool :=
  let d := CopyDesc.ofBytes bs
  d.rowLen == 0 || decide (65536 < d.rowLen) || d.rows == 0 || decide (65536 < d.rows)
    || decide (2 ^ 24 < d.rowLen * d.rows)

/-- Do its last 32 bytes break R197 or name a barrier that the cast does not have (R198), whatever the others hold? -/
def copyTailBad (nb : Nat) (bs : List Byte) : Bool :=
  let d := CopyDesc.ofBytes bs
  let ctl := field bs 0x20 4
  bitsOf ctl 31 28 != 0 || bitsOf ctl 11 7 != 0 || field bs 0x24 4 != 0 || field bs 0x38 8 != 0
    || ((d.mcmask != 0) != d.mc) || (d.mc && (d.sscr || !d.dscr)) || (d.bv && !d.dscr)
    || (d.bv && !d.mc && decide (nb ≤ d.bar))

/-- First byte and length of the bounding range of rows (R198). -/
def boundRange (base : Nat) (str : Int) (rows rowLen : Nat) : Int × Nat :=
  let last : Int := base + str * ((rows : Int) - 1)
  let lo := min (base : Int) last
  (lo, (max (base : Int) last - lo).toNat + rowLen)

/-- Bounding source range. -/
def CopyDesc.srcRange (d : CopyDesc) : Int × Nat := boundRange d.src d.sstr d.rows d.rowLen
/-- Bounding destination range. -/
def CopyDesc.dstRange (d : CopyDesc) : Int × Nat := boundRange d.dst d.dstr d.rows d.rowLen

/-- Does a scratch row fall outside `size` bytes (R197)? -/
def rowsOutside (r : Int × Nat) (size : Nat) : Bool := decide (r.1 < 0) || decide ((size : Int) < r.1 + r.2)

/-- Do the bounding ranges overlap (R198)? -/
def CopyDesc.overlapping (d : CopyDesc) : Bool :=
  let a := d.srcRange
  let b := d.dstRange
  !d.mc && d.sscr == d.dscr && decide (a.1 < b.1 + b.2) && decide (b.1 < a.1 + a.2)

/-- The PROTECTION conditions of R198 on a descriptor of a cast. -/
def copyRefused (c : Cast) (bs : List Byte) : Bool :=
  let d := CopyDesc.ofBytes bs
  copyHeadBad bs || copyTailBad c.nb bs
    || (d.sscr && decide (2 ^ 32 ≤ d.src)) || (d.dscr && decide (2 ^ 32 ≤ d.dst))
    || (d.sscr && rowsOutside d.srcRange c.size) || (d.dscr && !d.mc && rowsOutside d.dstRange c.size)
    || d.overlapping

/-- The advance of COPYY (R199). -/
def copyAdvance (bs : List Byte) : List Byte :=
  let d := CopyDesc.ofBytes bs
  let step (scr : Bool) (a s : Nat) : Nat := if scr then a / 2 ^ 32 * 2 ^ 32 + (a + s) % 2 ^ 32 else (a + s) % 2 ^ 64
  leBytes 8 (step d.sscr d.src (field bs 0x28 8)) ++ leBytes 8 (step d.dscr d.dst (field bs 0x30 8)) ++ bs.drop 16

/-! ### Issue and acceptance (R198, R199) -/

/-- What a copy would use now: descriptor bytes and origin offset. -/
def State.copyBlock (s : State) (t : Team) (o : F2) (again : Bool) : List Byte × Nat :=
  if again then
    match t.last with
    | some l => (copyAdvance l.desc, l.origin.toNat)
    | none => ([], 0)
  else
    let off := (t.uword o.a).toNat
    ((s.cast? t.cast).elim [] fun c => c.sread off 64, off)

/-- The traps of a scratch descriptor of `n` bytes by its place alone: alignment, then the end of scratch (R198, R205). -/
def placeTrap (s : State) (t : Team) (off n : Nat) : Option Trap :=
  if off % n != 0 then some { code := .misaligned, addr := BitVec.ofNat 64 off }
  else if decide (s.scratchSize t < off + n) then some { code := .protection, addr := BitVec.ofNat 64 off }
  else none

/-- The traps of R198: alignment, then the descriptor, with ADDR the (origin) offset. Of a descriptor that cannot be read
whole, what one of its bursts decides comes first (R7, log 82). -/
def copyTrap (s : State) (t : Team) (o : F2) (again : Bool) : Option Trap :=
  let (bs, off) := s.copyBlock t o again
  let at' (c : TrapCode) : Trap := { code := c, addr := BitVec.ofNat 64 off }
  match s.cast? t.cast with
  | none => some (at' .protection)
  | some c =>
    let b0 := !again && c.sbad off 32
    let b1 := !again && c.sbad (off + 32) 32
    (if again then none else placeTrap s t off 64).or
      (if b0 || b1 then
        some (at' (if (!b0 && copyHeadBad bs) || (!b1 && copyTailBad c.nb bs) then .protection else .memoryError))
      else if copyRefused c bs then some (at' .protection) else none)

/-- R198: the place of the descriptor is checked at issue. Its words are read, and checked, once the team's earlier
accesses are performed (R233), in a step of its own: acceptance (DEDUCED, log 54). -/
def execCopy (o : F2) (s : State) : Result :=
  issue (.copy o) s noTrap (fun s t _ => placeTrap s t (t.uword o.a).toNat 64) fun s t c =>
    s.enqueue t c (t.entry c (.copy o) o s.nextId s.clk)

/-- R199: with no last copy descriptor it traps; behind a copy not yet accepted it waits for that acceptance (R266). -/
def execCopyy (o : F2) (s : State) : Result :=
  issue (.copyy o) s
    (fun _ t _ => if t.last.isNone && !t.outst.any (·.instr.starts) then some { code := .illegalInstr } else none)
    (fun _ t _ => if t.last.isNone then some { code := .illegalInstr } else none)
    fun s t c => s.enqueue t c (t.entry c (.copyy o) o s.nextId s.clk)

/-- The casts a multicast lands in (R198). -/
def State.landingCasts (s : State) (t : Team) (d : CopyDesc) : List Cast :=
  s.casts.filter fun c => c.grid == t.grid && coreCluster c.core == coreCluster t.core &&
      d.mcmask.testBit (coreSite c.core)

/-- A range of integers as a registered range, its part below 0 left out. -/
def intRange (op : Nat) (dest : Bool) (sp : Space) (r : Int × Nat) : List RangeLock :=
  rangeOf op dest sp r.1.toNat ((r.1 + r.2).toNat - r.1.toNat)

/-- The ranges a copy registers, with their cores (R198). -/
def State.copyRanges (s : State) (t : Team) (op : Nat) (d : CopyDesc) (mcbase : Nat) : List (Nat × RangeLock) :=
  let virt := Space.virt (s.ctx t.ctx).asid
  let here := Space.scratch t.cast
  let src := intRange op false (if d.sscr then here else virt) d.srcRange
  if d.mc then
    src.map (t.core, ·) ++ (s.landingCasts t d).flatMap fun c =>
      (intRange op true (.scratch c.id) (d.dstRange.1 + mcbase, d.dstRange.2)).map (c.core, ·)
  else (src ++ intRange op true (if d.dscr then here else virt) d.dstRange).map (t.core, ·)

/-- R198, R199: a copy is accepted once the earlier accesses it must follow are performed and the queue of its cluster
and the range-lock tables have room. Its descriptor is read again here. -/
def execCopyAcceptance (t k : Nat) (s : State) : Result :=
  match s.entry? t k with
  | none => .next s
  | some (tm, e) =>
    match (match e.instr with
      | .copy o => some (o, false)
      | .copyy o => some (o, true)
      | _ => none) with
    | none => .next s
    | some (o, again) =>
      if !tm.inOrder e then .next s
      else match copyTrap s tm o again with
      | some tr => .next (s.failEntry tm e tr)
      | none =>
        let (bs, origin) := s.copyBlock tm o again
        let d := CopyDesc.ofBytes bs
        let mcb := (s.cast? tm.cast).elim 0 fun c => c.mcbase.lo
        let adds := s.copyRanges tm e.seq d mcb.toNat
        let cluster := coreCluster tm.core
        if decide (Config.copyQueue ≤ (s.copies.filter (·.cluster == cluster)).length) || !s.rangeRoom adds
            || s.heldByAccess adds then .next s
        else
          let op : CopyOp :=
            { op := e.seq, cluster := cluster, team := tm.id, ctx := tm.ctx, world := tm.world, kc := counterOf o.d,
              again := again, rh := o.ext.rh, batch := tm.openSeq, desc := bs, mcbase := mcb,
              casts := if d.mc then (s.landingCasts tm d).map (·.id) else [tm.cast], cast := tm.cast, core := tm.core,
              row := 0, susp := none }
          let s1 := { s.register adds with copies := s.copies ++ [op] }
          .next (s1.complete { tm with last := some { desc := bs, mcbase := mcb, origin := BitVec.ofNat 32 origin } } e)

/-! ### Moving rows (R198) -/

/-- Batches that have finished leave the sealed list, oldest first (R200). -/
def State.settleBatches (s : State) (team : Nat) : State :=
  s.onTeam team fun t =>
    { t with sealed := t.sealed.dropWhile fun b => !s.copies.any fun c => c.team == team && c.batch == b }

/-- A copy ends: its ranges are released, Kc is incremented, its batch may finish (R198, R200). -/
def State.finishCopy (s : State) (op : CopyOp) : State :=
  ((({ s with copies := s.copies.filter (·.op != op.op) } : State).releaseOp op.op).bump op.team op.kc).settleBatches op.team

/-- Address of row r: exact for scratch, modulo 2^64 for a VA (R197). -/
def rowAddr (base : Nat) (str : Int) (r : Nat) (scr : Bool) : Int :=
  let x : Int := base + str * (r : Int)
  if scr then x else x % 2 ^ 64

/-- A row lands in one cast: its bytes where it lies inside the scratch, then the count down of the barrier. -/
def State.landRow (s : State) (op : CopyOp) (d : CopyDesc) (off : Int) (bs : List Byte) (cast : Nat) : State :=
  match s.cast? cast with
  | none => s
  | some c =>
    let inside := decide (0 ≤ off) && decide (off + bs.length ≤ (c.size : Int))
    let s1 := if inside then s.landScratch cast (some (op.team, op.batch)) off.toNat bs else s
    if d.bv && decide (d.bar < c.nb) then
      s1.barChange cast d.bar (.land bs.length)
    else s1

/-- The identity of a copy for a fault: class 4, OP 0 or 1, with its row as progress (R270, R273). -/
def CopyOp.engine (op : CopyOp) : EngineId :=
  { key := op.op, ctx := op.ctx, core := op.core, world := op.world, cls := 4, op := op.again.toNat, m := 0,
    prog := op.row }

/-- R198: the copy engine moves one row, or suspends the copy at it. -/
def execCopyRow (j : Nat) (s : State) : Result :=
  match s.copies.find? (·.op == j) with
  | none => .next s
  | some op =>
    if op.susp.isSome || !s.alive op.ctx then .next s
    else
      let d := CopyDesc.ofBytes op.desc
      if d.rows ≤ op.row then .next (if s.unanswered op.op then s else s.finishCopy op)
      else
        let c := s.ctx op.ctx
        let sa := rowAddr d.src d.sstr op.row d.sscr
        let da := rowAddr d.dst d.dstr op.row d.dscr
        let checks := (if d.sscr then [] else [(engMode (coreDie op.core) op.world true false, sa.toNat, d.rowLen)])
          ++ (if d.dscr then [] else [(engMode (coreDie op.core) op.world false true, da.toNat, d.rowLen)])
        match s.engChecks c checks with
        | some (x, va, wr) =>
          .next (s.engFail op.engine x va wr fun s =>
            { s with copies := replaceIf s.copies (·.op == j) fun o => { o with susp := some (granule va.toNat, va) } })
        | none =>
          let so := s.xlatRange c (engMode (coreDie op.core) op.world true false) sa.toNat d.rowLen
          let into := s.xlatRange c (engMode (coreDie op.core) op.world false true) da.toNat d.rowLen
          let s := s.engTouch c checks (retOf op.rh)
          let bad := if d.sscr then (s.cast? op.cast).elim false fun c => c.sbad sa.toNat d.rowLen
            else s.vbad so sa.toNat d.rowLen
          if bad then .next (s.engBad op.ctx op.core)
          else
            let bs := if d.sscr then (s.cast? op.cast).elim [] fun c => c.sread sa.toNat d.rowLen
              else s.vread so sa.toNat d.rowLen
            let s1 := if d.dscr then
                op.casts.foldl (fun (s : State) k =>
                  s.landRow op d (if d.mc then da + (op.mcbase.toNat : Int) else da) bs k) s
              else s.engWrite op.engine into da.toNat bs (retOf op.rh)
            let op' := { op with row := op.row + 1 }
            let s2 := { s1 with copies := replaceIf s1.copies (·.op == j) fun _ => op' }
            .next (if op'.row == d.rows && !s2.unanswered j then s2.finishCopy op' else s2)

/-! ### Batches (R200) -/

/-- R200: the batch is sealed at its completion, which its window need not wait for (R68, R398). -/
def execBseal (o : F2) (s : State) : Result :=
  issue (.bseal o) s noTrap noTrap fun s t c => s.enqueue t c (t.entry c (.bseal o) o s.nextId s.clk)

/-- BSEAL completes: with eight batches sealed it waits; an earlier copy joins the batch first (R200). -/
def completeBseal (s : State) (t : Team) (e : Outst) : State :=
  if decide (8 ≤ t.sealed.length) || t.outst.any (fun x => x.instr.starts && decide (x.seq < e.seq)) then s
  else
    (s.complete { t with sealed := t.sealed ++ [t.openSeq], openNo := t.openNo + 1,
                         openSeq := t.openSeq + 1 } e).settleBatches t.id

/-- The count of WAITB. -/
def waitbCount (o : F2) : Nat := match o.a with | .const n => n.toNat | _ => 0

/-- R200. -/
def execWaitb (o : F2) (s : State) : Result :=
  issue (.waitb o) s noTrap noTrap fun s t c =>
    if t.sealed.length ≤ waitbCount o then (s.done t c).acquireCopies t o.ext.sc
    else s.enqueue t c (t.entry c (.waitb o) o s.nextId s.clk)

/-- R200: a waiting WAITB completes. -/
def execWaitbDone (t k : Nat) (s : State) : Result :=
  match s.entry? t k with
  | some (tm, e) =>
    match e.instr with
    | .waitb o => .next (if tm.sealed.length ≤ waitbCount o then (s.complete tm e).acquireCopies tm o.ext.sc else s)
    | _ => .next s
  | none => .next s

end Sys2Proof.Machine
end

