-- ==== Sys2Proof/Machine/Blocks.lean ====
section
/-! DEFINITION. The blocks that class 3 and QSRCH read before acceptance (R165, R186, R188, R191, R192, R325), and the
memory that an outstanding instruction must have translated (R167, R263). -/

namespace Sys2Proof.Machine

/-! ### Command blocks -/

/-- Head dimension of a code (R182). -/
def headDim (dc : Nat) : Nat := 64 * 2 ^ dc

/-- Is a scratch offset field or a list address misaligned (R167)? -/
def offBad (x : Nat) : Bool := x % 64 != 0

/-- A value outside `lo` to `hi`. -/
def outside (x lo hi : Nat) : Bool := decide (x < lo) || decide (hi < x)

/-- Are bytes all zero? -/
def zeroBytes (bs : List Byte) (off n : Nat) : Bool := ((bs.drop off).take n).all (· == 0)

/-- PSEL block out of range (R186). -/
def pselBad (b : List Byte) : Bool :=
  outside (field b 0 2) 1 4096 || outside (field b 2 2) 1 4096 || decide (field b 0 2 < field b 4 2)
    || outside (field b 6 1) 1 8 || decide (2 < field b 7 1) || offBad (field b 8 4) || offBad (field b 12 4)
    || field b 16 8 % 8 != 0 || !zeroBytes b 24 8

/-- ATTN flags: CAUSAL, SPLIT, NOMASS (R188). -/
def attnFlag (b : List Byte) (k : Nat) : Bool := (field b 5 1).testBit k

/-- ATTN block out of range (R188). OOFF is ignored when SPLIT, and POFF unless CAUSAL; they are not checked then
(log 28). -/
def attnBad (b : List Byte) : Bool :=
  outside (field b 0 2) 1 256 || outside (field b 2 1) 1 8 || outside (field b 3 1) 1 16 || decide (2 < field b 4 1)
    || decide (8 ≤ field b 5 1) || !zeroBytes b 6 2 || (field b 8 4) / 2 ^ 23 % 256 == 255
    || offBad (field b 12 4) || (!attnFlag b 1 && offBad (field b 16 4)) || offBad (field b 20 4)
    || (attnFlag b 0 && offBad (field b 24 4)) || !zeroBytes b 28 4 || field b 32 8 % 8 != 0 || !zeroBytes b 40 24

/-- Rows R of an ATTN block. -/
def attnRows (b : List Byte) : Nat := field b 2 1 * field b 3 1

/-- Parts of an ATTNFIN block: WOFF, NP and LISTVA of part p (R191). -/
def finPart (b : List Byte) (p : Nat) : Nat × Nat × Nat :=
  (field b (8 + 4 * p) 4, field b (40 + 2 * p) 2, field b (64 + 8 * p) 8)

/-- ATTNFIN block out of range (R191). -/
def finBad (b : List Byte) : Bool :=
  let n := field b 0 1
  outside n 1 8 || outside (field b 1 1) 1 8 || outside (field b 2 1) 1 16 || decide (2 < field b 3 1)
    || offBad (field b 4 4) || !zeroBytes b 56 8
    || (List.range 8).any fun p =>
        let (w, np, l) := finPart b p
        if p < n then offBad w || outside np 1 256 || l % 8 != 0 else w != 0 || np != 0 || l != 0

/-- DEMOTE block out of range (R192). -/
def demoteBad (b : List Byte) : Bool :=
  let t (i : Nat) := field b (8 + 4 * i) 4
  outside (field b 0 4) 1 65536 || decide (field b 0 4 < field b 4 4)
    || (List.range 4).any (fun i => decide (2 ^ 24 ≤ t i)) || !(decide (t 1 < t 0) && decide (t 2 < t 1) &&
        decide (t 3 < t 2))
    || field b 24 8 % 8 != 0 || offBad (field b 32 4) || !zeroBytes b 36 28

/-- Bytes of a command block (R167); 0 for an instruction without one. -/
def blockSize : Instr → Nat
  | .psel _ => 32
  | .attn _ | .demote _ => 64
  | .attnfin _ => 128
  | _ => 0

/-- Does a field of the block break its rule (KVR 7)? -/
def blockBad (i : Instr) (b : List Byte) : Bool :=
  match i with
  | .psel _ => pselBad b
  | .attn _ => attnBad b
  | .attnfin _ => finBad b
  | .demote _ => demoteBad b
  | _ => false

/-- Scratch ranges of a command block that is in range: offset, length, is it a destination (R166)? -/
def blockRanges (i : Instr) (off : Nat) (b : List Byte) : List (Nat × Nat × Bool) :=
  match i with
  | .psel _ =>
    [(off, 32, false), (field b 8 4, 4 * field b 6 1 * headDim (field b 7 1), false),
     (field b 12 4, 4 + 4 * field b 0 2, true)]
  | .attn _ =>
    let r := attnRows b
    let d := headDim (field b 4 1)
    [(off, 64, false), (field b 12 4, 4 * d * r, false)]
      ++ (if attnFlag b 0 then [(field b 24 4, 4 * field b 3 1, false)] else [])
      ++ (if attnFlag b 1 then [] else [(field b 16 4, 4 * d * r, true)])
      ++ [(field b 20 4, 8 * r + 4 * d * r + 8 * field b 0 2 * r, true)]
  | .attnfin _ =>
    let r := field b 1 1 * field b 2 1
    let d := headDim (field b 3 1)
    [(off, 128, false)]
      ++ ((List.range (field b 0 1)).map fun p => ((finPart b p).1, 8 * r + 4 * d * r + 8 * (finPart b p).2.1 * r, false))
      ++ [(field b 4 4, 4 * d * r, true)]
  | .demote _ => [(off, 64, false), (field b 32 4, 32, true)]
  | _ => []

/-- Page lists of a block, each with its count, that are read before acceptance (R167). -/
def blockLists (i : Instr) (b : List Byte) : List (Nat × Nat) :=
  match i with
  | .psel _ => [(field b 16 8, field b 0 2)]
  | .attn _ => [(field b 32 8, field b 0 2)]
  | .attnfin _ => (List.range (field b 0 1)).map fun p => ((finPart b p).2.2, (finPart b p).2.1)
  | _ => []

/-! ### The query packet (R325) -/

/-- Bytes of a vector of a graph record (R321). -/
def graphVb (rec : List Byte) : Nat :=
  let g := field rec 0 4
  8 * (bitsOf g 23 16 + 1) * (if bitsOf g 15 14 == 0 then 2 else 1)

/-- A registered graph. -/
def State.graph? (s : State) (g : Nat) : Option Graph := s.graphs.find? (·.g == g)

/-- The length of a packet by its header (R325); 64 when its graph is not registered. -/
def State.packetLen (s : State) (hd : List Byte) : Nat := 64 + (s.graph? (field hd 0 1)).elim 0 fun g => graphVb g.record

/-- The home table of a graph record (R321): FIRST, COUNT and BASE of a stack. -/
def graphHome (rec : List Byte) (st : Nat) : Nat × Nat × Nat :=
  (field rec (0x10 + 16 * st) 4, field rec (0x14 + 16 * st) 4, field rec (0x18 + 16 * st) 8)

/-- The home stack of a vertex (R323). -/
def homeOf (rec : List Byte) (v : Nat) : Option Nat :=
  (List.range 8).find? fun st =>
    let (f, n, _) := graphHome rec st
    decide (f ≤ v) && decide (v < f + n)

/-- The owning stack of a packet issued on a die (R320). -/
def State.ownerStack (s : State) (die : Nat) (p : List Byte) : Nat :=
  ((s.graph? (field p 0 1)).bind fun g => homeOf g.record (field p 0x10 4)).getD (2 * die)

/-- Result area of a packet: VA and length. -/
def packetResult (p : List Byte) : Nat × Nat := (field p 0x20 8, 8 * bitsOf (field p 0 4) 14 8)

/-- Completion record VA of a packet. -/
def packetRecord (p : List Byte) : Nat := field p 0x28 8

/-- Are RVA and CVA aligned (R326)? -/
def packetAligned (p : List Byte) : Bool := field p 0x20 8 % 8 == 0 && field p 0x28 8 % 16 == 0

/-! ### What an outstanding instruction reaches (R167, R263) -/

/-- A virtual range with the access made of it. -/
structure Reach where
  va  : Nat
  len : Nat
  rd  : Bool
  wr  : Bool
deriving DecidableEq, Repr

/-- Are all granules of a range answered with a mapping? -/
def mappedAll (outs : List (Nat × Xlat)) (va n : Nat) : Bool :=
  (granules va n).all fun g => (lookupX outs g).elim false Xlat.isMapped

/-- Scratch bytes of the team's cast. -/
def State.scr (s : State) (t : Team) (off n : Nat) : List Byte := (s.cast? t.cast).elim [] fun c => c.sread off n

/-- KVPD addresses of a page list. -/
def pageVas (bs : List Byte) (n : Nat) : List Nat := (List.range n).map fun k => field bs (8 * k) 8

/-- The page lists of a command block and, where a list is mapped and readable, the descriptors it names. -/
def State.listReach (s : State) (outs : List (Nat × Xlat)) (va n : Nat) : List Reach :=
  { va := va, len := 8 * n, rd := true, wr := false } ::
    if mappedAll outs va (8 * n) && !s.vbad outs va (8 * n) then
      ((pageVas (s.vread outs va (8 * n)) n).filter (· % 32 == 0)).map fun p => { va := p, len := 32, rd := true,
                                                                                  wr := false }
    else []

/-- A read of a virtual operand. -/
def readReach (va n : Nat) : List Reach := [{ va := va, len := n, rd := true, wr := false }]

/-- Do the two bursts of a 64-byte block read uncorrectable? A check that one burst alone decides is made though the other
cannot be read, and a check that needs a burst that cannot be read is not made (R7; DEDUCED, log 82). -/
def State.headBad (s : State) (t : Team) (outs : List (Nat × Xlat)) (scr : Bool) (a : Nat) : Bool × Bool :=
  let bad (x : Nat) : Bool := if scr then (s.cast? t.cast).elim false fun c => c.sbad x 32 else s.vbad outs x 32
  (bad a, bad (a + 32))

/-- What a QSRCH reaches: its packet, then its result area and record. A header that names an area that is not aligned
leaves nothing more to translate, nor does a scratch packet that ends past SZ; of a header that cannot be read whole, the
burst that can names the packet's length, or the record (R7, R326; log 82). -/
def State.queryReach (s : State) (t : Team) (outs : List (Nat × Xlat)) (scr : Bool) (a : Nat) : List Reach :=
  let (b0, b1) := s.headBad t outs scr a
  let after (p : List Byte) : List Reach :=
    (if b0 || b1 then [] else [{ va := (packetResult p).1, len := (packetResult p).2, rd := false, wr := true }])
      ++ if b1 then [] else [{ va := packetRecord p, len := 16, rd := false, wr := true }]
  if scr then
    let h := s.scr t a 64
    if (!b1 && !packetAligned h) || (!b0 && decide (s.scratchSize t < a + s.packetLen h)) then [] else after h
  else
    readReach a 64 ++
      if mappedAll outs a 64 then
        let h := s.vread outs a 64
        if !b1 && !packetAligned h then [] else (if b0 then [] else readReach a (s.packetLen h)) ++ after h
      else []

/-- The scratch-or-memory size of an F2 operand and its first captured argument. -/
def Outst.arg (e : Outst) (k : Nat) : Nat := e.args.getD k 0

/-- The token queue q of a die bound to a context. -/
def State.tokenQueue? (s : State) (die q ctx : Nat) : Option TokenQueue :=
  s.tokens.find? fun t => t.die == die && t.q == q && t.ctx == ctx

/-- The pushes of TQPUSH (R207, R288), for lanes in ascending order with their queues: the push number, or none where
the queue is full. -/
def State.pushPlan (s : State) (die ctx : Nat) : List (Nat × Nat) → List (Nat × Nat) → List (Nat × Nat × Option Nat)
  | [], _ => []
  | (l, q) :: rest, seen =>
    let i := (seen.filter fun x => x.2 == q).length
    let j := match s.tokenQueue? die q ctx with
      | some tq => if tq.pushed + i - tq.freed < 2 ^ tq.capl then some (tq.pushed + i) else none
      | none => none
    (l, q, j) :: s.pushPlan die ctx rest (seen ++ [(l, q)])

/-- Address of push j in the buffer of a queue (R288). -/
def State.pushAddr (s : State) (die ctx q j : Nat) : Nat :=
  (s.tokenQueue? die q ctx).elim 0 fun tq => tq.buf.toNat + 4 * (j % 2 ^ tq.capl)

/-- The lanes and addresses of an access: those captured, or those TQPUSH writes now. -/
def State.accessed (s : State) (t : Team) (e : Outst) : List (Nat × Nat) :=
  match e.instr with
  | .tqpush _ =>
    (s.pushPlan (coreDie t.core) t.ctx e.datb []).filterMap fun (l, q, j) =>
      j.map fun j => (l, s.pushAddr (coreDie t.core) t.ctx q j)
  | _ => e.addrs

/-- The virtual ranges an outstanding instruction must have translated before it is performed or accepted. -/
def State.reach (s : State) (t : Team) (e : Outst) : List Reach :=
  let lanes (o : F2) (rd wr : Bool) : List Reach :=
    if szScratch o.ext.sz then []
    else e.addrs.map fun a => { va := a.2, len := szBytes o.ext.sz, rd := rd, wr := wr }
  match e.instr with
  | .ld o | .lda o | .gather o => lanes o true false
  | .st o => lanes o false true
  | .scatr o => lanes o (o.ext.fn == 1) true
  | .atom o | .atomn o | .cas o => lanes o true true
  | .hacc o =>
    if szScratch o.ext.sz then []
    else (e.addrs.take 1).map fun a => { va := a.2, len := 8 * haccSlots o, rd := true, wr := true }
  | .lockl _ => if e.arg 1 == 0 then [] else readReach (e.arg 0) (e.arg 1)
  | .gscan _ =>
    (if e.arg 1 == 0 then [] else readReach (e.arg 0 + 16 * (e.arg 1 - 1)) 16)
      ++ [{ va := e.arg 0 + 16 * e.arg 1, len := 16, rd := false, wr := true }]
  | .wbload o => if szScratch o.ext.sz then [] else readReach (e.arg 0) 64
  | .kvapp _ | .kvres _ => readReach (e.arg 0) 32
  | .psel _ | .attn _ | .attnfin _ =>
    let b := s.scr t (e.arg 0) (blockSize e.instr)
    if blockBad e.instr b then [] else (blockLists e.instr b).flatMap fun (va, n) => s.listReach e.outs va n
  | .qsrch o => s.queryReach t e.outs (szScratch o.ext.sz) (e.arg 0)
  | .tqpush _ => (s.accessed t e).map fun a => { va := a.2, len := 4, rd := false, wr := true }
  | _ => []

/-- The granules an instruction needs, in the order of its ranges. -/
def reachGranules (rs : List Reach) : List Nat := (rs.flatMap fun r => granules r.va r.len).eraseDups

/-- The check of a granule: every kind of access made of it, at the level and world of the team. -/
def granuleMode (t : Team) (rs : List Reach) (g : Nat) : Mode :=
  let here := rs.filter fun r => (granules r.va r.len).contains g
  { user := !t.svl, world := t.world, rd := here.any (·.rd), wr := here.any (·.wr), fetch := false,
    via := some (coreDie t.core) }

/-- The first needed granule that has no answer. -/
def State.unanswered? (s : State) (t : Team) (e : Outst) : Option Nat :=
  (reachGranules (s.reach t e)).find? fun g => (lookupX e.outs g).isNone

/-- Is every needed granule mapped? -/
def State.mapped (s : State) (t : Team) (e : Outst) : Bool :=
  (reachGranules (s.reach t e)).all fun g => (lookupX e.outs g).elim false Xlat.isMapped

end Sys2Proof.Machine
end

