-- ==== Sys2Proof/Machine/Fetch.lean ====
section
/-! DEFINITION. Fetching a clause, prefetching a target and choosing a clause (R59 to R62, R75, R85, R87, R262, R292,
R95). -/

namespace Sys2Proof.Machine

/-! ### Fetching the words of a clause (R262) -/

/-- The outcome of a fetch. -/
inductive Fetched where
  | ok (h : Word) (ws : List Word)
  | missing (gs : List (Nat × DWord))
  | bad (code : TrapCode) (addr : DWord)
  | await (page : Nat)
  | walkError (g : Nat)
deriving DecidableEq, Repr

/-- The fetch check of R259 for a team. -/
def Team.fetchMode (t : Team) : Mode := { user := !t.svl, world := t.world, rd := false, wr := false,
                                          fetch := true, via := some (coreDie t.core) }

/-- The words of a byte list. -/
def wordsOf (bs : List Byte) : List Word :=
  (List.range (bs.length / 4)).map fun k => BitVec.ofNat 32 (leNat ((bs.drop (4 * k)).take 4))

/-- A line of code in the instruction cache of a team's core, as each read of it since an ICSYNC has found it. -/
def State.codeLines (s : State) (t : Team) (line : Nat) : List CodeLine :=
  let asid := (s.ctx t.ctx).asid
  (s.core t.core).code.filter fun l => l.asid == asid && l.line == line

/-- `n` words of code at an address, word `k` of a fetch and those after it. Each is a word that the core has held there
since an ICSYNC or the one that a read of memory now gives, each on its own (R87). -/
def State.codeWords (s : State) (t : Team) (x : Xlat) (va k n : Nat) : List Word :=
  let fresh := wordsOf (s.xread x (va % 65536) (4 * n))
  if (s.core t.core).code.isEmpty then fresh
  else fresh.zipIdx.map fun (w, j) =>
    let a := va + 4 * j
    let held : List Word := (s.codeLines t (a / 128)).map fun l => BitVec.ofNat 32 (leNat ((l.bytes.drop (a % 128)).take 4))
    (w :: held).getD (Config.codeHeld s.freeCtr (k + j) % (held.length + 1)) w

/-- The first of `n` words at an address that reads uncorrectable; a held line is not read again. -/
def State.firstBadWord (s : State) (t : Team) (x : Xlat) (va n : Nat) : Option Nat :=
  (List.range n).find? fun k => s.xbad x (va % 65536 + 4 * k) 4 && (s.codeLines t ((va + 4 * k) / 128)).isEmpty

/-- A line of code read into the instruction cache of a team's core, unless it reads uncorrectable. -/
def State.fillCode (s : State) (t : Team) (x : Xlat) (line : Nat) : State :=
  let off := line % 512 * 128
  let l : CodeLine := { asid := (s.ctx t.ctx).asid, line := line, bytes := s.xread x off 128 }
  if (s.core t.core).code.contains l || s.xbad x off 128 then s
  else s.onCore t.core fun c => { c with code := c.code ++ [l] }

/-- Words of the clause that follow its header, by its header and the words read so far. -/
def clauseLen (h : Word) (ws : List Word) : Nat :=
  match Header.ofWord h with
  | some hd => clauseWords hd 1 hd.n ws
  | none => 0

/-- The outcome of a granule that a fetch cannot use. -/
def fetchFail (x : Xlat) (g : Nat) (addr : DWord) : Fetched :=
  match x with
  | .missing => .missing [(g, addr)]
  | .awaitAts p => .await p
  | .walkError => .walkError g
  | x => .bad x.trap addr

/-- The outcome of a fetch of some words of one line: a hit in the die's L2 is checked against the line's own copies
(R259, R260, R262). -/
def State.fetchLineX (s : State) (t : Team) (line : Nat) : Xlat :=
  let c := s.ctx t.ctx
  s.hitAnswer t.fetchMode none c.asid [line] (s.translateEither c t.fetchMode (line / 512))

/-- The mapping through which the words of a granule are read, from a line of it on. -/
def State.fetchMap (s : State) (t : Team) (line : Nat) : Xlat :=
  let x := s.translateEither (s.ctx t.ctx) t.fetchMode (line / 512)
  if x.isMapped then x else s.fetchLineX t line

/-- What stops a fetch of `n` words at an address, read through `x`: the first line that the team may not fetch, or the
first uncorrectable word. -/
def State.fetchStop (s : State) (t : Team) (x : Xlat) (va n : Nat) : Option Fetched :=
  (lineRange va (4 * n)).findSome? fun l =>
    let a := max va (l * 128)
    let y := s.fetchLineX t l
    if !y.isMapped then some (fetchFail y (l / 512) (BitVec.ofNat 64 a))
    else (s.firstBadWord t x a ((min (va + 4 * n) (l * 128 + 128) - a) / 4)).map fun k =>
      .bad .memoryError (BitVec.ofNat 64 (a + 4 * k))

/-- The clause at an address, fetched and translated whole (R59, R262): its header and the words after it. An address
that is no multiple of 4 traps MISALIGNED with ADDR that address, and words in two granules are judged in the order of
their addresses: an uncorrectable word of the first granule comes before the outcome of the second (DEDUCED, log 70). -/
def State.fetchAt (s : State) (t : Team) (pc : DWord) : Fetched :=
  let a := pc.toNat
  if a % 4 != 0 then .bad .misaligned pc
  else
    let x1 := s.fetchMap t (a / 128)
    match s.fetchStop t x1 a 1 with
    | some f => f
    | none =>
      let n1 := min ((65536 - a % 65536) / 4) 121
      let ws1 := s.codeWords t x1 a 0 n1
      let h := ws1.headD 0
      let len1 := 1 + clauseLen h ws1.tail
      match s.fetchStop t x1 a (min len1 n1) with
      | some f => f
      | none =>
        if len1 ≤ n1 then .ok h (ws1.tail.take (len1 - 1))
        else
          let a2 := a + 4 * n1
          let x2 := s.fetchMap t (a2 / 128)
          let ws := ws1 ++ if x2.isMapped then s.codeWords t x2 a2 n1 (121 - n1) else []
          let len := 1 + clauseLen h ws.tail
          match s.fetchStop t x2 a2 (len - n1) with
          | some f => f
          | none => .ok h (ws.tail.take (len - 1))

/-- After a fetch of `n` words: walks fill the TLB (R260), reads without memory are counted (R336), and the lines are
held. -/
def State.fetched (s : State) (t : Team) (pc n : Nat) : State :=
  let c := s.ctx t.ctx
  let outs := (granules pc (4 * n)).map fun g => (g, s.fetchMap t (max (pc / 128) (g * 512)))
  let s1 := outs.foldl (fun (s : State) o =>
    if s.hitsAll none t.fetchMode.via c.asid (rangeLines pc (4 * n) o.1) then s else s.fillTlb c o.1)
    (s.countReads outs pc (4 * n))
  (lineRange pc (4 * n)).foldl (fun (s : State) l => s.fillCode t ((lookupX outs (l / 512)).getD .missing) l) s1

/-- The core of a team reads a line of code ahead, where the team may fetch it; nothing waits for it (R87). -/
def State.codeAhead (s : State) (t : Nat) (line : Nat) : State :=
  match s.team? t with
  | none => s
  | some tm =>
    if !s.alive tm.ctx || !(s.fetchLineX tm line).isMapped then s else s.fillCode tm (s.fetchMap tm line) line

/-! ### Clause boundaries -/

/-- Is the team between clauses: nothing of its next clause has issued (R100)? -/
def Team.atBoundary (t : Team) : Bool := t.clause.isNone || t.port.isNone

/-- The resume values of a trap at a clause boundary (R98): those an ERET set up, or the clause about to start. -/
def Team.boundaryResume (t : Team) : Resume := t.resume.getD { epc := t.pc, idx := 0, rk := 2, cmask := 0 }

/-- The late error of a team that is taken at a clause boundary (R267): with IDX 0 and RK 2, whatever an ERET set up; the
next waits for the next boundary. A clause that goes on after a missing page has no boundary before it. -/
def Team.lateDue (t : Team) : Option Trap := if t.resume.any (·.inside) then none else t.late.head?

/-- Does a trap wait at the boundary (R100, R267, R298, R299), or that of a fetch (R97)? A team started at RENTRY is exempt
from PREEMPT until its first clause has ended (R395). -/
def Team.trapWaits (t : Team) : Bool :=
  t.lateDue.isSome || (t.clause.isNone && t.pending.isSome) || t.wdogDue || (t.preempt && !t.hnd && !t.restored)

/-- A resident team that can go on. -/
def State.running (s : State) (t : Team) : Bool :=
  !t.ended && t.park.isNone && s.going t.ctx

/-- The clause that a fetched header and its words start (R99, R268): from its first instruction, at IDX with CMASK
skipped, or after IDX. An IDX of 0 stands for 1 (log 25). -/
def startClause (h : Header) (ws : List Word) (r : Option Resume) : Clause :=
  match r with
  | none => Clause.at h ws 1 0
  | some r =>
    if r.rk == 0 then Clause.at h ws (max r.idx.toNat 1) r.cmask
    else if r.rk == 1 then Clause.at h ws (r.idx.toNat + 1) 0
    else Clause.at h ws 1 0

/-- The resume of a trap at the fetch of a clause: RK 2, IDX 0 (R98, R262). -/
def Team.fetchResume (t : Team) : Resume := { epc := t.pc, idx := 0, rk := 2, cmask := 0 }

/-- A trap at the fetch of a clause, entered once no instruction of an earlier clause is outstanding (R97). -/
def State.fetchTrap (s : State) (t : Team) (code : TrapCode) (addr : DWord) : State :=
  let tr : Trap := { code := code, addr := addr }
  if t.earlierDone then s.enterTrap t tr t.fetchResume else s.setTeam { t with pending := some (tr, 0) }

/-- A kind 0 or 1 fault record (R270). -/
def accessRecord (c : Context) (t : Team) (info : Word) (fetch wr : Bool) (va : DWord) (r : Resume) (lanes : DWord) :
    List Word :=
  [va.lo, va.hi, c.ctxid t.world, info,
    BitVec.ofNat 3 fetch.toNat ++ BitVec.ofBool wr ++ 0#1 ++ r.cmask ++ r.idx ++ 0x09#8,
    lanes.lo, lanes.hi, 0]

/-- The team parks on a fetch fault (R262, R269): one record for each granule. -/
def State.parkFetch (s : State) (t : Team) (gs : List (Nat × DWord)) : State :=
  let r := t.fetchResume
  let c := s.ctx t.ctx
  let s1 := gs.foldl (fun (s : State) g => s.record t.ctx (accessRecord c t (s.teamInfo t) true false g.2 r 0)) s
  s1.setTeam { t with park := some { resume := r, missing := gs, fetch := true }, clause := none, port := none,
                      shadows := [] }

/-- The fetched clause installed, or ILLEGAL_CLAUSE (R60, R75). -/
def State.installClause (s : State) (t : Team) (h : Word) (ws : List Word) : State :=
  match Header.ofWord h with
  | none => s.fetchTrap t .illegalClause t.pc
  | some hd =>
    s.setTeam { t with clause := some (startClause hd ws t.resume), via := none, target := false }

/-- A clause is fetched whole before it starts (R262), or taken from the prefetched copy (R87). -/
def execClauseFetch (t : Nat) (s : State) : Result :=
  match s.team? t with
  | none => .next s
  | some tm =>
    if !s.running tm || tm.clause.isSome || tm.trapWaits then .next s
    else match tm.via with
    | some (h :: ws) => .next (s.installClause tm h ws)
    | _ =>
      if s.switching then .next s
      else match s.fetchAt tm tm.pc with
      | .ok h ws => .next ((s.fetched tm tm.pc.toNat (1 + ws.length)).installClause tm h ws)
      | .missing gs => .next (s.parkFetch tm gs)
      | .bad code addr => .next (s.fetchTrap tm code addr)
      | .walkError g => .next (s.contextFault tm.ctx (unitDie (s.ctx tm.ctx).asid g) 4 0 0)
      | .await _ => .next s

/-- A branch-target prefetch ends (R85): PF 2 with the words read, or PF 3. -/
def execPrefetchFill (t : Nat) (b : BitVec 3) (s : State) : Result :=
  match s.team? t with
  | none => .next s
  | some tm =>
    let br := tm.branch b.toNat
    if br.pf != 1 || !s.alive tm.ctx then .next s
    else
      match s.fetchAt tm (br.target.setWidth 64) with
      | .ok h ws =>
        .next ((s.fetched tm br.target.toNat (1 + ws.length)).setTeam
          (tm.setBranch b.toNat { br with pf := 2, copy := h :: ws }))
      | _ => .next (s.setTeam (tm.setBranch b.toNat { br with pf := 3, copy := [] }))

/-! ### Choosing a clause (R292) -/

/-- Is every token that a header names clear (R69)? -/
def Team.tokensClear (t : Team) (h : Header) : Bool := !t.outst.any fun o => o.tk != 0 && h.wt.getLsbD (o.tk - 1)

/-- Is the team ready for a port (R292)? -/
def State.ready (s : State) (t : Team) : Bool :=
  s.running t && t.port.isNone && t.yield.isNone && !t.trapWaits && t.clause.elim false fun c => t.tokensClear c.header

/-- Class of a team for a choice (R292). -/
def State.portClass (_ : State) (t : Team) : Nat :=
  if 16 ≤ t.passed then 3 else if t.lastY then 0 else t.pri

/-- Does team `a` go before team `b` (R292)? -/
def State.portBefore (s : State) (a b : Team) : Bool :=
  let ka := s.portClass a
  let kb := s.portClass b
  if ka != kb then decide (kb < ka)
  else match a.lastEnd, b.lastEnd with
    | none, some _ => true
    | some _, none => false
    | x, y =>
      let ea := x.getD 0
      let eb := y.getD 0
      if ea != eb then decide (ea < eb)
      else if a.placed != b.placed then decide (a.placed < b.placed)
      else decide (a.index.toNat < b.index.toNat)

/-- The best of the ready teams. -/
def State.bestTeam (s : State) : List Team → Option Team
  | [] => none
  | a :: rest =>
    match s.bestTeam rest with
    | none => some a
    | some b => if s.portBefore b a then some b else some a

/-- The teams of a sub-core. -/
def State.subTeams (s : State) (core sub : Nat) : List Team := s.teams.filter fun t => t.core == core && t.sub == sub

/-- The registers whose tokens the team's clause does not wait for (R68, R71). -/
def Team.unwaited (t : Team) : List Shadow :=
  t.clause.elim [] fun c => t.shadows.filter fun x => x.tk != 0 && !c.header.wt.getLsbD (x.tk - 1)

/-- A free port chooses the next ready team (R292); its clause starts, and its watchdog returns to 0 (R298). -/
def execIssuePortChoice (core sub port : Nat) (s : State) : Result :=
  let here := s.subTeams core sub
  if 2 ≤ port || here.any (·.port == some port) then .next s
  else
    let ready := here.filter s.ready
    match s.bestTeam ready with
    | none => .next s
    | some b =>
      .next { s with teams := replaceIf s.teams (fun t => t.core == core && t.sub == sub) fun t =>
        if t.id == b.id then
          let t' := { t with port := some port, passed := 0, lastY := false, wdog := 0, resume := none,
                             shadows := t.unwaited }
          -- a resume after the last instruction leaves nothing to issue
          t'.closeClause Outst.checked s.clk
        else if ready.any (·.id == t.id) then { t with passed := t.passed + 1, lastY := false }
        else { t with lastY := false } }

/-- The YIELD wait ends on its clock count (R95); a K increment or a token clearing ends it where they happen. A stopped
team stays as it is (R341, R361). -/
def execYieldWaitEnd (t : Nat) (s : State) : Result :=
  .next (if s.stopped then s else s.onTeam t fun tm => if tm.yield == some 0 then { tm with yield := none } else tm)

end Sys2Proof.Machine
end

