-- ==== Sys2Proof/Machine/Trap.lean ====
section
/-! DEFINITION. Translation results, settling a clause, taking a trap, parking and re-issue, fault records, the
watchdog (R97 to R100, R153, R210, R257 to R272, R298). -/

namespace Sys2Proof.Machine

/-! ### Translation results (R263, R265) -/

/-- The core whose L1 an access looks up: a team's access at L1 (R248); an engine's, and a wider access, none. -/
def hitL1 (t : Team) (i : Instr) : Option Nat :=
  match i with
  | .tqpush _ | .gscan _ => none
  | i => if i.starts || Instr.place i != .l1 then none else some t.core

/-- The lines of a granule that an entry reaches. -/
def State.reachLines (s : State) (t : Team) (e : Outst) (g : Nat) : List Nat :=
  ((s.reach t e).flatMap fun r => rangeLines r.va r.len g).eraseDups

/-- Does the entry hit every line it reaches in a granule (R260)? It then asks no translation unit. -/
def State.hitsGranule (s : State) (t : Team) (e : Outst) (g : Nat) : Bool :=
  s.hitsAll (hitL1 t e.instr) (some (coreDie t.core)) (s.ctx t.ctx).asid (s.reachLines t e g)

/-- The answer of a granule: of the lines that the entry hits there by their own copies, and for the others of the unit,
by the TLB when `hit` and it holds the granule, or else by a walk (R260). -/
def State.askGranule (s : State) (t : Team) (e : Outst) (m : Mode) (hit : Bool) (g : Nat) : Xlat :=
  s.hitAnswer m (hitL1 t e.instr) (s.ctx t.ctx).asid (s.reachLines t e g) (s.translate (s.ctx t.ctx) m hit g)

/-- Does what an instruction reaches depend on words that it reads first: the lists of a command block, the areas of a
query packet? -/
def Instr.readsAhead : Instr → Bool
  | .psel _ | .attn _ | .attnfin _ | .qsrch _ => true
  | _ => false

/-- The accesses for which a granule is checked: those known, and those that its bytes show, as when a query packet names
a result area beside it (R326). -/
def State.neededMode (s : State) (t : Team) (e : Outst) (g : Nat) (ask : Mode → Xlat) : Mode :=
  granuleMode t (s.reach t { e with outs := e.outs ++ [(g, ask (granuleMode t (s.reach t e) g))] }) g

/-- Must a started access of the team follow the entry? Then the entry started before the new world region table too: its
checks go on, by the old one (R364). -/
def Team.holdsUp (t : Team) (e : Outst) : Bool :=
  t.unperformed.any fun o => decide (e.seq < o.seq) && !o.outs.isEmpty && !o.failed && mustFollow e o

/-- A translation returns the outcome of the first granule that the entry still needs (R257, R260); `hit` says that the
TLB answered. What an instruction reads to know its granules it reads after the team's earlier accesses (R233). A walk that
meets an uncorrectable error faults the context (R274). The clause ends with its last answer when that is all it waits for
(R68, R265). It waits while a new world region table does (R364). -/
def execTranslationResult (t k : Nat) (hit : Bool) (s : State) : Result :=
  match s.translating? t k with
  | none => .next s
  | some (tm, e) =>
    match if (s.switching && !tm.holdsUp e) || (Instr.readsAhead e.instr && !tm.inOrder e) then none else s.unanswered? tm e with
    | none => .next s
    | some g =>
      let c := s.ctx tm.ctx
      let m := s.neededMode tm e g fun m => s.askGranule tm e m hit g
      let x := s.askGranule tm e m hit g
      let s1 := if s.hitsGranule tm e g then s else s.fillAfter c hit g
      match x with
      | .walkError => .next (s1.contextFault tm.ctx (unitDie c.asid g) 4 0 0)
      | .awaitAts _ => .next s1
      | x => .next (s1.putTeam (({ tm with
          outst := replaceIf tm.outst (·.seq == k) fun e => { e with outs := e.outs ++ [(g, x)] } } : Team).closeClause
            Outst.checked s.clk))

/-! ### Settling (R265, R266) -/

/-- The entry has met its own outcome: a trap, or a granule that is not mapped, with every granule answered. -/
def State.over (s : State) (t : Team) (e : Outst) : Bool :=
  e.fail.isSome || (e.outs.any (·.2.isBad) && (s.unanswered? t e).isNone)

/-- The entries that end not complete, in issue order: those that met an outcome, and those an earlier one of them holds
back (R266). -/
def State.deadFrom (s : State) (t : Team) : List Outst → List Outst → List Outst
  | [], dead => dead
  | e :: rest, dead =>
    s.deadFrom t rest (if s.over t e || dead.any (mustFollow · e) then dead ++ [e] else dead)

/-- The entries of the clause that end not complete. -/
def State.dead (s : State) (t : Team) : List Outst := s.deadFrom t t.mine []

/-- Every outstanding instruction of the clause has run to its end. -/
def State.settled (s : State) (t : Team) : Bool := t.settling && (s.dead t).length == t.mine.length

/-- The position that decides the outcome (R265): the lowest that is not complete. -/
def State.lowest (s : State) (t : Team) : Nat :=
  let ps := (s.dead t).map (·.pos) ++ (t.pending.elim [] fun p => [p.2])
  ps.foldl min (ps.headD 0)

/-- The outcome of the deciding granules by the order of R263: a code; or a park, with the lane record of the lanes that
met a missing granule, and that of each granule. -/
inductive Outcome where
  | trap (tr : Trap)
  | park (gs : List (Nat × DWord)) (lanes : DWord) (each : List (Nat × DWord))
deriving DecidableEq, Repr

/-- The accesses of an entry that met an outcome: lane and address of vector and scalar accesses. -/
def State.lanesWith (s : State) (t : Team) (e : Outst) (p : Xlat → Bool) : List (Nat × Nat) :=
  match e.instr with
  | .hacc _ => e.addrs
  | _ => (s.accessed t e).filter fun a => (lookupX e.outs (granule a.2)).elim false p

/-- The first reached address of granule g. -/
def reachAddr (rs : List Reach) (g : Nat) : Nat :=
  ((rs.find? fun r => (granules r.va r.len).contains g).map fun r => max r.va (g * 65536)).getD (g * 65536)

/-- Is the entry a vector form with lanes, for a trap of a code: a TQPUSH gives a lane record for PROTECTION alone (R264)? -/
def Outst.vector (e : Outst) (code : TrapCode) : Bool :=
  match e.instr with
  | .tqpush _ => code == .protection
  | i => (Instr.f2? i).elim false fun o => !e.addrs.isEmpty && o.vector

/-- The trap of an outcome, with ADDR and the lane record (R145, R264). -/
def State.outcomeTrap (s : State) (t : Team) (e : Outst) (x : Xlat) : Trap :=
  let rs := s.reach t e
  let g := ((reachGranules rs).find? fun g => lookupX e.outs g == some x).getD 0
  let tr := if (s.accessed t e).isEmpty then none else laneTrap t (e.vector x.trap) x.trap (s.lanesWith t e (· == x))
  tr.getD { code := x.trap, addr := BitVec.ofNat 64 (reachAddr rs g) }

/-- What an entry that is over ends in (R263, R265). -/
def State.outcome (s : State) (t : Team) (e : Outst) : Outcome :=
  match e.fail with
  | some tr => .trap tr
  | none =>
    let has (x : Xlat) := e.outs.any (·.2 == x)
    if has .world then .trap (s.outcomeTrap t e .world)
    else if has .denied then .trap (s.outcomeTrap t e .denied)
    else
      let rs := s.reach t e
      let gs := ((reachGranules rs).filter fun g => lookupX e.outs g == some .missing).map fun g =>
        (g, BitVec.ofNat 64 (reachAddr rs g))
      let met := s.lanesWith t e (· == .missing)
      let record (ls : List (Nat × Nat)) : DWord := if e.vector .pageFault then t.laneRecord (ls.map (·.1)) else 0
      .park gs (record met) (gs.map fun g => (g.1, record (match e.instr with
        | .hacc _ => met
        | _ => met.filter fun a => granule a.2 == g.1)))

/-- A load that met its own outcome may have written lanes whose granule is mapped (R150; free lanes, log 22). -/
def State.partialLoad (s : State) (t : Team) (e : Outst) : Team :=
  let free := Config.freeLanes (s.freeCtr + e.pos)
  match e.instr with
  | .ld o | .lda o => t.writeRun o.d o.run (fun l => free.getLsbD l) (s.loaded t e o (loadSx o))
  | .gather o => t.writeRun o.d o.run (fun l => free.getLsbD l) (s.loaded t e o false)
  | _ => t

/-- The loads of a settled clause that were performed and end not complete have written such lanes. -/
def State.partialLoads (s : State) (t : Team) : Team :=
  ((s.dead t).filter (s.over t)).foldl (fun (t : Team) e => s.partialLoad t e) t

/-- The free values of `partialLoads` are used up. -/
def State.drawn (s : State) : State := { s with freeCtr := s.freeCtr + 16 }

/-! ### Trap entry (R97, R153, R210, R298) -/

/-- An outstanding wait that PREEMPT and WATCHDOG do not wait for. -/
def Outst.isWait (e : Outst) : Bool :=
  match e.instr with
  | .waitk _ | .waitb _ | .bwait _ | .xacq _ | .gscan _ => true
  | _ => false

/-- An instruction that may wait at issue (R298). -/
def Instr.waitsAtIssue : Instr → Bool
  | .xrel _ | .worldx _ | .statesvTeam _ | .svc _ | .exitSaved | .icsync | .fence _ => true
  | i => i.starts

/-- The instruction at the current position, when its words decode. -/
def Clause.here (c : Clause) : Option Instr :=
  match decodeAt c.header c.pos (c.words.drop c.woff) with
  | .ok (i, _) => some i
  | .error _ => none

/-- An outstanding instruction that may wait for room (R298). -/
def Outst.waitsForRoom (e : Outst) : Bool := match e.instr with | .bseal _ => true | i => i.starts

/-- Is the team held inside its clause by waiting instructions alone: outstanding waits, or outstanding and waiting
instructions together (`watch`)? -/
def State.heldInClause (s : State) (t : Team) (c : Clause) (watch : Bool) : Bool :=
  let dead := s.dead t
  let others := t.mine.filter fun e => !(e.isWait || (watch && e.waitsForRoom) || dead.contains e)
  others.isEmpty && (t.mine.any (fun e => e.isWait || (watch && e.waitsForRoom))
    || (watch && t.mine.isEmpty && c.here.elim false Instr.waitsAtIssue))

/-- The resume of a team that leaves a clause unfinished (R153): its lowest instruction that is not complete. -/
def Team.waitResume (t : Team) (c : Clause) : Resume :=
  let ps := t.mine.map (·.pos) ++ (t.pending.elim [] fun p => [p.2])
  t.resumeAt c (if ps.isEmpty then c.pos else ps.foldl min (ps.headD 0)) 0 t.pc

/-- WATCHDOG or PREEMPT entered with a resume (R98); a WATCHDOG due while HND = 1 faults the context (R100). The counter
starts anew with the entry, so that one limit is met once (DEDUCED, log 62). -/
def State.enterDue (s : State) (t : Team) (watch : Bool) (r : Resume) : State :=
  if watch then
    if t.hnd then s.contextFault t.ctx (coreDie t.core) 2 TrapCode.watchdog.code 0
    else s.enterTrap { t with wdogDue := false, wdog := 0 } { code := .watchdog } r
  else s.enterTrap { t with preempt := false } { code := .preempt } r

/-- A settled team takes the trap of its deciding instruction; parking is a step of its own. -/
def State.settledTrap (s : State) (t : Team) (c : Clause) : State :=
  let pos := s.lowest t
  let t1 := s.partialLoads t
  let s1 := s.drawn
  match (s.dead t).find? (·.pos == pos) with
  | some e =>
    match s.outcome t e with
    | .trap tr => s1.enterTrap t1 tr (t.trapResume c pos tr.code)
    | .park .. => s
  | none =>
    match t.pending with
    | some (tr, p) => s1.enterTrap t1 tr (t.trapResume c p tr.code)
    | none => s

/-- R97: a trap is entered: at a boundary, at a fetch, of a parked team, of a team held by a wait, or of a settled clause,
once the instructions of earlier clauses have completed (step 1). A team restored at RENTRY takes PREEMPT at no moment
before its first clause has ended (R395). -/
def execTrapEntry (t : Nat) (s : State) : Result :=
  match s.team? t with
  | none => .next s
  | some tm =>
    if tm.ended || !s.going tm.ctx || !tm.earlierDone then .next s
    else match tm.park with
    | some p =>
      match p.failed with
      | some (va, lanes) => .next (s.enterTrap tm { code := .protection, addr := va, lanes := lanes } p.resume)
      | none => .next (if tm.preempt && !tm.hnd && !tm.restored then s.enterDue tm false p.resume else s)
    | none =>
      if tm.atBoundary then
        match tm.lateDue, if tm.clause.isNone then tm.pending else none with
        | some tr, _ =>
          .next (s.enterTrap { tm with late := tm.late.tail } tr { tm.boundaryResume with idx := 0, rk := 2, cmask := 0 })
        | none, some (tr, _) => .next (s.enterTrap tm tr tm.fetchResume)
        | none, none =>
          if tm.wdogDue then .next (s.enterDue tm true tm.boundaryResume)
          else if tm.preempt && !tm.hnd && !tm.restored then .next (s.enterDue tm false tm.boundaryResume)
          else .next s
      else match tm.clause with
      | none => .next s
      | some c =>
        if s.settled tm then .next (s.settledTrap tm c)
        else if tm.wdogDue && s.heldInClause tm c true then .next (s.enterDue tm true (tm.waitResume c))
        else if tm.preempt && !tm.hnd && !tm.restored && s.heldInClause tm c false then
          .next (s.enterDue tm false (tm.waitResume c))
        else .next s

/-! ### Parking and re-issue (R268, R269) -/

/-- A team parks at a position of its clause: a record for each missing granule, counted unless cleared in advance. VA is
of the granule; LREC and OWNER of each record are of all the lanes that met a missing granule, where R270 does not say
whose lanes they are when there are several granules (DEDUCED, log 88). -/
def State.parkAt (s : State) (t : Team) (r : Resume) (gs : List (Nat × DWord)) (wr : Bool) (lanes : DWord)
    (each : List (Nat × DWord)) : State :=
  let c := s.ctx t.ctx
  let s1 := gs.foldl (fun (s : State) g =>
    s.record t.ctx (accessRecord c t (s.teamInfo t) false wr g.2 r lanes)) s
  s1.setTeam { t.endsClause s.clk with
    park := some { resume := r, missing := gs.filter fun g => !t.cleared.contains g.1, fetch := false, lanes := each },
    clause := none, clauseNo := t.clauseNo + 1, outst := t.outst.filter fun o => o.clause != t.clauseNo,
    pending := none, cleared := [], port := none, resume := none, yieldN := none, shadows := [] }

/-- R269: a team whose deciding instruction met MISSING parks. -/
def execTeamPark (t : Nat) (s : State) : Result :=
  match s.team? t with
  | none => .next s
  | some tm =>
    match tm.clause with
    | none => .next s
    | some c =>
      if tm.ended || !s.going tm.ctx || tm.park.isSome || !s.settled tm then .next s
      else
        let pos := s.lowest tm
        match (s.dead tm).find? (·.pos == pos) with
        | none => .next s
        | some e =>
          match s.outcome tm e with
          | .trap _ => .next s
          | .park gs lanes each =>
            .next (s.drawn.parkAt (s.partialLoads tm) (tm.resumeAt c pos 0 tm.pc) gs (Instr.memWrites e.instr) lanes each)

/-- R268: a parked team whose count is zero re-issues; after a fetch fault it fetches the clause afresh. -/
def execParkedReissue (t : Nat) (s : State) : Result :=
  match s.team? t with
  | none => .next s
  | some tm =>
    match tm.park with
    | none => .next s
    | some p =>
      if !p.missing.isEmpty || p.failed.isSome || !s.going tm.ctx then .next s
      else .next (s.setTeam { tm with
        park := none, pc := p.resume.epc, via := none,
            resume := if p.fetch then none else some { p.resume with inside := true } })

/-! ### Fault records (R270, R278) -/

/-- A write at a device physical or host address (R278). -/
def State.ringWrite (s : State) (host : Bool) (a : Nat) (bs : List Byte) : State :=
  if host then { s with hostMem := hostWriteN s.hostMem a bs } else s.physWrite a bs

/-- A read at a device physical or host address. -/
def State.ringRead (s : State) (host : Bool) (a n : Nat) : Nat :=
  if host then leNat ((List.range n).map fun k => s.hostByte (a + k)) else s.phys a n

/-- The interrupt of a context (R348). -/
def State.contextIrq (s : State) (ctx : Nat) : State :=
  let c := s.ctx ctx
  s.emit (.msix c.cfunc.toNat c.cirq.toNat)

/-- The fault ring in force for a context. -/
def Context.ring (c : Context) : FaultRing :=
  { host := c.fringHost, base := c.fring, len := c.frl, prod := c.fprod, records := c.records }

/-- The oldest record of a ring written when the ring has space, and then its producer index; with the ring after it. While
the consumer index reads uncorrectable, for which R274 gives no report, the record waits (DESIGN CHOICE, log 81). -/
def State.writeRecord (s : State) (f : FaultRing) : Option (State × FaultRing) :=
  match f.records with
  | [] => none
  | r :: rest =>
    let size := 2 ^ f.len
    let full := (f.prod + 2 ^ 64 - s.ringRead f.host (f.base + 8) 8) % 2 ^ 64 == size
    if full || (!f.host && s.physBad (f.base + 8) 8) then none
    else
      let s1 := (if f.host then s else s.countNoMemory (f.base + 8)).ringWrite f.host (f.base + 64 + 32 * (f.prod % size)) (r.flatMap fun w => leBytes 4 w.toNat)
      let p := (f.prod + 1) % 2 ^ 64
      some (s1.ringWrite f.host f.base (leBytes 8 p), { f with records := rest, prod := p })

/-- The first of the earlier rings that can take a record it waits for. -/
def State.writeBacklog (s : State) : List FaultRing → Option (State × List FaultRing)
  | [] => none
  | f :: fs =>
    match s.writeRecord f with
    | some (s1, f') => some (s1, if f'.records.isEmpty then fs else f' :: fs)
    | none => (s.writeBacklog fs).map fun (s1, fs') => (s1, f :: fs')

/-- R270: the oldest waiting record of a ring that has space is written, and then the producer index and the interrupt;
earlier registrations' records come first. -/
def execFaultRecordWrite (ctx : Nat) (s : State) : Result :=
  let c := s.ctx ctx
  if s.stopped then .next s
  else match s.writeBacklog c.backlog with
  | some (s1, fs) => .next ((s1.onCtx ctx fun c => { c with backlog := fs }).contextIrq ctx)
  | none =>
    match s.writeRecord c.ring with
    | some (s1, f) => .next ((s1.onCtx ctx fun c => { c with records := f.records, fprod := f.prod }).contextIrq ctx)
    | none => .next s

/-! ### Watchdog (R298) -/

/-- R298: the counter of a team reaches its limit. -/
def execWatchdogExpiry (t : Nat) (s : State) : Result :=
  match s.team? t with
  | none => .next s
  | some tm =>
    let c := s.ctx tm.ctx
    if s.stopped || tm.ended || tm.park.isSome || c.wdl == 0 || tm.wdog < 2 ^ c.wdl || tm.wdogDue then .next s
    else if tm.hnd || !c.wdh then .next (s.contextFault tm.ctx (coreDie tm.core) 2 TrapCode.watchdog.code 0)
    else .next (s.setTeam { tm with wdogDue := true })

end Sys2Proof.Machine
end

