-- ==== Sys2Proof/Machine/Async.lean ====
section
/-! DEFINITION. Class 4 beside the copies (spec 09): barriers, queries and carries at issue, launches, the scan link,
extension registers and the ends of their waits (R195, R201 to R210). -/

namespace Sys2Proof.Machine

/-! ### Barriers (R201 to R203) -/

/-- Number of barriers of the team's cast. -/
def State.barriers (s : State) (t : Team) : Nat := (s.cast? t.cast).elim 0 (·.nb)

/-- The barrier operand. -/
def barNo (t : Team) (o : F2) : Nat := (t.uword o.a).toNat

/-- The word of the barrier operand by fields. -/
def State.barOf (s : State) (t : Team) (o : F2) : Bar := (s.cast? t.cast).elim (Bar.ofWord 0) fun c => c.bar (barNo t o)

/-- ILLEGAL_INSTR for a barrier the cast does not have (R12, R195), or for another operand out of range. -/
def barIllegal (o : F2) (bad : Team → Bool) : State → Team → Clause → Option Trap := fun s t _ =>
  if decide (s.barriers t ≤ barNo t o) || bad t then some { code := .illegalInstr } else none

/-- BARRIER_BROKEN of a barrier. -/
def brokenTrap (n : Nat) : Trap := { code := .barrierBroken, addr := BitVec.ofNat 64 n }

/-- BARRIER_BROKEN of a barrier broken at issue (R203). -/
def barBroken (o : F2) : State → Team → Clause → Option Trap := fun s t _ =>
  if (s.barOf t o).brk then some (brokenTrap (barNo t o)) else none

/-- The barrier operand as an ARRIVE finds it, and with the arrivals of its clock before it (R201). -/
def State.barsNow (s : State) (t : Team) (o : F2) : Bar × Bar :=
  (s.cast? t.cast).elim (Bar.ofWord 0, Bar.ofWord 0) fun c =>
    let r := c.clockOf (barNo t o) (some t.id) s.freeCtr
    (Bar.ofWord r.before, r.changes.foldl Bar.count (Bar.ofWord r.before))

/-- BARRIER_BROKEN of an ARRIVE on a barrier broken before its clock (R203). -/
def arriveBroken (o : F2) : State → Team → Clause → Option Trap := fun s t _ =>
  if (s.barsNow t o).1.brk then some (brokenTrap (barNo t o)) else none

/-- The team as it stands after a change of its cast. -/
def State.again (s : State) (t : Team) : Team := (s.team? t.id).getD t

/-- Is the setting of BINIT out of range (R202)? -/
def binitBad (w : Word) : Bool := decide (4 < (w.extractLsb' 0 3).toNat) || w.extractLsb' 8 24 != 0 || w.getLsbD 3

/-- R202. -/
def execBinit (o : F2) (s : State) : Result :=
  issue (.binit o) s (barIllegal o fun t => binitBad (t.uword o.ext.b)) noTrap fun s t c =>
    let s1 := s.barChange t.cast (barNo t o) (.init (t.uword o.ext.b)) (some t.id)
    s1.done (s1.again t) c

/-- May the team's slot arrive: it takes part and has not arrived (R203)? -/
def Bar.admits (b : Bar) (slot : Nat) : Bool := b.part.getLsbD slot && !b.arr.getLsbD slot

/-- R203: a scoped ARRIVE is a release (R201, R226, R252): it waits for the team's earlier accesses and, at .sys, for its
remote writes, and writes lines back; an arrival that is not admitted breaks the barrier and traps. -/
def execArrive (o : F2) (s : State) : Result :=
  issue (.arrive o) s (barIllegal o fun t => decide (2 ^ 24 < (t.uword o.ext.b).toNat)) (arriveBroken o) fun s t c =>
    if o.ext.sc != .none && t.unperformed.any Outst.accesses || o.ext.sc == .sys && t.unacked != 0 then s
    else
      let (before, now) := s.barsNow t o
      let n := barNo t o
      if now.admits t.cslot then
        let s1 := (s.release t o.ext.sc).barChange t.cast n (.arrive t.cslot (t.uword o.ext.b).toNat) (some t.id)
        s1.done ((s1.again t).put o.d false fun _ => before.phase.toNat) c
      else
        let s1 := s.barChange t.cast n .refused (some t.id)
        s1.trapNow (s1.again t) c (brokenTrap n)

/-- R203. -/
def execArrdrop (o : F2) (s : State) : Result :=
  issue (.arrdrop o) s (barIllegal o fun _ => false) noTrap fun s t c =>
    let s1 := s.barChange t.cast (barNo t o) (.drop t.cslot) (some t.id)
    s1.done (s1.again t) c

/-- R203: completes at issue when the phase has passed. -/
def execBwait (o : F2) (s : State) : Result :=
  issue (.bwait o) s (barIllegal o fun _ => false) (barBroken o) fun s t c =>
    let ph := (t.uword o.d).setWidth 16
    if (s.barOf t o).phase != ph then (s.done t c).acquire t o.ext.sc
    else s.enqueue t c { t.entry c (.bwait o) o s.nextId s.clk with args := [ph.toNat, barNo t o, 0] }

/-- R203: a waiting BWAIT completes when its phase is over, or traps when its barrier broke. -/
def execBwaitDone (t k : Nat) (s : State) : Result :=
  match s.entry? t k with
  | none => .next s
  | some (tm, e) =>
    match e.instr with
    | .bwait _ =>
      if e.arg 2 == 2 then .next ((s.complete tm e).acquire tm (Instr.waitScope e.instr))
      else if e.arg 2 == 1 then .next (s.failEntry tm e (brokenTrap (e.arg 1)))
      else .next s
    | _ => .next s

/-- R152: a waiting WAITK completes when its counter reaches the count. -/
def execWaitkDone (t k : Nat) (s : State) : Result :=
  match s.entry? t k with
  | none => .next s
  | some (tm, e) =>
    match e.instr with
    | .waitk _ =>
      .next (if kReached (tm.readK (e.arg 0)) (BitVec.ofNat 16 (e.arg 1)) then
        (s.complete tm e).acquire tm (Instr.waitScope e.instr) else s)
    | _ => .next s

/-! ### Queries and carries at issue (R204, R205) -/

/-- The address of QSRCH: a pair, or an offset in scratch. -/
def qsrchAddr (t : Team) (o : F2) : Nat := if szScratch o.ext.sz then (t.uword o.a).toNat else (t.udword o.a).toNat

/-- Issue checks of QSRCH: alignment, and a scratch packet's first 64 bytes below SZ (R204); the rest of the packet is
checked at acceptance, where its header is read. -/
def qsrchTrap (s : State) (t : Team) (o : F2) : Option Trap :=
  let a := qsrchAddr t o
  if a % 64 != 0 then some { code := .misaligned, addr := BitVec.ofNat 64 a }
  else if szScratch o.ext.sz then placeTrap s t a 64
  else none

/-- The first 64 bytes of a packet as they stand, and whether its first burst, which names the graph and the entry vertex,
can be read; zeros where memory gives no mapping. -/
def State.packetHead (s : State) (t : Team) (o : F2) : List Byte × Bool :=
  let a := qsrchAddr t o
  if szScratch o.ext.sz then (s.scr t a 64, (s.cast? t.cast).elim false fun c => !c.sbad a 32)
  else
    let m : Mode := { user := !t.svl, world := t.world, rd := true, wr := false, fetch := false,
                      via := some (coreDie t.core) }
    let outs := s.xlatRange (s.ctx t.ctx) m a 64
    (s.vread outs a 64, !s.vbad outs a 32)

/-- Does the stack that owns a packet have all its query slots in use (R204, R320)? -/
def State.slotsFull (s : State) (t : Team) (head : List Byte) : Bool :=
  decide (Config.querySlots ≤ (s.queries.filter (·.stack == s.ownerStack (coreDie t.core) head)).length)

/-- R204, R334: it waits at issue until what the team has done before is performed, since the packet says whose slots and
how many bytes it needs (R233); then while its stack's slots are all in use, as the packet then stands, or while a scratch
packet, a source range until acceptance, finds no entry; acceptance is its completion. -/
def execQsrch (o : F2) (s : State) : Result :=
  issue (.qsrch o) s noTrap (fun s t _ => qsrchTrap s t o) fun s t c =>
    let a := qsrchAddr t o
    let (head, known) := s.packetHead t o
    let len := if known then s.packetLen head else 64
    let adds := if szScratch o.ext.sz then (rangeOf 0 false (.scratch t.cast) a len).map (t.core, ·) else []
    if t.unperformed.any (fun p => p.accesses || Instr.acquires p.instr) || (known && s.slotsFull t head)
        || !s.rangeRoom adds || s.heldByAccess adds then s
    else s.enqueue t c { t.entry c (.qsrch o) o s.nextId s.clk with args := [a, len] }

/-- A carry descriptor outside its table (R205). -/
def carryBad (b : List Byte) : Bool :=
  field b 0 4 % 16 != 0 || outside (field b 4 2) 16 4096 || field b 4 2 % 16 != 0 || !zeroBytes b 7 1
    || decide (2 ^ 19 ≤ field b 8 4) || decide (4096 ≤ field b 12 2) || !zeroBytes b 14 2 || field b 16 4 % 16 != 0
    || !zeroBytes b 24 8

/-- The traps of LKSEND (R205), with ADDR the offset of the descriptor. -/
def carryTrap (s : State) (t : Team) (o : F2) : Option Trap :=
  let off := (t.uword o.a).toNat
  let adr := BitVec.ofNat 64 off
  let b := s.scr t off 32
  (placeTrap s t off 32).or
    (if (s.cast? t.cast).elim false (fun c => c.sbad off 32) then some { code := .memoryError, addr := adr }
    else if carryBad b || decide (s.scratchSize t < field b 0 4 + field b 4 2) then some { code := .protection,
                                                                                           addr := adr }
    else none)

/-- R205: the place of the descriptor is checked at issue; its words are read, and checked, at acceptance, which follows
the team's earlier accesses (R233) and is its completion (DEDUCED, log 54). -/
def execLksend (o : F2) (s : State) : Result :=
  issue (.lksend o) s noTrap (fun s t _ => placeTrap s t (t.uword o.a).toNat 32) fun s t c =>
    s.enqueue t c { t.entry c (.lksend o) o s.nextId s.clk with args := [(t.uword o.a).toNat] }

/-- The flits of a carry (R353, R358): up to 232 bytes each, the last a carry end. -/
def carryFlits (src dst : BitVec 19) (ep doff : Nat) : (fuel : Nat) → List Byte → List (BitVec 16 → Flit)
  | 0, _ => []
  | n + 1, bs =>
    let here := bs.take 232
    let rest := bs.drop 232
    let f (seq : BitVec 16) : Flit :=
      { ty := if rest.isEmpty then 6 else 5, dst := dst, src := src, ttl := 16, seq := seq, opc := 0,
        addr := BitVec.ofNat 48 (ep * 2 ^ 36 + doff % 2 ^ 32), data := here, resv := false }
    f :: if rest.isEmpty then [] else carryFlits src dst ep (doff + 232) n rest

/-- LKSEND is accepted (R205, R234): its ranges, then its flits. -/
def completeLksend (s : State) (t : Team) (e : Outst) (o : F2) : State :=
  match carryTrap s t o with
  | some tr => s.failEntry t e tr
  | none =>
    let off := e.arg 0
    let b := s.scr t off 32
    let sp := Space.scratch t.cast
    let adds := (rangeOf e.seq false sp (field b 0 4) (field b 4 2) ++ rangeOf e.seq true sp off 32).map (t.core, ·)
    if !s.rangeRoom adds || s.heldByAccess adds then s
    else
      let dev := BitVec.ofNat 19 (field b 8 4)
      let data := s.scr t (field b 0 4) (field b 4 2)
      if (s.cast? t.cast).elim false fun c => c.sbad (field b 0 4) (field b 4 2) then (s.register adds).engBad t.ctx t.core
      else
        let flits := carryFlits s.regs.devid dev (field b 12 2) (field b 16 4) 18 data
        let first := (s.nextSeq dev).1
        let op : CarryOut :=
          { op := e.seq, team := t.id, core := t.core, cast := t.cast, off := off, dev := dev, seq := first,
            flits := flits.length, len := field b 4 2, bar := BitVec.ofNat 8 (field b 6 1), kc := counterOf o.d }
        let s1 := flits.foldl (fun (s : State) f =>
          let (n, s') := s.nextSeq dev
          s'.send (f n)) (s.register adds)
        ({ s1 with carries := s1.carries ++ [op] } : State).complete t e

/-! ### Launches (R206, R207, R280, R286, R288) -/

/-- The Q register written. -/
def Team.putQ (t : Team) (d : Operand) (b : Bool) : Team :=
  match d with
  | .q n => t.writeQ n.toNat b
  | _ => t

/-- The traps of SPAWN (R206). -/
def spawnTrap (s : State) (t : Team) (o : F2) : Option Trap :=
  let a := t.udword o.a
  let off := (t.uword o.ext.b).toNat
  if a.toNat % 64 != 0 then some { code := .misaligned, addr := a }
  else if off % 64 != 0 then some { code := .misaligned, addr := BitVec.ofNat 64 off }
  else if s.scratchSize t < off + 64 then some { code := .protection, addr := BitVec.ofNat 64 off }
  else none

/-- R206: it follows the team's earlier accesses (R226), then finds the queue full and reads nothing, or adds its entry. -/
def execSpawn (o : F2) (s : State) : Result :=
  issue (.spawn o) s noTrap (fun s t _ => spawnTrap s t o) fun s t c =>
    if t.unperformed.any Outst.accesses then s
    else
      let die := coreDie t.core
      if Config.taskQueue ≤ (s.tasks.filter (·.1 == die)).length then s.done (t.putQ o.d false) c
      else if (s.cast? t.cast).elim false fun c => c.sbad (t.uword o.ext.b).toNat 64 then
        s.trapNow t c { code := .memoryError, addr := (t.uword o.ext.b).setWidth 64 }
      else
        let task : Task :=
          { ctx := t.ctx, gd := t.udword o.a, args := wordsOf (s.scr t (t.uword o.ext.b).toNat 64) }
        (({ s with tasks := s.tasks ++ [(die, task)] } : State).release t .dev).done (t.putQ o.d true) c

/-- A queue of a context before its first valid doorbell: PRI 1 (log 26). -/
def Queue.reset (q : Nat) : Queue :=
  { q := q, ring := 0, qwva := 0, rszl := 0, pri := 1, en := false, qirq := false, prod := 0, cidx := 0, ninc := 0,
    items := [], stopped := false }

/-- Queue q of a context. -/
def Context.queue (c : Context) (q : Nat) : Queue := (c.queues.find? (·.q == q)).getD (Queue.reset q)

/-- A queue put back. -/
def Context.setQueue (c : Context) (q : Queue) : Context :=
  if c.queues.any (·.q == q.q) then { c with queues := replaceIf c.queues (·.q == q.q) fun _ => q }
  else { c with queues := c.queues ++ [q] }

/-- Entries of a queue's launch list (R280). -/
def Queue.listed (q : Queue) : Nat :=
  (q.items.filter fun i => match i with | .list .. => true | .ring .. => false).length

/-- R206, R280: the descriptor joins the launch list of queue qn, or the list is full. -/
def execGlaunch (o : F2) (s : State) : Result :=
  issue (.glaunch o) s (fun _ t _ => if 16 ≤ (t.uword o.ext.b).toNat then some { code := .illegalInstr } else none) noTrap
    fun s t c =>
      if t.unperformed.any Outst.accesses then s
      else
        let n := (t.uword o.ext.b).toNat
        let q := (s.ctx t.ctx).queue n
        if Config.launchList ≤ q.listed then s.done (t.putQ o.d false) c
        else
          let q' := { q with items := q.items ++ [.list (t.udword o.a) s.clk] }
          ((s.onCtx t.ctx fun c => c.setQueue q').release t .dev).done (t.putQ o.d true) c

/-- The queue numbers of TQPUSH, by lane. -/
def tqLanes (t : Team) (o : F2) : List (Nat × Nat) := t.lanes.map fun l => (l, (t.word false l o.a).toNat)

/-- The lanes whose queue is not bound to the context (R207). -/
def State.tqBad (s : State) (t : Team) (lanes : List (Nat × Nat)) : List (Nat × Nat) :=
  lanes.filter fun (_, q) => decide (64 ≤ q) || (s.tokenQueue? (coreDie t.core) q t.ctx).isNone

/-- R207: every lane's queue is checked before any push. -/
def execTqpush (o : F2) (s : State) : Result :=
  issue (.tqpush o) s noTrap (fun s t _ => laneTrap t true .protection (s.tqBad t (tqLanes t o))) fun s t c =>
    if t.lanes.isEmpty then s.done t c
    else
      let e := { t.entry c (.tqpush o) o s.nextId s.clk with
        data := t.lanes.map fun l => (l, (t.word false l o.d).toNat), datb := tqLanes t o }
      s.enqueue t c { e with addrs := s.accessed t e, needs := reachGranules (s.reach t e) }

/-- The words that outstanding TQPUSH would write as the queues now stand (R207, R266). -/
def State.replan (s : State) : State :=
  let plan (u : Team) (e : Outst) : Outst :=
    match e.instr with
    | .tqpush _ => { e with addrs := s.accessed u e }
    | _ => e
  { s with teams := s.teams.map fun u => { u with outst := u.outst.map (plan u) } }

/-- The trigger of a token queue (R288), after the pushes of a clock or at the expiry of its timer. -/
def TokenQueue.trigger (q : TokenQueue) (ns : Nat) : TokenQueue :=
  let c := q.pushed - q.launched
  if c == 0 then { q with timer := none }
  else
    let timer := q.timer.or (if q.tmo == 0 then none else some (ns + 1000 * q.tmo))
    if q.thr ≤ c || timer.elim false (fun x => decide (x ≤ ns)) then
      { q with batches := q.batches ++ [{ first := q.launched, count := c }], launched := q.pushed, timer := none }
    else { q with timer := timer }

/-- A change of a token queue. -/
def State.onTokens (s : State) (die q : Nat) (f : TokenQueue → TokenQueue) : State :=
  { s with tokens := replaceIf s.tokens (fun t => t.die == die && t.q == q) f }

/-- The triggers that a clock's pushes have left to test, once it is over: when `n` clocks pass (R288). -/
def State.testTriggers (s : State) (n : Nat) : State :=
  { s with tokens := s.tokens.map fun q => if n != 0 && q.fresh then { q.trigger s.ns with fresh := false } else q }

/-- TQPUSH performs its pushes in lane order and writes its status (R207, R288). -/
def completeTqpush (s : State) (t : Team) (e : Outst) (o : F2) : State :=
  match laneTrap t true .protection (s.tqBad t e.datb) with
  | some tr => s.failEntry t e tr
  | none =>
    let die := coreDie t.core
    let plan := s.pushPlan die t.ctx e.datb []
    let ok := plan.filterMap fun (l, q, j) => j.map fun j => (l, q, j)
    let token (l : Nat) : List Byte := leBytes 4 ((e.data.find? (·.1 == l)).elim 0 Prod.snd)
    let ws := ok.map fun (l, q, j) => (s.pushAddr die t.ctx q j, token l)
    let s1 := (ws.foldl (fun (s : State) w => s.teamWrite t.core e.outs w.1 w.2 .home) (s.release t .dev)).remoteStores
      t.id t.ctx t.world (ws.flatMap fun w => peerPieces e.outs w.1 w.2)
    let s2 := ((ok.map fun x => x.2.1).eraseDups).foldl (fun (s : State) q =>
      s.onTokens die q fun tq =>
        { tq with pushed := tq.pushed + (ok.filter fun x => x.2.1 == q).length, fresh := true }) s1
    let t2 := s2.again t
    s2.complete (t2.writeP o.ext.fn.toNat e.act (maskOf t.n fun l => ok.any fun x => x.1 == l)) e

/-! ### The scan link (R208) -/

/-- R208: the total is captured at issue. -/
def execGscan (o : F2) (s : State) : Result :=
  issue (.gscan o) s noTrap
    (fun _ t _ => if (t.udword o.a).toNat % 16 != 0 then some { code := .misaligned, addr := t.udword o.a } else none)
    fun s t c =>
      let pair := t.udword o.d
      let e := { t.entry c (.gscan o) o s.nextId s.clk with
        args := [(t.udword o.a).toNat, t.index.toNat, pair.hi.toNat, pair.lo.toNat] }
      s.enqueue t c { e with needs := reachGranules (s.reach t e) }

/-- A pair in a slot: Empty when EMPTYF is not 0. -/
def slotPair (b : List Byte) : LrPair :=
  if field b 12 4 != 0 then none else some (BitVec.ofNat 32 (field b 0 4), BitVec.ofNat 32 (field b 4 4))

/-- R208: once READY of its predecessor is 1, the team combines and publishes its slot. The words of an Empty slot are
free values (log 27). -/
def execGscanWaitEnd (t k : Nat) (s : State) : Result :=
  match s.entry? t k with
  | none => .next s
  | some (tm, e) =>
    match e.instr with
    | .gscan o =>
      let idx := e.arg 1
      let prev := e.arg 0 + 16 * (idx - 1)
      let own := e.arg 0 + 16 * idx
      if !s.mapped tm e || !tm.inOrder e then .next s
      else
        let (s0, before, bad) := if idx == 0 then (s, [], false) else s.teamRead tm.core e.outs prev 16 .home
        if bad then .next (s0.failEntry tm e { code := .memoryError, addr := BitVec.ofNat 64 prev })
        else if idx != 0 && field before 8 4 != 1 then .next s
        else
          let c : LrPair := if idx == 0 then none else slotPair before
          let total : LrPair :=
            if o.ext.fn.getLsbD 0 then none else some (BitVec.ofNat 32 (e.arg 2), BitVec.ofNat 32 (e.arg 3))
          let p := (lrCombine c total).1
          let (a, b) := p.getD (Config.freeWord s0.freeCtr, Config.freeWord (s0.freeCtr + 1))
          let slot := leBytes 4 a.toNat ++ leBytes 4 b.toNat ++ leBytes 4 1 ++ leBytes 4 p.isNone.toNat
          let s1 := (({ s0 with freeCtr := s0.freeCtr + 2 } : State).release tm .dev).teamWrite tm.core e.outs own slot .home
          let s2 := s1.remoteStores tm.id tm.ctx tm.world (peerPieces e.outs own slot)
          let t1 := (s2.again tm).putQ o.ext.b c.isSome
          let t2 := match c, o.d with
            | some (ca, cb), .s n => t1.writeSS n.toNat (Word.pair ca cb)
            | _, _ => t1
          .next ((s2.complete t2 e).acquire tm .dev)
    | _ => .next s

/-! ### Extension registers (R209) -/

/-- ILLEGAL_INSTR of XACQ (R209). -/
def xacqIllegal (t : Team) (e : Nat) : Bool := outside e 1 15 || decide (16 < t.base + e) || t.extg != 0

/-- R209. -/
def execXacq (o : F2) (s : State) : Result :=
  issue (.xacq o) s
    (fun _ t _ => if xacqIllegal t (t.uword o.a).toNat then some { code := .illegalInstr } else none) noTrap
    fun s t c => s.enqueue t c { t.entry c (.xacq o) o s.nextId s.clk with args := [(t.uword o.a).toNat] }

/-- An XACQ that waits. -/
def Outst.isXacq (e : Outst) : Bool := match e.instr with | .xacq _ => !e.failed | _ => false

/-- Is the request the oldest of its sub-core (R209)? -/
def State.oldestXacq (s : State) (t : Team) (e : Outst) : Bool :=
  !s.teams.any fun u => u.core == t.core && u.sub == t.sub && u.outst.any fun x => x.isXacq && decide (x.seq < e.seq)

/-- The groups of a team that have not wholly exited. -/
def Team.liveGroups (t : Team) : List Nat := (List.range 32).filter t.groupLives

/-- The V registers from granule `b` for `e` granules cleared (R22). -/
def Team.clearV (t : Team) (b e : Nat) : Team :=
  (List.range (8 * e)).foldl (fun t k => { t with v := setAt t.v (8 * b + k) [] [] }) t

/-- R209: the sub-core grants the block to its oldest request. A request that reaches its grant while the team holds a
block traps, as it would have at issue (R22, R209; DEDUCED, log 63). -/
def execXacqGrant (t k : Nat) (s : State) : Result :=
  match s.entry? t k with
  | none => .next s
  | some (tm, e) =>
    match e.instr with
    | .xacq o =>
      if !s.oldestXacq tm e then .next s
      else if tm.extg != 0 then .next (s.failEntry tm e { code := .illegalInstr })
      else match giveRuns (s.core tm.core).share (e.arg 0) true tm.liveGroups (s.usedRuns tm.core tm.sub) with
      | none => .next s
      | some rs =>
        let t1 := { tm.clearV tm.base (e.arg 0) with extg := e.arg 0, runs := tm.runs ++ rs }
        .next (s.complete (t1.put o.d false fun _ => 0) e)
    | _ => .next s

/-- R209: the wait reaches the extension timeout of the partition. -/
def execXacqTimeout (t k : Nat) (s : State) : Result :=
  match s.entry? t k with
  | none => .next s
  | some (tm, e) =>
    match e.instr with
    | .xacq o =>
      if s.clk < e.since + partTimeout (s.core tm.core).partw then .next s
      else if o.d == .zero then .next (s.failEntry tm e { code := .extTimeout })
      else .next (s.complete (tm.put o.d false fun _ => 1) e)
    | _ => .next s

/-- R209: waits until nothing of the team is outstanding, then releases the block. -/
def execXrel (o : F2) (s : State) : Result :=
  issue (.xrel o) s noTrap noTrap fun s t c =>
    if !t.unperformed.isEmpty then s
    else s.done { t.clearV t.base t.extg with extg := 0, runs := t.runs.filter fun r => !r.2.1 } c

end Sys2Proof.Machine
end

