-- ==== Sys2Proof/Machine/System.lean ====
section
/-! DEFINITION. Class 6 (spec 09, R211 to R215): system registers, state save and restore, supervisor calls, return from
a handler, clocks, translations and worlds. -/

namespace Sys2Proof.Machine

/-! ### System registers (R29, R212, R351, R372) -/

/-- Is a register 64 bits wide? -/
def srWide (reg : Nat) : Bool := reg ≤ 2 || (8 ≤ reg && reg ≤ 15) || reg == 0x8100

/-- The registers below 0x8000 (R29). -/
def srUser (reg : Nat) : Bool :=
  reg ≤ 2 || (8 ≤ reg && reg ≤ 15) || (0x10 ≤ reg && reg ≤ 0x15) || (0x20 ≤ reg && reg ≤ 0x22)

/-- The registers from 0x8000 (R351, R372). -/
def srSuper (reg : Nat) : Bool := (0x8000 ≤ reg && reg ≤ 0x8002) || (0x8100 ≤ reg && reg ≤ 0x8102)

/-- The traps of SRD and SWR, in the order of R7. -/
def srTrap (t : Team) (d reg : Nat) : Option Trap :=
  if srWide reg && d % 2 != 0 then some { code := .illegalInstr }
  else if reg < 0x8000 then (if srUser reg then none else some { code := .illegalInstr })
  else if !t.svl then some { code := .privileged }
  else if srSuper reg then none else some { code := .illegalInstr }

/-- CASTINFO (R33). MCTX, which has a meaning only while MX is 1, reads 0 otherwise (DESIGN CHOICE, log 91). -/
def Cast.info (c : Cast) : Word :=
  BitVec.ofNat 16 (c.size / 128) ++ BitVec.ofNat 8 c.nb ++ BitVec.ofNat 2 (c.mctx.getD 0) ++ BitVec.ofBool c.mctx.isSome
    ++ 0#5

/-- VBUDGET (R34). -/
def Team.vbudget (t : Team) : Word := 0#19 ++ BitVec.ofNat 5 t.extg ++ 0#3 ++ BitVec.ofNat 5 t.base

/-- Security version of the running firmware image (R366, R372). -/
def State.svn (s : State) : Nat := field s.mgmt.image 4 4

/-- The value of a register as a team reads it (R29, R351, R372). -/
def State.srRead (s : State) (t : Team) (reg : Nat) : DWord :=
  let w (x : Word) : DWord := x.setWidth 64
  if 8 ≤ reg && reg ≤ 15 then t.readTS (reg - 8)
  else match reg with
  | 0 => t.tbase
  | 1 => t.saveptr
  | 2 => (s.cast? t.cast).elim 0 (·.mcbase)
  | 0x10 => w (s.core t.core).partw
  | 0x11 => w ((s.ctx t.ctx).ctxid t.world)
  | 0x12 => w (s.teamInfo t)
  | 0x13 => BitVec.ofNat 64 (((s.grid? t.grid).elim 0 (·.nteam)) % 2 ^ 25)
  | 0x14 => w ((s.cast? t.cast).elim 0 Cast.info)
  | 0x15 => w t.vbudget
  | 0x20 => t.fpstat.setWidth 64
  | 0x21 => w t.srseed
  | 0x22 => w t.srstream
  | 0x8000 => s.regs.devid.setWidth 64
  | 0x8001 => s.regs.pmode.setWidth 64
  | 0x8002 => s.regs.wctl.setWidth 64
  | 0x8100 => t.svcvec
  | 0x8101 => 0#62 ++ BitVec.ofBool t.world ++ BitVec.ofBool t.svl
  | 0x8102 => w (Config.stepping ++ BitVec.ofNat 24 s.svn)
  | _ => 0

/-- The bits of TSn that hold a value: reserved fields read zero (R5, R98, R264). -/
def tsMask (n : Nat) : DWord :=
  match n with
  | 1 => 0x0000FFFF1FFFFFFF
  | 3 => 0xFFFFFFFF07FF07FF
  | 4 => 0x1F
  | _ => 0xFFFFFFFFFFFFFFFF

/-- A register written by a team (R29, R35, R212): a read-only one ignores the write. -/
def State.srWrite (s : State) (t : Team) (reg : Nat) (d : DWord) : State × Team :=
  if 8 ≤ reg && reg ≤ 15 then (s, t.writeTS (reg - 8) (d &&& tsMask (reg - 8)))
  else match reg with
  | 0 => (s, if t.svl then { t with tbase := d } else t)
  | 1 => (s, { t with saveptr := d })
  | 2 => (s.onCast t.cast fun c => { c with mcbase := d }, t)
  | 0x20 => (s, { t with fpstat := t.fpstat &&& ~~~(d.setWidth 5) })
  | 0x21 => (s, { t with srseed := d.lo })
  | 0x22 => (s, { t with srstream := d.lo })
  | 0x8100 => (s, { t with svcvec := d })
  | _ => (s, t)

/-- R212. -/
def execSrd (d : BitVec 6) (reg : BitVec 16) (s : State) : Result :=
  issue (.srd d reg) s (fun _ t _ => srTrap t d.toNat reg.toNat) noTrap fun s t c =>
    let x := s.srRead t reg.toNat
    s.done (if srWide reg.toNat then t.writeSS d.toNat x else t.writeS d.toNat x.lo) c

/-- R212: a write of MCBASE follows the team's earlier copies (R30), which take it when they are accepted. -/
def execSwr (d : BitVec 6) (reg : BitVec 16) (s : State) : Result :=
  issue (.swr d reg) s (fun _ t _ => srTrap t d.toNat reg.toNat) noTrap fun s t c =>
    if reg == 2 && t.outst.any (fun e => e.instr.starts) then s
    else
      let x := if srWide reg.toNat then t.readSS d.toNat else (t.readS d.toNat).setWidth 64
      let (s', t') := s.srWrite t reg.toNat x
      s'.done t' c

/-! ### Saving and restoring state (R213) -/

/-- The VA of the block: an S pair, or SAVEPTR. -/
def stateVa (t : Team) (va : Option (BitVec 6)) : DWord := va.elim t.saveptr fun r => t.readSS r.toNat

/-- MISALIGNED and RANGE_LOCK of a block of `n` bytes (R145, R146, R213). -/
def stateTrap (va : Option (BitVec 6)) (n : State → Team → Nat) (store : Bool) : State → Team → Clause → Option Trap :=
  fun s t _ =>
    let a := stateVa t va
    if a.toNat % 256 != 0 then some { code := .misaligned, addr := a }
    else if s.rangeHit t.core (s.spaceOf t false) a.toNat (n s t) store then
      some { code := .rangeLock, addr := a }
    else none

/-- The effect of a block access once its granules are translated and permitted, or hit (R260), with the bytes that a load
returns; else its outcome (R150, R263). -/
def stateAccess (s : State) (t : Team) (c : Clause) (a : DWord) (n : Nat) (wr : Bool)
    (k : State → List (Nat × Xlat) → List Byte → State) : State :=
  let cx := s.ctx t.ctx
  let m : Mode := { user := !t.svl, world := t.world, rd := !wr, wr := wr, fetch := false, via := some (coreDie t.core) }
  let gs := granules a.toNat n
  let hits (s : State) (g : Nat) : Bool := s.hitsAll (some t.core) m.via cx.asid (rangeLines a.toNat n g)
  let outs := gs.map fun g =>
    (g, s.hitAnswer m (some t.core) cx.asid (rangeLines a.toNat n g) (s.translateEither cx m g))
  let s1 := gs.foldl (fun (s : State) g => if hits s g then s else s.fillTlb cx g) s
  if s.switching then s
  else match firstBad outs with
  | none =>
    if wr then k s1 outs []
    else
      let (s2, bs, bad) := s1.teamRead t.core outs a.toNat n .l1
      if bad then s2.trapNow t c { code := .memoryError, addr := a } else k s2 outs bs
  | some (g, x) =>
    match x with
    | .missing =>
      s1.parkAt t (t.resumeAt c c.pos 0 t.pc)
        ((outs.filter (·.2 == .missing)).map fun o => (o.1, BitVec.ofNat 64 (max a.toNat (o.1 * 65536)))) wr 0 []
    | .walkError => s1.contextFault t.ctx (unitDie cx.asid g) 4 0 0
    | .awaitAts p =>
      if s1.atsWaits.any fun w => w.key == t.id && w.page == p && w.refused then
        ({ s1 with atsWaits := s1.atsWaits.filter fun w => !(w.key == t.id && w.page == p) } : State).trapNow t c
          { code := .protection, addr := a }
      else
        let w : AtsWait :=
          { key := t.id, ctx := t.ctx, die := coreDie t.core, page := p, va := BitVec.ofNat 64 (g * 65536),
            refused := false }
        if s1.atsWaits.contains w then s1 else { s1 with atsWaits := s1.atsWaits ++ [w] }
    | x => s1.trapNow t c { code := x.trap, addr := a }

/-- Bytes of a mask: bit i is lane i. -/
def maskBytes (m : Mask) : List Byte := leBytes 128 m.toNat

/-- The mask of 128 bytes, its bits below n. -/
def maskOfBytes (bs : List Byte) (off n : Nat) : Mask := BitVec.ofNat 1024 (field bs off 128) &&& lanesBelow n

/-- The kind codes of R91. -/
def MaskKind.code : MaskKind → Nat
  | .ifK => 0 | .elseK => 1 | .loopX => 2 | .loopC => 3 | .serialX => 4 | .serialR => 5

/-- A kind of a code; 6 and 7 are taken as 0 (R213). -/
def MaskKind.ofCode (n : Nat) : MaskKind :=
  match n % 8 with
  | 1 => .elseK | 2 => .loopX | 3 => .loopC | 4 => .serialX | 5 => .serialR | _ => .ifK

/-- Bytes for which R213 states no value: those of a mask-stack entry at or above the depth, and of a last copy
descriptor that there is none of (free values, log 27). -/
def freeBytes (ctr n : Nat) : List Byte := leBytes n ((List.range ((n + 3) / 4)).foldl (fun acc k =>
  acc + (Config.freeWord (ctr + k)).toNat * 2 ^ (32 * k)) 0)

/-- The 64 bytes at 0x00C0. -/
def lastBytes (t : Team) (ctr : Nat) : List Byte :=
  match t.last with
  | none => freeBytes ctr 64
  | some l =>
    l.desc.take 0x24 ++ leBytes 4 l.mcbase.toNat ++ (l.desc.drop 0x28).take 16 ++ leBytes 4 l.origin.toNat ++ leBytes 4 0

/-- The team state block (R213). -/
def teamBlock (t : Team) (ctr : Nat) : List Byte :=
  let e := t.expand
  let st := t.stack.reverse
  leBytes 4 0x53540001 ++ leBytes 2 t.n ++ leBytes 1 t.stack.length
    ++ leBytes 1 (t.hnd.toNat + 2 * e.armed.toNat + 4 * t.last.isSome.toNat)
    ++ leBytes 1 t.q.toNat ++ leBytes 1 t.openNo.toNat ++ leBytes 1 t.extg ++ leBytes 1 0
    ++ leBytes 4 t.fpstat.toNat ++ leBytes 4 t.srseed.toNat ++ leBytes 4 t.srstream.toNat
    ++ leBytes 4 e.total.toNat ++ leBytes 4 e.cursor.toNat
    ++ (List.range 16).flatMap (fun k => leBytes 2 (t.readK k).toNat)
    ++ (List.range 8).flatMap (fun k => leBytes 8 ((t.branch k).target.toNat + (t.branch k).valid.toNat * 2 ^ 63))
    ++ (List.range 8).flatMap (fun k => leBytes 8 (t.readTS k).toNat)
    ++ lastBytes t ctr
    ++ (List.range 64).flatMap (fun k => leBytes 4 (t.readS k).toNat)
    ++ (List.range 7).flatMap (fun k => maskBytes (t.readP k))
    ++ maskBytes t.act ++ maskBytes t.exited ++ maskBytes t.tmask
    ++ st.map (fun m => BitVec.ofNat 8 m.kind.code) ++ freeBytes (ctr + 16) (16 - st.length) ++ List.replicate 240 0
    ++ st.flatMap (fun m => maskBytes m.mask) ++ freeBytes (ctr + 32) (128 * (16 - st.length))
    ++ (List.range 1024).flatMap (fun l =>
        let p := e.pairs.getD l (0, 0)
        leBytes 4 p.1.toNat ++ leBytes 4 p.2.toNat)
    ++ (List.range 1024).flatMap (fun l => leBytes 4 (e.owners.getD l 0xFFFFFFFF).toNat)

/-- The mask stack of a block: depth above 16 is 16 (R213). -/
def blockStack (b : List Byte) (n : Nat) : List MaskEntry :=
  ((List.range (min (field b 6 1) 16)).map fun k =>
    { kind := MaskKind.ofCode (field b (0x700 + k) 1), mask := maskOfBytes b (0x800 + 128 * k) n : MaskEntry }).reverse

/-- The last copy descriptor of a block: its bytes at 0xC0 with the two words that R213 puts into reserved ones. -/
def blockLast (b : List Byte) : Option LastCopy :=
  if (field b 7 1).testBit 2 then
    let d := (b.drop 0xC0).take 64
    some { desc := d.take 0x24 ++ leBytes 4 0 ++ (d.drop 0x28).take 16 ++ leBytes 8 0,
           mcbase := BitVec.ofNat 32 (field b 0xE4 4), origin := BitVec.ofNat 32 (field b 0xF8 4) }
  else none

/-- The team restored from a block (R213, R17). -/
def Team.restore (t : Team) (b : List Byte) : Team :=
  let x := maskOfBytes b 0x600 t.n
  { t with
    hnd := (field b 7 1).testBit 0
    q := BitVec.ofNat 4 (field b 8 1)
    openNo := BitVec.ofNat 3 (field b 9 1)
    sealed := []
    fpstat := BitVec.ofNat 5 (field b 0xC 4)
    srseed := BitVec.ofNat 32 (field b 0x10 4)
    srstream := BitVec.ofNat 32 (field b 0x14 4)
    k := (List.range 16).map fun i => BitVec.ofNat 16 (field b (0x20 + 2 * i) 2)
    b := (List.range 8).map fun i =>
      let d := BitVec.ofNat 64 (field b (0x40 + 8 * i) 8)
      { target := d.setWidth 52 &&& ~~~3#52, valid := d.getLsbD 63, gen := t.stamp, pf := 0, copy := [] }
    ts := (List.range 8).map fun i => BitVec.ofNat 64 (field b (0x80 + 8 * i) 8) &&& tsMask i
    last := blockLast b
    s := (List.range 64).map fun i => BitVec.ofNat 32 (field b (0x100 + 4 * i) 4)
    p := (List.range 7).map fun i => maskOfBytes b (0x200 + 128 * i) t.n
    act := maskOfBytes b 0x580 t.n &&& ~~~x
    exited := x
    tmask := maskOfBytes b 0x680 t.n
    stack := blockStack b t.n
    psave := false
    expand := { armed := (field b 7 1).testBit 1, total := BitVec.ofNat 32 (field b 0x18 4),
                cursor := BitVec.ofNat 32 (field b 0x1C 4),
                pairs := (List.range 1024).map fun l =>
                  (BitVec.ofNat 32 (field b (0x1000 + 8 * l) 4), BitVec.ofNat 32 (field b (0x1004 + 8 * l) 4)),
                owners := (List.range 1024).map fun l => BitVec.ofNat 32 (field b (0x3000 + 4 * l) 4) } }

/-- Size of the team state block. -/
def teamBlockSize : Nat := 0x4000

/-- Has the team's work drained (R213)? -/
def State.drained (s : State) (t : Team) : Bool :=
  t.unperformed.isEmpty && t.sealed.isEmpty && !s.copies.any fun c => c.team == t.id

/-- A block write of a team: memory, and flits for peer pages. -/
def State.blockWrite (s : State) (t : Team) (outs : List (Nat × Xlat)) (a : Nat) (bs : List Byte) : State :=
  (s.teamWrite t.core outs a bs .l1).remoteStores t.id t.ctx t.world (peerPieces outs a bs)

/-- R213. -/
def execStatesvTeam (va : Option (BitVec 6)) (s : State) : Result :=
  issue (.statesvTeam va) s noTrap (stateTrap va (fun _ _ => teamBlockSize) true) fun s t c =>
    if !s.drained t then s
    else
      let a := stateVa t va
      stateAccess s t c a teamBlockSize true fun s outs _ =>
        let s1 := ({ s with freeCtr := s.freeCtr + 1024 } : State).blockWrite t outs a.toNat (teamBlock t s.freeCtr)
        s1.done (s1.again t) c

/-- Size of the barrier block of a team's cast. -/
def barBlockSize (s : State) (t : Team) : Nat := 8 * s.barriers t

/-- R213. -/
def execStatesvBar (va : Option (BitVec 6)) (s : State) : Result :=
  issue (.statesvBar va) s noTrap (stateTrap va barBlockSize true) fun s t c =>
    if t.unperformed.any Outst.accesses then s
    else
      let a := stateVa t va
      stateAccess s t c a (barBlockSize s t) true fun s outs _ =>
        let bs := (List.range (s.barriers t)).flatMap fun n =>
          leBytes 8 ((s.cast? t.cast).elim 0 fun c => (c.bars.getD n 0).toNat)
        let s1 := (s.blockWrite t outs a.toNat bs).onCast t.cast fun c => { c with recent := [] }
        s1.done (s1.again t) c

/-- R213. -/
def execStatersTeam (va : Option (BitVec 6)) (s : State) : Result :=
  issue (.statersTeam va) s noTrap (stateTrap va (fun _ _ => teamBlockSize) false) fun s t c =>
    if !t.unperformed.isEmpty then s
    else
      let a := stateVa t va
      stateAccess s t c a teamBlockSize false fun s _ bs => s.done (t.restore bs) c

/-- R213. -/
def execStatersBar (va : Option (BitVec 6)) (s : State) : Result :=
  issue (.statersBar va) s noTrap (stateTrap va barBlockSize false) fun s t c =>
    if t.unperformed.any Outst.accesses then s
    else
      let a := stateVa t va
      stateAccess s t c a (barBlockSize s t) false fun s _ bs =>
        let s1 := (List.range (s.barriers t)).foldl (fun (s : State) n =>
          s.barChange t.cast n (.put (BitVec.ofNat 64 (field bs (8 * n) 8))) (some t.id)) s
        s1.done (s1.again t) c

/-! ### Supervisor calls and returns (R99, R214) -/

/-- R214: waits for the earlier instructions of its clause, then enters supervisor level at SVCVEC. -/
def execSvc (code : BitVec 16) (s : State) : Result :=
  issue (.svc code) s (fun _ t _ => if t.hnd || t.svcvec == 0 then some { code := .illegalInstr } else none) noTrap
    fun s t c =>
      if !t.mine.isEmpty then s
      else
        let r : Resume := { epc := t.seqAddr c, idx := BitVec.ofNat 4 c.pos, rk := 2, cmask := t.cmask c none }
        s.setTeam { (t.endsClause s.clk).enter code 0 0 0 r t.svcvec false with svl := true }

/-- The checks of R99. -/
def eretTrap (t : Team) : Option Trap :=
  if t.stack.length != ((t.readTS 4).extractLsb' 0 5).toNat then some { code := .maskStackMismatch }
  else if (t.readTS 1).extractLsb' 27 2 == 3 then some { code := .illegalInstr }
  else none

/-- R99. -/
def execEret (s : State) : Result :=
  issue .eret s (fun _ t _ => if t.hnd then none else some { code := .illegalInstr }) (fun _ t _ => eretTrap t)
    fun s t _ => s.setTeam (t.endsClause s.clk).leave

/-! ### Clocks, translations, worlds (R215) -/

/-- R215. -/
def execClkrd (d : BitVec 6) (clk : Bool) (s : State) : Result :=
  issue (.clkrd d clk) s noTrap noTrap fun s t c =>
    s.done (t.writeSS d.toNat (BitVec.ofNat 64 (if clk then s.clk else s.ns))) c

/-- Does TLBINV cover a granule of an ASID? -/
def tlbCovers (t : Team) (asid : BitVec 16) (g : Nat) : TlbKind → Bool
  | .all => true
  | .asid a => a == asid
  | .page r large a =>
    let va := (t.readSS r.toNat).toNat % 2 ^ 52
    a == asid && (if large then g / 4096 == va / 2 ^ 28 else g == va / 65536)

/-- Does TLBINV drop a TLB entry: its page overlaps the covered range? -/
def tlbDrops (t : Team) (k : TlbKind) (e : TlbEntry) : Bool :=
  match k with
  | .all => true
  | .asid a => a == e.asid
  | .page r large a =>
    let va := (t.readSS r.toNat).toNat % 2 ^ 52
    a == e.asid && (if e.large || large then (if e.large then e.page else e.page / 4096) == va / 2 ^ 28
      else e.page == va / 65536)

/-- Does an accepted query hold a covered page (R273)? -/
def State.queryHolds (s : State) (t : Team) (k : TlbKind) : Bool :=
  s.queries.any fun q => q.outs.any fun (g, _) => tlbCovers t (s.ctx q.ctx).asid g k

/-- Is an access that was translated through a covered page not yet performed (R260)? -/
def State.accessHolds (s : State) (t : Team) (k : TlbKind) : Bool :=
  (s.sweeps.any fun w => w.step.elim false fun x => x.outs.any fun (g, _) => tlbCovers t (s.ctx w.ctx).asid g k) ||
  s.teams.any fun u => u.unperformed.any fun o => !o.failed && o.outs.any fun (g, x) =>
    x.isMapped && tlbCovers t (s.ctx u.ctx).asid g k

/-- The lines of an ASID that `gone` names leave every cache of the device, written back, with their locks, the code
lines and the prefetched copies (R85, R215, R260). -/
def State.forget (s : State) (gone : BitVec 16 → Nat → Bool) : State :=
  let keep (k : LineLock) : Bool := !gone k.asid k.line
  let s1 : State := { s with
    cores := s.cores.map fun c => { c with locks := c.locks.filter keep,
                                           code := c.code.filter fun l => !gone l.asid l.line }
    locks2 := s.locks2.filter fun k => keep k.2 }
  let s2 := s1.dropLines fun l => gone l.asid l.line
  { s2 with teams := s2.teams.map fun t => t.dropPrefetch (gone (s2.ctx t.ctx).asid) }

/-- R215: each line, lock and translation of the covered range goes. -/
def execTlbinv (kind : TlbKind) (s : State) : Result :=
  issue (.tlbinv kind) s (fun _ t _ => if t.svl then none else some { code := .privileged }) noTrap fun s t c =>
    if s.queryHolds t kind || s.accessHolds t kind then s
    else
      let gone (a : BitVec 16) (l : Nat) : Bool := tlbCovers t a (l / 512) kind
      let s1 : State := { s with tlb := s.tlb.filter fun e => !tlbDrops t kind e }
      (s1.forget gone).done (t.dropPrefetch (gone (s.ctx t.ctx).asid)) c

/-- World class of the cluster of a core (R362, R367). -/
def State.clusterClass (s : State) (core : Nat) : Nat := (s.regs.clw.extractLsb' (2 * coreCluster core) 2).toNat

/-- May the context's teams enter the secure world here (R362)? -/
def State.mayBeSecure (s : State) (t : Team) : Bool :=
  s.wrt.dual.getLsbD (s.ctx t.ctx).domain.toNat && (s.clusterClass t.core == 1 || s.clusterClass t.core == 2)

/-- R215: waits for the team's accesses and engine operations, then sets its world. -/
def execWorldx (secure : Bool) (s : State) : Result :=
  issue (.worldx secure) s
    (fun s t _ =>
      if !t.svl then some { code := .privileged }
      else if secure && !s.mayBeSecure t then some { code := .worldViolation } else none)
    noTrap
    fun s t c => if t.unperformed.isEmpty && s.engineIdle t.id then s.done { t with world := secure } c else s

end Sys2Proof.Machine
end

