-- ==== Sys2Proof/Machine/Panels.lean ====
section
/-! DEFINITION. The data of the matrix engine: operand panels, weight streams, k-steps and tile images (R55, R170 to
R173, R177, R179, R180). -/

namespace Sys2Proof.Machine

/-! ### Panels (R170) -/

/-- The element format of a code. -/
def panelFmt : Nat → Fmt
  | 0 => .bf16 | 1 => .f16 | 2 => .e4m3 | 3 => .e5m2 | 4 => .mx6 | 5 => .mx6b | _ => .mx4

/-- Is a format code scaled? -/
def panelScaled (code : Nat) : Bool := 2 ≤ code

/-- Bytes of a panel, and its stride. -/
def panelBytes (code : Nat) (se8 : Bool) : Nat :=
  512 * (panelFmt code).width + (if panelScaled code then (if se8 then 128 else 192) else 0)

def panelStride (code : Nat) (se8 : Bool) : Nat := (panelBytes code se8 + 127) / 128 * 128

/-- Scale s of a panel: VS12, or E8M0. -/
def panelScale (code : Nat) (se8 : Bool) (p : List Byte) (s : Nat) : BitVec 12 :=
  let at0 := 512 * (panelFmt code).width
  if se8 then e8m0 (BitVec.ofNat 8 (field p (at0 + s) 1)) else vs12At (p.drop at0) s

/-- The byte ranges a k-step reads of a panel: `rows` rows of `kk` elements, and the scales that apply to them. -/
def panelReads (code : Nat) (se8 : Bool) (rows kk : Nat) : List (Nat × Nat) :=
  let w := (panelFmt code).width
  let at0 := 512 * w
  (List.range rows).flatMap fun x =>
    let elems := [(8 * w * x, (kk * w + 7) / 8)]
    if !panelScaled code then elems
    else
      let hs := (kk + 31) / 32
      if se8 then elems ++ [(at0 + 2 * x, hs)] else elems ++ [(at0 + 3 * x, if hs == 1 then 2 else 3)]

/-- Element k of row x of a panel: an exact value; a signalling NaN stays one. -/
def panelElem (code : Nat) (se8 : Bool) (p : List Byte) (x k : Nat) : FVal :=
  let f := panelFmt code
  let v := streamBits p ((64 * x + k) * f.width) f.width
  if panelScaled code then
    let (sc, _) := decodeVs12 (panelScale code se8 p (2 * x + k / 32))
    if sc.isNan || sc.isZero then scaledElem f v sc
    else if (f.decode v).isSNan then .nan true else scaledElem f v sc
  else f.decode v

/-- Does a scale that is read decode with E = 0 and F ≠ 0 (MSTAT.DESC)? -/
def panelDesc (code : Nat) (se8 : Bool) (p : List Byte) (rows kk : Nat) : Bool :=
  panelScaled code && (List.range rows).any fun x => (List.range ((kk + 31) / 32)).any fun h =>
    (decodeVs12 (panelScale code se8 p (2 * x + h))).2

/-! ### Products (R55, R177) -/

/-- MSTAT bits of an engine (R168): NV, OF, DESC and the others by position. -/
def mstatBit (n : Nat) (c : Bool) : Word := if c then 1#32 <<< n else 0

/-- The flags of an engine rounding as MSTAT bits: NV and OF. -/
def mstatFlags (f : Flags) : Word := mstatBit 0 (f &&& flagNV != 0) ||| mstatBit 1 (f &&& flagOF != 0)

/-- The exactly rounded sum of an accumulator and products, with its MSTAT bits (R55). -/
def dotStep (acc : Word) (as bs : List FVal) : Word × Word :=
  let ps := (as.zip bs).map fun (a, b) => (a.mul b, a.isSNan || b.isSNan)
  let (r, fl) := Fmt.f32.exactSum .rne 0 (dec32 acc.toNat :: ps.map (·.1.1))
  (BitVec.ofNat 32 r, mstatFlags fl ||| mstatBit 0 (ps.any fun p => p.1.2 || p.2))

/-- One k-step over the top-left M × N corner of a tile (R177). -/
def tileStep (tile : List Word) (rows cols : Nat) (a b : Nat → List FVal) : List Word × Word :=
  let bs := (List.range cols).map b
  let out := (List.range 4096).map fun i =>
    let m := i / 64
    let n := i % 64
    if m < rows && n < cols then dotStep (tile.getD i 0) (a m) (bs.getD n []) else (tile.getD i 0, 0)
  (out.map (·.1), out.foldl (fun w r => w ||| r.2) 0)

/-! ### Weight streams (R172, R173) -/

/-- The failure of a stream header, as its WSR value; none when it passes. -/
def streamBad (h : List Byte) : Option Nat :=
  let code := field h 5 1
  let se8 := field h 6 1
  let np := field h 8 4
  let nb := field h 12 4
  if field h 0 4 != 0x57530001 || decide (1 < field h 4 1) || decide (7 ≤ code) || decide (1 < se8)
      || (decide (code ≤ 1) && se8 != 0) || field h 7 1 != 0 then some 1
  else if np == 0 || nb != np * panelStride code (se8 == 1) || decide (524288 < nb)
      || (field h 4 1 == 0 && field h 16 4 != 0) then some 2
  else if !zeroBytes h 20 44 then some 1
  else none

/-- Length of a stream by its header. -/
def streamLen (h : List Byte) : Nat := if field h 4 1 == 0 then 64 + field h 12 4 else 704 + 2 * field h 16 4

/-- What decoding a stream gives. -/
inductive Decoded where
  | bytes (bs : List Byte)
  | fail (wsr : Nat)
  /-- The words at hand ran out after so many decoded bytes. -/
  | short (n : Nat)
deriving DecidableEq, Repr

/-- The byte whose interval holds a slot, with the start of its interval and its frequency. -/
def ransSymbol : List Nat → Nat → Nat → Nat → Nat × Nat × Nat
  | [], s, c, _ => (s, c, 0)
  | f :: fs, s, c, slot => if slot < c + f then (s, c, f) else ransSymbol fs (s + 1) (c + f) slot

/-- The decoding loop of R173: states, words left, words at hand, decoded bytes (latest first). -/
def ransLoop (freq : List Nat) (nwords avail : Nat) (word : Nat → Nat) :
    (left i : Nat) → List Nat → Nat → List Byte → Decoded
  | 0, _, xs, p, out => if p != nwords || xs.any (· != 65536) then .fail 6 else .bytes out.reverse
  | left + 1, i, xs, p, out =>
    let j := i % 32
    let x := xs.getD j 0
    let slot := x % 4096
    let (s, c, f) := ransSymbol freq 0 0 slot
    let x1 := f * (x / 4096) + slot - c
    if x1 < 65536 then
      if p == nwords then .fail 5
      else if avail ≤ p then .short i
      else ransLoop freq nwords avail word left (i + 1) (setAt xs j (x1 * 65536 + word p) 0) (p + 1) (BitVec.ofNat 8 s :: out)
    else ransLoop freq nwords avail word left (i + 1) (setAt xs j x1 0) p (BitVec.ofNat 8 s :: out)

/-- The decoding of a stream of which the first `avail` bytes are at hand (R173). -/
def streamDecode (st : List Byte) (avail : Nat) : Decoded :=
  let nb := field st 12 4
  if field st 4 1 == 0 then
    if avail < 64 + nb then .short (avail - 64) else .bytes ((st.drop 64).take nb)
  else if avail < 704 then .short 0
  else
    let raw := (List.range 256).map fun s => field st (64 + 2 * s) 2
    let freq := raw.map (· % 8192)
    if raw.any (8192 ≤ ·) || freq.foldl (· + ·) 0 != 4096 then .fail 3
    else
      let xs := (List.range 32).map fun j => field st (576 + 4 * j) 4
      if xs.any (· < 65536) then .fail 4
      else ransLoop freq (field st 16 4) ((avail - 704) / 2) (fun p => field st (704 + 2 * p) 2) nb 0 xs 0 []

/-! ### Tile images (R179) -/

/-- The format of EF. -/
def imageFmt : Nat → Fmt
  | 0 => .f32 | 1 => .bf16 | _ => .f16

/-- Bytes of an element of an image. -/
def imageElem (ef : Nat) : Nat := if ef == 0 then 4 else 2

/-- A tile from an image, with MSTAT bits. -/
def tileOfImage (ef : Nat) (bs : List Byte) : List Word × Word :=
  let e := imageElem ef
  let out := (List.range 4096).map fun i =>
    let x := field bs (e * i) e
    if ef == 0 then (BitVec.ofNat 32 x, (0 : Word))
    else
      let v := (imageFmt ef).decode x
      (BitVec.ofNat 32 (if v.isNan then Fmt.f32.canonicalNan else (Fmt.f32.round .rne 0 v).1), mstatBit 0 v.isSNan)
  (out.map (·.1), out.foldl (fun w r => w ||| r.2) 0)

/-- The image of a tile, with MSTAT bits. -/
def imageOfTile (ef : Nat) (tile : List Word) : List Byte × Word :=
  let e := imageElem ef
  let out := (List.range 4096).map fun i =>
    let w := tile.getD i 0
    if ef == 0 then (leBytes 4 w.toNat, (0 : Word))
    else
      let (r, fl) := (imageFmt ef).round .rne 0 (dec32 w.toNat)
      (leBytes e r, mstatFlags fl)
  (out.flatMap (·.1), out.foldl (fun w r => w ||| r.2) 0)

/-- The drain of a tile into an FP32 image (R180). -/
def drainImage (tile : List Word) (bs : List Byte) : List Byte × Word :=
  let out := (List.range 4096).map fun i =>
    Fmt.f32.exactSum .rne 0 [dec32 (field bs (4 * i) 4), dec32 (tile.getD i 0).toNat]
  (out.flatMap fun r => leBytes 4 r.1, out.foldl (fun w r => w ||| mstatFlags r.2) 0)

end Sys2Proof.Machine
end

