-- ==== Sys2Proof/Machine/Matrix.lean ====
section
/-! DEFINITION. Class 3: issue, acceptance and the command queue (R164 to R168, R171 to R176, R184), and the engine's
steps for products, weights and tile images (R177 to R181). -/

namespace Sys2Proof.Machine

/-! ### Issue (R164, R165, R167) -/

/-- The matrix context of the team's cast. -/
def State.mctxOf (s : State) (t : Team) : Option Nat := (s.cast? t.cast).bind (·.mctx)

/-- Tile number, entry number and MATD fields of an instruction. -/
def F2.tile (o : F2) : Nat := (o.ext.imm.extractLsb' 8 4).toNat
/-- Weight entry. -/
def F2.wentry (o : F2) : Nat := (o.ext.imm.extractLsb' 0 5).toNat
/-- Count of ACCZ. -/
def F2.tiles (o : F2) : Nat := (o.ext.imm.extractLsb' 4 4).toNat + 1

/-- A matrix descriptor (R171). -/
structure Matd where
  n    : Nat
  m    : Nat
  bse8 : Bool
  ase8 : Bool
  bfmt : Nat
  afmt : Nat
  k    : Nat
  aoff : Nat
deriving DecidableEq, Repr

/-- The fields of a MATD; the scratch offset in bytes. -/
def Matd.ofNat (d : Nat) : Matd :=
  { n := bitsOf d 63 58 + 1, m := bitsOf d 57 52 + 1, bse8 := d.testBit 51, ase8 := d.testBit 50,
    bfmt := bitsOf d 49 47, afmt := bitsOf d 46 44, k := bitsOf d 43 32 + 1, aoff := 128 * bitsOf d 15 0 }

/-- ILLEGAL_INSTR of a MATD (R171); `mma` has its B format from the entry. -/
def matdBad (mma : Bool) (d : Nat) : Bool :=
  let x := Matd.ofNat d
  bitsOf d 31 16 != 0 || x.afmt == 7 || x.bfmt == 7 || (x.ase8 && decide (x.afmt ≤ 1)) || (x.bse8 && decide (x.bfmt ≤ 1))
    || (mma && (x.bfmt != 0 || x.bse8))

/-- Number of k-steps. -/
def Matd.steps (x : Matd) : Nat := (x.k + 63) / 64

/-- ILLEGAL_INSTR of class 3 beyond the encoding: no matrix context, a tile beyond the count, a bad MATD. -/
def matIllegal (i : Instr) (s : State) (t : Team) : Bool :=
  let tiles := partTiles (s.core t.core).partw
  (s.mctxOf t).isNone || match i with
    | .mma o => decide (tiles ≤ F2.tile o) || matdBad true (t.udword o.a).toNat
    | .mmas o => decide (tiles ≤ F2.tile o) || matdBad false (t.udword o.a).toNat
    | .accld o | .accst o | .accdr o | .accrd o => decide (tiles ≤ F2.tile o)
    | .accz o => decide (tiles < F2.tile o + F2.tiles o)
    | _ => false

/-- The operand of A or B as an address: a pair for SZ 2, an offset for SZ 10. -/
def matAddr (t : Team) (sz : BitVec 4) (x : Operand) : Nat :=
  if szScratch sz then (t.uword x).toNat else (t.udword x).toNat

/-- The operand values an instruction captures (R68): its address, block, descriptor or row, then its second. -/
def matArgs (i : Instr) (t : Team) : List Nat :=
  match i with
  | .wbload o | .accld o | .accst o | .accdr o => [matAddr t o.ext.sz o.a]
  | .mma o => [(t.udword o.a).toNat]
  | .mmas o => [(t.udword o.a).toNat, matAddr t o.ext.sz o.ext.b]
  | .accrd o | .attn o | .attnfin o | .psel o | .demote o => [(t.uword o.a).toNat]
  | .kvapp o => [(t.udword o.a).toNat, (t.uword o.ext.b).toNat]
  | .kvres o => [(t.udword o.a).toNat]
  | _ => []

/-- The alignments of R167, value and multiple, in the order it lists them (log 45). -/
def matAligns (i : Instr) (args : List Nat) : List (Nat × Nat) :=
  let a := args.getD 0 0
  let b := args.getD 1 0
  match i with
  | .wbload _ | .accld _ | .accst _ | .accdr _ => [(a, 128)]
  | .mmas _ => [(b, 128)]
  | .psel _ | .attn _ | .attnfin _ | .demote _ => [(a, blockSize i)]
  | .kvapp _ => [(b, 64), (a, 32)]
  | .kvres _ => [(a, 32)]
  | _ => []

/-- Scratch ranges an instruction touches by its operands alone: offset, length, destination (R166). -/
def matRanges (i : Instr) (args : List Nat) : List (Nat × Nat × Bool) :=
  let a := args.getD 0 0
  let d := Matd.ofNat a
  let panels := (d.aoff, d.steps * panelStride d.afmt d.ase8, false)
  match i with
  | .wbload o => if szScratch o.ext.sz then [(a, 64, false)] else []
  | .mma _ => [panels]
  | .mmas o =>
    panels :: if szScratch o.ext.sz then [(args.getD 1 0, d.steps * panelStride d.bfmt d.bse8, false)] else []
  | .accld o => if szScratch o.ext.sz then [(a, 4096 * imageElem o.ext.fn.toNat, false)] else []
  | .accst o => if szScratch o.ext.sz then [(a, 4096 * imageElem o.ext.fn.toNat, true)] else []
  | .accdr o => if szScratch o.ext.sz then [(a, 16384, true)] else []
  | .psel _ | .attn _ | .attnfin _ | .demote _ => [(a, blockSize i, false)]
  | _ => []

/-- The first range that passes the end of the scratch. -/
def beyondScratch (size : Nat) (rs : List (Nat × Nat × Bool)) : Option Nat :=
  (rs.find? fun (o, n, _) => decide (size < o + n)).map (·.1)

/-- The traps at issue, in the order of R7: ILLEGAL_CONVERGENCE, MISALIGNED, PROTECTION. -/
def matTrap (i : Instr) (s : State) (t : Team) : Option Trap :=
  let args := matArgs i t
  if t.act != t.existing &&& ~~~t.exited then some { code := .illegalConvergence }
  else match (matAligns i args).find? fun (x, k) => x % k != 0 with
    | some (x, _) => some { code := .misaligned, addr := BitVec.ofNat 64 x }
    | none =>
      (beyondScratch (s.scratchSize t) (matRanges i args)).map fun x => { code := .protection, addr := BitVec.ofNat 64 x }

/-- A class 3 instruction at issue: it becomes outstanding until its command is accepted (R166). -/
def issueMat (i : Instr) (o : F2) (s : State) : Result :=
  issue i s (fun s t _ => if matIllegal i s t then some { code := .illegalInstr } else none) (fun s t _ => matTrap i s t)
    fun s t c => s.enqueue t c { t.entry c i o s.nextId s.clk with args := matArgs i t }

/-- R175. -/
def execWbload (o : F2) (s : State) : Result := issueMat (.wbload o) o s
/-- R176. -/
def execWbdrop (o : F2) (s : State) : Result := issueMat (.wbdrop o) o s
/-- R177. -/
def execMma (o : F2) (s : State) : Result := issueMat (.mma o) o s
/-- R177. -/
def execMmas (o : F2) (s : State) : Result := issueMat (.mmas o) o s
/-- R179. -/
def execAccz (o : F2) (s : State) : Result := issueMat (.accz o) o s
/-- R179. -/
def execAccld (o : F2) (s : State) : Result := issueMat (.accld o) o s
/-- R179. -/
def execAccst (o : F2) (s : State) : Result := issueMat (.accst o) o s
/-- R180. -/
def execAccdr (o : F2) (s : State) : Result := issueMat (.accdr o) o s
/-- R181. -/
def execAccrd (o : F2) (s : State) : Result := issueMat (.accrd o) o s
/-- R168. -/
def execAccrdSt (o : F2) (s : State) : Result := issueMat (.accrdSt o) o s
/-- R189. -/
def execAttn (o : F2) (s : State) : Result := issueMat (.attn o) o s
/-- R191. -/
def execAttnfin (o : F2) (s : State) : Result := issueMat (.attnfin o) o s
/-- R187. -/
def execPsel (o : F2) (s : State) : Result := issueMat (.psel o) o s
/-- R185. -/
def execKvapp (o : F2) (s : State) : Result := issueMat (.kvapp o) o s
/-- R192. -/
def execDemote (o : F2) (s : State) : Result := issueMat (.demote o) o s
/-- R193. -/
def execKvres (o : F2) (s : State) : Result := issueMat (.kvres o) o s

/-! ### KV page descriptors (R182, R184) -/

/-- A KVPD by fields. -/
structure Kvpd where
  sva   : Nat
  fmt   : Nat
  tier  : Bool
  pin   : Bool
  held  : Bool
  sink  : Bool
  busy  : Bool
  valid : Bool
  mass  : Nat
  gen   : Nat
  ntok  : Nat
  dim   : Nat
  sumva : Nat
  seq   : Nat
  lpi   : Nat
  /-- Is a reserved field non-zero? -/
  resv  : Bool
deriving DecidableEq, Repr

/-- The fields of four words. -/
def Kvpd.ofWords (ws : List DWord) : Kvpd :=
  let w (k : Nat) : Nat := (ws.getD k 0).toNat
  { sva := bitsOf (w 0) 51 8 * 256, fmt := bitsOf (w 0) 7 6, tier := (w 0).testBit 5, pin := (w 0).testBit 4,
    held := (w 0).testBit 3, sink := (w 0).testBit 2, busy := (w 0).testBit 1, valid := (w 0).testBit 0,
    mass := bitsOf (w 1) 63 40, gen := bitsOf (w 1) 39 32, ntok := bitsOf (w 1) 31 25, dim := bitsOf (w 1) 24 23,
    sumva := bitsOf (w 2) 51 9 * 512, seq := bitsOf (w 3) 63 32, lpi := bitsOf (w 3) 31 0,
    resv := bitsOf (w 0) 63 52 != 0 || bitsOf (w 1) 22 0 != 0 || bitsOf (w 2) 63 52 != 0 || bitsOf (w 2) 8 0 != 0 }

/-- The KVR reason of a descriptor (R184), for the head dimension code of the command when it has one. -/
def kvrOf (k : Kvpd) (dim : Option Nat) : Option Nat :=
  if !k.valid then some 1
  else if k.resv || k.dim == 3 then some 2
  else if dim.elim false (· != k.dim) then some 3
  else if 64 < k.ntok then some 4
  else if k.tier && k.fmt != 3 then some 5
  else none

/-- The words of a byte list as 64-bit words. -/
def dwordsOf (bs : List Byte) : List DWord :=
  (List.range (bs.length / 8)).map fun k => BitVec.ofNat 64 (field bs (8 * k) 8)

/-! ### Acceptance (R166, R167, R172, R174 to R176) -/

/-- What acceptance finds. -/
inductive Accept where
  | wait
  /-- A trap, with the reason that MSTAT.KVR or MSTAT.WSR receives. -/
  | fail (tr : Trap) (kvr wsr : Option Nat)
  /-- WBLOAD with too few units: status 1. -/
  | refuse
  | take (c : Command) (rs : List (Nat × Nat × Bool))
deriving DecidableEq, Repr

/-- A trap without a reason. -/
def failWith (code : TrapCode) (a : Nat) : Accept := .fail { code := code, addr := BitVec.ofNat 64 a } none none

/-- KV_DESCRIPTOR with its reason. -/
def failKv (a r : Nat) : Accept := .fail { code := .kvDescriptor, addr := BitVec.ofNat 64 a } (some r) none

/-- A command of an entry, without data. -/
def commandOf (t : Team) (e : Outst) (o : F2) : Command :=
  { op := e.seq, instr := e.instr, team := t.id, ctx := t.ctx, kc := counterOf o.d, args := e.args, block := [],
    snaps := [], weight := Weight.reset, outst := none, started := false, prog := 0, susp := none, cleared := false,
    world := t.world, fin := false, bounds := [], massed := none }

/-- Weight units that no entry and no queued WBDROP holds (R174, R176). -/
def Core.freeUnits (c : Core) : Nat :=
  128 - (c.weights.map (·.units)).foldl (· + ·) 0
    - (c.matrix.flatMap fun m => m.queue.filterMap fun k =>
        match k.instr with | .wbdrop _ => some k.weight.units | _ => none).foldl (· + ·) 0

/-- Does another matrix context own the entry? -/
def Weight.foreign (w : Weight) (m : Nat) : Bool := w.state != .free && w.owner != m
/-- Does the matrix context own the entry? -/
def Weight.mine (w : Weight) (m : Nat) : Bool := w.state != .free && w.owner == m

/-- The bytes of an operand in scratch or memory, and whether they read uncorrectable. -/
def State.operand (s : State) (t : Team) (e : Outst) (scr : Bool) (a n : Nat) : List Byte × Bool :=
  if scr then (s.scr t a n, (s.cast? t.cast).elim false fun c => c.sbad a n)
  else (s.vread e.outs a n, s.vbad e.outs a n)

/-- Memory that an engine reads before acceptance: counted where there is none (R336), and its lines filled (R251). -/
def State.engineRead (s : State) (outs : List (Nat × Xlat)) (va n : Nat) : State :=
  (s.countReads outs va n).fillLines outs va n false (some .normal)

/-- Acceptance of WBLOAD (R172, R175). The length of a stream stands in the first burst of its header (R7, log 82). -/
def acceptWbload (s : State) (t : Team) (e : Outst) (o : F2) (m : Nat) : Accept :=
  let a := e.arg 0
  let scr := szScratch o.ext.sz
  let w := (s.core t.core).weight (F2.wentry o)
  let (h, bad) := s.operand t e scr a 64
  if Weight.foreign w m || (scr && !(s.headBad t e.outs scr a).1 && decide (s.scratchSize t < a + streamLen h)) then failWith .protection a
  else if bad then failWith .memoryError a
  else match streamBad h with
  | some r => .fail { code := .weightStream, addr := BitVec.ofNat 64 a } none (some r)
  | none =>
    let units := (field h 12 4 + 4095) / 4096
    let own := if Weight.mine w m then w.units else 0
    if (s.core t.core).freeUnits + own < units then .refuse
    else
      let x : Weight := { state := .loading, owner := m, units := units, bfmt := field h 5 1, se8 := field h 6 1 == 1,
                          npanel := field h 8 4, bytes := [], ctx := t.ctx, load := e.seq }
      .take { commandOf t e o with block := h, weight := x } (if scr then [(a, streamLen h, false)] else [])

/-- Acceptance of MMA (R174, R177). -/
def acceptMma (s : State) (t : Team) (e : Outst) (o : F2) (m : Nat) : Accept :=
  let w := (s.core t.core).weight (F2.wentry o)
  let d := Matd.ofNat (e.arg 0)
  if !Weight.mine w m || decide (w.npanel < d.steps) then failWith .protection 0
  else match w.state with
  | .ready => .take { commandOf t e o with weight := w } (matRanges e.instr e.args)
  | .bad => failWith .weightStream 0
  | _ => .wait

/-- The head dimension code that a command block names. -/
def blockDim (i : Instr) (b : List Byte) : Option Nat :=
  match i with
  | .psel _ => some (field b 7 1)
  | .attn _ => some (field b 4 1)
  | _ => none

/-- The reason a listed descriptor fails (R184): its address, then its snapshot; ATTNFIN checks VALID alone (R191). -/
def listedBad (i : Instr) (dim : Option Nat) (va : Nat) (ws : List DWord) : Option Nat :=
  if va % 32 != 0 then some 6
  else match i with
    | .attnfin _ => if (Kvpd.ofWords ws).valid then none else some 1
    | _ => kvrOf (Kvpd.ofWords ws) dim

/-- Acceptance of a command with a block (R167): fields, then the ranges and lists they define, then the snapshots. -/
def acceptBlock (s : State) (t : Team) (e : Outst) (o : F2) : Accept :=
  let a := e.arg 0
  let (b, bad) := s.operand t e true a (blockSize e.instr)
  if bad then failWith .memoryError a
  else if blockBad e.instr b then failKv a 7
  else
    let rs := blockRanges e.instr a b
    if (beyondScratch (s.scratchSize t) rs).isSome then failWith .protection a
    else if !s.mapped t e then .wait
    else
      let lists := blockLists e.instr b
      match lists.find? fun (va, n) => s.vbad e.outs va (8 * n) with
      | some (va, _) => failWith .memoryError va
      | none =>
        let vas := lists.flatMap fun (va, n) => pageVas (s.vread e.outs va (8 * n)) n
        match vas.find? fun va => va % 32 == 0 && s.vbad e.outs va 32 with
        | some va => failWith .memoryError va
        | none =>
          let snaps := vas.map fun va => (va, dwordsOf (s.vread e.outs va 32))
          match snaps.findSome? fun x => (listedBad e.instr (blockDim e.instr b) x.1 x.2).map fun r => (x.1, r) with
          | some (va, r) => failKv va r
          | none => .take { commandOf t e o with block := b, snaps := snaps } rs

/-- Acceptance of KVAPP and KVRES (R167, R184, R185, R193). The token range of a KVPD that cannot be read is not known, and
so not checked (R7, log 82). -/
def acceptPage (s : State) (t : Team) (e : Outst) (o : F2) (tokens : Bool) : Accept :=
  let a := e.arg 0
  let ws := dwordsOf (s.vread e.outs a 32)
  let k := Kvpd.ofWords ws
  let n := 4 * headDim k.dim
  if s.vbad e.outs a 32 then failWith .memoryError a
  else if tokens && k.dim != 3 && decide (s.scratchSize t < e.arg 1 + n) then failWith .protection (e.arg 1)
  else match kvrOf k none with
  | some r => failKv a r
  | none => .take { commandOf t e o with snaps := [(a, ws)] } (if tokens then [(e.arg 1, n, false)] else [])

/-- Acceptance by instruction. -/
def acceptOf (s : State) (t : Team) (e : Outst) (m : Nat) : Accept :=
  match e.instr with
  | .wbload o => acceptWbload s t e o m
  | .wbdrop o =>
    let w := (s.core t.core).weight (F2.wentry o)
    if Weight.mine w m then .take { commandOf t e o with weight := w } [] else failWith .protection 0
  | .mma o => acceptMma s t e o m
  | .mmas o | .accz o | .accld o | .accst o | .accdr o => .take (commandOf t e o) (matRanges e.instr e.args)
  | .accrd o | .accrdSt o => .take { commandOf t e o with kc := none, outst := some e.seq } []
  | .psel o | .attn o | .attnfin o | .demote o => acceptBlock s t e o
  | .kvapp o => acceptPage s t e o true
  | .kvres o => acceptPage s t e o false
  | _ => .wait

/-- A class 3 instruction that its queue has not taken. -/
def Outst.offered (e : Outst) : Bool :=
  !e.taken && match e.instr with
    | .wbload _ | .wbdrop _ | .mma _ | .mmas _ | .accz _ | .accld _ | .accst _ | .accdr _ | .accrd _ | .accrdSt _ | .attn _
    | .attnfin _ | .psel _ | .kvapp _ | .demote _ | .kvres _ => !e.failed
    | _ => false

/-- Is an instruction of the cast that issued earlier still to be accepted (R166)? -/
def State.notFirst (s : State) (t : Team) (e : Outst) : Bool :=
  s.teams.any fun u => u.cast == t.cast && u.outst.any fun x => x.offered && decide (x.seq < e.seq)

/-- A change of MSTAT. -/
def State.onMstat (s : State) (core m : Nat) (f : Word → Word) : State :=
  s.onMatrix core m fun x => { x with mstat := f x.mstat }

/-- MSTAT bits set. -/
def State.raiseMstat (s : State) (core m : Nat) (w : Word) : State := s.onMstat core m (· ||| w)

/-- A 4-bit field of MSTAT replaced. -/
def setNibble (lo : Nat) (v : Nat) (w : Word) : Word :=
  (w &&& ~~~(0xF#32 <<< lo)) ||| (BitVec.ofNat 32 (v % 16) <<< lo)

/-- MSTAT reasons written by a trap. -/
def State.reasons (s : State) (core m : Nat) (kvr wsr : Option Nat) : State :=
  let s1 := match kvr with
    | some r => s.onMstat core m (setNibble 12 r)
    | none => s
  match wsr with
  | some r => s1.onMstat core m (setNibble 16 r)
  | none => s1

/-- The state of the weight entries changes at acceptance (R175, R176). -/
def State.weightTaken (s : State) (core : Nat) (c : Command) : State :=
  match c.instr with
  | .wbload o => s.onWeight core (F2.wentry o) fun _ => c.weight
  | .wbdrop o => s.onWeight core (F2.wentry o) fun _ => Weight.reset
  | _ => s

/-- The status register of WBLOAD (R175). -/
def wbStatus (e : Outst) (v : Nat) (t : Team) : Team :=
  match e.instr with
  | .wbload o => t.put o.ext.b false fun _ => v
  | _ => t

/-! ### Running commands (R166, R178) -/

/-- The queue of a matrix context. -/
def State.mqueue (s : State) (core m : Nat) : List Command := ((s.core core).mctx m).queue

/-- The command a matrix context runs: its oldest, not suspended, and not held by earlier ranges. -/
def State.running? (s : State) (core m : Nat) : Option Command :=
  match s.mqueue core m with
  | [] => none
  | c :: _ => if s.alive c.ctx && c.susp.isNone && (c.started || !(s.core core).holds c.op) then some c else none

/-- The oldest command changed. -/
def State.onHead (s : State) (core m : Nat) (f : Command → Command) : State :=
  s.onMatrix core m fun x => { x with queue := match x.queue with | [] => [] | c :: r => f c :: r }

/-- Opcode of a class 3 instruction (R165). -/
def matOp : Instr → Nat
  | .wbload _ => 0 | .wbdrop _ => 1 | .mma _ => 2 | .mmas _ => 3 | .accz _ => 4 | .accld _ => 5 | .accst _ => 6
  | .accdr _ => 7 | .accrd _ | .accrdSt _ => 8 | .attn _ => 9 | .attnfin _ => 10 | .psel _ => 11 | .kvapp _ => 12
  | .demote _ => 14 | .kvres _ => 15 | _ => 0

/-- The identity of a command for a fault. -/
def Command.engine (c : Command) (core m : Nat) : EngineId :=
  { key := c.op, ctx := c.ctx, core := core, world := c.world, cls := 3, op := matOp c.instr, m := m, prog := c.prog }

/-- The cast that owns a matrix context. -/
def State.castOfMatrix (s : State) (core m : Nat) : Option Cast :=
  (s.casts.find? fun c => c.core == core && c.mctx == some m)

/-- A sweep that a DEMOTE or KVRES passes to Dusk (R166, R192, R193). -/
def sweepOf (s : State) (core m : Nat) (c : Command) : Sweep :=
  let b := c.block
  let demote := match c.instr with | .demote _ => true | _ => false
  { op := c.op, die := coreDie core, ctx := c.ctx, source := if demote then .demote else .kvres, world := c.world,
    team := c.team, core := core, m := m, cast := (s.castOfMatrix core m).elim 0 (·.id), kc := c.kc,
    np := if demote then field b 0 4 else 1, nrec := if demote then field b 4 4 else 0,
    thr := if demote then (List.range 4).map fun k => field b (8 + 4 * k) 4 else [],
    listva := if demote then field b 24 8 else c.args.getD 0 0, status := if demote then field b 32 4 else 0,
    table := (s.ctx c.ctx).table, bind := (s.ctx c.ctx).binds, pos := 0, counts := [0, 0, 0, 0, 0, 0], step := none,
    snap := if demote then [] else (c.snaps.head?).elim [] (·.2), susp := none }

/-- DEMOTE and KVRES at their turn pass to the die's Dusk engine when it has room (R166, R304). Their turn comes when every
earlier command has ended, or does nothing more than add mass: a sweep may halve a MASS before an addition or after it
(R194, R390). -/
def State.passDusk (s : State) (core m : Nat) : State :=
  let q := s.mqueue core m
  let adding := q.takeWhile fun c => c.massed.isSome
  match q.drop adding.length with
  | [] => s
  | c :: rest =>
    if matOp c.instr < 14 || !s.alive c.ctx || (s.core core).holds c.op
        || decide (Config.duskQueue ≤ (s.sweeps.filter (·.die == coreDie core)).length) then s
    else { s.onMatrix core m fun x => { x with queue := adding ++ rest } with sweeps := s.sweeps ++ [sweepOf s core m c] }

/-- The oldest command ends (R166): ranges released, Kc incremented. -/
def State.finishCommand (s : State) (core m : Nat) (c : Command) : State :=
  ((s.onMatrix core m fun x => { x with queue := x.queue.tail }).releaseOp c.op).bump c.team c.kc

/-- The oldest command has made its effects; it ends once its remote writes are acknowledged (R355). -/
def State.endCommand (s : State) (core m : Nat) (c : Command) : State :=
  if s.unanswered c.op then s.onHead core m fun c => { c with started := true, fin := true } else s.finishCommand core m c

/-- The oldest command is suspended at an address (R178, R273). -/
def State.suspendHead (core m : Nat) (va : DWord) (s : State) : State :=
  s.onHead core m fun c => { c with started := true, susp := some (granule va.toNat, va), cleared := false }

/-- Does a unit of work wait in a matrix context for the engine's turn (R295)? A command that only waits for
acknowledgements or for a host's answer has none, and DEMOTE and KVRES take none (R166). -/
def State.unitReady (s : State) (core m : Nat) : Bool :=
  (s.running? core m).elim false fun c =>
    decide (matOp c.instr < 14) && !c.fin && !s.atsWaits.any fun w => w.key == c.op && !w.refused

/-- Is it the turn of a matrix context (R295)? In Isolated mode turns are of time, which the model leaves free (log 4); in
the other modes the next context in the order 0, 1, 2, 3 that has a ready unit is served. -/
def State.engineTurn (s : State) (core m : Nat) : Bool :=
  let last := (s.core core).served
  s.regs.isolated || (((List.range 4).map fun k => (last + 1 + k) % 4).find? (s.unitReady core)) == some m

/-- The engine has served a matrix context. -/
def State.turned (s : State) (core m : Nat) : State := s.onCore core fun k => { k with served := m }

/-- A step of the engine on the oldest command: `can` names the commands, `step` moves one. A command that only waits
for acknowledgements ends here. -/
def engineStep (s : State) (core m : Nat) (can : Instr → Bool) (step : State → Command → State) : Result :=
  match s.running? core m with
  | none => .next s
  | some c =>
    if !can c.instr then .next s
    else if c.fin then .next (if s.unanswered c.op then s else s.finishCommand core m c)
    else if !s.engineTurn core m then .next s
    else .next ((step s c).turned core m)

/-- The ranges that a command reads, with those it reads at .dev, and writes, as the accesses of its engine. -/
def Command.ranges (c : Command) (core : Nat) (rds dev wrs : List (Nat × Nat)) : List (Mode × Nat × Nat) :=
  let die := coreDie core
  rds.map (fun r => (engMode die c.world true false, r.1, r.2))
    ++ dev.map (fun r => ({ engMode die c.world true false with dev := true }, r.1, r.2))
    ++ wrs.map fun r => (engMode die c.world false true, r.1, r.2)

/-- The engine's access to memory: granules checked, an outcome handled; then `k` with the translations. -/
def State.engAllowed (s : State) (core m : Nat) (c : Command) (rs : List (Mode × Nat × Nat))
    (k : List (Nat × Xlat) → State) : State :=
  match s.engChecks (s.ctx c.ctx) rs with
  | some (x, va, wr) => s.engFail (c.engine core m) x va wr (State.suspendHead core m va)
  | none => k (s.engOuts (s.ctx c.ctx) rs)

/-- The same, with its lines filled, where an uncorrectable error in what it reads faults the context; `dev` are the ranges
read at .dev. -/
def State.engAccess (s : State) (core m : Nat) (c : Command) (rds wrs : List (Nat × Nat))
    (k : State → List (Nat × Xlat) → State) (dev : List (Nat × Nat) := []) : State :=
  let rs := c.ranges core rds dev wrs
  s.engAllowed core m c rs fun outs =>
    let s1 := s.engTouch (s.ctx c.ctx) rs
    if (rds ++ dev).any fun r => s1.vbad outs r.1 r.2 then s1.engBad c.ctx core else k s1 outs

/-- Bytes of the scratch of a matrix context's cast. -/
def State.mscr (s : State) (core m off n : Nat) : List Byte := (s.castOfMatrix core m).elim [] fun c => c.sread off n

/-- Do they read uncorrectable? -/
def State.mscrBad (s : State) (core m : Nat) (rs : List (Nat × Nat)) : Bool :=
  (s.castOfMatrix core m).elim false fun c => rs.any fun r => c.sbad r.1 r.2

/-- A write of that scratch. -/
def State.mscrWrite (s : State) (core m off : Nat) (bs : List Byte) : State :=
  match s.castOfMatrix core m with
  | none => s
  | some c => s.landScratch c.id none off bs

/-- A tile of a matrix context. -/
def State.tile (s : State) (core m k : Nat) : List Word := ((s.core core).mctx m).tiles.getD k []

/-- A tile replaced. -/
def State.setTile (s : State) (core m k : Nat) (ws : List Word) : State :=
  s.onMatrix core m fun x => { x with tiles := setAt x.tiles k ws [] }

/-- R166: a command enters its context's queue, its trap is met, or it waits. -/
def execCommandAcceptance (t k : Nat) (s : State) : Result :=
  match s.entry? t k with
  | none => .next s
  | some (tm, e) =>
    match s.mctxOf tm with
    | none => .next s
    | some m =>
      if !e.offered || !tm.inOrder e || s.notFirst tm e || (s.unanswered? tm e).isSome then .next s
      else match acceptOf s tm e m with
      | .wait => .next s
      | .fail tr kvr wsr => .next ((s.reasons tm.core m kvr wsr).failEntry tm e tr)
      | .refuse => .next (s.complete (wbStatus e 1 tm) e)
      | .take c rs =>
        let adds := (rs.flatMap fun r => rangeOf c.op r.2.2 (.scratch tm.cast) r.1 r.2.1).map (tm.core, ·)
        if decide (Config.commandQueue ≤ (s.mqueue tm.core m).length) || !s.rangeRoom adds || s.heldByAccess adds then
          .next s
        else
          let s0 := (s.reach tm e).foldl (fun (s : State) r => if r.rd then s.engineRead e.outs r.va r.len else s) s
          let s1 := ((s0.register adds).weightTaken tm.core c).onMatrix tm.core m fun x => { x with queue := x.queue ++ [c] }
          let s2 :=
            if c.outst.isSome then
              s1.setTeam { tm with outst := replaceIf tm.outst (·.seq == k) fun e => { e with taken := true } }
            else s1.complete (wbStatus e 0 tm) e
          .next s2

/-- R178: a suspended command whose page is resolved resumes at its progress value. -/
def execCommandResume (core m : Nat) (s : State) : Result :=
  match s.mqueue core m with
  | c :: _ =>
    if c.susp.isSome && c.cleared && s.alive c.ctx then
      .next (s.onHead core m fun c => { c with susp := none, cleared := false })
    else .next s
  | [] => .next s

/-! ### Weights (R173, R175, R176) -/

/-- The WBLOAD ends with its entry READY or BAD, when that entry still waits for it. -/
def State.weightLoaded (s : State) (core m : Nat) (c : Command) (n : Nat) (r : Decoded) : State :=
  let put (f : Weight → Weight) : State := s.onWeight core n fun w => if w.load == c.op &&
      w.state == .loading then f w else w
  match r with
  | .bytes bs => (put fun w => { w with state := .ready, bytes := bs }).endCommand core m c
  | .fail k =>
    (((put fun w => { w with state := .bad }).onMstat core m (setNibble 16 k)).raiseMstat core m (mstatBit 9 true)).endCommand
      core m c
  | .short _ => s

/-- R173: the engine decodes a stream, or is suspended at the first decoded byte it cannot form; the command keeps the
bytes that it has read (R273). -/
def execWbloadDecode (core m : Nat) (s : State) : Result :=
  engineStep s core m (fun i => matOp i == 0 && i.starts) fun s c =>
    match c.instr with
    | .wbload o =>
      let a := c.args.getD 0 0
      let len := streamLen c.block
      if szScratch o.ext.sz then
        if s.mscrBad core m [(a, len)] then s.engBad c.ctx core
        else s.weightLoaded core m c (F2.wentry o) (streamDecode (c.block ++ (s.mscr core m a len).drop 64) len)
      else
        let cx := s.ctx c.ctx
        let mode := engMode (coreDie core) c.world true false
        let from' := a + c.block.length
        let left := len - c.block.length
        let outs := s.xlatRange cx mode from' left
        let have' := ((granules from' left).takeWhile fun g => (lookupX outs g).elim false Xlat.isMapped).length
        let avail := min left ((granule from' + have') * 65536 - from')
        let s := s.engTouch cx [(mode, from', avail)]
        if s.vbad outs from' avail then s.engBad c.ctx core
        else
          let st := c.block ++ s.vread outs from' avail
          match streamDecode st st.length with
          | .short n =>
            let va := max from' ((granule from' + have') * 65536)
            let x := (lookupX outs (granule va)).getD .missing
            s.engFail { c.engine core m with prog := n } x (BitVec.ofNat 64 va) false fun s =>
              (State.suspendHead core m (BitVec.ofNat 64 va) s).onHead core m fun c => { c with prog := n, block := st }
          | r => s.weightLoaded core m c (F2.wentry o) r
    | _ => s

/-- R176: the units of a dropped entry return; the command's own count held them. -/
def execWbdropExecute (core m : Nat) (s : State) : Result :=
  engineStep s core m (fun i => matOp i == 1) fun s c => s.finishCommand core m c

/-! ### Products (R177, R178) -/

/-- The B panel of a k-step: bytes of the entry, scratch, or memory. -/
inductive PanelB where
  | held (bs : List Byte)
  | scratch (off : Nat)
  | virt (va : Nat)
deriving DecidableEq, Repr

/-- One k-step of a product, or its suspension before any effect (R177, R178). -/
def kStep (s : State) (core m : Nat) (c : Command) (o : F2) (d : Matd) (bfmt : Nat) (bse8 : Bool) (b : PanelB) : State :=
  let j := c.prog
  let kk := min 64 (d.k - 64 * j)
  let aoff := d.aoff + j * panelStride d.afmt d.ase8
  let abytes := panelBytes d.afmt d.ase8
  let bbytes := panelBytes bfmt bse8
  let areads := (panelReads d.afmt d.ase8 d.m kk).map fun r => (aoff + r.1, r.2)
  let breads := panelReads bfmt bse8 d.n kk
  let sreads := areads ++ (match b with | .scratch x => breads.map fun r => (x + r.1, r.2) | _ => [])
  let vreads := match b with | .virt x => breads.map fun r => (x + r.1, r.2) | _ => []
  let go (s : State) (outs : List (Nat × Xlat)) : State :=
    if s.mscrBad core m sreads then s.engBad c.ctx core
    else
      let pa := s.mscr core m aoff abytes
      let pb := match b with
        | .held bs => (bs.drop (j * panelStride bfmt bse8)).take bbytes
        | .scratch x => s.mscr core m x bbytes
        | .virt x => breads.foldl (fun bs r => bs.take r.1 ++ s.vread outs (x + r.1) r.2 ++ bs.drop (r.1 + r.2))
            (List.replicate bbytes 0)
      let t0 := if j == 0 && o.ext.fn.getLsbD 0 then [] else s.tile core m (F2.tile o)
      let ks := List.range kk
      let (t1, fl) := tileStep t0 d.m d.n (fun x => ks.map (panelElem d.afmt d.ase8 pa x))
        (fun x => ks.map (panelElem bfmt bse8 pb x))
      let desc := panelDesc d.afmt d.ase8 pa d.m kk || panelDesc bfmt bse8 pb d.n kk
      let s1 := ((s.setTile core m (F2.tile o) t1).raiseMstat core m (fl ||| mstatBit 2 desc)).onHead core m fun c =>
        { c with started := true, prog := j + 1 }
      if j + 1 == d.steps then s1.endCommand core m c else s1
  if vreads.isEmpty then go s [] else s.engAccess core m c vreads [] go

/-- R177: the engine performs one k-step of a product. -/
def execMmaKStep (core m : Nat) (s : State) : Result :=
  engineStep s core m (fun i => matOp i == 2 || matOp i == 3) fun s c =>
    let d := Matd.ofNat (c.args.getD 0 0)
    match c.instr with
    | .mma o => kStep s core m c o d c.weight.bfmt c.weight.se8 (.held c.weight.bytes)
    | .mmas o =>
      let x := c.args.getD 1 0 + c.prog * panelStride d.bfmt d.bse8
      kStep s core m c o d d.bfmt d.bse8 (if szScratch o.ext.sz then .scratch x else .virt x)
    | _ => s

/-! ### Tile images (R179, R180) -/

/-- R179: ACCZ, ACCLD and ACCST. -/
def execTileImageOperation (core m : Nat) (s : State) : Result :=
  engineStep s core m (fun i => matOp i == 4 || matOp i == 5 || matOp i == 6) fun s c =>
    let a := c.args.getD 0 0
    match c.instr with
    | .accz o =>
      ((List.range (F2.tiles o)).foldl (fun (s : State) k => s.setTile core m (F2.tile o + k) []) s).endCommand core m c
    | .accld o =>
      let ef := o.ext.fn.toNat
      let n := 4096 * imageElem ef
      let put (s : State) (bs : List Byte) : State :=
        let (ws, fl) := tileOfImage ef bs
        ((s.setTile core m (F2.tile o) ws).raiseMstat core m fl).endCommand core m c
      if szScratch o.ext.sz then
        if s.mscrBad core m [(a, n)] then s.engBad c.ctx core else put s (s.mscr core m a n)
      else s.engAccess core m c [(a, n)] [] fun s outs => put s (s.vread outs a n)
    | .accst o =>
      let (bs, fl) := imageOfTile o.ext.fn.toNat (s.tile core m (F2.tile o))
      if szScratch o.ext.sz then ((s.mscrWrite core m a bs).raiseMstat core m fl).endCommand core m c
      else s.engAccess core m c [] [(a, bs.length)] fun s outs =>
        ((s.engWrite (c.engine core m) outs a bs).raiseMstat core m fl).endCommand core m c
    | _ => s

/-- R180: each element of the image takes its sum, at the place of its scope (R154), and the tile is +0. -/
def execAccdrDrain (core m : Nat) (s : State) : Result :=
  engineStep s core m (fun i => matOp i == 7) fun s c =>
    let a := c.args.getD 0 0
    match c.instr with
    | .accdr o =>
      let tile := s.tile core m (F2.tile o)
      if szScratch o.ext.sz then
        if s.mscrBad core m [(a, 16384)] then s.engBad c.ctx core
        else
          let (bs, fl) := drainImage tile (s.mscr core m a 16384)
          (((s.mscrWrite core m a bs).setTile core m (F2.tile o) []).raiseMstat core m fl).endCommand core m c
      else
        let rs := c.ranges core [(a, 16384)] [] [(a, 16384)]
        s.engAllowed core m c rs fun outs =>
        let (s, image, bad) := (s.engWalk (s.ctx c.ctx) rs).teamRead core outs a 16384 (placeOf o.ext.sc false)
        if bad then s.engBad c.ctx core else
        let (bs, fl) := drainImage tile image
        (((s.engWrite (c.engine core m) outs a bs).setTile core m (F2.tile o) []).raiseMstat core m fl).endCommand core m c
    | _ => s

/-! ### Reading tiles and status (R168, R181) -/

/-- ACCRD and ACCRD.st at the head of their queue, in the turn of their context (R295): the destination is written, and
the command leaves. -/
def completeAccrd (s : State) (t : Team) (e : Outst) : State :=
  match s.mctxOf t with
  | none => s
  | some m =>
    match s.running? t.core m with
    | none => s
    | some c =>
      if c.op != e.seq || !s.engineTurn t.core m then s
      else
        let s1 := (s.finishCommand t.core m c).turned t.core m
        match e.instr with
        | .accrd o =>
          let tile := s.tile t.core m (F2.tile o)
          let row (l : Nat) : Nat := e.arg 0 + l / 64
          let mask := maskOf t.n fun l => decide (row l ≤ 63) && !t.exited.getLsbD l
          s1.complete (t.putIn mask o.d false fun l => (tile.getD (64 * row l + l % 64) 0).toNat) e
        | .accrdSt o =>
          let w := ((s.core t.core).mctx m).mstat
          let s2 := if o.ext.fn.getLsbD 1 then s1.onMstat t.core m (· &&& ~~~w) else s1
          s2.complete (t.put o.d false fun _ => w.toNat) e
        | _ => s

end Sys2Proof.Machine
end

