-- ==== Sys2Proof/Machine/Attn.lean ====
section
/-! DEFINITION. KV pages in the engine: appending a token, ranking pages, attention and the merge of its split parts
(R58, R185, R187 to R191). -/

namespace Sys2Proof.Machine

/-! ### Page storage (R58) -/

/-- The element format of FMT. -/
def kvFmt : Nat → Fmt
  | 0 => .bf16 | 1 => .e4m3 | 2 => .mx6 | _ => .mx4

/-- Bytes of a row of K or V, and of its scales. -/
def kvRowBytes (fmt dim : Nat) : Nat := dim * (kvFmt fmt).width / 8
def kvScaleBytes (fmt dim : Nat) : Nat := if fmt == 0 then 0 else 3 * dim / 64

/-- Offsets of row t of K (or V) and of its scales in a page. -/
def kvRowAt (fmt dim t : Nat) (v : Bool) : Nat :=
  (if v then 64 * kvRowBytes fmt dim else 0) + t * kvRowBytes fmt dim
def kvScaleAt (fmt dim t : Nat) (v : Bool) : Nat :=
  128 * kvRowBytes fmt dim + (if v then 3 * dim else 0) + t * kvScaleBytes fmt dim

/-- Bytes of a whole page. -/
def kvPageBytes (fmt dim : Nat) : Nat := 128 * kvRowBytes fmt dim + if fmt == 0 then 0 else 6 * dim

/-- The byte ranges that hold some tokens of a page, as addresses. -/
def kvReads (k : Kvpd) (dim : Nat) (ts : List Nat) : List (Nat × Nat) :=
  ts.flatMap fun t => [false, true].flatMap fun v =>
    (k.sva + kvRowAt k.fmt dim t v, kvRowBytes k.fmt dim)
      :: if k.fmt == 0 then [] else [(k.sva + kvScaleAt k.fmt dim t v, kvScaleBytes k.fmt dim)]

/-- Element d of a row, from the row and its scales (R43). -/
def kvElem (fmt : Nat) (row scales : List Byte) (d : Nat) : FVal :=
  let f := kvFmt fmt
  let x := streamBits row (d * f.width) f.width
  if fmt == 0 then f.decode x else scaledElem f x (decodeVs12 (vs12At scales (d / 32))).1

/-- A decoded row of a page, and whether one of its scales has E = 0 and F ≠ 0. -/
def State.kvRow (s : State) (outs : List (Nat × Xlat)) (k : Kvpd) (dim t : Nat) (v : Bool) : List FVal × Bool :=
  let row := s.vread outs (k.sva + kvRowAt k.fmt dim t v) (kvRowBytes k.fmt dim)
  let sc := s.vread outs (k.sva + kvScaleAt k.fmt dim t v) (kvScaleBytes k.fmt dim)
  ((List.range dim).map (kvElem k.fmt row sc),
    k.fmt != 0 && (List.range (dim / 32)).any fun j => (decodeVs12 (vs12At sc j)).2)

/-! ### Appending a token (R185) -/

/-- A NaN of BF16. -/
def bfNan (x : Nat) : Bool := (Fmt.bf16.decode x).isNan

/-- The lower (or upper) of two BF16 values, −0 below +0. -/
def bfMin (x y : Nat) : Nat := if FVal.le0 (Fmt.bf16.decode x) (Fmt.bf16.decode y) then x else y
def bfMax (x y : Nat) : Nat := if FVal.le0 (Fmt.bf16.decode x) (Fmt.bf16.decode y) then y else x

/-- A dimension of a summary widened by an element; `old` is none for the first token. -/
def widen (old : Option (Nat × Nat)) (k : Nat) : List Byte :=
  match old with
  | none => if bfNan k then leBytes 2 0x7FC0 ++ leBytes 2 0x7FC0 else leBytes 2 k ++ leBytes 2 k
  | some (lo, hi) =>
    if bfNan k || bfNan lo || bfNan hi then leBytes 2 0x7FC0 ++ leBytes 2 0x7FC0
    else leBytes 2 (bfMin lo k) ++ leBytes 2 (bfMax hi k)

/-- Word 1 with another NTOK. -/
def withNtok (w1 n : Nat) : Nat := w1 / 2 ^ 32 * 2 ^ 32 + n * 2 ^ 25 + w1 % 2 ^ 25

/-- R185: the rows, the summary, and the CAS of word 1. -/
def kvAppend (s : State) (core m : Nat) (c : Command) : State :=
  match c.snaps with
  | [] => s
  | (va, ws) :: _ =>
    let k := Kvpd.ofWords ws
    let fail (s : State) : State := s.raiseMstat core m (mstatBit 6 true)
    if k.fmt != 0 || k.tier || k.busy || k.ntok == 64 then (fail s).endCommand core m c
    else
      let dim := headDim k.dim
      let n := 2 * dim
      let off := c.args.getD 1 0
      if s.mscrBad core m [(off, 2 * n)] then s.engBad c.ctx core
      else
        let data := s.mscr core m off (2 * n)
        let ka := k.sva + kvRowAt 0 dim k.ntok false
        let vv := k.sva + kvRowAt 0 dim k.ntok true
        let old := k.ntok != 0
        s.engAccess core m c (if old then [(k.sumva, 4 * dim)] else [])
          [(ka, n), (vv, n), (k.sumva, 4 * dim), (va + 8, 8)] (fun s outs =>
            let sum := s.vread outs k.sumva (4 * dim)
            let sum' := (List.range dim).flatMap fun d =>
              widen (if old then some (field sum (4 * d) 2, field sum (4 * d + 2) 2) else none) (field data (2 * d) 2)
            let w1 := (ws.getD 1 0).toNat
            let won := leNat (s.vread outs (va + 8) 8) == w1
            let writes := [(ka, data.take n), (vv, data.drop n), (k.sumva, sum')]
              ++ if won then [(va + 8, leBytes 8 (withNtok w1 (k.ntok + 1)))] else []
            let s1 := s.engWrites (c.engine core m) outs writes
            (if won then s1 else fail s1).endCommand core m c)
          [(va + 8, 8)]

/-- R185. -/
def execKvappAppend (core m : Nat) (s : State) : Result :=
  engineStep s core m (fun i => matOp i == 12) fun s c => kvAppend s core m c

/-! ### Page selection (R187) -/

/-- The maximum of two FP32 values: the canonical NaN when either is a NaN; −0 below +0. -/
def maxNan (x y : Word) : Word :=
  let a := dec32 x.toNat
  let b := dec32 y.toNat
  if a.isNan || b.isNan then BitVec.ofNat 32 Fmt.f32.canonicalNan else if a.le0 b then y else x

/-- Is a word an FP32 NaN? -/
def wordNan (x : Word) : Bool := (dec32 x.toNat).isNan

/-- Negative infinity. -/
def negInf : Word := 0xFF800000

/-- An exact product with its MSTAT bits: NV for 0 × Inf and for a signalling operand. -/
def prodOf (a b : FVal) : FVal × Word :=
  let (p, bad) := a.mul b
  (p, mstatBit 0 (bad || a.isSNan || b.isSNan))

/-- The exactly rounded sum of terms with their bits. -/
def sumOf (ts : List (FVal × Word)) : Word × Word :=
  let (r, fl) := Fmt.f32.exactSum .rne 0 (ts.map (·.1))
  (BitVec.ofNat 32 r, ts.foldl (fun w t => w ||| t.2) (mstatFlags fl))

/-- One term of a bound: the larger of two products, NaN when either is. -/
def boundTerm (q lo hi : FVal) : FVal × Word :=
  let (x, fx) := prodOf q hi
  let (y, fy) := prodOf q lo
  (if x.isNan || y.isNan then .nan false else if x.le0 y then y else x, fx ||| fy)

/-- The bound u of one head against a summary. -/
def headBound (q : List FVal) (sum : List Byte) : Word × Word :=
  sumOf (q.zipIdx.map fun (x, d) =>
    boundTerm x (Fmt.bf16.decode (field sum (4 * d) 2)) (Fmt.bf16.decode (field sum (4 * d + 2) 2)))

/-- U of a page: the maximum of its heads' bounds. -/
def pageBound (qs : List (List FVal)) (sum : List Byte) : Word × Word :=
  match qs.map (headBound · sum) with
  | [] => (negInf, 0)
  | b :: bs => bs.foldl (fun a x => (maxNan a.1 x.1, a.2 ||| x.2)) b

/-- Does page p rank before page q, by their bounds? -/
def ranksBefore (p q : Nat × Word) : Bool :=
  if wordNan p.2 != wordNan q.2 then wordNan q.2
  else
    let c := if wordNan p.2 then 0 else (dec32 p.2.toNat).cmp (dec32 q.2.toNat)
    decide (0 < c) || (c == 0 && decide (p.1 < q.1))

/-- The selected pages in ascending order, and whether the forced ones were too many. -/
def selectPages (us : List Word) (forced : Nat → Bool) (nsel : Nat) : List Nat × Bool :=
  let all := us.zipIdx.map fun (u, p) => (p, u)
  let f := all.filter (forced ·.1)
  let rest := all.filter (!forced ·.1)
  let extra := rest.filter fun p => decide ((rest.filter fun q => ranksBefore q p).length < nsel - f.length)
  if nsel ≤ f.length then (f.map (·.1), decide (nsel < f.length))
  else ((all.filter fun p => forced p.1 || extra.contains p).map (·.1), false)

/-- Rows of `dim` FP32 values. -/
def rowsOf32 (bs : List Byte) (rows dim : Nat) : List (List FVal) :=
  (List.range rows).map fun r => (List.range dim).map fun d => dec32 (field bs (4 * (r * dim + d)) 4)

/-- The end of PSEL: the selected list, its length first, and MSTAT (R187). -/
def pselEnd (s : State) (core m : Nat) (c : Command) (sinks : List Bool) (us : List (Word × Word)) : State :=
  let b := c.block
  let forced (p : Nat) : Bool := sinks.getD p false || decide (field b 0 2 - field b 4 2 ≤ p)
  let (chosen, cut) := selectPages (us.map (·.1)) forced (field b 2 2)
  let bits := (us.foldl (fun w u => w ||| u.2) 0) ||| mstatBit 3 (us.any fun u => wordNan u.1) ||| mstatBit 4 cut
  ((s.mscrWrite core m (field b 12 4) (leBytes 4 chosen.length ++
      chosen.flatMap (leBytes 4))).raiseMstat core m bits).endCommand
    core m c

/-- R187, R273: the bounds of the pages are formed in order, up to the first whose summary is not mapped; there the
command is suspended, with the bounds kept. -/
def pselect (s : State) (core m : Nat) (c : Command) : State :=
  let b := c.block
  let dim := headDim (field b 7 1)
  let np := field b 0 2
  let pages := c.snaps.map fun x => Kvpd.ofWords x.2
  let mode := engMode (coreDie core) c.world true false
  let cx := s.ctx c.ctx
  let check (k : Kvpd) := if k.ntok == 0 then none else s.engCheck cx mode k.sumva (4 * dim)
  let todo := (pages.drop c.prog).takeWhile fun k => (check k).isNone
  let outs := todo.flatMap fun k => if k.ntok == 0 then [] else s.xlatRange cx mode k.sumva (4 * dim)
  let qn := 4 * field b 6 1 * dim
  let s := s.engTouch cx (todo.flatMap fun k => if k.ntok == 0 then [] else [(mode, k.sumva, 4 * dim)])
  if todo.any (fun k => k.ntok != 0 && s.vbad outs k.sumva (4 * dim)) || s.mscrBad core m [(field b 8 4, qn)] then
    s.engBad c.ctx core
  else
    let qs := rowsOf32 (s.mscr core m (field b 8 4) qn) (field b 6 1) dim
    let us := c.bounds ++ todo.map fun k =>
      if k.ntok == 0 then (negInf, (0 : Word)) else pageBound qs (s.vread outs k.sumva (4 * dim))
    match (pages[us.length]?).bind check with
    | none => pselEnd s core m c (pages.map (·.sink)) (us.take np)
    | some (x, va) =>
      let c' := { c with started := true, prog := us.length, bounds := us }
      (s.onHead core m fun _ => c').engFail (c'.engine core m) x va false (State.suspendHead core m va)

/-- R187. -/
def execPselSelection (core m : Nat) (s : State) : Result :=
  engineStep s core m (fun i => matOp i == 11) fun s c => pselect s core m c

/-! ### Attention (R188 to R190) -/

/-- The running state of a row: M, L and O. -/
structure AttnRow where
  m : Word
  l : Word
  o : List Word
deriving DecidableEq, Repr

/-- M = −Inf, L = +0, O = +0. -/
def AttnRow.start (dim : Nat) : AttnRow := { m := negInf, l := 0, o := List.replicate dim 0 }

/-- FEXP2(RoundNE(x − y, f32)) with MSTAT bits. -/
def expDiff (x y : Word) : Word × Word :=
  let (d, f1) := Fmt.f32.add .rne 0 (dec32 x.toNat) (dec32 y.toNat).neg
  let (r, f2) := fexp2 (dec32 d)
  (BitVec.ofNat 32 r, mstatFlags (f1 ||| f2))

/-- Round(x · c + y, f32, RNE) with MSTAT bits. -/
def fmaBits (x c y : Word) : Word × Word :=
  let (r, f) := Fmt.f32.fma .rne 0 (dec32 x.toNat) (dec32 c.toNat) (dec32 y.toNat)
  (BitVec.ofNat 32 r, mstatFlags f)

/-- The last five steps of R189: Mn, the factor c (+0 while M is −Inf), L, O and M. -/
def AttnRow.merge (a : AttnRow) (mp lp : Word) (ov : List Word) : AttnRow × Word :=
  let mn := maxNan a.m mp
  let (c, fc) := if a.m == negInf then ((0 : Word), (0 : Word)) else expDiff a.m mn
  let (l, fl) := fmaBits a.l c lp
  let o := (a.o.zip ov).map fun (x, y) => fmaBits x c y
  ({ m := mn, l := l, o := o.map (·.1) }, o.foldl (fun w x => w ||| x.2) (fc ||| fl ||| mstatBit 0 (wordNan mn)))

/-- The score z of a query row and a K row. -/
def score (q k : List FVal) (scale : FVal) : Word × Word :=
  let (d, f1) := sumOf ((q.zip k).map fun (a, b) => prodOf a b)
  let (r, f2) := Fmt.f32.mulR .rne 0 (dec32 d.toNat) scale
  (BitVec.ofNat 32 r, f1 ||| mstatFlags f2)

/-- One row against the tokens of one page that it sees: the row, the partial (mp, lp) and MSTAT bits. -/
def AttnRow.page (a : AttnRow) (q : List FVal) (scale : FVal) (ks vs : List (List FVal)) : AttnRow × Word × Word × Word :=
  match ks.map fun k => score q k scale with
  | [] => (a, negInf, 0, 0)
  | z :: zs =>
    let mp := zs.foldl (fun w x => maxNan w x.1) (if wordNan z.1 then BitVec.ofNat 32 Fmt.f32.canonicalNan else z.1)
    let mn := maxNan a.m mp
    let ps := (z :: zs).map fun x => expDiff x.1 mn
    let pv := ps.map fun p => dec32 p.1.toNat
    let (lp, fl) := sumOf (pv.map fun p => (p, 0))
    let ov := (List.range a.o.length).map fun d => sumOf ((pv.zip vs).map fun (p, v) => prodOf p (v.getD d .zero))
    let (a', fm) := a.merge mp lp (ov.map (·.1))
    let bits := (((z :: zs) ++ ps ++ ov).map (·.2)).foldl (· ||| ·) (fl ||| fm ||| mstatBit 0 (wordNan mp))
    (a', mp, lp, bits)

/-- The rows of a work area: M and L at 8r, O at 8R + 4Dr. -/
def workRows (bs : List Byte) (rows dim : Nat) : List AttnRow :=
  (List.range rows).map fun r =>
    { m := BitVec.ofNat 32 (field bs (8 * r) 4), l := BitVec.ofNat 32 (field bs (8 * r + 4) 4),
      o := (List.range dim).map fun d => BitVec.ofNat 32 (field bs (8 * rows + 4 * (r * dim + d)) 4) }

/-- The bytes of those rows. -/
def workBytes (rs : List AttnRow) : List Byte :=
  (rs.flatMap fun r => leBytes 4 r.m.toNat ++ leBytes 4 r.l.toNat) ++
      rs.flatMap fun r => r.o.flatMap fun w => leBytes 4 w.toNat

/-- Out of one element (R189). -/
def outOf (o l : Word) : Word × Word :=
  match dec32 o.toNat, dec32 l.toNat with
  | .fin so mo eo, .fin sl ml el =>
    if ml == 0 then (0, 0)
    else if mo == 0 then (BitVec.ofNat 32 (Fmt.f32.sign (so != sl)), 0)
    else
      let (q, e, st) := divide mo eo ml el
      let (r, f) := Fmt.f32.round .rne 0 (.fin (so != sl) q e) st
      (BitVec.ofNat 32 r, mstatFlags f)
  | _, .fin _ 0 _ => (0, 0)
  | _, _ => (BitVec.ofNat 32 Fmt.f32.canonicalNan, mstatBit 0 true)

/-- The output rows with MSTAT bits. -/
def outRows (rs : List AttnRow) : List Byte × Word :=
  let out := rs.flatMap fun r => r.o.map fun o => outOf o r.l
  (out.flatMap fun x => leBytes 4 x.1.toNat, out.foldl (fun w x => w ||| x.2) 0)

/-- The units of 2^-16 that a partial adds for one row (M and L), with the MSTAT bits of its factor (R190): the factor is formed for
every row. -/
def massUnits (m l mp lp : Word) : Nat × Word :=
  let (f, bits) := expDiff mp m
  match dec32 l.toNat, dec32 lp.toNat, dec32 f.toNat with
  | .fin false ml el, .fin false mq eq, .fin _ mf ef =>
    if ml == 0 || mq == 0 then (0, bits)
    else
      let e := eq + ef + 16 - el
      (min (if 0 ≤ e then mq * mf * 2 ^ e.toNat / ml else mq * mf / (ml * 2 ^ (-e).toNat)) 65536, bits)
  | _, _, _ => (0, bits)

/-- Offset and length, in scratch, of the partials of list position `i` in a work area at `woff` (R189). -/
def partialsAt (woff rows dim i : Nat) : Nat × Nat := (woff + 8 * rows + 4 * dim * rows + 8 * i * rows, 8 * rows)

/-- The additions of a list position: over all rows (M and L), from its partials. -/
def massOf (rs : List (Word × Word)) (part : List Byte) : Nat × Word :=
  (rs.zipIdx.map fun ((m, l), k) =>
    massUnits m l (BitVec.ofNat 32 (field part (8 * k) 4)) (BitVec.ofNat 32 (field part (8 * k + 4) 4))).foldl
      (fun a x => (a.1 + x.1, a.2 ||| x.2)) (0, 0)

/-- MASS of a page raised in one step on word 1 (R190). -/
def State.addMass (s : State) (e : EngineId) (core m : Nat) (outs : List (Nat × Xlat)) (va a : Nat) : State :=
  let w := leNat (s.vread outs (va + 8) 8)
  let mass := w / 2 ^ 40 % 2 ^ 24 + a
  let s1 := s.engWrite e outs (va + 8) (leBytes 8 (w % 2 ^ 40 + min mass (2 ^ 24 - 1) * 2 ^ 40))
  s1.raiseMstat core m (mstatBit 5 (decide (2 ^ 24 - 1 < mass)))

/-- After `j` of the `n` mass additions of ATTN or ATTNFIN: the next one stands, against the rows `rs`, or the command
ends. -/
def State.massGo (s : State) (core m : Nat) (c : Command) (rs : List (Word × Word)) (n j : Nat) : State :=
  if j == n then s.endCommand core m c
  else s.onHead core m fun c => { c with started := true, massed := some j, final := rs }

/-- The output of ATTN and ATTNFIN (R189, R191): the rows in scratch, and then `n` mass additions. -/
def attnOut (s : State) (core m : Nat) (c : Command) (rs : List AttnRow) (ooff n : Nat) : State :=
  let (bs, fl) := outRows rs
  ((s.mscrWrite core m ooff bs).raiseMstat core m fl).massGo core m c (rs.map fun r => (r.m, r.l)) n 0

/-- Mass addition `j` of a plan of pages, each with the place of its partials, which stand as the output has left them
(R190, R191). -/
def massStep (s : State) (core m : Nat) (c : Command) (plan : List (Nat × Nat × Nat)) (j : Nat) : State :=
  match plan[j]? with
  | none => s.endCommand core m c
  | some (va, w, n) =>
    if s.mscrBad core m [(w, n)] then s.engBad c.ctx core
    else
      let a := massOf c.final (s.mscr core m w n)
      s.engAccess core m c [] [(va + 8, 8)] (fun s outs =>
        ((s.addMass (c.engine core m) core m outs va a.1).raiseMstat core m a.2).massGo core m c c.final plan.length
          (j + 1)) [(va + 8, 8)]

/-- One page of ATTN for every row (R189). -/
def attnPage (s : State) (core m : Nat) (c : Command) : State :=
  let b := c.block
  let i := c.prog
  let rows := attnRows b
  let nq := field b 3 1
  let dim := headDim (field b 4 1)
  let k := Kvpd.ofWords ((c.snaps.getD i (0, [])).2)
  let qr := (field b 12 4, 4 * dim * rows)
  let pr := (field b 24 4, if attnFlag b 0 then 4 * nq else 0)
  let wr := (field b 20 4, 8 * rows + 4 * dim * rows)
  let pos := s.mscr core m pr.1 pr.2
  let sees (r t : Nat) : Bool := !attnFlag b 0 || decide (64 * k.lpi + t ≤ field pos (4 * (r % nq)) 4)
  let ts := (List.range k.ntok).filter fun t => (List.range rows).any fun r => sees r t
  s.engAccess core m c (kvReads k dim ts) [] fun s outs =>
    if s.mscrBad core m ([qr, pr] ++ if i == 0 then [] else [wr]) then s.engBad c.ctx core
    else
      let qs := rowsOf32 (s.mscr core m qr.1 qr.2) rows dim
      let rs := if i == 0 then List.replicate rows (AttnRow.start dim) else workRows (s.mscr core m wr.1 wr.2) rows dim
      let toks := ts.map fun t => (t, s.kvRow outs k dim t false, s.kvRow outs k dim t true)
      let out : List (AttnRow × Word × Word × Word) := (rs.zip qs).zipIdx.map fun ((a, q), r) =>
        let mine := toks.filter fun x => sees r x.1
        a.page q (dec32 (field b 8 4)) (mine.map fun x => x.2.1.1) (mine.map fun x => x.2.2.1)
      let part := out.flatMap fun (_, mp, lp, _) => leBytes 4 mp.toNat ++ leBytes 4 lp.toNat
      let bits := out.foldl (fun w (_, _, _, f) => w ||| f) (mstatBit 2 (toks.any fun (_, x, y) => x.2 || y.2))
      let s1 := (s.mscrWrite core m wr.1 (workBytes (out.map (·.1)))).mscrWrite core m (wr.1 + wr.2 + 8 * i * rows) part
      let s2 := (s1.raiseMstat core m bits).onHead core m fun c => { c with started := true, prog := i + 1 }
      if i + 1 == field b 0 2 && attnFlag b 1 then s2.endCommand core m c else s2

/-- The mass additions of ATTN: each page of the list with its partials; none under NOMASS. -/
def attnPlan (c : Command) : List (Nat × Nat × Nat) :=
  let b := c.block
  if attnFlag b 2 then []
  else c.snaps.zipIdx.map fun (x, i) => (x.1, partialsAt (field b 20 4) (attnRows b) (headDim (field b 4 1)) i)

/-- After the last page: the output and the mass update (R189). -/
def attnOutput (s : State) (core m : Nat) (c : Command) : State :=
  let b := c.block
  let rows := attnRows b
  let dim := headDim (field b 4 1)
  let n := 8 * rows + 4 * dim * rows
  match c.massed with
  | some j => massStep s core m c (attnPlan c) j
  | none =>
    if s.mscrBad core m [(field b 20 4, n)] then s.engBad c.ctx core
    else attnOut s core m c (workRows (s.mscr core m (field b 20 4) n) rows dim) (field b 16 4) (attnPlan c).length

/-- R189: the next page, or the output after the last. -/
def execAttnPage (core m : Nat) (s : State) : Result :=
  engineStep s core m (fun i => matOp i == 9) fun s c =>
    if c.prog < field c.block 0 2 then attnPage s core m c else attnOutput s core m c

/-! ### Merging split parts (R191) -/

/-- The rows of part p of an ATTNFIN block in its work area: offset and length. -/
def finWork (b : List Byte) (p : Nat) : Nat × Nat :=
  let rows := field b 1 1 * field b 2 1
  ((finPart b p).1, 8 * rows + 4 * headDim (field b 3 1) * rows)

/-- The rows after the first n parts are merged, with the MSTAT bits of the last of them. -/
def State.finMerge (s : State) (core m : Nat) (b : List Byte) : Nat → List AttnRow × Word
  | 0 => (List.replicate (field b 1 1 * field b 2 1) (AttnRow.start (headDim (field b 3 1))), 0)
  | n + 1 =>
    let rs := (s.finMerge core m b n).1
    let w := finWork b n
    let ps := workRows (s.mscr core m w.1 w.2) (field b 1 1 * field b 2 1) (headDim (field b 3 1))
    let out := (rs.zip ps).map fun (a, p) => a.merge p.m p.l p.o
    (out.map (·.1), out.foldl (fun w x => w ||| x.2) 0)

/-- The mass additions of the parts; the snapshots stand in the order of the lists. -/
def finPlan (c : Command) : List (Nat × Nat × Nat) :=
  let b := c.block
  let plan := (List.range (field b 0 1)).flatMap fun p => (List.range (finPart b p).2.1).map fun i => (p, i)
  (c.snaps.zip plan).map fun (x, p, i) =>
    (x.1, partialsAt (finPart b p).1 (field b 1 1 * field b 2 1) (headDim (field b 3 1)) i)

/-- R191: one part is merged; after the last, the output and the mass updates. -/
def execAttnfinMerge (core m : Nat) (s : State) : Result :=
  engineStep s core m (fun i => matOp i == 10) fun s c =>
    let b := c.block
    match c.massed with
    | some j => massStep s core m c (finPlan c) j
    | none =>
    if s.mscrBad core m ((List.range (field b 0 1)).map (finWork b)) then s.engBad c.ctx core
    else if c.prog < field b 0 1 then
      (s.raiseMstat core m (s.finMerge core m b (c.prog + 1)).2).onHead core m fun c =>
        { c with started := true, prog := c.prog + 1 }
    else
      attnOut s core m c (s.finMerge core m b (field b 0 1)).1 (field b 4 4) (finPlan c).length

end Sys2Proof.Machine
end

