-- ==== Sys2Proof/Machine/Complete.lean ====
section
/-! DEFINITION. Completion of outstanding F2 instructions (R70, R263, R265): loads and stores, atomics, residency, TQPUSH
and LKSEND, tile reads, and the acceptance of a query (R204, R320, R326). -/

namespace Sys2Proof.Machine

/-! ### Accepting a query -/

/-- Vertex count of a graph. -/
def graphNv (rec : List Byte) : Nat := field rec 4 4
/-- MAXDEG and EFMT. -/
def graphDeg (rec : List Byte) : Nat := bitsOf (field rec 0 4) 30 24
def graphEfmt (rec : List Byte) : Nat := bitsOf (field rec 0 4) 15 14
/-- The context of a graph. -/
def graphCtx (rec : List Byte) : Nat := bitsOf (field rec 0 4) 9 0
/-- Record size RS (R323). -/
def graphRs (rec : List Byte) : Nat := (graphVb rec + 4 + 4 * graphDeg rec + 255) / 256 * 256

/-- Entry vertices of a packet. -/
def packetEntries (p : List Byte) : List Nat := (List.range (bitsOf (field p 8 4) 2 0)).map fun i => field p (0x10 + 4 * i) 4

/-- The status of a packet that computes no distance (R326). -/
def State.packetStatus (s : State) (ctx : Nat) (p : List Byte) : Option Nat :=
  let q := field p 0 4
  let k := bitsOf q 14 8
  let ef := bitsOf q 23 15
  let n := bitsOf (field p 8 4) 2 0
  match s.graph? (field p 0 1) with
  | none => some 3
  | some g =>
    if graphCtx g.record != ctx then some 3
    else if bitsOf q 31 26 != 0 || outside k 1 64 || outside ef 1 256 || ef < k || bitsOf (field p 4 4) 31 20 != 0
        || outside n 1 4 || bitsOf (field p 8 4) 31 3 != 0 || !zeroBytes p (0x10 + 4 * n) (16 - 4 * n)
        || !(outside (field p 0x30 1) 0xF0 0xF0 == false || outside (field p 0x30 1) 0xD0 0xDF == false)
        || !zeroBytes p 0x31 15 then some 4
    else if (packetEntries p).any fun v => decide (graphNv g.record ≤ v) then some 5
    else none

/-- R204, R326: QSRCH is accepted, traps, or waits for a slot of its owning stack. -/
def completeQsrch (s : State) (t : Team) (e : Outst) (o : F2) : State :=
  let a := e.arg 0
  let scr := szScratch o.ext.sz
  let fail (c : TrapCode) : State := s.failEntry t e { code := c, addr := BitVec.ofNat 64 a }
  let h := (s.operand t e scr a 64).1
  let (b0, b1) := s.headBad t e.outs scr a
  let n := s.packetLen h
  if !b1 && !packetAligned h then fail .misaligned
  else if scr && !b0 && decide (s.scratchSize t < a + n) then fail .protection
  else if !s.mapped t e then s
  else if b0 || b1 then fail .memoryError
  else
    let (p, bad) := s.operand t e scr a n
    let stack := s.ownerStack (coreDie t.core) h
    if bad then fail .memoryError
    else if s.slotsFull t h then s
    else
      let q : Query :=
        { id := s.nextId, stack := stack, ctx := t.ctx, world := t.world, team := t.id, packet := p, outs := e.outs,
          vis := [], cand := [], res := [], fresh := [], rounds := 0, full := false, nandist := false, badrec := false,
          status := s.packetStatus t.ctx p, written := false, ord := (field p 0 4).testBit 24, seq := s.nextId }
      let s1 := if scr then s else s.engineRead e.outs a n
      ({ s1 with nextId := s.nextId + 1, queries := s.queries ++ [q] } : State).complete t e

/-! ### Completion -/

/-- Does F2_COMPLETION end the entry? Waits, copies and commands that their queue has not taken have rows of their
own. -/
def Outst.ends (e : Outst) : Bool :=
  match e.instr with
  | .waitk _ | .waitb _ | .bwait _ | .xacq _ | .gscan _ | .copy _ | .copyy _ => false
  | _ => !e.offered

/-- The effect of a completion on an entry whose memory is translated and whose turn has come. -/
def completeEntry (s : State) (t : Team) (e : Outst) : State :=
  match e.instr with
  | .ld o => completeLoad s t e o (loadSx o) id
  | .lda o => completeLoad s t e o (loadSx o) (fun t => t.bumpK (ldaCounter o))
  | .gather o => completeLoad s t e o false id
  | .st o => completeStore s t e o
  | .scatr o =>
    if o.ext.fn != 1 then completeStore s t e o
    else completeAtomic s t e o 0 false
  | .atom o => completeAtomic s t e o o.ext.fn.toNat true
  | .atomn o => completeAtomic s t e o o.ext.fn.toNat false
  | .cas o => completeAtomic s t e o 8 true
  | .hacc o => if e.peerTable then s.sendHacc t e o else completeHacc s t e o
  | .lockl o => completeLockl s t e o
  | .unlockl o => completeUnlockl s t e o
  | .cflush o => completeCflush s t e o
  | .cinval o => completeCinval s t e o
  | .accrd _ | .accrdSt _ => completeAccrd s t e
  | .lksend o => completeLksend s t e o
  | .bseal _ => completeBseal s t e
  | .tqpush o => completeTqpush s t e o
  | _ => s.complete t e

/-- The entry k of a team that has completed and is not performed yet. -/
def State.posted? (s : State) (t k : Nat) : Option (Team × Outst) :=
  (s.team? t).bind fun tm => if s.going tm.ctx then (tm.posted.find? (·.seq == k)).map fun e => (tm, e) else none

/-- R70: an outstanding instruction is performed and completes, or meets a trap; a store that may not be performed yet
completes all the same, and one that has completed before is performed. -/
def execF2Completion (t k : Nat) (s : State) : Result :=
  match s.posted? t k, s.entry? t k with
  | some (tm, e), _ => .next (if tm.inOrder e && !s.awaiting tm e then s.perform tm e else s)
  | none, none => .next s
  | none, some (tm, e) =>
    if !e.ends || s.awaiting tm e then .next s
    else if !tm.inOrder e then .next (if s.mapped tm e && s.postable tm e then s.post tm e else s)
    else match e.instr with
    | .qsrch o => .next (if (s.unanswered? tm e).isSome then s else completeQsrch s tm e o)
    | _ => .next (if !s.mapped tm e then s else if e.sent then s.complete tm e else completeEntry s tm e)

/-- A store or an atomic without a result completes, to be performed later, though nothing holds it back (R70). -/
def State.postNow (s : State) (t k : Nat) : State :=
  match s.entry? t k with
  | none => s
  | some (tm, e) => if e.ends && !s.awaiting tm e && s.mapped tm e && s.postable tm e then s.post tm e else s

/-! ### Lanes performed at different moments (R71, R150, R154, R158) -/

/-- An access of which some lanes have been performed keeps the lanes `rest`, posted or outstanding. -/
def Team.keepLanes (t : Team) (e : Outst) (rest : List (Nat × Nat)) : Team :=
  let keep (l : List Outst) := replaceIf l (·.seq == e.seq) fun e => { e with addrs := rest }
  { t with outst := keep t.outst, posted := keep t.posted }

/-- Some lanes of a load write their destination before the others. -/
def State.landLoad (s : State) (t : Team) (e : Outst) (o : F2) (sx : Bool) (mask : Mask) : State :=
  let (s1, vals, bad) := s.loads t e o sx (e.addrs.filter (mask.getLsbD ·.1))
  if bad.isEmpty then
    s1.setTeam ((t.writeRun o.d o.run (fun _ => true) vals).keepLanes e (e.addrs.filter fun a => !mask.getLsbD a.1))
  else s

/-- Some lanes of a store are written before the others. -/
def State.landStore (s : State) (t : Team) (e : Outst) (o : F2) (part rest : List (Nat × Nat)) : State :=
  -- a lower lane of a written location has nothing left to write (R222)
  let rest' := rest.filter fun a => !e.covered (szScratch o.ext.sz) part a
  ((s.release t (storeRelease e.instr)).stores t e o (storeBytes e o part)).setTeam (t.keepLanes e rest')

/-- The first lanes of an atomic make their steps before the others. -/
def State.landAtomic (s : State) (t : Team) (e : Outst) (o : F2) (op : Nat) (ret : Bool)
    (part rest : List (Nat × Nat)) : State :=
  match atomicLanes t e (szBytes o.ext.sz) op (szScratch o.ext.sz) part (s.release t (atomicScope e.instr 1)) [] with
  | (s1, vals, none) => s1.setTeam ((if ret then t.writeRun o.d o.run (fun _ => true) vals else t).keepLanes e rest)
  | _ => s

/-- The first lanes of HACC, all of which find a slot, make their updates before the others. -/
def State.landHacc (s : State) (t : Team) (e : Outst) (o : F2) (part rest : List (Nat × Nat)) : State :=
  match haccLanes t e o part s [] with
  | (s1, placed, none) =>
    if placed.length != part.length then s
    else
      let t' := t.keepLanes e rest
      s1.setTeam { t' with outst := replaceIf t'.outst (·.seq == e.seq) fun e => { e with args := e.args ++ placed } }
  | _ => s

/-- Some lanes of an access are performed before the rest: of a load, the lanes of `mask`, since a read of its
destination before its completion may give either value in each lane (R71, R150); of a store, outstanding or posted, the
lanes of `mask`, and of an atomic or HACC the first lanes that stand in it, since other agents' steps may fall between
two lanes (R154, R158, R222). Nothing happens where the access could not be performed yet, where a lane would meet an
error or find no slot, or on a peer's page, whose steps R355 sends as flits. -/
def State.someLanes (s : State) (t k : Nat) (mask : Mask) : State :=
  match (s.posted? t k).or (s.entry? t k) with
  | none => s
  | some (tm, e) =>
    if !e.ends || !tm.inOrder e || s.awaiting tm e || !s.mapped tm e || e.sent then s
    else
      let part := e.addrs.takeWhile (mask.getLsbD ·.1)
      let rest := e.addrs.dropWhile (mask.getLsbD ·.1)
      let some := e.addrs.filter (mask.getLsbD ·.1)
      let others := e.addrs.filter fun a => !mask.getLsbD a.1
      if e.addrs.any (fun a => (peerOf e.outs a.2).isSome) || e.peerTable then s
      else match e.instr with
      | .ld o | .lda o => s.landLoad tm e o (loadSx o) mask
      | .gather o => s.landLoad tm e o false mask
      | .st o => s.landStore tm e o some others
      | .scatr o => if o.ext.fn == 1 then s.landAtomic tm e o 0 false part rest else s.landStore tm e o some others
      | .atom o => s.landAtomic tm e o o.ext.fn.toNat true part rest
      | .atomn o => s.landAtomic tm e o o.ext.fn.toNat false part rest
      | .cas o => s.landAtomic tm e o 8 true part rest
      | .hacc o => s.landHacc tm e o part rest
      | _ => s

end Sys2Proof.Machine
end

