-- ==== Sys2Proof/Machine/Front.lean ====
section
/-! DEFINITION. The front ends (spec 13): accesses they make, queues and doorbells, starting a grid with its checks, and
reporting a completion or a refusal (R279 to R288, R296, R399). -/

namespace Sys2Proof.Machine

/-! ### Accesses of a front end (R259, R279, R284, R296) -/

/-- A step of a front end: it waits for an ATS answer, with nothing changed (R347), or goes on. -/
abbrev Fe (α : Type) := Except AtsWait α

/-- The access of a front end for a context: no level check, the context's world. -/
def feMode (c : Context) (rd wr : Bool) : Mode := { user := false, world := c.world, rd := rd, wr := wr, fetch := false }

/-- The refused ATS request of a page, if the host has answered so. -/
def State.feRefused (s : State) (ctx page : Nat) : Bool :=
  s.atsWaits.any fun w => w.key == 0 && w.ctx == ctx && w.page == page && w.refused

/-- The translations of a range, or the code of R270 that stopped it. -/
def State.feRange (s : State) (ctx die : Nat) (rd wr : Bool) (va n : Nat) :
    Fe (State × Except (BitVec 8) (List (Nat × Xlat))) :=
  let c := s.ctx ctx
  let outs := s.xlatRange c (feMode c rd wr) va n
  match firstBad outs with
  | none => if rd && s.vbad outs va n then .ok (s, .error 0x0B) else .ok (s, .ok outs)
  | some (g, x) =>
    match x with
    | .world => .ok (s, .error 0x13)
    | .denied => .ok (s, .error 0x0A)
    | .walkError => .ok (s.contextFault ctx (unitDie c.asid g) 4 0 0, .error 0x0B)
    | .awaitAts p =>
      if s.feRefused ctx p then
        .ok ({ s with atsWaits := s.atsWaits.filter fun w => !(w.key == 0 && w.ctx == ctx && w.page == p) }, .error 0x0A)
      else
        .error { key := 0, ctx := ctx, die := die, page := p, va := BitVec.ofNat 64 (max va (g * 65536)),
                 refused := false }
    | _ => .ok (s, .error 0x09)

/-- Bytes read by a front end. -/
def State.feRead (s : State) (ctx die va n : Nat) : Fe (State × Except (BitVec 8) (List Byte)) := do
  let (s1, r) ← s.feRange ctx die true false va n
  match r with
  | .error code => .ok (s1, .error code)
  | .ok outs => .ok (s1.countReads outs va n, .ok (s1.vread outs va n))

/-- Bytes written by a front end; a write that meets another outcome is dropped with a kind 5 record (R270). -/
def State.feWrite (s : State) (ctx die cause queue va : Nat) (bs : List Byte) : Fe State := do
  let (s1, r) ← s.feRange ctx die false true va bs.length
  match r with
  | .error code => .ok (s1.queueFault ctx die cause queue true code (BitVec.ofNat 64 va))
  | .ok outs => .ok ((s1.vwrite outs va bs).remoteStores 0 ctx (s1.ctx ctx).world (peerPieces outs va bs))

/-- One added at .sys to the 8-byte word at an address (R296); on a peer page, an atomic of R355. -/
def State.feCount (s : State) (ctx die va : Nat) : Fe State := do
  let (s1, r) ← s.feRange ctx die false true va 8
  match r with
  | .error code => .ok (s1.queueFault ctx die 2 0 true code (BitVec.ofNat 64 va))
  | .ok outs =>
    match peerOf outs va with
    | some (d, pa) =>
      .ok (s1.request 2 d (BitVec.ofBool (s1.ctx ctx).world ++ 0b0010000#7) pa (leBytes 8 1)
        fun n p => { team := 0, ctx := ctx, dst := d, seq := n, atomic := true, lane := none, port := p })
    | none =>
      if s1.vbad outs va 8 then .ok (s1.queueFault ctx die 2 0 true 0x0B (BitVec.ofNat 64 va))
      else .ok (s1.vwrite outs va (leBytes 8 ((leNat (s1.vread outs va 8) + 1) % 2 ^ 64)))

/-- The state after a front-end step, or the state before it with the ATS request it waits for; no step starts while a
world region table waits (R364). -/
def State.fe (s : State) (r : Fe State) : Result :=
  if s.switching then .next s
  else match r with
  | .ok s' => .next s'
  | .error w => .next (if s.atsWaits.contains w then s else { s with atsWaits := s.atsWaits ++ [w] })

/-- The die whose front end serves a context (R399). -/
def homeDie (ctx : Nat) : Nat := ctx % 4

/-- Is no context's work to start or be placed: a checkpoint, or a halt (R341, R361)? -/
def State.frozen (s : State) : Bool := s.stopped || s.ck.isSome

/-- Is the PCIe link up (R369)? -/
def State.hostUp (s : State) : Bool := s.mainOn && !s.mgmt.recovery

/-! ### Doorbells (R279, R280, R344, R346) -/

/-- May a function reach the block and the doorbells of a context now: it owns it, and its earlier pieces are
acknowledged (R344, R346)? -/
def State.mayReach (s : State) (fn ctx : Nat) : Bool :=
  s.hostUp && (fn == 0 || (s.ctx ctx).cfunc.toNat == fn) && decide (ctx < 1024) && !s.pieces.any fun p => p.fn == fn

/-- Is a context registered, pre-empting or pre-empted? -/
def Context.live (c : Context) : Bool := c.state == .registered || c.state == .preempting || c.state == .preempted

/-- Is a queue-table entry valid (R279)? -/
def queueEntryValid (b : List Byte) : Bool :=
  let ctl := field b 0x10 4
  ctl / 2 ^ 9 == 0 && zeroBytes b 0x14 12 && !outside (bitsOf ctl 4 0) 4 16 && bitsOf ctl 6 5 != 3
    && field b 0 8 % 256 == 0 && field b 8 8 % 8 == 0

/-- The queue as its table entry describes it. -/
def Queue.described (q : Queue) (b : List Byte) : Queue :=
  let ctl := field b 0x10 4
  { q with ring := BitVec.ofNat 64 (field b 0 8), qwva := BitVec.ofNat 64 (field b 8 8), rszl := bitsOf ctl 4 0,
           pri := bitsOf ctl 6 5, en := true, qirq := ctl.testBit 8, stopped := false }

/-- A doorbell's ring entries join a queue's order: before the list entries that came in the same clock (R280). -/
def addRing (clk : Nat) (x : QueueItem) (items : List QueueItem) : List QueueItem :=
  let late := (items.reverse.takeWhile fun i => match i with | .list _ c => c == clk | .ring .. => false).length
  items.take (items.length - late) ++ x :: items.drop (items.length - late)

/-- R279: a doorbell reads the queue-table entry; the new ring entries join the queue's order (R280). -/
def execDoorbell (fn ctx q : Nat) (idx : Word) (s : State) : Result :=
  let c := s.ctx ctx
  if !s.mayReach fn ctx || !c.live || 16 ≤ q then .next s
  else
    let va := c.qtab.toNat + 32 * q
    s.fe do
      let (s1, r) ← s.feRead ctx (homeDie ctx) va 32
      match r with
      | .error code => .ok (s1.queueFault ctx (homeDie ctx) 5 q false code (BitVec.ofNat 64 va))
      | .ok b =>
        if !queueEntryValid b then .ok (s1.queueFault ctx (homeDie ctx) 5 q false 0 (BitVec.ofNat 64 va))
        else if !(field b 0x10 4).testBit 7 then .ok s1
        else
          .ok (s1.onCtx ctx fun c =>
            let old := c.queue q
            let n := (idx - old.prod).toNat
            let items := if n == 0 then old.items else addRing s1.clk (.ring old.prod.toNat n) old.items
            c.setQueue { old.described b with prod := idx, items := items })

/-! ### Grids -/

/-- Fields of a grid descriptor (R281). -/
structure GridDesc where
  centry : Nat
  pentry : Nat
  nteam  : Nat
  clanes : Nat
  planes : Nat
  ncons  : Nat
  nprod  : Nat
  mx     : Bool
  cores  : Bool
  lchk   : Bool
  girq   : Bool
  cvb    : Nat
  pvb    : Nat
  nb     : Nat
  diem   : Nat
  scrl   : Nat
  partw  : Nat
  tbase  : Nat
  saveb  : Nat
  saves  : Nat
  rentry : Nat
  statva : Nat
  evva   : Nat
  argva  : Nat
deriving DecidableEq, Repr

/-- The fields of 128 bytes. -/
def GridDesc.ofBytes (b : List Byte) : GridDesc :=
  let sh := field b 0x14 4
  let bu := field b 0x18 4
  { centry := field b 0 8, pentry := field b 8 8, nteam := bitsOf (field b 0x10 4) 23 0 + 1, clanes := bitsOf sh 10 0,
    planes := bitsOf sh 21 11, ncons := bitsOf sh 23 22, nprod := bitsOf sh 24 24, mx := sh.testBit 25,
    cores := sh.testBit 26, lchk := sh.testBit 27, girq := sh.testBit 28, cvb := bitsOf bu 4 0, pvb := bitsOf bu 9 5,
    nb := bitsOf bu 17 10, diem := bitsOf bu 21 18, scrl := field b 0x1C 4, partw := field b 0x20 4,
    tbase := field b 0x28 8, saveb := field b 0x30 8, saves := field b 0x38 4, rentry := field b 0x40 8,
    statva := field b 0x48 8, evva := field b 0x50 8, argva := field b 0x58 8 }

/-- Descriptor of a grid. -/
def Grid.d (g : Grid) : GridDesc := GridDesc.ofBytes g.desc

/-- Cast size z (R282). -/
def GridDesc.z (d : GridDesc) : Nat := d.nprod + d.ncons

/-- Number of casts. -/
def Grid.castCount (g : Grid) : Nat := g.nteam / g.d.z

/-- Is a field reserved and not zero, or outside its range (R281)? -/
def gridFieldsBad (gd : Nat) (b : List Byte) : Bool :=
  let d := GridDesc.ofBytes b
  gd % 64 != 0 || d.centry % 4 != 0 || (if d.nprod == 0 then d.pentry != 0 || d.planes != 0
      else d.pentry % 4 != 0 || outside d.planes 1 1024)
    || bitsOf (field b 0x10 4) 31 24 != 0 || outside d.clanes 1 1024 || d.ncons == 0 || bitsOf (field b 0x14 4) 31 29 != 0
    || decide (16 < d.cvb) || decide (16 < d.pvb) || decide (128 < d.nb) || bitsOf (field b 0x18 4) 31 22 != 0
    || !zeroBytes b 0x24 4 || d.saveb % 256 != 0 || d.saves % 256 != 0 || !zeroBytes b 0x3C 4 || d.rentry % 4 != 0
    || d.statva % 8 != 0 || d.evva % 8 != 0 || d.argva % 64 != 0 || !zeroBytes b 0x60 32

/-- Is the kernel record of a role (1 producer) needed (R283)? -/
def GridDesc.needs (d : GridDesc) (role : Nat) : Bool :=
  if role == 1 then d.nprod == 1 && d.pvb == 0 else d.cvb == 0 || d.scrl == 0 || d.partw == 0

/-- A kernel record that fails the check of REASON 7 (R283, R284). -/
def recordBad (role : Nat) (r : List Byte) : Bool :=
  let w := field r 4 4
  field r 0 4 != 0x4B440001 || bitsOf w 7 1 != 0 || bitsOf w 31 13 != 0 || outside (bitsOf w 12 8) 1 16 || bitsOf w 0 0 != role

/-- Groups of a lane count. -/
def groupsOf (lanes : Nat) : Nat := (lanes + 31) / 32

/-- Producer and consumer budgets, scratch lines and partition word, from the descriptor and the records (R283). -/
def GridDesc.supplied (d : GridDesc) (crec prec : List Byte) : Nat × Nat × Nat × Word :=
  (if d.cvb == 0 then bitsOf (field crec 4 4) 12 8 else d.cvb, if d.pvb == 0 then bitsOf (field prec 4 4) 12 8 else d.pvb,
   if d.scrl == 0 then (field crec 8 4 + 127) / 128 else d.scrl,
   BitVec.ofNat 32 (if d.partw == 0 then field crec 12 4 else d.partw))

/-- Cast slots of a grid with lanes and budget of each team, in slot order (R282). -/
def castRoles (d : GridDesc) (cvb pvb : Nat) : List (Nat × Nat × Nat) :=
  (if d.nprod == 1 then [(0, d.planes, pvb)] else []) ++ (List.range d.ncons).map fun k => (k + 1, d.clanes, cvb)

/-! ### Fitting a cast on a core (R289, R290) -/

/-- A sub-core for placement: teams it holds, runs in use, and whether a waiting XACQ bars it (R289). -/
structure SubRoom where
  count : Nat
  used  : List (Nat × Nat)
  barred : Bool
deriving DecidableEq, Repr

/-- A run of b granules for each group in a sub-core with room for a team. -/
def SubRoom.give (cap lanes b : Nat) (x : SubRoom) : Option (List (Nat × Bool × Nat × Nat)) :=
  if x.barred || 4 ≤ x.count then none else giveRuns cap b false (List.range (groupsOf lanes)) x.used

/-- The lowest-numbered sub-core that takes a team, with its runs and the rooms after it. -/
def placeTeam (cap lanes b : Nat) : List SubRoom → Nat → Option (Nat × List (Nat × Bool × Nat × Nat) × List SubRoom)
  | [], _ => none
  | x :: rest, k =>
    match x.give cap lanes b with
    | some rs => some (k, rs, { x with count := x.count + 1,
                                       used := x.used ++ rs.map fun r => (r.2.2.1, r.2.2.2) } :: rest)
    | none => (placeTeam cap lanes b rest (k + 1)).map fun (j, rs, xs) => (j, rs, x :: xs)

/-- A sub-core and runs for each team of a cast, in slot order. -/
def placeTeams (cap : Nat) : List (Nat × Nat × Nat) → List SubRoom → Option (List (Nat × List (Nat × Bool × Nat × Nat)))
  | [], _ => some []
  | (_, lanes, b) :: more, xs =>
    match placeTeam cap lanes b xs 0 with
    | none => none
    | some (k, rs, xs') => (placeTeams cap more xs').map ((k, rs) :: ·)

/-- The rooms after a cast of the given teams. -/
def roomsAfter (cap : Nat) : List (Nat × Nat × Nat) → List SubRoom → Option (List SubRoom)
  | [], xs => some xs
  | (_, lanes, b) :: more, xs =>
    match placeTeam cap lanes b xs 0 with
    | none => none
    | some (_, _, xs') => roomsAfter cap more xs'

/-- An empty sub-core. -/
def SubRoom.empty : SubRoom := { count := 0, used := [], barred := false }

/-- Casts of a grid that fit on one empty core, counted from `k` resident ones (R284, REASON 6). -/
def fitCount (d : GridDesc) (roles : List (Nat × Nat × Nat)) (cap ways scrl : Nat) : (fuel k : Nat) → List SubRoom → Nat
  | 0, k, _ => k
  | n + 1, k, xs =>
    if decide (32 < d.z * (k + 1)) || (d.mx && decide (4 ≤ k)) || decide (512 < d.nb * (k + 1))
        || decide (ways < 2 + (k + 1) * setLines (128 * scrl) 0) then k
    else match roomsAfter cap roles xs with
      | some xs' => fitCount d roles cap ways scrl n (k + 1) xs'
      | none => k

/-- Dies a mask allows; 0 allows all (R281). -/
def diesOf (m : Nat) : List Nat := if m % 16 == 0 then [0, 1, 2, 3] else (List.range 4).filter fun d => m.testBit d

/-- The reason a readable grid is refused (R284): checks 2, 7, 3, 4, 5, 6 and 8 in the order of the table. -/
def State.gridReason (s : State) (c : Context) (gd : Nat) (b : List Byte) (src : GridSource) (bad : Bool) (nteam : Nat)
    (crec prec : List Byte) : Option Nat :=
  let d := GridDesc.ofBytes b
  let (cvb, pvb, scrl, pw) := d.supplied crec prec
  let roles := castRoles d cvb pvb
  let spawn := match src with
    | .task .. => true
    | _ => false
  if bad || gridFieldsBad gd b || nteam % d.z != 0 || (spawn && d.z != 1) then some 2
  else if (d.needs 0 && recordBad 0 crec) || (d.needs 1 && recordBad 1 prec) then some 7
  else if !partValid pw then some 3
  else if roles.any fun r => decide (16 * partRblk pw < groupsOf r.2.1 * r.2.2) then some 4
  else if (partWays pw - 2) * 32768 < 128 * scrl then some 5
  else if d.cores && decide (44 * fitCount d roles (16 * partRblk pw) (partWays pw) scrl 8 0 (List.replicate 8 SubRoom.empty)
      * (diesOf d.diem).length < nteam / d.z) then some 6
  else if s.regs.isolated && !s.regs.slotmapOn.contains c.domain then some 8
  else none

/-! ### Reporting (R279, R284, R296) -/

/-- The queue word written (R279): CIDX and NINC. -/
def State.queueWord (s : State) (ctx q : Nat) : Fe State :=
  let x := (s.ctx ctx).queue q
  if !x.en then .ok s
  else s.feWrite ctx (homeDie ctx) 3 q x.qwva.toNat (leBytes 4 x.cidx.toNat ++ leBytes 4 x.ninc.toNat)

/-- A queue changed. -/
def State.onQueue (s : State) (ctx q : Nat) (f : Queue → Queue) : State :=
  s.onCtx ctx fun c => c.setQueue (f (c.queue q))

/-- Step 3 of R296: NINC falls, and at 0 the queue interrupt. -/
def State.queueDone (s : State) (ctx q : Nat) : Fe State := do
  let s1 ← (s.onQueue ctx q fun x => { x with ninc := x.ninc - 1 }).queueWord ctx q
  let x := (s1.ctx ctx).queue q
  .ok (if x.ninc == 0 && x.qirq then s1.contextIrq ctx else s1)

/-- What ends with a grid beside its report: its tokens are freed, its task entry leaves, its queue counts it (R286,
R288, R296). -/
def State.sourceDone (s : State) (ctx : Nat) (src : GridSource) (tokens : Nat) : Fe State :=
  match src with
  | .queue _ q => s.queueDone ctx q
  | .task .. => .ok s
  | .batch die q => .ok (s.onTokens die q fun t => { t with freed := t.freed + tokens })

/-- The first task of a context leaves a die's task queue. -/
def dropTask (die ctx : Nat) : List (Nat × Task) → List (Nat × Task)
  | [] => []
  | t :: rest => if t.1 == die && t.2.ctx == ctx then rest else t :: dropTask die ctx rest

/-- A task whose cast is placed or whose grid is refused leaves its queue (R286). -/
def State.taskDone (s : State) (ctx : Nat) (src : GridSource) : State :=
  match src with
  | .task die _ => { s with tasks := dropTask die ctx s.tasks }
  | _ => s

/-- The front end's die for a source (R399). -/
def sourceDie (src : GridSource) : Nat :=
  match src with
  | .queue ctx _ => homeDie ctx
  | .task die _ | .batch die _ => die

/-- Step 2 of R296: the status word, the event counter and the grid interrupt. -/
def State.gridReport (s : State) (ctx die : Nat) (d : GridDesc) (status : Nat) : Fe State := do
  let s1 ← if d.statva == 0 then .ok s else s.feWrite ctx die 1 0 d.statva (leBytes 8 status)
  let s2 ← if d.evva == 0 then .ok s1 else s1.feCount ctx die d.evva
  .ok (if d.girq then s2.contextIrq ctx else s2)

/-- A kind 4 record (R270): the launch whose descriptor cannot be read. -/
def State.launchRecord (s : State) (ctx : Nat) (src : GridSource) (list : Bool) (gd : Nat) : State :=
  let (k, q) : Nat × Nat := match src with
    | .queue _ q => (if list then 3 else 0, q)
    | .task .. => (1, 0)
    | .batch _ q => (2, q)
  let va : DWord := BitVec.ofNat 64 gd
  s.record ctx [va.lo, va.hi, (s.ctx ctx).ctxid (s.ctx ctx).world, BitVec.ofNat 2 (sourceDie src) ++ 0#30, 4#3 ++ 0#29,
    0#8 ++ BitVec.ofNat 8 q ++ BitVec.ofNat 8 k ++ 1#8, 0, 0]

/-! ### Starting a grid (R284 to R288) -/

/-- What a source offers to start. -/
structure Offer where
  ctx    : Nat
  gd     : Nat
  /-- A reserved field of the ring entry is not zero. -/
  bad    : Bool
  /-- The launch list holds it. -/
  list   : Bool
  args   : Option (List Word)
  /-- The first words of a batch: S0 to S4. -/
  head   : List Word
  tokens : Nat
  pri    : Nat
deriving DecidableEq, Repr

/-- Does an earlier grid of a source hold unplaced casts (R285, R286)? -/
def State.unplaced (s : State) (p : GridSource → Bool) (ctx : Nat) : Bool :=
  s.grids.any fun g => g.ctx == ctx && p g.source && decide (g.nextCast < g.castCount)

/-- The next descriptor of a launch list. -/
def listOffer (ctx pri : Nat) (gd : DWord) : Offer :=
  { ctx := ctx, gd := gd.toNat, bad := false, list := true, args := none, head := [], tokens := 0, pri := pri }

/-- An item taken from a queue's order. -/
def Queue.take (x : Queue) (ring : Bool) : Queue :=
  { x with
    cidx := if ring then x.cidx + 1 else x.cidx, ninc := x.ninc + 1,
    items := match x.items with
      | .ring f n :: rest => if n ≤ 1 then rest else .ring ((f + 1) % 2 ^ 32) (n - 1) :: rest
      | .list .. :: rest => rest
      | [] => [] }

/-- The next entry of a queue is taken (R279, R280, R285): none when there is none to take now. -/
def State.takeQueue (s : State) (ctx q : Nat) : Fe (State × Option Offer) :=
  let x := (s.ctx ctx).queue q
  let mine (g : GridSource) : Bool := g == .queue ctx q
  if s.unplaced mine ctx then .ok (s, none)
  else match x.items with
  | [] => .ok (s, none)
  | .list gd _ :: _ => do
    let s1 ← (s.onQueue ctx q (·.take false)).queueWord ctx q
    .ok (s1, some (listOffer ctx x.pri gd))
  | .ring e _ :: _ =>
    if x.stopped then .ok (s, none)
    else do
      let va := x.ring.toNat + 16 * (e % 2 ^ x.rszl)
      let (s1, r) ← s.feRead ctx (homeDie ctx) va 16
      match r with
      | .error code =>
        .ok ((s1.queueFault ctx (homeDie ctx) 6 q false code (BitVec.ofNat 64 va)).onQueue ctx q
          fun x => { x with stopped := true }, none)
      | .ok b =>
        if (field b 8 4).testBit 0 && s.grids.any fun g => g.ctx == ctx && mine g.source then .ok (s, none)
        else
          let s2 ← (s1.onQueue ctx q (·.take true)).queueWord ctx q
          .ok (s2, some { ctx := ctx, gd := field b 0 8, bad := decide (1 < field b 8 4) || field b 12 4 != 0,
                          list := false,
                          args := none, head := [], tokens := 0, pri := x.pri })

/-- May the front end start work of a context? -/
def State.starts (s : State) (ctx : Nat) : Bool := (s.ctx ctx).state == .registered && !s.frozen && !s.switching

/-- Is entry j of a die's task queue passed over when its turn in the examination comes: its context starts nothing, an
earlier entry of the context is there, or the context's last grid from the queue is not placed (R286)? -/
def State.taskWaits (s : State) (die : Nat) (here : List Task) (j : Nat) : Bool :=
  let mine (g : GridSource) : Bool := match g with | .task d _ => d == die | _ => false
  match here[j]? with
  | none => true
  | some t => !s.starts t.ctx || (here.take j).any (·.ctx == t.ctx) || s.unplaced mine t.ctx

/-- Entry j of a die's task queue, when it is the first in the order added that does not wait (R286). -/
def State.takeTask (s : State) (die j : Nat) : Option Offer :=
  let here := (s.tasks.filter (·.1 == die)).map (·.2)
  match here[j]? with
  | none => none
  | some t =>
    if s.taskWaits die here j || (List.range j).any (fun i => !s.taskWaits die here i) then none
    else some { ctx := t.ctx, gd := t.gd.toNat, bad := false, list := false, args := some t.args, head := [], tokens := 0,
                pri := 1 }

/-- The next batch of a token queue (R288). -/
def State.takeBatch (s : State) (die q : Nat) : State × Option Offer :=
  match s.tokens.find? fun t => t.die == die && t.q == q with
  | none => (s, none)
  | some t =>
    if s.unplaced (· == .batch die q) t.ctx then (s, none)
    else match t.batches with
    | [] => (s, none)
    | b :: rest =>
      (s.onTokens die q fun t => { t with batches := rest },
       some { ctx := t.ctx, gd := t.gdva.toNat, bad := false, list := false, args := none,
              head := [BitVec.ofNat 32 (b.first % 2 ^ t.capl), BitVec.ofNat 32 b.count, t.buf.lo, t.buf.hi,
                  BitVec.ofNat 32 q],
              tokens := b.count, pri := 1 })

/-- Team count of an offer (R281, R286, R288). -/
def State.teamCount (s : State) (src : GridSource) (d : GridDesc) (tokens : Nat) : Nat :=
  match src with
  | .queue .. => d.nteam
  | .task .. => 1
  | .batch die q =>
    let tpc := ((s.tokens.find? fun t => t.die == die && t.q == q).elim 1 (·.tpc))
    d.z * ((tokens + tpc - 1) / tpc)

/-- S0 to S15 of the grid's teams (R281, R286, R288). -/
def Offer.words (o : Offer) (block : List Word) : List Word :=
  let ws := o.args.getD block
  o.head ++ ws.drop o.head.length

/-- A refused grid: steps 2 and 3 of R296 with STATE 3, and its source lets it go. -/
def State.refuse (s : State) (src : GridSource) (o : Offer) (d : GridDesc) (reason : Nat) : Fe State := do
  let s1 ← s.gridReport o.ctx (sourceDie src) d (reason + 3 * 256)
  (s1.taskDone o.ctx src).sourceDone o.ctx src o.tokens

/-- Bytes a check of REASON 1 reads, when they are needed. -/
def State.feNeeded (s : State) (ctx die : Nat) (needed : Bool) (va n : Nat) :
    Fe (State × Except (BitVec 8) (List Byte)) :=
  if needed then s.feRead ctx die va n else .ok (s, .ok (List.replicate n 0))

/-- The readable grid of an offer enters the list of grids. -/
def State.addGrid (s : State) (src : GridSource) (o : Offer) (b : List Byte) (nteam : Nat) (args crec prec : List Byte) :
    State :=
  let d := GridDesc.ofBytes b
  let (cvb, pvb, scrl, pw) := d.supplied crec prec
  let (id, s1) := s.fresh
  let g : Grid :=
    { id := id, ctx := o.ctx, source := src, gdva := BitVec.ofNat 64 o.gd, desc := b, args := o.words (wordsOf args),
      cvb := cvb, pvb := pvb, scrl := scrl, partw := pw, nteam := nteam, pri := o.pri,
      dies := match src with | .task die _ => [die] | _ => diesOf d.diem,
      nextCast := 0, unretired := nteam, saved := [], headAt := some s.clk, holding := false, tokens := o.tokens,
      order := id }
  ({ s1 with grids := s1.grids ++ [g] } : State).onCtx o.ctx fun c =>
    { c with started := (g.gdva, id) :: c.started.filter (·.1 != g.gdva) }

/-- A taken offer is read, checked and started or refused (R284); it starts, with STATE 1, before the checks (R279). -/
def State.startOffer (s : State) (src : GridSource) (o : Offer) : Fe State := do
  let die := sourceDie src
  let (s1, r) ← s.feRead o.ctx die o.gd 128
  match r with
  | .error _ => ((s1.launchRecord o.ctx src o.list o.gd).taskDone o.ctx src).sourceDone o.ctx src o.tokens
  | .ok b =>
    let d := GridDesc.ofBytes b
    let s1 ← if d.statva == 0 then .ok s1 else s1.feWrite o.ctx die 1 0 d.statva (leBytes 8 0x100)
    let nteam := s1.teamCount src d o.tokens
    let (s2, ra) ← s1.feNeeded o.ctx die (o.args.isNone && d.argva != 0) d.argva 64
    let (s3, rc) ← s2.feNeeded o.ctx die (d.needs 0) ((d.centry + 2 ^ 64 - 16) % 2 ^ 64) 16
    let (s4, rp) ← s3.feNeeded o.ctx die (d.needs 1) ((d.pentry + 2 ^ 64 - 16) % 2 ^ 64) 16
    match ra, rc, rp with
    | .ok args, .ok crec, .ok prec =>
      match s4.gridReason (s4.ctx o.ctx) o.gd b src o.bad nteam crec prec with
      | some n => s4.refuse src o d n
      | none => .ok (s4.addGrid src o b nteam args crec prec)
    | _, _, _ => s4.refuse src o d 1

/-- R285, R286, R288: the next grid of a queue, a task queue or a token queue starts or is refused. -/
def execGridStart (src : GridSource) (s : State) : Result :=
  s.fe (match src with
    | .queue ctx q =>
      if !s.starts ctx then .ok s
      else do
        let (s1, o) ← s.takeQueue ctx q
        match o with
        | some o => s1.startOffer src o
        | none => .ok s1
    | .task die j =>
      match s.takeTask die j with
      | some o => if s.starts o.ctx then s.startOffer src o else .ok s
      | none => .ok s
    | .batch die q =>
      match s.takeBatch die q with
      | (s1, some o) => if s.starts o.ctx then s1.startOffer src o else .ok s
      | _ => .ok s)

end Sys2Proof.Machine
end

