-- ==== Sys2Proof/Machine/Place.lean ====
section
/-! DEFINITION. Placing a cast, the hold of a co-resident grid, retirement, and ending saved (R94, R282, R285, R289 to
R291, R296, R299, R300, R362). -/

namespace Sys2Proof.Machine

/-! ### Where a cast may go (R244, R289, R362, R367) -/

/-- Is a core site enabled (R367)? -/
def State.siteEnabled (s : State) (core : Nat) : Bool :=
  decide (core < 192) && (s.regs.sites.getD (coreDie core) 0).getLsbD (core % 48)

/-- Does a cluster's class admit a world (R362)? -/
def classAdmits (cls : Nat) (world : Bool) : Bool := cls == 2 || (cls == 1) == world

/-- The sub-cores of a core as placement finds them (R289). -/
def State.rooms (s : State) (core : Nat) : List SubRoom :=
  (List.range 8).map fun sub =>
    { count := (s.subTeams core sub).length, used := s.usedRuns core sub,
      barred := (s.subTeams core sub).any fun t => t.outst.any Outst.isXacq }

/-- Does a core run, or may it take, a partition word (R244)? -/
def State.takesWord (s : State) (core : Nat) (w : Word) : Bool :=
  (s.core core).partw == w || (!(s.casts.any (·.core == core)) && (s.core core).locks.isEmpty)

/-- A matrix context that no cast holds. -/
def Core.freeMatrix (c : Core) : Option Nat := (List.range 4).find? fun m => (c.mctx m).owner.isNone

/-- The teams of a cast to place: all of its slots, or the saved ones, with lanes and budgets. -/
def Grid.roles (g : Grid) (slots : Option (List Nat)) : List (Nat × Nat × Nat) :=
  (castRoles g.d g.cvb g.pvb).filter fun r => slots.elim true (·.contains r.1)

/-- Conditions 1 to 5 of R289 on a core. -/
def State.coreFits (s : State) (g : Grid) (roles : List (Nat × Nat × Nat)) (core : Nat) : Bool :=
  let here := s.casts.filter (·.core == core)
  s.takesWord core g.partw && decide (here.length < 8)
    && decide ((s.teams.filter (·.core == core)).length + roles.length ≤ 32)
    && (!g.d.mx || (s.core core).freeMatrix.isSome)
    && decide ((here.map (·.nb)).foldl (· + ·) 0 + g.d.nb ≤ 512)
    && (List.range 256).all fun i => decide (s.setUse core i + setLines (128 * g.scrl) i + 2 ≤ partWays g.partw)

/-- Does another grid's hold keep a cast of `g` off a die (R291, R301)? -/
def State.held (s : State) (g : Grid) (die : Nat) : Bool :=
  s.grids.any fun h => h.id != g.id && h.holding && h.dies.contains die && decide (g.pri ≤ h.pri)
    && (s.ctx h.ctx).state == .registered

/-- Sub-cores and runs for the teams of a cast on a core, when every condition of R289, R291 and R362 holds. -/
def State.placement (s : State) (g : Grid) (roles : List (Nat × Nat × Nat)) (core : Nat) :
    Option (List (Nat × List (Nat × Bool × Nat × Nat))) :=
  if s.siteEnabled core && !s.held g (coreDie core) && g.dies.contains (coreDie core) &&
      classAdmits (s.clusterClass core) (s.ctx g.ctx).world
      && s.coreFits g roles core then
    placeTeams (16 * partRblk g.partw) roles (s.rooms core)
  else none

/-! ### Which cast (R285, R291, R299, R300) -/

/-- The saved cast of a grid with the lowest index. -/
def Grid.firstSaved (g : Grid) : Option (Nat × List Nat) :=
  g.saved.foldl (fun a x => match a with
    | none => some x
    | some y => if x.1 < y.1 then some x else some y) none

/-- The next cast of a grid, with the saved slots when it is a saved one: saved casts of the context go first (R300). -/
def State.nextCast (s : State) (g : Grid) : Option (Nat × Option (List Nat)) :=
  match g.firstSaved with
  | some (c, slots) => some (c, some slots)
  | none =>
    if s.grids.any (fun h => h.ctx == g.ctx && !h.saved.isEmpty) || g.castCount ≤ g.nextCast then none
    else some (g.nextCast, none)

/-! ### Placing (R11, R13, R282, R289, R300) -/

/-- A team as placement makes it (R13, R281, R300, R372): at CENTRY or PENTRY, or at RENTRY when it was saved. -/
def State.newTeam (s : State) (g : Grid) (castId castIdx core id : Nat) (role : Nat × Nat × Nat) (sub : Nat)
    (runs : List (Nat × Bool × Nat × Nat)) (restored : Bool) : Team :=
  let d := g.d
  let c := s.ctx g.ctx
  let index := castIdx * d.z + (if d.nprod == 1 then role.1 else role.1 - 1)
  { id := id, ctx := g.ctx, core := core, sub := sub, cast := castId, cslot := role.1, grid := g.id,
    index := BitVec.ofNat 24 index, n := role.2.1, pri := g.pri, lchk := d.lchk, base := role.2.2, extg := 0,
        runs := runs,
    v := [], s := g.args, p := [], q := 0, b := [], k := [], stack := [], openNo := 0, openSeq := 0, sealed := [],
    expand := Expand.reset, last := none, act := lanesBelow role.2.1, exited := 0, tmask := 0, hnd := false,
        psave := false,
    svl := false, world := c.world, stamp := 0, tbase := BitVec.ofNat 64 d.tbase,
    saveptr := BitVec.ofNat 64 (d.saveb + index * d.saves), ts := [], fpstat := 0, srseed := 0, srstream := 0,
    svcvec := if c.world then s.regs.svcs else s.regs.svcns,
    pc := BitVec.ofNat 64 (if restored then d.rentry else if role.1 == 0 then d.pentry else d.centry),
    clause := none, clauseNo := 0, via := none, target := false, outst := [], posted := [], resume := none,
        park := none, cleared := [],
    pending := none, late := [], preempt := false, wdogDue := false, wdog := 0, yieldN := none, yield := none,
    port := none, passed := 0, lastEnd := none, lastY := false, placed := castId, restored := restored, ended := false,
    unacked := 0 }

/-- The teams of a cast, with fresh keys from `id`. -/
def State.newTeams (s : State) (g : Grid) (castId castIdx core : Nat) (restored : Bool) :
    Nat → List ((Nat × Nat × Nat) × Nat × List (Nat × Bool × Nat × Nat)) → List Team
  | _, [] => []
  | id, (role, sub, runs) :: more =>
    s.newTeam g castId castIdx core id role sub runs restored :: s.newTeams g castId castIdx core restored (id + 1) more

/-- The lowest cast number that no cast on a core holds (R289). -/
def State.castNumber (s : State) (core : Nat) : Nat :=
  ((List.range 8).find? fun n => !s.casts.any fun c => c.core == core && c.number == n).getD 0

/-- A cast put on a core with its teams, zero scratch, barriers and tiles. A core that takes a new partition word starts
with an empty L1: R244 says nothing of the lines it held (DESIGN CHOICE, log 84). The ways of the new scratch are given up
(R247). -/
def State.putCast (s : State) (g : Grid) (idx : Nat) (roles : List (Nat × Nat × Nat)) (restored : Bool) (core : Nat)
    (pl : List (Nat × List (Nat × Bool × Nat × Nat))) : State :=
  let (id, s1) := s.fresh
  let m := if g.d.mx then (s.core core).freeMatrix else none
  let cast : Cast :=
    { id := id, core := core, number := s.castNumber core, grid := g.id, index := idx, size := 128 * g.scrl, nb := g.d.nb,
      bars := [], mcbase := 0, mctx := m, scratch := [], bad := [], live := roles.length, order := id }
  let teams := s.newTeams g id idx core restored s1.nextId (roles.zip pl)
  let s2 : State := { s1 with nextId := s1.nextId + teams.length, casts := s1.casts ++ [cast],
                              teams := s1.teams ++ teams }
  let s3 := (s2.onCore core fun c => { c with partw := g.partw,
                                              l1 := if c.partw == g.partw then c.l1 else [] }).trimL1 core
  match m with
  | some m => s3.onMatrix core m fun _ => { Matrix.reset with owner := some id }
  | none => s3

/-- The grid after one of its casts is placed. -/
def Grid.placedOne (idx : Nat) (restored : Bool) (g : Grid) : Grid :=
  if restored then { g with saved := g.saved.filter (·.1 != idx) } else { g with nextCast := g.nextCast + 1 }

/-- The next cast of grid `g` placed on a core; none where it cannot be. What the launch has released is seen by the
first instruction of each of its teams, which an acquire of the core at .dev brings about (R226; DEDUCED, log 74). -/
def State.placeNext (s : State) (g core : Nat) : Option State :=
  match s.grid? g with
  | none => none
  | some gr =>
    match s.nextCast gr with
    | none => none
    | some (idx, slots) =>
      let roles := gr.roles slots
      match s.placement gr roles core with
      | none => none
      | some pl =>
        let s0 := s.acquireLines core (s.ctx gr.ctx).asid .dev
        let s1 := (s0.putCast gr idx roles slots.isSome core pl).onGrid g (Grid.placedOne idx slots.isSome)
        some (if slots.isSome then s1 else s1.taskDone gr.ctx gr.source)

/-- Casts still to place: the saved ones, or those not yet placed. -/
def Grid.toPlace (g : Grid) : Nat := if g.saved.isEmpty then g.castCount - g.nextCast else g.saved.length

/-- All casts of a co-resident grid placed together (R291), each on the first core that takes it from `core` on. -/
def State.placeAll (g : Nat) : (fuel casts core : Nat) → State → Option State
  | _, 0, _, s => some s
  | 0, _ + 1, _, _ => none
  | k + 1, n + 1, core, s =>
    match s.placeNext g core with
    | some s' => State.placeAll g k n core s'
    | none => State.placeAll g k (n + 1) ((core + 1) % 192) s

/-- The next cast of a grid placed on a core, or all of them when the grid is co-resident. -/
def State.tryPlace (s : State) (g : Grid) (core : Nat) : Option State :=
  if !s.starts g.ctx then none
  else if g.d.cores then
    if g.toPlace == 0 then none else State.placeAll g.id (192 + g.toPlace) g.toPlace core s
  else s.placeNext g.id core

/-- The number of a grid's source in the rotation of R285: its queue number, or past those of the queues (log 75). -/
def sourceNumber : GridSource → Nat
  | .queue _ q => q
  | .task .. => 16
  | .batch _ q => 17 + q

/-- Did the grid come from a task queue? -/
def isTaskSource : GridSource → Bool
  | .task .. => true
  | _ => false

/-- The place of a grid in a front end's rotation: contexts after the one placed last come first, and within a context
its source numbers after the one placed last (R285). -/
def FrontEnd.rank (f : FrontEnd) (g : Grid) : Nat :=
  let q := ((f.queues.find? (·.1 == g.ctx)).map (·.2)).getD 127
  (g.ctx + 1023 - f.ctx) % 1024 * 128 + (sourceNumber g.source + 127 - q) % 128

/-- The rotation after a cast of a grid is placed. -/
def FrontEnd.served (f : FrontEnd) (g : Grid) : FrontEnd :=
  { ctx := g.ctx, queues := (g.ctx, sourceNumber g.source) :: f.queues.filter (·.1 != g.ctx) }

/-- Can the next cast of a grid, or every cast of a co-resident one, be placed now, on a core or from it on? -/
def State.placeable (s : State) (g : Grid) (core : Nat) : Bool :=
  if g.d.cores then (s.tryPlace g core).isSome
  else s.starts g.ctx && (s.nextCast g).elim false fun x => (s.placement g (g.roles x.2) core).isSome

/-- Is a grid ready to be placed on a die now? -/
def State.readyOn (s : State) (die : Nat) (h : Grid) : Bool := (List.range 48).any fun k => s.placeable h (48 * die + k)

/-- Does a ready grid go before another (R285, R286): higher PRI, or an earlier turn at equal PRI? -/
def FrontEnd.precedes (f : FrontEnd) (h g : Grid) : Bool :=
  decide (g.pri < h.pri) || (g.pri == h.pri && (decide (f.rank h < f.rank g) || (f.rank h == f.rank g &&
      decide (h.order < g.order))))

/-- Must grid g wait for another that is ready on the die: of task-queue grids the one added first goes first (R286);
else the order is that of R285? -/
def State.yields (s : State) (die : Nat) (g : Grid) : Bool :=
  let f := s.fronts.getD die FrontEnd.reset
  let others := s.grids.filter fun h => h.id != g.id
  let taskBefore (h : Grid) : Bool :=
    isTaskSource h.source && others.any fun x => isTaskSource x.source && decide (x.order < h.order) && s.readyOn die x
  taskBefore g
    || others.any fun h => !(isTaskSource g.source && isTaskSource h.source) && f.precedes h g &&
        s.readyOn die h && !taskBefore h

/-- The dies that take the casts of a placement: `s1` is the state after it. -/
def State.placedOn (s s1 : State) : List Nat := ((s1.casts.drop s.casts.length).map fun c => coreDie c.core).eraseDups

/-- The front ends of some dies have placed casts of a grid. -/
def State.turnFronts (s : State) (g : Grid) (dies : List Nat) : State :=
  { s with fronts := dies.foldl (fun fs d => setAt fs d ((fs.getD d FrontEnd.reset).served g) FrontEnd.reset) s.fronts }

/-- R285, R289: a waiting cast is placed on a core, or every cast of a co-resident grid, where no die that takes one has
another grid to place first. -/
def execCastPlace (g core : Nat) (s : State) : Result :=
  match s.grid? g with
  | none => .next s
  | some gr =>
    match s.tryPlace gr core with
    | none => .next s
    | some s1 =>
      let dies := s.placedOn s1
      if dies.any fun d => s.yields d gr then .next s
      else
        .next ((s1.turnFronts gr dies).onGrid g fun x =>
          if x.toPlace == 0 then { x with holding := false, headAt := none } else x)

/-- R291: a co-resident grid that has waited 2^20 clocks at the head of its queue. -/
def execCoresidentHold (g : Nat) (s : State) : Result :=
  match s.grid? g with
  | none => .next s
  | some gr =>
    if gr.d.cores && gr.toPlace != 0 && s.starts gr.ctx &&
        gr.headAt.elim false (fun t => decide (t + 2 ^ 20 ≤ s.clk)) then
      .next (s.onGrid g fun x => { x with holding := true })
    else .next s

/-! ### Leaving (R94, R296, R299) -/

/-- A cast that holds no team is released (R296): scratch, barriers, matrix context and range-lock entries. -/
def State.releaseCast (s : State) (cast : Nat) : State :=
  match s.cast? cast with
  | none => s
  | some c =>
    let s1 : State := { s with casts := s.casts.filter (·.id != cast) }
    let s2 := s1.onCore c.core fun k => { k with ranges := k.ranges.filter (·.space != .scratch cast) }
    match c.mctx with
    | some m => s2.onMatrix c.core m fun _ => Matrix.reset
    | none => s2

/-- A team leaves its core; its cast is released with its last team. -/
def State.dropTeam (s : State) (t : Team) : State :=
  let s1 : State := { s with teams := s.teams.filter (·.id != t.id) }
  let s2 := s1.onCast t.cast fun c => { c with live := c.live - 1 }
  if (s2.cast? t.cast).elim false (·.live == 0) then s2.releaseCast t.cast else s2

/-- A context whose last team has left while it is pre-empted (R299). -/
def State.settlePreempt (s : State) (ctx : Nat) : State :=
  if (s.ctx ctx).state == .preempting && !s.teams.any (·.ctx == ctx) then
    (s.onCtx ctx fun c => { c with state := .preempted }).contextIrq ctx
  else s

/-- Has everything a team started ended (R16, R297)? -/
def State.quiet (s : State) (t : Team) : Bool := t.unperformed.isEmpty && t.unacked == 0 && s.engineIdle t.id

/-- A saved team kept for its restore: cast index and slot (R299, R300). -/
def Grid.save (g : Grid) (idx slot : Nat) : Grid :=
  { g with saved :=
      if g.saved.any (·.1 == idx) then replaceIf g.saved (·.1 == idx) fun x => (x.1, x.2 ++ [slot])
      else g.saved ++ [(idx, [slot])] }

/-- R94, R396: legal while PSAVE is 1; once the team's work has ended, the team ends saved and its place is freed, a
release at .dev. -/
def execExitSaved (s : State) : Result :=
  issue .exitSaved s (fun _ t _ => if t.psave then none else some { code := .illegalInstr }) noTrap fun s t _ =>
    if !s.quiet t then s
    else
      let idx := (s.cast? t.cast).elim 0 (·.index)
      (((s.release t .dev).dropTeam t).onGrid t.grid fun g => g.save idx t.cslot).settlePreempt t.ctx

/-- Steps 2 and 3 of R296 for a grid whose last team has retired. -/
def State.completeGrid (s : State) (g : Grid) : Fe State := do
  let s1 ← s.gridReport g.ctx (sourceDie g.source) g.d 0x200
  ({ s1 with grids := s1.grids.filter (·.id != g.id) } : State).sourceDone g.ctx g.source g.tokens

/-- R296, R297: a team retires, a release at .dev; then its cast, its grid and its queue count it. -/
def execTeamRetire (t : Nat) (s : State) : Result :=
  match s.team? t with
  | none => .next s
  | some tm =>
    if !tm.ended || !s.alive tm.ctx || !s.quiet tm then .next s
    else
      let s1 := ((s.release tm .dev).dropTeam tm).onGrid tm.grid fun g => { g with unretired := g.unretired - 1 }
      s.fe ((match s1.grid? tm.grid with
        | none => Except.ok s1
        | some g => if g.unretired == 0 then s1.completeGrid g else .ok s1).map fun (x : State) => x.settlePreempt tm.ctx)

end Sys2Proof.Machine
end

