-- ==== Sys2Proof/Machine/Context.lean ====
section
/-! DEFINITION. Contexts through their register blocks: registration, pre-emption, resume, reset, unregistration, the
storage table (R276, R278, R299 to R301, R305, R350, R362), and token queues (R287, R288). -/

namespace Sys2Proof.Machine

/-! ### Token queues -/

/-- Does every earlier piece of the physical function stand acknowledged (R346)? -/
def State.pfReady (s : State) : Bool := s.hostUp && !s.pieces.any fun p => p.fn == 0

/-- A record put into its BAR0 window, which reads it back (R349). -/
def State.window (s : State) (off : Nat) (bs : List Byte) : State :=
  { s with regs := { s.regs with windows := s.regs.windows.writeN off bs } }

/-- R288: the timer of a token queue expires. -/
def execTokenQueueTimer (die q : Nat) (s : State) : Result :=
  .next (if s.stopped then s else s.onTokens die q fun t =>
    if t.timer.elim false fun x => decide (x ≤ s.ns) then TokenQueue.trigger t s.ns else t)

/-- The token queue a record binds (R287); none when a field is outside its range or reserved and not zero (log 32). -/
def boundQueue (die q : Nat) (r : List Byte) : Option TokenQueue :=
  let cfg := field r 0x10 4
  let capl := bitsOf cfg 15 12
  if field r 0 8 % 256 != 0 || bitsOf cfg 11 10 != 0 || outside capl 6 15 || outside (bitsOf cfg 31 16) 1 (2 ^ capl)
      || decide (1000000 < field r 0x14 4) || outside (field r 0x18 4) 1 4096 || !zeroBytes r 0x1C 4 then none
  else
    some { die := die, q := q, ctx := bitsOf cfg 9 0, buf := BitVec.ofNat 64 (field r 0 8),
           gdva := BitVec.ofNat 64 (field r 8 8), capl := capl, thr := bitsOf cfg 31 16, tmo := field r 0x14 4,
           tpc := field r 0x18 4, pushed := 0, launched := 0, freed := 0, timer := none, batches := [] }

/-- The queue unbound; batches in flight free nothing of a later binding, and batches launched and not yet started are
dropped with the queue, of which R287 says nothing (DESIGN CHOICE, log 85). -/
def State.unbind (s : State) (die q : Nat) : State :=
  { s with
    tokens := s.tokens.filter fun t => !(t.die == die && t.q == q)
    grids := replaceIf s.grids (·.source == .batch die q) fun g => { g with tokens := 0 } }

/-- R287: a record written to its window binds or unbinds a queue. -/
def execTokenQueueBind (die q : Nat) (record : List Byte) (s : State) : Result :=
  if 4 ≤ die || 64 ≤ q || record.length != 32 || !s.pfReady then .next s
  else
    let s1 := s.window (0x030000 + 2048 * die + 32 * q) record
    if bitsOf (field record 0x10 4) 9 0 == 0x3FF then .next (s1.unbind die q)
    else match boundQueue die q record with
    | none => .next s1
    | some t => .next { s1.unbind die q with tokens := (s1.unbind die q).tokens ++ [t] }

/-! ### Registration (R278, R350, R362) -/

/-- CSTAT.LAST set. -/
def State.last (s : State) (ctx : Nat) (n : BitVec 4) : State := s.onCtx ctx fun c => { c with last := n }

/-- Is a reserved field of a context descriptor not zero, or a field outside its range (R278)? -/
def contextBad (b : List Byte) : Bool :=
  let root := field b 0 8
  let id := field b 8 4
  let fl := field b 0xC 4
  let wdl := bitsOf fl 7 2
  let fr := field b 0x10 8
  root % 2 ^ 15 != 0 || decide (2 ^ 48 ≤ root) || bitsOf id 25 16 != 0 || fl / 256 != 0 || (wdl != 0 && outside wdl 16 40)
    || bitsOf fr 62 48 != 0 || bitsOf fr 11 0 != 0 || outside (field b 0x18 4) 6 15 || !zeroBytes b 0x1C 4
    || field b 0x20 8 % 32 != 0 || !zeroBytes b 0x28 24

/-- Does the world of a descriptor keep it from registering (R362)? -/
def State.worldRefused (s : State) (b : List Byte) : Bool :=
  let id := field b 8 4
  let world := id.testBit 31
  (world && !s.wrt.sdom.getLsbD (bitsOf id 30 26))
    || s.contexts.any fun c => c.state != .free && c.asid.toNat == bitsOf id 15 0 && c.world != world

/-- A context as its descriptor describes it. -/
def Context.described (c : Context) (b : List Byte) : Context :=
  let id := field b 8 4
  let fl := field b 0xC 4
  let fr := field b 0x10 8
  { c with
    state := .registered, last := 0, root := field b 0 8, world := id.testBit 31,
        domain := BitVec.ofNat 5 (bitsOf id 30 26),
    asid := BitVec.ofNat 16 (bitsOf id 15 0), dbg := fl.testBit 0, wdh := fl.testBit 1, wdl := bitsOf fl 7 2,
    fringHost := fr.testBit 63, fring := bitsOf fr 47 12 * 4096, frl := field b 0x18 4,
        qtab := BitVec.ofNat 64 (field b 0x20 8),
    fprod := 0, records := [], backlog := if c.records.isEmpty then c.backlog else c.backlog ++ [c.ring],
    queues := [], dusktb := 0, table := 0, header := [], bgAt := none, started := [] }

/-- R278: a write of CDESC registers a context, or reports why not. -/
def execCdesc (fn ctx : Nat) (pa : DWord) (s : State) : Result :=
  if !s.mayReach fn ctx then .next s
  else if (s.ctx ctx).state != .free || s.ck == some .load then .next (s.last ctx 3)
  else
    let b := s.physRead pa.toNat 64
    let s := s.countNoMemory pa.toNat
    if pa.toNat % 64 != 0 || s.physBad pa.toNat 64 || contextBad b || s.worldRefused b then .next (s.last ctx 1)
    else .next (s.onCtx ctx (·.described b))

/-! ### Commands (R299 to R301, R350) -/

/-- A command of a context that acts in some states, and is otherwise ignored with LAST = 3. -/
def State.command (s : State) (fn ctx : Nat) (can : Context → Bool) (act : State → State) : Result :=
  if !s.mayReach fn ctx then .next s
  else if can (s.ctx ctx) then .next (act (s.last ctx 0))
  else .next (s.last ctx 3)

/-- R299: pre-emption starts; PREEMPT is due for every resident team. -/
def execCcmdPreempt (fn ctx : Nat) (s : State) : Result :=
  s.command fn ctx (·.state == .registered) fun s =>
    (({ s with teams := replaceIf s.teams (·.ctx == ctx) fun t => { t with preempt := true } } : State).onCtx ctx fun c =>
      { c with state := .preempting }).settlePreempt ctx

/-- R300: the context goes on; its saved casts are placed first, and a co-resident grid that was saved comes to the head
of its queue again (R291). -/
def execCcmdResume (fn ctx : Nat) (s : State) : Result :=
  s.command fn ctx (·.state == .preempted) fun s =>
    ({ s with grids := replaceIf s.grids (fun g => g.ctx == ctx && !g.saved.isEmpty) fun g =>
        { g with headAt := some s.clk } } : State).onCtx ctx fun c => { c with state := .registered }

/-- R275, R301: the driver requests a reset, REASON 6. -/
def execCcmdReset (fn ctx : Nat) (s : State) : Result :=
  s.command fn ctx Context.live fun s => s.contextFault ctx (homeDie ctx) 6 0 0

/-- An unregistered context: the registers of its block that are not of the registration stay, and so do fault records
still to be written. -/
def Context.unregistered (c : Context) : Context :=
  { Context.reset c.no with
    lknak := c.lknak, cirq := c.cirq, pv := c.pv, pasid := c.pasid, pwbase := c.pwbase, pwn := c.pwn, cfunc := c.cfunc, binds := c.binds,
    records := c.records, backlog := c.backlog, fringHost := c.fringHost, fring := c.fring, frl := c.frl,
        fprod := c.fprod }

/-- R350: unregistration of a reset context, or of a registered one with no grid. -/
def execCcmdUnregister (fn ctx : Nat) (s : State) : Result :=
  s.command fn ctx (fun c => c.state == .reset || (c.state == .registered && !s.grids.any (·.ctx == ctx))) fun s =>
    s.onCtx ctx Context.unregistered

/-- R350: commands 5 to 7 are ignored, with LAST = 3. -/
def execCcmdReserved (fn ctx : Nat) (cmd : BitVec 3) (s : State) : Result :=
  if s.mayReach fn ctx && decide (5 ≤ cmd.toNat) then .next (s.last ctx 3) else .next s

/-! ### The storage table (R305) -/

/-- Is a header field reserved and not zero, or outside its range (R305)? -/
def headerBad (b : List Byte) : Bool :=
  let t (k : Nat) := field b (8 + 4 * k) 4
  bitsOf (field b 0 4) 31 3 != 0 || !zeroBytes b 0x30 16 ||
    if (field b 0 4).testBit 0 then
      outside (field b 4 4) 1 1000000 || (List.range 4).any (fun k => decide (2 ^ 24 ≤ t k))
        || !(decide (t 1 < t 0) && decide (t 2 < t 1) && decide (t 3 < t 2))
        || outside (field b 0x18 4) 1 65536 || decide (field b 0x18 4 < field b 0x1C 4) || field b 0x20 8 % 8 != 0
        || field b 0x28 8 % 32 != 0
    else !zeroBytes b 4 0x2C

/-- Microseconds to the next background sweep of a header; none when BG = 0. -/
def headerPeriod (b : List Byte) : Option Nat := if (field b 0 4).testBit 0 then some (field b 4 4) else none

/-- R305, R350: the storage table of a context is bound or unbound. -/
def execDusktb (fn ctx : Nat) (va : DWord) (s : State) : Result :=
  if !s.mayReach fn ctx then .next s
  else if !(s.ctx ctx).live then .next (s.last ctx 3)
  else if va == 0 then
    .next (s.onCtx ctx fun c => { c with last := 0, dusktb := 0, table := 0, header := [], bgAt := none, binds := c.binds + 1 })
  else
    s.fe do
      let (s1, r) ← s.feRead ctx (homeDie ctx) va.toNat 64
      match r with
      | .error _ => .ok (s1.last ctx 2)
      | .ok b =>
        if va.toNat % 256 != 0 || headerBad b then .ok (s1.last ctx 2)
        else
          .ok (s1.onCtx ctx fun c => { c with
            last := 0, dusktb := va, table := va, header := b, binds := c.binds + 1,
            bgAt := (headerPeriod b).map fun p => s1.ns + 1000 * p })

/-! ### Context reset (R276) -/

/-- The operations of a context that are queued or running in an engine. -/
def State.opsOf (s : State) (ctx : Nat) : List Nat :=
  (s.copies.filter (·.ctx == ctx)).map (·.op)
    ++ (s.carries.filter fun c => (s.team? c.team).elim false (·.ctx == ctx)).map (·.op)
    ++ (s.cores.flatMap fun c => c.matrix.flatMap fun m => (m.queue.filter (·.ctx == ctx)).map (·.op))
    ++ (s.sweeps.filter (·.ctx == ctx)).map (·.op)

/-- The casts of a context. -/
def State.castsOf (s : State) (ctx : Nat) : List Nat :=
  (s.casts.filter fun c => (s.grid? c.grid).elim false (·.ctx == ctx)).map (·.id)

/-- A core without the casts, operations, weights and locks of a context (R276). -/
def Core.without (k : Core) (ctx : Nat) (casts ops : List Nat) : Core :=
  { k with
    matrix := k.matrix.map fun m => if m.owner.elim false casts.contains then Matrix.reset else m
    weights := k.weights.map fun w => if w.state != .free && w.ctx == ctx then Weight.reset else w
    ranges := k.ranges.filter fun r => !(ops.contains r.op || casts.any fun c => r.space == .scratch c)
    locks := k.locks.filter (·.ctx != ctx) }

/-- An access of a killed team that has been checked is performed all the same: R276 drops unchecked ones alone. -/
def State.lastAccess (s : State) (t : Team) (e : Outst) : State :=
  if e.sent || !s.mapped t e then s
  else match e.instr with
  | .st o => performStore s t e o
  | .scatr o => if o.ext.fn == 1 then performAtomic s t e o 0 else performStore s t e o
  | .atomn o | .atom o => performAtomic s t e o o.ext.fn.toNat
  | .cas o => performAtomic s t e o 8
  | .hacc o => if e.peerTable then s.sendHacc t e o else (haccLanes t e o e.addrs s []).1
  | .tqpush o => completeTqpush s t e o
  | _ => s

/-- An entry put into a list in the order of issue. -/
def bySeq (e : Outst) : List Outst → List Outst
  | [] => [e]
  | x :: r => if e.seq < x.seq then e :: x :: r else x :: bySeq e r

/-- The checked accesses of a context's teams, in the order of their issue. -/
def State.lastAccesses (s : State) (ctx : Nat) : State :=
  (s.teams.filter (·.ctx == ctx)).foldl (fun (s : State) t =>
    ((t.unperformed.filter fun e => !e.failed).foldr bySeq []).foldl (fun (s : State) e => s.lastAccess t e) s) s

/-- Steps 1, 2, 3 and 5 of R276. -/
def State.wipe (s : State) (ctx : Nat) : State :=
  let casts := s.castsOf ctx
  let ops := s.opsOf ctx
  let asid := (s.ctx ctx).asid
  { s with
    teams := s.teams.filter (·.ctx != ctx)
    casts := s.casts.filter fun c => !casts.contains c.id
    grids := s.grids.filter (·.ctx != ctx)
    cores := s.cores.map (·.without ctx casts ops)
    locks2 := s.locks2.filter (·.2.ctx != ctx)
    copies := s.copies.filter (·.ctx != ctx)
    carries := s.carries.filter fun c => !ops.contains c.op
    landing := s.landing.map fun c => if c.stat == 0 && casts.contains c.cast then { c with stat := 2, data := [] } else c
    sweeps := s.sweeps.filter (·.ctx != ctx)
    queries := s.queries.filter (·.ctx != ctx)
    tlb := s.tlb.filter (·.asid != asid)
    tasks := s.tasks.filter (·.2.ctx != ctx)
    tokens := replaceIf s.tokens (·.ctx == ctx) fun t =>
      { t with launched := t.pushed, freed := t.pushed, timer := none, batches := [] }
    atsWaits := s.atsWaits.filter (·.ctx != ctx) }

end Sys2Proof.Machine
end

