-- ==== Sys2Proof/Machine/Dusk.lean ====
section
/-! DEFINITION. The Dusk engines (spec 14): page steps of sweeps, the block rule, summaries, free lists and the freed
ring, restores and background ageing (R304 to R319); and the reset of a context, which ends its page steps (R276). -/

namespace Sys2Proof.Machine

/-! ### The block rule and summaries (R311, R313) -/

/-- The magnitude of a finite value, in exact form. -/
def FVal.abs : FVal → FVal
  | .fin _ m e => .fin false m e
  | x => x

/-- The largest magnitude of a block. -/
def blockMax (xs : List FVal) : FVal := xs.foldl (fun a x => if a.cmp x.abs < 0 then x.abs else a) .zero

/-- The value of VS12 code `c` (E ≥ 1). -/
def vsValue (c : Nat) : FVal := .fin false (16 + c % 16) ((c / 16 : Nat) - 131)

/-- The least VS12 code S with amax ≤ Fmax · S (R311). R311 says that one exists for every finite amax; above the reach
of the largest scale that may be written (E = 254, R43) it states none, and the code is free (log 66). -/
def blockScale (f : Fmt) (amax : FVal) : Nat :=
  match amax, f.decode f.maxBits with
  | .fin _ m e, .fin _ fm fe =>
    let e0 : Int := ((m.log2 : Int) + e) - ((fm.log2 : Int) + fe) - 1 + 127
    let c0 := 16 * (max 1 e0).toNat
    (((List.range 48).map (c0 + ·)).find? fun c =>
      decide (c ≤ 0xFEF) && amax.cmp ((FVal.fin false fm fe).mul (vsValue c)).1 ≤ 0).getD (16 + Config.overScale m e % 0xFE0)
  | _, _ => 0

/-- Element x over S, rounded under SAT; −0 becomes +0 (R311). -/
def blockElem (f : Fmt) (s x : FVal) : Nat :=
  match x, s with
  | .fin neg m e, .fin _ sm se =>
    if m == 0 then 0
    else
      let (q, qe, st) := divide m e sm se
      let r := (f.round .sat 0 (.fin neg q qe) st).1
      if r == f.sign true then 0 else r
  | _, _ => 0

/-- A block rewritten: its scale code and its elements. -/
def rewriteBlock (f : Fmt) (xs : List FVal) : Nat × List Nat :=
  let amax := blockMax xs
  if amax.isZero then (0, xs.map fun _ => 0)
  else
    let c := blockScale f amax
    (c, xs.map (blockElem f (vsValue c)))

/-- The blocks of a row, 32 elements each. -/
def rewriteRow (f : Fmt) (dim : Nat) (row : List FVal) : List (Nat × List Nat) :=
  (List.range (dim / 32)).map fun j => rewriteBlock f ((row.drop (32 * j)).take 32)

/-- Bytes of a rewritten page: the rows of K and V, then their scales (R58). -/
def pageImage (f : Fmt) (dim : Nat) (ks vs : List (List (Nat × List Nat))) : List Byte :=
  let rows (rs : List (List (Nat × List Nat))) : List Byte := (List.range 64).flatMap fun t =>
    packStream f.width (match rs[t]? with
      | some r => r.flatMap (·.2)
      | none => List.replicate dim 0)
  let scales (rs : List (List (Nat × List Nat))) : List Byte := (List.range 64).flatMap fun t =>
    packStream 12 (match rs[t]? with
      | some r => r.map (·.1)
      | none => List.replicate (dim / 32) 0)
  rows ks ++ rows vs ++ scales ks ++ scales vs

/-- The decoded values of a rewritten row. -/
def rowValues (f : Fmt) (r : List (Nat × List Nat)) : List FVal :=
  r.flatMap fun (c, xs) => xs.map fun x => scaledElem f x (decodeVs12 (BitVec.ofNat 12 c)).1

/-- The lower (or the higher) of two finite values. -/
def FVal.pick (low : Bool) (a b : FVal) : FVal := if (decide (b.cmp a < 0)) == low && b.cmp a != 0 then b else a

/-- A bound of a summary: the extreme of a dimension rounded outward to BF16; zero gives +0 (R313). -/
def boundOf (low : Bool) (xs : List FVal) : Nat :=
  match xs with
  | [] => 0
  | x :: rest =>
    let v := rest.foldl (FVal.pick low) x
    if v.isZero then 0 else (Fmt.bf16.round (if low then .rdn else .rup) 0 v).1

/-- The exact summary of rewritten K rows (R313). -/
def exactSummary (f : Fmt) (dim : Nat) (ks : List (List (Nat × List Nat))) : List Byte :=
  let rows := ks.map (rowValues f)
  (List.range dim).flatMap fun d =>
    let col := rows.map fun r => r.getD d .zero
    leBytes 2 (boundOf true col) ++ leBytes 2 (boundOf false col)

/-- The union of an old and a new bound of a dimension (R313): a NaN is never replaced by a finite bound. -/
def unionBound (old new : Nat × Nat) : List Byte :=
  if bfNan old.1 || bfNan old.2 then leBytes 2 0x7FC0 ++ leBytes 2 0x7FC0
  else leBytes 2 (bfMin old.1 new.1) ++ leBytes 2 (bfMax old.2 new.2)

/-- The bounds of dimension `d` in a summary. -/
def boundsAt (sum : List Byte) (d : Nat) : Nat × Nat := (field sum (4 * d) 2, field sum (4 * d + 2) 2)

/-! ### Sweeps (R192, R304, R308) -/

/-- The oldest sweep of a context on a die. -/
def State.sweep? (s : State) (die ctx : Nat) : Option Sweep := s.sweeps.find? fun w => w.die == die && w.ctx == ctx

/-- A sweep changed. -/
def State.onSweep (s : State) (op : Nat) (f : Sweep → Sweep) : State :=
  { s with sweeps := replaceIf s.sweeps (·.op == op) f }

/-- Who a sweep is, for a fault (R270, R273). A background sweep has no core: site 0 of its die stands there. -/
def Sweep.engine (w : Sweep) : EngineId :=
  { key := w.op, ctx := w.ctx, core := w.core, world := w.world, cls := 3, op := if w.source == .kvres then 15 else 14,
    m := w.m, prog := if w.source == .kvres then 0 else w.pos }

/-- MSTAT bits of a sweep's matrix context; a background sweep sets none (R304). -/
def State.sweepMstat (s : State) (w : Sweep) (bits : Word) : State :=
  if w.source == .background then s else s.raiseMstat w.core w.m bits

/-- One added to a count of a sweep. -/
def countAt (k : Nat) (w : Sweep) : Sweep := { w with counts := setAt w.counts k (w.counts.getD k 0 + 1) 0 }

/-- The accesses of a Dusk engine to the ranges it reads and writes. -/
def duskRanges (die : Nat) (world : Bool) (rds wrs : List (Nat × Nat)) : List (Mode × Nat × Nat) :=
  rds.map (fun r => (duskMode die world true false, r.1, r.2)) ++ wrs.map fun r => (duskMode die world false true, r.1, r.2)

/-- Memory read and written by a sweep; a missing page suspends it (R319). -/
def State.duskAccess (s : State) (w : Sweep) (rds wrs : List (Nat × Nat))
    (k : State → List (Nat × Xlat) → Fe State) : Fe State :=
  let cx := s.ctx w.ctx
  let checks := duskRanges w.die w.world rds wrs
  match s.engChecks cx checks with
  | some (x, va, wr) =>
    .ok (s.engFail w.engine x va wr fun s => s.onSweep w.op fun w => { w with susp := some (granule va.toNat, va) })
  | none =>
    let outs := s.engOuts cx checks
    let s1 := s.engTouch cx checks
    if rds.any fun r => s1.vbad outs r.1 r.2 then .ok (s1.engBad w.ctx w.core) else k s1 outs

/-- The eight status words of R192. -/
def Sweep.statusBytes (w : Sweep) : List Byte := (List.range 8).flatMap fun k => leBytes 4 (w.counts.getD k 0)

/-- A sweep ends (R192, R315, R317): its status words, then Kc, or the time of the next background sweep. -/
def State.sweepEnd (s : State) (w : Sweep) : Fe State :=
  let s1 : State := { s with sweeps := s.sweeps.filter (·.op != w.op) }
  match w.source with
  | .kvres => .ok ((s1.releaseOp w.op).bump w.team w.kc)
  | .demote =>
    let s2 := s1.landScratch w.cast none w.status w.statusBytes
    .ok ((s2.releaseOp w.op).bump w.team w.kc)
  | .background => do
    let s2 ← s1.feWrite w.ctx w.die 4 0 w.status w.statusBytes
    .ok (s2.onCtx w.ctx fun c =>
      if c.binds == w.bind then { c with bgAt := (headerPeriod c.header).map fun p => s2.ns + 1000 * p } else c)

/-- The target level of a counter (R308). -/
def targetLevel (thr : List Nat) (c : Nat) : Nat :=
  ((List.range 4).find? fun k => decide (thr.getD k 0 ≤ c)).getD 4

/-- Is a step due for the page at the list position (R309)? A KVRES steps a page that stands in LPDDR6 (R315). -/
def Sweep.due (w : Sweep) (k : Kvpd) : Bool :=
  if w.source == .kvres then k.tier && !k.busy && !k.held
  else
    !(k.pin || k.held || k.busy) && decide (1 ≤ k.ntok) && decide (w.pos < w.np - w.nrec)
      && decide (k.fmt + k.tier.toNat < targetLevel w.thr k.mass)

/-! ### Free storage (R306) -/

/-- A list record that counts: reserved fields zero, CAPL in range. -/
def listValid (r : List Byte) : Bool :=
  let ctl := field r 0x10 4
  ctl / 32 == 0 && zeroBytes r 0x14 12 && !outside (ctl % 32) 4 20

/-- Address of entry e of a list. A RING that is not a multiple of 256 is used as it stands: R306 gives it no outcome
(DESIGN CHOICE, log 86). -/
def listEntry (r : List Byte) (e : Nat) : Nat := (field r 0 8 + 8 * (e % 2 ^ (field r 0x10 4 % 32))) % 2 ^ 64

/-- The storage of free list j of a sweep's table (R306): `k` with none where it is empty. -/
def State.takeFree (s : State) (w : Sweep) (j : Nat) (k : State → Option Nat → Fe State) : Fe State :=
  if w.table == 0 then k s none
  else
    let at0 := w.table.toNat + 0x40 + 32 * j
    s.duskAccess w [(at0, 32)] [(at0 + 0xC, 4)] fun s outs =>
      let r := s.vread outs at0 32
      let cons := field r 0xC 4
      if !listValid r || field r 8 4 == cons then k s none
      else
        let ea := listEntry r cons
        s.duskAccess w [(ea, 8)] [] fun s outs2 =>
          let e := bitsOf (leNat (s.vread outs2 ea 8)) 51 8 * 256
          k ((s.vwrite outs (at0 + 0xC) (leBytes 4 ((cons + 1) % 2 ^ 32))).remoteStores w.op w.ctx w.world
            (peerPieces outs (at0 + 0xC) (leBytes 4 ((cons + 1) % 2 ^ 32)))) (some e)

/-! ### A page step (R309, R310, R312) -/

/-- Word 0 with another state: storage, format, tier, HELD and BUSY; PIN, SINK and VALID stay. -/
def word0 (w : Nat) (sva fmt : Nat) (tier held busy : Bool) : Nat :=
  w / 2 ^ 52 * 2 ^ 52 + sva / 256 * 256 + fmt * 64 + tier.toNat * 32 + bitsOf w 4 4 * 16 + held.toNat * 8
    + bitsOf w 2 2 * 4 + busy.toNat * 2 + w % 2

/-- BUSY of word 0 set or cleared. -/
def withBusy (w : Nat) (b : Bool) : Nat := w - bitsOf w 1 1 * 2 + b.toNat * 2

/-- Word 1 with MASS halved. -/
def halved (w : Nat) : Nat := w / 2 ^ 40 / 2 * 2 ^ 40 + w % 2 ^ 40

/-- Word 1 with GEN advanced. -/
def nextGen (w : Nat) : Nat := w / 2 ^ 40 * 2 ^ 40 + (w / 2 ^ 32 + 1) % 256 * 2 ^ 32 + w % 2 ^ 32

/-- The page step at a sweep's position changed. -/
def State.onStep (s : State) (w : Sweep) (x : DuskStep) : State := s.onSweep w.op fun w => { w with step := some x }

/-- The step at a page has ended, or the page is not stepped: MASS is halved next, or a KVRES is done (R309, R315). An
entry of a free list that the step has kept over a fault (R319) and does not use is lost (DESIGN CHOICE, log 87). -/
def State.stepEnd (s : State) (w : Sweep) (x : DuskStep) : State :=
  s.onStep w { x with phase := .halve, taken := none, sum := [], done := 0, outs := [] }

/-- A count of R192; a KVRES keeps none (R315). -/
def State.countPage (s : State) (w : Sweep) (k : Nat) : State :=
  if w.source == .kvres then s else s.onSweep w.op (countAt k)

/-- Storage goes to the freed ring once it has room, and after its grace where it has one (R307, R314). -/
def State.handBack (s : State) (w : Sweep) (sva dim fmt : Nat) (tier grace : Bool) : State :=
  let e : HandBack :=
    { die := w.die, ctx := w.ctx, entry := BitVec.ofNat 64 (sva + dim * 8 + tier.toNat * 4 + fmt), grace := grace,
      table := w.table, world := w.world, susp := none, told := false }
  { s with handbacks := s.handbacks ++ [e] }

/-- What a step has formed for its page: bytes, summary (none where it stands), MSTAT bits; none for a page that holds
a NaN or an infinity. -/
def State.rewritten (s : State) (outs : List (Nat × Xlat)) (k : Kvpd) (new : Nat) (copy : Bool) :
    Option (List Byte × List Byte) × Word :=
  let dim := headDim k.dim
  if copy then (some (s.vread outs k.sva (kvPageBytes k.fmt dim), []), 0)
  else
    let f := kvFmt new
    let rows (v : Bool) := (List.range k.ntok).map fun t => s.kvRow outs k dim t v
    let kr := rows false
    let vr := rows true
    let desc := mstatBit 2 ((kr ++ vr).any (·.2))
    if (kr ++ vr).any fun r => r.1.any fun x => x.isNan || x.isInf then (none, desc)
    else
      let ks := kr.map fun r => rewriteRow f dim r.1
      let vs := vr.map fun r => rewriteRow f dim r.1
      (some (pageImage f dim ks vs, exactSummary f dim ks), desc)

/-- The CAS of R310 on word 0: BUSY set, or word 0 read afresh for a second try when the page is still due. -/
def State.stepSwap (s : State) (w : Sweep) (x : DuskStep) (again : Bool) : Fe State :=
  s.duskAccess w [(x.va, 16)] [(x.va, 16)] fun s outs =>
    let ws := dwordsOf (s.vread outs x.va 16)
    let w0 := ws.getD 0 0
    if w0 == x.w0 then
      .ok ((s.engWrites w.engine outs [(x.va, leBytes 8 (withBusy w0.toNat true))]).onStep w { x with phase := .body })
    else if again || !w.due (Kvpd.ofWords ws) then .ok (s.stepEnd w x)
    else .ok (s.onStep w { x with w0 := w0, phase := .swapAgain })

/-- The rewrite of a page that is BUSY (R310, R312, R315), from the read of NTOK to the bytes in the new storage. -/
def State.stepBody (s : State) (w : Sweep) (x : DuskStep) : Fe State :=
  let restore := w.source == .kvres
  s.duskAccess w [(x.va, 32)] [(x.va, 16)] fun s outs =>
    let ws := dwordsOf (s.vread outs x.va 32)
    let p := Kvpd.ofWords ws
    let w0 := (ws.getD 0 0).toNat
    let new := if restore then 3 else p.fmt + p.tier.toNat + 1
    let copy := restore || new == 4
    let dim := headDim p.dim
    let rds := if copy then [(p.sva, kvPageBytes p.fmt dim)] else kvReads p dim (List.range p.ntok)
    s.duskAccess w rds [] fun s ro =>
      let (img, bits) := s.rewritten ro p new copy
      let s := s.sweepMstat w bits
      match img with
      | none =>
        let s1 := s.engWrites w.engine outs [(x.va, leBytes 8 (word0 w0 p.sva p.fmt p.tier true false))]
        .ok (((s1.countPage w 3).sweepMstat w (mstatBit 8 true)).stepEnd w x)
      | some (page, sum) =>
        let go (s : State) (store : Option Nat) : Fe State :=
          match store with
          | none =>
            let s1 := s.engWrites w.engine outs [(x.va, leBytes 8 (withBusy w0 false))]
            .ok (((s1.countPage w 4).sweepMstat w (mstatBit 7 true)).stepEnd w x)
          | some sva =>
            let x' := { x with taken := some sva }
            let sums := if sum.isEmpty then [] else [(p.sumva, sum.length)]
            (s.onStep w x').duskAccess w sums ((sva, page.length) :: sums) fun s wo =>
              .ok ((s.engWrites w.engine (outs ++ wo) [(sva, page)]).onStep w { x' with
                phase := if sum.isEmpty then .commit else .union, ntok := p.ntok, dim := p.dim, level := new,
                sumva := p.sumva, sum := sum, done := 0, outs := outs ++ wo })
        match x.taken with
        | some sva => go s (some sva)
        | none => s.takeFree w (3 * (if restore then 2 else new - 1) + p.dim) go

/-- Some dimensions of a summary written, each in one step, as many as the draw says; `next` follows the last (R313). -/
def State.writeSummary (s : State) (w : Sweep) (x : DuskStep) (bound : Nat → List Byte) (next : State → DuskStep →
    State) :
    State :=
  let left := x.sum.length / 4 - x.done
  let draw := Config.summaryPart s.freeCtr
  let n := if draw == 0 then left else min draw left
  let ws := (List.range n).map fun k => (x.sumva + 4 * (x.done + k), bound (x.done + k))
  let s1 := s.engWrites w.engine x.outs ws
  if n == left then next s1 { x with done := 0 } else s1.onStep w { x with done := x.done + n }

/-- The step is done: its count, and the hand-back of the old storage (R310, R314). -/
def State.stepDone (s : State) (w : Sweep) (x : DuskStep) : State :=
  let p := Kvpd.ofWords [x.w0]
  ((s.countPage w (if x.level == 4 then 2 else 1)).handBack w p.sva x.dim p.fmt p.tier true).stepEnd w x

/-- The rest of a step whose page is written (R310, R313): the union summary; the commit, which an append in between
makes fail; the swap of word 0; the exact summary. It uses the translations that the step holds. -/
def State.heldStep (s : State) (w : Sweep) (x : DuskStep) : State :=
  let sva := x.taken.getD 0
  let fmt := if x.level == 4 then 3 else x.level
  let word (k : Nat) : Nat := leNat (s.vread x.outs (x.va + 8 * k) 8)
  let put (ws : List (Nat × List Byte)) : State := s.engWrites w.engine x.outs ws
  match x.phase with
  | .union =>
    let old := s.vread x.outs x.sumva x.sum.length
    s.writeSummary w x (fun d => unionBound (boundsAt old d) (boundsAt x.sum d)) fun s x =>
      s.onStep w { x with phase := .commit }
  | .commit =>
    if bitsOf (word 1) 31 25 == x.ntok then
      (put [(x.va + 8, leBytes 8 (nextGen (word 1)))]).onStep w { x with phase := .renew }
    else
      ((put [(x.va, leBytes 8 (withBusy (word 0) false))]).handBack w sva x.dim fmt (x.level == 4) false).stepEnd w x
  | .renew =>
    let s1 := put [(x.va, leBytes 8 (word0 (word 0) sva fmt (x.level == 4) ((word 0).testBit 3) false))]
    if x.sum.isEmpty then s1.stepDone w x else s1.onStep w { x with phase := .exact }
  | .exact => s.writeSummary w x (fun d => (x.sum.drop (4 * d)).take 4) fun s x => s.stepDone w x
  | _ => s

/-- The next list position of a sweep. -/
def State.nextPage (s : State) (w : Sweep) : State := s.onSweep w.op fun w => { w with pos := w.pos + 1, step := none }

/-- A page is visited: the step that R309 gives it is the next thing done. -/
def State.visit (s : State) (w : Sweep) (a : Nat) (ws : List DWord) : State :=
  (s.countPage w 0).onStep w
    { va := a, w0 := ws.getD 0 0, phase := if w.due (Kvpd.ofWords ws) then .swap else .halve, taken := none, ntok := 0,
      dim := 0, level := 0, sumva := 0, sum := [], done := 0, outs := [] }

/-- R309, R315: Dusk looks at the page at a sweep's list position. -/
def State.lookPage (s : State) (w : Sweep) : Fe State :=
  if w.source == .kvres then
    s.duskAccess w [(w.listva, 16)] [] fun s outs =>
      let ws := dwordsOf (s.vread outs w.listva 16)
      if w.due (Kvpd.ofWords ws) then s.duskAccess w [] [(w.listva, 16)] fun s _ => .ok (s.visit w w.listva ws)
      else .ok (s.visit w w.listva ws)
  else
    let la := w.listva + 8 * w.pos
    s.duskAccess w [(la, 8)] [] fun s lo =>
      let a := leNat (s.vread lo la 8)
      if a % 32 != 0 then .ok ((s.countPage w 5).nextPage w)
      else
        s.duskAccess w [(a, 16)] [] fun s outs =>
          let ws := dwordsOf (s.vread outs a 16)
          if (kvrOf (Kvpd.ofWords ws) none).isSome then .ok ((s.countPage w 5).nextPage w)
          else s.duskAccess w [] [(a, 16)] fun s _ => .ok (s.visit w a ws)

/-- R309: MASS of a visited page is halved; a KVRES halves none (R315). -/
def State.halvePage (s : State) (w : Sweep) (x : DuskStep) : Fe State :=
  if w.source == .kvres then .ok (s.nextPage w)
  else
    s.duskAccess w [(x.va + 8, 8)] [(x.va + 8, 8)] fun s outs =>
      .ok ((s.engWrites w.engine outs [(x.va + 8, leBytes 8 (halved (leNat (s.vread outs (x.va + 8) 8))))]).nextPage w)

/-- R309, R310: what a sweep does next. -/
def State.pageStep (s : State) (w : Sweep) : Fe State :=
  match w.step with
  | none => if w.np ≤ w.pos then (if s.unanswered w.op then .ok s else s.sweepEnd w) else s.lookPage w
  | some x =>
    match x.phase with
    | .swap => s.stepSwap w x false
    | .swapAgain => s.stepSwap w x true
    | .body => s.stepBody w x
    | .halve => s.halvePage w x
    | .union | .commit | .renew | .exact => .ok (s.heldStep w x)

/-! ### The rotation of a Dusk engine (R304) -/

/-- Is a step past the last translation that it needs? -/
def Sweep.held (w : Sweep) : Bool := w.step.elim false fun x => !x.outs.isEmpty

/-- May Dusk work on a sweep? One that is suspended, or waits for a host's answer or for acknowledgements, is passed
over, as is one that uses a later binding of its context's storage table than a queued sweep (R350); while a world region
table waits, a step goes on only with the translations it holds (R364). A checkpoint stops the engine at the end of its
page step (R178, R341). -/
def State.sweepRuns (s : State) (w : Sweep) : Bool :=
  w.susp.isNone && (s.ctx w.ctx).state != .resetting && (w.held || !s.switching)
    && (!s.frozen || (s.ck == some .checkpoint && w.step.isSome))
    && !(s.atsWaits.any fun x => x.key == w.op && !x.refused)
    && !(s.sweeps.any fun x => x.ctx == w.ctx && decide (x.bind < w.bind))
    && !(w.step.isNone && decide (w.np ≤ w.pos) && s.unanswered w.op)

/-- May the oldest sweep of a context run? -/
def State.duskReady (s : State) (die ctx : Nat) : Bool := (s.sweep? die ctx).elim false s.sweepRuns

/-- The place of a context in the rotation after the context served last. -/
def rotationPlace (last ctx : Nat) : Nat := (ctx + 1023 - last) % 1024

/-- The context that the Dusk engine of a die serves (R304): the one it served last while that page step lasts, else the
next by ascending number that has a sweep to run. In Isolated mode the slots say which domain has the turn, which the
model leaves free (log 4), and the rotation is that of the domain's contexts. -/
def State.duskTurn (s : State) (die ctx : Nat) : Bool :=
  let served := s.dusk.getD die []
  let rival (c : Nat) : Bool := !s.regs.isolated || (s.ctx c).domain == (s.ctx ctx).domain
  let last := (served.find? rival).getD 1023
  match served.find? fun c => c == served.headD 1023 && (s.sweep? die c).elim false fun w => w.step.isSome && s.sweepRuns w with
  | some c => ctx == c
  | none => !s.sweeps.any fun w =>
    w.die == die && rival w.ctx && s.duskReady die w.ctx && decide (rotationPlace last w.ctx < rotationPlace last ctx)

/-- Has a sweep handled its last page? Its end is no page step and takes no turn (R304). -/
def Sweep.ending (w : Sweep) : Bool := w.step.isNone && decide (w.np ≤ w.pos)

/-- The Dusk engine of a die has served a context. -/
def State.duskServed (s : State) (die ctx : Nat) : State :=
  { s with dusk := setAt s.dusk die (ctx :: (s.dusk.getD die []).filter (· != ctx)) [] }

/-- Dusk works on the oldest sweep of a context when the turn is that context's, if the sweep is one that `can` names. -/
def duskStep (s : State) (die ctx : Nat) (can : Sweep → Bool) : Result :=
  match s.sweep? die ctx with
  | none => .next s
  | some w =>
    if !can w || !s.duskReady die ctx || !(w.ending || s.duskTurn die ctx) then .next s
    else
      let s1 := if w.ending then s else s.duskServed die ctx
      match w.step with
      | some x => if w.held then .next (s1.heldStep w x) else s1.fe (s1.pageStep w)
      | none => s1.fe (s1.pageStep w)

/-- R309, R310: a page step of the oldest sweep of a context goes on. -/
def execDuskPageStep (die ctx : Nat) (s : State) : Result := duskStep s die ctx fun w => w.source != .kvres

/-- R315: a page copied back to HBM4E, or left as it is. -/
def execKvresRestore (die ctx : Nat) (s : State) : Result := duskStep s die ctx fun w => w.source == .kvres

/-! ### Hand-backs (R307, R314) -/

/-- Do four words name the storage? -/
def names (sva : Nat) (ws : List DWord) : Bool := !ws.isEmpty && (Kvpd.ofWords ws).sva == sva

/-- Does a command or a sweep of the address space still hold a snapshot that names the storage (R314)? -/
def State.graceHeld (s : State) (asid : BitVec 16) (sva : Nat) : Bool :=
  (s.cores.any fun c => c.matrix.any fun m => m.queue.any fun k =>
      (s.ctx k.ctx).asid == asid && (match k.instr with | .attn _ | .kvres _ => true | _ => false)
        && k.snaps.any fun x => names sva x.2)
    || s.sweeps.any fun w => (s.ctx w.ctx).asid == asid
        && (names sva w.snap || (w.step.elim false fun x => names sva [x.w0]))

/-- The kind 5 record of a hand-back that waits on a missing page (R270). -/
def State.ringMissing (s : State) (h : HandBack) (va : DWord) : State := s.queueFault h.ctx h.die 7 0 true 0x09 va

/-- Memory of the freed ring read and written by hand-back j (R307). -/
def State.ringAccess (s : State) (j : Nat) (h : HandBack) (rds wrs : List (Nat × Nat))
    (k : State → List (Nat × Xlat) → State) : State :=
  let cx := s.ctx h.ctx
  let checks := duskRanges h.die h.world rds wrs
  match s.engChecks cx checks with
  | some (x, va, _) =>
    match x with
    | .missing =>
      { s.ringMissing h va with
        handbacks := s.handbacks.set j { h with susp := some (granule va.toNat, va), told := true } }
    | .denied | .world => s.contextFault h.ctx h.die 8 x.trap.code va
    | .walkError => s.contextFault h.ctx (unitDie cx.asid (granule va.toNat)) 4 0 0
    | .awaitAts p =>
      if s.feRefused h.ctx p then
        ({ s with atsWaits := s.atsWaits.filter fun w => !(w.key == 0 && w.ctx == h.ctx && w.page == p) } : State).contextFault
          h.ctx h.die 8 TrapCode.protection.code va
      else
        let w : AtsWait := { key := 0, ctx := h.ctx, die := h.die, page := p, va := va, refused := false }
        if s.atsWaits.contains w then s else { s with atsWaits := s.atsWaits ++ [w] }
    | _ => s
  | none =>
    let outs := s.engOuts cx checks
    let s1 := s.engTouch cx checks
    if rds.any fun r => s1.vbad outs r.1 r.2 then s1.contextFault h.ctx h.die 3 0 0 else k s1 outs

/-- R307, R314: hand-back j writes its entry and advances PROD, once its grace is over and the ring has room. -/
def execHandBack (j : Nat) (s : State) : Result :=
  match s.handbacks[j]? with
  | none => .next s
  | some h =>
    let c := s.ctx h.ctx
    if h.susp.isSome || c.state == .free || s.frozen || s.switching || (h.grace &&
        s.graceHeld c.asid (bitsOf h.entry.toNat 51 8 * 256)) then
      .next s
    else
      let at0 := h.table.toNat + 0x1C0
      .next (s.ringAccess j h [(at0, 32)] [(at0 + 8, 4)] fun s outs =>
        let r := s.vread outs at0 32
        let prod := field r 8 4
        if !listValid r || (prod + 2 ^ 32 - field r 0xC 4) % 2 ^ 32 == 2 ^ (field r 0x10 4 % 32) then s
        else
          let ea := listEntry r prod
          s.ringAccess j h [] [(ea, 8)] fun s o2 =>
            let ws := [(ea, leBytes 8 h.entry.toNat), (at0 + 8, leBytes 4 ((prod + 1) % 2 ^ 32))]
            let s1 := ws.foldl (fun (s : State) x => s.vwrite (outs ++ o2) x.1 x.2) s
            { s1.remoteStores 0 h.ctx h.world (ws.flatMap fun x => peerPieces (outs ++ o2) x.1 x.2) with
              handbacks := s.handbacks.eraseIdx j })

/-! ### Background ageing (R317) -/

/-- R317: the timer of background ageing expires; a sweep of the header's list queues in BGDIE's Dusk. -/
def execBackgroundSweep (ctx : Nat) (s : State) : Result :=
  let c := s.ctx ctx
  let die := bitsOf (field c.header 0 4) 2 1
  if !c.live || s.frozen || s.switching || !(c.bgAt.elim false fun x => decide (x ≤ s.ns))
      || decide (Config.duskQueue ≤ (s.sweeps.filter (·.die == die)).length) then .next s
  else
    let (op, s1) := s.fresh
    let w : Sweep :=
      { op := op, die := die, ctx := ctx, source := .background, world := c.world, team := 0, core := 48 * die, m := 0,
        cast := 0, kc := none, np := field c.header 0x18 4, nrec := field c.header 0x1C 4,
        thr := (List.range 4).map fun k => field c.header (8 + 4 * k) 4, listva := field c.header 0x20 8,
        status := field c.header 0x28 8, table := c.table, bind := c.binds, pos := 0, counts := [0, 0, 0, 0, 0, 0], step := none,
            snap := [],
        susp := none }
    .next ({ s1 with sweeps := s1.sweeps ++ [w] }.onCtx ctx fun c => { c with bgAt := none })

/-! ### Context reset (R276) -/

/-- A page step in progress runs to its end before its sweep is discarded (R319); one that a missing page suspends cannot,
and one that waits for the host's answer goes no further yet. The number bounds its parts. -/
def State.finishStep (op : Nat) : Nat → State → State
  | 0, s => s
  | n + 1, s =>
    match s.sweeps.find? (·.op == op) with
    | none => s
    | some w =>
      match w.step with
      | none => s
      | some _ =>
        if w.susp.isSome || s.atsWaits.any (fun x => x.key == w.op && !x.refused) then s
        else match s.pageStep w with
          | .ok s' => State.finishStep op n s'
          | .error _ => s

/-- Does a page step of a context wait for the host's answer alone? It has not ended yet (R319). -/
def State.stepsWait (s : State) (ctx : Nat) : Bool :=
  s.sweeps.any fun w => w.ctx == ctx && w.step.isSome && w.susp.isNone
    && s.atsWaits.any fun x => x.key == w.op && !x.refused

/-- The page steps in progress of a context run to their ends. -/
def State.finishSteps (s : State) (ctx : Nat) : State :=
  ((s.sweeps.filter fun w => w.ctx == ctx && w.step.isSome).map (·.op)).foldl
    (fun (s : State) op => State.finishStep op 2048 s) s

/-- A context reset alone, with the L2 lines of its ASID (step 4); its completion interrupt (R276). -/
def State.resetContext (s : State) (ctx : Nat) : State :=
  let asid := (s.ctx ctx).asid
  let s0 := (s.lastAccesses ctx).wipe ctx
  let s1 := s0.dropDies (List.range 4) (·.asid == asid)
  (s1.onCtx ctx fun c => { c with
    state := .reset, bgAt := none, queues := c.queues.map fun q => { q with items := [],
                                                                            stopped := false } }).contextIrq ctx

/-- R276: a faulted context is reset, once its page steps in progress have run to their ends (R319). -/
def execContextReset (ctx : Nat) (s : State) : Result :=
  if (s.ctx ctx).state != .resetting || s.frozen then .next s
  else
    let s1 := s.finishSteps ctx
    .next (if s1.stepsWait ctx then s1 else s1.resetContext ctx)

end Sys2Proof.Machine
end

