-- ==== Sys2Proof/Machine/Expand.lean ====
section
/-! DEFINITION. Class 1: the expand unit (spec 06, R136 to R138, R140). -/

namespace Sys2Proof.Machine

/-- The (start, length) pairs EXSET forms: those of the active lanes, (0, 0) elsewhere (R136). -/
def exPairs (t : Team) (o : F1) : List (Word × Word) :=
  (List.range t.n).map fun l => if t.act.getLsbD l then (t.word false l o.a, t.word false l o.b) else (0, 0)

/-- The sum of the lengths of positions below l (R136). -/
def exBase (ps : List (Word × Word)) (l : Nat) : Nat := (ps.take l).foldl (fun acc p => acc + p.2.toNat) 0

/-- R136: EXPAND_STATE when the state is armed or the total does not fit. -/
def execExset (o : F1) (s : State) : Result :=
  issue (.exset o) s noTrap
    (fun _ t _ =>
      if t.expand.armed || decide (0xFFFFFFFF < exBase (exPairs t o) t.n) then some { code := .expandState } else none)
    fun s t c =>
      let ps := exPairs t o
      let t' := t.put o.d false (exBase ps)
      s.done { t' with expand := { armed := true, total := BitVec.ofNat 32 (exBase ps t.n), cursor := 0, pairs := ps,
                                   owners := [] } } c

/-- The lane position that owns flattened iteration f, with its base offset (R137). -/
def exOwner : List (Word × Word) → Nat → Nat → Nat → Option (Nat × Nat)
  | [], _, _, _ => none
  | p :: ps, i, base, f =>
    if base ≤ f && f < base + p.2.toNat then some (i, base) else exOwner ps (i + 1) (base + p.2.toNat) f

/-- The iteration EXDEAL gives lane l: its owner, its base offset and its number; none when it gets none (R137). -/
def exDealt (t : Team) (give l : Nat) : Option (Nat × Nat × Nat) :=
  if t.act.getLsbD l && t.rank l < give then
    let f := t.expand.cursor.toNat + t.rank l
    (exOwner t.expand.pairs 0 0 f).map fun (o, b) => (o, b, f)
  else none

/-- R137. A position without an owner, and a cursor above the total, which only a restored block can bring (R213), deal
nothing; the cursor moves by the count all the same (DEDUCED, log 68). -/
def execExdeal (o : F1) (s : State) : Result :=
  let x := o.ext .n32
  issue (.exdeal o) s noTrap (fun _ t _ => if t.expand.armed then none else some { code := .expandState })
    fun s t c =>
      let give := min t.lanes.length (t.expand.total.toNat - t.expand.cursor.toNat)
      let dealt := maskOf t.n fun l => (exDealt t give l).isSome
      let t' := t.putIn dealt o.d false fun l =>
        match exDealt t give l with
        | some (ow, b, f) =>
          if x.fn == 1 then f - b else ((t.expand.pairs.getD ow (0, 0)).1.toNat + f - b) % 2 ^ 32
        | none => 0
      let t' := t'.writeP 6 t.act dealt
      s.done { t' with expand := { t.expand with
        cursor := t.expand.cursor + BitVec.ofNat 32 give
        owners := (List.range t.n).map fun l =>
          match exDealt t give l with
          | some (ow, _, _) => BitVec.ofNat 32 ow
          | none => 0xFFFFFFFF } } c

/-- R138. -/
def execExclr (o : F1) (s : State) : Result := issueF1 (.exclr o) s fun t => { t with expand := Expand.reset }

end Sys2Proof.Machine
end

