-- ==== Sys2Proof/Machine/Search.lean ====
section
/-! DEFINITION. The Astrolabe engines (spec 15): rounds, distances and completion of a query, graphs and search shares
(R320 to R333). -/

namespace Sys2Proof.Machine

/-! ### Distances (R327) -/

/-- Place of a distance on the number line; no distance is a NaN or −0. -/
def distKey (w : Word) : Int := if w.getLsbD 31 then -((w.setWidth 31).toNat : Int) else w.toNat

/-- The order of pairs (dist, id). -/
def pairLt (a b : Word × Word) : Bool :=
  decide (distKey a.1 < distKey b.1) || (distKey a.1 == distKey b.1 && decide (a.2.toNat < b.2.toNat))

/-- Element d of a vector in the format EFMT. -/
def vecElem (efmt : Nat) (bs : List Byte) (d : Nat) : FVal :=
  match efmt with
  | 0 => Fmt.bf16.decode (field bs (2 * d) 2)
  | 1 => Fmt.e4m3.decode (field bs d 1)
  | _ => FVal.ofInt (BitVec.ofNat 8 (field bs d 1)).toInt

/-- Number of elements of a graph's vectors. -/
def graphDim (rec : List Byte) : Nat := 8 * (bitsOf (field rec 0 4) 23 16 + 1)

/-- The exact value of (q − x)². -/
def squareDiff (q x : FVal) : FVal :=
  let d := (exactSum [q, x.neg]).1
  (d.mul d).1

/-- The distance of two vectors, and whether some element is a NaN or infinite. -/
def distanceOf (ip : Bool) (qs xs : List FVal) : Word × Bool :=
  if (qs ++ xs).any fun x => x.isNan || x.isInf then (0x7F800000, true)
  else
    let terms := (qs.zip xs).map fun (q, x) => if ip then (q.mul x).1.neg else squareDiff q x
    let w := BitVec.ofNat 32 (Fmt.f32.round .rne 0 (exactSum terms).1).1
    (if w == 0x80000000 then 0 else w, false)

/-! ### Rounds (R328) -/

/-- A query by its key, when its context may move. -/
def State.query? (s : State) (q : Nat) : Option Query :=
  (s.queries.find? (·.id == q)).bind fun x => if s.going x.ctx && !s.frozen then some x else none

/-- A query changed. -/
def State.onQuery (s : State) (q : Nat) (f : Query → Query)
    : State := { s with queries := replaceIf s.queries (·.id == q) f }

/-- K, EF, MET, RLIM, NENT of a packet. -/
def Query.k (q : Query) : Nat := bitsOf (field q.packet 0 4) 14 8
def Query.ef (q : Query) : Nat := bitsOf (field q.packet 0 4) 23 15
def Query.ip (q : Query) : Bool := (field q.packet 0 4).testBit 25
def Query.rlim (q : Query) : Nat := bitsOf (field q.packet 4 4) 19 0

/-- Expand(list): the vertices new to the query wait for their distances. -/
def Query.expand (nv : Nat) : List Nat → Query → Query
  | [], q => q
  | v :: rest, q =>
    if nv ≤ v then Query.expand nv rest { q with badrec := true }
    else
      let w := BitVec.ofNat 32 v
      if q.vis.contains w then Query.expand nv rest q
      else if Config.visitedMax ≤ q.vis.length then { q with full := true }
      else Query.expand nv rest { q with vis := q.vis ++ [w], fresh := q.fresh ++ [(w, none)] }

/-- A pair put into an ordered list. -/
def insertPair (p : Word × Word) : List (Word × Word) → List (Word × Word)
  | [] => [p]
  | x :: rest => if pairLt p x then p :: x :: rest else x :: insertPair p rest

/-- The pairs of the distances that have arrived, in order. -/
def sortedPairs (fresh : List (Word × Option Word)) : List (Word × Word) :=
  fresh.foldl (fun acc x => match x.2 with
    | some d => insertPair (d, x.1) acc
    | none => acc) []

/-- One pair offered to the result list and the heap. -/
def Query.offer (q : Query) (p : Word × Word) : Query :=
  if q.res.length < q.ef || q.res.getLast?.elim true (pairLt p) then
    let r := insertPair p q.res
    { q with res := if q.ef < r.length then r.dropLast else r, cand := insertPair p q.cand }
  else q

/-- The merge at the end of Expand. -/
def Query.merge (q : Query) : Query := { (sortedPairs q.fresh).foldl Query.offer q with fresh := [] }

/-- A stopped query. -/
def Query.stop (q : Query) (n : Nat) : Query := { q with status := some n }

/-- Physical address of the record of a vertex, with its home stack (R323). -/
def recordAt (rec : List Byte) (v : Nat) : Nat × Nat :=
  let st := (homeOf rec v).getD 0
  let (f, _, b) := graphHome rec st
  (st, b + (v - f) * graphRs rec)

/-- The neighbours a record lists, and whether its degree word is bad (R323). -/
def State.neighbours (s : State) (rec : List Byte) (pa : Nat) : List Nat × Bool :=
  let vb := graphVb rec
  let d := s.phys (pa + vb) 4
  if 128 ≤ d || graphDeg rec < d then ([], true)
  else ((List.range d).map fun j => s.phys (pa + vb + 4 + 4 * j) 4, false)

/-- One pass of the loop after a merge. -/
def State.popNext (s : State) (rec : List Byte) (q : Query) : State :=
  let put (q : Query) : State := s.onQuery q.id fun _ => q
  if q.full then put (q.stop 2)
  else match q.cand with
  | [] => put (q.stop 0)
  | p :: rest =>
    if q.rlim != 0 && q.rounds == q.rlim then put (q.stop 1)
    else
      let q1 := { q with cand := rest }
      if q.res.length == q.ef && q.res.getLast?.elim false (fun w => pairLt w p) then put (q1.stop 0)
      else
        let (st, pa) := recordAt rec p.2.toNat
        let (ns, bad) := s.neighbours rec pa
        if s.physBad (pa + graphVb rec) (4 + 4 * ns.length) then s.contextFault q.ctx (st / 2) 3 0 0
        else
          let q2 := ({ q1 with badrec := q1.badrec || bad } : Query).expand (graphNv rec) ns
          put { q2 with rounds := q2.rounds + 1 }

/-- R328: a query expands its entries, or merges the distances of a round and pops its next candidate. -/
def execQueryRound (q : Nat) (s : State) : Result :=
  match s.query? q with
  | none => .next s
  | some x =>
    match s.graph? (field x.packet 0 1) with
    | none => .next s
    | some g =>
      if x.status.isSome || x.fresh.any (·.2.isNone) then .next s
      else if x.vis.isEmpty then .next (s.onQuery q fun x => x.expand (graphNv g.record) (packetEntries x.packet))
      else .next (s.popNext g.record x.merge)

/-- R327, R330: the home stack of a vertex returns its distance. -/
def execVertexDistance (q : Nat) (v : Word) (s : State) : Result :=
  match s.query? q with
  | none => .next s
  | some x =>
    match s.graph? (field x.packet 0 1) with
    | none => .next s
    | some g =>
      if !x.fresh.any fun f => f.1 == v && f.2.isNone then .next s
      else
        let (st, pa) := recordAt g.record v.toNat
        let vb := graphVb g.record
        if s.physBad pa vb then .next (s.contextFault x.ctx (st / 2) 3 0 0)
        else
          let vec (bs : List Byte) := (List.range (graphDim g.record)).map (vecElem (graphEfmt g.record) bs)
          let (d, nan) := distanceOf x.ip (vec (x.packet.drop 0x40)) (vec (s.physRead pa vb))
          .next (s.onQuery q fun x => { x with
            nandist := x.nandist || nan
            fresh := replaceIf x.fresh (fun f => f.1 == v && f.2.isNone) fun f => (f.1, some d) })

/-! ### Completion (R331, R332) -/

/-- The counter a packet names. -/
def packetCounter (p : List Byte) : Option (BitVec 4) :=
  let k := field p 0x30 1
  if k / 16 == 0xD then some (BitVec.ofNat 4 k) else none

/-- The result area: K entries. -/
def Query.area (q : Query) : List Byte := (List.range q.k).flatMap fun j =>
  match q.res[j]? with
  | some (d, v) => leBytes 4 v.toNat ++ leBytes 4 d.toNat
  | none => leBytes 4 0xFFFFFFFF ++ leBytes 4 0x7F800000

/-- The completion record. -/
def Query.completion (q : Query) (status : Nat) : List Byte :=
  let nres := if status ≤ 2 then min q.k q.res.length else 0
  leBytes 4 (field q.packet 0xC 4) ++ leBytes 1 status ++ leBytes 1 nres ++
      leBytes 2 (q.nandist.toNat + 2 * q.badrec.toNat)
    ++ leBytes 4 q.rounds ++ leBytes 4 q.vis.length

/-- The writes of a stopped query (R331): its result area, unless it computed no distance, and its record. -/
def Query.writes (q : Query) (status : Nat) : List (Nat × List Byte) :=
  (if status ≤ 2 then [((packetResult q.packet).1, q.area)] else []) ++ [(packetRecord q.packet, q.completion status)]

/-- The words of its result area that a stopped query writes next, before the others: a load that races with the query finds
each word old or new (R232, R334). -/
def Query.early (x : Query) (status draw : Nat) : List Nat :=
  if x.written || 2 < status then []
  else (List.range (2 * x.k)).filter fun k => Config.resultPart draw k && !x.shown.contains k

/-- Words of the result area of a query written. -/
def State.showWords (s : State) (x : Query) (ks : List Nat) : State :=
  (ks.foldl (fun (s : State) k =>
    s.vwrite x.outs ((packetResult x.packet).1 + 4 * k) ((x.area.drop (4 * k)).take 4)) s).onQuery x.id fun x =>
      { x with shown := x.shown ++ ks }

/-- R331: a stopped query writes its results, word by word, and its record, after the earlier ordered queries of its team;
its counter follows, once writes to a peer device are acknowledged (R233). -/
def execQueryCompletion (q : Nat) (s : State) : Result :=
  match s.query? q with
  | none => .next s
  | some x =>
    match x.status with
    | none => .next s
    | some st =>
      let early := x.early st s.freeCtr
      if x.ord && s.queries.any fun y => y.ord && y.team == x.team && decide (y.seq < x.seq) then .next s
      else if !early.isEmpty then .next (s.showWords x early)
      else
        let put (s : State) : State := (x.writes st).foldl (fun (s : State) w => s.vwrite x.outs w.1 w.2) s
        let s1 :=
          if x.written then s
          else ((put s).remoteStores q x.ctx x.world ((x.writes st).flatMap fun w => peerPieces x.outs w.1 w.2)).onQuery q
            fun x => { x with written := true }
        if s1.unanswered q then .next s1
        else .next (({ s1 with queries := s1.queries.filter (·.id != q) } : State).bump x.team
          (if st == 4 then none else packetCounter x.packet))

/-! ### Graphs (R321, R322) and search shares (R333) -/

/-- The homes of a record: stack, FIRST, COUNT, BASE. -/
def homesOf (rec : List Byte) : List (Nat × Nat × Nat × Nat) := (List.range 8).map fun st =>
  let (f, n, b) := graphHome rec st
  (st, f, n, b)

/-- Are fields reserved and not zero, or outside their range? -/
def graphFieldsBad (rec : List Byte) : Bool :=
  let c := field rec 0 4
  outside (bitsOf c 30 24) 1 64 || decide (127 < bitsOf c 23 16) || bitsOf c 15 14 == 3 || bitsOf c 13 10 != 0
    || field rec 4 4 == 0 || !zeroBytes rec 8 8 || !zeroBytes rec 0x90 48
    || (homesOf rec).any fun (_, f, n, b) => b % 256 != 0 || decide (2 ^ 48 ≤ b) || (n == 0 && (f != 0 || b != 0))

/-- Do the ranges of the stacks overlap, or not cover 0 to NV − 1? -/
def graphRangesBad (rec : List Byte) : Bool :=
  let hs := (homesOf rec).filter fun h => h.2.2.1 != 0
  (hs.map (·.2.2.1)).foldl (· + ·) 0 != graphNv rec
    || hs.any fun a => decide (graphNv rec < a.2.1 + a.2.2.1)
      || hs.any fun b => a.1 != b.1 && overlaps a.2.1 a.2.2.1 b.2.1 b.2.2.1

/-- Is a graph record refused (R322)? -/
def State.graphRefused (s : State) (g : Nat) (rec : List Byte) : Bool :=
  graphFieldsBad rec || graphRangesBad rec || (s.graph? g).isSome
    || ((homesOf rec).filter fun h => h.2.2.1 != 0).any fun (st, _, n, b) =>
        let len := n * graphRs rec
        decide (b < st * 2 ^ 36) || decide ((st + 1) * 2 ^ 36 < b + len) || s.regs.sshare.getD st 0 == 0
          || (!(s.ctx (graphCtx rec)).world && s.secureRange b len)

/-- GRSTAT of the last record. -/
def State.grstat (s : State) (g : Nat) (code : BitVec 2) : State :=
  { s with regs := { s.regs with grstat := code ++ BitVec.ofNat 8 g } }

/-- Does a record name VALID? -/
def recordValid (rec : List Byte) : Bool := (field rec 0 4).testBit 31

/-- R322: a record with VALID = 1 registers graph g, or is refused. -/
def execGraphRegistration (g : Nat) (record : List Byte) (s : State) : Result :=
  if 256 ≤ g || record.length != 192 || !recordValid record || !s.pfReady then .next s
  else
    let s1 := s.window (0x010000 + 256 * g) record
    if s1.graphRefused g record then .next (s1.grstat g 1)
    else .next { s1.grstat g 0 with graphs := s1.graphs ++ [{ g := g, record := record, leaving := false }] }

/-- Does a query name graph g? -/
def State.graphNamed (s : State) (g : Nat) : Bool := s.queries.any fun q => field q.packet 0 1 == g

/-- R322: a record with VALID = 0 unregisters graph g, at once or after its queries. -/
def execGraphUnregistration (g : Nat) (record : List Byte) (s : State) : Result :=
  if 256 ≤ g || record.length != 192 || recordValid record || !s.pfReady then .next s
  else
    let s1 := s.window (0x010000 + 256 * g) record
    if (s1.graph? g).isSome && s1.graphNamed g then
      .next { s1.grstat g 2 with graphs := replaceIf s1.graphs (·.g == g) fun x => { x with leaving := true } }
    else .next { s1.grstat g 0 with graphs := s1.graphs.filter (·.g != g) }

/-- R322: the unregistration takes effect once no query names the graph. -/
def execUnregistrationEffect (g : Nat) (s : State) : Result :=
  if (s.graph? g).elim false (·.leaving) && !s.graphNamed g then
    let s1 : State := { s with graphs := s.graphs.filter (·.g != g) }
    .next (if s.regs.grstat == 2#2 ++ BitVec.ofNat 8 g then s1.grstat g 0 else s1)
  else .next s

/-- R333, R349: a stack's search share is set; 9 to 15, and 0 under a registered graph, are ignored. -/
def execSshare (stack : Nat) (value : Word) (s : State) : Result :=
  let n : BitVec 4 := value.setWidth 4
  let holds := s.graphs.any fun g => (graphHome g.record stack).2.1 != 0
  if 8 ≤ stack || decide (8 < n.toNat) || (n == 0 && holds) || !s.pfReady then .next s
  else .next { s with regs := { s.regs with sshare := setAt s.regs.sshare stack n 0 } }

end Sys2Proof.Machine
end

