-- ==== Sys2Proof/Machine/Host.lean ====
section
/-! DEFINITION. The host interface (spec 16): BAR0 registers, posted writes in pieces, reads, ATS, resolve words,
checkpoints, power modes and what the memories do on their own (R271, R336 to R350, R360, R361). -/

namespace Sys2Proof.Machine

/-! ### Registers (R344, R349, R350, R356, R358) -/

/-- Bytes of a record that its reserved fields leave: the mask of an inbound window, or of an endpoint. -/
def recordMask (endpoint : Bool) : Nat :=
  if endpoint then 2 ^ 64 * (2 ^ 52 - 1) + (2 ^ 63 + (2 ^ 10 - 1) * 2 ^ 32 + (2 ^ 24 - 1))
  else 2 ^ 64 * (2 ^ 32 - 1) + (3 * 2 ^ 62 + (2 ^ 32 - 1) * 2 ^ 16)

/-- Where words of a record wait for its last word. -/
def stagedAt : Nat := 2 ^ 32

/-- A word written into a window whose records hold `size` bytes: the record is taken with its last word (R349). -/
def State.windowWord (s : State) (base size off n value : Nat) (endpoint : Bool) : State :=
  let at0 := base + (off - base) / size * size
  let s1 := s.window (stagedAt + off) (leBytes n value)
  if off + n == at0 + size then
    let r := leNat (s1.regs.windows.readN (stagedAt + at0) size)
    s1.window at0 (leBytes size (r &&& recordMask endpoint))
  else s1

/-- A write of the registers of a context block that have no behaviour of their own (R350). -/
def Context.writeReg (c : Context) (fn off n value : Nat) : Context :=
  match off, n with
  | 0x0C, 4 => if value.testBit 0 then { c with lknak := false } else c
  | 0x10, 4 => { c with cirq := BitVec.ofNat 11 value }
  | 0x14, 4 => { c with pv := value.testBit 31, pasid := BitVec.ofNat 20 value }
  | 0x20, 8 => { c with pwbase := BitVec.ofNat 64 value }
  | 0x28, 4 => { c with pwn := BitVec.ofNat 32 value }
  | 0x2C, 4 => if fn == 0 then { c with cfunc := BitVec.ofNat 6 value } else c
  | _, _ => c

/-- Is every port down? -/
def State.portsDown (s : State) : Bool := s.ports.all (·.state == .down)

/-- PORTCTL of a port written (R349): an enabled port that is down trains. -/
def Port.control (p : Port) (en : Bool) : Port :=
  { p with en := en, state := match p.state with
      | .down => if en then .training else .down
      | .training => if en then .training else .down
      | .up => .up }

/-- PORTCTL of a port written; a change of the port's state is a device event (R348). -/
def State.portControl (s : State) (port : Nat) (en : Bool) : State :=
  let p := s.ports.getD port Port.reset
  let s1 : State := { s with ports := setAt s.ports port (p.control en) Port.reset }
  if (p.control en).state == p.state then s1 else s1.emit (.msix 0 0)

/-- A write of a device-wide register that has no behaviour of its own (R349). -/
def State.writeReg (s : State) (off n value : Nat) : State :=
  let set (f : Regs → Regs) : State := { s with regs := f s.regs }
  if off == 0 && n == 4 then (if s.portsDown then set fun r => { r with devid := BitVec.ofNat 19 value } else s)
  else if off == 0x10 && n == 4 then (if value % 4 == 3 then s else set fun r => { r with wctl := BitVec.ofNat 2 value })
  else if 0x20 ≤ off && off < 0x40 && off % 4 == 0 && n == 4 then
    set fun r => { r with slotmap := (List.range 4).foldl (fun m j =>
      setAt m (off - 0x20 + j) (BitVec.ofNat 5 (value / 2 ^ (8 * j))) 0) r.slotmap }
  else if 0x200 ≤ off && off < 0x300 && off % 16 == 0 && n == 4 then s.portControl ((off - 0x200) / 16) (value.testBit 0)
  else if 0x1000 ≤ off && off < 0x1200 && n == 1 then
    set fun r => { r with routeg := setAt r.routeg (off - 0x1000) (BitVec.ofNat 8 value) 0 }
  else if 0x1200 ≤ off && off < 0x1600 && n == 1 then
    set fun r => { r with routem := setAt r.routem (off - 0x1200) (BitVec.ofNat 8 value) 0 }
  else if 0x2000 ≤ off && off + n ≤ 0x2100 then s.windowWord 0x2000 32 off n value false
  else if 0x020000 ≤ off && off + n ≤ 0x030000 then s.windowWord 0x020000 16 off n value true
  else s

/-- R349, R350: a write to a BAR0 register with no behaviour of its own. -/
def execRegisterWrite (fn off n value : Nat) (s : State) : Result :=
  if 0x100000 ≤ off && off < 0x110000 then
    let ctx := (off - 0x100000) / 64
    if s.mayReach fn ctx then .next (s.onCtx ctx fun c => c.writeReg fn (off % 64) n value) else .next s
  else if fn == 0 && s.pfReady then .next (s.writeReg off n value)
  else .next s

/-- CSTAT.STATE (R350). -/
def CtxState.code : CtxState → Nat
  | .free => 0 | .registered => 1 | .preempting => 2 | .preempted => 3 | .resetting => 4 | .reset => 5

/-- PORTSTAT (R349). -/
def Port.status (p : Port) : Nat :=
  match p.state with
  | .down => 0
  | .training => 1
  | .up => 2 + p.peer.toNat * 4

/-- A register of a context block as it reads (R350). -/
def Context.readReg (c : Context) (off : Nat) : Nat :=
  match off with
  | 0x0C => c.state.code * 2 ^ 28 + c.last.toNat * 2 ^ 24 + c.lknak.toNat
  | 0x10 => c.cirq.toNat
  | 0x14 => c.pv.toNat * 2 ^ 31 + c.pasid.toNat
  | 0x18 => c.dusktb.toNat
  | 0x20 => c.pwbase.toNat
  | 0x28 => c.pwn.toNat
  | 0x2C => c.cfunc.toNat
  | _ => 0

/-- A device-wide register as it reads (R342, R349); a window reads its last record. -/
def State.readReg (s : State) (off n : Nat) : Nat :=
  let r := s.regs
  if off == 0 then r.devid.toNat
  else if off == 8 then r.pmode.toNat
  else if off == 0xC then r.pstat.toNat
  else if off == 0x10 then r.wctl.toNat
  else if 0x20 ≤ off && off < 0x40 && off % 4 == 0 then
    (List.range 4).foldl (fun v j => v + (r.slotmap.getD (off - 0x20 + j) 0).toNat * 2 ^ (8 * j)) 0
  else if 0x40 ≤ off && off < 0x60 && off % 4 == 0 then (r.sshare.getD ((off - 0x40) / 4) 0).toNat
  else if off == 0x84 then r.ckstat.toNat
  else if off == 0x88 then r.ckseq.toNat
  else if 0x200 ≤ off && off < 0x300 && off % 16 == 0 then (s.ports.getD ((off - 0x200) / 16) Port.reset).en.toNat
  else if 0x200 ≤ off && off < 0x300 && off % 16 == 4 then (s.ports.getD ((off - 0x200) / 16) Port.reset).status
  else if 0x1000 ≤ off && off < 0x1200 then (r.routeg.getD (off - 0x1000) 0).toNat
  else if 0x1200 ≤ off && off < 0x1600 then (r.routem.getD (off - 0x1200) 0).toNat
  else if off == 0x3000 then r.grstat.toNat
  else if (0x2000 ≤ off && off < 0x2100) || (0x010000 ≤ off && off < 0x032000) then leNat (r.windows.readN off n)
  else 0

/-- A BAR0 read of `n` bytes by a function (R344, R349): what it does not reach reads zero. -/
def State.bar0 (s : State) (fn off n : Nat) : Nat :=
  if 0x100000 ≤ off && off < 0x110000 then
    let ctx := (off - 0x100000) / 64
    if fn == 0 || (s.ctx ctx).cfunc.toNat == fn then (s.ctx ctx).readReg (off % 64) else 0
  else if fn == 0 then s.readReg off n else 0

/-! ### Posted writes and reads (R345, R346, R363) -/

/-- The route of a physical address: its stack, or LPDDR6 (R346). -/
def routeOf (pa : Nat) : Nat := if pa < 2 ^ 39 then pa / 2 ^ 36 else 8

/-- A posted write split at 128-byte boundaries (R346). -/
def splitPieces (fn : Nat) : (fuel pa : Nat) → List Byte → List Piece
  | 0, _, _ => []
  | _, _, [] => []
  | k + 1, pa, bs =>
    let n := 128 - pa % 128
    { fn := fn, route := routeOf pa, pa := pa, data := bs.take n } :: splitPieces fn k (pa + n) (bs.drop n)

/-- R346: an inbound posted write becomes pieces. -/
def execHostPostedWrite (fn pa : Nat) (data : List Byte) (s : State) : Result :=
  if !s.hostUp then .next s
  else .next { s with pieces := s.pieces ++ splitPieces fn (data.length + 1) pa data }

/-- An access that the world region table refuses is counted (R363). -/
def State.countRefused (s : State) : State := { s with tele := { s.tele with refused := s.tele.refused + 1 } }

/-- R346: piece j is performed at its controller and acknowledged, once it is the oldest of its function; a piece that
reaches a secure page is discarded (R363). -/
def execPieceAcknowledgement (j : Nat) (s : State) : Result :=
  match s.pieces[j]? with
  | none => .next s
  | some p =>
    if (s.pieces.take j).any (·.fn == p.fn) || !s.hostUp then .next s
    else
      let s1 : State := { s with pieces := s.pieces.eraseIdx j }
      .next (if s.secureRange p.pa p.data.length then s1.countRefused else s1.physWrite p.pa p.data)

/-- The bytes a host read returns: those of an uncorrectable burst are free values (log 33). -/
def State.hostData (s : State) (pa n : Nat) : List Byte :=
  ((s.physRead pa n).zipIdx).map fun (b, k) =>
    if s.poison.contains ((pa + k) / 32) then Config.peerByte s.freeCtr (pa + k) else b

/-- R240, R346, R363: a host read, after the earlier pieces of its function. -/
def execHostRead (fn pa n : Nat) (s : State) : Result :=
  if s.pieces.any (·.fn == fn) || !s.hostUp then .next s
  else if n != 0 && s.secureRange pa n then .next (s.countRefused.emit (.unsupported fn))
  else .next ((({ s with freeCtr := s.freeCtr + 1 } : State).countNoMemory pa).emit (.readData fn (s.hostData pa n)))

/-! ### ATS (R347) -/

/-- An answer kept by the IOD. -/
def State.grantAts (s : State) (ctx page : Nat) : State :=
  let x := ((s.ctx ctx).pasid, page)
  if s.ats.contains x then s else { s with ats := s.ats ++ [x] }

/-- The answer to an outstanding instruction: its granule goes on, or is DENIED. -/
def State.atsEntry (s : State) (t : Team) (e : Outst) (granted : Bool) : State :=
  match s.unanswered? t e with
  | none => s
  | some g =>
    match s.askGranule t e (s.neededMode t e g fun m => s.askGranule t e m true g) true g with
    | .awaitAts p =>
      if granted then s.grantAts t.ctx p
      else s.setTeam { t with outst := replaceIf t.outst (·.seq == e.seq) fun e => { e with outs := e.outs ++ [(g, .denied)] } }
    | _ => s

/-- The answer to a team that fetches: the fetch goes on, or meets PROTECTION (R262). -/
def State.atsFetch (s : State) (t : Team) (granted : Bool) : State :=
  if t.clause.isSome || !s.running t then s
  else match s.fetchAt t t.pc with
  | .await p =>
    if granted then s.grantAts t.ctx p
    else
      let first := (s.fetchMap t (t.pc.toNat / 128)).isMapped
      s.fetchTrap t .protection (if first then BitVec.ofNat 64 ((granule t.pc.toNat + 1) * 65536) else t.pc)
  | _ => s

/-- The answer to an engine, a front end or a block access that waits: it goes on, faults its context (R275), or meets
the refusal at its next attempt. -/
def State.atsKey (s : State) (key : Nat) (granted : Bool) : State :=
  match s.atsWaits.find? fun w => w.key == key && !w.refused with
  | none => s
  | some w =>
    let s1 : State := { s with atsWaits := s.atsWaits.erase w }
    if granted then s1.grantAts w.ctx w.page
    else if key == 0 || (s.team? key).isSome then { s1 with atsWaits := s1.atsWaits ++ [{ w with refused := true }] }
    else
      -- a page step whose translation the host has refused goes no further (R319)
      let s2 := s1.contextFault w.ctx w.die 8 TrapCode.protection.code w.va
      { s2 with sweeps := replaceIf s2.sweeps (·.op == key) fun x => { x with susp := some (granule w.va.toNat, w.va) } }

/-- R347: the host answers: for outstanding instruction k of team t, or, with k = 0, for the fetch of team t or the
operation of key t. A stopped device keeps its teams and engines as they are (R341, R361). -/
def execAtsAnswer (t k : Nat) (granted : Bool) (s : State) : Result :=
  if s.stopped then .next s
  else if k != 0 then
    match s.translating? t k with
    | some (tm, e) => .next (s.atsEntry tm e granted)
    | none => .next s
  else if s.atsWaits.any fun w => w.key == t && !w.refused then .next (s.atsKey t granted)
  else match s.team? t with
  | some tm => .next (s.atsFetch tm granted)
  | none => .next s

/-- Does a translation lie in a host page? -/
def Xlat.inHostPage (page : Nat) : Xlat → Bool
  | .host b => b / 65536 == page
  | _ => false

/-- R347: a host invalidation completes once no access that used the translation is unperformed. -/
def execHostAtsInvalidation (page : Nat) (s : State) : Result :=
  let used (outs : List (Nat × Xlat)) : Bool := outs.any fun o => o.2.inHostPage page
  if (s.teams.any fun t => t.unperformed.any fun o => !o.failed &&
      used o.outs) || (s.queries.any fun q => used q.outs)
      || s.sweeps.any fun w => w.step.elim false fun x => used x.outs then .next s
  else .next { s with ats := s.ats.filter (·.2 != page) }

/-! ### Resolve words (R271, R272) -/

/-- Does a team that is still collecting its clause hold a missing granule that the test names? -/
def Team.collects (t : Team) (p : Nat → Bool) : List Nat :=
  if t.park.isSome then []
  else (t.mine.flatMap fun o => (o.outs.filter fun x => x.2 == .missing && p x.1).map (·.1)).eraseDups

/-- The granules that a test names cleared in every waiter of a context. -/
def State.clearGranules (s : State) (ctx : Nat) (p : Nat → Bool) : State :=
  let hit (x : Option (Nat × DWord)) : Bool := x.elim false fun y => p y.1
  { s with
    teams := replaceIf s.teams (·.ctx == ctx) fun t =>
      { t with park := t.park.map fun k => { k with missing := k.missing.filter fun g => !p g.1 }
               cleared := t.cleared ++ t.collects p }
    cores := s.cores.map fun c => { c with matrix := c.matrix.map fun m => { m with
      queue := replaceIf m.queue (fun k => k.ctx == ctx && hit k.susp) fun k => { k with cleared := true } } }
    copies := replaceIf s.copies (fun k => k.ctx == ctx && hit k.susp) fun k => { k with susp := none }
    sweeps := replaceIf s.sweeps (fun k => k.ctx == ctx && hit k.susp) fun k => { k with susp := none }
    handbacks := replaceIf s.handbacks (fun k => k.ctx == ctx &&
        hit k.susp) fun k => { k with susp := none, told := false } }

/-- The fields of a resolve word: ACT, CTX, granule, ASID. -/
def resolveFields (w : DWord) : Nat × Nat × Nat × BitVec 16 :=
  (bitsOf w.toNat 63 62, bitsOf w.toNat 61 52, bitsOf w.toNat 51 16, w.setWidth 16)

/-- A resolve word of an action, by a function that reaches its context; a stopped device keeps its teams and engines as
they are (R341, R361). -/
def State.resolve (s : State) (fn : Nat) (word : DWord) (act : Nat) (f : State → Nat → Nat → State) : Result :=
  let (a, ctx, g, asid) := resolveFields word
  if a != act || s.stopped || !s.mayReach fn ctx || (act != 2 && (s.ctx ctx).asid != asid) then .next s else .next (f s ctx g)

/-- R271: one granule is retried. -/
def execResolveRetry (fn : Nat) (word : DWord) (s : State) : Result :=
  s.resolve fn word 0 fun s ctx g => s.clearGranules ctx (· == g)

/-- R271: every missing granule of a context is retried. -/
def execResolveRetryAll (fn : Nat) (word : DWord) (s : State) : Result :=
  s.resolve fn word 2 fun s ctx _ => s.clearGranules ctx fun _ => true

/-- Does an engine operation or a hand-back of a context wait on a granule? -/
def State.engineWaits (s : State) (ctx g : Nat) : Bool :=
  let hit (x : Option (Nat × DWord)) : Bool := x.elim false (·.1 == g)
  (s.cores.any fun c => c.matrix.any fun m => m.queue.any fun k => k.ctx == ctx && hit k.susp && !k.cleared)
    || (s.copies.any fun k => k.ctx == ctx && hit k.susp) || (s.sweeps.any fun k => k.ctx == ctx && hit k.susp)
    || s.handbacks.any fun k => k.ctx == ctx && hit k.susp

/-- The die of the engine operation that waits on a granule (R399). -/
def State.waitDie (s : State) (ctx g : Nat) : Nat :=
  let hit (x : Option (Nat × DWord)) : Bool := x.elim false (·.1 == g)
  ((s.cores.find? fun c => c.matrix.any fun m => m.queue.any fun k => k.ctx == ctx &&
      hit k.susp).map fun c => coreDie c.no).getD
    (((s.copies.find? fun k => k.ctx == ctx && hit k.susp).map fun k => coreDie k.core).getD
      (((s.sweeps.find? fun k => k.ctx == ctx && hit k.susp).map (·.die)).getD
        (((s.handbacks.find? fun k => k.ctx == ctx && hit k.susp).map (·.die)).getD 0)))

/-- R271: one granule is failed: parked teams take PROTECTION, once their earlier instructions have completed (R97); a
waiting engine operation faults the context. -/
def execResolveFail (fn : Nat) (word : DWord) (s : State) : Result :=
  s.resolve fn word 1 fun s ctx g =>
    let parked := s.teams.filter fun t => t.ctx == ctx && t.park.elim false fun k => k.missing.any (·.1 == g)
    let s1 := parked.foldl (fun (s : State) t =>
      match t.park with
      | none => s
      | some k =>
        let va := ((k.missing.find? (·.1 == g)).map (·.2)).getD 0
        let lanes := ((k.lanes.find? (·.1 == g)).map (·.2)).getD 0
        if t.outst.isEmpty then s.enterTrap t { code := .protection, addr := va, lanes := lanes } k.resume
        else s.setTeam { t with park := some { k with failed := k.failed.or (some (va, lanes)) } }) s
    let s2 := if s.engineWaits ctx g then s1.contextFault ctx (s.waitDie ctx g) 5 0 0 else s1
    s2.clearGranules ctx (· == g)

/-! ### Checkpoints (R341, R342) -/

/-- First byte of the image area. -/
def imageBase : Nat := 0x18000000000

/-- CKSTAT of a state, an operation and a count. -/
def ckStatus (state op nerr : Nat) : Word := BitVec.ofNat 32 (state * 2 ^ 30 + op * 2 ^ 28 + min nerr 0x0FFFFFFF)

/-- A trigger: ignored while an operation runs, with CKEN 0, or without main rails. Teams and engines stop; a page step of
a Dusk engine goes on to its end (R178). -/
def State.trigger (s : State) : State :=
  if s.ck.isSome || !s.regs.cken || !s.mainOn then s
  else { s with ck := some .checkpoint, stopped := true, regs := { s.regs with ckstat := ckStatus 1 1 0 } }

/-- R341. -/
def execCkctlCheckpoint (s : State) : Result := .next (if s.pfReady then s.trigger else s)

/-- R341: PFAIL. -/
def execPfail (s : State) : Result := .next s.trigger

/-- R342: a load starts when no context is registered. -/
def execCkctlLoad (s : State) : Result :=
  if !s.pfReady || s.ck.isSome || s.contexts.any (·.state != .free) then .next s
  else .next { s with ck := some .load, regs := { s.regs with ckstat := ckStatus 1 2 0 } }

/-- R342. -/
def execCkctlClear (s : State) : Result :=
  .next (if s.pfReady then { s with regs := { s.regs with ckstat := 0 } } else s)

/-- The granules of an area that hold an uncorrectable burst. -/
def State.badGranules (s : State) (lo hi : Nat) : List Nat :=
  ((s.poison.filter fun b => decide (lo ≤ 32 * b) && decide (32 * b < hi)).map fun b => 32 * b / 65536).eraseDups

/-- The cells of an area, without those of bad granules, moved by a distance. -/
def copyCells (m : Memory) (lo hi dst : Nat) (bad : List Nat) : Memory :=
  (m.filter fun c => decide (lo ≤ c.1) && decide (c.1 < hi) &&
      !bad.contains (c.1 / 65536)).map fun c => (c.1 - lo + dst, c.2)

/-- The end of a checkpoint or of a load: CKSTAT and its events. -/
def State.ckDone (s : State) (op nerr : Nat) : State :=
  let s1 : State := { s with ck := none, regs := { s.regs with ckstat := ckStatus 2 op nerr } }
  (s1.emit (.msix 0 0)).emit .inBand

/-- R341: once every engine has ended its unit, the dirty lines of every L2 are written back, and every stack is copied to
its image; the device stays stopped. -/
def execCheckpointComplete (s : State) : Result :=
  if s.ck != some .checkpoint || s.sweeps.any (fun w => w.step.isSome && s.sweepRuns w) then .next s
  else
    let s := s.cleanAll
    let bad := s.badGranules 0 (2 ^ 39)
    let s1 : State :=
      { s with mem := s.mem.filter (fun c => decide (c.1 < imageBase)) ++ copyCells s.mem 0 (2 ^ 39) imageBase bad
               poison := s.poison.filter fun b => decide (32 * b < imageBase)
               regs := { s.regs with ckseq := s.regs.ckseq + 1 } }
    .next (s1.ckDone 1 bad.length)

/-- R342: every image is copied back. A granule of an image that reads uncorrectable is treated as at a checkpoint
(log 34). -/
def execCheckpointLoadComplete (s : State) : Result :=
  if s.ck != some .load then .next s
  else
    let bad := s.badGranules imageBase (imageBase + 2 ^ 39)
    let s1 : State :=
      { s with mem := copyCells s.mem imageBase (imageBase + 2 ^ 39) 0 bad ++ s.mem.filter fun c => decide (2 ^ 39 ≤ c.1)
               poison := s.poison.filter fun b => decide (2 ^ 39 ≤ 32 * b) }
    .next (s1.ckDone 2 bad.length)

/-! ### Power, clocks and memories (R303, R338 to R340, R349, R360, R361) -/

/-- PMODE written: 5 to 7 are ignored. -/
def State.setPmode (s : State) (value : Word) : State :=
  let m : BitVec 3 := value.setWidth 3
  if 5 ≤ m.toNat then s else { s with regs := { s.regs with pmode := m } }

/-- R360. -/
def execPmode (value : Word) (s : State) : Result := .next (if s.pfReady then s.setPmode value else s)

/-- Arithmetic clock of a mode in MHz (R360). -/
def modeClock (m : BitVec 3) : Nat :=
  match m.toNat with
  | 2 => 900 | 3 => 1000 | 4 => 800 | _ => 1200

/-- Is the entry a wait, or behind one? What it waits for may need new accesses, and it has started none (R364). -/
def Team.behindWait (t : Team) (o : Outst) : Bool :=
  o.isWait || t.outst.any fun w => w.isWait && decide (w.seq < o.seq) && mustFollow w o

/-- Has an instruction of a team started an access, checked or sent, that is not performed? -/
def Team.accessOpen (t : Team) : Bool :=
  (t.posted.any fun o => !o.outs.isEmpty)
    || t.outst.any fun o => o.sent || (o.ends && o.checked && !o.outs.isEmpty && !t.behindWait o)

/-- Is an access checked, and not performed (R265, R364)? A query that holds the translations of its packet is one, and so
is a store or an atomic that the device has sent to itself. -/
def State.accessOpen (s : State) : Bool :=
  !s.pieces.isEmpty || (s.queries.any fun q => !q.outs.isEmpty)
    || (s.sweeps.any fun w => w.step.elim false fun x => !x.outs.isEmpty)
    || (s.inbox.any fun f => f.src == s.regs.devid && (f.ty == 1 || f.ty == 2)) || s.teams.any Team.accessOpen

/-- R361: a written mode takes effect, once every access started under the old one is performed. -/
def execPowerModeChange (s : State) : Result :=
  if s.regs.pmode == s.regs.pmodeOn || s.accessOpen then .next s
  else .next ({ s with regs := { s.regs with pmodeOn := s.regs.pmode, mhz := modeClock s.regs.pmode } }.emit (.msix 0 0))

/-- R303: a written wheel mode and slot map take effect, once every access started under the old ones is performed. -/
def execWheelSettingChange (s : State) : Result :=
  if s.accessOpen then .next s
  else .next { s with regs := { s.regs with wctlOn := s.regs.wctl, slotmapOn := s.regs.slotmap } }

/-- R349: PSTAT is updated; the power is a free value (log 15). -/
def execPstatUpdate (s : State) : Result :=
  .next { s with freeCtr := s.freeCtr + 1,
                 regs := { s.regs with pstat := BitVec.ofNat 16 s.regs.mhz ++ Config.packagePower s.freeCtr } }

/-- R360: in Balanced mode the clock moves by 25 MHz between 800 and 1,200. -/
def execClockThrottle (down : Bool) (s : State) : Result :=
  if s.regs.pmodeOn != 0 then .next s
  else .next { s with regs := { s.regs with mhz := if down then max 800 (s.regs.mhz - 25) else min 1200 (s.regs.mhz + 25) } }

/-- R361: the thermal alert is a device event. -/
def execThermalAlert (s : State) : Result := .next (s.emit (.msix 0 0))

/-- R361: at the thermal limit Balanced mode lowers the clock; every other mode halts, with THERMTRIP reported. -/
def execThermtrip (s : State) : Result :=
  if s.regs.pmodeOn == 0 then .next { s with regs := { s.regs with mhz := max 800 (s.regs.mhz - 25) } }
  else .next (({ s with stopped := true } : State).emit .inBand)

/-- R339: an alert is served with refreshes and RFMpb: no value changes. -/
def execStackAlert (_stack _pseudo _owed : Nat) (s : State) : Result := .next s

/-- The bursts of a line that read uncorrectable. -/
def State.badBursts (s : State) (line : Nat) : Nat := ((List.range 4).filter fun k => s.poison.contains (4 * line + k)).length

/-- R338, R340: the scrubber reads a line of HBM4E or LPDDR6: a correctable error of a burst is corrected and counted; each
uncorrectable burst is counted and left as it is. -/
def execPatrolScrub (line : Nat) (correctable : Bool) (s : State) : Result :=
  let n := s.badBursts line
  if !hasMemory (128 * line) || !s.mainOn then .next s
  else .next { s with tele := { s.tele with
    correctable := s.tele.correctable + (correctable && n != 4).toNat, uncorrectable := s.tele.uncorrectable + n } }

/-- An error arises in a burst of memory (R338): it reads uncorrectable, or, wider than the code detects, it reads with
the given bits inverted and no report. -/
def State.memError (s : State) (burst : Nat) (silent : Option (List Byte)) : State :=
  let pa := 32 * burst
  if !hasMemory pa then s
  else match silent with
  | none => if s.poison.contains burst then s else { s with poison := s.poison ++ [burst] }
  | some bits => { s with mem := s.mem.writeN pa (((s.physRead pa 32).zip bits).map fun (a, b) => a ^^^ b) }

/-- A 32-byte block of a cast's scratch comes to read uncorrectable (R274). -/
def State.scratchError (s : State) (cast block : Nat) : State :=
  s.onCast cast fun c => if c.bad.contains block || decide (c.size ≤ 32 * block) then c else { c with bad := c.bad ++ [block] }

end Sys2Proof.Machine
end

