-- ==== Sys2Proof/Machine/Links.lean ====
section
/-! DEFINITION. The Ghehorn links (spec 16): flits that arrive, are forwarded or discarded, remote stores and atomics,
carries, and ports that come up and go down (R352 to R359). -/

namespace Sys2Proof.Machine

/-! ### Flits (R353, R354) -/

/-- Scratch offset of the first byte of a carry flit, and its endpoint. -/
def flitLandAt (f : Flit) : Nat := (f.addr.setWidth 32).toNat
def flitEndpoint (f : Flit) : Nat := (f.addr.extractLsb' 36 12).toNat

/-- Is the field OPC or ADDR of a flit non-zero where its TYPE reserves it (R353)? -/
def flitFieldsBad (f : Flit) : Bool :=
  match f.ty.toNat with
  | 1 => f.opc.extractLsb' 0 7 != 0
  | 2 => f.opc.extractLsb' 5 2 != 0
  | 5 | 6 => f.opc != 0 || f.addr.extractLsb' 32 4 != 0
  | 7 => f.addr != 0
  | _ => f.opc != 0 || f.addr != 0

/-- A flit that is discarded on reception (R353). -/
def flitDiscarded (f : Flit) : Bool := (decide (9 ≤ f.ty.toNat) && f.ty != 15) || f.resv || flitFieldsBad f

/-- Is a flit from a port the next of its source, or a later one: none is performed after a later one (R354)? The number of
the first flit that a source sends is not known. -/
def State.newFlit (s : State) (f : Flit) : Bool :=
  f.src != s.regs.devid && s.ports.any (·.state == .up)
    && (s.inSeqs.find? (·.1 == f.src)).elim true fun x => decide ((f.seq - x.2).toNat < 2 ^ 15)

/-- A flit received from a port. -/
def State.received (s : State) (f : Flit) : State :=
  { s with inSeqs := (f.src, f.seq + 1) :: s.inSeqs.filter (·.1 != f.src) }

/-- Is a flit one that is performed inside this device? A payload has 1 to 232 bytes (R353). -/
def State.forHere (s : State) (ty : BitVec 4) (f : Flit) : Bool :=
  f.ty == ty && !flitDiscarded f && f.dst == s.regs.devid && !outside f.data.length 1 232 && s.mainOn

/-- The carry that a flit belongs to, of its source and endpoint, not yet ended. -/
def CarryIn.takes (k : CarryIn) (f : Flit) : Bool := k.src == f.src && k.ep == (flitEndpoint f) && k.ended.isNone

/-- Does a flit wait for an earlier flit of its source: one of a carry whose bytes or end wait to be performed, and which it
does not continue (R354)? -/
def State.behindCarry (s : State) (f : Flit) : Bool :=
  s.landing.any fun k => k.src == f.src && (!k.data.isEmpty || k.ended.isSome)
    && !((f.ty == 5 || f.ty == 6) && k.takes f)

/-- The first flit of a source that has come and is not performed yet. -/
def State.firstOf (s : State) (src : BitVec 19) : Option Flit := s.inbox.find? (·.src == src)

/-- A flit performed inside this device (R354): the next of those of its source that have come, or one that comes from a
port that is up, where none before it waits; with the state that has taken it. -/
def State.arrive (s : State) (ty : BitVec 4) (f : Flit) : Option State :=
  if !s.forHere ty f || s.behindCarry f then none
  else if s.firstOf f.src == some f then some { s with inbox := s.inbox.erase f }
  else if s.newFlit f && (s.firstOf f.src).isNone then some (s.received f)
  else none

/-- A flit that comes from a port behind another of its source waits for it (R354). -/
def State.waitHere (s : State) (ty : BitVec 4) (f : Flit) : State :=
  if s.forHere ty f && s.newFlit f && (s.behindCarry f || (s.firstOf f.src).isSome) then
    { s.received f with inbox := s.inbox ++ [f] }
  else s

/-- A flit comes and is performed, or waits. -/
def State.comes (s : State) (ty : BitVec 4) (f : Flit) (k : State → State) : Result :=
  .next ((s.arrive ty f).elim (s.waitHere ty f) k)

/-- A flit of this device that answers another. -/
def State.reply (s : State) (f : Flit) (ty : BitVec 4) (opc : BitVec 8) (data : List Byte) : State :=
  let (r, s1) := s.answerTo f ty opc data
  s1.send r

/-! ### Remote stores and atomics at the peer (R356, R357, R363) -/

/-- Does inbound window i admit a physical range (R356, R357)? -/
def State.windowAdmits (s : State) (i : Nat) (secure : Bool) (pa n : Nat) : Bool :=
  let w0 := BitVec.ofNat 64 (leNat (s.regs.windows.readN (0x2000 + 32 * i) 8))
  let pages := leNat (s.regs.windows.readN (0x2000 + 32 * i + 8) 4)
  let lo := (w0.extractLsb' 16 32).toNat * 65536
  w0.getLsbD 63 && (!secure || w0.getLsbD 62) && decide (lo ≤ pa) && decide (pa + n ≤ lo + pages * 65536)
    && (!s.secureRange pa n || (secure && w0.getLsbD 62))

/-- May a remote access be performed here? -/
def State.admits (s : State) (f : Flit) (n : Nat) : Bool :=
  decide (0 < n) && (List.range 8).any fun i => s.windowAdmits i (f.opc.getLsbD 7) f.addr.toNat n

/-- Does a store flit carry a byte mask and a line (log 24)? -/
def flitMasked (f : Flit) : Bool := f.data.length == 144 && f.addr.toNat % 128 == 0

/-- The bytes that a store flit writes, as runs of an address each. -/
def flitWrites (f : Flit) : List (Nat × List Byte) :=
  if flitMasked f then
    let m := leNat (f.data.take 16)
    lineRuns ((List.range 128).filterMap fun i =>
      if m.testBit i then some (f.addr.toNat + i, (f.data.drop 16).getD i 0) else none)
  else [(f.addr.toNat, f.data)]

/-- The length of the range that a store flit names. -/
def flitSpan (f : Flit) : Nat := if flitMasked f then 128 else f.data.length

/-- R357: a store flit is performed in a window and acknowledged, or refused. -/
def execRemoteStore (f : Flit) (s : State) : Result :=
  s.comes 1 f fun s1 =>
    if s1.admits f (flitSpan f) then
      ((flitWrites f).foldl (fun (s : State) w => s.physWrite w.1 w.2) s1).reply f 4 0 (headerWord f)
    else s1.reply f 8 0 (headerWord f)

/-- The new value of a remote atomic: a compare-and-swap carries the compared value first. -/
def remoteNew (op z old : Nat) (data : List Byte) : Nat :=
  if op == 8 then (if old == leNat (data.take z) then leNat ((data.drop z).take z) else old)
  else atomicNew op (8 * z) old (leNat (data.take z))

/-- R357: an atomic flit is performed at the memory controller and answered with the old value, or refused. The spec
gives the operations 0 to 8 (R155); another is refused. -/
def execRemoteAtomic (f : Flit) (s : State) : Result :=
  s.comes 2 f fun s1 =>
    let z := if f.opc.getLsbD 4 then 8 else 4
    let op := (f.opc.extractLsb' 0 4).toNat
    let pa := f.addr.toNat
    if !s1.admits f z || decide (8 < op) || f.data.length != (if op == 8 then 2 * z else z) then
      s1.reply f 8 0 (headerWord f)
    else
      let old := leNat (s1.hostData pa z)
      let s2 := ({ s1 with freeCtr := s1.freeCtr + 1 } : State).physWrite pa (leBytes z (remoteNew op z old f.data))
      s2.reply f 3 0 (leBytes z old)

/-! ### Answers at the issuer (R355, R357) -/

/-- The request that an acknowledgement or a refusal names. -/
def State.remote? (s : State) (f : Flit) : Option Remote :=
  s.remotes.find? fun r => r.dst == (flitAnswers f).1 && r.seq == (flitAnswers f).2

/-- The atomic that an answer with an old value is for: the oldest sent to that device, since a pair's flits are performed
and answered in their order (R354; log 39). -/
def State.atomic? (s : State) (f : Flit) : Option Remote := s.remotes.find? fun r => r.dst == f.src && r.atomic

/-- A request that is answered leaves; a store is no longer unacknowledged. -/
def State.closeRemote (s : State) (r : Remote) : State :=
  let s1 : State := { s with remotes := s.remotes.erase r }
  if r.atomic then s1 else s1.onTeam r.team fun t => { t with unacked := t.unacked - 1 }

/-- The old value of a remote atomic step written to its lane, where the instruction returns it (R155, R156); of a HACC
step, whether the peer has placed it (log 72). -/
def Team.laneResult (t : Team) (pos clause lane v : Nat) : Team :=
  match t.outst.find? fun e => e.pos == pos && e.clause == clause with
  | none => t
  | some e =>
    match e.instr with
    | .atom o | .cas o => t.writeRun o.d o.run (fun _ => true) [(lane, v)]
    | .hacc o =>
      let placed := v == 2 ^ 64 - 1 || Config.haccPlaced v
      t.writeP o.ext.fn.toNat (1#1024 <<< lane) (if placed then 1#1024 <<< lane else 0)
    | _ => t

/-- The value of an atomic step delivered. -/
def State.deliver (s : State) (r : Remote) (v : Nat) : State :=
  match r.lane with
  | none => s
  | some (pos, clause, lane) => s.onTeam r.team fun t => t.laneResult pos clause lane v

/-- R355: a store is acknowledged. -/
def execAcknowledgement (f : Flit) (s : State) : Result :=
  s.comes 4 f fun s1 => (s1.remote? f).elim s1 fun r => if r.atomic then s1 else s1.closeRemote r

/-- R355: an atomic is answered with its old value. -/
def execAtomicResponse (f : Flit) (s : State) : Result :=
  s.comes 3 f fun s1 => (s1.atomic? f).elim s1 fun r => (s1.closeRemote r).deliver r (leNat f.data)

/-- A refusal counts as the answer: the store is dropped, or the atomic's lane reads all ones; LKNAK (R357). -/
def State.refuseRemote (s : State) (r : Remote) : State :=
  ((s.closeRemote r).deliver r (2 ^ 64 - 1)).onCtx r.ctx fun c => { c with lknak := true }

/-- The status of a carry: STAT, the ranges released, Kc (R205, R358). -/
def State.carryStat (s : State) (k : CarryOut) (stat : Nat) : State :=
  let s1 := s.onCast k.cast fun c => c.swrite (k.off + 20) (leBytes 4 stat)
  (({ s1 with carries := s1.carries.filter (·.op != k.op) } : State).releaseOp k.op).bump k.team k.kc

/-- The carry to a device one of whose flits has a sequence number. -/
def State.carry? (s : State) (dev : BitVec 19) (seq : BitVec 16) : Option CarryOut :=
  s.carries.find? fun k => k.dev == dev && decide ((seq - k.seq).toNat < k.flits)

/-- R357, R358: a refusal of a store, an atomic or a carry. -/
def execRefusal (f : Flit) (s : State) : Result :=
  s.comes 8 f fun s1 =>
    match s1.remote? f with
    | some r => s1.refuseRemote r
    | none => (s1.carry? (flitAnswers f).1 (flitAnswers f).2).elim s1 fun k => s1.carryStat k 4

/-! ### Carries that arrive (R205, R358) -/

/-- STAT of a carry of `n` bytes to an endpoint, landing at an offset, with its cast (R205, R358). -/
def State.endpoint (s : State) (ep off n : Nat) : Nat × Option Cast :=
  let w0 := BitVec.ofNat 64 (leNat (s.regs.windows.readN (0x020000 + 16 * ep) 8))
  let w1 := BitVec.ofNat 64 (leNat (s.regs.windows.readN (0x020000 + 16 * ep + 8) 8))
  let ctx := (w0.extractLsb' 32 10).toNat
  if !w0.getLsbD 63 then (1, none)
  else
    match (s.ctx ctx).started.find? (·.1 == w1) with
    | none => (2, none)
    | some (_, g) =>
      match s.teams.find? fun t => t.ctx == ctx && t.grid == g && t.index == w0.setWidth 24 with
      | none => (2, none)
      | some t =>
        match s.cast? t.cast with
        | none => (2, none)
        | some c => if c.size < off + n then (3, none) else (0, some c)

/-- The length and BARF of a carry: of this device's own, the descriptor's; of another's, free values (log 29). -/
def State.carryTerms (s : State) (f : Flit) : Nat × BitVec 8 :=
  if f.src == s.regs.devid then (s.carry? f.dst f.seq).elim (f.data.length, 0) fun k => (k.len, k.bar)
  else (16 * ((Config.carryUnits f.src f.seq).toNat + 1), Config.carryBar f.src f.seq)

/-- The port at which the flits of a source come: none of the 16 for those of this device (log 37). -/
def State.portOf (s : State) (src : BitVec 19) : Nat := if src == s.regs.devid then 16 else (Config.arrivalPort src).toNat

/-- A carry that comes takes its place among those that land: after those that came before it, and in one clock by the
number of its port (R358, R359). -/
def State.addCarry (s : State) (k : CarryIn) : State :=
  let late := (s.landing.reverse.takeWhile fun x => x.clk == k.clk && decide (s.portOf k.src < s.portOf x.src)).length
  let n := s.landing.length - late
  { s with landing := s.landing.take n ++ k :: s.landing.drop n }

/-- A carry at its first flit: EP is resolved, and STAT, the landing range and the barrier fixed (R358, R359). -/
def State.openCarry (s : State) (f : Flit) : State :=
  if s.landing.any (·.takes f) then s
  else
    let (len, bar) := s.carryTerms f
    let (stat, c) := s.endpoint (flitEndpoint f) (flitLandAt f) len
    let (op, s1) := s.fresh
    let k : CarryIn :=
      { src := f.src, ep := (flitEndpoint f), stat := stat, cast := c.elim 0 (·.id), core := c.elim 0 (·.core),
        off := (flitLandAt f),
        len := len, bar := bar, op := op, granted := false, data := [], landed := 0, ended := none, clk := s.clk }
    s1.addCarry k

/-- A change of one landing. -/
def State.onLanding (s : State) (op : Nat) (f : CarryIn → CarryIn) : State :=
  { s with landing := replaceIf s.landing (·.op == op) f }

/-- A carry that may land takes a reserved entry for its landing range, where one of the eight is free (R234, R236). -/
def State.grantCarry (s : State) (k : CarryIn) : State :=
  if k.granted || k.stat != 0 || decide (Config.carryEntries ≤ ((s.core k.core).ranges.filter (·.carry)).length) then s
  else
    let r : RangeLock := { op := k.op, dest := true, space := .scratch k.cast, lo := k.off, len := k.len, carry := true }
    (s.register [(k.core, r)]).onLanding k.op fun k => { k with granted := true }

/-- Does an earlier carry into the same cast land, or a thread access that must be performed first stand in the landing range
(R235, R358)? In the clock of its first flit another carry may still come before it (R359). A halted device keeps its scratch
as it is (R361). -/
def State.landingHeld (s : State) (k : CarryIn) : Bool :=
  !k.granted || s.stopped || k.clk == s.clk || ((s.landing.takeWhile (·.op != k.op)).any fun e => e.stat == 0 && e.cast == k.cast)
    || s.heldByAccess (((s.core k.core).ranges.filter (·.op == k.op)).map (k.core, ·))

/-- The bytes of a landing that have come, in its cast. -/
def State.landBytes (s : State) (k : CarryIn) : State :=
  let s1 := k.data.foldl (fun (s : State) d => s.onCast k.cast fun c => c.swrite d.1 d.2) s
  let n : Nat := ((k.data.map fun d => d.2.length) : List Nat).foldl (· + ·) 0
  s1.onLanding k.op fun k => { k with data := [], landed := k.landed + n }

/-- The end of a carry: TX of its barrier lowered by the bytes landed, then the entry released and the status sent back
(R201, R205, R358). -/
def State.endCarry (s : State) (k : CarryIn) (f : Flit) : State :=
  let b := (k.bar.setWidth 7).toNat
  let s1 := if k.stat == 0 && k.bar.getLsbD 7 && decide (b < (s.cast? k.cast).elim 0 (·.nb)) then
      s.barChange k.cast b (.land k.landed)
    else s
  let s2 : State := { s1 with landing := s1.landing.filter (·.op != k.op) }
  (s2.releaseOp k.op).reply f 7 (BitVec.ofNat 8 k.stat) (headerWord f)

/-- What a carry can do now: take its entry, land the bytes that have come, and end. -/
def State.landOne (s : State) (op : Nat) : State :=
  match s.landing.find? (·.op == op) with
  | none => s
  | some k0 =>
    let s1 := s.grantCarry k0
    let k := (s1.landing.find? (·.op == op)).getD k0
    if k.stat == 0 && s1.landingHeld k then s1
    else
      let s2 := if k.stat == 0 then s1.landBytes k else s1
      match k.ended with
      | none => s2
      | some f => s2.endCarry ((s2.landing.find? (·.op == op)).getD k) f

/-- The carries that have come, each in the order of its first flit (R358). -/
def State.landAll (s : State) : State := (s.landing.map (·.op)).foldl (fun (s : State) op => s.landOne op) s

/-- A flit of a carry joins it; of a carry with another STAT than 0 no byte lands (R205). -/
def State.carryFlit (s : State) (f : Flit) (last : Bool) : State :=
  let s1 := s.openCarry f
  ({ s1 with landing := replaceIf s1.landing (·.takes f) fun k =>
      { k with data := if k.stat == 0 then k.data ++ [((flitLandAt f), f.data)] else []
               ended := if last then some f else none } } : State).landAll

/-- R358: a carry-data flit. -/
def execCarryData (f : Flit) (s : State) : Result := s.comes 5 f fun s1 => s1.carryFlit f false

/-- R358: the last flit of a carry: it lands, the entry is released, the status goes back. -/
def execCarryEnd (f : Flit) (s : State) : Result := s.comes 6 f fun s1 => s1.carryFlit f true

/-- R358: the status of a carry reaches its sender. -/
def execCarryStatus (f : Flit) (s : State) : Result :=
  s.comes 7 f fun s1 => (s1.carry? (flitAnswers f).1 (flitAnswers f).2).elim s1 fun k => s1.carryStat k f.opc.toNat

/-! ### Forwarding, discarding, replay (R352 to R354) -/

/-- A flit that comes in at a port and is not for this device. -/
def State.foreign (s : State) (f : Flit) : Bool :=
  f.dst != s.regs.devid && s.mainOn && s.ports.any (·.state == .up)

/-- R354: a flit goes on by the route tables with its TTL lowered, or is refused. -/
def execFlitForward (f : Flit) (s : State) : Result :=
  if !s.foreign f || flitDiscarded f then .next s
  else
    match if f.ttl == 0 then none else s.portFor f.dst with
    | some p => .next (s.emit (.flit p { f with ttl := f.ttl - 1 }))
    | none => .next (s.refuseFlit f)

/-- R352: a flit that fails its CRC is not delivered; the link repeats it. -/
def execFlitReplay (_port : Nat) (s : State) : Result := .next s

/-- R353: a flit of a reserved TYPE, or with a reserved field that is not zero, is discarded and counted. -/
def execFlitDiscard (f : Flit) (s : State) : Result :=
  if flitDiscarded f && s.mainOn && s.ports.any (·.state == .up) then
    let s1 := if f.dst == s.regs.devid && s.newFlit f then s.received f else s
    .next { s1 with tele := { s1.tele with discarded := s1.tele.discarded + 1 } }
  else .next s

/-! ### Ports (R348, R349, R359) -/

/-- R349: an enabled port has trained with a neighbour; the change is a device event (R348). -/
def execPortUp (port : Nat) (peer : BitVec 19) (s : State) : Result :=
  let p := s.ports.getD port Port.reset
  if 16 ≤ port || !p.en || p.state != .training || !s.mainOn then .next s
  else
    .next ({ s with ports := setAt s.ports port { p with state := .up, peer := peer } Port.reset }.emit (.msix 0 0))

/-- V cleared in the route bytes that name a port (R359). -/
def unroute (port : Nat) (r : List Byte) : List Byte :=
  replaceIf r (fun b => b.getLsbD 7 && (b.extractLsb' 0 4).toNat == port) fun b => b &&& 0x7F

/-- R359: a port goes down; the requests routed through it are answered as refusals. -/
def execPortDown (port : Nat) (s : State) : Result :=
  let p := s.ports.getD port Port.reset
  if 16 ≤ port || p.state == .down then .next s
  else
    let lost := s.carries.filter fun k => k.dev != s.regs.devid && s.portFor k.dev == some port
    let s1 : State :=
      { s with
        ports := setAt s.ports port { p with state := .down, peer := 0 } Port.reset
        regs := { s.regs with routeg := unroute port s.regs.routeg, routem := unroute port s.regs.routem } }
    let s2 := (s.remotes.filter (·.port == port)).foldl State.refuseRemote s1
    .next ((lost.foldl (fun s k => s.carryStat k 4) s2).emit (.msix 0 0))

end Sys2Proof.Machine
end

