-- ==== Sys2Proof/Machine/Mgmt.lean ====
section
/-! DEFINITION. Worlds, the boot flash, bring-up, resets, the side-band port and attestation (spec 17; R340, R362 to
R373). -/

namespace Sys2Proof.Machine

/-! ### The world region table (R363) -/

/-- Is a 1,040-byte table in the layout of R363? -/
def worldTableOk (b : List Byte) : Bool :=
  b.length == 1040 && zeroBytes b 8 8 && (List.range 64).all fun e =>
    let w0 := field b (16 + 16 * e) 8
    let w1 := field b (24 + 16 * e) 8
    bitsOf w0 62 48 == 0 && bitsOf w0 15 0 == 0 && bitsOf w1 63 48 == 0 && bitsOf w1 15 0 == 0

/-- The table of its bytes. -/
def worldTableOf (b : List Byte) : WorldTable :=
  { sdom := BitVec.ofNat 32 (field b 0 4), dual := BitVec.ofNat 32 (field b 4 4)
    entries := (List.range 64).filterMap fun e =>
      let w0 := field b (16 + 16 * e) 8
      if w0.testBit 63 then some (e, bitsOf w0 47 16, bitsOf (field b (24 + 16 * e) 8) 47 16) else none
    bytes := b }

/-! ### Images (R366, R367) -/

/-- The body of an image. -/
def imageBody (b : List Byte) : List Byte := (b.drop 0x200).take (field b 8 4)

/-- ROOTKH, the digest in the boot ROM. -/
def rootkh : List Byte := Config.opaqueBytes 0 []

/-- Is an image valid for a kind and its counter (R366)? No bytes stand for the delivered image, whose SVN is 0
(log 3). -/
def imageValid (magic counter : Nat) (b : List Byte) : Bool :=
  if b.isEmpty then counter == 0
  else
    (field b 0 4 == magic && zeroBytes b 0x0C 4 && zeroBytes b 0x49 7 && zeroBytes b 0x102 254
      && (imageBody b).length == field b 8 4
      && Config.shake256 ((b.drop 0x10).take 64) 64 == rootkh
      && (b.drop 0x50).take 64 == Config.shake256 (imageBody b) 64
      && Config.ed448Verifies ((b.drop 0x10).take 57) (b.take 0x90) ((b.drop 0x90).take 114)
      && decide (counter ≤ field b 4 4))

/-- A site map of 24 bytes, by die. -/
def sitesOf (b : List Byte) : List (BitVec 48) := (List.range 4).map fun d => BitVec.ofNat 48 (field b (6 * d) 6)

/-- Number of sites of a die's map. -/
def siteCount (m : BitVec 48) : Nat := ((List.range 48).filter fun i => m.getLsbD i).length

/-- Is a configuration body in range (R367)? R367 asks for 44 sites of each die, and the 11 of each cluster that R2 speaks of
are not asked for beside (DESIGN CHOICE, log 90). -/
def configOk (b : List Byte) : Bool :=
  let flags := field b 0x1C 4
  b.length == 0x490 && (sitesOf b).all (siteCount · == 44)
    && (List.range 16).all (fun k => bitsOf (field b 0x18 4) (2 * k + 1) (2 * k) != 3)
    && decide (bitsOf flags 3 1 ≤ 4) && bitsOf flags 31 4 == 0 && zeroBytes b 0x70 8 && zeroBytes b 0x7A 6
    && worldTableOk (b.drop 0x80)

/-- The configuration copy that a bring-up takes: copy 0, else copy 1 (R369). -/
def Mgmt.configCopy (m : Mgmt) : Option (List Byte) :=
  m.config.find? fun b => imageValid 0x43460001 (m.counters.getD 1 0) b && (b.isEmpty || configOk (imageBody b))

/-- Is a firmware slot valid (R366, R373)? -/
def Mgmt.slotValid (m : Mgmt) (slot : Nat) : Bool :=
  m.dead != some slot && imageValid 0x46570001 (m.counters.getD 0 0) (m.fw.getD slot [])

/-- The slot that a bring-up boots: the marked one (BOOTSEL on first use), else the other (R369). -/
def Mgmt.bootSlot (m : Mgmt) : Option Nat :=
  let first := if m.firstUse then m.bootsel.toNat else m.marked
  if m.slotValid first then some first else if m.slotValid (1 - first) then some (1 - first) else none

/-- A counter raised to the SVN of an accepted image (R366). -/
def Mgmt.accept (m : Mgmt) (kind : Nat) (b : List Byte) : Mgmt :=
  { m with counters := setAt m.counters kind (max (m.counters.getD kind 0) (field b 4 4)) 0 }

/-! ### Bring-up (R369) -/

/-- A vendor command's completion, with VENDID (R370). -/
def State.answer (s : State) (code : Nat) (data : List Byte) : State := s.emit (.sideband s.mgmt.vendid code data)

/-- The world table that waited no longer does: what waited for it comes next (R370). -/
def State.unwait (s : State) : State :=
  { s with agenda := s.mgmt.waiting ++ s.agenda, mgmt := { s.mgmt with wrtNext := none, waiting := [] } }

/-- The recovery state, with its event (R369, R370). -/
def State.recover (s : State) : State := { s with mgmt := { s.mgmt with recovery := true }, mainOn := false }.emit .inBand

/-- The registers that an accepted configuration gives, the kept ones beside (R367, R369). -/
def Regs.configured (r : Regs) (b : List Byte) : Regs :=
  let base : Regs := { Regs.reset with ckstat := r.ckstat, ckseq := r.ckseq }
  if b.isEmpty then base
  else
    let body := imageBody b
    let flags := field body 0x1C 4
    let mode : BitVec 3 := BitVec.ofNat 3 (bitsOf flags 3 1)
    { base with
      sites := sitesOf body, clw := BitVec.ofNat 32 (field body 0x18 4), cken := flags.testBit 0, pmode := mode,
      pmodeOn := mode, mhz := modeClock mode, svcns := BitVec.ofNat 64 (field body 0x20 8),
      svcs := BitVec.ofNat 64 (field body 0x28 8) }

/-- Steps 3 to 7 of R369. -/
def State.bringUp (s : State) : State :=
  match s.mgmt.configCopy, s.mgmt.bootSlot with
  | some cfg, some slot =>
    let m1 := (s.mgmt.accept 1 cfg).accept 0 (s.mgmt.fw.getD slot [])
    let body := imageBody cfg
    let m2 : Mgmt :=
      { m1 with
        recovery := false, running := slot, image := s.mgmt.fw.getD slot [], cfg := cfg,
            marked := if m1.firstUse then m1.bootsel.toNat else m1.marked,
        firstUse := false, ownkh := (body.drop 0x30).take 64, vendid := BitVec.ofNat 16 (field body 0x78 2) }
    let s1 : State :=
      { s with
        mgmt := m2, regs := s.regs.configured cfg, mainOn := true,
        wrt := if cfg.isEmpty then WorldTable.reset else worldTableOf (body.drop 0x80) }
    if Config.bringUpFails 6 s.freeCtr then { s1 with freeCtr := s1.freeCtr + 1 }.recover
    else { s1 with freeCtr := s1.freeCtr + 1 }
  | _, _ => s.recover

/-- The device with everything of a reset lost but memory from an address on, the kept registers, the flash and the
straps, and what is the model's own. Lines of the caches are lost with their dirty bytes (R373: caches are reset; log 71). -/
def State.cleared (s : State) (from' : Nat) : State :=
  { State.reset with
    agenda := s.agenda, freeCtr := s.freeCtr, nextId := s.nextId, ns := s.ns, hostMem := s.hostMem, out := s.out,
    mem := s.mem.filter (fun c => decide (from' ≤ c.1)), poison := s.poison.filter fun b => decide (from' ≤ 32 * b),
    regs := { Regs.reset with ckstat := s.regs.ckstat, ckseq := s.regs.ckseq },
    mgmt := { s.mgmt with resetDue := none, flrDue := [], wrtNext := none, waiting := [], session := false },
        stopped := false, mainOn := s.mainOn, retvOn := s.retvOn }

/-- First address of LPDDR6, and the address past all memory. -/
def lpddrBase : Nat := 2 ^ 40

/-- A cold reset (R373): everything but LPDDR6 and the kept fields; bring-up from step 1. The rails are there again. -/
def State.coldStart (s : State) : State :=
  let s1 := s.cleared (if s.retvOn then lpddrBase else 2 ^ 41)
  let m : Mgmt :=
    { s1.mgmt with dead := if s1.mgmt.staging then some (1 - s1.mgmt.marked) else s1.mgmt.dead, staging := false,
                   dynaddr := none }
  let s2 : State := { s1 with ns := 0, mgmt := m, retvOn := true, freeCtr := s1.freeCtr + 1 }
  if m.recov || Config.bringUpFails 2 s1.freeCtr then s2.recover else s2.bringUp

/-- Is page p secure under a table? -/
def WorldTable.secure (w : WorldTable) (p : Nat) : Bool := w.entries.any fun (_, b, l) => decide (b ≤ p) && decide (p ≤ l)

/-- Does the state of a page change between two tables? -/
def pageChanges (a b : WorldTable) (p : Nat) : Bool := a.secure p != b.secure p

/-- Does a TLB entry map a page whose state changes? -/
def TlbEntry.changes (e : TlbEntry) (a b : WorldTable) : Bool :=
  if e.large then (List.range 4096).any fun k => pageChanges a b ((e.leaf.extractLsb' 28 20).toNat * 4096 + k)
  else pageChanges a b (e.leaf.extractLsb' 16 32).toNat

/-- Steps 3 and 4 of R364: the lines and TLB entries of each page whose state changes go, and the table applies; an access
that is not performed is checked anew (log 77). -/
def State.switchTable (s : State) (w : WorldTable) : State :=
  let s1 := s.dropLines fun l => pageChanges s.wrt w (l.base / 65536)
  let recheck (o : Outst) : Outst := if o.failed then o else { o with outs := [] }
  (({ s1 with
    wrt := w, tlb := s1.tlb.filter fun e => !e.changes s.wrt w,
    teams := s1.teams.map fun t => { t with outst := t.outst.map recheck } } : State).unwait).answer 0 []

/-- A warm reset (R373): memory and the timebase stay, and the bring-up from step 3 applies the configuration's table again.
A WRTSET that a halted device cannot complete applies at once. -/
def State.warmStart (s : State) : State := ((s.mgmt.wrtNext.elim s s.switchTable).cleared 0).bringUp

/-- Does a reset wait: any for the end of a checkpoint, a warm one for a WRTSET in progress, where the device runs (R373)? -/
def State.resetWaits (s : State) (cold : Bool) : Bool := s.ck == some .checkpoint || (!cold && s.switching && !s.stopped)

/-- A reset is requested (R373). -/
def State.requestReset (s : State) (cold : Bool) : State :=
  if s.resetWaits cold then
    { s with mgmt := { s.mgmt with resetDue := some (cold || s.mgmt.resetDue == some true) } }
  else if cold then s.coldStart else s.warmStart

/-- R373. -/
def execColdReset (s : State) : Result := .next (s.requestReset true)

/-- R373. -/
def execWarmReset (s : State) : Result := .next (s.requestReset false)

/-- A context of a reset function faults, and its page steps in progress run to their ends (R319, R373). -/
def State.flrFault (s : State) (ctx : Nat) : State := (s.contextFault ctx (homeDie ctx) 6 0 0).finishSteps ctx

/-- A context of a reset function is reset and unregistered (R276, R373). -/
def State.flrContext (s : State) (ctx : Nat) : State := (s.resetContext ctx).onCtx ctx Context.unregistered

/-- The contexts of a virtual function. -/
def State.ownedBy (s : State) (vf : Nat) : List Nat :=
  (s.contexts.filter fun c => c.cfunc.toNat == vf && c.state != .free).map (·.no)

/-- R373: the contexts of a virtual function are reset with REASON 6 and unregistered, after a checkpoint that is under
way, and after page steps that wait for the host (R319). -/
def execVfFunctionLevelReset (vf : Nat) (s : State) : Result :=
  let due (s : State) (l : List Nat) : State := { s with mgmt := { s.mgmt with flrDue := l } }
  let later := s.mgmt.flrDue.erase vf
  if vf == 0 || !s.hostUp then .next (due s later)
  else if s.ck == some .checkpoint then .next (due s (later ++ [vf]))
  else
    let s1 := (s.ownedBy vf).foldl State.flrFault s
    if (s.ownedBy vf).any s1.stepsWait then .next (due s1 (later ++ [vf]))
    else .next (due ((s.ownedBy vf).foldl State.flrContext s1) later)

/-! ### Power (R340, R342) -/

/-- R340, R342: the main rails fail; a checkpoint or a load that had not ended has failed. Only what RETV holds stays. -/
def execMainRailFailure (s : State) : Result :=
  let s1 := s.cleared (if s.retvOn then lpddrBase else 2 ^ 41)
  let st := bitsOf s.regs.ckstat.toNat 31 30
  let ck : Word := if s.retvOn then (if st == 1 then s.regs.ckstat ||| 0xC0000000#32 else s.regs.ckstat) else 0
  .next { s1 with
    regs := { s1.regs with ckstat := ck, ckseq := if s.retvOn then s.regs.ckseq else 0 }
    stopped := true, mainOn := false }

/-- R340: without RETV the LPDDR6 contents and the kept fields are lost. -/
def execRetvLoss (s : State) : Result :=
  .next { s with
    mem := s.mem.filter (fun c => decide (c.1 < lpddrBase)),
        poison := s.poison.filter fun b => decide (32 * b < lpddrBase),
    regs := { s.regs with ckstat := 0, ckseq := 0 }, retvOn := false }

/-! ### Side-band commands (R370) -/

/-- A command that the recovery state does not accept (R369, R370). -/
def State.unlessRecovery (s : State) (f : State → State) : Result :=
  .next (if s.mgmt.recovery then s.answer 2 [] else f s)

/-- R370: stepping, DEVID, SITES, the SVN of each image, and the recovery state, in that order (log 36). -/
def execIdent (s : State) : Result :=
  .next (s.answer 0 (Config.stepping :: (leBytes 4 s.regs.devid.toNat ++ s.regs.sites.flatMap (fun m => leBytes 6 m.toNat)
    ++ leBytes 4 s.svn ++ leBytes 4 (field s.mgmt.cfg 4 4) ++ leBytes 1 s.mgmt.recovery.toNat)))

/-- R370: power, temperatures, clocks and counts; the readings are free values (log 15). -/
def execTelem (s : State) : Result :=
  .next (({ s with freeCtr := s.freeCtr + 1 } : State).answer 0
    (Config.sensors s.freeCtr ++ leBytes 4 s.regs.mhz ++ leBytes 4 s.tele.correctable ++ leBytes 4 s.tele.uncorrectable
      ++ leBytes 4 s.tele.discarded ++ leBytes 4 s.tele.refused ++ leBytes 4 s.tele.noMemory))

/-- R370: argument 0 warm, 1 cold. -/
def execSbReset (arg : Byte) (s : State) : Result :=
  if 2 ≤ arg.toNat then .next (s.answer 1 []) else .next ((s.answer 0 []).requestReset (arg == 1))

/-- A chunk put into an image; bytes not written read zero. -/
def putChunk (b : List Byte) (off : Nat) (chunk : List Byte) : List Byte :=
  b.take off ++ List.replicate (off - b.length) 0 ++ chunk ++ b.drop (off + chunk.length)

/-- R370: a chunk of up to 1,024 bytes goes to the slot not marked for boot. -/
def execFwstage (off : Nat) (chunk : List Byte) (s : State) : Result :=
  if chunk.isEmpty || decide (1024 < chunk.length) then .next (s.answer 1 [])
  else
    let m := s.mgmt
    let slot := 1 - m.marked
    let m' : Mgmt :=
      { m with fw := setAt m.fw slot (putChunk (m.fw.getD slot []) off chunk) [], staging := true,
               dead := if m.dead == some slot then none else m.dead }
    .next (({ s with mgmt := m' } : State).answer 0 [])

/-- R370: the staged slot is validated and marked for the next boot, or the command is refused. -/
def execFwcommit (s : State) : Result :=
  let slot := 1 - s.mgmt.marked
  if s.mgmt.slotValid slot then
    .next (({ s with mgmt := { s.mgmt with marked := slot, staging := false, firstUse := false } } : State).answer 0 [])
  else .next (s.answer 1 [])

/-- R341, R370: a checkpoint trigger; refused where the trigger is ignored (log 36). -/
def execCktrig (s : State) : Result :=
  s.unlessRecovery fun s => let s1 := s.trigger; s1.answer (if s1.ck == s.ck then 1 else 0) []

/-- R364, R370: a new world region table waits to take effect. -/
def execWrtset (authorised : Bool) (table : List Byte) (s : State) : Result :=
  if s.mgmt.wrtNext.isSome then .next s
  else s.unlessRecovery fun s =>
    if authorised && s.mgmt.session && worldTableOk table then
      { s with mgmt := { s.mgmt with wrtNext := some (worldTableOf table) } }
    else s.answer 1 []

/-- R364: the new table applies once every access started under the old one is performed, and what waited goes on. -/
def execWorldTableSwitch (s : State) : Result :=
  match s.mgmt.wrtNext with
  | none => .next s
  | some w => .next (if s.accessOpen then s else s.switchTable w)

/-- R360, R370: PMODE; 5 to 7 are refused (log 36). -/
def execPmset (value : Word) (s : State) : Result :=
  s.unlessRecovery fun s =>
    if 5 ≤ (value.setWidth 3 : BitVec 3).toNat then s.answer 1 [] else (s.setPmode value).answer 0 []

/-! ### SPDM, MCTP and the bus address (R370, R371) -/

/-- The body of an image; that of the delivered image is a free value (log 3, log 16). -/
def delivered (kind : Nat) (b : List Byte) : List Byte := if b.isEmpty then Config.opaqueBytes (4 + kind) []
    else imageBody b

/-- DIGEST of an image (R366). -/
def imageDigest (kind : Nat) (b : List Byte) : List Byte :=
  if b.isEmpty then Config.shake256 (delivered kind b) 64 else (b.drop 0x50).take 64

/-- The seed of a certificate slot's key (R368, R371): slot 0 the DevID seed, slot 1 the seed of the key of the images that
run. -/
def State.keySeed (s : State) (slot : Nat) : List Byte :=
  let devid := (Config.pufSeed s.mgmt.puf).take 57
  if slot == 0 then devid
  else Config.shake256 (devid ++ imageDigest 2 s.mgmt.image ++ imageDigest 3 s.mgmt.cfg) 57

/-- The certificate chain of a slot (R366, R368, R371): the DevID chain of the flash; the key of slot 1, certified with
DevID. -/
def State.chain (s : State) (slot : Nat) : List Byte :=
  let pub := Config.ed448Public (s.keySeed 1)
  if slot == 0 then (if s.mgmt.chain.isEmpty then Config.opaqueBytes 2 [] else s.mgmt.chain)
  else Config.opaqueBytes 3 (pub ++ Config.ed448Sign (s.keySeed 0) pub)

/-- What a measurement index measures (R371). -/
def State.measured (s : State) (index : Nat) : List Byte :=
  match index with
  | 1 => Config.opaqueBytes 1 []
  | 2 => delivered 2 s.mgmt.image
  | 3 => delivered 3 s.mgmt.cfg
  | 4 => s.wrt.bytes
  | _ => [BitVec.ofNat 8 s.mgmt.bootsel.toNat, s.mgmt.sbaddr.setWidth 8, BitVec.ofNat 8 s.mgmt.recov.toNat]
           ++ s.regs.sites.flatMap fun m => leBytes 6 m.toNat

/-- A measurement: the SHAKE256 digest in 64 bytes (R371). -/
def State.measurement (s : State) (index : Nat) : List Byte := Config.shake256 (s.measured index) 64

/-- The measurements that a request names: one, or all with 0xFF. -/
def State.measurements (s : State) (index : Nat) : Option (List Byte) :=
  if index == 0xFF then some ((List.range 5).flatMap fun k => s.measurement (k + 1))
  else if index == 0 then some [5]
  else if index ≤ 5 then some (s.measurement index)
  else none

/-- What the responder negotiates (R371): versions 1.2 and 1.3, BaseAsymAlgo EdDSA Ed448, BaseHashAlgo SHA3-512, and the
capabilities CERT, CHAL, MEAS with signature, ENCRYPT, MAC and KEY_EX, as SPDM encodes them (PRESUMED, log 76). -/
def spdmOffer : List Byte := [0x12, 0x13] ++ leBytes 4 0x800 ++ leBytes 4 0x20 ++ leBytes 4 0x2D6

/-- An SPDM response; its framing is a free value (log 16). -/
def State.spdm (s : State) (code : Nat) (data : List Byte)
    : State := s.emit (.spdm (Config.opaqueBytes (0x100 + code) data))

/-- R371: the responder. A request for what it does not have, or outside the sessions it offers, gets an error. -/
def execSpdmRequest (req : SpdmRequest) (s : State) : Result :=
  let error (data : List Byte) : State := s.spdm 0xFF data
  if s.mgmt.recovery then .next s
  else match req with
  | .negotiate => .next (s.spdm 0 spdmOffer)
  | .certificate slot => .next (if slot < 2 then s.spdm 1 (s.chain slot) else error [])
  | .challenge slot nonce => .next (if slot < 2 then s.spdm 2 (Config.ed448Sign (s.keySeed slot) nonce) else error [])
  | .measurements index slot =>
    match if slot < 2 then s.measurements index else none with
    | some m => .next (s.spdm 3 (m ++ Config.ed448Sign (s.keySeed slot) m))
    | none => .next (error [])
  | .keyExchange key overMctp =>
    if overMctp then
      let own := Config.shake256 key 64 == s.mgmt.ownkh
      .next (({ s with mgmt := { s.mgmt with session := own } } : State).spdm 4 [])
    else .next (error [])
  | .other code => .next (error [code])

/-- R370: an MCTP control message is answered by the one endpoint. -/
def execMctpControl (msg : List Byte) (s : State) : Result := .next (s.emit (.mctp (Config.opaqueBytes 0x200 msg)))

/-- R370: the target takes a dynamic address. -/
def execDynamicAddressAssignment (addr : BitVec 7) (s : State) : Result :=
  .next { s with mgmt := { s.mgmt with dynaddr := some addr } }

end Sys2Proof.Machine
end

