-- ==== Sys2Proof/Machine/Pred.lean ====
section
/-! DEFINITION. Class 0: predicate operations (spec 05, R122). -/

namespace Sys2Proof.Machine

/-- A predicate operation (R122): sources inverted by NA and NB; PMOV reads a value as non-zero. -/
def predOp (i : Instr) (o : F1) (f : Bool → Bool → Bool) (s : State) : Result :=
  let x := o.ext .b32
  issueF1 i s fun t => t.put o.d false fun l =>
    (f ((t.word false l o.a != 0) != x.na) ((t.word false l o.b != 0) != x.nb)).toNat

/-- R122. -/
def execPand (o : F1) (s : State) : Result := predOp (.pand o) o (· && ·) s
/-- R122. -/
def execPor (o : F1) (s : State) : Result := predOp (.por o) o (· || ·) s
/-- R122. -/
def execPxor (o : F1) (s : State) : Result := predOp (.pxor o) o (· != ·) s
/-- R122. -/
def execPnot (o : F1) (s : State) : Result := predOp (.pnot o) o (fun a _ => !a) s
/-- R122. -/
def execPmov (o : F1) (s : State) : Result := predOp (.pmov o) o (fun a _ => a) s

end Sys2Proof.Machine
end

