-- ==== Sys2Proof/Machine/Dispatch.lean ====
section
/-! DEFINITION. The dispatch: one arm for each instruction and event of the table. -/

namespace Sys2Proof.Machine

def exec (i : Instr) (s : State) : Host.Outcome State Fault Refusal :=
  match i with
  | .mov o => Sys2Proof.Machine.execMov o s
  | .sel o => Sys2Proof.Machine.execSel o s
  | .iadd o => Sys2Proof.Machine.execIadd o s
  | .isub o => Sys2Proof.Machine.execIsub o s
  | .iadc o => Sys2Proof.Machine.execIadc o s
  | .isbc o => Sys2Proof.Machine.execIsbc o s
  | .imul o => Sys2Proof.Machine.execImul o s
  | .imulh o => Sys2Proof.Machine.execImulh o s
  | .imad o => Sys2Proof.Machine.execImad o s
  | .imin o => Sys2Proof.Machine.execImin o s
  | .imax o => Sys2Proof.Machine.execImax o s
  | .iabs o => Sys2Proof.Machine.execIabs o s
  | .ineg o => Sys2Proof.Machine.execIneg o s
  | .andL o => Sys2Proof.Machine.execAndL o s
  | .orL o => Sys2Proof.Machine.execOrL o s
  | .xorL o => Sys2Proof.Machine.execXorL o s
  | .andn o => Sys2Proof.Machine.execAndn o s
  | .notL o => Sys2Proof.Machine.execNotL o s
  | .shl o => Sys2Proof.Machine.execShl o s
  | .shr o => Sys2Proof.Machine.execShr o s
  | .sar o => Sys2Proof.Machine.execSar o s
  | .rot o => Sys2Proof.Machine.execRot o s
  | .bfx o => Sys2Proof.Machine.execBfx o s
  | .bfi o => Sys2Proof.Machine.execBfi o s
  | .popc o => Sys2Proof.Machine.execPopc o s
  | .clz o => Sys2Proof.Machine.execClz o s
  | .brev o => Sys2Proof.Machine.execBrev o s
  | .lea o => Sys2Proof.Machine.execLea o s
  | .iset o => Sys2Proof.Machine.execIset o s
  | .bytep o => Sys2Proof.Machine.execBytep o s
  | .fadd o => Sys2Proof.Machine.execFadd o s
  | .fsub o => Sys2Proof.Machine.execFsub o s
  | .fmul o => Sys2Proof.Machine.execFmul o s
  | .ffma o => Sys2Proof.Machine.execFfma o s
  | .fmin o => Sys2Proof.Machine.execFmin o s
  | .fmax o => Sys2Proof.Machine.execFmax o s
  | .fset o => Sys2Proof.Machine.execFset o s
  | .frcp o => Sys2Proof.Machine.execFrcp o s
  | .frsq o => Sys2Proof.Machine.execFrsq o s
  | .fsqrt o => Sys2Proof.Machine.execFsqrt o s
  | .fexp2 o => Sys2Proof.Machine.execFexp2 o s
  | .flog2 o => Sys2Proof.Machine.execFlog2 o s
  | .fscale o => Sys2Proof.Machine.execFscale o s
  | .fexpo o => Sys2Proof.Machine.execFexpo o s
  | .fclass o => Sys2Proof.Machine.execFclass o s
  | .frnd o => Sys2Proof.Machine.execFrnd o s
  | .cvt o => Sys2Proof.Machine.execCvt o s
  | .pack o => Sys2Proof.Machine.execPack o s
  | .unpk o => Sys2Proof.Machine.execUnpk o s
  | .hfma2 o => Sys2Proof.Machine.execHfma2 o s
  | .hadd2 o => Sys2Proof.Machine.execHadd2 o s
  | .hmul2 o => Sys2Proof.Machine.execHmul2 o s
  | .dot4 o => Sys2Proof.Machine.execDot4 o s
  | .dot2 o => Sys2Proof.Machine.execDot2 o s
  | .pand o => Sys2Proof.Machine.execPand o s
  | .por o => Sys2Proof.Machine.execPor o s
  | .pxor o => Sys2Proof.Machine.execPxor o s
  | .pnot o => Sys2Proof.Machine.execPnot o s
  | .pmov o => Sys2Proof.Machine.execPmov o s
  | .sval o => Sys2Proof.Machine.execSval o s
  | .shfl o => Sys2Proof.Machine.execShfl o s
  | .bcast o => Sys2Proof.Machine.execBcast o s
  | .vote o => Sys2Proof.Machine.execVote o s
  | .reduce o => Sys2Proof.Machine.execReduce o s
  | .scan o => Sys2Proof.Machine.execScan o s
  | .lrscan o => Sys2Proof.Machine.execLrscan o s
  | .segred o => Sys2Proof.Machine.execSegred o s
  | .segscan o => Sys2Proof.Machine.execSegscan o s
  | .compact o => Sys2Proof.Machine.execCompact o s
  | .matchP o => Sys2Proof.Machine.execMatchP o s
  | .exset o => Sys2Proof.Machine.execExset o s
  | .exdeal o => Sys2Proof.Machine.execExdeal o s
  | .exclr o => Sys2Proof.Machine.execExclr o s
  | .ld o => Sys2Proof.Machine.execLd o s
  | .st o => Sys2Proof.Machine.execSt o s
  | .lda o => Sys2Proof.Machine.execLda o s
  | .waitk o => Sys2Proof.Machine.execWaitk o s
  | .atom o => Sys2Proof.Machine.execAtom o s
  | .atomn o => Sys2Proof.Machine.execAtomn o s
  | .cas o => Sys2Proof.Machine.execCas o s
  | .hacc o => Sys2Proof.Machine.execHacc o s
  | .gather o => Sys2Proof.Machine.execGather o s
  | .scatr o => Sys2Proof.Machine.execScatr o s
  | .lockl o => Sys2Proof.Machine.execLockl o s
  | .unlockl o => Sys2Proof.Machine.execUnlockl o s
  | .pfetch o => Sys2Proof.Machine.execPfetch o s
  | .fence o => Sys2Proof.Machine.execFence o s
  | .cflush o => Sys2Proof.Machine.execCflush o s
  | .cinval o => Sys2Proof.Machine.execCinval o s
  | .wbload o => Sys2Proof.Machine.execWbload o s
  | .wbdrop o => Sys2Proof.Machine.execWbdrop o s
  | .mma o => Sys2Proof.Machine.execMma o s
  | .mmas o => Sys2Proof.Machine.execMmas o s
  | .accz o => Sys2Proof.Machine.execAccz o s
  | .accld o => Sys2Proof.Machine.execAccld o s
  | .accst o => Sys2Proof.Machine.execAccst o s
  | .accdr o => Sys2Proof.Machine.execAccdr o s
  | .accrd o => Sys2Proof.Machine.execAccrd o s
  | .accrdSt o => Sys2Proof.Machine.execAccrdSt o s
  | .attn o => Sys2Proof.Machine.execAttn o s
  | .attnfin o => Sys2Proof.Machine.execAttnfin o s
  | .psel o => Sys2Proof.Machine.execPsel o s
  | .kvapp o => Sys2Proof.Machine.execKvapp o s
  | .demote o => Sys2Proof.Machine.execDemote o s
  | .kvres o => Sys2Proof.Machine.execKvres o s
  | .copy o => Sys2Proof.Machine.execCopy o s
  | .copyy o => Sys2Proof.Machine.execCopyy o s
  | .bseal o => Sys2Proof.Machine.execBseal o s
  | .waitb o => Sys2Proof.Machine.execWaitb o s
  | .binit o => Sys2Proof.Machine.execBinit o s
  | .arrive o => Sys2Proof.Machine.execArrive o s
  | .arrdrop o => Sys2Proof.Machine.execArrdrop o s
  | .bwait o => Sys2Proof.Machine.execBwait o s
  | .qsrch o => Sys2Proof.Machine.execQsrch o s
  | .lksend o => Sys2Proof.Machine.execLksend o s
  | .spawn o => Sys2Proof.Machine.execSpawn o s
  | .glaunch o => Sys2Proof.Machine.execGlaunch o s
  | .gscan o => Sys2Proof.Machine.execGscan o s
  | .xacq o => Sys2Proof.Machine.execXacq o s
  | .xrel o => Sys2Proof.Machine.execXrel o s
  | .tqpush o => Sys2Proof.Machine.execTqpush o s
  | .nop => Sys2Proof.Machine.execNop s
  | .prep b off => Sys2Proof.Machine.execPrep b off s
  | .preps b off s1 => Sys2Proof.Machine.execPreps b off s1 s
  | .scmp q cc ty a b => Sys2Proof.Machine.execScmp q cc ty a b s
  | .xfer b q neg cnd => Sys2Proof.Machine.execXfer b q neg cnd s
  | .xcall b q neg cnd link => Sys2Proof.Machine.execXcall b q neg cnd link s
  | .xany b p neg => Sys2Proof.Machine.execXany b p neg s
  | .xall b p neg => Sys2Proof.Machine.execXall b p neg s
  | .ifP p => Sys2Proof.Machine.execIfP p s
  | .ifnP p => Sys2Proof.Machine.execIfnP p s
  | .elseP => Sys2Proof.Machine.execElseP s
  | .endif => Sys2Proof.Machine.execEndif s
  | .loopP => Sys2Proof.Machine.execLoopP s
  | .breakP p => Sys2Proof.Machine.execBreakP p s
  | .contP p => Sys2Proof.Machine.execContP p s
  | .endloop q => Sys2Proof.Machine.execEndloop q s
  | .serial => Sys2Proof.Machine.execSerial s
  | .endserial q => Sys2Proof.Machine.execEndserial q s
  | .yieldP n => Sys2Proof.Machine.execYieldP n s
  | .exitP p => Sys2Proof.Machine.execExitP p s
  | .exitSaved => Sys2Proof.Machine.execExitSaved s
  | .trapU q neg cnd code => Sys2Proof.Machine.execTrapU q neg cnd code s
  | .icsync => Sys2Proof.Machine.execIcsync s
  | .bkpt code => Sys2Proof.Machine.execBkpt code s
  | .qset q md => Sys2Proof.Machine.execQset q md s
  | .srd d reg => Sys2Proof.Machine.execSrd d reg s
  | .swr d reg => Sys2Proof.Machine.execSwr d reg s
  | .statesvTeam va => Sys2Proof.Machine.execStatesvTeam va s
  | .statesvBar va => Sys2Proof.Machine.execStatesvBar va s
  | .statersTeam va => Sys2Proof.Machine.execStatersTeam va s
  | .statersBar va => Sys2Proof.Machine.execStatersBar va s
  | .svc code => Sys2Proof.Machine.execSvc code s
  | .eret => Sys2Proof.Machine.execEret s
  | .clkrd d clk => Sys2Proof.Machine.execClkrd d clk s
  | .tlbinv kind => Sys2Proof.Machine.execTlbinv kind s
  | .worldx secure => Sys2Proof.Machine.execWorldx secure s
  | .clauseFetch t => Sys2Proof.Machine.execClauseFetch t s
  | .prefetchFill t b => Sys2Proof.Machine.execPrefetchFill t b s
  | .issuePortChoice core sub port => Sys2Proof.Machine.execIssuePortChoice core sub port s
  | .yieldWaitEnd t => Sys2Proof.Machine.execYieldWaitEnd t s
  | .f2Completion t k => Sys2Proof.Machine.execF2Completion t k s
  | .translationResult t k hit => Sys2Proof.Machine.execTranslationResult t k hit s
  | .trapEntry t => Sys2Proof.Machine.execTrapEntry t s
  | .teamPark t => Sys2Proof.Machine.execTeamPark t s
  | .parkedReissue t => Sys2Proof.Machine.execParkedReissue t s
  | .faultRecordWrite ctx => Sys2Proof.Machine.execFaultRecordWrite ctx s
  | .watchdogExpiry t => Sys2Proof.Machine.execWatchdogExpiry t s
  | .contextReset ctx => Sys2Proof.Machine.execContextReset ctx s
  | .commandAcceptance t k => Sys2Proof.Machine.execCommandAcceptance t k s
  | .wbloadDecode core m => Sys2Proof.Machine.execWbloadDecode core m s
  | .wbdropExecute core m => Sys2Proof.Machine.execWbdropExecute core m s
  | .mmaKStep core m => Sys2Proof.Machine.execMmaKStep core m s
  | .commandResume core m => Sys2Proof.Machine.execCommandResume core m s
  | .tileImageOperation core m => Sys2Proof.Machine.execTileImageOperation core m s
  | .accdrDrain core m => Sys2Proof.Machine.execAccdrDrain core m s
  | .kvappAppend core m => Sys2Proof.Machine.execKvappAppend core m s
  | .pselSelection core m => Sys2Proof.Machine.execPselSelection core m s
  | .attnPage core m => Sys2Proof.Machine.execAttnPage core m s
  | .attnfinMerge core m => Sys2Proof.Machine.execAttnfinMerge core m s
  | .copyAcceptance t k => Sys2Proof.Machine.execCopyAcceptance t k s
  | .copyRow j => Sys2Proof.Machine.execCopyRow j s
  | .waitkDone t k => Sys2Proof.Machine.execWaitkDone t k s
  | .bwaitDone t k => Sys2Proof.Machine.execBwaitDone t k s
  | .waitbDone t k => Sys2Proof.Machine.execWaitbDone t k s
  | .xacqGrant t k => Sys2Proof.Machine.execXacqGrant t k s
  | .xacqTimeout t k => Sys2Proof.Machine.execXacqTimeout t k s
  | .gscanWaitEnd t k => Sys2Proof.Machine.execGscanWaitEnd t k s
  | .queryRound q => Sys2Proof.Machine.execQueryRound q s
  | .vertexDistance q v => Sys2Proof.Machine.execVertexDistance q v s
  | .queryCompletion q => Sys2Proof.Machine.execQueryCompletion q s
  | .duskPageStep die ctx => Sys2Proof.Machine.execDuskPageStep die ctx s
  | .handBack j => Sys2Proof.Machine.execHandBack j s
  | .kvresRestore die ctx => Sys2Proof.Machine.execKvresRestore die ctx s
  | .backgroundSweep ctx => Sys2Proof.Machine.execBackgroundSweep ctx s
  | .doorbell fn ctx q idx => Sys2Proof.Machine.execDoorbell fn ctx q idx s
  | .gridStart src => Sys2Proof.Machine.execGridStart src s
  | .castPlace g core => Sys2Proof.Machine.execCastPlace g core s
  | .coresidentHold g => Sys2Proof.Machine.execCoresidentHold g s
  | .teamRetire t => Sys2Proof.Machine.execTeamRetire t s
  | .tokenQueueTimer die q => Sys2Proof.Machine.execTokenQueueTimer die q s
  | .tokenQueueBind die q record => Sys2Proof.Machine.execTokenQueueBind die q record s
  | .cdesc fn ctx pa => Sys2Proof.Machine.execCdesc fn ctx pa s
  | .ccmdPreempt fn ctx => Sys2Proof.Machine.execCcmdPreempt fn ctx s
  | .ccmdResume fn ctx => Sys2Proof.Machine.execCcmdResume fn ctx s
  | .ccmdReset fn ctx => Sys2Proof.Machine.execCcmdReset fn ctx s
  | .ccmdUnregister fn ctx => Sys2Proof.Machine.execCcmdUnregister fn ctx s
  | .dusktb fn ctx va => Sys2Proof.Machine.execDusktb fn ctx va s
  | .resolveRetry fn word => Sys2Proof.Machine.execResolveRetry fn word s
  | .resolveFail fn word => Sys2Proof.Machine.execResolveFail fn word s
  | .resolveRetryAll fn word => Sys2Proof.Machine.execResolveRetryAll fn word s
  | .ckctlCheckpoint => Sys2Proof.Machine.execCkctlCheckpoint s
  | .ckctlLoad => Sys2Proof.Machine.execCkctlLoad s
  | .ckctlClear => Sys2Proof.Machine.execCkctlClear s
  | .checkpointComplete => Sys2Proof.Machine.execCheckpointComplete s
  | .checkpointLoadComplete => Sys2Proof.Machine.execCheckpointLoadComplete s
  | .pmode value => Sys2Proof.Machine.execPmode value s
  | .powerModeChange => Sys2Proof.Machine.execPowerModeChange s
  | .wheelSettingChange => Sys2Proof.Machine.execWheelSettingChange s
  | .sshare stack value => Sys2Proof.Machine.execSshare stack value s
  | .graphRegistration g record => Sys2Proof.Machine.execGraphRegistration g record s
  | .graphUnregistration g record => Sys2Proof.Machine.execGraphUnregistration g record s
  | .unregistrationEffect g => Sys2Proof.Machine.execUnregistrationEffect g s
  | .registerWrite fn off n value => Sys2Proof.Machine.execRegisterWrite fn off n value s
  | .hostPostedWrite fn pa data => Sys2Proof.Machine.execHostPostedWrite fn pa data s
  | .pieceAcknowledgement j => Sys2Proof.Machine.execPieceAcknowledgement j s
  | .hostRead fn pa n => Sys2Proof.Machine.execHostRead fn pa n s
  | .atsAnswer t k granted => Sys2Proof.Machine.execAtsAnswer t k granted s
  | .hostAtsInvalidation page => Sys2Proof.Machine.execHostAtsInvalidation page s
  | .remoteStore f => Sys2Proof.Machine.execRemoteStore f s
  | .remoteAtomic f => Sys2Proof.Machine.execRemoteAtomic f s
  | .acknowledgement f => Sys2Proof.Machine.execAcknowledgement f s
  | .atomicResponse f => Sys2Proof.Machine.execAtomicResponse f s
  | .refusal f => Sys2Proof.Machine.execRefusal f s
  | .carryData f => Sys2Proof.Machine.execCarryData f s
  | .carryEnd f => Sys2Proof.Machine.execCarryEnd f s
  | .carryStatus f => Sys2Proof.Machine.execCarryStatus f s
  | .flitForward f => Sys2Proof.Machine.execFlitForward f s
  | .flitReplay port => Sys2Proof.Machine.execFlitReplay port s
  | .portUp port neighbour => Sys2Proof.Machine.execPortUp port neighbour s
  | .portDown port => Sys2Proof.Machine.execPortDown port s
  | .pfail => Sys2Proof.Machine.execPfail s
  | .mainRailFailure => Sys2Proof.Machine.execMainRailFailure s
  | .retvLoss => Sys2Proof.Machine.execRetvLoss s
  | .coldReset => Sys2Proof.Machine.execColdReset s
  | .warmReset => Sys2Proof.Machine.execWarmReset s
  | .vfFunctionLevelReset vf => Sys2Proof.Machine.execVfFunctionLevelReset vf s
  | .thermalAlert => Sys2Proof.Machine.execThermalAlert s
  | .thermtrip => Sys2Proof.Machine.execThermtrip s
  | .stackAlert stack pseudo owed => Sys2Proof.Machine.execStackAlert stack pseudo owed s
  | .patrolScrub line correctable => Sys2Proof.Machine.execPatrolScrub line correctable s
  | .ident => Sys2Proof.Machine.execIdent s
  | .telem => Sys2Proof.Machine.execTelem s
  | .sbReset arg => Sys2Proof.Machine.execSbReset arg s
  | .fwstage off chunk => Sys2Proof.Machine.execFwstage off chunk s
  | .fwcommit => Sys2Proof.Machine.execFwcommit s
  | .cktrig => Sys2Proof.Machine.execCktrig s
  | .wrtset authorised table => Sys2Proof.Machine.execWrtset authorised table s
  | .worldTableSwitch => Sys2Proof.Machine.execWorldTableSwitch s
  | .pmset value => Sys2Proof.Machine.execPmset value s
  | .spdmRequest req => Sys2Proof.Machine.execSpdmRequest req s
  | .mctpControl msg => Sys2Proof.Machine.execMctpControl msg s
  | .dynamicAddressAssignment addr => Sys2Proof.Machine.execDynamicAddressAssignment addr s
  | .flitDiscard f => Sys2Proof.Machine.execFlitDiscard f s
  | .pstatUpdate => Sys2Proof.Machine.execPstatUpdate s
  | .clockThrottle down => Sys2Proof.Machine.execClockThrottle down s
  | .ccmdReserved fn ctx cmd => Sys2Proof.Machine.execCcmdReserved fn ctx cmd s

end Sys2Proof.Machine
end

