-- ==== Sys2Proof/Machine/Shadow.lean ====
section
/-! DEFINITION. Reads of registers that an outstanding instruction writes, with lookahead checking disabled (R68, R71): an
instruction finds them as they were or as they are, lane by lane and read by read. -/

namespace Sys2Proof

/-- The operands of an F1 instruction, and the instruction with others. -/
def Instr.f1Form : Instr → Option (F1 × (F1 → Instr))
  | .mov o => some (o, .mov) | .sel o => some (o, .sel) | .iadd o => some (o, .iadd) | .isub o => some (o, .isub)
  | .iadc o => some (o, .iadc) | .isbc o => some (o, .isbc) | .imul o => some (o, .imul)
  | .imulh o => some (o, .imulh) | .imad o => some (o, .imad) | .imin o => some (o, .imin)
  | .imax o => some (o, .imax) | .andL o => some (o, .andL) | .orL o => some (o, .orL) | .xorL o => some (o, .xorL)
  | .andn o => some (o, .andn) | .shl o => some (o, .shl) | .shr o => some (o, .shr) | .sar o => some (o, .sar)
  | .rot o => some (o, .rot) | .bfx o => some (o, .bfx) | .bfi o => some (o, .bfi) | .lea o => some (o, .lea)
  | .iset o => some (o, .iset) | .bytep o => some (o, .bytep) | .fadd o => some (o, .fadd)
  | .fsub o => some (o, .fsub) | .fmul o => some (o, .fmul) | .ffma o => some (o, .ffma) | .fmin o => some (o, .fmin)
  | .fmax o => some (o, .fmax) | .fset o => some (o, .fset) | .fscale o => some (o, .fscale)
  | .fclass o => some (o, .fclass) | .cvt o => some (o, .cvt) | .pack o => some (o, .pack)
  | .unpk o => some (o, .unpk) | .hfma2 o => some (o, .hfma2) | .hadd2 o => some (o, .hadd2)
  | .hmul2 o => some (o, .hmul2) | .dot4 o => some (o, .dot4) | .dot2 o => some (o, .dot2)
  | .pand o => some (o, .pand) | .por o => some (o, .por) | .pxor o => some (o, .pxor) | .shfl o => some (o, .shfl)
  | .bcast o => some (o, .bcast) | .vote o => some (o, .vote) | .reduce o => some (o, .reduce)
  | .scan o => some (o, .scan) | .lrscan o => some (o, .lrscan) | .segred o => some (o, .segred)
  | .segscan o => some (o, .segscan) | .compact o => some (o, .compact) | .exset o => some (o, .exset)
  | .iabs o => some (o, .iabs) | .ineg o => some (o, .ineg) | .notL o => some (o, .notL) | .brev o => some (o, .brev)
  | .popc o => some (o, .popc) | .clz o => some (o, .clz) | .frcp o => some (o, .frcp) | .frsq o => some (o, .frsq)
  | .fsqrt o => some (o, .fsqrt) | .fexp2 o => some (o, .fexp2) | .flog2 o => some (o, .flog2)
  | .fexpo o => some (o, .fexpo) | .frnd o => some (o, .frnd) | .pnot o => some (o, .pnot) | .pmov o => some (o, .pmov)
  | .sval o => some (o, .sval) | .matchP o => some (o, .matchP) | .exdeal o => some (o, .exdeal)
  | .exclr o => some (o, .exclr)
  | _ => none

/-- The same of an F2 instruction; is B a source, and is D a source alone? -/
def Instr.f2Form : Instr → Option (F2 × Bool × Bool × (F2 → Instr))
  | .ld o => some (o, true, false, .ld) | .st o => some (o, true, true, .st)
  | .atom o => some (o, true, false, .atom) | .atomn o => some (o, true, true, .atomn)
  | .cas o => some (o, true, false, .cas) | .hacc o => some (o, true, true, .hacc)
  | .gather o => some (o, true, false, .gather) | .scatr o => some (o, true, true, .scatr)
  | .lockl o => some (o, true, false, .lockl) | .unlockl o => some (o, true, false, .unlockl)
  | .pfetch o => some (o, true, false, .pfetch) | .cflush o => some (o, true, false, .cflush)
  | .cinval o => some (o, true, false, .cinval) | .mmas o => some (o, true, false, .mmas)
  | .kvapp o => some (o, true, false, .kvapp) | .spawn o => some (o, true, false, .spawn)
  | .glaunch o => some (o, true, false, .glaunch) | .binit o => some (o, true, false, .binit)
  | .arrive o => some (o, true, false, .arrive) | .tqpush o => some (o, false, true, .tqpush)
  | .bwait o => some (o, false, true, .bwait)
  | _ => none

/-- The register sources of an instruction, by position, as far as they can be named apart. -/
def Instr.sources (i : Instr) : List Operand :=
  match i with
  | .scmp _ _ _ a b => [a, b]
  | i =>
    match i.f1Form, i.f2Form with
    | some (o, _), _ => [o.a, o.b, (o.x.elim .zero fun x => x.c)]
    | _, some (o, b, d, _) => [o.a, if b then o.ext.b else .zero, if d then o.d else .zero]
    | _, _ => []

/-- Is D a source beside being the destination? Without X1 the third input is D, and PACK and SEGRED may read D. -/
def Instr.readsDest : Instr → Bool
  | .pack _ | .segred _ => true
  | .imad o | .bfi o | .bytep o | .ffma o | .hfma2 o | .dot4 o | .dot2 o | .lrscan o => o.x.isNone
  | _ => false

/-- Do those positions, and D, name every register that the instruction reads? -/
def Instr.sourcesNamed : Instr → Bool
  | .scmp .. | .srd .. | .clkrd .. => true
  | i => i.f1Form.isSome

/-- The destination of an F1 instruction, and the instruction with another. -/
def Instr.dest (i : Instr) : Operand := i.f1Form.elim .zero fun f => f.1.d
def Instr.withDest (i : Instr) (d : Operand) : Instr := i.f1Form.elim i fun f => f.2 { f.1 with d := d }

/-- The instruction with other sources in those positions. -/
def Instr.withSources (i : Instr) (rs : List Operand) : Instr :=
  let r (k : Nat) (old : Operand) : Operand := rs.getD k old
  match i with
  | .scmp q cc ty a b => .scmp q cc ty (r 0 a) (r 1 b)
  | i =>
    match i.f1Form, i.f2Form with
    | some (o, f), _ => f { o with a := r 0 o.a, b := r 1 o.b, x := o.x.map fun x => { x with c := r 2 x.c } }
    | _, some (o, b, d, f) =>
      f { o with a := r 0 o.a, d := if d then r 2 o.d else o.d,
                 x := if b then o.x.map fun x => { x with b := r 1 x.b } else o.x }
    | _, _ => i

/-- The register that an operand names. -/
def Operand.reg? : Operand → Option Reg
  | .v n => some (.v n.toNat)
  | .s n => some (.s n.toNat)
  | .p n => if n == 7 then none else some (.p n.toNat)
  | .q n => some (.q n.toNat)
  | _ => none

/-- The register `k` places on. -/
def Reg.plus (k : Nat) : Reg → Reg
  | .v n => .v (n + k) | .s n => .s (n + k) | .p n => .p (n + k) | .q n => .q (n + k)

/-- The code of a register. -/
def Reg.operand : Reg → Operand
  | .v n => .v (BitVec.ofNat 7 n) | .s n => .s (BitVec.ofNat 6 n) | .p n => .p (BitVec.ofNat 3 n)
  | .q n => .q (BitVec.ofNat 2 n)

/-- The registers from `r` on that one position reads; `at'` is the instruction with another register there. They are as
many as it would name from a register far from all it names. -/
def Instr.runAt (i : Instr) (at' : Operand → Instr) (r : Reg) : List Reg :=
  let far (m : Nat) : Reg := match r with
    | .v _ => .v (16 * m) | .s _ => .s (16 * m) | .p n => .p n | .q n => .q n
  let run (x : Reg) : List Reg := (List.range 16).map x.plus
  match ((List.range 8).map far).find? fun x => !(run x).any i.regs.contains with
  | some x => (List.range ((run x).takeWhile ((at' x.operand).regs.contains ·)).length).map r.plus
  | none => [r]

end Sys2Proof

namespace Sys2Proof.Machine

/-- Does the instruction at a clause's position stand where the promise of R68 covers the shadow's instruction? -/
def Shadow.covers (x : Shadow) (t : Team) (c : Clause) : Bool :=
  if x.tk == 0 then x.clause == t.clauseNo && decide (c.pos ≤ x.upto) else !c.header.wt.getLsbD (x.tk - 1)

/-! ### Reading (R71) -/

/-- A team and an instruction as the reads of the instruction find them: the registers changed for it, those that hold a
reading, and those that stand for the registers of D, where D is read too. -/
structure Reading where
  team  : Team
  instr : Instr
  seen  : List Reg
  spare : List Reg
  moved : List (Reg × Reg) := []

/-- A register as the read in position `k` finds it: in each lane what it was before or what it is. -/
def Team.reading (t : Team) (sh : List Shadow) (draw k : Nat) (r : Reg) (l : Nat) : Word :=
  match sh.find? (·.reg == r) with
  | some x => if Config.readsOld draw k l then x.old.getD l 0 else t.regWord r l
  | none => t.regWord r l

/-- The registers of a kind that a team has. -/
def Team.regLimit (t : Team) : Reg → Nat
  | .v _ => t.budget | .s _ => 64 | .p _ => 7 | .q _ => 4

/-- Registers of the kind of `r`, aligned as a run of `n`, that nothing else uses. -/
def Team.spareRun (t : Team) (r : Reg) (n : Nat) (used : List Reg) : Option (List Reg) :=
  let step := if n ≤ 1 then 1 else if n == 2 then 2 else if n ≤ 4 then 4 else 8
  let at' (m : Nat) : Reg := match r with
    | .v _ => .v m | .s _ => .s m | .p _ => .p m | .q _ => .q m
  (((List.range (t.regLimit r)).filter fun m => m % step == 0 && decide (m + n ≤ t.regLimit r)).map fun m =>
    (List.range n).map (at' m).plus).find? fun rs => !rs.any used.contains

/-- The read in position `k` of operand `o`, where `at'` is the instruction with another register there: from registers
that nothing uses, or in place where there are none and no earlier position names its registers. -/
def Team.readPosition (t : Team) (sh : List Shadow) (draw : Nat) (x : Reading) (k : Nat) (o : Operand)
    (at' : Operand → Instr) : Operand × Reading :=
  match o.reg? with
  | none => (o, x)
  | some r =>
    let rs := x.instr.runAt at' r
    let look (tm : Team) (put : List (Reg × Reg)) : Team :=
      put.foldl (fun (tm : Team) p => tm.setReg p.2 (t.reading sh draw k p.1)) tm
    if !rs.any (fun r => sh.any (·.reg == r)) then (o, x)
    else match t.spareRun r rs.length (x.instr.regs ++ x.spare) with
    | some fs => ((fs.headD r).operand, { x with team := look x.team (rs.zip fs), spare := x.spare ++ fs })
    | none =>
      if rs.any x.seen.contains then (o, x)
      else (o, { x with team := look x.team (rs.zip rs), seen := x.seen ++ rs })

/-- The positions one after another. -/
def Team.readPositions (t : Team) (sh : List Shadow) (draw : Nat) : Nat → List Operand → Reading → List Operand × Reading
  | _, [], x => ([], x)
  | k, o :: rest, x =>
    let at' (y : Operand) : Instr := x.instr.withSources (setAt x.instr.sources k y .zero)
    let (o', x1) := t.readPosition sh draw x k o at'
    let (os, x2) := t.readPositions sh draw (k + 1) rest x1
    (o' :: os, x2)

/-- The read of D by an instruction that has D as a source too: D stands in registers that nothing uses, and what is
written there goes to D. -/
def Team.readDest (t : Team) (sh : List Shadow) (draw : Nat) (x : Reading) (i : Instr) : Operand × Reading :=
  if i.readsDest then
    let (d, x1) := t.readPosition sh draw x 3 i.dest i.withDest
    match d.reg?, i.dest.reg? with
    | some f, some r =>
      (d, { x1 with moved := if f == r then [] else ((List.range 16).map fun k => (f.plus k, r.plus k)).filter fun p =>
        x1.spare.contains p.1 && !x.spare.contains p.1 })
    | _, _ => (d, x1)
  else (i.dest, x)

/-- What an instruction that breaks the promise finds: every other register it may read is one more read. -/
def Team.readings (t : Team) (sh : List Shadow) (draw : Nat) (i : Instr) : Reading :=
  let (os, x0) := t.readPositions sh draw 0 i.sources { team := t, instr := i, seen := [], spare := [] }
  let (d, x) := t.readDest sh draw x0 i
  let rest := if Instr.sourcesNamed i then []
    else (i.regs.eraseDups).filter fun r => !x.seen.contains r && sh.any (·.reg == r)
  { x with
    team := rest.foldl (fun (tm : Team) r => tm.setReg r (t.reading sh draw 3 r)) x.team
    instr := (i.withSources os).withDest d, seen := x.seen ++ rest }

/-- The team after the instruction: a register that it did not write is what it was, and what it wrote is no longer in
doubt. -/
def Reading.restore (x : Reading) (t : Team) (i : Instr) (sh : List Shadow) (after : Team) : Team :=
  let kept (f r : Reg) (l : Nat) : Word := if after.regWord f l == x.team.regWord f l then t.regWord r l else after.regWord f l
  let t0 := (x.seen ++ x.spare).foldl (fun (tm : Team) r => tm.setReg r (kept r r)) after
  let t1 := x.moved.foldl (fun (tm : Team) p => (tm.setReg p.1 (t.regWord p.1)).setReg p.2 (kept p.1 p.2)) t0
  let same (r : Reg) : Bool := (List.range t.n).all fun l => t1.regWord r l == t.regWord r l
  { t1 with
    outst := replaceIf t1.outst (fun e => e.instr == x.instr) fun e => { e with instr := i }
    shadows := if after.shadows.isEmpty || Instr.waitsAtIssue i then [] else sh.filter fun s => same s.reg }

end Sys2Proof.Machine
end

