-- ==== Sys2Proof/Machine/Turn.lean ====
section
/-! DEFINITION. Turns: what a team or an event does when its turn comes, which turns the device takes on its own, the
time that passes, and an instruction put before the next step. -/

namespace Sys2Proof.Machine

/-! ### A turn -/

/-- An answer's next state changed. -/
def mapNext (f : State → State) : Result → Result
  | .next s => .next (f s)
  | .fault r => .fault r
  | .refused r => .refused r

/-- The words at the position a team has reached do not decode: ILLEGAL_INSTR (R75), where R68 and R265 let it issue. -/
def State.undecoded (s : State) (t : Team) (c : Clause) : State :=
  if t.settling || t.heldByWindow c then s else s.trapNow t c { code := .illegalInstr }

/-- The instruction at the position a team has reached. -/
def Clause.instr (c : Clause) : Option Instr :=
  match decodeAt c.header c.pos (c.words.drop c.woff) with
  | .ok (i, _) => some i
  | .error _ => none

/-- An instruction of a team is performed. -/
def State.perform1 (s : State) (t : Nat) (i : Instr) : Result :=
  mapNext (fun s => { s with cur := none }) (exec i { s with cur := some t })

/-- The team at a clause issues its next instruction (R59, R68), from the registers as its reads find them (R71). -/
def State.issueTurn (s : State) (t : Team) (c : Clause) : Result :=
  if c.header.n < c.pos then .next s
  else match c.instr with
    | some i =>
      let sh := t.shadows.filter (·.covers t c)
      if sh.any fun x => i.regs.contains x.reg then
        let x := t.readings sh s.freeCtr i
        mapNext (fun s' => s'.onTeam t.id (x.restore t i sh)) ((s.setTeam x.team).perform1 t.id x.instr)
      else s.perform1 t.id i
    | none => .next (s.undecoded t c)

/-- The first port of a team's sub-core that no team holds (R292). -/
def State.freePort (s : State) (t : Team) : Nat :=
  if (s.subTeams t.core t.sub).any (·.port == some 0) then 1 else 0

/-- The turn of a team: a trap at a boundary, a fetch, a choice of its sub-core, or its next instruction. -/
def State.teamTurn (s : State) (t : Nat) : Result :=
  match s.team? t with
  | none => .next s
  | some tm =>
    if !s.running tm then .next s
    else match tm.clause with
    | none => exec (if tm.trapWaits then .trapEntry t else .clauseFetch t) s
    | some c =>
      if tm.port.isNone then exec (if tm.trapWaits then .trapEntry t else .issuePortChoice tm.core tm.sub (s.freePort tm)) s
      else s.issueTurn tm c

/-- What waits while a new world region table does: accesses from outside (R364), but for what the device has sent to itself,
and the commands of the side-band port, which run one at a time (R370). -/
def State.defers (s : State) : Instr → Bool
  | .remoteStore f | .remoteAtomic f => f.src != s.regs.devid
  | .hostPostedWrite .. | .hostRead .. | .doorbell .. | .cdesc .. | .dusktb .. | .ident
  | .telem | .sbReset _ | .fwstage .. | .fwcommit | .cktrig | .wrtset .. | .pmset _ => true
  | _ => false

/-- Is a turn an event that waits so? -/
def State.defersTurn (s : State) : Turn → Bool
  | .event i => s.defers i
  | _ => false

/-- A turn. An encoded instruction is no event: its turn is a team's. -/
def State.turn (s : State) (x : Turn) : Result :=
  match x with
  | .team t => s.teamTurn t
  | .event i =>
    if i.encoded then .next s
    else if s.switching && s.defers i then .next { s with mgmt := { s.mgmt with waiting := s.mgmt.waiting ++ [x] } }
    else exec i s
  | .lanes t k mask => .next (s.someLanes t k mask)
  | .post t k => .next (s.postNow t k)
  | .code t line => .next (s.codeAhead t line)
  | .memError burst silent => .next (s.memError burst silent)
  | .scratchError cast block => .next (s.scratchError cast block)
  | .landing => .next s.landAll
  | .dusk core m => .next (s.passDusk core m)

/-! ### Time (R95, R215, R298) -/

/-- A team after `n` clocks: its watchdog, unless it is parked (R298), and its YIELD wait (R95). -/
def Team.pass (n : Nat) (t : Team) : Team :=
  { t with wdog := if t.park.isSome then t.wdog else t.wdog + n, yield := t.yield.map (· - n) }

/-- Time passes with a step: free amounts of clocks and of nanoseconds (log 4); the arithmetic clock stands while the
device is stopped (R361). As a clock ends, the triggers that its pushes left are tested (R288). -/
def State.tick (s : State) : State :=
  let n := if s.stopped then 0 else Config.clocksOf s.freeCtr
  let s := (s.testTriggers n).replan
  ({ s with freeCtr := s.freeCtr + 1, clk := s.clk + n, ns := s.ns + Config.nanosOf s.freeCtr,
            teams := s.teams.map (Team.pass n) } : State).ageBars n

/-! ### The device's own turns (log 20) -/

/-- The turns about an outstanding instruction. -/
def outstTurns (t k : Nat) : List Turn :=
  [.event (.translationResult t k true), .event (.f2Completion t k), .event (.commandAcceptance t k),
   .event (.copyAcceptance t k), .event (.waitkDone t k), .event (.bwaitDone t k), .event (.waitbDone t k),
   .event (.xacqGrant t k), .event (.xacqTimeout t k), .event (.gscanWaitEnd t k)]

/-- The turns about a team. -/
def teamTurns (t : Team) : List Turn :=
  [.team t.id, .event (.trapEntry t.id), .event (.teamPark t.id), .event (.parkedReissue t.id),
   .event (.watchdogExpiry t.id), .event (.yieldWaitEnd t.id), .event (.teamRetire t.id)]
    ++ (List.range 8).map (fun b => .event (.prefetchFill t.id (BitVec.ofNat 3 b)))
    ++ (t.posted.map fun o => .event (.f2Completion t.id o.seq)) ++ t.outst.flatMap fun o => outstTurns t.id o.seq

/-- The turns about a context. -/
def ctxTurns (c : Context) : List Turn :=
  [.event (.faultRecordWrite c.no), .event (.contextReset c.no), .event (.backgroundSweep c.no)]
    ++ (List.range 4).flatMap (fun d => [.event (.duskPageStep d c.no), .event (.kvresRestore d c.no)])
    ++ c.queues.map fun q => .event (.gridStart (.queue c.no q.q))

/-- The turns of a matrix context's engine. -/
def engineTurns (core m : Nat) : List Turn :=
  [.event (.commandResume core m), .event (.wbloadDecode core m), .event (.wbdropExecute core m),
      .event (.mmaKStep core m),
   .event (.tileImageOperation core m), .event (.accdrDrain core m), .event (.kvappAppend core m),
   .event (.pselSelection core m), .event (.attnPage core m), .event (.attnfinMerge core m)]

/-- The turns about a query. -/
def queryTurns (q : Query) : List Turn :=
  [.event (.queryRound q.id), .event (.queryCompletion q.id)] ++ q.fresh.map fun v => .event (.vertexDistance q.id v.1)

/-- The turns about a grid. -/
def gridTurns (g : Grid) : List Turn :=
  (List.range 192).map (fun k => .event (.castPlace g.id k)) ++ [.event (.coresidentHold g.id)]

/-- A flit that has come is performed (R354). -/
def flitTurn (f : Flit) : List Turn :=
  match f.ty.toNat with
  | 1 => [.event (.remoteStore f)]
  | 2 => [.event (.remoteAtomic f)]
  | 3 => [.event (.atomicResponse f)]
  | 4 => [.event (.acknowledgement f)]
  | 5 => [.event (.carryData f)]
  | 6 => [.event (.carryEnd f)]
  | 7 => [.event (.carryStatus f)]
  | 8 => [.event (.refusal f)]
  | _ => []

/-- Every turn the device may take without anything from outside. -/
def State.turns (s : State) : List Turn :=
  s.teams.flatMap teamTurns ++ s.contexts.flatMap ctxTurns
    ++ s.cores.flatMap (fun c => (List.range 4).flatMap fun m =>
        if (c.mctx m).queue.isEmpty then [] else .dusk c.no m :: engineTurns c.no m)
    ++ s.copies.map (fun c => .event (.copyRow c.op)) ++ s.queries.flatMap queryTurns
    ++ (List.range s.handbacks.length).map (fun j => .event (.handBack j)) ++ s.grids.flatMap gridTurns
    ++ (List.range 4).flatMap (fun d =>
        (List.range (s.tasks.filter (·.1 == d)).length).map fun j => .event (.gridStart (.task d j)))
    ++ s.tokens.flatMap (fun t => [.event (.gridStart (.batch t.die t.q)), .event (.tokenQueueTimer t.die t.q)])
    ++ s.graphs.map (fun g => .event (.unregistrationEffect g.g))
    ++ (List.range s.pieces.length).map (fun j => .event (.pieceAcknowledgement j))
    ++ (((s.inbox.filter fun f => s.firstOf f.src == some f).flatMap flitTurn).filter fun x =>
        !(s.switching && s.defersTurn x))
    ++ [.landing, .event .powerModeChange, .event .wheelSettingChange, .event .checkpointComplete,
        .event .checkpointLoadComplete,
        .event .worldTableSwitch]

/-- Does a turn change anything? -/
def State.moves (s : State) (x : Turn) : Bool :=
  match s.turn x with
  | .next s' => s' != s
  | _ => true

/-- The turns in the order of this step: each is the first in its time (log 20). -/
def State.rotated (s : State) : List Turn :=
  let l := s.turns
  l.drop (s.freeCtr % l.length) ++ l.take (s.freeCtr % l.length)

/-- The turn the device takes on its own: the next that changes something. -/
def State.ownTurn (s : State) : Option Turn := s.rotated.find? s.moves

/-- The reset that has waited and need not wait longer (R373): of the device, or else of a virtual function. -/
def State.dueReset (s : State) : Option Result :=
  if s.ck == some .checkpoint then none
  else match s.mgmt.resetDue with
    | some cold => if s.resetWaits cold then none else some (if cold then execColdReset s else execWarmReset s)
    | none => (s.mgmt.flrDue.find? fun vf => !(s.ownedBy vf).any s.stepsWait).map fun vf => execVfFunctionLevelReset vf s

/-! ### An instruction before the next step -/

/-- The state that an instruction of class `cls` with these words needs: a registered context 0, a cast with a matrix
context on core 0, and a 32-lane team of it that holds a port at a clause of that one instruction, whose turn is next. -/
def State.placeInstr (s : State) (cls : Nat) (ws : List Word) : State :=
  let h : Header := { n := 1, cls := cls, e := false, y := false, wt := 0 }
  let id := s.nextId
  let cast : Cast :=
    { id := id, core := 0, number := 0, grid := 0, index := 0, size := 32768, nb := 8, bars := [], mcbase := 0,
      mctx := some 0, scratch := [], bad := [], live := 1, order := id }
  let g : Grid :=
    { id := 0, ctx := 0, source := .task 0 0, gdva := 0, desc := List.replicate 128 0, args := [], cvb := 0, pvb := 0,
      scrl := 256, partw := 0, nteam := 1, pri := 0, dies := [0], nextCast := 1, unretired := 1, saved := [],
          headAt := none,
      holding := false, tokens := 0, order := 0 }
  let t : Team :=
    { s.newTeam g id 0 0 (id + 1) (0, 32, 16) 0 [] false with
      clause := some (Clause.at h (ws.take (instrLength cls ws)) 1 0), port := some 0 }
  let s1 : State :=
    { s with
      agenda := [.team (id + 1)], cur := none, nextId := id + 2, casts := s.casts ++ [cast], teams := s.teams ++ [t],
      stopped := false, mgmt := { s.mgmt with resetDue := none, flrDue := [], wrtNext := none } }
  (s1.onCtx 0 fun c => { c with state := .registered }).onMatrix 0 0 fun _ => { Matrix.reset with owner := some id }

end Sys2Proof.Machine
end

