-- ==== Sys2Proof/Machine/Step.lean ====
section
/-! DEFINITION. One step of the device. -/

namespace Sys2Proof.Machine

/-- One step: a reset that is due; else the next turn of the agenda; else a turn of the device's own, or none. Time
passes. -/
def step (s : State) : Host.Outcome State Fault Refusal :=
  mapNext State.tick <|
    match s.dueReset with
    | some r => r
    | none =>
      match s.agenda with
      | x :: rest => State.turn { s with agenda := rest } x
      | [] =>
        match s.ownTurn with
        | some x => s.turn x
        | none => .next s

/-- The state with an instruction of `nbits` bits where the next step runs it: the class is that of the decoder's answer,
or 0 where the words do not decode. -/
def State.withFetchWord (s : State) (nbits w : Nat) : State :=
  s.placeInstr (((firstClass (tableWords nbits w) bareClasses).map (·.1)).getD 0) (tableWords nbits w)

end Sys2Proof.Machine
end

