-- ==== Sys2Proof/Safety.lean ====
section
/-! DEFINITION. The terms the statements use: when an instruction issues with its own effect, what a team keeps, and
the canonical form of every memory of the device. -/

namespace Sys2Proof.Machine

/-! ### Reaching issue (R7, R68, R71, R265, R266) -/

/-- An encoded instruction has its team's turn, and nothing of R7, R68, R71, R265 or R266 that all instructions share
holds it back or traps it: the team is at it, does not settle, is not held by a window, the encoding is legal for the
team and clause, no promise is broken, and no interlock holds. -/
abbrev Issues (i : Instr) (s : State) (t : Team) (c : Clause) : Prop :=
  s.current = some (t, c) ∧ t.settling = false ∧ t.heldByWindow c = false ∧ t.illegal c i = false ∧
    (t.lchk && t.breaksPromise i) = false ∧ t.interlocked i = false

/-- An instruction that changes its team alone, by `f`, and lets its clause go on. -/
abbrev Yields (i : Instr) (f : Team → Team) : Prop :=
  ∀ s t c, Issues i s t c → exec i s = .next (s.done (f t) c)

/-- An instruction that becomes outstanding with the entry `e` (R68). -/
abbrev Enqueues (i : Instr) (ok : State → Team → Prop) (e : State → Team → Clause → Outst) : Prop :=
  ∀ s t c, Issues i s t c → ok s t → exec i s = .next (s.enqueue t c (e s t c))

/-- An instruction that traps with `tr` (R97), changing nothing else. -/
abbrev Traps (i : Instr) (ok : State → Team → Prop) (tr : State → Team → Trap) : Prop :=
  ∀ s t c, Issues i s t c → ok s t → exec i s = .next (s.trapNow t c (tr s t))

/-- A step or event that answers the state `f s` wherever it is due. -/
abbrev Becomes (i : Instr) (due : State → Prop) (f : State → State) : Prop :=
  ∀ s, due s → exec i s = .next (f s)

/-! ### Parts of an instruction -/

/-- The value of a source of a class 0 instruction at the type in force, in lane l. -/
def Team.val (t : Team) (ty : Ty) (l : Nat) (x : Operand) : Nat := t.num ty.is64 ty.isSigned false l x

/-- The FP32 bits of a source in lane l. -/
def Team.fval (t : Team) (l : Nat) (x : Operand) : Nat := (t.word true l x).toNat

/-- The operands of a class 0 or 1 instruction. -/
def f1Of : Instr → Option F1
  | .mov o | .sel o | .iadd o | .isub o | .iadc o | .isbc o | .imul o | .imulh o | .imad o | .imin o | .imax o | .iabs o
  | .ineg o | .andL o | .orL o | .xorL o | .andn o | .notL o | .shl o | .shr o | .sar o | .rot o | .bfx o | .bfi o
  | .popc o | .clz o | .brev o | .lea o | .iset o | .bytep o | .fadd o | .fsub o | .fmul o | .ffma o | .fmin o
  | .fmax o | .fset o | .frcp o | .frsq o | .fsqrt o | .fexp2 o | .flog2 o | .fscale o | .fexpo o | .fclass o | .frnd o
  | .cvt o | .pack o | .unpk o | .hfma2 o | .hadd2 o | .hmul2 o | .dot4 o | .dot2 o | .pand o | .por o | .pxor o
  | .pnot o | .pmov o | .sval o | .shfl o | .bcast o | .vote o | .reduce o | .scan o | .lrscan o | .segred o
  | .segscan o | .compact o | .matchP o | .exset o | .exdeal o | .exclr o => some o
  | _ => none

/-! ### Results by shape (R106, R107, R110, R113, R117, R118, R122, R133) -/

/-- An integer operation of R106 on A, B and the third input. -/
def intResult (o : F1) (dflt : Ty) (op : Ty → Int → Int → Int → Int) (t : Team) : Team :=
  let ty := (o.ext dflt).ty
  t.put o.d ty.is64 fun l => intLane ty (o.ext dflt) (op ty) (t.val ty l o.a) (t.val ty l o.b) (t.val ty l o.third)

/-- A logic or shift operation of R110; B is a 32-bit position where `b32` holds. -/
def bitResult (o : F1) (dflt : Ty) (b32 : Bool) (f : Ty → Nat → Nat → Nat → Nat) (t : Team) : Team :=
  let ty := (o.ext dflt).ty
  t.put o.d ty.is64 fun l =>
    f ty (t.val ty l o.a) (t.num (ty.is64 && !b32) ty.isSigned false l o.b) (t.val ty l o.third)

/-- The carry chain of R107: the sum or difference with the carry-in, and the carry-out where FN names a predicate. -/
def carryResult (o : F1) (sub : Bool) (t : Team) : Team :=
  let x := o.ext .n32
  let r l := carryStep sub x.ty.bits (t.num x.ty.is64 false false l o.a) (t.num x.ty.is64 false false l o.b)
    (t.cond l o.third)
  let t' := t.put o.d x.ty.is64 fun l => (r l).1
  let n : Nat := (x.fn.extractLsb' 0 3).toNat
  if !x.fn.getLsbD 3 then t'
  else if o.scalar then t'.writeQ n (r 0).2
  else t'.writeP n t.act (maskOf t.n fun l => (r l).2)

/-- An FP32 operation on A and B after their negations, the third input and the draw of SR, its flags merged. -/
def fpResult (o : F1) (f : X1 → Nat → Nat → Nat → Word → Nat × Flags) (t : Team) : Team :=
  let x := o.ext .f32
  t.putFlags o.d false fun l =>
    f x (negBits .f32 x.na (t.fval l o.a)) (negBits .f32 x.nb (t.fval l o.b)) (t.fval l o.third) (t.drawSr 0 l)

/-- A half-width operation on both elements (R117). -/
def halfResult (o : F1) (f : Fmt → RM → Word → FVal → FVal → FVal → Nat × Flags) (t : Team) : Team :=
  let x := o.ext .f16
  let fm := Fmt.ofTy x.ty
  t.putFlags o.d false fun l => halves fun k =>
    let el (n : Bool) (c : Operand) := fm.decode (negBits fm n ((t.word true l c).toNat >>> (16 * k) % 2 ^ 16))
    f fm x.rm (t.drawSr k l) (el x.na o.a) (el x.nb o.b) (el false o.third)

/-- A dot product of n elements (R118). -/
def dotResult (o : F1) (dflt : Ty) (n : Nat) (t : Team) : Team :=
  let x := o.ext dflt
  t.putFlags o.d false fun l =>
    let a := (t.word (!x.ty.isInt) l o.a).toNat
    let b := (t.word (!x.ty.isInt) l o.b).toNat
    if x.ty.isInt then (dotInt x.ty x.sat n a b (t.word false l o.third).toNat, 0)
    else dotFloat (Fmt.ofTy x.ty) (Fmt.ofTy (if x.fn == 13 then .e4m3 else if x.fn == 14 then .e5m2 else x.ty)) n x.rm
      (t.drawSr 0 l) a b (t.fval l o.third)

/-- A predicate operation on the sources read as non-zero, inverted by NA and NB (R122). -/
def predResult (o : F1) (f : Bool → Bool → Bool) (t : Team) : Team :=
  let x := o.ext .b32
  t.put o.d false fun l => (f ((t.word false l o.a != 0) != x.na) ((t.word false l o.b != 0) != x.nb)).toNat

/-- A reduction or scan over the lanes that `pick` names (R133, R134). -/
def redResult (o : F1) (pick : Team → X1 → Nat → List Nat) (t : Team) : Team :=
  let x := o.ext .f32
  t.putFlags o.d x.ty.is64 fun l => redCombine (x.fn.extractLsb' 0 3).toNat x.ty x.sat
    ((pick t x l).map fun j => t.num x.ty.is64 x.ty.isSigned (x.ty == .f32) j o.a)

/-- A transfer of R90: it goes on, takes a valid target, or traps; one that is `ready` alone is taken. -/
abbrev Transfers (i : Instr) (b : BitVec 3) (take : Team → Bool) (link : Team → Clause → Team)
    (ready : Team → Prop := fun _ => True) : Prop :=
  ∀ s t c, Issues i s t c → (take t = true → (t.branch b.toNat).valid = true → ready t) →
    exec i s = .next (
      if take t = false then s.done t c
      else if (t.branch b.toNat).valid = false then s.trapNow t c { code := .unpreparedTarget, info := b.setWidth 16 }
      else
        let br := t.branch b.toNat
        s.done { link t c with via := if br.pf == 2 && br.gen == (link t c).stamp then some br.copy else none }
          { c with next := some (br.target.setWidth 64) })

/-- A mask instruction on a team that `ok` admits has the effect `f` (R91). -/
abbrev MaskStep (i : Instr) (ok : Team → Prop) (f : Team → Team) : Prop :=
  ∀ s t c, Issues i s t c → ok t → exec i s = .next (s.done (f t) c)

/-- The highest entry of the mask stack that is neither IF nor ELSE is `e`, with the entries `above` it and `below`. -/
abbrev LoopEntry (t : Team) (above : List MaskEntry) (e : MaskEntry) (below : List MaskEntry) : Prop :=
  t.stack = above ++ e :: below ∧ (∀ x ∈ above, x.kind = .ifK ∨ x.kind = .elseK) ∧ e.kind ≠ .ifK ∧ e.kind ≠ .elseK

/-! ### Outstanding instructions (R68, R70, R145, R265) -/

/-- The lanes of a class 2 access with their addresses (R144, R145); `idx` says that B is an index. -/
abbrev accsOf (t : Team) (o : F2) (idx : Bool) : List (Nat × Nat) := (t.actLanes o).map fun l => (l, t.vaddr o idx l)

/-- The data an access captures at issue: the low bytes of the access size in each lane. -/
def captured (i : Instr) (t : Team) (o : F2) : Option Operand → List (Nat × Nat)
  | some d => (t.actLanes o).map fun l => (l, t.data (Instr.litSigned i) d o.run l % 2 ^ (8 * szBytes o.ext.sz))
  | none => []

/-- A lane access at issue (R145, R146): a trap of R7's steps 4 to 6, nothing with no active lane, or an outstanding
entry with every lane's address and data. -/
abbrev AccessIssues (i : Instr) (o : F2) (idx store : Bool) (dat datb : Option Operand) (empty : Team → Team) : Prop :=
  ∀ s t c, Issues i s t c → exec i s = .next (
    match accessTraps s t o (accsOf t o idx) (szBytes o.ext.sz) store with
    | some tr => s.trapNow t c tr
    | none =>
      if (accsOf t o idx).isEmpty then s.done (empty t) c
      else s.enqueue t c { t.entry c i o s.nextId s.clk with
        addrs := accsOf t o idx, data := captured i t o dat, datb := captured i t o datb,
        needs := granulesOf (szScratch o.ext.sz) (accsOf t o idx) })

/-- Team t's outstanding entry k may be performed now: its team may move, it has not failed, no order holds it back, no
remote step of it is sent or unanswered, and every granule it needs is mapped. -/
abbrev Performs (s : State) (t k : Nat) (tm : Team) (e : Outst) : Prop :=
  s.posted? t k = none ∧ s.entry? t k = some (tm, e) ∧ e.ends = true ∧ tm.inOrder e = true ∧ s.awaiting tm e = false ∧
    s.mapped tm e = true ∧ e.sent = false

/-- The lanes of a load performed: the state after their reads, the values, and the lanes that meet an error. -/
abbrev loadsOf (s : State) (tm : Team) (e : Outst) (o : F2) (sx : Bool) : State × List (Nat × Nat) × List (Nat × Nat) :=
  s.loads tm e o sx (mappedLanes e (szScratch o.ext.sz))

/-- The team after a load, with the values in its destination. -/
abbrev loadedTeam (s : State) (tm : Team) (e : Outst) (o : F2) (sx : Bool) : Team :=
  tm.writeRun o.d o.run (fun _ => true) (loadsOf s tm e o sx).2.1

/-- No lane of a load meets an uncorrectable error. -/
abbrev LoadGood (s : State) (tm : Team) (e : Outst) (o : F2) (sx : Bool) : Prop := (loadsOf s tm e o sx).2.2 = []

/-- A lane of an access reaches no peer's page. -/
abbrev LocalLane (e : Outst) (scr : Bool) (va : Nat) : Prop := scr = true ∨ peerOf e.outs va = none

/-- The value that a list gives a lane. -/
abbrev laneValue (vs : List (Nat × Nat)) (l : Nat) : Nat := (vs.find? (·.1 == l)).elim 0 (·.2)

/-! ### State blocks (R213) -/

/-- The translations of a state block of `n` bytes, read or written by a team. -/
def blockOuts (s : State) (t : Team) (a : DWord) (n : Nat) (wr : Bool) : List (Nat × Xlat) :=
  let m : Mode := { user := !t.svl, world := t.world, rd := !wr, wr := wr, fetch := false, via := some (coreDie t.core) }
  (granules a.toNat n).map fun g => (g, s.hitAnswer m (some t.core) (s.ctx t.ctx).asid (rangeLines a.toNat n g)
    (s.translateEither (s.ctx t.ctx) m g))

/-- The state with those of the block's granules in the TLB whose lines are not all in a cache (R260). -/
def blockFilled (s : State) (t : Team) (a : DWord) (n : Nat) : State :=
  (granules a.toNat n).foldl (fun (x : State) g =>
    if x.hitsAll (some t.core) (some (coreDie t.core)) (s.ctx t.ctx).asid (rangeLines a.toNat n g) then x
    else x.fillTlb (s.ctx t.ctx) g) s

/-- The block is aligned, no registered range meets it, and every granule is mapped and permitted. -/
abbrev BlockReady (s : State) (t : Team) (a : DWord) (n : Nat) (wr : Bool) : Prop :=
  a.toNat % 256 = 0 ∧ s.rangeHit t.core (s.spaceOf t false) a.toNat n wr = false ∧
    (blockOuts s t a n wr).all (·.2.isMapped) = true

/-! ### Commands of the matrix contexts (R166, R178) -/

/-- A class 3 instruction at issue (R165, R167): ILLEGAL_INSTR for a cast without a matrix context or an operand out of
range, a trap of R167, or an outstanding entry with its operand values. -/
abbrev CommandIssues (i : Instr) (o : F2) : Prop :=
  ∀ s t c, Issues i s t c → exec i s = .next (
    if matIllegal i s t then s.trapNow t c { code := .illegalInstr }
    else match matTrap i s t with
      | some tr => s.trapNow t c tr
      | none => s.enqueue t c { t.entry c i o s.nextId s.clk with args := matArgs i t })

/-- Command c is at the head of the queue of matrix context m of a core, may move, has not made its effects, and it is the
context's turn (R295). -/
abbrev AtHead (s : State) (core m : Nat) (c : Command) : Prop :=
  s.running? core m = some c ∧ c.fin = false ∧ s.engineTurn core m = true

/-- The translations of the ranges an engine operation reads and writes; `dev` are those it reads at .dev. -/
abbrev engineOuts (s : State) (core : Nat) (c : Command) (rds wrs : List (Nat × Nat)) (dev : List (Nat × Nat) := []) :
    List (Nat × Xlat) :=
  s.engOuts (s.ctx c.ctx) (c.ranges core rds dev wrs)

/-- What the accesses leave in the TLB, in the caches and in the counters of absent memory. -/
abbrev engineTouched (s : State) (core : Nat) (c : Command) (rds wrs : List (Nat × Nat)) (dev : List (Nat × Nat) := []) :
    State :=
  s.engTouch (s.ctx c.ctx) (c.ranges core rds dev wrs)

/-- Every granule of those ranges is mapped and permitted, and nothing read is uncorrectable. -/
abbrev EngineReaches (s : State) (core : Nat) (c : Command) (rds wrs : List (Nat × Nat)) (dev : List (Nat × Nat) := []) :
    Prop :=
  s.engChecks (s.ctx c.ctx) (c.ranges core rds dev wrs) = none ∧ (rds ++ dev).any (fun r =>
    (engineTouched s core c rds wrs dev).vbad (engineOuts s core c rds wrs dev) r.1 r.2) = false

/-- The tile after k-step j of a product, with the MSTAT bits (R51, R177): A from scratch, B as bytes of one panel. -/
def productStep (s : State) (core m : Nat) (o : F2) (d : Matd) (bfmt : Nat) (bse8 : Bool) (j : Nat) (pb : List Byte) :
    List Word × Word :=
  let kk := min 64 (d.k - 64 * j)
  let pa := s.mscr core m (d.aoff + j * panelStride d.afmt d.ase8) (panelBytes d.afmt d.ase8)
  let t0 := if j == 0 && o.ext.fn.getLsbD 0 then [] else s.tile core m (F2.tile o)
  let r := tileStep t0 d.m d.n (fun x => (List.range kk).map (panelElem d.afmt d.ase8 pa x))
    (fun x => (List.range kk).map (panelElem bfmt bse8 pb x))
  (r.1, r.2 ||| mstatBit 2 (panelDesc d.afmt d.ase8 pa d.m kk || panelDesc bfmt bse8 pb d.n kk))

/-- The state after that step: the tile, MSTAT, and the command's progress or its end. -/
def stepped (s : State) (core m : Nat) (c : Command) (o : F2) (d : Matd) (r : List Word × Word) : State :=
  let j := c.prog
  let s1 := ((s.setTile core m (F2.tile o) r.1).raiseMstat core m r.2).onHead core m fun c =>
    { c with started := true, prog := j + 1 }
  if j + 1 == d.steps then s1.endCommand core m c else s1

/-- After `j` of the `n` mass additions of ATTN or ATTNFIN: the next one stands, against the M and L of the rows `rs`, or
the command ends (R189, R191). -/
def addedSoFar (s : State) (core m : Nat) (c : Command) (rs : List (Word × Word)) (n j : Nat) : State :=
  if j = n then s.endCommand core m c else s.onHead core m fun c => { c with started := true, massed := some j, final := rs }

/-- The output rows of ATTN or ATTNFIN in scratch, before any mass addition (R189, R191). -/
def attended (s : State) (core m : Nat) (c : Command) (rs : List AttnRow) (ooff n : Nat) : State :=
  addedSoFar ((s.mscrWrite core m ooff (outRows rs).1).raiseMstat core m (outRows rs).2) core m c
    (rs.map fun r => (r.m, r.l)) n 0

/-- One mass addition, to the page at `va` (R190): MASS plus `u`, cut off at 2^24 - 1 with MSTAT.MOV, in one step on word 1. -/
def massAdded (s : State) (core m : Nat) (c : Command) (va u : Nat) (bits : Word) : State :=
  let r := [(va + 8, 8)]
  let outs := engineOuts s core c [] r r
  let w := leNat (s.vread outs (va + 8) 8)
  let mass := w / 2 ^ 40 % 2 ^ 24 + u
  let s1 := (engineTouched s core c [] r r).engWrite (c.engine core m) outs (va + 8)
    (leBytes 8 (w % 2 ^ 40 + min mass (2 ^ 24 - 1) * 2 ^ 40))
  (s1.raiseMstat core m (mstatBit 5 (decide (2 ^ 24 - 1 < mass)))).raiseMstat core m bits

/-- The work of one page of ATTN (R189, R190): each row after the page with its maximum, sum and MSTAT bits, and whether
a descriptor value was not a number. -/
def attendedPage (s : State) (core m : Nat) (c : Command) (outs : List (Nat × Xlat)) (ts : List Nat)
    (sees : Nat → Nat → Bool) : List (AttnRow × Word × Word × Word) × Bool :=
  let b := c.block
  let rows := attnRows b
  let dim := headDim (field b 4 1)
  let k := Kvpd.ofWords ((c.snaps.getD c.prog (0, [])).2)
  let qs := rowsOf32 (s.mscr core m (field b 12 4) (4 * dim * rows)) rows dim
  let rs := if c.prog == 0 then List.replicate rows (AttnRow.start dim)
    else workRows (s.mscr core m (field b 20 4) (8 * rows + 4 * dim * rows)) rows dim
  let toks := ts.map fun t => (t, s.kvRow outs k dim t false, s.kvRow outs k dim t true)
  ((rs.zip qs).zipIdx.map fun ((a, q), r) =>
    a.page q (dec32 (field b 8 4)) ((toks.filter fun x => sees r x.1).map fun x => x.2.1.1)
      ((toks.filter fun x => sees r x.1).map fun x => x.2.2.1),
   toks.any fun (_, x, y) => x.2 || y.2)

/-! ### Starting a grid (R285) -/

/-- The front end, from state s0, reads the descriptor `b` of an offer, writes STATE 1 where STATVA is given (R279), reads
the arguments and records it needs, and finds no reason to refuse; s5 is the state then, with `nteam` teams to come. -/
abbrev Startable (s0 : State) (src : GridSource) (o : Offer) (b : List Byte) (nteam : Nat) (args crec prec : List Byte)
    (s5 : State) : Prop :=
  let d := GridDesc.ofBytes b
  let die := sourceDie src
  ∃ s1 s2 s3 s4, s0.feRead o.ctx die o.gd 128 = .ok (s1, .ok b) ∧
    (if d.statva = 0 then s2 = s1 else s1.feWrite o.ctx die 1 0 d.statva (leBytes 8 0x100) = .ok s2) ∧
    s2.feNeeded o.ctx die (o.args.isNone && d.argva != 0) d.argva 64 = .ok (s3, .ok args) ∧
    s3.feNeeded o.ctx die (d.needs 0) ((d.centry + 2 ^ 64 - 16) % 2 ^ 64) 16 = .ok (s4, .ok crec) ∧
    s4.feNeeded o.ctx die (d.needs 1) ((d.pentry + 2 ^ 64 - 16) % 2 ^ 64) 16 = .ok (s5, .ok prec) ∧
    nteam = s2.teamCount src d o.tokens ∧ s5.gridReason (s5.ctx o.ctx) o.gd b src o.bad nteam crec prec = none

/-! ### Host registers -/

/-- A write of a host function reaches a context whose fields it names: 0 in LAST when the command is accepted. -/
abbrev Accepts (s : State) (fn ctx : Nat) (can : Context → Bool) : Prop :=
  s.mayReach fn ctx = true ∧ can (s.ctx ctx) = true

/-! ### Dusk (R309) -/

/-- Every granule of the ranges a Dusk engine reads and writes for a context is mapped and permitted, and nothing it reads
is uncorrectable. -/
abbrev DuskReaches (s : State) (ctx die : Nat) (world : Bool) (rds wrs : List (Nat × Nat)) : Prop :=
  let checks := duskRanges die world rds wrs
  s.engChecks (s.ctx ctx) checks = none ∧ rds.any (fun r =>
    (s.engTouch (s.ctx ctx) checks).vbad (s.engOuts (s.ctx ctx) checks) r.1 r.2) = false

/-- The same for a sweep. -/
abbrev SweepReaches (s : State) (w : Sweep) (rds wrs : List (Nat × Nat))
    : Prop := DuskReaches s w.ctx w.die w.world rds wrs

/-- The translations of a sweep's ranges. -/
abbrev sweepOuts (s : State) (w : Sweep) (rds wrs : List (Nat × Nat)) : List (Nat × Xlat) :=
  s.engOuts (s.ctx w.ctx) (duskRanges w.die w.world rds wrs)

/-- What a sweep's accesses leave in the TLB, in the caches and in the counters of absent memory. -/
abbrev sweepTouched (s : State) (w : Sweep) (rds wrs : List (Nat × Nat)) : State :=
  s.engTouch (s.ctx w.ctx) (duskRanges w.die w.world rds wrs)

/-- The bytes a sweep reads at an address. -/
abbrev sweepRead (s : State) (w : Sweep) (a n : Nat) : List Byte := s.vread (sweepOuts s w [(a, n)] []) a n

/-- The row of the table that a page step of the sweep belongs to: KVRES_RESTORE for a KVRES, DUSK_PAGE_STEP else. -/
abbrev stepRow (w : Sweep) (die ctx : Nat) : Instr :=
  if w.source = .kvres then .kvresRestore die ctx else .duskPageStep die ctx

/-- Dusk works on the oldest sweep of a context of its die: it has the turn, or the sweep only ends, which takes none. s1 is
the state that has noted a turn (R304). -/
abbrev Sweeping (s : State) (die ctx : Nat) (w : Sweep) (s1 : State) : Prop :=
  s.sweep? die ctx = some w ∧ s.sweepRuns w = true ∧ (w.ending = true ∨ s.duskTurn die ctx = true) ∧
    s1 = if w.ending = true then s else s.duskServed die ctx

/-- The same for a hand-back to the freed ring. -/
abbrev RingReaches (s : State) (h : HandBack) (rds wrs : List (Nat × Nat)) : Prop :=
  DuskReaches s h.ctx h.die h.world rds wrs

/-- The translations of a ring's ranges for a hand-back. -/
abbrev ringOuts (s : State) (h : HandBack) (rds wrs : List (Nat × Nat)) : List (Nat × Xlat) :=
  s.engOuts (s.ctx h.ctx) (duskRanges h.die h.world rds wrs)

/-! ### What a team keeps -/

/-- What no class 0 or 1 instruction changes: everything of a team but its registers, its flags, its expand state and
its progress through the clause. -/
def SameTeamState (t t' : Team) : Prop :=
  t'.b = t.b ∧ t'.stack = t.stack ∧ t'.act = t.act ∧ t'.exited = t.exited ∧ t'.tmask = t.tmask ∧ t'.hnd = t.hnd ∧
    t'.ts = t.ts ∧ t'.tbase = t.tbase ∧ t'.saveptr = t.saveptr ∧ t'.srseed = t.srseed ∧ t'.srstream = t.srstream ∧
    t'.svcvec = t.svcvec ∧ t'.stamp = t.stamp ∧ t'.world = t.world ∧ t'.outst = t.outst ∧ t'.index = t.index ∧ t'.n = t.n

/-- What the device keeps when an instruction changes its team alone: every byte of memory, the other teams, contexts,
grids, cores and registers of the device. -/
def SameDevice (s s' : State) : Prop :=
  s'.mem = s.mem ∧ s'.hostMem = s.hostMem ∧ s'.poison = s.poison ∧ s'.casts = s.casts ∧ s'.cores = s.cores ∧
    s'.contexts = s.contexts ∧ s'.grids = s.grids ∧ s'.regs = s.regs ∧ s'.wrt = s.wrt ∧ s'.mgmt = s.mgmt ∧
    s'.tlb = s.tlb ∧ s'.out = s.out

/-! ### Encodings that are refused (R7, R75) -/

/-- The team has reached its clause's next instruction: it does not settle, and no window holds it. -/
abbrev Reaches (s : State) (t : Team) (c : Clause) : Prop :=
  s.current = some (t, c) ∧ t.settling = false ∧ t.heldByWindow c = false

/-- An instruction whose encoding no team may execute: reaching it traps with ILLEGAL_INSTR. -/
abbrev Refuses (i : Instr) : Prop :=
  ∀ s t c, Reaches s t c → exec i s = .next (s.trapNow t c { code := .illegalInstr })

/-- A lane in which an F1 instruction writes: an active lane, or any lane for a destination that all lanes share. -/
abbrev Writes (t : Team) (o : F1) (l : Nat) : Prop := l < t.n ∧ (t.act.getLsbD l = true ∨ o.scalar = true)

/-! ### The registers a class 0 or 1 instruction writes (R26, R101) -/

/-- Registers of its destination. -/
def destRun : Instr → Nat
  | .mov o | .sel o | .notL o | .brev o | .andL o | .orL o | .xorL o | .andn o | .shl o | .shr o | .sar o | .rot o
  | .bfi o | .shfl o | .bcast o | .compact o => o.run .b32
  | .iadd o | .isub o | .imul o | .imulh o | .imin o | .imax o | .iabs o | .ineg o => o.run .s32
  | .imad o => if (o.ext .s32).fn == 1 then 2 else o.run .s32
  | .iadc o | .isbc o | .bfx o => o.run .n32
  | .lea _ => 2
  | .cvt o | .reduce o | .scan o | .segred o | .segscan o => o.run .f32
  | .lrscan o => if (o.ext .f32).fn == 1 then 1 else 2
  | _ => 1

/-- The registers it writes beside its destination: the carry-out of IADC and ISBC, and P6 of EXDEAL. -/
def sideWrites : Instr → List Reg
  | .iadc o | .isbc o =>
    let x := o.ext .n32
    if !x.fn.getLsbD 3 then []
    else if o.scalar then [.q (x.fn.extractLsb' 0 3).toNat]
    else (Operand.p (x.fn.extractLsb' 0 3)).regs 1
  | .exdeal _ => [.p 6]
  | _ => []

/-- Every V, S, P and Q register that a class 0 or 1 instruction may change. -/
def f1Writes (i : Instr) : List Reg := (f1Of i).elim [] fun o => o.d.regs (destRun i) ++ sideWrites i

/-- SEGRED writes in the lanes that its segments name, active or not (R139). -/
def writesAnyLane : Instr → Bool
  | .segred _ => true
  | _ => false

/-- Everything outside the named registers reads as before; registers that have a value for each lane keep it in the
lanes that are not active; flags are only added. -/
def KeepsRegisters (ws : List Reg) (anyLane : Bool) (d : Operand) (t t' : Team) : Prop :=
  (∀ r l, Reg.v r ∉ ws → t'.readV r l = t.readV r l) ∧
  (∀ r l, anyLane = false → l < t.n → t.act.getLsbD l = false → t'.readV r l = t.readV r l) ∧
  (∀ r, Reg.s r ∉ ws → t'.readS r = t.readS r) ∧
  (∀ r, Reg.p r ∉ ws → t'.readP r = t.readP r) ∧
  (∀ r l, l < t.n → t.act.getLsbD l = false → (t'.readP r).getLsbD l = (t.readP r).getLsbD l) ∧
  (∀ r, Reg.q r ∉ ws → t'.readQ r = t.readQ r) ∧
  (∀ r, (∀ n : BitVec 4, d = .k n → r ≠ n.toNat) → t'.readK r = t.readK r) ∧
  t'.fpstat &&& t.fpstat = t.fpstat

/-! ### What stays in memory -/

/-- Every byte of device memory, of host memory and of every cast's scratch is as before. -/
def SameMemory (s s' : State) : Prop :=
  s'.mem = s.mem ∧ s'.hostMem = s.hostMem ∧ s'.casts.map (fun c => (c.id,
      c.scratch)) = s.casts.map fun c => (c.id, c.scratch)

/-- The encoded instructions that write memory as they issue: state blocks (R213), and the cast that EXIT.saved takes
off its core (R94). -/
def storesAtIssue : Instr → Bool
  | .statesvTeam _ | .statesvBar _ | .exitSaved => true
  | _ => false

/-- The device addresses that the lanes of a store of `z` bytes write: from the device address of each lane's first byte,
where its page lies in the device's memory. -/
def storedDevice (e : Outst) (z : Nat) : List Nat := e.addrs.flatMap fun a =>
  match lookupX e.outs (granule a.2) with
  | some (.mapped b _) => (List.range z).map fun k => b + a.2 % 65536 + k
  | _ => []

/-- A device address lies in a line that an L1 or an L2 holds: the lines that a step may write back (R251). -/
def State.lineAt (s : State) (a : Nat) : Prop :=
  (∃ ls ∈ s.l2, ∃ l ∈ ls, l.base ≤ a ∧ a < l.base + 128) ∨ ∃ c ∈ s.cores, ∃ l ∈ c.l1, l.base ≤ a ∧ a < l.base + 128

/-- No L2 holds a dirty line: everything stored has reached memory. -/
def State.allClean (s : State) : Prop := ∀ ls ∈ s.l2, ∀ l ∈ ls, l.dirty = 0

/-- No cache holds a line. -/
def State.noLines (s : State) : Prop := (∀ ls ∈ s.l2, ls = []) ∧ ∀ c ∈ s.cores, c.l1 = []

/-- A device address lies in a line that a lane of an access of `z` bytes touches. -/
def accessedLine (e : Outst) (z a : Nat) : Prop :=
  ∃ x ∈ e.addrs, ∃ b p, lookupX e.outs (granule x.2) = some (.mapped b p) ∧
    b + x.2 % 65536 / 128 * 128 ≤ a ∧ a < b + (x.2 % 65536 + z + 127) / 128 * 128

/-- Every lane of an access is aligned to its size, and its granules' pages are those granules' own (R145, R256). -/
def ProperLanes (e : Outst) (z : Nat) : Prop :=
  0 < z ∧ 65536 % z = 0 ∧ 128 % z = 0 ∧ (∀ x ∈ e.addrs, x.2 % z = 0) ∧ ∀ g b p, (g, Xlat.mapped b p) ∈ e.outs → p.g = g

/-- Every page an entry has translated is system-coherent: its accesses bypass the caches (R258). -/
def Outst.uncached (e : Outst) : Prop := ∀ g b p, (g, Xlat.mapped b p) ∈ e.outs → p.sysc = true

/-- Host memory and every cast's scratch are as before, and so is every byte of device memory that `p` does not name. -/
def KeepsOthers (p : Nat → Prop) (s s' : State) : Prop :=
  s'.hostMem = s.hostMem ∧ s'.casts.map (fun c => (c.id, c.scratch)) = s.casts.map (fun c => (c.id, c.scratch)) ∧
    ∀ a, ¬ p a → s'.mem.read a = s.mem.read a

/-- The encoded instructions that fill cache lines as they issue: a prefetch (R161), and the read of a state block (R213). -/
def fillsAtIssue : Instr → Bool
  | .pfetch _ | .statersTeam _ | .statersBar _ => true
  | _ => false

/-- The host addresses that the lanes of a store of `z` bytes write. -/
def storedHost (e : Outst) (z : Nat) : List Nat := e.addrs.flatMap fun a =>
  match lookupX e.outs (granule a.2) with
  | some (.host b) => (List.range z).map fun k => b + a.2 % 65536 + k
  | _ => []

/-- Entry e of team tm is what F2_COMPLETION of that key performs: it completes now, or it has completed before. -/
def Performed (s : State) (t k : Nat) (tm : Team) (e : Outst) : Prop :=
  s.posted? t k = some (tm, e) ∨ (s.posted? t k = none ∧ s.entry? t k = some (tm, e))

/-- Every copy that a cache holds of a line is one of its 128 bytes at its address. -/
def State.TrueCopies (s : State) (k : Line) : Prop :=
  let copy (l : Line) : Prop := k.same l = true → l.data.length = 128 ∧ l.base = k.base ∧ l.home = k.home
  (∀ ls ∈ s.l2, ∀ l ∈ ls, copy l) ∧ ∀ c ∈ s.cores, ∀ l ∈ c.l1, copy l

/-- The addresses of the bytes of the lanes of a store of `z` bytes. -/
def storedBytes (e : Outst) (z : Nat) : List Nat := e.addrs.flatMap fun a => (List.range z).map fun k => a.2 + k

/-- A byte of the scratch of a cast. -/
def State.scratchByte (s : State) (cast a : Nat) : Option Byte := (s.cast? cast).map fun c => c.scratch.read a

/-! ### Masks (R91) -/

/-- What a mask instruction makes of its team (R91, R94). -/
def maskStep : Instr → Option (Team → Except TrapCode Team)
  | .ifP p => some fun t => t.pushIf (t.activeWith p)
  | .ifnP p => some fun t => t.pushIf (t.act &&& ~~~t.readP p.toNat)
  | .elseP => some Team.elseSwap
  | .endif => some Team.popIf
  | .loopP => some Team.pushLoop
  | .breakP p => some fun t => t.leaveLoop (t.activeWith p) false
  | .contP p => some fun t => t.leaveLoop (t.activeWith p) true
  | .endloop q => some fun t => t.endLoop q
  | .serial => some Team.pushSerial
  | .endserial q => some fun t => t.endSerial q
  | .exitP p => some fun t => .ok (t.exitLanes (t.activeWith p))
  | _ => none

/-! ### Requests of a host function (R344, R349, R350) -/

/-- The requests of function `fn` that name a context. -/
def hostRequest (fn ctx : Nat) : Instr → Bool
  | .doorbell f c _ _ | .cdesc f c _ | .ccmdPreempt f c | .ccmdResume f c | .ccmdReset f c | .ccmdUnregister f c
  | .ccmdReserved f c _ | .dusktb f c _ => f == fn && c == ctx
  | .resolveRetry f w | .resolveFail f w | .resolveRetryAll f w => f == fn && (resolveFields w).2.1 == ctx
  | .registerWrite f off _ _ => f == fn && decide (0x100000 ≤ off) && decide (off < 0x110000) &&
      (off - 0x100000) / 64 == ctx
  | _ => false

/-! ### Canonical memory -/

/-- The memory of the device and the scratch of every cast are in canonical form. -/
def State.MemWf (s : State) : Prop := Memory.wf s.mem = true ∧ ∀ c ∈ s.casts, Memory.wf c.scratch = true

/-- The record windows of BAR0 are in canonical form. -/
def State.WindowsWf (s : State) : Prop := Memory.wf s.regs.windows = true

/-! ### A safe run -/

/-- The machine never stops from a state: every number of steps answers a next state. -/
def SafeFrom (s : State) : Prop := ∀ k, ∃ s', core.run k s = .next s'

end Sys2Proof.Machine
end

