-- ==== Sys2Proof/Certificates/Slice0/Obligations.lean ====
section
/-! DEFINITION. The statements for the provers. -/

open Sys2Proof Sys2Proof.Machine

/-- Every issuing MOV, SEL, SVAL, IADD, ISUB, IMUL, IMULH, IMAD, IMIN, IMAX, IABS and INEG of any form answers the
next state in which its destination alone is written, in the active lanes or once, with the value R104 to R106 give
(elements of the type, negated, combined, saturated, wrapped; the wide form of IMAD with a 64-bit addend), and its
clause goes on. (Derived from 05 section 2, R104, R105, R106, R26.) -/
def Obligations.MovesAndIntegerArithmeticComplete : Prop :=
  (∀ o, Yields (.mov o) fun t => t.put o.d (o.ext .b32).ty.is64 fun l => t.val (o.ext .b32).ty l o.a) ∧
  (∀ o, Yields (.sel o) fun t => t.put o.d (o.ext .b32).ty.is64 fun l =>
    if t.cond l o.third then t.num (o.ext .b32).ty.is64 false false l o.a
    else t.num (o.ext .b32).ty.is64 false false l o.b) ∧
  (∀ o, Yields (.sval o) fun t => t.put o.d false fun l => t.svalOf (t.word false 0 o.a).toNat l) ∧
  (∀ o, Yields (.iadd o) (intResult o .s32 fun _ x y _ => x + y)) ∧
  (∀ o, Yields (.isub o) (intResult o .s32 fun _ x y _ => x - y)) ∧
  (∀ o, Yields (.imul o) (intResult o .s32 fun _ x y _ => x * y)) ∧
  (∀ o, Yields (.imulh o) (intResult o .s32 fun ty x y _ => x * y / (2 ^ ty.bits : Nat))) ∧
  (∀ o, (o.ext .s32).fn ≠ 1 → Yields (.imad o) (intResult o .s32 fun _ x y z => x * y + z)) ∧
  (∀ o, (o.ext .s32).fn = 1 → Yields (.imad o) fun t => t.put o.d true fun l =>
    imadWide (o.ext .s32) (t.num false false false l o.a) (t.num false false false l o.b)
      (t.num true (o.ext .s32).ty.isSigned false l o.third)) ∧
  (∀ o, Yields (.imin o) (intResult o .s32 fun _ x y _ => min x y)) ∧
  (∀ o, Yields (.imax o) (intResult o .s32 fun _ x y _ => max x y)) ∧
  (∀ o, Yields (.iabs o) (intResult o .s32 fun _ x _ _ => (x.natAbs : Int))) ∧
  (∀ o, Yields (.ineg o) (intResult o .s32 fun _ x _ _ => -x))

/-- Every issuing IADC and ISBC writes A plus or minus B and the carry-in modulo the type's width, and its carry-out
to the predicate that FN names (P in the active lanes, Q once) when FN asks for it; LEA writes A plus the shifted B;
ISET the comparison as 0 or 1; BYTEP the selected bytes. (Derived from R107, R108, R109, R112, R111.) -/
def Obligations.CarryAddressAndCompareComplete : Prop :=
  (∀ o, Yields (.iadc o) (carryResult o false)) ∧ (∀ o, Yields (.isbc o) (carryResult o true)) ∧
  (∀ o, Yields (.lea o) fun t => t.put o.d true fun l =>
    leaOf (o.ext .b64).fn (t.num true false false l o.a) (t.num false false false l o.b)) ∧
  (∀ o, Yields (.iset o) fun t => t.put o.d false fun l =>
    let a := intOf (o.ext .s32).ty (t.val (o.ext .s32).ty l o.a)
    let b := intOf (o.ext .s32).ty (t.val (o.ext .s32).ty l o.b)
    (cmpOf (o.ext .s32).fn.toNat (decide (a < b)) (a == b)).toNat) ∧
  (∀ o, Yields (.bytep o) fun t => t.put o.d (o.ext .b32).ty.is64 fun l =>
    bytepOf (t.val (o.ext .b32).ty l o.a) (t.val (o.ext .b32).ty l o.b) (t.val (o.ext .b32).ty l o.third))

/-- Every issuing AND, OR, XOR, ANDN, NOT, SHL, SHR, SAR, ROT, BFX, BFI, POPC, CLZ and BREV writes its destination
alone with the value R110 and R111 give; B of the shifts and bit fields is a 32-bit position. (Derived from R110,
R111.) -/
def Obligations.LogicShiftsAndFieldsComplete : Prop :=
  (∀ o, Yields (.andL o) (bitResult o .b32 false fun _ a b _ => a &&& b)) ∧
  (∀ o, Yields (.orL o) (bitResult o .b32 false fun _ a b _ => a ||| b)) ∧
  (∀ o, Yields (.xorL o) (bitResult o .b32 false fun _ a b _ => a ^^^ b)) ∧
  (∀ o, Yields (.andn o) (bitResult o .b32 false fun ty a b _ => a &&& notBits ty.bits b)) ∧
  (∀ o, Yields (.notL o) (bitResult o .b32 false fun ty a _ _ => notBits ty.bits a)) ∧
  (∀ o, Yields (.shl o) (bitResult o .b32 true fun ty a b _ => shlOf ty.bits a b)) ∧
  (∀ o, Yields (.shr o) (bitResult o .b32 true fun ty a b _ => shrOf ty.bits a b)) ∧
  (∀ o, Yields (.sar o) (bitResult o .b32 true fun ty a b _ => sarOf ty.bits a b)) ∧
  (∀ o, Yields (.rot o) (bitResult o .b32 true fun ty a b _ => rotOf ty.bits a b)) ∧
  (∀ o, Yields (.bfx o) (bitResult o .n32 true fun ty a b _ => bfxOf ty a b)) ∧
  (∀ o, Yields (.bfi o) (bitResult o .b32 true fun ty a b c => bfiOf ty.bits a b c)) ∧
  (∀ o, Yields (.brev o) (bitResult o .b32 false fun ty a _ _ => brevBits ty.bits a)) ∧
  (∀ o, Yields (.popc o) fun t => t.put o.d false fun l =>
    popBits (o.ext .b32).ty.bits (t.num (o.ext .b32).ty.is64 false false l o.a)) ∧
  (∀ o, Yields (.clz o) fun t => t.put o.d false fun l =>
    clzBits (o.ext .b32).ty.bits (t.num (o.ext .b32).ty.is64 false false l o.a))

/-- Every issuing FADD, FSUB, FMUL, FFMA, FMIN, FMAX, FSET, FRCP, FRSQ, FSQRT, FEXP2, FLOG2, FSCALE, FEXPO, FCLASS and
FRND of any form writes its destination alone with the rounded result of R113 to R116 and R56, and merges the flags of
the lanes that raise them into FPSTAT (FCLASS raises none). The zero sign of FSUB and of a product (log 46), the
values of FEXP2 and FLOG2 (log 9) and a K destination of FCLASS (log 47) are the model's choice. (Derived from R113,
R114, R115, R116, R56, R35.) -/
def Obligations.FloatingPointCompletes : Prop :=
  (∀ o, Yields (.fadd o) (fpResult o fun x a b _ h => Fmt.f32.add x.rm h (dec32 a) (dec32 b))) ∧
  (∀ o, Yields (.fsub o) (fpResult o fun x a b _ h => Fmt.f32.add x.rm h (dec32 a) (dec32 b).neg)) ∧
  (∀ o, Yields (.fmul o) (fpResult o fun x a b _ h => Fmt.f32.mulR x.rm h (dec32 a) (dec32 b))) ∧
  (∀ o, Yields (.ffma o) (fpResult o fun x a b c h => Fmt.f32.fma x.rm h (dec32 a) (dec32 b) (dec32 c))) ∧
  (∀ o, Yields (.fmin o) (fpResult o fun _ a b _ _ => fpMinMax false a b)) ∧
  (∀ o, Yields (.fmax o) (fpResult o fun _ a b _ _ => fpMinMax true a b)) ∧
  (∀ o, Yields (.fset o) (fpResult o fun x a b _ _ =>
    ((fpCompare x.fn.toNat (dec32 a) (dec32 b)).1.toNat, (fpCompare x.fn.toNat (dec32 a) (dec32 b)).2))) ∧
  (∀ o, Yields (.frcp o) (fpResult o fun _ a _ _ _ => frcp (dec32 a))) ∧
  (∀ o, Yields (.frsq o) (fpResult o fun _ a _ _ _ => frsq (dec32 a))) ∧
  (∀ o, Yields (.fsqrt o) (fpResult o fun _ a _ _ _ => fsqrt (dec32 a))) ∧
  (∀ o, Yields (.fexp2 o) (fpResult o fun _ a _ _ _ => fexp2 (dec32 a))) ∧
  (∀ o, Yields (.flog2 o) (fpResult o fun _ a _ _ _ => flog2 (dec32 a))) ∧
  (∀ o, Yields (.fscale o) fun t => t.putFlags o.d false fun l =>
    fscaleOf (o.ext .f32).rm (t.drawSr 0 l) (negBits .f32 (o.ext .f32).na (t.fval l o.a))
      (if (o.ext .f32).nb then intOf .s32 (wrap 32 (-(intOf .s32 (t.word false l o.b).toNat)))
       else intOf .s32 (t.word false l o.b).toNat)) ∧
  (∀ o, Yields (.fexpo o) (fpResult o fun _ a _ _ _ => fexpoOf a)) ∧
  (∀ o, Yields (.fclass o) fun t => t.put o.d false fun l =>
    if o.d.isP || o.d.isQ then (fclassOf (t.fval l o.a) &&& (t.word false l o.b).toNat % 1024 != 0).toNat
    else fclassOf (t.fval l o.a)) ∧
  (∀ o, Yields (.frnd o) (fpResult o fun x a _ _ h => frndOf x.rm h (x.fn == 1) a))

/-- Every issuing CVT, PACK, UNPK, HADD2, HMUL2, HFMA2, DOT2, DOT4, PAND, POR, PXOR, PNOT and PMOV writes its
destination alone with the value R117 to R122 give, and the arithmetic ones merge their flags into FPSTAT. The zero
sign of a product and the NV of DOT2 and DOT4 (log 46), constants in packed positions (log 10) and B of the .fx forms
of CVT (log 69) are the model's choice. (Derived from R117, R118, R119, R120, R121, R122.) -/
def Obligations.ConversionsPackedAndPredicatesComplete : Prop :=
  (∀ o, Yields (.cvt o) fun t =>
    let x := o.ext .f32
    let src := (Ty.ofCode x.fn.toNat).getD .f32
    t.putFlags o.d x.ty.is64 fun l =>
      if x.ty == .fx then fxDigit (t.fval l o.a) (t.word false l o.b).toNat
      else if src == .fx then (Fmt.ofTy x.ty).round x.rm (t.drawSr 0 l) (fxValue (t.runWord l o.a))
      else cvtOf x.ty src x.rm x.sat (t.drawSr 0 l) (t.num src.is64 src.isSigned (!src.isInt) l o.a)) ∧
  (∀ o, Yields (.pack o) fun t =>
    let ty := (packArgs o).1
    let k := (packArgs o).2
    let w := packSlot ty
    t.putFlags o.d false fun l =>
      let r := (Fmt.ofTy ty).round (o.ext .f32).rm (t.drawSr k l) (dec32 (negBits .f32 (o.ext .f32).na (t.fval l o.a)))
      (((t.word false l o.d).toNat &&& notBits 32 ((2 ^ w - 1) * 2 ^ (w * k))) ||| r.1 * 2 ^ (w * k), r.2)) ∧
  (∀ o, Yields (.unpk o) fun t => t.putFlags o.d false fun l =>
    Fmt.f32.round .rne 0 ((Fmt.ofTy (packArgs o).1).decode
      ((t.word true l o.a).toNat >>> (packSlot (packArgs o).1 * (packArgs o).2) % 2 ^ (packArgs o).1.bits))) ∧
  (∀ o, Yields (.hadd2 o) (halfResult o fun fm rm h a b _ => fm.add rm h a b)) ∧
  (∀ o, Yields (.hmul2 o) (halfResult o fun fm rm h a b _ => fm.mulR rm h a b)) ∧
  (∀ o, Yields (.hfma2 o) (halfResult o fun fm rm h a b c => fm.fma rm h a b c)) ∧
  (∀ o, Yields (.dot4 o) (dotResult o .e4m3 4)) ∧ (∀ o, Yields (.dot2 o) (dotResult o .f16 2)) ∧
  (∀ o, Yields (.pand o) (predResult o (· && ·))) ∧ (∀ o, Yields (.por o) (predResult o (· || ·))) ∧
  (∀ o, Yields (.pxor o) (predResult o (· != ·))) ∧ (∀ o, Yields (.pnot o) (predResult o fun a _ => !a)) ∧
  (∀ o, Yields (.pmov o) (predResult o fun a _ => a))

/-- Every issuing SHFL, BCAST, VOTE, MATCH, COMPACT, REDUCE, SCAN, SEGSCAN, LRSCAN and SEGRED writes its destination
alone, in the lanes its rule names, with the value combined from the lanes its rule picks, and merges its flags. The
value that BCAST takes of an inactive lane, the one register D of MATCH with a 64-bit type and the lanes whose flags
SEGRED merges are the model's choice (log 68). (Derived from R127, R128, R129, R130, R131, R132, R133, R134, R135,
R139.) -/
def Obligations.LaneOperationsComplete : Prop :=
  (∀ o, Yields (.shfl o) fun t => t.put o.d (o.ext .b32).ty.is64 fun l =>
    t.num (o.ext .b32).ty.is64 false false
      ((shflLane t.n (o.ext .b32).fn l (t.word false l o.b).toNat).getD l) o.a) ∧
  (∀ o, Yields (.bcast o) fun t => t.put o.d (o.ext .b32).ty.is64 fun _ =>
    let a l := t.num (o.ext .b32).ty.is64 false false l o.a
    if (o.ext .b32).fn == 1 then (t.lanes.head?.map a).getD 0
    else if (t.word false 0 o.b).toNat < t.n then a (t.word false 0 o.b).toNat else 0) ∧
  (∀ o, Yields (.vote o) fun t => t.put o.d false
    (voteOf t (o.ext .b32).fn.toNat (t.act &&& maskOf t.n fun l => t.cond l o.a != (o.ext .b32).na))) ∧
  (∀ o, Yields (.matchP o) fun t => t.put o.d false fun l =>
    (t.lanes.find? fun j =>
      t.num (o.ext .b32).ty.is64 false false j o.a == t.num (o.ext .b32).ty.is64 false false l o.a).getD l) ∧
  (∀ o, Yields (.compact o) fun t =>
    let sel := t.lanes.filter fun l => t.cond l o.b
    t.putIn (if (o.ext .b32).fn == 1 then t.act else t.act &&& maskOf t.n fun l => t.rank l < sel.length) o.d
      (o.ext .b32).ty.is64 fun l =>
        match sel[t.rank l]? with
        | some j => t.num (o.ext .b32).ty.is64 false false j o.a
        | none => 0) ∧
  (∀ o, Yields (.reduce o) (redResult o fun t x l => t.lanes.filter fun j => !x.fn.getLsbD 3 || j / 32 == l / 32)) ∧
  (∀ o, Yields (.scan o) (redResult o fun t x l => t.lanes.filter fun j =>
    (!x.fn.getLsbD 4 || j / 32 == l / 32) && (j < l || (j == l && !x.fn.getLsbD 3)))) ∧
  (∀ o, Yields (.segscan o) (redResult o fun t x l => t.lanes.filter fun j =>
    decide (segHead t o l ≤ j) && (j < l || (j == l && !x.fn.getLsbD 3)))) ∧
  (∀ o, Yields (.lrscan o) fun t =>
    let pair l := ((lrScan t o).1.getD l none).getD (0, 0)
    (t.put o.d (!((o.ext .f32).fn == 1)) fun l =>
      (pair l).2.toNat + 2 ^ 32 * (if (o.ext .f32).fn == 1 then 0 else (pair l).1.toNat)).raise (lrScan t o).2) ∧
  (∀ o, Yields (.segred o) fun t =>
    let x := o.ext .f32
    let sent := t.lanes.map fun l =>
      ((t.word false l o.b).toNat, t.num x.ty.is64 x.ty.isSigned (x.ty == .f32) l o.a)
    let m := t.existing &&& ~~~t.exited &&& maskOf t.n fun l => sent.any (·.1 == l)
    let r l := redCombine (x.fn.extractLsb' 0 3).toNat x.ty x.sat
      ((if x.fn.getLsbD 3 then [t.num x.ty.is64 false false l o.d] else []) ++ ((sent.filter (·.1 == l)).map (·.2)))
    (t.putIn m o.d x.ty.is64 fun l => (r l).1).raise (Flags.all ((Mask.lanes m t.n).map fun l => (r l).2)))

/-- An issuing EXSET on an idle expand state whose lengths sum below 2^32 writes each active lane the sum of the
lengths below it and arms the state with the total, cursor 0 and the pairs; armed, or with a larger sum, it traps with
EXPAND_STATE. EXDEAL on an armed state deals the next iterations to the active lanes in order, writes P6 and the
owners, and moves the cursor by their number; on an idle state it traps. EXCLR makes the state idle. (Derived from
R136, R137, R138.) -/
def Obligations.ExpandUnitCompletes : Prop :=
  (∀ o s t c, Issues (.exset o) s t c → t.expand.armed = false → exBase (exPairs t o) t.n ≤ 0xFFFFFFFF →
    exec (.exset o) s = .next (s.done { t.put o.d false (exBase (exPairs t o)) with
      expand := { armed := true, total := BitVec.ofNat 32 (exBase (exPairs t o) t.n), cursor := 0,
                  pairs := exPairs t o, owners := [] } } c)) ∧
  (∀ o, Traps (.exset o) (fun _ t => t.expand.armed = true ∨ 0xFFFFFFFF < exBase (exPairs t o) t.n)
    fun _ _ => { code := .expandState }) ∧
  (∀ o s t c, Issues (.exdeal o) s t c → t.expand.armed = true →
    let give := min t.lanes.length (t.expand.total.toNat - t.expand.cursor.toNat)
    let dealt := maskOf t.n fun l => (exDealt t give l).isSome
    let t1 := (t.putIn dealt o.d false fun l =>
        match exDealt t give l with
        | some (ow, b, f) =>
          if (o.ext .n32).fn == 1 then f - b else ((t.expand.pairs.getD ow (0, 0)).1.toNat + f - b) % 2 ^ 32
        | none => 0).writeP 6 t.act dealt
    exec (.exdeal o) s = .next (s.done { t1 with expand := { t.expand with
      cursor := t.expand.cursor + BitVec.ofNat 32 give
      owners := (List.range t.n).map fun l =>
        match exDealt t give l with
        | some (ow, _, _) => BitVec.ofNat 32 ow
        | none => 0xFFFFFFFF } } c)) ∧
  (∀ o, Traps (.exdeal o) (fun _ t => t.expand.armed = false) fun _ _ => { code := .expandState }) ∧
  (∀ o, Yields (.exclr o) fun t => { t with expand := Expand.reset })

/-- PREP sets its branch-target register to the address of its own word plus four times the offset, PREPS to the S
pair plus four times the offset where that is aligned and below 2^52 (else MISALIGNED or PROTECTION); SCMP and QSET
write their Q bit. A transfer whose condition fails goes on; one whose condition holds takes a valid target as the
next clause (XCALL first writes the return address to its link pair and prepares B7 with it) and traps with
UNPREPARED_TARGET on an invalid one. A call through B7 is taken once nothing of its clause is outstanding. That PREPS
traps with ADDR the target address (log 12), that a transfer with CND 0 takes any QN (log 11), and the wait of a call
through B7 (log 89) are the model's choice. (Derived from R83, R84, R88, R89, R90.) -/
def Obligations.ControlFlowCompletes : Prop :=
  (∀ b off s t c, Issues (.prep b off) s t c → exec (.prep b off) s = .next (s.done (t.prepare b
    ((t.pc + BitVec.ofNat 64 (4 * (1 + c.woff)) + 4 * off.signExtend 64).setWidth 52)) c)) ∧
  (∀ b off r s t c, Issues (.preps b off r) s t c →
    let a := t.readSS r.toNat + 4 * off.signExtend 64
    exec (.preps b off r) s = .next (
      if a.toNat % 4 ≠ 0 then s.trapNow t c { code := .misaligned, addr := a }
      else if 2 ^ 52 ≤ a.toNat then s.trapNow t c { code := .protection, addr := a }
      else s.done (t.prepare b (a.setWidth 52)) c)) ∧
  (∀ q cc ty a b, Yields (.scmp q cc ty a b) fun t => t.writeQ q.toNat (scmpOf t cc ty a b)) ∧
  (∀ q md, Yields (.qset q md) fun t => t.writeQ q.toNat (qsetOf t md)) ∧
  (∀ b q neg cnd, Transfers (.xfer b q neg cnd) b (fun t => !cnd || (t.readQ q.toNat != neg)) fun t _ => t) ∧
  (∀ b q neg cnd link, Transfers (.xcall b q neg cnd link) b (fun t => !cnd || (t.readQ q.toNat != neg))
    (fun t c => (link.elim t fun r => t.writeSS r.toNat (t.seqAddr c)).prepare 7 ((t.seqAddr c).setWidth 52))
    fun t => b = 7 → t.mine = []) ∧
  (∀ q neg cnd link s t c, Issues (.xcall 7 q neg cnd link) s t c → (cnd = false ∨ t.readQ q.toNat ≠ neg) →
    (t.branch 7).valid = true → t.mine ≠ [] → exec (.xcall 7 q neg cnd link) s = .next s) ∧
  (∀ b p neg, Transfers (.xany b p neg) b
    (fun t => t.act &&& (if neg then ~~~t.readP p.toNat else t.readP p.toNat) != 0) fun t _ => t) ∧
  (∀ b p neg, Transfers (.xall b p neg) b
    (fun t => t.act &&& (if neg then ~~~t.readP p.toNat else t.readP p.toNat) == t.act) fun t _ => t)

/-- IF and IFN below 16 entries push IF with the lanes left out; ELSE on IF exchanges; ENDIF on IF or ELSE joins and
pops; LOOP up to 14 entries pushes LOOPX with Act and an empty LOOPC; BREAK and CONT, whose highest entry outside IF
and ELSE is LOOPC, take their lanes out of Act, and CONT parks them there; ENDLOOP iterates with the lanes left or
pops both entries; SERIAL keeps the lowest lane, ENDSERIAL takes the next or pops. With no room each traps with
MASK_STACK_OVERFLOW, with no such entry with MASK_STACK_MISMATCH, and changes no entry, mask or Q. (Derived from R91.)
-/
def Obligations.DivergenceCompletes : Prop :=
  (∀ p, MaskStep (.ifP p) (fun t => t.stack.length ≠ 16) fun t =>
    { t with stack := { kind := .ifK, mask := t.act &&& ~~~(t.act &&& t.readP p.toNat) } :: t.stack
             act := t.act &&& t.readP p.toNat }) ∧
  (∀ p, MaskStep (.ifnP p) (fun t => t.stack.length ≠ 16) fun t =>
    { t with stack := { kind := .ifK, mask := t.act &&& ~~~(t.act &&& ~~~t.readP p.toNat) } :: t.stack
             act := t.act &&& ~~~t.readP p.toNat }) ∧
  (∀ p, Traps (.ifP p) (fun _ t => t.stack.length = 16) fun _ _ => { code := .maskStackOverflow }) ∧
  (∀ p, Traps (.ifnP p) (fun _ t => t.stack.length = 16) fun _ _ => { code := .maskStackOverflow }) ∧
  (∀ m r, MaskStep .elseP (fun t => t.stack = { kind := .ifK, mask := m } :: r) fun t =>
    { t with stack := { kind := .elseK, mask := t.act } :: r, act := m &&& ~~~t.exited }) ∧
  Traps .elseP (fun _ t => ∀ m r, t.stack ≠ { kind := .ifK, mask := m } :: r) (fun _ _ => { code := .maskStackMismatch }) ∧
  (∀ e r, MaskStep .endif (fun t => t.stack = e :: r ∧ (e.kind = .ifK ∨ e.kind = .elseK)) fun t =>
    { t with stack := r, act := (t.act ||| e.mask) &&& ~~~t.exited }) ∧
  Traps .endif (fun _ t => ∀ e r, t.stack = e :: r → e.kind ≠ .ifK ∧ e.kind ≠ .elseK)
    (fun _ _ => { code := .maskStackMismatch }) ∧
  MaskStep .loopP (fun t => t.stack.length ≤ 14) (fun t =>
    { t with stack := { kind := .loopC, mask := 0 } :: { kind := .loopX, mask := t.act } :: t.stack }) ∧
  Traps .loopP (fun _ t => 14 < t.stack.length) (fun _ _ => { code := .maskStackOverflow }) ∧
  (∀ p above e below, MaskStep (.breakP p) (fun t => LoopEntry t above e below ∧ e.kind = .loopC) fun t =>
    { t with act := t.act &&& ~~~(t.act &&& t.readP p.toNat) }) ∧
  (∀ p above e below, MaskStep (.contP p) (fun t => LoopEntry t above e below ∧ e.kind = .loopC) fun t =>
    { t with stack := above ++ { e with mask := e.mask ||| (t.act &&& t.readP p.toNat) } :: below
             act := t.act &&& ~~~(t.act &&& t.readP p.toNat) }) ∧
  (∀ p, let none' : State → Team → Prop := fun _ t =>
      (∀ e ∈ t.stack, e.kind = .ifK ∨ e.kind = .elseK) ∨ ∃ above e below, LoopEntry t above e below ∧ e.kind ≠ .loopC
    Traps (.breakP p) none' (fun _ _ => { code := .maskStackMismatch }) ∧
    Traps (.contP p) none' (fun _ _ => { code := .maskStackMismatch })) ∧
  (∀ q m r, MaskStep (.endloop q) (fun t => t.stack = { kind := .loopC, mask := m } :: r ∧ (t.act ||| m) &&& ~~~t.exited ≠ 0)
    fun t => { t with stack := { kind := .loopC, mask := 0 } :: r, act := (t.act ||| m) &&& ~~~t.exited }.writeQ q.toNat true) ∧
  (∀ q m x r, MaskStep (.endloop q) (fun t => t.stack = { kind := .loopC, mask := m } :: x :: r ∧
      (t.act ||| m) &&& ~~~t.exited = 0)
    fun t => { t with stack := r, act := x.mask &&& ~~~t.exited }.writeQ q.toNat false) ∧
  (∀ q, Traps (.endloop q) (fun _ t => ∀ m r, t.stack ≠ { kind := .loopC, mask := m } :: r)
    fun _ _ => { code := .maskStackMismatch }) ∧
  MaskStep .serial (fun t => t.stack.length ≤ 14) (fun t =>
    { t with stack := { kind := .serialR, mask := t.act &&& ~~~Mask.lowest t.act } :: { kind := .serialX, mask := t.act } :: t.stack
             act := Mask.lowest t.act }) ∧
  Traps .serial (fun _ t => 14 < t.stack.length) (fun _ _ => { code := .maskStackOverflow }) ∧
  (∀ q m r, MaskStep (.endserial q) (fun t => t.stack = { kind := .serialR, mask := m } :: r ∧ m &&& ~~~t.exited ≠ 0) fun t =>
    { t with stack := { kind := .serialR, mask := m &&& ~~~t.exited &&& ~~~Mask.lowest (m &&& ~~~t.exited) } :: r
             act := Mask.lowest (m &&& ~~~t.exited) }.writeQ q.toNat true) ∧
  (∀ q m x r, MaskStep (.endserial q) (fun t => t.stack = { kind := .serialR, mask := m } :: x :: r ∧ m &&& ~~~t.exited = 0)
    fun t => { t with stack := r, act := x.mask &&& ~~~t.exited }.writeQ q.toNat false) ∧
  (∀ q, Traps (.endserial q) (fun _ t => ∀ m r, t.stack ≠ { kind := .serialR, mask := m } :: r)
    fun _ _ => { code := .maskStackMismatch }) ∧
  Mask.lowest 0 = 0 ∧
  (∀ (m : Mask) l, l < 1024 → m.getLsbD l = true → (∀ j, j < l → m.getLsbD j = false) → Mask.lowest m = 1 <<< l)

/-- NOP only goes on. YIELD with a count sets the wait the clause's end takes up, and with 0 acts as header bit Y.
EXIT moves the active lanes of its predicate out of Act into the exited lanes, and frees the slices of groups without
a lane. TRAP takes USER_TRAP with its code when its condition holds, else goes on; BKPT takes BREAKPOINT when the
context's DBG is set, else goes on. ICSYNC with no earlier store unperformed advances the stamp, marks every valid
target's prefetched code stale, and drops the core's code lines of its address space. (Derived from R94, R95, R86,
R16.) -/
def Obligations.LeavingTrappingAndWaitingComplete : Prop :=
  Yields .nop (fun t => t) ∧
  (∀ n s t c, Issues (.yieldP n) s t c → n ≠ 0 →
    exec (.yieldP n) s = .next (s.done { t with yieldN := some n.toNat } c)) ∧
  (∀ s t c, Issues (.yieldP 0) s t c →
    exec (.yieldP 0) s = .next (s.done t { c with header := { c.header with y := true } })) ∧
  (∀ p, Yields (.exitP p) fun t =>
    let e := t.act &&& t.readP p.toNat
    let t1 : Team := { t with exited := t.exited ||| e, act := t.act &&& ~~~e }
    { t1 with runs := t1.runs.filter fun r => Mask.laneWord (t1.existing &&& ~~~t1.exited) r.1 != 0 }) ∧
  (∀ q neg cnd code, Traps (.trapU q neg cnd code) (fun _ t => cnd = false ∨ t.readQ q.toNat ≠ neg)
    fun _ _ => { code := .userTrap, info := code.setWidth 16 }) ∧
  (∀ q neg code s t c, Issues (.trapU q neg true code) s t c → t.readQ q.toNat = neg →
    exec (.trapU q neg true code) s = .next (s.done t c)) ∧
  (∀ code, Traps (.bkpt code) (fun s t => (s.ctx t.ctx).dbg = true)
    fun _ _ => { code := .breakpoint, info := code.setWidth 16 }) ∧
  (∀ code s t c, Issues (.bkpt code) s t c → (s.ctx t.ctx).dbg = false → exec (.bkpt code) s = .next (s.done t c)) ∧
  (∀ s t c, Issues .icsync s t c → t.unperformed.any Outst.stores = false →
    exec .icsync s = .next ((s.onCore t.core fun k => { k with
      code := k.code.filter (·.asid != (s.ctx t.ctx).asid) }).done { t with
      stamp := t.stamp + 1, via := none, b := t.b.map fun br => if br.valid then { br with pf := 3 } else br } c))

/-- An issuing LD, ST, LDA, ATOM, ATOMN, CAS, GATHER or SCATR of any form forms its address in every active lane (once
in a scalar form); it traps with the first of MISALIGNED, RANGE_LOCK and scratch PROTECTION that a lane meets; with no
active lane it only goes on (LDA increments its counter); else it becomes outstanding with the addresses, the captured
data and the granules to translate. (Derived from R144, R145, R146, R149, R155, R156, R159, R264.) -/
def Obligations.MemoryAccessesIssue : Prop :=
  (∀ o, AccessIssues (.ld o) o true false none none id) ∧ (∀ o, AccessIssues (.st o) o true true (some o.d) none id) ∧
  (∀ o, AccessIssues (.lda o) o false false none none fun t => t.bumpK (ldaCounter o)) ∧
  (∀ o, AccessIssues (.atom o) o false true (some o.ext.b) none id) ∧
  (∀ o, AccessIssues (.atomn o) o true true (some o.d) none id) ∧
  (∀ o, AccessIssues (.cas o) o false true (some o.ext.b) (some o.d) id) ∧
  (∀ o, AccessIssues (.gather o) o true false none none id) ∧
  (∀ o, AccessIssues (.scatr o) o true true (some o.d) none id)

/-- HACC with an aligned table in range becomes outstanding with its table, keys and values (with no active lane it
goes on). WAITK goes on when its counter has reached the count, as an acquire at its scope, else becomes outstanding.
A FENCE goes on when no earlier access of the team is unperformed and, at .sys, no remote write is unacknowledged: FN
1 acquires, FN 2 releases, FN 0 does both. PFETCH brings its lines in and goes on, and drops addresses that are
misaligned. LOCKL, UNLOCKL, CFLUSH and CINVAL become outstanding with their range. After an acquire at .die or wider
the core's L1 holds a line of the address space only under a lock; after a release at .dev or .sys its die's L2 holds
no dirty line of it whose home is another die. (Derived from R152, R158, R160, R161, R162, R163, R228, R252.) -/
def Obligations.WaitsFencesAndResidencyIssue : Prop :=
  (∀ o s t c, Issues (.hacc o) s t c → t.lanes = [] → exec (.hacc o) s = .next (s.done t c)) ∧
  (∀ o s t c, Issues (.hacc o) s t c → t.lanes ≠ [] →
    let base := (t.udword o.a).toNat
    let n := 8 * 2 ^ (o.ext.imm.extractLsb' 0 5).toNat
    base % 8 = 0 → s.rangeHit t.core (s.spaceOf t (szScratch o.ext.sz)) base n true = false →
    (szScratch o.ext.sz = true → base + n ≤ s.scratchSize t) →
    exec (.hacc o) s = .next (s.enqueue t c { t.entry c (.hacc o) o s.nextId s.clk with
      addrs := t.lanes.map fun l => (l, base)
      data := t.lanes.map fun l => (l, (t.word false l o.d).toNat)
      datb := t.lanes.map fun l => (l, (t.word (o.ext.rh == 2) l o.ext.b).toNat)
      needs := if szScratch o.ext.sz then [] else granules base n })) ∧
  (∀ o k s t c, o.d = .k k → Issues (.waitk o) s t c →
    let n : BitVec 16 := (t.uword o.a).setWidth 16
    exec (.waitk o) s = .next (
      if (t.readK k.toNat - n).toNat < 2 ^ 15 then (s.done t c).acquire t o.ext.sc
      else s.enqueue t c { t.entry c (.waitk o) o s.nextId s.clk with args := [k.toNat, n.toNat] })) ∧
  (∀ o s t c, Issues (.fence o) s t c → t.unperformed.any Outst.accesses = false → (o.ext.sc = .sys → t.unacked = 0) →
    exec (.fence o) s = .next (
      if o.ext.fn = 1 then (s.done t c).acquire t o.ext.sc
      else if o.ext.fn = 2 then (s.release t o.ext.sc).done t c
      else ((s.release t o.ext.sc).done t c).acquire t o.ext.sc)) ∧
  (∀ o s t c, Issues (.pfetch o) s t c → exec (.pfetch o) s = .next
    ((((t.actLanes o).map fun l => t.vaddr o true l).foldl (fun s va => s.prefetchLine t o va) s).done t c)) ∧
  (∀ (s : State) t o va, va % szBytes o.ext.sz ≠ 0 → s.prefetchLine t o va = s) ∧
  (∀ o, Enqueues (.lockl o) (fun _ _ => True) fun s t c => { t.entry c (.lockl o) o s.nextId s.clk with
    args := [(t.udword o.a).toNat, (t.uword o.ext.b).toNat]
    needs := granules (t.udword o.a).toNat (t.uword o.ext.b).toNat }) ∧
  (∀ o, Enqueues (.unlockl o) (fun _ _ => True) fun s t c => { t.entry c (.unlockl o) o s.nextId s.clk with
    args := [(t.udword o.a).toNat, (t.uword o.ext.b).toNat] }) ∧
  (∀ o, Enqueues (.cflush o) (fun _ _ => True) fun s t c => { t.entry c (.cflush o) o s.nextId s.clk with
    args := [(t.udword o.a).toNat, (t.uword o.ext.b).toNat] }) ∧
  (∀ o, Enqueues (.cinval o) (fun _ _ => True) fun s t c => { t.entry c (.cinval o) o s.nextId s.clk with
    args := [(t.udword o.a).toNat, (t.uword o.ext.b).toNat] }) ∧
  (∀ (s : State) t sc l, sc = .die ∨ sc = .dev ∨ sc = .sys → l ∈ ((s.acquire t sc).core t.core).l1 →
    l.asid = (s.ctx t.ctx).asid → (s.core t.core).locked1 l = true) ∧
  (∀ (s : State) t sc l, sc = .dev ∨ sc = .sys → l ∈ (s.release t sc).l2.getD (coreDie t.core) [] →
    l.asid = (s.ctx t.ctx).asid → l.home ≠ coreDie t.core → l.dirty = 0)

/-- When an outstanding access is performed, LD, LDA and GATHER write the values their lanes read to the destination
run (LDA then increments its counter, an acquire load acquires); ST and SCATR, after a release's write-backs, write
each lane's low bytes, but for a lane whose location a higher lane also has. ATOM, ATOMN, CAS and SCATR.ADD take their
lanes in ascending order: each lane's old value is read, its new value is the operation's on it (sum, signed or
unsigned minimum or maximum, AND, OR, XOR or the operand; for CAS the operand where the old value equals the
comparand), and ATOM and CAS return the old values in D. HACC in each lane updates the first of eight slots from its
key that holds the key, or fills the first empty one; key 0xFFFFFFFF and eight foreign slots place nothing and end it
(of scratch slots it has read, the team then reads nothing older); its predicate says which active lanes were placed.
(Derived from R149, R151, R154, R155, R156, R158, R159, R70, R222.) -/
def Obligations.MemoryAccessesArePerformed : Prop :=
  (∀ s t k tm e o, Performs s t k tm e → e.instr = .ld o → LoadGood s tm e o (loadSx o) →
    exec (.f2Completion t k) s = .next (((loadsOf s tm e o (loadSx o)).1.complete (loadedTeam s tm e o (loadSx o)) e).acquire
      tm (if o.ext.fn.getLsbD 1 then o.ext.sc else .none))) ∧
  (∀ s t k tm e o, Performs s t k tm e → e.instr = .lda o → LoadGood s tm e o (loadSx o) →
    exec (.f2Completion t k) s =
      .next ((loadsOf s tm e o (loadSx o)).1.complete ((loadedTeam s tm e o (loadSx o)).bumpK (ldaCounter o)) e)) ∧
  (∀ s t k tm e o, Performs s t k tm e → e.instr = .gather o → LoadGood s tm e o false →
    exec (.f2Completion t k) s = .next ((loadsOf s tm e o false).1.complete (loadedTeam s tm e o false) e)) ∧
  (∀ t e z scr sx l va rest (s : State), loadLanes t e z scr sx ((l, va) :: rest) s =
    let r := s.tload t e scr va z
    let more := loadLanes t e z scr sx rest r.1
    (more.1, (l, if sx = true ∧ z = 1 then ((BitVec.ofNat 8 (leNat r.2.1)).signExtend 32).toNat
        else if sx = true ∧ z ≤ 2 then ((BitVec.ofNat 16 (leNat r.2.1)).signExtend 32).toNat else leNat r.2.1) :: more.2.1,
      if r.2.2 then (l, va) :: more.2.2 else more.2.2)) ∧
  (∀ s t k tm e o, Performs s t k tm e → (e.instr = .st o ∨ (e.instr = .scatr o ∧ o.ext.fn ≠ 1)) →
    let place := e.location (szScratch o.ext.sz)
    let ws := (e.addrs.filter fun a => !e.addrs.any fun b => decide (a.1 < b.1) && place b.2 == place a.2).map fun a =>
      (a.2, leBytes (szBytes o.ext.sz) (laneValue e.data a.1))
    exec (.f2Completion t k) s = .next ((ws.foldl (fun s w => s.astore tm e (szScratch o.ext.sz) w.1 w.2)
      ((s.complete tm e).release tm (storeRelease e.instr))).remoteStores tm.id tm.ctx tm.world
        (if szScratch o.ext.sz then [] else ws.filterMap fun w => (peerOf e.outs w.1).map fun p => (p.1, p.2, w.2)))) ∧
  (∀ s t k tm e o op ret s1 vals, Performs s t k tm e →
    ((e.instr = .atom o ∧ op = o.ext.fn.toNat ∧ ret = true) ∨ (e.instr = .atomn o ∧ op = o.ext.fn.toNat ∧ ret = false) ∨
      (e.instr = .cas o ∧ op = 8 ∧ ret = true) ∨ (e.instr = .scatr o ∧ o.ext.fn = 1 ∧ op = 0 ∧ ret = false)) →
    atomicLanes tm e (szBytes o.ext.sz) op (szScratch o.ext.sz) e.addrs (s.release tm (atomicScope e.instr 1)) [] =
      (s1, vals, none) → s1.awaiting tm e = false →
    exec (.f2Completion t k) s = .next ((s1.complete (if ret then tm.writeRun o.d o.run (fun _ => true) vals else tm)
      e).acquire tm (atomicScope e.instr 0))) ∧
  (∀ t e z op scr l va rest (s : State) vals, LocalLane e scr va → (s.aload t e scr va z).2.2 = false →
    let old := leNat (s.aload t e scr va z).2.1
    let x := laneValue e.data l
    atomicLanes t e z op scr ((l, va) :: rest) s vals = atomicLanes t e z op scr rest
      ((s.aload t e scr va z).1.astore t e scr va
        (leBytes z (if op = 8 then (if old = laneValue e.datb l then x else old) else atomicNew op (8 * z) old x)))
      (vals ++ [(l, old)])) ∧
  (∀ w (a b : BitVec w), w = 32 ∨ w = 64 →
    atomicNew 0 w a.toNat b.toNat = (a + b).toNat ∧ atomicNew 1 w a.toNat b.toNat = (if a.slt b then a else b).toNat ∧
    atomicNew 2 w a.toNat b.toNat = (if a.slt b then b else a).toNat ∧ atomicNew 3 w a.toNat b.toNat = min a.toNat b.toNat ∧
    atomicNew 4 w a.toNat b.toNat = max a.toNat b.toNat ∧ atomicNew 5 w a.toNat b.toNat = (a &&& b).toNat ∧
    atomicNew 6 w a.toNat b.toNat = (a ||| b).toNat ∧ atomicNew 7 w a.toNat b.toNat = b.toNat) ∧
  (∀ s t k tm e o s1 placed, Performs s t k tm e → e.instr = .hacc o → e.peerTable = false →
    haccLanes tm e o e.addrs s [] = (s1, placed, none) → exec (.f2Completion t k) s =
      .next (s1.complete (tm.writeP o.ext.fn.toNat e.act (maskOf tm.n fun l => placed.contains l || e.args.contains l)) e)) ∧
  (∀ t e o l base rest (s : State) placed j,
    let scr := szScratch o.ext.sz
    let k := laneValue e.data l
    let v := laneValue e.datb l
    let word (off : Nat) := leNat (s.aread t e scr (base + off) 4)
    let at' (i : Nat) := 8 * ((k + i) % haccSlots o)
    let bad (i : Nat) := s.abad t e scr (base + at' i) 8
    let read (x : Lag) : Bool := (List.range (j + 1)).any fun i => overlaps (base + at' i) 8 x.off x.old.length
    let s0 := if scr then s.onCast t.cast fun c => c.caughtUp t.id read else s
    let puts (x : Nat) := haccLanes t e o rest ((s0.aload t e scr (base + at' j) 8).1.astore t e scr (base + at' j)
      (leBytes 4 k ++ leBytes 4 x)) (placed ++ [l])
    k < 0xFFFFFFFF → j < 8 → (∀ i, i < j → bad i = false ∧ word (at' i) ≠ k ∧ word (at' i) ≠ 0xFFFFFFFF) → bad j = false →
    (word (at' j) = k → haccLanes t e o ((l, base) :: rest) s placed = puts (haccOp o.ext.rh.toNat (word (at' j + 4)) v)) ∧
    (word (at' j) = 0xFFFFFFFF → haccLanes t e o ((l, base) :: rest) s placed = puts v)) ∧
  (∀ t e o l base rest (s : State) placed,
    let scr := szScratch o.ext.sz
    let k := laneValue e.data l
    let at' (i : Nat) := 8 * ((k + i) % haccSlots o)
    let word (off : Nat) := leNat (s.aread t e scr (base + off) 4)
    let read (x : Lag) : Bool := (List.range 8).any fun i => overlaps (base + at' i) 8 x.off x.old.length
    (k = 0xFFFFFFFF → haccLanes t e o ((l, base) :: rest) s placed = (s, placed, none)) ∧
    (k < 0xFFFFFFFF → (∀ i, i < 8 → s.abad t e scr (base + at' i) 8 = false ∧ word (at' i) ≠ k ∧
      word (at' i) ≠ 0xFFFFFFFF) → haccLanes t e o ((l, base) :: rest) s placed =
        (if scr then s.onCast t.cast fun c => c.caughtUp t.id read else s, placed, none))) ∧
  (∀ (a b : Word), haccOp 0 a.toNat b.toNat = (a + b).toNat ∧ haccOp 1 a.toNat b.toNat = max a.toNat b.toNat ∧
    haccOp 2 a.toNat b.toNat = (Fmt.f32.add .rne 0 (dec32 a.toNat) (dec32 b.toNat)).1)

/-- A turn of the agenda may perform some lanes of an outstanding access before the rest. Where the access may be
performed on no peer's page and no chosen lane of a load meets an error, a load writes the chosen lanes' values and
stays outstanding with the others (so a read before its completion meets new and old lanes). Where memory is canonical
and the lanes aligned, and the access is to scratch or to system-coherent pages, whose accesses no cache holds back,
then whatever lanes are chosen, the completion afterwards leaves device memory, host memory and scratch as the
completion at once does. (Derived from R71, R150, R154, R155, R222.) -/
def Obligations.LanesPerformedApartLeaveTheSameMemory : Prop :=
  (∀ s rest t k mask, s.dueReset = none → s.agenda = .lanes t k mask :: rest →
    step s = .next (({ s with agenda := rest } : State).someLanes t k mask).tick) ∧
  (∀ s t k mask tm e o, Performs s t k tm e → e.instr = .ld o → e.addrs.any (fun a => (peerOf e.outs a.2).isSome) = false →
    e.peerTable = false →
    let r := s.loads tm e o (loadSx o) (e.addrs.filter fun a => mask.getLsbD a.1)
    r.2.2 = [] → s.someLanes t k mask = r.1.setTeam
      ((tm.writeRun o.d o.run (fun _ => true) r.2.1).keepLanes e (e.addrs.filter fun a => !mask.getLsbD a.1))) ∧
  (∀ s t k mask tm e o, s.MemWf → Performs s t k tm e → e.instr.f2? = some o → ProperLanes e (szBytes o.ext.sz) →
    (szScratch o.ext.sz = true ∨ e.uncached) → ∃ a b, exec (.f2Completion t k) s = .next a ∧
    exec (.f2Completion t k) (s.someLanes t k mask) = .next b ∧ b.mem = a.mem ∧ b.hostMem = a.hostMem ∧
    b.casts = a.casts)

/-- When they are performed: LOCKL locks and brings in every line of its range or none, and writes STAT (1 over the
context's quota, 2 for a set left without a lockable way, where a line that another context of the address space has
locked takes no further way, else 0) above the count of new lines; UNLOCKL ends the context's locks on its lines at
its level, and no other lock, and writes their number; CFLUSH writes the dirty lines of its range back at the dies of
its scope, and with INV they leave those caches and the core's L1, and the core's prefetched targets on them are
stale; CINVAL does that too and ends the locks of its lines, of every context of the address space, at every level it
reaches. (Derived from R160, R163, R254, R256.) -/
def Obligations.ScopedResidencyIsPerformed : Prop :=
  (∀ s t k tm e o, Performs s t k tm e → e.instr = .lockl o →
    let core := o.ext.sc == .core
    let c := s.ctx tm.ctx
    let mine := (s.locksAt tm core).filter fun l => l.ctx == tm.ctx
    let new := (lineRange (e.args.getD 0 0) (e.args.getD 1 0)).filter fun n =>
      !mine.any fun l => l.line == n && l.asid == c.asid
    let quota := if core then (s.core tm.core).partw.toNat / 2 ^ 17 % 16 * 256 else 32768
    let stat : Nat := if quota < mine.length + new.length then 1 else if s.setsFull tm core c.asid new then 2 else 0
    let locks := new.map fun n => ({ ctx := tm.ctx, asid := c.asid, line := n } : LineLock)
    let s1 := if stat ≠ 0 then s
      else if core then s.onCore tm.core fun k => { k with locks := k.locks ++ locks }
      else { s with locks2 := s.locks2 ++ locks.map fun l => (coreDie tm.core, l) }
    let s2 := if stat ≠ 0 then s1 else new.foldl (fun s n => s.bringLocked tm e.outs core n) s1
    exec (.f2Completion t k) s = .next (s2.complete (tm.writeRun o.d 1 (fun _ => true)
      [(0, (BitVec.ofNat 2 stat ++ BitVec.ofNat 30 (if stat = 0 then new.length else 0)).toNat)]) e)) ∧
  (∀ s t k tm e o, Performs s t k tm e → e.instr = .unlockl o →
    let lines := lineRange (e.args.getD 0 0) (e.args.getD 1 0)
    let goes (l : LineLock) : Bool := l.asid == (s.ctx tm.ctx).asid && l.ctx == tm.ctx && lines.contains l.line
    let count (ls : List LineLock) := tm.writeRun o.d 1 (fun _ => true) [(0, (ls.filter goes).length % 2 ^ 30)]
    exec (.f2Completion t k) s = .next (
      if o.ext.sc = .core then
        (s.onCore tm.core fun k => { k with locks := k.locks.filter fun l => !goes l }).complete
          (count (s.core tm.core).locks) e
      else ({ s with locks2 := s.locks2.filter fun l => !(goes l.2 && l.1 == coreDie tm.core) } : State).complete
        (count ((s.locks2.filter (·.1 == coreDie tm.core)).map (·.2))) e)) ∧
  (∀ s t k tm e o, Performs s t k tm e → e.instr = .cflush o → o.ext.fn ≠ 1 → exec (.f2Completion t k) s =
    .next ((s.cleanDies (diesReached tm o.ext.sc) fun l =>
      l.asid == (s.ctx tm.ctx).asid && e.lines.contains l.line).complete tm e)) ∧
  (∀ s t k tm e o, Performs s t k tm e → e.instr = .cflush o → o.ext.fn = 1 →
    let p (l : Line) : Bool := l.asid == (s.ctx tm.ctx).asid && e.lines.contains l.line
    exec (.f2Completion t k) s = .next
      ((((s.dropDies (diesReached tm o.ext.sc) p).dropL1 tm.core p).dropPrefetch (·.core == tm.core)
        (s.ctx tm.ctx).asid e.lines.contains).complete (tm.dropPrefetch e.lines.contains) e)) ∧
  (∀ s t k tm e o, Performs s t k tm e → e.instr = .cinval o →
    let p (l : Line) : Bool := l.asid == (s.ctx tm.ctx).asid && e.lines.contains l.line
    let goes (l : LineLock) : Bool := l.asid == (s.ctx tm.ctx).asid && e.lines.contains l.line
    let wide := o.ext.sc == .dev || o.ext.sc == .sys
    let s1 := s.onCore tm.core fun k => { k with locks := k.locks.filter fun l => !goes l }
    let s2 : State := if o.ext.sc = .core then s1
      else { s1 with locks2 := s1.locks2.filter fun l => !(goes l.2 && (wide || l.1 == coreDie tm.core)) }
    exec (.f2Completion t k) s = .next
      ((((s2.dropDies (diesReached tm o.ext.sc) p).dropL1 tm.core p).dropPrefetch (·.core == tm.core)
        (s.ctx tm.ctx).asid e.lines.contains).complete (tm.dropPrefetch e.lines.contains) e)) ∧
  (∀ tm : Team, diesReached tm .core = [] ∧ diesReached tm .die = [coreDie tm.core] ∧
    diesReached tm .dev = List.range 4 ∧ diesReached tm .sys = List.range 4)

/-- On a barrier the cast has: BINIT with a setting in range renews its fields; ARRIVE of a slot that takes part and
has not arrived adds its bytes to TX, sets its ARR bit and writes the phase to D, and of any other slot breaks the
barrier and traps with BARRIER_BROKEN; ARRDROP removes the slot; BWAIT goes on when the phase has passed and otherwise
becomes outstanding. A barrier number at or past the cast's count traps with ILLEGAL_INSTR in all four, as do a bad
setting of BINIT and a count above 2^24 of ARRIVE; a broken barrier traps ARRIVE and BWAIT with BARRIER_BROKEN. A
change finds the barrier as it stands when no change of its clock came before, and the word is then that of R201's
steps: what each kind of change does alone, and that two arrivals of one clock complete at most one phase. (Which
changes share a clock, log 78, and the trap of a count above 2^24, log 52, are the model's choice.) (Derived from
R201, R202, R203, R195, R12.) -/
def Obligations.BarriersComplete : Prop :=
  (∀ o s t c, Issues (.binit o) s t c → barNo t o < s.barriers t → binitBad (t.uword o.ext.b) = false →
    let s1 := s.barChange t.cast (barNo t o) (.init (t.uword o.ext.b)) (some t.id)
    exec (.binit o) s = .next (s1.done (s1.again t) c)) ∧
  (∀ o s t c, Issues (.arrive o) s t c → barNo t o < s.barriers t → (t.uword o.ext.b).toNat ≤ 2 ^ 24 →
    (o.ext.sc ≠ .none → t.unperformed.any Outst.accesses = false) → (o.ext.sc = .sys → t.unacked = 0) →
    ∀ before now, s.barsNow t o = (before, now) → before.brk = false →
    exec (.arrive o) s = .next (
      if now.part.getLsbD t.cslot = true ∧ now.arr.getLsbD t.cslot = false then
        let s1 := (s.release t o.ext.sc).barChange t.cast (barNo t o) (.arrive t.cslot (t.uword o.ext.b).toNat) (some t.id)
        s1.done ((s1.again t).put o.d false fun _ => before.phase.toNat) c
      else
        let s1 := s.barChange t.cast (barNo t o) .refused (some t.id)
        s1.trapNow (s1.again t) c { code := .barrierBroken, addr := BitVec.ofNat 64 (barNo t o) })) ∧
  (∀ o s t c, Issues (.arrdrop o) s t c → barNo t o < s.barriers t →
    let s1 := s.barChange t.cast (barNo t o) (.drop t.cslot) (some t.id)
    exec (.arrdrop o) s = .next (s1.done (s1.again t) c)) ∧
  (∀ o s t c, Issues (.bwait o) s t c → barNo t o < s.barriers t → (s.barOf t o).brk = false →
    let ph : BitVec 16 := (t.uword o.d).setWidth 16
    exec (.bwait o) s = .next (
      if (s.barOf t o).phase ≠ ph then (s.done t c).acquire t o.ext.sc
      else s.enqueue t c { t.entry c (.bwait o) o s.nextId s.clk with args := [ph.toNat, barNo t o, 0] })) ∧
  (∀ o, Traps (.binit o) (fun s t => s.barriers t ≤ barNo t o ∨ binitBad (t.uword o.ext.b) = true)
    fun _ _ => { code := .illegalInstr }) ∧
  (∀ o, Traps (.arrive o) (fun s t => s.barriers t ≤ barNo t o ∨ 2 ^ 24 < (t.uword o.ext.b).toNat)
    fun _ _ => { code := .illegalInstr }) ∧
  (∀ o, Traps (.arrdrop o) (fun s t => s.barriers t ≤ barNo t o) fun _ _ => { code := .illegalInstr }) ∧
  (∀ o, Traps (.bwait o) (fun s t => s.barriers t ≤ barNo t o) fun _ _ => { code := .illegalInstr }) ∧
  (∀ o, Traps (.bwait o) (fun s t => barNo t o < s.barriers t ∧ (s.barOf t o).brk = true)
    fun _ t => { code := .barrierBroken, addr := BitVec.ofNat 64 (barNo t o) }) ∧
  (∀ o, Traps (.arrive o) (fun s t => barNo t o < s.barriers t ∧ (t.uword o.ext.b).toNat ≤ 2 ^ 24 ∧
      (s.barsNow t o).1.brk = true)
    fun _ t => { code := .barrierBroken, addr := BitVec.ofNat 64 (barNo t o) }) ∧
  (∀ (s : State) t o (c : Cast), s.cast? t.cast = some c →
    (∀ r ∈ c.recent, r.bar = barNo t o → r.teams.contains t.id = true) →
    s.barsNow t o = (s.barOf t o, s.barOf t o)) ∧
  (∀ (s : State) cast n ch who (c : Cast), s.cast? cast = some c →
    (∀ r ∈ c.recent, r.bar = n → who.elim false r.teams.contains = true) →
    ((c.bar n).clock (s.liveSlots cast) [ch]).txOut = false →
    ((s.barChange cast n ch who).cast? cast).map (·.bars.getD n 0)
      = some ((c.bar n).clock (s.liveSlots cast) [ch]).word) ∧
  (∀ b : Bar, b.brk = false → b.exp ≠ 0 → b.exp.toNat ≤ slotCount b.arr → b.tx = 0 → b.complete = { b with
    phase := b.phase + 1, arr := 0 }) ∧
  (∀ (b : Bar) (live : BitVec 4) slot n, b.clock live [.arrive slot n] = (Bar.complete { b with
    tx := b.tx + (n : Int), arr := b.arr ||| (1#4 <<< slot) }).break live) ∧
  (∀ (b : Bar) (live : BitVec 4) i j m n, b.clock live [.arrive i m, .arrive j n] = (Bar.complete { b with
    tx := b.tx + (m : Int) + (n : Int), arr := b.arr ||| (1#4 <<< i) ||| (1#4 <<< j) }).break live) ∧
  (∀ (b : Bar) (live : BitVec 4) n, b.clock live [.land n] = (Bar.complete { b with tx := b.tx - (n : Int) }).break live) ∧
  (∀ (b : Bar) (live : BitVec 4) slot, b.clock live [.drop slot] = (b.complete.drop slot).complete.break live) ∧
  (∀ (b : Bar) (live : BitVec 4) w, b.clock live [.init w] = Bar.break { b.complete with
    brk := false, part := w.extractLsb' 4 4, arr := 0, exp := w.extractLsb' 0 3, tx := 0 } live) ∧
  (∀ (b : Bar) (live : BitVec 4), b.clock live [.refused] = { b.complete with brk := true })

/-- COPY whose descriptor lies in scratch on a 64-byte boundary becomes outstanding and otherwise traps; so does COPYY
with a last copy, and without one it traps with ILLEGAL_INSTR. At acceptance, after the team's earlier accesses, a
descriptor that fails R198 ends the instruction with its trap; a good one has its ranges registered, the copy queued
and the descriptor kept as the team's last. A row, of scratch or memory, moves its bytes to memory, or to the scratch
of its cast or, multicast, of each named cast at MCBASE plus the offset, and counts their barriers down; a row that is
not mapped suspends the copy; a copy with no row left and no unacknowledged remote write ends. BSEAL becomes
outstanding; with fewer than eight sealed batches and no earlier copy unaccepted it completes, seals the open batch
and opens the next. WAITB goes on, at issue or later, when at most its count of batches is sealed, and acquires. That
a descriptor is read, and its fields checked, at acceptance, once the team's earlier accesses are performed, is the
model's choice (logs 51 and 54; R198 says at issue). (Derived from R197, R198, R199, R200, R233, R336.) -/
def Obligations.CopiesAndBatchesComplete : Prop :=
  (∀ o, Enqueues (.copy o) (fun s t => (t.uword o.a).toNat % 64 = 0 ∧ (t.uword o.a).toNat + 64 ≤ s.scratchSize t)
    fun s t c => t.entry c (.copy o) o s.nextId s.clk) ∧
  (∀ o, Traps (.copy o) (fun _ t => (t.uword o.a).toNat % 64 ≠ 0)
    fun _ t => { code := .misaligned, addr := BitVec.ofNat 64 (t.uword o.a).toNat }) ∧
  (∀ o, Traps (.copy o) (fun s t => (t.uword o.a).toNat % 64 = 0 ∧ s.scratchSize t < (t.uword o.a).toNat + 64)
    fun _ t => { code := .protection, addr := BitVec.ofNat 64 (t.uword o.a).toNat }) ∧
  (∀ o, Enqueues (.copyy o) (fun _ t => t.last.isSome = true) fun s t c => t.entry c (.copyy o) o s.nextId s.clk) ∧
  (∀ o, Traps (.copyy o) (fun _ t => t.last = none) fun _ _ => { code := .illegalInstr }) ∧
  (∀ s t k tm e o again tr, s.entry? t k = some (tm, e) →
    ((e.instr = .copy o ∧ again = false) ∨ (e.instr = .copyy o ∧ again = true)) →
    tm.inOrder e = true → copyTrap s tm o again = some tr →
    exec (.copyAcceptance t k) s = .next (s.failEntry tm e tr)) ∧
  (∀ s t k tm e o again, s.entry? t k = some (tm, e) →
    ((e.instr = .copy o ∧ again = false) ∨ (e.instr = .copyy o ∧ again = true)) →
    tm.inOrder e = true → copyTrap s tm o again = none →
    let bs := (s.copyBlock tm o again).1
    let d := CopyDesc.ofBytes bs
    let mcb := (s.cast? tm.cast).elim 0 fun c => c.mcbase.lo
    let adds := s.copyRanges tm e.seq d mcb.toNat
    (s.copies.filter (·.cluster == coreCluster tm.core)).length < 64 → s.rangeRoom adds = true →
    s.heldByAccess adds = false →
    let op : CopyOp :=
      { op := e.seq, cluster := coreCluster tm.core, team := tm.id, ctx := tm.ctx, world := tm.world,
        kc := counterOf o.d, again := again, rh := o.ext.rh, batch := tm.openSeq, desc := bs, mcbase := mcb,
        casts := if d.mc then (s.landingCasts tm d).map (·.id) else [tm.cast], cast := tm.cast, core := tm.core,
        row := 0, susp := none }
    exec (.copyAcceptance t k) s = .next (({ s.register adds with copies := s.copies ++ [op] } : State).complete
      { tm with last := some { desc := bs, mcbase := mcb, origin := BitVec.ofNat 32 (s.copyBlock tm o again).2 } } e)) ∧
  (∀ s j op, s.copies.find? (·.op == j) = some op → op.susp = none → s.alive op.ctx = true →
    let d := CopyDesc.ofBytes op.desc
    let x := s.ctx op.ctx
    let sa := rowAddr d.src d.sstr op.row d.sscr
    let da := rowAddr d.dst d.dstr op.row d.dscr
    let checks := (if d.sscr then [] else [(engMode (coreDie op.core) op.world true false, sa.toNat, d.rowLen)])
      ++ if d.dscr then [] else [(engMode (coreDie op.core) op.world false true, da.toNat, d.rowLen)]
    let from' := s.xlatRange x (engMode (coreDie op.core) op.world true false) sa.toNat d.rowLen
    let into := s.xlatRange x (engMode (coreDie op.core) op.world false true) da.toNat d.rowLen
    op.row < d.rows → s.engChecks x checks = none →
    let s0 := s.engTouch x checks (retOf op.rh)
    (if d.sscr then (s0.cast? op.cast).elim false fun c => c.sbad sa.toNat d.rowLen
      else s0.vbad from' sa.toNat d.rowLen) = false →
    let bs := if d.sscr then (s0.cast? op.cast).elim [] fun c => c.sread sa.toNat d.rowLen
      else s0.vread from' sa.toNat d.rowLen
    let s1 := if d.dscr then op.casts.foldl (fun (s : State) k =>
        s.landRow op d (if d.mc then da + (op.mcbase.toNat : Int) else da) bs k) s0
      else s0.engWrite op.engine into da.toNat bs (retOf op.rh)
    let op' := { op with row := op.row + 1 }
    let s2 : State := { s1 with copies := replaceIf s1.copies (·.op == j) fun _ => op' }
    exec (.copyRow j) s = .next (if op.row + 1 = d.rows ∧ s2.unanswered j = false then s2.finishCopy op' else s2)) ∧
  (∀ (s : State) op (d : CopyDesc) off bs k (c : Cast), s.cast? k = some c → 0 ≤ off → off + bs.length ≤ (c.size : Int) →
    let s1 := s.landScratch k (some (op.team, op.batch)) off.toNat bs
    s.landRow op d off bs k
      = if d.bv = true ∧ d.bar < c.nb then s1.barChange k d.bar (.land bs.length) else s1) ∧
  (∀ s j op, s.copies.find? (·.op == j) = some op → op.susp = none → s.alive op.ctx = true →
    (CopyDesc.ofBytes op.desc).rows ≤ op.row → s.unanswered op.op = false →
    exec (.copyRow j) s = .next (s.finishCopy op)) ∧
  (∀ o, Enqueues (.bseal o) (fun _ _ => True) fun s t c => t.entry c (.bseal o) o s.nextId s.clk) ∧
  (∀ s t k tm e o, Performs s t k tm e → e.instr = .bseal o → exec (.f2Completion t k) s = .next (
    if 8 ≤ tm.sealed.length ∨ tm.outst.any (fun x => x.instr.starts && decide (x.seq < e.seq)) = true then s
    else (s.complete { tm with
      sealed := tm.sealed ++ [tm.openSeq], openNo := tm.openNo + 1, openSeq := tm.openSeq + 1 } e).settleBatches tm.id)) ∧
  (∀ o s t c, Issues (.waitb o) s t c → exec (.waitb o) s = .next (
    if t.sealed.length ≤ waitbCount o then (s.done t c).acquireCopies t o.ext.sc
    else s.enqueue t c (t.entry c (.waitb o) o s.nextId s.clk))) ∧
  (∀ s t k tm e o, s.entry? t k = some (tm, e) → e.instr = .waitb o → tm.sealed.length ≤ waitbCount o →
    exec (.waitbDone t k) s = .next ((s.complete tm e).acquireCopies tm o.ext.sc))

/-- QSRCH with an aligned packet, in scratch within SZ, becomes outstanding while its stack has a query slot, and
waits while it has none or an earlier access of its team is unperformed. LKSEND with an aligned descriptor within SZ
becomes outstanding; performed, it ends with the trap of a bad descriptor, or registers its ranges, sends its bytes in
flits of up to 232, the last a carry end, and keeps the carry until its status comes. SPAWN with nothing unperformed
adds a task with its sixteen argument words, or writes Q 0 when 4,096 are queued. GLAUNCH appends the descriptor to
the list of queue qn, or writes Q 0 when 64 are listed, and traps with ILLEGAL_INSTR for qn above 15. TQPUSH with
every lane's queue bound becomes outstanding; performed, each lane in order takes the next push number of its queue
unless it is full, its token is written there, the queue's count rises, and the status predicate tells the lanes that
pushed; the triggers of the queues that a clock's pushes reached are tested once it is over. The trap of a queue
number above 15 (log 52), and that a bad descriptor of LKSEND traps when it is performed, where R205 says at issue
(log 54), are the model's choice. (Derived from R204, R205, R206, R207, R280, R288, R320, R334, R353, R358, R252.) -/
def Obligations.QueriesCarriesAndLaunchesComplete : Prop :=
  (∀ o, let len (s : State) (t : Team) : Nat :=
      if (s.packetHead t o).2 = true then s.packetLen (s.packetHead t o).1 else 64
    Enqueues (.qsrch o) (fun s t => qsrchTrap s t o = none ∧
      t.unperformed.any (fun p => p.accesses || Instr.acquires p.instr) = false ∧
      ((s.packetHead t o).2 = true → s.slotsFull t (s.packetHead t o).1 = false) ∧
      let adds := if szScratch o.ext.sz then (rangeOf 0 false (.scratch t.cast) (qsrchAddr t o)
        (len s t)).map (t.core, ·) else []
      s.rangeRoom adds = true ∧ s.heldByAccess adds = false) fun s t c =>
    { t.entry c (.qsrch o) o s.nextId s.clk with args := [qsrchAddr t o, len s t] }) ∧
  (∀ o s t c, Issues (.qsrch o) s t c → qsrchTrap s t o = none →
    (t.unperformed.any (fun p => p.accesses || Instr.acquires p.instr) = true ∨
      ((s.packetHead t o).2 = true ∧ s.slotsFull t (s.packetHead t o).1 = true)) → exec (.qsrch o) s = .next s) ∧
  (∀ o, Traps (.qsrch o) (fun _ t => qsrchAddr t o % 64 ≠ 0)
    fun _ t => { code := .misaligned, addr := BitVec.ofNat 64 (qsrchAddr t o) }) ∧
  (∀ o, Enqueues (.lksend o) (fun s t => (t.uword o.a).toNat % 32 = 0 ∧
      (t.uword o.a).toNat + 32 ≤ s.scratchSize t) fun s t c =>
    { t.entry c (.lksend o) o s.nextId s.clk with args := [(t.uword o.a).toNat] }) ∧
  (∀ o, Traps (.lksend o) (fun _ t => (t.uword o.a).toNat % 32 ≠ 0)
    fun _ t => { code := .misaligned, addr := BitVec.ofNat 64 (t.uword o.a).toNat }) ∧
  (∀ s t k tm e o tr, Performs s t k tm e → e.instr = .lksend o → carryTrap s tm o = some tr →
    exec (.f2Completion t k) s = .next (s.failEntry tm e tr)) ∧
  (∀ s t k tm e o, Performs s t k tm e → e.instr = .lksend o → carryTrap s tm o = none →
    let b := s.scr tm (e.arg 0) 32
    let src := field b 0 4
    let n := field b 4 2
    let dev := BitVec.ofNat 19 (field b 8 4)
    let adds := (rangeOf e.seq false (.scratch tm.cast) src n ++ rangeOf e.seq true (.scratch tm.cast) (e.arg 0) 32).map
      (tm.core, ·)
    let flits := carryFlits s.regs.devid dev (field b 12 2) (field b 16 4) 18 (s.scr tm src n)
    s.rangeRoom adds = true → s.heldByAccess adds = false →
    (s.cast? tm.cast).elim false (fun c => c.sbad src n) = false →
    let op : CarryOut :=
      { op := e.seq, team := tm.id, core := tm.core, cast := tm.cast, off := e.arg 0, dev := dev, seq := (s.nextSeq dev).1,
        flits := flits.length, len := n, bar := BitVec.ofNat 8 (field b 6 1), kc := counterOf o.d }
    let s1 := flits.foldl (fun (s : State) f => (s.nextSeq dev).2.send (f (s.nextSeq dev).1)) (s.register adds)
    exec (.f2Completion t k) s = .next (({ s1 with carries := s1.carries ++ [op] } : State).complete tm e)) ∧
  (∀ src dst ep doff bs, bs ≠ [] → bs.length ≤ 4096 →
    (carryFlits src dst ep doff 18 bs).length = (bs.length + 231) / 232 ∧
    ∀ k seq, 232 * k < bs.length → (carryFlits src dst ep doff 18 bs)[k]?.map (· seq) = some
      { ty := if bs.length ≤ 232 * (k + 1) then 6 else 5, dst := dst, src := src, ttl := 16, seq := seq, opc := 0,
        addr := BitVec.ofNat 48 (ep * 2 ^ 36 + (doff + 232 * k) % 2 ^ 32), data := (bs.drop (232 * k)).take 232,
        resv := false }) ∧
  (∀ o s t c, Issues (.spawn o) s t c → spawnTrap s t o = none → t.unperformed.any Outst.accesses = false →
    4096 ≤ (s.tasks.filter (·.1 == coreDie t.core)).length →
    exec (.spawn o) s = .next (s.done (t.putQ o.d false) c)) ∧
  (∀ o s t c, Issues (.spawn o) s t c → spawnTrap s t o = none → t.unperformed.any Outst.accesses = false →
    (s.tasks.filter (·.1 == coreDie t.core)).length < 4096 →
    (s.cast? t.cast).elim false (fun c => c.sbad (t.uword o.ext.b).toNat 64) = false →
    exec (.spawn o) s = .next ((({ s with tasks := s.tasks ++ [(coreDie t.core,
        { ctx := t.ctx, gd := t.udword o.a, args := wordsOf (s.scr t (t.uword o.ext.b).toNat 64) })] } : State).release t
          .dev).done (t.putQ o.d true) c)) ∧
  (∀ o s t c, Issues (.glaunch o) s t c → (t.uword o.ext.b).toNat < 16 → t.unperformed.any Outst.accesses = false →
    let q := (s.ctx t.ctx).queue (t.uword o.ext.b).toNat
    exec (.glaunch o) s = .next (
      if q.listed < 64 then
        ((s.onCtx t.ctx fun c => c.setQueue { q with items := q.items ++ [.list (t.udword o.a) s.clk] }).release t .dev).done
          (t.putQ o.d true) c
      else s.done (t.putQ o.d false) c)) ∧
  (∀ o, Traps (.glaunch o) (fun _ t => 16 ≤ (t.uword o.ext.b).toNat) fun _ _ => { code := .illegalInstr }) ∧
  (∀ o s t c, Issues (.tqpush o) s t c → t.lanes = [] → exec (.tqpush o) s = .next (s.done t c)) ∧
  (∀ o, Enqueues (.tqpush o) (fun s t => t.lanes ≠ [] ∧ s.tqBad t (tqLanes t o) = []) fun s t c =>
    let e := { t.entry c (.tqpush o) o s.nextId s.clk with
      data := t.lanes.map fun l => (l, (t.word false l o.d).toNat), datb := tqLanes t o }
    { e with addrs := s.accessed t e, needs := reachGranules (s.reach t e) }) ∧
  (∀ s t k tm e o, Performs s t k tm e → e.instr = .tqpush o → s.tqBad tm e.datb = [] →
    let die := coreDie tm.core
    let ok := (s.pushPlan die tm.ctx e.datb []).filterMap fun (l, q, j) => j.map fun j => (l, q, j)
    let ws := ok.map fun (l, q, j) => (s.pushAddr die tm.ctx q j, leBytes 4 (laneValue e.data l))
    let s1 := (ws.foldl (fun (s : State) w => s.teamWrite tm.core e.outs w.1 w.2 .home) (s.release tm .dev)).remoteStores
      tm.id tm.ctx tm.world (ws.flatMap fun w => peerPieces e.outs w.1 w.2)
    let s2 := ((ok.map fun x => x.2.1).eraseDups).foldl (fun (s : State) q => s.onTokens die q fun tq =>
      { tq with pushed := tq.pushed + (ok.filter fun x => x.2.1 == q).length, fresh := true }) s1
    exec (.f2Completion t k) s = .next (s2.complete
      ((s2.again tm).writeP o.ext.fn.toNat e.act (maskOf tm.n fun l => ok.any fun x => x.1 == l)) e)) ∧
  (∀ (s : State) die ctx l q rest seen (tq : TokenQueue), s.tokenQueue? die q ctx = some tq →
    let i := (seen.filter fun x => x.2 == q).length
    s.pushPlan die ctx ((l, q) :: rest) seen
      = (l, q, if tq.pushed + i - tq.freed < 2 ^ tq.capl then some (tq.pushed + i) else none)
        :: s.pushPlan die ctx rest (seen ++ [(l, q)])) ∧
  (∀ (s : State) die ctx q j (tq : TokenQueue), s.tokenQueue? die q ctx = some tq →
    s.pushAddr die ctx q j = tq.buf.toNat + 4 * (j % 2 ^ tq.capl)) ∧
  (∀ (s : State) n, (s.testTriggers n).tokens = s.tokens.map fun q =>
    if n ≠ 0 ∧ q.fresh = true then { q.trigger s.ns with fresh := false } else q)

/-- GSCAN with an aligned record becomes outstanding with its total. XACQ in range becomes outstanding; the grant
gives its block to the oldest request of the sub-core, cleared, and writes 0; its timeout writes 1, or traps with
EXT_TIMEOUT without a destination. XREL with nothing unperformed releases the block. A waiting WAITK completes when
its counter reaches the count, a waiting BWAIT when its phase is over, both with their acquire, or BWAIT traps when
its barrier broke. A GSCAN of team 0 publishes its total and writes Q 0; a later one waits while READY of its
predecessor is not 1, then publishes the combination of what it read with its total, writes Q 1 and the S pair when
the predecessor's slot is not Empty, and acquires at .dev. (The words of an Empty slot are free values, log 27.)
(Derived from R152, R203, R208, R209, R57, R22.) -/
def Obligations.ScanLinkAndExtensionComplete : Prop :=
  (∀ o, Enqueues (.gscan o) (fun _ t => (t.udword o.a).toNat % 16 = 0) fun s t c =>
    let e := { t.entry c (.gscan o) o s.nextId s.clk with
      args := [(t.udword o.a).toNat, t.index.toNat, (t.udword o.d).hi.toNat, (t.udword o.d).lo.toNat] }
    { e with needs := reachGranules (s.reach t e) }) ∧
  (∀ o, Traps (.gscan o) (fun _ t => (t.udword o.a).toNat % 16 ≠ 0)
    fun _ t => { code := .misaligned, addr := t.udword o.a }) ∧
  (∀ o, Enqueues (.xacq o) (fun _ t => xacqIllegal t (t.uword o.a).toNat = false) fun s t c =>
    { t.entry c (.xacq o) o s.nextId s.clk with args := [(t.uword o.a).toNat] }) ∧
  (∀ s t k tm e o rs, s.entry? t k = some (tm, e) → e.instr = .xacq o → s.oldestXacq tm e = true → tm.extg = 0 →
    giveRuns (s.core tm.core).share (e.arg 0) true tm.liveGroups (s.usedRuns tm.core tm.sub) = some rs →
    exec (.xacqGrant t k) s = .next (s.complete
      (({ tm.clearV tm.base (e.arg 0) with extg := e.arg 0, runs := tm.runs ++ rs } : Team).put o.d false fun _ => 0) e)) ∧
  (∀ s t k tm e o, s.entry? t k = some (tm, e) → e.instr = .xacq o →
    e.since + partTimeout (s.core tm.core).partw ≤ s.clk →
    exec (.xacqTimeout t k) s = .next (
      if o.d = .zero then s.failEntry tm e { code := .extTimeout } else s.complete (tm.put o.d false fun _ => 1) e)) ∧
  (∀ o s t c, Issues (.xrel o) s t c → t.unperformed = [] → exec (.xrel o) s = .next (s.done { t.clearV t.base t.extg with
    extg := 0, runs := t.runs.filter fun r => !r.2.1 } c)) ∧
  (∀ s t k tm e o, s.entry? t k = some (tm, e) → e.instr = .waitk o →
    kReached (tm.readK (e.arg 0)) (BitVec.ofNat 16 (e.arg 1)) = true →
    exec (.waitkDone t k) s = .next ((s.complete tm e).acquire tm o.ext.sc)) ∧
  (∀ s t k tm e o, s.entry? t k = some (tm, e) → e.instr = .bwait o → e.arg 2 = 2 →
    exec (.bwaitDone t k) s = .next ((s.complete tm e).acquire tm o.ext.sc)) ∧
  (∀ s t k tm e o, s.entry? t k = some (tm, e) → e.instr = .bwait o → e.arg 2 = 1 →
    exec (.bwaitDone t k) s = .next (s.failEntry tm e
      { code := .barrierBroken, addr := BitVec.ofNat 64 (e.arg 1) })) ∧
  (∀ s t k tm e o, s.entry? t k = some (tm, e) → e.instr = .gscan o → s.mapped tm e = true → tm.inOrder e = true →
    e.arg 1 = 0 → o.ext.fn.getLsbD 0 = false →
    let slot := leBytes 4 (e.arg 2 % 2 ^ 32) ++ leBytes 4 (e.arg 3 % 2 ^ 32) ++ leBytes 4 1 ++ leBytes 4 0
    let s1 := ((({ s with freeCtr := s.freeCtr + 2 } : State).release tm .dev).teamWrite tm.core e.outs (e.arg 0) slot
      .home).remoteStores tm.id tm.ctx tm.world (peerPieces e.outs (e.arg 0) slot)
    exec (.gscanWaitEnd t k) s = .next ((s1.complete ((s1.again tm).putQ o.ext.b false) e).acquire tm .dev)) ∧
  (∀ s t k tm e o, s.entry? t k = some (tm, e) → e.instr = .gscan o → s.mapped tm e = true → tm.inOrder e = true →
    e.arg 1 ≠ 0 →
    let r := s.teamRead tm.core e.outs (e.arg 0 + 16 * (e.arg 1 - 1)) 16 .home
    r.2.2 = false → field r.2.1 8 4 ≠ 1 → exec (.gscanWaitEnd t k) s = .next s) ∧
  (∀ s t k tm e o, s.entry? t k = some (tm, e) → e.instr = .gscan o → s.mapped tm e = true → tm.inOrder e = true →
    e.arg 1 ≠ 0 →
    let r := s.teamRead tm.core e.outs (e.arg 0 + 16 * (e.arg 1 - 1)) 16 .home
    r.2.2 = false → field r.2.1 8 4 = 1 →
    let carry : LrPair :=
      if field r.2.1 12 4 ≠ 0 then none else some (BitVec.ofNat 32 (field r.2.1 0 4), BitVec.ofNat 32 (field r.2.1 4 4))
    let total : LrPair :=
      if o.ext.fn.getLsbD 0 = true then none else some (BitVec.ofNat 32 (e.arg 2), BitVec.ofNat 32 (e.arg 3))
    let p := (lrCombine carry total).1
    let ab := p.getD (Config.freeWord r.1.freeCtr, Config.freeWord (r.1.freeCtr + 1))
    let slot := leBytes 4 ab.1.toNat ++ leBytes 4 ab.2.toNat ++ leBytes 4 1 ++ leBytes 4 p.isNone.toNat
    let own := e.arg 0 + 16 * e.arg 1
    let s1 := ((({ r.1 with freeCtr := r.1.freeCtr + 2 } : State).release tm .dev).teamWrite tm.core e.outs own slot
      .home).remoteStores tm.id tm.ctx tm.world (peerPieces e.outs own slot)
    let t1 := (s1.again tm).putQ o.ext.b carry.isSome
    let t2 := match carry, o.d with
      | some (a, b), .s n => t1.writeSS n.toNat (a ++ b)
      | _, _ => t1
    exec (.gscanWaitEnd t k) s = .next ((s1.complete t2 e).acquire tm .dev))

/-- SRD of a register the team may access reads it into its S register or pair; SWR writes it (a write of MCBASE waits
while a copy of the team awaits acceptance). SWR changes no register but the one it names, and nothing of the device
but MCBASE: SAVEPTR, MCBASE, the seed, the stream and SVCVEC then read as written, TBASE too at supervisor level, TSn
but for its reserved bits, FPSTAT with the written ones cleared; any other register reads as before. A pair register
with an odd S register, or an unlisted register, below 0x8000 or from there at supervisor level, traps with
ILLEGAL_INSTR, one from 0x8000 at user level with PRIVILEGED. SVC outside a handler with SVCVEC set and nothing of its
clause outstanding enters supervisor level at SVCVEC with RK 2. ERET in a handler whose saved stack depth matches
returns as R99 says; with another depth it traps with MASK_STACK_MISMATCH, with RK 3 or outside a handler with
ILLEGAL_INSTR. CLKRD writes the arithmetic clock or the device time. At supervisor level TLBINV drops the covered
entries, lines, locks and prefetched copies once no query or access holds a covered page, and WORLDX sets the world
once the team's work has drained; at user level both trap with PRIVILEGED. (Derived from R29, R30, R35, R99, R212,
R214, R215, R260, R351, R372.) -/
def Obligations.SystemInstructionsComplete : Prop :=
  (∀ d reg s t c, Issues (.srd d reg) s t c → srTrap t d.toNat reg.toNat = none → exec (.srd d reg) s = .next (s.done
    (if srWide reg.toNat then t.writeSS d.toNat (s.srRead t reg.toNat) else t.writeS d.toNat (s.srRead t reg.toNat).lo) c)) ∧
  (∀ d reg s t c, Issues (.swr d reg) s t c → srTrap t d.toNat reg.toNat = none →
    (reg = 2 → t.outst.all (fun e => !e.instr.starts) = true) →
    let r := s.srWrite t reg.toNat (if srWide reg.toNat then t.readSS d.toNat else (t.readS d.toNat).setWidth 64)
    exec (.swr d reg) s = .next (r.1.done r.2 c)) ∧
  (∀ (s : State) (t : Team) reg reg' d, reg' ≠ reg →
      (s.srWrite t reg d).1.srRead (s.srWrite t reg d).2 reg' = s.srRead t reg') ∧
  (∀ (s : State) (t : Team) reg d, (reg ≠ 2 → (s.srWrite t reg d).1 = s) ∧
    let t' := (s.srWrite t reg d).2
    t' = { t with tbase := t'.tbase, saveptr := t'.saveptr, ts := t'.ts, fpstat := t'.fpstat, srseed := t'.srseed,
                  srstream := t'.srstream, svcvec := t'.svcvec }) ∧
  (∀ (s : State) (t : Team) reg d, (s.cast? t.cast).isSome = true →
    (s.srWrite t reg d).1.srRead (s.srWrite t reg d).2 reg =
      if reg = 0 then (if t.svl = true then d else s.srRead t 0)
      else if reg = 1 ∨ reg = 2 ∨ reg = 0x8100 then d
      else if 8 ≤ reg ∧ reg ≤ 15 then d &&& tsMask (reg - 8)
      else if reg = 0x20 then (t.fpstat &&& ~~~(d.setWidth 5)).setWidth 64
      else if reg = 0x21 ∨ reg = 0x22 then d.lo.setWidth 64
      else s.srRead t reg) ∧
  (∀ d (reg : BitVec 16), Traps (.srd d reg) (fun _ _ => srWide reg.toNat = true ∧ d.toNat % 2 = 1)
    fun _ _ => { code := .illegalInstr }) ∧
  (∀ d (reg : BitVec 16), Traps (.swr d reg) (fun _ _ => srWide reg.toNat = true ∧ d.toNat % 2 = 1)
    fun _ _ => { code := .illegalInstr }) ∧
  (∀ d (reg : BitVec 16), Traps (.srd d reg) (fun _ _ => reg.toNat < 0x8000 ∧ srUser reg.toNat = false)
    fun _ _ => { code := .illegalInstr }) ∧
  (∀ d (reg : BitVec 16), Traps (.swr d reg) (fun _ _ => reg.toNat < 0x8000 ∧ srUser reg.toNat = false)
    fun _ _ => { code := .illegalInstr }) ∧
  (∀ d (reg : BitVec 16), Traps (.srd d reg)
    (fun _ t => 0x8000 ≤ reg.toNat ∧ t.svl = false ∧ (srWide reg.toNat = true → d.toNat % 2 = 0))
    fun _ _ => { code := .privileged }) ∧
  (∀ d (reg : BitVec 16), Traps (.swr d reg)
    (fun _ t => 0x8000 ≤ reg.toNat ∧ t.svl = false ∧ (srWide reg.toNat = true → d.toNat % 2 = 0))
    fun _ _ => { code := .privileged }) ∧
  (∀ d (reg : BitVec 16), Traps (.srd d reg) (fun _ t => 0x8000 ≤ reg.toNat ∧ t.svl = true ∧
      reg.toNat ∉ [0x8000, 0x8001, 0x8002, 0x8100, 0x8101, 0x8102]) fun _ _ => { code := .illegalInstr }) ∧
  (∀ d (reg : BitVec 16), Traps (.swr d reg) (fun _ t => 0x8000 ≤ reg.toNat ∧ t.svl = true ∧
      reg.toNat ∉ [0x8000, 0x8001, 0x8002, 0x8100, 0x8101, 0x8102]) fun _ _ => { code := .illegalInstr }) ∧
  (∀ code s t c, Issues (.svc code) s t c → t.hnd = false → t.svcvec ≠ 0 → t.mine = [] →
    exec (.svc code) s = .next (s.setTeam { (t.endsClause s.clk).enter code 0 0 0
      { epc := t.seqAddr c, idx := BitVec.ofNat 4 c.pos, rk := 2, cmask := t.cmask c none } t.svcvec false with
      svl := true })) ∧
  (∀ code, Traps (.svc code) (fun _ t => t.hnd = true ∨ t.svcvec = 0) fun _ _ => { code := .illegalInstr }) ∧
  (∀ s t c, Issues .eret s t c → t.hnd = true → t.stack.length = (t.readTS 4).toNat % 32 →
    (t.readTS 1).extractLsb' 27 2 ≠ 3 → exec .eret s = .next (s.setTeam (t.endsClause s.clk).leave)) ∧
  Traps .eret (fun _ t => t.hnd = false) (fun _ _ => { code := .illegalInstr }) ∧
  Traps .eret (fun _ t => t.hnd = true ∧ t.stack.length ≠ (t.readTS 4).toNat % 32)
    (fun _ _ => { code := .maskStackMismatch }) ∧
  Traps .eret (fun _ t => t.hnd = true ∧ t.stack.length = (t.readTS 4).toNat % 32 ∧ (t.readTS 1).extractLsb' 27 2 = 3)
    (fun _ _ => { code := .illegalInstr }) ∧
  (∀ d clk s t c, Issues (.clkrd d clk) s t c →
    exec (.clkrd d clk) s = .next (s.done (t.writeSS d.toNat (BitVec.ofNat 64 (if clk then s.clk else s.ns))) c)) ∧
  (∀ kind s t c, Issues (.tlbinv kind) s t c → t.svl = true → s.queryHolds t kind = false → s.accessHolds t kind = false →
    let gone (a : BitVec 16) (l : Nat) : Bool := tlbCovers t a (l / 512) kind
    let s1 : State := { s with tlb := s.tlb.filter fun e => !tlbDrops t kind e }
    exec (.tlbinv kind) s = .next ((s1.forget gone).done (t.dropPrefetch (gone (s.ctx t.ctx).asid)) c)) ∧
  (∀ (s : State) gone, (s.forget gone).locks2 = s.locks2.filter (fun l => !gone l.2.asid l.2.line) ∧
    (s.forget gone).cores.map (·.locks) = s.cores.map fun k => k.locks.filter fun l => !gone l.asid l.line) ∧
  (∀ kind, Traps (.tlbinv kind) (fun _ t => t.svl = false) fun _ _ => { code := .privileged }) ∧
  (∀ w s t c, Issues (.worldx w) s t c → t.svl = true → (w = true → s.mayBeSecure t = true) → t.unperformed = [] →
    s.engineIdle t.id = true → exec (.worldx w) s = .next (s.done { t with world := w } c)) ∧
  (∀ w, Traps (.worldx w) (fun _ t => t.svl = false) fun _ _ => { code := .privileged }) ∧
  Traps (.worldx true) (fun s t => t.svl = true ∧ s.mayBeSecure t = false) (fun _ _ => { code := .worldViolation })

/-- With an aligned block that no registered range meets, every granule mapped and permitted, and the team's work
drained: STATESV.team writes the team state block, STATESV.bar the words of the cast's barriers, STATERS.team takes
the team's state from the block, STATERS.bar restores every barrier word, a restored word being R213's after the
completion test. A block read that is uncorrectable traps with MEMORY_ERROR and takes nothing. EXIT.saved in a saving
handler with its engine operations over releases and leaves the core, its cast's barriers unchanged; elsewhere it
traps with ILLEGAL_INSTR. (The bytes of a block that R213 gives no value are free, log 27.) (Derived from R213, R300,
R94, R201, R252, R30.) -/
def Obligations.StateSaveAndRestoreComplete : Prop :=
  (∀ va s t c, Issues (.statesvTeam va) s t c → BlockReady s t (stateVa t va) teamBlockSize true → s.drained t = true →
    s.switching = false →
    let outs := blockOuts s t (stateVa t va) teamBlockSize true
    let s0 := blockFilled s t (stateVa t va) teamBlockSize
    let s1 := ({ s0 with freeCtr := s0.freeCtr + 1024 } : State).blockWrite t outs (stateVa t va).toNat
      (teamBlock t s0.freeCtr)
    exec (.statesvTeam va) s = .next (s1.done (s1.again t) c)) ∧
  (∀ va s t c, Issues (.statesvBar va) s t c → BlockReady s t (stateVa t va) (8 * s.barriers t) true →
    t.unperformed.any Outst.accesses = false → s.switching = false →
    let outs := blockOuts s t (stateVa t va) (8 * s.barriers t) true
    let s0 := blockFilled s t (stateVa t va) (8 * s.barriers t)
    let s1 := (s0.blockWrite t outs (stateVa t va).toNat ((List.range (s0.barriers t)).flatMap fun n =>
      leBytes 8 ((s0.cast? t.cast).elim 0 fun c => (c.bars.getD n 0).toNat))).onCast t.cast fun c => { c with recent := [] }
    exec (.statesvBar va) s = .next (s1.done (s1.again t) c)) ∧
  (∀ va s t c, Issues (.statersTeam va) s t c → BlockReady s t (stateVa t va) teamBlockSize false →
    t.unperformed = [] → s.switching = false →
    let s0 := blockFilled s t (stateVa t va) teamBlockSize
    let r := s0.teamRead t.core (blockOuts s t (stateVa t va) teamBlockSize false) (stateVa t va).toNat teamBlockSize .l1
    exec (.statersTeam va) s = .next (
      if r.2.2 = true then r.1.trapNow t c { code := .memoryError, addr := stateVa t va }
      else r.1.done (t.restore r.2.1) c)) ∧
  (∀ va s t c, Issues (.statersBar va) s t c → BlockReady s t (stateVa t va) (8 * s.barriers t) false →
    t.unperformed.any Outst.accesses = false → s.switching = false →
    let s0 := blockFilled s t (stateVa t va) (8 * s.barriers t)
    let r := s0.teamRead t.core (blockOuts s t (stateVa t va) (8 * s.barriers t) false) (stateVa t va).toNat
      (8 * s.barriers t) .l1
    let s1 := (List.range (r.1.barriers t)).foldl (fun (s : State) n =>
      s.barChange t.cast n (.put (BitVec.ofNat 64 (field r.2.1 (8 * n) 8))) (some t.id)) r.1
    exec (.statersBar va) s = .next (
      if r.2.2 = true then r.1.trapNow t c { code := .memoryError, addr := stateVa t va }
      else s1.done (s1.again t) c)) ∧
  (∀ (b : Bar) (live : BitVec 4) w, b.clock live [.put w] = (restoredBar w).complete.break live) ∧
  (∀ w, (restoredBar w).arr = (Bar.ofWord w).arr &&& (Bar.ofWord w).part ∧
    ((restoredBar w).exp.toNat = min 4 (Bar.ofWord w).exp.toNat)) ∧
  (∀ s t c, Issues .exitSaved s t c → t.psave = true → s.quiet t = true →
    exec .exitSaved s = .next ((((s.release t .dev).dropTeam t).onGrid t.grid fun g =>
      g.save ((s.cast? t.cast).elim 0 (·.index)) t.cslot).settlePreempt t.ctx)) ∧
  Traps .exitSaved (fun _ t => t.psave = false) (fun _ _ => { code := .illegalInstr })

/-- WBLOAD, WBDROP, MMA, MMAS, ACCZ, ACCLD, ACCST, ACCDR, ACCRD, ACCRD.ST, ATTN, ATTNFIN, PSEL, KVAPP, DEMOTE and
KVRES at issue trap with ILLEGAL_INSTR when the cast holds no matrix context or an operand is out of range, else with
ILLEGAL_CONVERGENCE, MISALIGNED or PROTECTION in that order, else become outstanding with their operand values.
(Derived from R165, R166, R167, R168.) -/
def Obligations.MatrixAndAttentionCommandsIssue : Prop :=
  (∀ o, CommandIssues (.wbload o) o) ∧ (∀ o, CommandIssues (.wbdrop o) o) ∧ (∀ o, CommandIssues (.mma o) o) ∧
  (∀ o, CommandIssues (.mmas o) o) ∧ (∀ o, CommandIssues (.accz o) o) ∧ (∀ o, CommandIssues (.accld o) o) ∧
  (∀ o, CommandIssues (.accst o) o) ∧ (∀ o, CommandIssues (.accdr o) o) ∧ (∀ o, CommandIssues (.accrd o) o) ∧
  (∀ o, CommandIssues (.accrdSt o) o) ∧ (∀ o, CommandIssues (.attn o) o) ∧ (∀ o, CommandIssues (.attnfin o) o) ∧
  (∀ o, CommandIssues (.psel o) o) ∧ (∀ o, CommandIssues (.kvapp o) o) ∧ (∀ o, CommandIssues (.demote o) o) ∧
  (∀ o, CommandIssues (.kvres o) o)

/-- In the order of its cast, a command its checks accept registers its ranges, takes or frees its weight entry, joins
its context's queue (of at most 16) and completes at its team (ACCRD stays outstanding); its status is 0. A suspended
command whose page is resolved goes on. WBDROP at the head ends. ACCRD at the head, in its context's turn, writes the
tile element of each lane with a row below 64 and not exited; ACCRD.ST writes MSTAT and, with CLR, clears the bits it
read. (Derived from R166, R168, R174, R176, R178, R181, R295.) -/
def Obligations.CommandsAcceptedResumedAndRead : Prop :=
  (∀ s t k tm e m c rs, s.entry? t k = some (tm, e) → s.mctxOf tm = some m → e.offered = true → tm.inOrder e = true →
    s.notFirst tm e = false → s.unanswered? tm e = none → acceptOf s tm e m = .take c rs →
    let adds := (rs.flatMap fun r => rangeOf c.op r.2.2 (.scratch tm.cast) r.1 r.2.1).map (tm.core, ·)
    (s.mqueue tm.core m).length < 16 → s.rangeRoom adds = true → s.heldByAccess adds = false →
    let s0 := (s.reach tm e).foldl (fun (s : State) r => if r.rd then s.engineRead e.outs r.va r.len else s) s
    let s1 := ((s0.register adds).weightTaken tm.core c).onMatrix tm.core m fun x => { x with queue := x.queue ++ [c] }
    let s2 := if c.outst.isSome then
        s1.setTeam { tm with outst := replaceIf tm.outst (·.seq == k) fun e => { e with taken := true } }
      else s1.complete (wbStatus e 0 tm) e
    exec (.commandAcceptance t k) s = .next s2) ∧
  (∀ s t k tm e m tr kvr wsr, s.entry? t k = some (tm, e) → s.mctxOf tm = some m → e.offered = true →
    tm.inOrder e = true → s.notFirst tm e = false → s.unanswered? tm e = none → acceptOf s tm e m = .fail tr kvr wsr →
    exec (.commandAcceptance t k) s = .next ((s.reasons tm.core m kvr wsr).failEntry tm e tr)) ∧
  (∀ s core m c rest, s.mqueue core m = c :: rest → c.susp.isSome = true → c.cleared = true → s.alive c.ctx = true →
    exec (.commandResume core m) s = .next (s.onHead core m fun c => { c with susp := none, cleared := false })) ∧
  (∀ s core m c o, AtHead s core m c → c.instr = .wbdrop o →
    exec (.wbdropExecute core m) s = .next ((s.finishCommand core m c).turned core m)) ∧
  (∀ s t k tm e o m c, Performs s t k tm e → e.instr = .accrd o → s.mctxOf tm = some m →
    s.running? tm.core m = some c → c.op = e.seq → s.engineTurn tm.core m = true → exec (.f2Completion t k) s =
    .next (((s.finishCommand tm.core m c).turned tm.core m).complete
      (tm.putIn (maskOf tm.n fun l => decide (e.arg 0 + l / 64 ≤ 63) && !tm.exited.getLsbD l) o.d false fun l =>
        ((s.tile tm.core m (F2.tile o)).getD (64 * (e.arg 0 + l / 64) + l % 64) 0).toNat) e)) ∧
  (∀ s t k tm e o m c, Performs s t k tm e → e.instr = .accrdSt o → s.mctxOf tm = some m →
    s.running? tm.core m = some c → c.op = e.seq → s.engineTurn tm.core m = true →
    let w := ((s.core tm.core).mctx m).mstat
    let s1 := (s.finishCommand tm.core m c).turned tm.core m
    exec (.f2Completion t k) s = .next ((if o.ext.fn.getLsbD 1 then s1.onMstat tm.core m (· &&& ~~~w) else s1).complete
      (tm.put o.d false fun _ => w.toNat) e))

/-- On its context's turn, with its data in range and good, the engine: decodes the stream of WBLOAD, of scratch or of
the bytes of memory that follow those kept, and makes the weight entry READY with the bytes, or BAD with the reason in
MSTAT.WSR and MSTAT.WBF; adds to the tile the products of one panel for a k-step of MMA, with B from the held entry,
or of MMAS, with B from scratch or memory, and moves the command on, ending it at the last; clears the tiles of ACCZ;
converts between a tile and its image for ACCLD and ACCST, and for ACCDR adds the tile to the image, in scratch or in
memory as it stands at the place of its scope, and clears the tile. The engine has then served that context. (Derived
from R173, R175, R176, R177, R178, R179, R180, R273, R295.) -/
def Obligations.MatrixEngineRowsComplete : Prop :=
  (∀ s core m c o, AtHead s core m c → c.instr = .wbload o → szScratch o.ext.sz = true →
    let len := streamLen c.block
    s.mscrBad core m [(c.args.getD 0 0, len)] = false →
    exec (.wbloadDecode core m) s = .next ((s.weightLoaded core m c (F2.wentry o)
      (streamDecode (c.block ++ (s.mscr core m (c.args.getD 0 0) len).drop 64) len)).turned core m)) ∧
  (∀ s core m c o, AtHead s core m c → c.instr = .wbload o → szScratch o.ext.sz = false →
    let rds := [(c.args.getD 0 0 + c.block.length, streamLen c.block - c.block.length)]
    EngineReaches s core c rds [] →
    let s0 := engineTouched s core c rds []
    let st := c.block ++ s0.vread (engineOuts s core c rds []) (c.args.getD 0 0 + c.block.length)
      (streamLen c.block - c.block.length)
    (∀ n, streamDecode st st.length ≠ .short n) → exec (.wbloadDecode core m) s =
      .next ((s0.weightLoaded core m c (F2.wentry o) (streamDecode st st.length)).turned core m)) ∧
  (∀ (s : State) core m c n bs, s.weightLoaded core m c n (.bytes bs) = (s.onWeight core n fun w =>
    if w.load == c.op && w.state == .loading then { w with state := .ready, bytes := bs } else w).endCommand core m c) ∧
  (∀ (s : State) core m c n k, s.weightLoaded core m c n (.fail k) = (((s.onWeight core n fun w =>
    if w.load == c.op && w.state == .loading then { w with state := .bad } else w).onMstat core m fun w =>
      (w &&& ~~~0xF0000#32) ||| (BitVec.ofNat 32 (k % 16) <<< 16)).raiseMstat core m 0x200).endCommand core m c) ∧
  (∀ s core m c o, AtHead s core m c → c.instr = .mma o →
    let d := Matd.ofNat (c.args.getD 0 0)
    let areads := (panelReads d.afmt d.ase8 d.m (min 64 (d.k - 64 * c.prog))).map fun r =>
      (d.aoff + c.prog * panelStride d.afmt d.ase8 + r.1, r.2)
    s.mscrBad core m areads = false → exec (.mmaKStep core m) s = .next ((stepped s core m c o d
      (productStep s core m o d c.weight.bfmt c.weight.se8 c.prog
        ((c.weight.bytes.drop (c.prog * panelStride c.weight.bfmt c.weight.se8)).take
          (panelBytes c.weight.bfmt c.weight.se8)))).turned core m)) ∧
  (∀ s core m c o, AtHead s core m c → c.instr = .mmas o → szScratch o.ext.sz = true →
    let d := Matd.ofNat (c.args.getD 0 0)
    let kk := min 64 (d.k - 64 * c.prog)
    let x := c.args.getD 1 0 + c.prog * panelStride d.bfmt d.bse8
    let areads := (panelReads d.afmt d.ase8 d.m kk).map fun r =>
      (d.aoff + c.prog * panelStride d.afmt d.ase8 + r.1, r.2)
    s.mscrBad core m (areads ++ (panelReads d.bfmt d.bse8 d.n kk).map fun r => (x + r.1, r.2)) = false →
    exec (.mmaKStep core m) s = .next ((stepped s core m c o d
      (productStep s core m o d d.bfmt d.bse8 c.prog (s.mscr core m x (panelBytes d.bfmt d.bse8)))).turned core m)) ∧
  (∀ s core m c o, AtHead s core m c → c.instr = .mmas o → szScratch o.ext.sz = false →
    let d := Matd.ofNat (c.args.getD 0 0)
    let kk := min 64 (d.k - 64 * c.prog)
    let x := c.args.getD 1 0 + c.prog * panelStride d.bfmt d.bse8
    let areads := (panelReads d.afmt d.ase8 d.m kk).map fun r =>
      (d.aoff + c.prog * panelStride d.afmt d.ase8 + r.1, r.2)
    let breads := panelReads d.bfmt d.bse8 d.n kk
    let rds := breads.map fun r => (x + r.1, r.2)
    let s0 := engineTouched s core c rds []
    EngineReaches s core c rds [] → s0.mscrBad core m areads = false →
    let pb := breads.foldl (fun bs r => bs.take r.1 ++ s0.vread (engineOuts s core c rds []) (x + r.1) r.2
      ++ bs.drop (r.1 + r.2)) (List.replicate (panelBytes d.bfmt d.bse8) 0)
    exec (.mmaKStep core m) s = .next ((stepped s0 core m c o d
      (productStep s0 core m o d d.bfmt d.bse8 c.prog pb)).turned core m)) ∧
  (∀ s core m c o, AtHead s core m c → c.instr = .accz o → exec (.tileImageOperation core m) s =
    .next ((((List.range (F2.tiles o)).foldl (fun s k => s.setTile core m (F2.tile o + k) []) s).endCommand core m
      c).turned core m)) ∧
  (∀ s core m c o, AtHead s core m c → c.instr = .accld o → szScratch o.ext.sz = true →
    let n := 4096 * imageElem o.ext.fn.toNat
    s.mscrBad core m [(c.args.getD 0 0, n)] = false →
    let r := tileOfImage o.ext.fn.toNat (s.mscr core m (c.args.getD 0 0) n)
    exec (.tileImageOperation core m) s =
      .next ((((s.setTile core m (F2.tile o) r.1).raiseMstat core m r.2).endCommand core m c).turned core m)) ∧
  (∀ s core m c o, AtHead s core m c → c.instr = .accld o → szScratch o.ext.sz = false →
    let a := c.args.getD 0 0
    let n := 4096 * imageElem o.ext.fn.toNat
    EngineReaches s core c [(a, n)] [] →
    let s0 := engineTouched s core c [(a, n)] []
    let r := tileOfImage o.ext.fn.toNat (s0.vread (engineOuts s core c [(a, n)] []) a n)
    exec (.tileImageOperation core m) s =
      .next ((((s0.setTile core m (F2.tile o) r.1).raiseMstat core m r.2).endCommand core m c).turned core m)) ∧
  (∀ s core m c o, AtHead s core m c → c.instr = .accst o → szScratch o.ext.sz = true →
    let r := imageOfTile o.ext.fn.toNat (s.tile core m (F2.tile o))
    exec (.tileImageOperation core m) s = .next
      ((((s.mscrWrite core m (c.args.getD 0 0) r.1).raiseMstat core m r.2).endCommand core m c).turned core m)) ∧
  (∀ s core m c o, AtHead s core m c → c.instr = .accst o → szScratch o.ext.sz = false →
    let a := c.args.getD 0 0
    let r := imageOfTile o.ext.fn.toNat (s.tile core m (F2.tile o))
    let wrs := [(a, r.1.length)]
    EngineReaches s core c [] wrs → exec (.tileImageOperation core m) s = .next
      (((((engineTouched s core c [] wrs).engWrite (c.engine core m) (engineOuts s core c [] wrs) a r.1).raiseMstat
        core m r.2).endCommand core m c).turned core m)) ∧
  (∀ s core m c o, AtHead s core m c → c.instr = .accdr o → szScratch o.ext.sz = true →
    let a := c.args.getD 0 0
    s.mscrBad core m [(a, 16384)] = false →
    let r := drainImage (s.tile core m (F2.tile o)) (s.mscr core m a 16384)
    exec (.accdrDrain core m) s = .next (((((s.mscrWrite core m a r.1).setTile core m (F2.tile o) []).raiseMstat core m
      r.2).endCommand core m c).turned core m)) ∧
  (∀ s core m c o, AtHead s core m c → c.instr = .accdr o → szScratch o.ext.sz = false →
    let a := c.args.getD 0 0
    let rs := [(a, 16384)]
    s.engChecks (s.ctx c.ctx) (c.ranges core rs [] rs) = none →
    let x := (s.engWalk (s.ctx c.ctx) (c.ranges core rs [] rs)).teamRead core (engineOuts s core c rs rs) a 16384
      (placeOf o.ext.sc false)
    x.2.2 = false →
    let s0 := x.1
    let r := drainImage (s.tile core m (F2.tile o)) x.2.1
    exec (.accdrDrain core m) s = .next (((((s0.engWrite (c.engine core m) (engineOuts s core c rs rs) a r.1).setTile core
      m (F2.tile o) []).raiseMstat core m r.2).endCommand core m c).turned core m))

/-- On its context's turn: KVAPP on a full, cold, busy or quantised page sets MSTAT.KVF and ends; else it writes the
token's rows and the bounds and, while the descriptor word has not changed, the new count, or else sets MSTAT.KVF.
PSEL with every page's bounds readable forms them and writes its list, and ends. ATTN's page step with every row it
reads reachable updates its work area and moves on; after the last page it writes its output, and then adds each
page's mass, one page a step, from the M and L kept with the output and the partials as they stand, in one access of
the descriptor's word 1 that stops at 2^24 - 1 with MSTAT.MOV. ATTNFIN with good parts merges one part at a time and
then ends the same way. (Derived from R184, R185, R187, R189, R190, R191, R295.) -/
def Obligations.AttentionEngineRowsComplete : Prop :=
  (∀ s core m c o va ws rest, AtHead s core m c → c.instr = .kvapp o → c.snaps = (va, ws) :: rest →
    let k := Kvpd.ofWords ws
    (k.fmt ≠ 0 ∨ k.tier = true ∨ k.busy = true ∨ k.ntok = 64) →
    exec (.kvappAppend core m) s = .next (((s.raiseMstat core m (mstatBit 6 true)).endCommand core m c).turned core m)) ∧
  (∀ s core m c o va ws rest, AtHead s core m c → c.instr = .kvapp o → c.snaps = (va, ws) :: rest →
    let k := Kvpd.ofWords ws
    let dim := headDim k.dim
    let off := c.args.getD 1 0
    k.fmt = 0 → k.tier = false → k.busy = false → k.ntok ≠ 64 → s.mscrBad core m [(off, 4 * dim)] = false →
    let data := s.mscr core m off (4 * dim)
    let ka := k.sva + kvRowAt 0 dim k.ntok false
    let vv := k.sva + kvRowAt 0 dim k.ntok true
    let rds := if k.ntok ≠ 0 then [(k.sumva, 4 * dim)] else []
    let wrs := [(ka, 2 * dim), (vv, 2 * dim), (k.sumva, 4 * dim), (va + 8, 8)]
    EngineReaches s core c rds wrs [(va + 8, 8)] →
    let outs := engineOuts s core c rds wrs [(va + 8, 8)]
    let s0 := engineTouched s core c rds wrs [(va + 8, 8)]
    let sum := s0.vread outs k.sumva (4 * dim)
    let sum' := (List.range dim).flatMap fun d => widen
      (if k.ntok ≠ 0 then some (field sum (4 * d) 2, field sum (4 * d + 2) 2) else none) (field data (2 * d) 2)
    let rows := [(ka, data.take (2 * dim)), (vv, data.drop (2 * dim)), (k.sumva, sum')]
    let won := leNat (s0.vread outs (va + 8) 8) == (ws.getD 1 0).toNat
    let s1 := s0.engWrites (c.engine core m) outs
      (rows ++ if won then [(va + 8, leBytes 8 (withNtok (ws.getD 1 0).toNat (k.ntok + 1)))] else [])
    exec (.kvappAppend core m) s =
      .next (((if won then s1 else s1.raiseMstat core m (mstatBit 6 true)).endCommand core m c).turned core m)) ∧
  (∀ s core m c o, AtHead s core m c → c.instr = .psel o →
    let b := c.block
    let dim := headDim (field b 7 1)
    let pages := c.snaps.map fun x => Kvpd.ofWords x.2
    let mode := engMode (coreDie core) c.world true false
    let todo := pages.drop c.prog
    let reads := todo.flatMap fun k => if k.ntok == 0 then [] else [(mode, k.sumva, 4 * dim)]
    let outs := todo.flatMap fun k => if k.ntok == 0 then [] else s.xlatRange (s.ctx c.ctx) mode k.sumva (4 * dim)
    let s0 := s.engTouch (s.ctx c.ctx) reads
    s.engChecks (s.ctx c.ctx) reads = none →
    todo.any (fun k => k.ntok != 0 && s0.vbad outs k.sumva (4 * dim)) = false →
    s0.mscrBad core m [(field b 8 4, 4 * field b 6 1 * dim)] = false → c.bounds.length = c.prog →
    let qs := rowsOf32 (s0.mscr core m (field b 8 4) (4 * field b 6 1 * dim)) (field b 6 1) dim
    let us := c.bounds ++ todo.map fun k =>
      if k.ntok == 0 then (negInf, (0 : Word)) else pageBound qs (s0.vread outs k.sumva (4 * dim))
    exec (.pselSelection core m) s =
      .next ((pselEnd s0 core m c (pages.map (·.sink)) (us.take (field b 0 2))).turned core m)) ∧
  (∀ s core m c o, AtHead s core m c → c.instr = .attn o → c.prog < field c.block 0 2 →
    let b := c.block
    let rows := attnRows b
    let dim := headDim (field b 4 1)
    let k := Kvpd.ofWords ((c.snaps.getD c.prog (0, [])).2)
    let pr := (field b 24 4, if attnFlag b 0 then 4 * field b 3 1 else 0)
    let wr := (field b 20 4, 8 * rows + 4 * dim * rows)
    let pos := s.mscr core m pr.1 pr.2
    let sees (r t : Nat) : Bool :=
      !attnFlag b 0 || decide (64 * k.lpi + t ≤ field pos (4 * (r % field b 3 1)) 4)
    let ts := (List.range k.ntok).filter fun t => (List.range rows).any fun r => sees r t
    let s0 := engineTouched s core c (kvReads k dim ts) []
    EngineReaches s core c (kvReads k dim ts) [] →
    s0.mscrBad core m ([(field b 12 4, 4 * dim * rows), pr] ++ if c.prog == 0 then [] else [wr]) = false →
    let w := attendedPage s0 core m c (engineOuts s core c (kvReads k dim ts) []) ts sees
    let s1 := (s0.mscrWrite core m wr.1 (workBytes (w.1.map (·.1)))).mscrWrite core m
      (wr.1 + wr.2 + 8 * c.prog * rows) (w.1.flatMap fun (_, mp, lp, _) => leBytes 4 mp.toNat ++ leBytes 4 lp.toNat)
    let j := c.prog
    let s2 := (s1.raiseMstat core m (w.1.foldl (fun x (_, _, _, f) => x ||| f) (mstatBit 2 w.2))).onHead core m fun c =>
      { c with started := true, prog := j + 1 }
    exec (.attnPage core m) s =
      .next ((if c.prog + 1 == field b 0 2 && attnFlag b 1 then s2.endCommand core m c else s2).turned core m)) ∧
  (∀ s core m c o, AtHead s core m c → c.instr = .attn o → field c.block 0 2 ≤ c.prog →
    let b := c.block
    let rows := attnRows b
    let dim := headDim (field b 4 1)
    let n := 8 * rows + 4 * dim * rows
    let adds := if attnFlag b 2 then []
      else c.snaps.zipIdx.map fun (x, i) => (x.1, partialsAt (field b 20 4) rows dim i)
    (c.massed = none → s.mscrBad core m [(field b 20 4, n)] = false → exec (.attnPage core m) s = .next
      ((attended s core m c (workRows (s.mscr core m (field b 20 4) n) rows dim) (field b 16 4) adds.length).turned core m)) ∧
    ∀ j va w k, c.massed = some j → adds[j]? = some (va, w, k) → s.mscrBad core m [(w, k)] = false →
      EngineReaches s core c [] [(va + 8, 8)] [(va + 8, 8)] →
      let u := massOf c.final (s.mscr core m w k)
      exec (.attnPage core m) s =
        .next ((addedSoFar (massAdded s core m c va u.1 u.2) core m c c.final adds.length (j + 1)).turned core m)) ∧
  (∀ s core m c o, AtHead s core m c → c.instr = .attnfin o → c.massed = none →
    s.mscrBad core m ((List.range (field c.block 0 1)).map (finWork c.block)) = false → c.prog < field c.block 0 1 →
    exec (.attnfinMerge core m) s = .next (((s.raiseMstat core m (s.finMerge core m c.block (c.prog + 1)).2).onHead core m
      fun c => { c with started := true, prog := c.prog + 1 }).turned core m)) ∧
  (∀ s core m c o, AtHead s core m c → c.instr = .attnfin o → field c.block 0 1 ≤ c.prog →
    let b := c.block
    let plan := (List.range (field b 0 1)).flatMap fun p => (List.range (finPart b p).2.1).map fun i => (p, i)
    let adds := (c.snaps.zip plan).map fun (x, p, i) =>
      (x.1, partialsAt (finPart b p).1 (field b 1 1 * field b 2 1) (headDim (field b 3 1)) i)
    (c.massed = none → s.mscrBad core m ((List.range (field b 0 1)).map (finWork b)) = false →
      exec (.attnfinMerge core m) s = .next
        ((attended s core m c (s.finMerge core m b (field b 0 1)).1 (field b 4 4) adds.length).turned core m)) ∧
    ∀ j va w k, c.massed = some j → adds[j]? = some (va, w, k) → s.mscrBad core m [(w, k)] = false →
      EngineReaches s core c [] [(va + 8, 8)] [(va + 8, 8)] →
      let u := massOf c.final (s.mscr core m w k)
      exec (.attnfinMerge core m) s =
        .next ((addedSoFar (massAdded s core m c va u.1 u.2) core m c c.final adds.length (j + 1)).turned core m))

/-- A running team between clauses with no trap waiting installs the clause it fetched whole, and that with its walks
and reads noted, or the prefetched copy; a missing granule parks it, a denied or misaligned fetch traps, an
uncorrectable walk faults the context, and an invalid header traps, each trap once no instruction of an earlier clause
is outstanding. A fetch within one granule, with no line of code held and every line it uses permitted, gives the
words that memory holds at the address, as many as the header asks for. A started prefetch ends with PF 2 and the
words, or PF 3. A free port takes the best ready team, resets its pass-over count and watchdog, keeps open the
registers whose tokens the clause does not wait for, and counts the passed-over. A YIELD wait whose count has run out
ends. (That a misaligned clause address traps MISALIGNED, with ADDR that address, is the model's choice, log 70.)
(Derived from R59, R75, R85, R87, R97, R262, R274, R292, R95, R71.) -/
def Obligations.FetchPrefetchAndChoiceComplete : Prop :=
  (∀ s t tm h ws hd, s.team? t = some tm → s.running tm = true → tm.clause = none → tm.trapWaits = false →
    tm.via = none → s.switching = false → s.fetchAt tm tm.pc = .ok h ws → Header.ofWord h = some hd →
    exec (.clauseFetch t) s = .next ((s.fetched tm tm.pc.toNat (1 + ws.length)).setTeam
      { tm with clause := some (startClause hd ws tm.resume), via := none, target := false })) ∧
  (∀ s t tm h ws hd, s.team? t = some tm → s.running tm = true → tm.clause = none → tm.trapWaits = false →
    tm.via = some (h :: ws) → Header.ofWord h = some hd → exec (.clauseFetch t) s =
      .next (s.setTeam { tm with clause := some (startClause hd ws tm.resume), via := none, target := false })) ∧
  (∀ s t tm gs, s.team? t = some tm → s.running tm = true → tm.clause = none → tm.trapWaits = false →
    tm.via = none → s.switching = false → s.fetchAt tm tm.pc = .missing gs →
    exec (.clauseFetch t) s = .next (s.parkFetch tm gs)) ∧
  (∀ s t tm code a, s.team? t = some tm → s.running tm = true → tm.clause = none → tm.trapWaits = false →
    tm.via = none → s.switching = false → s.fetchAt tm tm.pc = .bad code a → exec (.clauseFetch t) s = .next (
      if tm.outst.all (fun o => o.clause == tm.clauseNo) = true then
        s.enterTrap tm { code := code, addr := a } { epc := tm.pc, idx := 0, rk := 2, cmask := 0 }
      else s.setTeam { tm with pending := some ({ code := code, addr := a }, 0) })) ∧
  (∀ s t tm g, s.team? t = some tm → s.running tm = true → tm.clause = none → tm.trapWaits = false →
    tm.via = none → s.switching = false → s.fetchAt tm tm.pc = .walkError g → exec (.clauseFetch t) s =
      .next (s.contextFault tm.ctx (unitDie (s.ctx tm.ctx).asid g) 4 0 0)) ∧
  (∀ s t tm h ws, s.team? t = some tm → s.running tm = true → tm.clause = none → tm.trapWaits = false →
    tm.via = none → s.switching = false → s.fetchAt tm tm.pc = .ok h ws → Header.ofWord h = none →
    tm.outst.all (fun o => o.clause == tm.clauseNo) = true →
    exec (.clauseFetch t) s = .next ((s.fetched tm tm.pc.toNat (1 + ws.length)).enterTrap tm
      { code := .illegalClause, addr := tm.pc } { epc := tm.pc, idx := 0, rk := 2, cmask := 0 })) ∧
  (∀ (s : State) (t : Team) (pc : DWord), pc.toNat % 4 = 0 → pc.toNat % 65536 + 484 ≤ 65536 → (s.core t.core).code = [] →
    let x := s.fetchMap t (pc.toNat / 128)
    let ws := wordsOf (s.xread x (pc.toNat % 65536) 484)
    let n := clauseLen (ws.headD 0) ws.tail
    n ≤ 120 → (∀ k, k ≤ n → (s.fetchLineX t ((pc.toNat + 4 * k) / 128)).isMapped = true ∧
      s.xbad x (pc.toNat % 65536 + 4 * k) 4 = false) → s.fetchAt t pc = .ok (ws.headD 0) (ws.tail.take n)) ∧
  (∀ (s : State) (t : Team) (pc : DWord), pc.toNat % 4 ≠ 0 → s.fetchAt t pc = .bad .misaligned pc) ∧
  (∀ s t b tm, s.team? t = some tm → s.alive tm.ctx = true → (tm.branch b.toNat).pf = 1 →
    let br := tm.branch b.toNat
    exec (.prefetchFill t b) s = .next (match s.fetchAt tm (br.target.setWidth 64) with
      | .ok h ws => (s.fetched tm br.target.toNat (1 + ws.length)).setTeam
          (tm.setBranch b.toNat { br with pf := 2, copy := h :: ws })
      | _ => s.setTeam (tm.setBranch b.toNat { br with pf := 3, copy := [] }))) ∧
  (∀ s core sub port b, port < 2 → (s.subTeams core sub).any (·.port == some port) = false →
    s.bestTeam ((s.subTeams core sub).filter s.ready) = some b → exec (.issuePortChoice core sub port) s =
    .next { s with teams := s.teams.map fun t =>
      if !(t.core == core && t.sub == sub) then t
      else if t.id == b.id then
        ({ t with port := some port, passed := 0, lastY := false, wdog := 0, resume := none, shadows := t.unwaited } :
          Team).closeClause Outst.checked s.clk
      else if ((s.subTeams core sub).filter s.ready).any (·.id == t.id) then { t with passed := t.passed + 1, lastY := false }
      else { t with lastY := false } }) ∧
  (∀ s t, s.stopped = false → exec (.yieldWaitEnd t) s = .next { s with teams := s.teams.map fun tm =>
    if tm.id == t then (if tm.yield == some 0 then { tm with yield := none } else tm) else tm })

/-- A translation appends its outcome to the entry that needs it, and the clause ends if it waited for nothing else.
No trap is entered while an instruction of an earlier clause is outstanding. Then a settled clause enters the handler
with the trap of its deciding instruction, or with the trap met at issue, and its resume; at a boundary the first late
error enters with IDX 0 and RK 2, then the trap of a fetch, a due WATCHDOG or a pending PREEMPT with the boundary's
resume, PREEMPT also of a parked team, and a parked team whose granule was failed with PROTECTION. WATCHDOG in a
handler faults the context, and its entry sets the counter to 0 (the model's choice, log 62). A team whose deciding
instruction met MISSING parks with a record for each granule, and a parked team with none left re-issues at its EPC.
The oldest waiting fault record is written to the ring with the new producer index and the interrupt. A watchdog at
its limit faults the context, or, with WDH outside a handler, is due as a trap. (Derived from R97, R98, R100, R260,
R263, R264, R267, R268, R269, R270, R298, R299.) -/
def Obligations.TrapsParkingAndRecordsComplete : Prop :=
  (∀ s t k tm e g hit, s.translating? t k = some (tm, e) → (s.switching = true → tm.holdsUp e = true) →
    (Instr.readsAhead e.instr = true → tm.inOrder e = true) → s.unanswered? tm e = some g →
    let m := s.neededMode tm e g fun m => s.askGranule tm e m hit g
    let x := s.askGranule tm e m hit g
    (x.isMapped = true ∨ x = .missing ∨ x = .denied ∨ x = .world) →
    let s1 := if s.hitsGranule tm e g = true then s else s.fillAfter (s.ctx tm.ctx) hit g
    exec (.translationResult t k hit) s = .next (s1.putTeam (({ tm with
      outst := replaceIf tm.outst (·.seq == k) fun e => { e with outs := e.outs ++ [(g, x)] } } : Team).closeClause
        Outst.checked s.clk))) ∧
  (∀ s t tm, s.team? t = some tm → tm.earlierDone = false → exec (.trapEntry t) s = .next s) ∧
  (∀ s t tm c e tr, s.team? t = some tm → tm.ended = false → s.going tm.ctx = true → tm.earlierDone = true → tm.park = none →
    tm.clause = some c → tm.port.isSome = true → s.settled tm = true → (s.dead tm).find? (·.pos == s.lowest tm) = some e →
    s.outcome tm e = .trap tr → exec (.trapEntry t) s =
      .next (s.drawn.enterTrap (s.partialLoads tm) tr (tm.trapResume c (s.lowest tm) tr.code))) ∧
  (∀ s t tm c tr p, s.team? t = some tm → tm.ended = false → s.going tm.ctx = true → tm.earlierDone = true → tm.park = none →
    tm.clause = some c → tm.port.isSome = true → s.settled tm = true → (s.dead tm).find? (·.pos == s.lowest tm) = none →
    tm.pending = some (tr, p) → exec (.trapEntry t) s =
      .next (s.drawn.enterTrap (s.partialLoads tm) tr (tm.trapResume c p tr.code))) ∧
  (∀ s t tm tr, s.team? t = some tm → tm.ended = false → s.going tm.ctx = true → tm.earlierDone = true → tm.park = none →
    tm.atBoundary = true → tm.lateDue = some tr → exec (.trapEntry t) s = .next (s.enterTrap { tm with late := tm.late.tail }
      tr { tm.boundaryResume with idx := 0, rk := 2, cmask := 0 })) ∧
  (∀ s t tm tr p, s.team? t = some tm → tm.ended = false → s.going tm.ctx = true → tm.earlierDone = true → tm.park = none →
    tm.clause = none → tm.lateDue = none → tm.pending = some (tr, p) → exec (.trapEntry t) s =
      .next (s.enterTrap tm tr { epc := tm.pc, idx := 0, rk := 2, cmask := 0 })) ∧
  (∀ s t tm, s.team? t = some tm → tm.ended = false → s.going tm.ctx = true → tm.earlierDone = true → tm.park = none →
    tm.atBoundary = true → tm.lateDue = none → (tm.clause = none → tm.pending = none) → tm.wdogDue = true → exec (.trapEntry t) s = .next (
      if tm.hnd = true then s.contextFault tm.ctx (coreDie tm.core) 2 0x16#8 0
      else s.enterTrap { tm with wdogDue := false, wdog := 0 } { code := .watchdog } tm.boundaryResume)) ∧
  (∀ s t tm, s.team? t = some tm → tm.ended = false → s.going tm.ctx = true → tm.earlierDone = true → tm.park = none →
    tm.atBoundary = true → tm.lateDue = none → (tm.clause = none → tm.pending = none) → tm.wdogDue = false → tm.preempt = true → tm.hnd = false →
    tm.restored = false →
    exec (.trapEntry t) s = .next (s.enterTrap { tm with preempt := false } { code := .preempt } tm.boundaryResume)) ∧
  (∀ s t tm p va lanes, s.team? t = some tm → tm.ended = false → s.going tm.ctx = true → tm.earlierDone = true →
    tm.park = some p → p.failed = some (va, lanes) →
    exec (.trapEntry t) s = .next (s.enterTrap tm { code := .protection, addr := va, lanes := lanes } p.resume)) ∧
  (∀ s t tm p, s.team? t = some tm → tm.ended = false → s.going tm.ctx = true → tm.earlierDone = true →
    tm.park = some p → p.failed = none → tm.preempt = true → tm.hnd = false → tm.restored = false →
    exec (.trapEntry t) s = .next (s.enterTrap { tm with preempt := false } { code := .preempt } p.resume)) ∧
  (∀ s t tm c e gs lanes each, s.team? t = some tm → tm.ended = false → s.going tm.ctx = true → tm.park = none →
    tm.clause = some c → s.settled tm = true → (s.dead tm).find? (·.pos == s.lowest tm) = some e →
    s.outcome tm e = .park gs lanes each → exec (.teamPark t) s =
      .next (s.drawn.parkAt (s.partialLoads tm) (tm.resumeAt c (s.lowest tm) 0 tm.pc) gs (Instr.memWrites e.instr)
        lanes each)) ∧
  (∀ s t tm p, s.team? t = some tm → tm.park = some p → p.missing = [] → p.failed = none → s.going tm.ctx = true →
    exec (.parkedReissue t) s = .next (s.setTeam { tm with
      park := none, pc := p.resume.epc, via := none
      resume := if p.fetch then none else some { p.resume with inside := true } })) ∧
  (∀ s ctx r rest, s.stopped = false → (s.ctx ctx).backlog = [] → (s.ctx ctx).records = r :: rest →
    let c := s.ctx ctx
    (c.fprod + 2 ^ 64 - s.ringRead c.fringHost (c.fring + 8) 8) % 2 ^ 64 ≠ 2 ^ c.frl →
    (c.fringHost = false → s.physBad (c.fring + 8) 8 = false) →
    let s0 := if c.fringHost = true then s else s.countNoMemory (c.fring + 8)
    let s1 := s0.ringWrite c.fringHost (c.fring + 64 + 32 * (c.fprod % 2 ^ c.frl)) (r.flatMap fun w => leBytes 4 w.toNat)
    let s2 := s1.ringWrite c.fringHost c.fring (leBytes 8 ((c.fprod + 1) % 2 ^ 64))
    exec (.faultRecordWrite ctx) s =
      .next ((s2.onCtx ctx fun k => { k with records := rest, fprod := (c.fprod + 1) % 2 ^ 64 }).contextIrq ctx)) ∧
  (∀ s t tm, s.team? t = some tm → s.stopped = false → tm.ended = false → tm.park = none → (s.ctx tm.ctx).wdl ≠ 0 →
    2 ^ (s.ctx tm.ctx).wdl ≤ tm.wdog → tm.wdogDue = false → exec (.watchdogExpiry t) s = .next (
      if tm.hnd = true ∨ (s.ctx tm.ctx).wdh = false then s.contextFault tm.ctx (coreDie tm.core) 2 0x16#8 0
      else s.setTeam { tm with wdogDue := true }))

/-- A doorbell of a live context with a valid enabled entry describes the queue and adds the new ring entries to its
order, before the list entries of the same clock. A grid offered by a queue, task queue or token queue whose reads
succeed and that no reason refuses joins the grids with all its teams to retire. A cast a core can take is placed, or
all of a co-resident grid's, when on no die that takes one another ready grid goes before it, and the rotations of
those dies move on. A co-resident grid that has waited 2^20 clocks holds others back. An ended quiet team retires; the
grid's last one completes the grid. (Derived from R279, R280, R284, R285, R286, R288, R289, R291, R296, R297, R226.)
-/
def Obligations.QueuesGridsAndCastsComplete : Prop :=
  (∀ s fn ctx q idx s1 b, s.mayReach fn ctx = true → (s.ctx ctx).live = true → q < 16 →
    s.switching = false →
    s.feRead ctx (homeDie ctx) ((s.ctx ctx).qtab.toNat + 32 * q) 32 = .ok (s1, .ok b) → queueEntryValid b = true →
    (field b 0x10 4).testBit 7 = true → exec (.doorbell fn ctx q idx) s = .next (s1.onCtx ctx fun c =>
      let old := c.queue q
      let n := (idx - old.prod).toNat
      c.setQueue { old.described b with
        prod := idx, items := if n == 0 then old.items else addRing s1.clk (.ring old.prod.toNat n) old.items })) ∧
  (∀ clk x (before lists : List QueueItem), (∀ gd k, .list gd k ∈ before → k < clk) →
    (∀ i ∈ lists, ∃ gd, i = .list gd clk) → addRing clk x (before ++ lists) = before ++ x :: lists) ∧
  (∀ s ctx q s0 o b nteam args crec prec s5, s.starts ctx = true → s.takeQueue ctx q = .ok (s0, some o) →
    Startable s0 (.queue ctx q) o b nteam args crec prec s5 →
    exec (.gridStart (.queue ctx q)) s = .next (s5.addGrid (.queue ctx q) o b nteam args crec prec)) ∧
  (∀ s die j o b nteam args crec prec s5, s.takeTask die j = some o → s.starts o.ctx = true →
    Startable s (.task die j) o b nteam args crec prec s5 →
    exec (.gridStart (.task die j)) s = .next (s5.addGrid (.task die j) o b nteam args crec prec)) ∧
  (∀ s die q s0 o b nteam args crec prec s5, s.takeBatch die q = (s0, some o) → s.starts o.ctx = true →
    Startable s0 (.batch die q) o b nteam args crec prec s5 →
    exec (.gridStart (.batch die q)) s = .next (s5.addGrid (.batch die q) o b nteam args crec prec)) ∧
  (∀ s g core gr s1, s.grid? g = some gr → s.tryPlace gr core = some s1 →
    let dies := ((s1.casts.drop s.casts.length).map fun c => coreDie c.core).eraseDups
    (∀ d ∈ dies, s.yields d gr = false) →
    let s2 : State := { s1 with fronts := dies.foldl (fun fs d =>
      setAt fs d ((fs.getD d FrontEnd.reset).served gr) FrontEnd.reset) s1.fronts }
    exec (.castPlace g core) s =
      .next (s2.onGrid g fun x => if x.toPlace == 0 then { x with holding := false, headAt := none } else x)) ∧
  (∀ s g core gr h s1 d, s.grid? g = some gr → s.tryPlace gr core = some s1 →
    (∃ c ∈ s1.casts.drop s.casts.length, coreDie c.core = d) → h ∈ s.grids → h.id ≠ gr.id → s.readyOn d h = true →
    isTaskSource h.source = false → gr.pri < h.pri → exec (.castPlace g core) s = .next s) ∧
  (∀ s g gr h, s.grid? g = some gr → gr.d.cores = true → gr.toPlace ≠ 0 → s.starts gr.ctx = true →
    gr.headAt = some h → h + 2 ^ 20 ≤ s.clk →
    exec (.coresidentHold g) s = .next (s.onGrid g fun x => { x with holding := true })) ∧
  (∀ s t tm g, s.team? t = some tm → tm.ended = true → s.alive tm.ctx = true → s.quiet tm = true →
    s.switching = false →
    let s1 := ((s.release tm .dev).dropTeam tm).onGrid tm.grid fun g => { g with unretired := g.unretired - 1 }
    s1.grid? tm.grid = some g → g.unretired ≠ 0 → exec (.teamRetire t) s = .next (s1.settlePreempt tm.ctx)) ∧
  (∀ s t tm g s2, s.team? t = some tm → tm.ended = true → s.alive tm.ctx = true → s.quiet tm = true →
    s.switching = false →
    let s1 := ((s.release tm .dev).dropTeam tm).onGrid tm.grid fun g => { g with unretired := g.unretired - 1 }
    s1.grid? tm.grid = some g → g.unretired = 0 → s1.completeGrid g = .ok s2 →
    exec (.teamRetire t) s = .next (s2.settlePreempt tm.ctx))

/-- For a host function that may reach the context: CDESC on a free number with a good descriptor registers it, sets
LAST 1 for one that is misaligned, unreadable, bad or refused by its world, and LAST 3 for a number that is not free;
PREEMPT of a registered context makes PREEMPT due for its teams; RESUME of a pre-empted one registers it; RESET faults
a live one with REASON 6; UNREGISTER of a reset one, or a registered one with no grid, frees it; any other state or
command sets LAST 3. DUSKTB 0 unbinds the storage table, and a VA with a good header binds it. A resetting context has
its page steps in progress ended, its checked accesses performed and is wiped, with the L2 lines of its ASID; it
becomes reset and interrupts, or waits while a page step waits for the host's answer alone. LAST 1 for a descriptor
that is misaligned or unreadable is the model's choice (log 55). A valid token-queue record binds its queue, one of
context 0x3FF unbinds it, and an expired timer tests the trigger. (Derived from R276, R278, R287, R288, R299, R300,
R301, R305, R350, R362, R275, R70.) -/
def Obligations.ContextsAndTokenQueuesComplete : Prop :=
  (∀ s fn ctx (pa : DWord), s.mayReach fn ctx = true → (s.ctx ctx).state = .free → s.ck ≠ some .load → pa.toNat % 64 = 0 →
    s.physBad pa.toNat 64 = false → contextBad (s.physRead pa.toNat 64) = false →
    s.worldRefused (s.physRead pa.toNat 64) = false →
    exec (.cdesc fn ctx pa) s = .next ((s.countNoMemory pa.toNat).onCtx ctx (·.described (s.physRead pa.toNat 64)))) ∧
  (∀ s fn ctx (pa : DWord), s.mayReach fn ctx = true → (s.ctx ctx).state ≠ .free →
    exec (.cdesc fn ctx pa) s = .next (s.last ctx 3)) ∧
  (∀ s fn ctx (pa : DWord), s.mayReach fn ctx = true → (s.ctx ctx).state = .free → s.ck ≠ some .load →
    (pa.toNat % 64 ≠ 0 ∨ s.physBad pa.toNat 64 = true ∨ contextBad (s.physRead pa.toNat 64) = true ∨
      s.worldRefused (s.physRead pa.toNat 64) = true) →
    exec (.cdesc fn ctx pa) s = .next ((s.countNoMemory pa.toNat).last ctx 1)) ∧
  (∀ s fn ctx, Accepts s fn ctx (·.state == .registered) → exec (.ccmdPreempt fn ctx) s =
    .next ((({ s.last ctx 0 with teams := s.teams.map fun t => if t.ctx == ctx then { t with preempt := true } else t } :
      State).onCtx ctx fun c => { c with state := .preempting }).settlePreempt ctx)) ∧
  (∀ s fn ctx, Accepts s fn ctx (·.state == .preempted) → exec (.ccmdResume fn ctx) s =
    .next (({ s.last ctx 0 with grids := s.grids.map fun g =>
      if g.ctx == ctx && !g.saved.isEmpty then { g with headAt := some s.clk } else g } : State).onCtx ctx fun c =>
        { c with state := .registered })) ∧
  (∀ s fn ctx, Accepts s fn ctx Context.live → exec (.ccmdReset fn ctx) s =
    .next ((s.last ctx 0).contextFault ctx (homeDie ctx) 6 0 0)) ∧
  (∀ s fn ctx, Accepts s fn ctx (fun c => c.state == .reset || (c.state == .registered && !s.grids.any (·.ctx == ctx))) →
    exec (.ccmdUnregister fn ctx) s = .next ((s.last ctx 0).onCtx ctx Context.unregistered)) ∧
  (∀ s fn ctx (cmd : BitVec 3), s.mayReach fn ctx = true → 5 ≤ cmd.toNat →
    exec (.ccmdReserved fn ctx cmd) s = .next (s.last ctx 3)) ∧
  (∀ s fn ctx, s.mayReach fn ctx = true → (s.ctx ctx).state ≠ .registered →
    exec (.ccmdPreempt fn ctx) s = .next (s.last ctx 3)) ∧
  (∀ s fn ctx, s.mayReach fn ctx = true → (s.ctx ctx).state ≠ .preempted →
    exec (.ccmdResume fn ctx) s = .next (s.last ctx 3)) ∧
  (∀ s fn ctx, s.mayReach fn ctx = true → (s.ctx ctx).state ∈ [.free, .resetting, .reset] →
    exec (.ccmdReset fn ctx) s = .next (s.last ctx 3)) ∧
  (∀ s fn ctx, s.mayReach fn ctx = true → (s.ctx ctx).state ≠ .reset →
    ((s.ctx ctx).state ≠ .registered ∨ s.grids.any (·.ctx == ctx) = true) →
    exec (.ccmdUnregister fn ctx) s = .next (s.last ctx 3)) ∧
  (∀ s fn ctx, s.mayReach fn ctx = true → (s.ctx ctx).live = true → exec (.dusktb fn ctx 0) s =
    .next (s.onCtx ctx fun c => { c with
      last := 0, dusktb := 0, table := 0, header := [], bgAt := none, binds := c.binds + 1 })) ∧
  (∀ s fn ctx (va : DWord) s1 b, s.mayReach fn ctx = true → (s.ctx ctx).live = true → va ≠ 0 → va.toNat % 256 = 0 →
    s.switching = false → s.feRead ctx (homeDie ctx) va.toNat 64 = .ok (s1, .ok b) → headerBad b = false →
        exec (.dusktb fn ctx va) s =
    .next (s1.onCtx ctx fun c => { c with
      last := 0, dusktb := va, table := va, header := b, binds := c.binds + 1, bgAt := (headerPeriod b).map fun p => s1.ns + 1000 * p })) ∧
  (∀ s fn ctx (va : DWord), s.mayReach fn ctx = true → (s.ctx ctx).live = false →
    exec (.dusktb fn ctx va) s = .next (s.last ctx 3)) ∧
  (∀ s ctx, (s.ctx ctx).state = .resetting → s.frozen = false →
    (s.finishSteps ctx).stepsWait ctx = false →
    let s0 := ((s.finishSteps ctx).lastAccesses ctx).wipe ctx
    let s1 := s0.dropDies (List.range 4) (·.asid == ((s.finishSteps ctx).ctx ctx).asid)
    exec (.contextReset ctx) s = .next ((s1.onCtx ctx fun c => { c with
      state := .reset, bgAt := none, queues := c.queues.map fun q => { q with items := [], stopped := false } }).contextIrq
        ctx)) ∧
  (∀ s ctx, (s.ctx ctx).state = .resetting → s.frozen = false → (s.finishSteps ctx).stepsWait ctx = true →
    exec (.contextReset ctx) s = .next (s.finishSteps ctx)) ∧
  (∀ (s : State) ctx, (s.wipe ctx).teams = s.teams.filter (·.ctx != ctx) ∧
    (s.wipe ctx).grids = s.grids.filter (·.ctx != ctx) ∧ (s.wipe ctx).copies = s.copies.filter (·.ctx != ctx) ∧
    (s.wipe ctx).sweeps = s.sweeps.filter (·.ctx != ctx) ∧ (s.wipe ctx).queries = s.queries.filter (·.ctx != ctx) ∧
    (s.wipe ctx).tasks = s.tasks.filter (·.2.ctx != ctx) ∧ (s.wipe ctx).mem = s.mem) ∧
  (∀ s die q record t, die < 4 → q < 64 → record.length = 32 → s.pfReady = true →
    bitsOf (field record 0x10 4) 9 0 ≠ 0x3FF → boundQueue die q record = some t →
    let s1 := (s.window (0x030000 + 2048 * die + 32 * q) record).unbind die q
    exec (.tokenQueueBind die q record) s = .next { s1 with tokens := s1.tokens ++ [t] }) ∧
  (∀ s die q record, die < 4 → q < 64 → record.length = 32 → s.pfReady = true →
    bitsOf (field record 0x10 4) 9 0 = 0x3FF → exec (.tokenQueueBind die q record) s =
    .next ((s.window (0x030000 + 2048 * die + 32 * q) record).unbind die q)) ∧
  (∀ s die q, s.stopped = false → exec (.tokenQueueTimer die q) s = .next (s.onTokens die q fun t =>
    if t.timer.elim false fun x => decide (x ≤ s.ns) then TokenQueue.trigger t s.ns else t))

/-- On its context's turn, with every byte reachable (its end takes none): a sweep past its list ends, a DEMOTE with
its status words in scratch. A list position that is misaligned or names a bad descriptor is counted and passed; a
good one is counted and visited, a due one to be stepped. A visited page takes BUSY by the swap of word 0, tried again
once if the page is still due. A busy page that holds a NaN or an infinity becomes HELD; one with no free storage is
counted; else its rewrite is written to the storage taken. Then the union summary is written, GEN advances while NTOK
stands (else BUSY is cleared and the storage handed back without grace), word 0 names the new storage, the exact
summary is written, and the old storage is handed back. After a step MASS is halved. A KVRES steps a cold page that is
not busy or held, and passes another. A hand-back past its grace, with room in its ring, writes its entry and PROD. An
expired ageing timer queues a sweep of the header's list. (How many dimensions of a summary one step writes is free,
log 80.) (Derived from R192, R304, R306, R307, R308, R309, R310, R312, R313, R314, R315, R317.) -/
def Obligations.DuskStepsAndHandBacksComplete : Prop :=
  (∀ s die ctx w s1, Sweeping s die ctx w s1 → w.source = .demote → w.step = none → w.np ≤ w.pos → s.unanswered w.op = false →
    let s2 := ({ s1 with sweeps := s1.sweeps.filter (·.op != w.op) } : State).landScratch w.cast none w.status w.statusBytes
    exec (.duskPageStep die ctx) s = .next ((s2.releaseOp w.op).bump w.team w.kc)) ∧
  (∀ s die ctx w s1, Sweeping s die ctx w s1 → w.source ≠ .kvres → w.step = none → w.pos < w.np →
    let la := w.listva + 8 * w.pos
    SweepReaches s1 w [(la, 8)] [] →
    let s2 := sweepTouched s1 w [(la, 8)] []
    let a := leNat (s2.vread (sweepOuts s1 w [(la, 8)] []) la 8)
    (a % 32 ≠ 0 → exec (.duskPageStep die ctx) s = .next ((s2.countPage w 5).nextPage w)) ∧
    (a % 32 = 0 → SweepReaches s2 w [(a, 16)] [] →
      let s3 := sweepTouched s2 w [(a, 16)] []
      let ws := dwordsOf (s3.vread (sweepOuts s2 w [(a, 16)] []) a 16)
      ((kvrOf (Kvpd.ofWords ws) none).isSome = true →
        exec (.duskPageStep die ctx) s = .next ((s3.countPage w 5).nextPage w)) ∧
      (kvrOf (Kvpd.ofWords ws) none = none → SweepReaches s3 w [] [(a, 16)] → exec (.duskPageStep die ctx) s =
        .next (((sweepTouched s3 w [] [(a, 16)]).countPage w 0).onStep w
          { va := a, w0 := ws.getD 0 0, phase := if w.due (Kvpd.ofWords ws) = true then .swap else .halve, taken := none,
            ntok := 0, dim := 0, level := 0, sumva := 0, sum := [], done := 0, outs := [] })))) ∧
  (∀ s die ctx w s1 x, Sweeping s die ctx w s1 → w.step = some x → x.outs = [] →
    (x.phase = .swap ∨ x.phase = .swapAgain) → SweepReaches s1 w [(x.va, 16)] [(x.va, 16)] →
    let s2 := sweepTouched s1 w [(x.va, 16)] [(x.va, 16)]
    let outs := sweepOuts s1 w [(x.va, 16)] [(x.va, 16)]
    let ws := dwordsOf (s2.vread outs x.va 16)
    let w0 := ws.getD 0 0
    exec (stepRow w die ctx) s = .next (
      if w0 = x.w0 then
        (s2.engWrites w.engine outs [(x.va, leBytes 8 (withBusy w0.toNat true))]).onStep w { x with phase := .body }
      else if x.phase = .swapAgain ∨ w.due (Kvpd.ofWords ws) = false then s2.stepEnd w x
      else s2.onStep w { x with w0 := w0, phase := .swapAgain })) ∧
  (∀ s die ctx w s1 x, Sweeping s die ctx w s1 → w.step = some x → x.outs = [] → x.phase = .body →
    SweepReaches s1 w [(x.va, 32)] [(x.va, 16)] →
    let s2 := sweepTouched s1 w [(x.va, 32)] [(x.va, 16)]
    let outs := sweepOuts s1 w [(x.va, 32)] [(x.va, 16)]
    let ws := dwordsOf (s2.vread outs x.va 32)
    let p := Kvpd.ofWords ws
    let w0 := (ws.getD 0 0).toNat
    let new := if w.source = .kvres then 3 else p.fmt + p.tier.toNat + 1
    let copy := w.source == .kvres || new == 4
    let rds := if copy = true then [(p.sva, kvPageBytes p.fmt (headDim p.dim))]
        else kvReads p (headDim p.dim) (List.range p.ntok)
    SweepReaches s2 w rds [] →
    let s3 := sweepTouched s2 w rds []
    let r := s3.rewritten (sweepOuts s2 w rds []) p new copy
    let s4 := s3.sweepMstat w r.2
    (r.1 = none → exec (stepRow w die ctx) s = .next ((((s4.engWrites w.engine outs
      [(x.va, leBytes 8 (word0 w0 p.sva p.fmt p.tier true false))]).countPage w 3).sweepMstat w (mstatBit 8 true)).stepEnd
        w x)) ∧
    (∀ page sum, r.1 = some (page, sum) → x.taken = none → w.table = 0 → exec (stepRow w die ctx) s =
      .next ((((s4.engWrites w.engine outs [(x.va, leBytes 8 (withBusy w0 false))]).countPage w 4).sweepMstat w
        (mstatBit 7 true)).stepEnd w x)) ∧
    (∀ page sum sva, r.1 = some (page, sum) → x.taken = some sva →
      let sums := if sum.isEmpty then [] else [(p.sumva, sum.length)]
      let s5 := s4.onStep w x
      SweepReaches s5 w sums ((sva, page.length) :: sums) →
      let wo := sweepOuts s5 w sums ((sva, page.length) :: sums)
      exec (stepRow w die ctx) s = .next (((sweepTouched s5 w sums ((sva, page.length) :: sums)).engWrites w.engine
        (outs ++ wo) [(sva, page)]).onStep w { x with
          phase := if sum.isEmpty then .commit else .union
          ntok := p.ntok
          dim := headDim p.dim
          level := new
          sumva := p.sumva
          sum := sum
          done := 0
          outs := outs ++ wo }))) ∧
  (∀ (s : State) (w : Sweep) j k, w.table ≠ 0 →
    let at0 := w.table.toNat + 0x40 + 32 * j
    SweepReaches s w [(at0, 32)] [(at0 + 0xC, 4)] →
    let s2 := sweepTouched s w [(at0, 32)] [(at0 + 0xC, 4)]
    let outs := sweepOuts s w [(at0, 32)] [(at0 + 0xC, 4)]
    let r := s2.vread outs at0 32
    let cons := field r 0xC 4
    ((listValid r = false ∨ field r 8 4 = cons) → s.takeFree w j k = k s2 none) ∧
    (listValid r = true → field r 8 4 ≠ cons → SweepReaches s2 w [(listEntry r cons, 8)] [] →
      let s3 := sweepTouched s2 w [(listEntry r cons, 8)] []
      let e := leNat (s3.vread (sweepOuts s2 w [(listEntry r cons, 8)] []) (listEntry r cons) 8)
      let next := leBytes 4 ((cons + 1) % 2 ^ 32)
      s.takeFree w j k = k ((s3.vwrite outs (at0 + 0xC) next).remoteStores w.op w.ctx w.world
        (peerPieces outs (at0 + 0xC) next)) (some (bitsOf e 51 8 * 256)))) ∧
  (∀ s die ctx w s1 x, Sweeping s die ctx w s1 → w.step = some x → x.outs ≠ [] →
    let word (k : Nat) : Nat := leNat (s1.vread x.outs (x.va + 8 * k) 8)
    let old := s1.vread x.outs x.sumva x.sum.length
    let sva := x.taken.getD 0
    let fmt := if x.level = 4 then 3 else x.level
    (x.phase = .union → exec (stepRow w die ctx) s = .next (s1.writeSummary w x
      (fun d => unionBound (boundsAt old d) (boundsAt x.sum d)) fun s x => s.onStep w { x with phase := .commit })) ∧
    (x.phase = .commit → bitsOf (word 1) 31 25 = x.ntok → exec (stepRow w die ctx) s = .next
      ((s1.engWrites w.engine x.outs [(x.va + 8, leBytes 8 (nextGen (word 1)))]).onStep w { x with phase := .renew })) ∧
    (x.phase = .commit → bitsOf (word 1) 31 25 ≠ x.ntok → exec (stepRow w die ctx) s = .next
      (((s1.engWrites w.engine x.outs [(x.va, leBytes 8 (withBusy (word 0) false))]).handBack w sva x.dim fmt
        (x.level == 4) false).stepEnd w x)) ∧
    (x.phase = .renew →
      let s2 := s1.engWrites w.engine x.outs
        [(x.va, leBytes 8 (word0 (word 0) sva fmt (x.level == 4) ((word 0).testBit 3) false))]
      exec (stepRow w die ctx) s = .next (if x.sum = [] then s2.stepDone w x else s2.onStep w { x with phase := .exact })) ∧
    (x.phase = .exact → exec (stepRow w die ctx) s = .next (s1.writeSummary w x
      (fun d => (x.sum.drop (4 * d)).take 4) fun s x => s.stepDone w x))) ∧
  (∀ (s : State) w x bound next,
    let left := x.sum.length / 4 - x.done
    let draw := Config.summaryPart s.freeCtr
    let n := if draw = 0 then left else min draw left
    let s1 := s.engWrites w.engine x.outs ((List.range n).map fun k => (x.sumva + 4 * (x.done + k), bound (x.done + k)))
    s.writeSummary w x bound next
      = if n = left then next s1 { x with done := 0 } else s1.onStep w { x with done := x.done + n }) ∧
  (∀ s die ctx w s1 x, Sweeping s die ctx w s1 → w.source ≠ .kvres → w.step = some x → x.outs = [] → x.phase = .halve →
    let r := [(x.va + 8, 8)]
    SweepReaches s1 w r r →
    let s2 := sweepTouched s1 w r r
    let m := leNat (s2.vread (sweepOuts s1 w r r) (x.va + 8) 8)
    exec (.duskPageStep die ctx) s = .next ((s2.engWrites w.engine (sweepOuts s1 w r r)
      [(x.va + 8, leBytes 8 (m / 2 ^ 40 / 2 * 2 ^ 40 + m % 2 ^ 40))]).nextPage w)) ∧
  (∀ s die ctx w s1, Sweeping s die ctx w s1 → w.source = .kvres → w.step = none → w.pos < w.np →
    SweepReaches s1 w [(w.listva, 16)] [] →
    let s2 := sweepTouched s1 w [(w.listva, 16)] []
    let ws := dwordsOf (s2.vread (sweepOuts s1 w [(w.listva, 16)] []) w.listva 16)
    let p := Kvpd.ofWords ws
    ((p.tier = false ∨ p.busy = true ∨ p.held = true) →
      exec (.kvresRestore die ctx) s = .next (s2.visit w w.listva ws)) ∧
    (p.tier = true → p.busy = false → p.held = false → SweepReaches s2 w [] [(w.listva, 16)] →
      exec (.kvresRestore die ctx) s = .next ((sweepTouched s2 w [] [(w.listva, 16)]).visit w w.listva ws))) ∧
  (∀ s die ctx w s1, Sweeping s die ctx w s1 → w.source = .kvres → w.step = none → w.np ≤ w.pos → s.unanswered w.op = false →
    exec (.kvresRestore die ctx) s = .next
      ((({ s1 with sweeps := s1.sweeps.filter (·.op != w.op) } : State).releaseOp w.op).bump w.team w.kc)) ∧
  (∀ s j h, s.handbacks[j]? = some h → h.susp = none → (s.ctx h.ctx).state ≠ .free → s.frozen = false → s.switching = false →
    (h.grace && s.graceHeld (s.ctx h.ctx).asid (bitsOf h.entry.toNat 51 8 * 256)) = false →
    let at0 := h.table.toNat + 0x1C0
    RingReaches s h [(at0, 32)] [(at0 + 8, 4)] →
    let outs := ringOuts s h [(at0, 32)] [(at0 + 8, 4)]
    let s1 := s.engTouch (s.ctx h.ctx) (duskRanges h.die h.world [(at0, 32)] [(at0 + 8, 4)])
    let r := s1.vread outs at0 32
    let prod := field r 8 4
    listValid r = true → (prod + 2 ^ 32 - field r 0xC 4) % 2 ^ 32 ≠ 2 ^ (field r 0x10 4 % 32) →
    RingReaches s1 h [] [(listEntry r prod, 8)] →
    let o2 := ringOuts s1 h [] [(listEntry r prod, 8)]
    let s2 := s1.engTouch (s1.ctx h.ctx) (duskRanges h.die h.world [] [(listEntry r prod, 8)])
    let ws := [(listEntry r prod, leBytes 8 h.entry.toNat), (at0 + 8, leBytes 4 ((prod + 1) % 2 ^ 32))]
    let s3 := ws.foldl (fun s x => s.vwrite (outs ++ o2) x.1 x.2) s2
    exec (.handBack j) s = .next
      { s3.remoteStores 0 h.ctx h.world (ws.flatMap fun x => peerPieces (outs ++ o2) x.1 x.2) with
        handbacks := s2.handbacks.eraseIdx j }) ∧
  (∀ s ctx x, (s.ctx ctx).live = true → s.frozen = false → s.switching = false → (s.ctx ctx).bgAt = some x → x ≤ s.ns →
    let c := s.ctx ctx
    let die := bitsOf (field c.header 0 4) 2 1
    (s.sweeps.filter (·.die == die)).length < 64 →
    let w : Sweep :=
      { op := s.nextId, die := die, ctx := ctx, source := .background, world := c.world, team := 0, core := 48 * die,
        m := 0, cast := 0, kc := none, np := field c.header 0x18 4, nrec := field c.header 0x1C 4,
        thr := (List.range 4).map fun k => field c.header (8 + 4 * k) 4, listva := field c.header 0x20 8,
        status := field c.header 0x28 8, table := c.table, bind := c.binds, pos := 0, counts := [0, 0, 0, 0, 0, 0], step := none,
        snap := [], susp := none }
    exec (.backgroundSweep ctx) s = .next
      (({ s with nextId := s.nextId + 1, sweeps := s.sweeps ++ [w] } : State).onCtx ctx fun c => { c with bgAt := none }))

/-- An aligned packet in range with every granule mapped and a free slot becomes a query and its QSRCH completes. A
query's first round expands its entries; a later one merges the round's distances and pops its next candidate, or
stops. A vertex's home stack returns its distance. A stopped query, in the order of its team where it asks for it,
writes its results and its record, and counts its counter once no remote write of it is unacknowledged. A good graph
record registers, a bad one is refused, a record that is not VALID unregisters its graph at once where no query names
it, or else marks it, and a leaving graph goes once no query names it. A search share from 0 to 8 is set, 0 only where
no registered graph holds the stack. (Derived from R204, R320, R322, R326, R327, R328, R330, R331, R333.) -/
def Obligations.SearchComplete : Prop :=
  (∀ s t k tm e o, s.posted? t k = none → s.entry? t k = some (tm, e) → e.instr = .qsrch o → e.ends = true →
      tm.inOrder e = true →
    s.awaiting tm e = false → s.unanswered? tm e = none → s.mapped tm e = true →
    let a := e.arg 0
    let scr := szScratch o.ext.sz
    let h := (s.operand tm e scr a 64).1
    let p := (s.operand tm e scr a (s.packetLen h)).1
    s.headBad tm e.outs scr a = (false, false) → packetAligned h = true → (scr = true → a + s.packetLen h ≤ s.scratchSize tm) →
    (s.operand tm e scr a (s.packetLen h)).2 = false →
    let stack := s.ownerStack (coreDie tm.core) h
    (s.queries.filter (·.stack == stack)).length < 256 →
    let q : Query :=
      { id := s.nextId, stack := stack, ctx := tm.ctx, world := tm.world, team := tm.id, packet := p, outs := e.outs,
        vis := [], cand := [], res := [], fresh := [], rounds := 0, full := false, nandist := false, badrec := false,
        status := s.packetStatus tm.ctx p, written := false,
        ord := (field p 0 4).testBit 24, seq := s.nextId }
    let s1 := if scr then s else s.engineRead e.outs a (s.packetLen h)
    exec (.f2Completion t k) s =
      .next (({ s1 with nextId := s.nextId + 1, queries := s.queries ++ [q] } : State).complete tm e)) ∧
  (∀ s q x g, s.query? q = some x → s.graph? (field x.packet 0 1) = some g → x.status = none → x.fresh = [] →
    x.vis = [] → exec (.queryRound q) s =
    .next (s.onQuery q fun x => x.expand (graphNv g.record) (packetEntries x.packet))) ∧
  (∀ s q x g, s.query? q = some x → s.graph? (field x.packet 0 1) = some g → x.status = none →
    x.fresh.all (·.2.isSome) = true → x.vis ≠ [] → x.merge.full = false → x.merge.cand = [] →
    exec (.queryRound q) s = .next (s.onQuery x.merge.id fun _ => x.merge.stop 0)) ∧
  (∀ s q x g p rest, s.query? q = some x → s.graph? (field x.packet 0 1) = some g → x.status = none →
    x.fresh.all (·.2.isSome) = true → x.vis ≠ [] → x.merge.full = false → x.merge.cand = p :: rest →
    (x.merge.rlim = 0 ∨ x.merge.rounds ≠ x.merge.rlim) →
    (x.merge.res.length ≠ x.merge.ef ∨ x.merge.res.getLast?.elim false (fun w => pairLt w p) = false) →
    let r := recordAt g.record p.2.toNat
    let n := s.neighbours g.record r.2
    s.physBad (r.2 + graphVb g.record) (4 + 4 * n.1.length) = false →
    let q2 := ({ x.merge with cand := rest, badrec := x.merge.badrec || n.2 } : Query).expand (graphNv g.record) n.1
    exec (.queryRound q) s = .next (s.onQuery x.merge.id fun _ => { q2 with rounds := q2.rounds + 1 })) ∧
  (∀ s q v x g, s.query? q = some x → s.graph? (field x.packet 0 1) = some g →
    x.fresh.any (fun f => f.1 == v && f.2.isNone) = true →
    let pa := (recordAt g.record v.toNat).2
    s.physBad pa (graphVb g.record) = false →
    let vec (bs : List Byte) := (List.range (graphDim g.record)).map (vecElem (graphEfmt g.record) bs)
    let r := distanceOf x.ip (vec (x.packet.drop 0x40)) (vec (s.physRead pa (graphVb g.record)))
    exec (.vertexDistance q v) s = .next (s.onQuery q fun x => { x with
      nandist := x.nandist || r.2
      fresh := replaceIf x.fresh (fun f => f.1 == v && f.2.isNone) fun f => (f.1, some r.1) })) ∧
  (∀ s q x st, s.query? q = some x → x.status = some st →
    (x.ord = true → s.queries.any (fun y => y.ord && y.team == x.team && decide (y.seq < x.seq)) = false) →
    let ws := (if st ≤ 2 then [((packetResult x.packet).1, x.area)] else []) ++ [(packetRecord x.packet, x.completion st)]
    let s1 := if x.written then s else ((ws.foldl (fun (s : State) w => s.vwrite x.outs w.1 w.2) s).remoteStores q x.ctx x.world
      (ws.flatMap fun w => peerPieces x.outs w.1 w.2)).onQuery q fun x => { x with written := true }
    exec (.queryCompletion q) s = .next (if x.early st s.freeCtr ≠ [] then s.showWords x (x.early st s.freeCtr)
      else if s1.unanswered q then s1 else
      (({ s1 with queries := s1.queries.filter (·.id != q) } : State).bump x.team
        (if st = 4 then none else packetCounter x.packet)))) ∧
  (∀ s q x st, s.query? q = some x → x.status = some st → x.ord = true →
    s.queries.any (fun y => y.ord && y.team == x.team && decide (y.seq < x.seq)) = true →
    exec (.queryCompletion q) s = .next s) ∧
  (∀ s g record, g < 256 → record.length = 192 → recordValid record = true → s.pfReady = true →
    let s1 := s.window (0x010000 + 256 * g) record
    s1.graphRefused g record = true → exec (.graphRegistration g record) s = .next (s1.grstat g 1)) ∧
  (∀ s g record, g < 256 → record.length = 192 → recordValid record = false → s.pfReady = true →
    let s1 := s.window (0x010000 + 256 * g) record
    (s1.graph? g).isSome = true → s1.graphNamed g = true → exec (.graphUnregistration g record) s = .next
      { s1.grstat g 2 with graphs := s1.graphs.map fun x => if x.g == g then { x with leaving := true } else x }) ∧
  (∀ s g record, g < 256 → record.length = 192 → recordValid record = true → s.pfReady = true →
    let s1 := s.window (0x010000 + 256 * g) record
    s1.graphRefused g record = false → exec (.graphRegistration g record) s =
    .next { s1.grstat g 0 with graphs := s1.graphs ++ [{ g := g, record := record, leaving := false }] }) ∧
  (∀ s g record, g < 256 → record.length = 192 → recordValid record = false → s.pfReady = true →
    let s1 := s.window (0x010000 + 256 * g) record
    s1.graphNamed g = false → exec (.graphUnregistration g record) s =
    .next { s1.grstat g 0 with graphs := s1.graphs.filter (·.g != g) }) ∧
  (∀ s g x, s.graph? g = some x → x.leaving = true → s.graphNamed g = false →
    let s1 : State := { s with graphs := s.graphs.filter (·.g != g) }
    exec (.unregistrationEffect g) s =
      .next (if s.regs.grstat = 2#2 ++ BitVec.ofNat 8 g then s1.grstat g 0 else s1)) ∧
  (∀ s stack (value : Word), stack < 8 → value.toNat % 16 ≤ 8 →
    (value.toNat % 16 = 0 → s.graphs.any (fun g => (graphHome g.record stack).2.1 != 0) = false) → s.pfReady = true →
    exec (.sshare stack value) s =
      .next { s with regs := { s.regs with sshare := setAt s.regs.sshare stack (value.setWidth 4) 0 } })

/-- A host write to a context block the function may reach, or to another BAR0 register by the PF, writes its fields.
With the PCIe link up a posted write becomes pieces; the oldest piece of its function is performed, or discarded where
it touches a secure page; a host read answers the bytes after its pieces. A granted ATS answer keeps the translation,
a refused one makes the granule denied. An invalidation with no open access of teams, queries or page steps drops the
page. A resolve that names a context's ASID clears or fails its granule, and RETRY_ALL clears every one; a team parked
on a failed granule takes PROTECTION once nothing of it is outstanding. A stopped device leaves its teams as they are
(the model's reading of R341 and R361, log 94). (Derived from R240, R271, R346, R347, R349, R350, R363.) -/
def Obligations.HostAccessesAndTranslationsComplete : Prop :=
  (∀ s fn off n value, 0x100000 ≤ off → off < 0x110000 → s.mayReach fn ((off - 0x100000) / 64) = true →
    exec (.registerWrite fn off n value) s =
      .next (s.onCtx ((off - 0x100000) / 64) fun c => c.writeReg fn (off % 64) n value)) ∧
  (∀ s off n value, (off < 0x100000 ∨ 0x110000 ≤ off) → s.pfReady = true →
    exec (.registerWrite 0 off n value) s = .next (s.writeReg off n value)) ∧
  (∀ s fn pa data, s.hostUp = true → exec (.hostPostedWrite fn pa data) s =
    .next { s with pieces := s.pieces ++ splitPieces fn (data.length + 1) pa data }) ∧
  (∀ s j p, s.pieces[j]? = some p → (s.pieces.take j).any (·.fn == p.fn) = false → s.hostUp = true →
    exec (.pieceAcknowledgement j) s = .next (
      let s1 : State := { s with pieces := s.pieces.eraseIdx j }
      if s.secureRange p.pa p.data.length then s1.countRefused else s1.physWrite p.pa p.data)) ∧
  (∀ s fn pa n, s.pieces.any (·.fn == fn) = false → s.hostUp = true → s.secureRange pa n = false →
    exec (.hostRead fn pa n) s =
      .next ((({ s with freeCtr := s.freeCtr + 1 } : State).countNoMemory pa).emit (.readData fn (s.hostData pa n)))) ∧
  (∀ s fn pa n, s.pieces.any (·.fn == fn) = false → s.hostUp = true → n ≠ 0 → s.secureRange pa n = true →
    exec (.hostRead fn pa n) s = .next (s.countRefused.emit (.unsupported fn))) ∧
  (∀ s t k tm e g p granted, s.stopped = false → k ≠ 0 → s.translating? t k = some (tm, e) →
    s.unanswered? tm e = some g →
    s.askGranule tm e (s.neededMode tm e g fun m => s.askGranule tm e m true g) true g = .awaitAts p →
    exec (.atsAnswer t k granted) s = .next (
      if granted then
        if s.ats.contains ((s.ctx tm.ctx).pasid, p) then s else { s with ats := s.ats ++ [((s.ctx tm.ctx).pasid, p)] }
      else s.setTeam { tm with
        outst := replaceIf tm.outst (·.seq == e.seq) fun e => { e with outs := e.outs ++ [(g, .denied)] } })) ∧
  (∀ s page, (s.teams.any fun t => t.unperformed.any fun o => !o.failed && o.outs.any fun x => x.2.inHostPage page) = false →
    (s.queries.any fun q => q.outs.any fun x => x.2.inHostPage page) = false →
    (∀ w ∈ s.sweeps, ∀ x, w.step = some x → (x.outs.any fun y => y.2.inHostPage page) = false) →
    exec (.hostAtsInvalidation page) s = .next { s with ats := s.ats.filter (·.2 != page) }) ∧
  (∀ s fn (word : DWord) t k granted, s.stopped = true → exec (.atsAnswer t k granted) s = .next s ∧
    exec (.resolveRetry fn word) s = .next s ∧ exec (.resolveRetryAll fn word) s = .next s ∧
    exec (.resolveFail fn word) s = .next s) ∧
  (∀ s fn (word : DWord) ctx g asid, resolveFields word = (0, ctx, g, asid) → s.stopped = false → s.mayReach fn ctx = true →
    (s.ctx ctx).asid = asid → exec (.resolveRetry fn word) s = .next (s.clearGranules ctx (· == g))) ∧
  (∀ s fn (word : DWord) ctx g asid, resolveFields word = (2, ctx, g, asid) → s.stopped = false → s.mayReach fn ctx = true →
    exec (.resolveRetryAll fn word) s = .next (s.clearGranules ctx fun _ => true)) ∧
  (∀ s fn (word : DWord) ctx g asid, resolveFields word = (1, ctx, g, asid) → s.stopped = false → s.mayReach fn ctx = true →
    (s.ctx ctx).asid = asid →
    let parked := s.teams.filter fun t => t.ctx == ctx && t.park.elim false fun k => k.missing.any (·.1 == g)
    let s1 := parked.foldl (fun (s : State) t =>
      t.park.elim s fun k =>
        let va := ((k.missing.find? (·.1 == g)).map (·.2)).getD 0
        let lanes := ((k.lanes.find? (·.1 == g)).map (·.2)).getD 0
        if t.outst = [] then s.enterTrap t { code := .protection, addr := va, lanes := lanes } k.resume
        else s.setTeam { t with park := some { k with failed := k.failed.or (some (va, lanes)) } }) s
    let s2 := if s.engineWaits ctx g then s1.contextFault ctx (s.waitDie ctx g) 5 0 0 else s1
    exec (.resolveFail fn word) s = .next (s2.clearGranules ctx (· == g)))

/-- A checkpoint trigger with CKEN 1, main rails and no operation under way stops the device; its completion waits for
page steps under way to end, writes the dirty lines back and copies every stack to its image. A load starts with no
context registered and copies back. CKCTL CLEAR zeroes CKSTAT. PMODE values 0 to 4 are taken, 5 to 7 ignored, and the
change raises the device event; a mode and wheel settings take effect once no access started before is open; PSTAT is
updated; Balanced mode moves the clock by 25 MHz in its range; a thermal alert is a device event; THERMTRIP throttles
Balanced mode and halts every other. A scrub of a line of HBM4E or LPDDR6 with the rails on counts a corrected error
and each burst that reads uncorrectable. Losing the rails or RETV keeps only what R340 says. What a load does with a
granule that reads uncorrectable (log 34) and that it needs no CKEN (log 58) are the model's choice. (Derived from
R303, R338, R339, R340, R341, R342, R349, R360, R361.) -/
def Obligations.PowerCheckpointAndDeviceComplete : Prop :=
  (∀ s, s.pfReady = true → s.ck = none → s.regs.cken = true → s.mainOn = true → exec .ckctlCheckpoint s =
    .next { s with ck := some .checkpoint, stopped := true, regs := { s.regs with ckstat := ckStatus 1 1 0 } }) ∧
  (∀ s, s.ck = none → s.regs.cken = true → s.mainOn = true → exec .pfail s =
    .next { s with ck := some .checkpoint, stopped := true, regs := { s.regs with ckstat := ckStatus 1 1 0 } }) ∧
  (∀ s, s.pfReady = true → s.ck = none → s.contexts.all (·.state == .free) = true → exec .ckctlLoad s =
    .next { s with ck := some .load, regs := { s.regs with ckstat := ckStatus 1 2 0 } }) ∧
  (∀ s, s.pfReady = true → exec .ckctlClear s = .next { s with regs := { s.regs with ckstat := 0 } }) ∧
  (∀ s w, s.ck = some .checkpoint → w ∈ s.sweeps → w.step.isSome = true → s.sweepRuns w = true →
    exec .checkpointComplete s = .next s) ∧
  (∀ s, s.ck = some .checkpoint → (∀ w ∈ s.sweeps, w.step.isSome = true → s.sweepRuns w = false) →
    let s1 := s.cleanAll
    let bad := s1.badGranules 0 (2 ^ 39)
    exec .checkpointComplete s = .next (({ s1 with
      mem := s1.mem.filter (fun c => decide (c.1 < 0x18000000000)) ++ copyCells s1.mem 0 (2 ^ 39) 0x18000000000 bad
      poison := s1.poison.filter fun b => decide (32 * b < 0x18000000000)
      regs := { s1.regs with ckseq := s1.regs.ckseq + 1 } } : State).ckDone 1 bad.length)) ∧
  (∀ s, s.ck = some .load →
    let bad := s.badGranules 0x18000000000 0x20000000000
    exec .checkpointLoadComplete s = .next (({ s with
      mem := copyCells s.mem 0x18000000000 0x20000000000 0 bad ++ s.mem.filter (fun c => decide (2 ^ 39 ≤ c.1))
      poison := s.poison.filter fun b => decide (2 ^ 39 ≤ 32 * b) } : State).ckDone 2 bad.length)) ∧
  (∀ s (value : Word), s.pfReady = true → exec (.pmode value) s = .next (
    if value.toNat % 8 < 5 then { s with regs := { s.regs with pmode := value.setWidth 3 } } else s)) ∧
  (∀ s, s.regs.pmode ≠ s.regs.pmodeOn → s.accessOpen = false → exec .powerModeChange s = .next
    (({ s with regs := { s.regs with pmodeOn := s.regs.pmode, mhz := modeClock s.regs.pmode } } : State).emit (.msix 0 0))) ∧
  (∀ s, s.accessOpen = true → exec .powerModeChange s = .next s ∧ exec .wheelSettingChange s = .next s) ∧
  (∀ s, s.accessOpen = false → exec .wheelSettingChange s =
    .next { s with regs := { s.regs with wctlOn := s.regs.wctl, slotmapOn := s.regs.slotmap } }) ∧
  (∀ s, exec .pstatUpdate s = .next { s with
    freeCtr := s.freeCtr + 1
    regs := { s.regs with pstat := BitVec.ofNat 16 s.regs.mhz ++ Config.packagePower s.freeCtr } }) ∧
  (∀ s down, s.regs.pmodeOn = 0 → exec (.clockThrottle down) s = .next { s with
    regs := { s.regs with mhz := if down then max 800 (s.regs.mhz - 25) else min 1200 (s.regs.mhz + 25) } }) ∧
  (∀ s, exec .thermalAlert s = .next (s.emit (.msix 0 0))) ∧
  (∀ s, exec .thermtrip s = .next (
    if s.regs.pmodeOn = 0 then { s with regs := { s.regs with mhz := max 800 (s.regs.mhz - 25) } }
    else ({ s with stopped := true } : State).emit .inBand)) ∧
  (∀ s a b c, exec (.stackAlert a b c) s = .next s) ∧
  (∀ s line err, (128 * line < 2 ^ 39 ∨ (2 ^ 40 ≤ 128 * line ∧ 128 * line < 2 ^ 41)) → s.mainOn = true →
    let n := ((List.range 4).filter fun k => s.poison.contains (4 * line + k)).length
    exec (.patrolScrub line err) s = .next { s with tele := { s.tele with
      correctable := s.tele.correctable + (if err = true ∧ n ≠ 4 then 1 else 0)
      uncorrectable := s.tele.uncorrectable + n } }) ∧
  (∀ s line err, (s.mainOn = false ∨ (2 ^ 39 ≤ 128 * line ∧ 128 * line < 2 ^ 40) ∨ 2 ^ 41 ≤ 128 * line) →
    exec (.patrolScrub line err) s = .next s) ∧
  (∀ s, s.retvOn = true → exec .mainRailFailure s =
    let s1 := s.cleared (2 ^ 40)
    .next { s1 with
      regs := { s1.regs with
        ckstat := if s.regs.ckstat.toNat / 2 ^ 30 % 4 = 1 then s.regs.ckstat ||| 0xC0000000#32 else s.regs.ckstat
        ckseq := s.regs.ckseq }
      stopped := true, mainOn := false }) ∧
  (∀ s, exec .retvLoss s = .next { s with
    mem := s.mem.filter (fun c => decide (c.1 < 2 ^ 40)), poison := s.poison.filter fun b => decide (32 * b < 2 ^ 40)
    regs := { s.regs with ckstat := 0, ckseq := 0 }, retvOn := false })

/-- For an arriving flit of its type: a store the windows admit is written and acknowledged, another refused; an
admitted atomic is performed and answered with the old value; an acknowledgement or an answer closes its request, an
answer delivering its value; a refusal is met by its request or gives its carry status 4; carry flits join the carry
of their source and endpoint, opened at its first flit with its STAT, landing range and barrier; the bytes of a carry
that may land stand in scratch at their offset, and its end counts its barrier down, frees its entry and returns its
STAT; a carry status ends its carry. An answer takes the next number of its own pair. A flit for another device goes
on with TTL lowered or is refused; a bad one is discarded and counted; a replayed one changes nothing. A flit that
comes behind another of its source, or behind a carry of it whose bytes wait, waits for it. A trained port comes up,
one that goes down refuses the requests through it, and a PORTCTL write that changes a port's state is a device event.
The model's choice, and no rule of the spec, are: masked store flits (log 24), the length and the barrier of another
device's carry (log 29), the route bytes whose V a port down clears (log 31), that a carry is opened at its first flit
and lands from the next clock, in one clock by port (log 37), and the numbers and payloads of answers (log 39).
(Derived from R201, R205, R349, R352, R353, R354, R355, R357, R358, R359, R235.) -/
def Obligations.LinkFlitsComplete : Prop :=
  (∀ s f s1, s.arrive 1 f = some s1 → exec (.remoteStore f) s = .next (
    if s1.admits f (flitSpan f) then
      ((flitWrites f).foldl (fun (s : State) w => s.physWrite w.1 w.2) s1).reply f 4 0 (headerWord f)
    else s1.reply f 8 0 (headerWord f))) ∧
  (∀ s f, s.newFlit f = true → (s.behindCarry f = true ∨ s.firstOf f.src ≠ none) → s.firstOf f.src ≠ some f →
    let s1 : State := { s.received f with inbox := s.inbox ++ [f] }
    (s.forHere 1 f = true → exec (.remoteStore f) s = .next s1) ∧
    (s.forHere 2 f = true → exec (.remoteAtomic f) s = .next s1) ∧
    (s.forHere 3 f = true → exec (.atomicResponse f) s = .next s1) ∧
    (s.forHere 4 f = true → exec (.acknowledgement f) s = .next s1) ∧
    (s.forHere 5 f = true → exec (.carryData f) s = .next s1) ∧
    (s.forHere 6 f = true → exec (.carryEnd f) s = .next s1) ∧
    (s.forHere 7 f = true → exec (.carryStatus f) s = .next s1) ∧
    (s.forHere 8 f = true → exec (.refusal f) s = .next s1)) ∧
  (∀ (s : State) ty f, s.forHere ty f = true → s.behindCarry f = false →
    (s.firstOf f.src = some f → s.arrive ty f = some { s with inbox := s.inbox.erase f }) ∧
    (s.firstOf f.src = none → s.newFlit f = true → s.arrive ty f = some (s.received f))) ∧
  (∀ f : Flit, flitMasked f = false → flitWrites f = [(f.addr.toNat, f.data)] ∧ flitSpan f = f.data.length) ∧
  (∀ (s : State) f ty opc data, s.reply f ty opc data = (s.nextSeq f.src).2.send
    { ty := ty, dst := f.src, src := s.regs.devid, ttl := 16, seq := (s.nextSeq f.src).1, opc := opc, addr := 0, data := data,
      resv := false }) ∧
  (∀ s f s1, s.arrive 2 f = some s1 →
    let z := if f.opc.getLsbD 4 then 8 else 4
    let op := f.opc.toNat % 16
    s1.admits f z = true → op ≤ 8 → f.data.length = (if op = 8 then 2 * z else z) →
    let old := leNat (s1.hostData f.addr.toNat z)
    exec (.remoteAtomic f) s = .next ((({ s1 with freeCtr := s1.freeCtr + 1 } : State).physWrite f.addr.toNat
      (leBytes z (remoteNew op z old f.data))).reply f 3 0 (leBytes z old))) ∧
  (∀ s f s1, s.arrive 2 f = some s1 → s1.admits f (if f.opc.getLsbD 4 then 8 else 4) = false →
    exec (.remoteAtomic f) s = .next (s1.reply f 8 0 (headerWord f))) ∧
  (∀ s f s1 r, s.arrive 4 f = some s1 → s1.remote? f = some r → r.atomic = false →
    exec (.acknowledgement f) s = .next (s1.closeRemote r)) ∧
  (∀ s f s1 r, s.arrive 3 f = some s1 → s1.atomic? f = some r →
    exec (.atomicResponse f) s = .next ((s1.closeRemote r).deliver r (leNat f.data))) ∧
  (∀ s f s1 r, s.arrive 8 f = some s1 → s1.remote? f = some r → exec (.refusal f) s = .next (s1.refuseRemote r)) ∧
  (∀ s f s1 k, s.arrive 8 f = some s1 → s1.remote? f = none →
    s1.carry? (flitAnswers f).1 (flitAnswers f).2 = some k → exec (.refusal f) s = .next (s1.carryStat k 4)) ∧
  (∀ s f s1, s.arrive 5 f = some s1 → exec (.carryData f) s = .next (s1.carryFlit f false)) ∧
  (∀ s f s1, s.arrive 6 f = some s1 → exec (.carryEnd f) s = .next (s1.carryFlit f true)) ∧
  (∀ (s : State) f, s.landing.any (·.takes f) = false →
    (∀ x ∈ s.landing, x.clk = s.clk → s.portOf x.src ≤ s.portOf f.src) →
    let t := s.carryTerms f
    let e := s.endpoint (flitEndpoint f) (flitLandAt f) t.1
    (s.openCarry f).landing = s.landing ++ [{
      src := f.src, ep := flitEndpoint f, stat := e.1, cast := e.2.elim 0 (·.id),
      core := e.2.elim 0 (·.core), off := flitLandAt f, len := t.1, bar := t.2, op := s.nextId, granted := false, data := [],
      landed := 0, ended := none, clk := s.clk }]) ∧
  (∀ (s : State) k, (∀ x ∈ s.landing, x.clk = k.clk → s.portOf x.src ≤ s.portOf k.src) →
    (s.addCarry k).landing = s.landing ++ [k]) ∧
  (∀ (s : State) k l x, s.landing = l ++ [x] → (∀ y ∈ l, y.clk = k.clk → s.portOf y.src ≤ s.portOf k.src) →
    x.clk = k.clk → s.portOf k.src < s.portOf x.src → (s.addCarry k).landing = l ++ [k, x]) ∧
  (∀ (s : State) f last k, s.landing = [k] → k.takes f = true → k.stat = 0 → k.granted = true → k.clk = s.clk →
    s.carryFlit f last = { s with landing := [{ k with
      data := k.data ++ [(flitLandAt f, f.data)], ended := if last then some f else none }] }) ∧
  (∀ (s : State) f last k, s.landing = [k] → k.takes f = true → k.stat = 0 → k.granted = true → k.data = [] →
    s.stopped = false → k.clk ≠ s.clk →
    s.heldByAccess (((s.core k.core).ranges.filter (·.op == k.op)).map (k.core, ·)) = false →
    let k' : CarryIn := { k with landed := k.landed + f.data.length, ended := if last then some f else none }
    let s1 : State := { (s.onCast k.cast fun c => c.swrite (flitLandAt f) f.data) with landing := [k'] }
    s.carryFlit f last = if last then s1.endCarry k' f else s1) ∧
  (∀ (s : State) k f,
    let b := (k.bar.setWidth 7).toNat
    let s1 := if k.stat = 0 ∧ k.bar.getLsbD 7 = true ∧ b < (s.cast? k.cast).elim 0 (·.nb) then
      s.barChange k.cast b (.land k.landed) else s
    s.endCarry k f = (({ s1 with landing := s1.landing.filter (·.op != k.op) } : State).releaseOp k.op).reply f 7
      (BitVec.ofNat 8 k.stat) (headerWord f)) ∧
  (∀ s f s1 k, s.arrive 7 f = some s1 → s1.carry? (flitAnswers f).1 (flitAnswers f).2 = some k →
    exec (.carryStatus f) s = .next (s1.carryStat k f.opc.toNat)) ∧
  (∀ s f p, s.foreign f = true → flitDiscarded f = false → f.ttl ≠ 0 → s.portFor f.dst = some p →
    exec (.flitForward f) s = .next (s.emit (.flit p { f with ttl := f.ttl - 1 }))) ∧
  (∀ s f, s.foreign f = true → flitDiscarded f = false → (f.ttl = 0 ∨ s.portFor f.dst = none) →
    exec (.flitForward f) s = .next (s.refuseFlit f)) ∧
  (∀ s f, flitDiscarded f = true → s.mainOn = true → s.ports.any (·.state == .up) = true →
    let s1 := if f.dst = s.regs.devid ∧ s.newFlit f = true then s.received f else s
    exec (.flitDiscard f) s = .next { s1 with tele := { s1.tele with discarded := s1.tele.discarded + 1 } }) ∧
  (∀ s port, exec (.flitReplay port) s = .next s) ∧
  (∀ s port peer, port < 16 → (s.ports.getD port Port.reset).en = true → s.mainOn = true →
    (s.ports.getD port Port.reset).state = .training → exec (.portUp port peer) s = .next (({ s with
      ports := setAt s.ports port { s.ports.getD port Port.reset with state := .up, peer := peer } Port.reset } :
        State).emit (.msix 0 0))) ∧
  (∀ s port, port < 16 → (s.ports.getD port Port.reset).state ≠ .down →
    let lost := s.carries.filter fun k => k.dev != s.regs.devid && s.portFor k.dev == some port
    let s1 : State := { s with
      ports := setAt s.ports port { s.ports.getD port Port.reset with state := .down, peer := 0 } Port.reset
      regs := { s.regs with routeg := unroute port s.regs.routeg, routem := unroute port s.regs.routem } }
    let s2 := (s.remotes.filter (·.port == port)).foldl State.refuseRemote s1
    exec (.portDown port) s = .next ((lost.foldl (fun s k => s.carryStat k 4) s2).emit (.msix 0 0))) ∧
  (∀ s port en, port < 16 → s.pfReady = true →
    let p := s.ports.getD port Port.reset
    let s1 : State := { s with ports := setAt s.ports port (p.control en) Port.reset }
    exec (.registerWrite 0 (0x200 + 16 * port) 4 en.toNat) s =
      .next (if (p.control en).state = p.state then s1 else s1.emit (.msix 0 0)))

/-- Outside a checkpoint a cold or warm reset starts the device again, during one it waits; a warm one waits too for a
world table on its way. A warm reset keeps memory, its uncorrectable bursts, the timebase, CKSTAT, CKSEQ and the
flash, a cold one LPDDR6 alone of the memories while RETV holds, with CKSTAT, CKSEQ and the flash, and its timebase
starts at 0; teams, casts, grids, contexts, cores, translations, caches and queues start anew. A good bring-up takes
the registers, the world table and the images of the accepted configuration. A function-level reset of a virtual
function faults, resets and unregisters its contexts, after a checkpoint and after page steps that wait for the host.
IDENT, TELEM and RESET answer; a firmware chunk goes to the slot not marked for boot, and a valid slot is committed;
CKTRIG, PMSET and WRTSET outside recovery act as their rules say; a waiting world table takes effect once no access is
open. The responder answers each SPDM request outside recovery with the key of the slot it names; an MCTP control
message is answered, and a dynamic address is taken. The model's choice, and no rule of the spec, are: formats that
the spec leaves open (logs 16, 36 and 76), that MCTP control messages and dynamic addresses are answered in recovery
too (log 42), the offsets of FWSTAGE (log 43), the dirty lines that a warm reset drops (log 71), and the accesses that
a world table waits for (log 77). (Derived from R364, R366, R368, R369, R370, R371, R372, R373, R341, R340.) -/
def Obligations.ManagementComplete : Prop :=
  (∀ s, s.ck ≠ some .checkpoint → exec .coldReset s = .next s.coldStart) ∧
  (∀ s, s.ck ≠ some .checkpoint → (s.mgmt.wrtNext = none ∨ s.stopped = true) →
    exec .warmReset s = .next s.warmStart) ∧
  (∀ s, s.ck ≠ some .checkpoint → s.mgmt.wrtNext ≠ none → s.stopped = false → exec .warmReset s =
    .next { s with mgmt := { s.mgmt with resetDue := some (s.mgmt.resetDue == some true) } }) ∧
  (∀ s, s.ck = some .checkpoint →
    exec .coldReset s = .next { s with mgmt := { s.mgmt with resetDue := some true } } ∧
    exec .warmReset s = .next { s with mgmt := { s.mgmt with resetDue := some (s.mgmt.resetDue == some true) } }) ∧
  (∀ s s', (s' = State.coldStart s ∨ s' = State.warmStart s) →
    s'.teams = [] ∧ s'.casts = [] ∧ s'.grids = [] ∧ s'.copies = [] ∧ s'.carries = [] ∧ s'.sweeps = [] ∧ s'.queries = [] ∧
    s'.tasks = [] ∧ s'.tokens = [] ∧ s'.tlb = [] ∧ s'.ats = [] ∧ s'.remotes = [] ∧ s'.pieces = [] ∧ s'.graphs = [] ∧
    s'.contexts = State.reset.contexts ∧ s'.cores = State.reset.cores ∧ s'.l2 = State.reset.l2 ∧
        s'.ports = State.reset.ports ∧
    s'.clk = State.reset.clk ∧ s'.ck = none ∧ s'.stopped = false ∧ s'.mgmt.session = false ∧
    s'.regs.ckstat = s.regs.ckstat ∧ s'.regs.ckseq = s.regs.ckseq ∧ s'.mgmt.fw = s.mgmt.fw ∧ s'.mgmt.config = s.mgmt.config ∧
    s'.hostMem = s.hostMem) ∧
  (∀ s, s.mgmt.wrtNext = none → (State.warmStart s).mem = s.mem ∧ (State.warmStart s).poison = s.poison ∧ (State.warmStart s).ns = s.ns ∧
    (State.warmStart s).mgmt.staging = s.mgmt.staging ∧ (State.warmStart s).mgmt.dynaddr = s.mgmt.dynaddr) ∧
  (∀ s w, s.mgmt.wrtNext = some w →
    (State.warmStart s).mem = (s.dropLines fun l => pageChanges s.wrt w (l.base / 65536)).mem) ∧
  (∀ s, s.retvOn = true → (State.coldStart s).mem = s.mem.filter (fun c => decide (2 ^ 40 ≤ c.1)) ∧
    (State.coldStart s).poison = s.poison.filter (fun b => decide (2 ^ 40 ≤ 32 * b)) ∧ (State.coldStart s).ns = 0 ∧
    (State.coldStart s).mgmt.staging = false ∧ (State.coldStart s).mgmt.dynaddr = none) ∧
  (∀ s cfg slot, s.mgmt.configCopy = some cfg → s.mgmt.bootSlot = some slot → Config.bringUpFails 6 s.freeCtr = false →
    let s' := State.bringUp s
    s'.regs = s.regs.configured cfg ∧ s'.mainOn = true ∧ s'.mgmt.recovery = false ∧ s'.mgmt.running = slot ∧
    s'.mgmt.image = s.mgmt.fw.getD slot [] ∧ s'.mgmt.cfg = cfg ∧ s'.mem = s.mem ∧
    s'.wrt = if cfg.isEmpty then WorldTable.reset else worldTableOf ((imageBody cfg).drop 0x80)) ∧
  (∀ s, (s.mgmt.configCopy = none ∨ s.mgmt.bootSlot = none) →
    (State.bringUp s).mgmt.recovery = true ∧ (State.bringUp s).mainOn = false) ∧
  (∀ s vf, vf ≠ 0 → s.hostUp = true → s.ck ≠ some .checkpoint →
    let l := (s.contexts.filter fun c => c.cfunc.toNat == vf && c.state != .free).map (·.no)
    let s1 := l.foldl State.flrFault s
    let s2 := l.foldl State.flrContext s1
    exec (.vfFunctionLevelReset vf) s = .next (
      if l.any s1.stepsWait = true then
        { s1 with mgmt := { s1.mgmt with flrDue := s.mgmt.flrDue.erase vf ++ [vf] } }
      else { s2 with mgmt := { s2.mgmt with flrDue := s.mgmt.flrDue.erase vf } })) ∧
  (∀ s vf, vf ≠ 0 → s.hostUp = true → s.ck = some .checkpoint → exec (.vfFunctionLevelReset vf) s =
    .next { s with mgmt := { s.mgmt with flrDue := s.mgmt.flrDue.erase vf ++ [vf] } }) ∧
  (∀ s, exec .ident s = .next (s.answer 0 (Config.stepping :: (leBytes 4 s.regs.devid.toNat
    ++ s.regs.sites.flatMap (fun m => leBytes 6 m.toNat) ++ leBytes 4 s.svn
    ++ leBytes 4 (field s.mgmt.cfg 4 4) ++ leBytes 1 s.mgmt.recovery.toNat)))) ∧
  (∀ s, exec .telem s = .next (({ s with freeCtr := s.freeCtr + 1 } : State).answer 0
    (Config.sensors s.freeCtr ++ leBytes 4 s.regs.mhz ++ leBytes 4 s.tele.correctable ++ leBytes 4 s.tele.uncorrectable
      ++ leBytes 4 s.tele.discarded ++ leBytes 4 s.tele.refused ++ leBytes 4 s.tele.noMemory))) ∧
  (∀ s (arg : Byte), exec (.sbReset arg) s = .next (
    if arg.toNat < 2 then (s.answer 0 []).requestReset (arg == 1) else s.answer 1 [])) ∧
  (∀ s off (chunk : List Byte), chunk ≠ [] → chunk.length ≤ 1024 →
    let slot := 1 - s.mgmt.marked
    exec (.fwstage off chunk) s = .next (({ s with mgmt := { s.mgmt with
      fw := setAt s.mgmt.fw slot (putChunk (s.mgmt.fw.getD slot []) off chunk) [], staging := true
      dead := if s.mgmt.dead = some slot then none else s.mgmt.dead } } : State).answer 0 [])) ∧
  (∀ s, exec .fwcommit s = .next (if s.mgmt.slotValid (1 - s.mgmt.marked) = true then
      ({ s with mgmt := { s.mgmt with marked := 1 - s.mgmt.marked, staging := false, firstUse := false } } : State).answer 0 []
    else s.answer 1 [])) ∧
  (∀ s, s.mgmt.recovery = false → s.ck = none → s.regs.cken = true → s.mainOn = true →
    exec .cktrig s = .next (s.trigger.answer 0 [])) ∧
  (∀ s auth table, s.mgmt.recovery = false → s.mgmt.wrtNext = none → exec (.wrtset auth table) s = .next (
    if (auth && s.mgmt.session && worldTableOk table) = true then
      { s with mgmt := { s.mgmt with wrtNext := some (worldTableOf table) } }
    else s.answer 1 [])) ∧
  (∀ s w, s.mgmt.wrtNext = some w → s.accessOpen = false →
    let s1 := s.dropLines fun l => pageChanges s.wrt w (l.base / 65536)
    exec .worldTableSwitch s = .next ((({ s1 with
      wrt := w
      tlb := s1.tlb.filter fun e => !e.changes s.wrt w
      teams := s1.teams.map fun t => { t with
        outst := t.outst.map fun o => if o.failed then o else { o with outs := [] } } } :
      State).unwait).answer 0 [])) ∧
  (∀ s w, s.mgmt.wrtNext = some w → s.accessOpen = true → exec .worldTableSwitch s = .next s) ∧
  (∀ s (value : Word), s.mgmt.recovery = false → exec (.pmset value) s = .next (
    if 5 ≤ value.toNat % 8 then s.answer 1 []
    else ({ s with regs := { s.regs with pmode := value.setWidth 3 } } : State).answer 0 [])) ∧
  (∀ s table, s.mgmt.recovery = true → s.mgmt.wrtNext = none → exec (.wrtset true table) s = .next (s.answer 2 [])) ∧
  (∀ s, s.mgmt.recovery = false → exec (.spdmRequest .negotiate) s = .next (s.spdm 0 spdmOffer)) ∧
  (∀ s slot, s.mgmt.recovery = false → slot < 2 → exec (.spdmRequest (.certificate slot)) s =
    .next (s.spdm 1 (s.chain slot))) ∧
  (∀ s slot nonce, s.mgmt.recovery = false → slot < 2 → exec (.spdmRequest (.challenge slot nonce)) s =
    .next (s.spdm 2 (Config.ed448Sign (s.keySeed slot) nonce))) ∧
  (∀ s index slot m, s.mgmt.recovery = false → slot < 2 → s.measurements index = some m →
    exec (.spdmRequest (.measurements index slot)) s = .next (s.spdm 3 (m ++ Config.ed448Sign (s.keySeed slot) m))) ∧
  (∀ s : State, s.keySeed 1 = Config.shake256 (s.keySeed 0 ++ imageDigest 2 s.mgmt.image ++ imageDigest 3 s.mgmt.cfg) 57) ∧
  (∀ s key, s.mgmt.recovery = false → exec (.spdmRequest (.keyExchange key true)) s = .next (({ s with
    mgmt := { s.mgmt with session := Config.shake256 key 64 == s.mgmt.ownkh } } : State).spdm 4 [])) ∧
  (∀ s code, s.mgmt.recovery = false → exec (.spdmRequest (.other code)) s = .next (s.spdm 0xFF [code])) ∧
  (∀ s msg, exec (.mctpControl msg) s = .next (s.emit (.mctp (Config.opaqueBytes 0x200 msg)))) ∧
  (∀ s addr, exec (.dynamicAddressAssignment addr) s =
    .next { s with mgmt := { s.mgmt with dynaddr := some addr } })

/-- With no reset due and the team's turn first on the agenda, a running team that holds a port at a clause with a
position to issue: if the words at that position decode to i, the step is exec of i with that team as the current one,
after which no team is current and time has passed; i is encoded and well formed. Where i names a register that a
breach of R68 leaves in doubt, with checking disabled, exec runs on the registers as its reads find them, and
registers it has not written are afterwards as before (R71). If the words do not decode, the step traps the team with
ILLEGAL_INSTR, unless the team settles or a window holds it. (Derived from R59, R61, R68, R71, R75.) -/
def Obligations.AStepRunsTheDecodedInstruction : Prop :=
  ∀ (s : State) rest (t : Team) (c : Clause) p, s.dueReset = none → s.agenda = .team t.id :: rest →
    let s0 : State := { s with agenda := rest }
    s0.team? t.id = some t → s0.running t = true → t.clause = some c → t.port = some p → c.pos ≤ c.header.n →
    (∀ i, c.instr = some i →
      let sh := t.shadows.filter (·.covers t c)
      let x := t.readings sh s.freeCtr i
      let run (s : State) (i : Instr) := mapNext (fun s => { s with cur := none }) (exec i { s with cur := some t.id })
      ((∀ y ∈ sh, i.regs.contains y.reg = false) → step s = mapNext State.tick (run s0 i)) ∧
      ((∃ y ∈ sh, i.regs.contains y.reg = true) → step s = mapNext State.tick
        (mapNext (fun s' => s'.onTeam t.id (x.restore t i sh)) (run (s0.setTeam x.team) x.instr))) ∧
      ({ s0 with cur := some t.id } : State).current = some (t, c) ∧ i.encoded = true ∧ i.illFormed = none) ∧
    (c.instr = none → t.settling = false → t.heldByWindow c = false →
      step s = .next (s0.trapNow t c { code := .illegalInstr }).tick)

/-- Whatever the state, a step answers a next state: no instruction, event or sequence of words stops the machine. A
program that errs takes a trap or faults its context. (Derived from R7, R75, R97, R275.) -/
def Obligations.EveryStepAnswersANextState : Prop :=
  ∀ s, ∃ s', step s = .next s'

/-- If the lists that hold device memory, every cast's scratch and the BAR0 record windows have strictly rising
addresses and list no byte that equals what an unlisted address reads as, then so they have after any step. The form
is the model's, so that equal memories are equal data. (Derived from R336, R338, R349, R373.) -/
def Obligations.EveryStepKeepsMemoryCanonical : Prop :=
  ∀ s s', s.MemWf → s.WindowsWf → step s = .next s' → s'.MemWf ∧ s'.WindowsWf

/-- At reset device memory, scratch and windows are in canonical form; there is no team, cast, grid or query; a read
of BAR0 by any function at any offset, of any size, is 0 (the registers of every context block, ports, routes and
every byte of the record windows among them), but that the PF reads 2 for each search share; CKSTAT and CKSEQ, which
R349 keeps, are not spoken of. Memory that lists nothing reads 0 everywhere, which is the model's choice (log 1).
(Derived from R31, R333, R342, R349, R350, R373.) -/
def Obligations.ResetMemoryIsCanonicalAndReadsAsListed : Prop :=
  State.reset.MemWf ∧ State.reset.WindowsWf ∧ State.reset.teams = [] ∧ State.reset.casts = [] ∧
  State.reset.grids = [] ∧ State.reset.queries = [] ∧
  (∀ fn off n, off ≠ 0x84 → off ≠ 0x88 → (fn = 0 → ∀ k, k < 8 → off ≠ 0x40 + 4 * k) → State.reset.bar0 fn off n = 0) ∧
  (∀ k, k < 8 → State.reset.bar0 0 (0x40 + 4 * k) 4 = 2) ∧
  (∀ c, c < 1024 → (State.reset.ctx c).state = .free) ∧
  ∀ a, State.reset.mem.read a = 0

/-- The header, both words of each IADC of the worked 64-bit addition, and one word or pair of words of each further
class, written out bit by bit from the formats, decode to their instruction with every operand. (Derived from R60,
R63, R64, R66, R67, R72, R73, R74, 05 a worked 64-bit addition.) -/
def Obligations.WrittenOutWordsDecode : Prop :=
  Header.ofWord 0x20000000 = some { n := 2, cls := 0, e := false, y := false, wt := 0 } ∧
  decodeInstr 0 [0x84040002, 0xF0800900] =
    .ok (.iadc { d := .v 4, a := .v 0, b := .v 2,
                 x := some { c := .zero, ty := .n32, rm := .rne, sat := false, na := false, nb := false, fn := 9 } }, []) ∧
  decodeInstr 0 [0x84050103, 0xC1800000] =
    .ok (.iadc { d := .v 5, a := .v 1, b := .v 3,
                 x := some { c := .p 1, ty := .n32, rm := .rne, sat := false, na := false, nb := false, fn := 0 } }, []) ∧
  decodeInstr 0 [0x020180F8, 0x12345678] = .ok (.iadd { d := .v 1, a := .s 0, b := .lit32 0x12345678, x := none }, []) ∧
  decodeInstr 1 [0x8205C1F0, 0xF0000300] =
    .ok (.vote { d := .v 5, a := .p 1, b := .zero,
                 x := some { c := .zero, ty := .b32, rm := .rne, sat := false, na := false, nb := false, fn := 3 } }, []) ∧
  decodeInstr 1 [0x830A0AF0, 0xF0500000] =
    .ok (.reduce { d := .v 10, a := .v 10, b := .zero,
                   x := some { c := .zero, ty := .s64, rm := .rne, sat := false, na := false, nb := false, fn := 0 } }, []) ∧
  decodeInstr 2 [0x87000488, 0x05A40004] =
    .ok (.hacc { l := 0, tk := 0, d := .v 4, a := .s 8,
                 x := some { b := .v 5, sz := 10, sc := .core, rh := 0, fn := 0, imm := 4 } }, []) ∧
  decodeInstr 3 [0x8300D28A, 0x8C201000] =
    .ok (.mmas { l := 0, tk := 0, d := .k 2, a := .s 10,
                 x := some { b := .s 12, sz := 2, sc := .none, rh := 0, fn := 1, imm := 0 } }, []) ∧
  decodeInstr 4 [0x8800F088, 0xF0A00000] =
    .ok (.qsrch { l := 0, tk := 0, d := .zero, a := .s 8,
                  x := some { b := .zero, sz := 10, sc := .none, rh := 0, fn := 0, imm := 0 } }, []) ∧
  decodeInstr 2 [0x80000880, 0xF0220000] =
    .ok (.ld { l := 0, tk := 0, d := .v 8, a := .s 0,
               x := some { b := .zero, sz := 2, sc := .team, rh := 0, fn := 0, imm := 0 } }, []) ∧
  decodeInstr 5 [0x00000000] = .ok (.nop, []) ∧
  decodeInstr 5 [0x0402C000] = .error .reservedField ∧
  decodeInstr 5 [0x08004000] = .ok (.ifP 1, []) ∧
  decodeInstr 6 [0x00820012] = .ok (.srd 2 0x12, []) ∧
  decodeInstr 6 [0x05F00000] = .ok (.eret, [])

/-- For every encoded instruction of class 0 or 1 that no check refuses, with every operand, literal and extension
field at every value that its encoding admits, and whatever words follow, decoding its words gives the instruction and
the words that follow. (Derived from R26, R27, R62, R63, R64, R65, R74.) -/
def Obligations.DecodeOfEncodeOfRegisterInstructions : Prop :=
  ∀ i rest, i.encoded = true → i.cls ≤ 1 → i.illFormed = none → decodeInstr i.cls (encode i ++ rest) = .ok (i, rest)

/-- For every encoded instruction of class 2, 3 or 4 that no check refuses, with every operand, window, token, size,
scope, hint and displacement at every value that its encoding admits, and whatever words follow, decoding its words
gives the instruction and the words that follow. (Derived from R62, R66, R67, R74.) -/
def Obligations.DecodeOfEncodeOfMemoryAndAsynchronousInstructions : Prop :=
  ∀ i rest, i.encoded = true → 2 ≤ i.cls → i.cls ≤ 4 → i.illFormed = none →
    decodeInstr i.cls (encode i ++ rest) = .ok (i, rest)

/-- For every encoded instruction of class 5 or 6 that no check refuses, with every field at every value that its
encoding admits, and whatever words follow, decoding its words gives the instruction and the words that follow.
(Derived from R72, R73, R82, R211.) -/
def Obligations.DecodeOfEncodeOfControlAndSystemInstructions : Prop :=
  ∀ i rest, i.encoded = true → 5 ≤ i.cls → i.illFormed = none → decodeInstr i.cls (encode i ++ rest) = .ok (i, rest)

/-- For every class from 0 to 6 and every list of words: if it decodes to an instruction with words left over, then
the instruction is encoded, of that class and refused by no check, and its encoding followed by the words left over is
the list. So every reserved field is checked, and no instruction has two encodings. (Derived from R26, R62, R63, R64,
R66, R67, R72, R73, R75.) -/
def Obligations.DecodedWordsAreTheEncoding : Prop :=
  ∀ cls ws i rest, cls ≤ 6 → decodeInstr cls ws = .ok (i, rest) →
    i.encoded = true ∧ i.cls = cls ∧ i.illFormed = none ∧ encode i ++ rest = ws

/-- Every instruction of class 0 or 1 that issues (EXDEAL where the expand state is armed, EXSET where it is idle and
its total fits 32 bits) goes on with a team in which every V, S, P and Q register that it does not name as a
destination or carry-out reads as before, V and P registers read as before in lanes that are not active (but for
SEGRED, which writes the lanes its segments name), K registers other than a K destination read as before, and flags
are only added. Branch targets, the mask stack, Act and Exited, trap and system registers and outstanding instructions
are as before. (Derived from R7, R13, R26, R35, R101, R107, R136, R137, R139.) -/
def Obligations.RegisterInstructionsChangeOnlyTheirDestinations : Prop :=
  ∀ i o s t c, f1Of i = some o → Issues i s t c → (∀ d, i = .exdeal d → t.expand.armed = true) →
    (∀ d, i = .exset d → t.expand.armed = false ∧ exBase (exPairs t d) t.n < 2 ^ 32) → ∃ t', exec i s =
        .next (s.done t' c) ∧ SameTeamState t t' ∧
    KeepsRegisters (f1Writes i) (writesAnyLane i) o.d t t'

/-- MOV that issues leaves in its V or S destination the bits of its source, in 32 or 64 bits, and in a K destination
its low 16 bits; SEL leaves A where C is true and B elsewhere. C is a P code, read lane by lane, or a Q code, read as
the same bit in every lane. SEL with any other C code traps with ILLEGAL_INSTR. Nothing else of the team changes than
by that write. (R104) -/
def Obligations.MoveAndSelect : Prop :=
  (∀ o s t c, Issues (.mov o) s t c →
    let x := o.ext .b32
    let t' := t.put o.d x.ty.is64 fun l => t.num x.ty.is64 false false l o.a
    exec (.mov o) s = .next (s.done t' c) ∧
    (∀ l, Writes t o l → (o.d.isV = true ∨ o.d.isS = true) →
      t'.num x.ty.is64 false false l o.d = t.num x.ty.is64 false false l o.a) ∧
    ∀ n, o.d = .k n → t'.readK n.toNat = BitVec.ofNat 16 (t.num x.ty.is64 false false 0 o.a)) ∧
  (∀ o s t c, Issues (.sel o) s t c →
    let x := o.ext .b32
    let t' := t.put o.d x.ty.is64 fun l =>
      if t.cond l o.third then t.num x.ty.is64 false false l o.a else t.num x.ty.is64 false false l o.b
    exec (.sel o) s = .next (s.done t' c) ∧
    (∀ l, Writes t o l → (o.d.isV = true ∨ o.d.isS = true) → t'.num x.ty.is64 false false l o.d =
      t.num x.ty.is64 false false l (if t.cond l o.third then o.a else o.b)) ∧
    ∀ n, o.d = .k n → t'.readK n.toNat =
      BitVec.ofNat 16 (t.num x.ty.is64 false false 0 (if t.cond 0 o.third then o.a else o.b))) ∧
  (∀ (t : Team) l n, t.cond l (.p n) = (t.readP n.toNat).getLsbD l) ∧ (∀ (t : Team) l n, t.cond l (.q n) = t.readQ n.toNat) ∧
  (∀ o, (∀ n, o.third ≠ .p n) → (∀ n, o.third ≠ .q n) → Refuses (.sel o))

/-- IADC that issues writes (A + B + ci) mod 2^w, ISBC (A - B - ci) mod 2^w, with A and B as numbers of 32 or 64 bits
without a sign. With FN[3] the carry-out, whether the sum reaches 2^w or the difference falls below 0, is written to
Pn in the active lanes in the vector form and to Qn in the scalar form; a write of P7 is ignored. The carry-in of a P
or Q code is its value, of 0xF0 it is 0, of 0xE1 it is 1. Any other C code, FN[5:4] not zero, FN[2:0] not zero without
FN[3], and a scalar form with n above 3 trap with ILLEGAL_INSTR. (R107) -/
def Obligations.CarryChain : Prop :=
  (∀ sub o s t c, let i : Instr := if sub = true then .isbc o else .iadc o
    Issues i s t c →
    let x := o.ext .n32
    let a (l : Nat) : Int := t.num x.ty.is64 false false l o.a
    let b (l : Nat) : Int := t.num x.ty.is64 false false l o.b
    let v (l : Nat) : Int := if sub = true then a l - b l - (t.cond l o.third).toNat else a l + b l + (t.cond l o.third).toNat
    let out (l : Nat) : Bool := if sub = true then decide (v l < 0) else decide ((2 : Int) ^ x.ty.bits ≤ v l)
    let t1 := t.put o.d x.ty.is64 fun l => (v l % 2 ^ x.ty.bits).toNat
    exec i s = .next (s.done (
      if x.fn.getLsbD 3 = false then t1
      else if o.scalar = true then t1.writeQ (x.fn.extractLsb' 0 3).toNat (out 0)
      else t1.writeP (x.fn.extractLsb' 0 3).toNat t.act (maskOf t.n out)) c)) ∧
  (∀ (t : Team) m v, t.writeP 7 m v = t) ∧
  (∀ (t : Team) l n, t.cond l (.p n) = (t.readP n.toNat).getLsbD l) ∧ (∀ (t : Team) l n, t.cond l (.q n) = t.readQ n.toNat) ∧
  (∀ (t : Team) l, t.cond l .zero = false ∧ t.cond l (.const 1) = true) ∧
  (∀ o x, o.x = some x → (∀ n, x.c ≠ .p n) → (∀ n, x.c ≠ .q n) → x.c ≠ .zero → x.c ≠ .const 1 →
    Refuses (.iadc o) ∧ Refuses (.isbc o)) ∧
  (∀ o x, o.x = some x → x.fn.extractLsb' 4 2 ≠ 0 → Refuses (.iadc o) ∧ Refuses (.isbc o)) ∧
  (∀ o x, o.x = some x → x.fn.getLsbD 3 = false → x.fn.extractLsb' 0 3 ≠ 0 → Refuses (.iadc o) ∧ Refuses (.isbc o)) ∧
  (∀ o x, o.x = some x → x.fn.getLsbD 3 = true → o.scalar = true → 3 < (x.fn.extractLsb' 0 3).toNat →
    Refuses (.iadc o) ∧ Refuses (.isbc o))

/-- LEA that issues writes (A + Ext(B) * 2^k) mod 2^64 to its pair: k is FN[2:0], B a 32-bit operand, sign-extended
when FN[3] is set and zero-extended otherwise. In a V pair each active lane receives the low word in the register
named and the high word in the next. FN[5:4] not zero, and a V or S code for D or A that is odd, trap with
ILLEGAL_INSTR. (R108) -/
def Obligations.LoadEffectiveAddress : Prop :=
  (∀ o s t c, Issues (.lea o) s t c →
    let fn := (o.ext .b64).fn
    let b (l : Nat) : DWord := if fn.getLsbD 3 then (t.word false l o.b).signExtend 64 else (t.word false l o.b).setWidth 64
    let r (l : Nat) : DWord := t.dword false l o.a + b l <<< (fn.extractLsb' 0 3).toNat
    let t' := t.put o.d true fun l => (r l).toNat
    exec (.lea o) s = .next (s.done t' c) ∧
    (∀ n l, o.d = .v n → l < t.n → t.act.getLsbD l = true →
      t'.readV n.toNat l = (r l).setWidth 32 ∧ t'.readV (n.toNat + 1) l = (r l >>> 32).setWidth 32) ∧
    ∀ n, o.d = .s n → t'.readSS n.toNat = r 0) ∧
  (∀ o, (o.ext .b64).fn.extractLsb' 4 2 ≠ 0 → Refuses (.lea o)) ∧
  (∀ o (n : BitVec 7), n.toNat % 2 = 1 → (o.d = .v n ∨ o.a = .v n) → Refuses (.lea o)) ∧
  (∀ o (n : BitVec 6), n.toNat % 2 = 1 → (o.d = .s n ∨ o.a = .s n) → Refuses (.lea o))

/-- ISET that issues compares Int(A, ty) with Int(B, ty), where ty is a signed or unsigned type of 32 or 64 bits, by
FN[2:0]: 0 equal, 1 not equal, 2 less, 3 less or equal, 4 greater, 5 greater or equal. A P destination other than P7
receives the outcome in its active lanes, a Q destination once, a V or S destination 1 or 0. Comparisons 6 and 7 and a
K destination trap with ILLEGAL_INSTR; the trap of a K destination is the model's choice (log 47). (Derived from R109,
R101.) -/
def Obligations.IntegerCompare : Prop :=
  (∀ o s t c, Issues (.iset o) s t c →
    let x := o.ext .s32
    let a (l : Nat) : Int :=
      if x.ty.is64 then
        (if x.ty.isSigned then (t.dword x.ty.isSigned l o.a).toInt else (t.dword x.ty.isSigned l o.a).toNat)
      else if x.ty.isSigned then (t.word false l o.a).toInt else (t.word false l o.a).toNat
    let b (l : Nat) : Int :=
      if x.ty.is64 then
        (if x.ty.isSigned then (t.dword x.ty.isSigned l o.b).toInt else (t.dword x.ty.isSigned l o.b).toNat)
      else if x.ty.isSigned then (t.word false l o.b).toInt else (t.word false l o.b).toNat
    let r (l : Nat) : Bool := match (x.fn.extractLsb' 0 3).toNat with
      | 0 => decide (a l = b l) | 1 => decide (a l ≠ b l) | 2 => decide (a l < b l) | 3 => decide (a l ≤ b l)
      | 4 => decide (b l < a l) | _ => decide (b l ≤ a l)
    let t' := t.put o.d false fun l => (r l).toNat
    exec (.iset o) s = .next (s.done t' c) ∧
    (∀ n l, o.d = .p n → n ≠ 7 → l < t.n → l < 1024 → t.act.getLsbD l = true → (t'.readP n.toNat).getLsbD l = r l) ∧
    (∀ n, o.d = .q n → t'.readQ n.toNat = r 0) ∧
    (∀ n l, o.d = .v n → l < t.n → t.act.getLsbD l = true → t'.readV n.toNat l = if r l then 1 else 0) ∧
    ∀ n, o.d = .s n → t'.readS n.toNat = if r 0 then 1 else 0) ∧
  (∀ o x, o.x = some x → 6 ≤ (x.fn.extractLsb' 0 3).toNat → Refuses (.iset o)) ∧
  (∀ o n, o.d = .k n → Refuses (.iset o))

/-- With a type of 32 bits, no negation and no saturation, IADD, ISUB, IMUL and INEG that issue write the sum,
difference, product and negation of bit vectors, and IMULH the upper half of the double-width product, signed or not
as the type is; with a type of 64 bits the same hold of 64-bit values. (Derived from R106, R27.) -/
def Obligations.IntegerArithmeticIsModular : Prop :=
  (∀ o s t c, let x := o.ext .s32
    x.ty = .s32 ∨ x.ty = .n32 → x.sat = false → x.na = false → x.nb = false →
    let w (l : Nat) (y : Operand) := t.word false l y
    (Issues (.iadd o) s t c →
      exec (.iadd o) s = .next (s.done (t.put o.d false fun l => (w l o.a + w l o.b).toNat) c)) ∧
    (Issues (.isub o) s t c →
      exec (.isub o) s = .next (s.done (t.put o.d false fun l => (w l o.a - w l o.b).toNat) c)) ∧
    (Issues (.imul o) s t c →
      exec (.imul o) s = .next (s.done (t.put o.d false fun l => (w l o.a * w l o.b).toNat) c)) ∧
    (Issues (.ineg o) s t c → exec (.ineg o) s = .next (s.done (t.put o.d false fun l => (-w l o.a).toNat) c)) ∧
    (Issues (.imulh o) s t c → exec (.imulh o) s = .next (s.done (t.put o.d false fun l =>
      if x.ty = .s32 then (((w l o.a).signExtend 64 * (w l o.b).signExtend 64).extractLsb' 32 32).toNat
      else (((w l o.a).setWidth 64 * (w l o.b).setWidth 64).extractLsb' 32 32).toNat) c))) ∧
  (∀ o s t c, let x := o.ext .s32
    x.ty = .s64 ∨ x.ty = .n64 → x.sat = false → x.na = false → x.nb = false →
    let w (l : Nat) (y : Operand) := t.dword x.ty.isSigned l y
    (Issues (.iadd o) s t c →
      exec (.iadd o) s = .next (s.done (t.put o.d true fun l => (w l o.a + w l o.b).toNat) c)) ∧
    (Issues (.isub o) s t c →
      exec (.isub o) s = .next (s.done (t.put o.d true fun l => (w l o.a - w l o.b).toNat) c)) ∧
    (Issues (.imul o) s t c →
      exec (.imul o) s = .next (s.done (t.put o.d true fun l => (w l o.a * w l o.b).toNat) c)) ∧
    (Issues (.ineg o) s t c → exec (.ineg o) s = .next (s.done (t.put o.d true fun l => (-w l o.a).toNat) c)) ∧
    (Issues (.imulh o) s t c → exec (.imulh o) s = .next (s.done (t.put o.d true fun l =>
      if x.ty = .s64 then (((w l o.a).signExtend 128 * (w l o.b).signExtend 128).extractLsb' 64 64).toNat
      else (((w l o.a).setWidth 128 * (w l o.b).setWidth 128).extractLsb' 64 64).toNat) c)))

/-- With type .b32 the logic opcodes that issue write the bitwise operations of 32-bit values, and SHL, SHR, SAR and
ROT the shifts and the rotation by B[7:0], where a shift by 32 or more gives 0 or copies of the top bit, and a
rotation is by the count modulo 32; with type .b64 the same hold of 64-bit values, B staying a 32-bit operand of the
shifts. (Derived from R110.) -/
def Obligations.LogicAndShiftsAreThoseOfBitVectors : Prop :=
  (∀ o s t c, (o.ext .b32).ty = .b32 →
    let w (l : Nat) (y : Operand) := t.word false l y
    let k (l : Nat) : Nat := (w l o.b).toNat % 256
    let gives (i : Instr) (f : Nat → Word) : Prop :=
      Issues i s t c → exec i s = .next (s.done (t.put o.d false fun l => (f l).toNat) c)
    gives (.andL o) (fun l => w l o.a &&& w l o.b) ∧ gives (.orL o) (fun l => w l o.a ||| w l o.b) ∧
    gives (.xorL o) (fun l => w l o.a ^^^ w l o.b) ∧ gives (.andn o) (fun l => w l o.a &&& ~~~w l o.b) ∧
    gives (.notL o) (fun l => ~~~w l o.a) ∧ gives (.shl o) (fun l => w l o.a <<< k l) ∧
    gives (.shr o) (fun l => w l o.a >>> k l) ∧ gives (.sar o) (fun l => (w l o.a).sshiftRight (k l)) ∧
    gives (.rot o) (fun l => (w l o.a).rotateLeft (k l % 32))) ∧
  (∀ o s t c, (o.ext .b32).ty = .b64 →
    let w (l : Nat) (y : Operand) := t.dword false l y
    let k (l : Nat) : Nat := (t.word false l o.b).toNat % 256
    let gives (i : Instr) (f : Nat → DWord) : Prop :=
      Issues i s t c → exec i s = .next (s.done (t.put o.d true fun l => (f l).toNat) c)
    gives (.andL o) (fun l => w l o.a &&& w l o.b) ∧ gives (.orL o) (fun l => w l o.a ||| w l o.b) ∧
    gives (.xorL o) (fun l => w l o.a ^^^ w l o.b) ∧ gives (.andn o) (fun l => w l o.a &&& ~~~w l o.b) ∧
    gives (.notL o) (fun l => ~~~w l o.a) ∧ gives (.shl o) (fun l => w l o.a <<< k l) ∧
    gives (.shr o) (fun l => w l o.a >>> k l) ∧ gives (.sar o) (fun l => (w l o.a).sshiftRight (k l)) ∧
    gives (.rot o) (fun l => (w l o.a).rotateLeft (k l % 64)))

/-- In FP32, FP16, BF16, E4M3, E5M2, MX6, MX6B and MX4: an encoding that is neither a NaN nor an infinity decodes to
an exact value that every rounding mode, with any draw, rounds to the same encoding with no flag raised. (Derived from
R39, R47, R51.) -/
def Obligations.FiniteValuesRoundToThemselves : Prop :=
  ∀ f ∈ [Fmt.f32, Fmt.f16, Fmt.bf16, Fmt.e4m3, Fmt.e5m2, Fmt.mx6, Fmt.mx6b, Fmt.mx4], ∀ x rm h, x < 2 ^ f.width →
    (f.decode x).isNan = false → (f.decode x).isInf = false → f.round rm h (f.decode x) = (x, 0)

/-- If no exited lane is active and a mask instruction or EXIT that issues makes of its team another, then no exited
lane is active in it, no lane is exited that was neither exited nor active, and lanes outside Exited stay outside it
but for those that EXIT names. Such an instruction, performed from a state none of whose teams has an exited lane
active, gives a state that is so too, whether it has its effect, traps or waits. IF, then ELSE, then ENDIF, with the
lanes that exited in none of them, leave Act and the mask stack as they were, the ELSE part running with the lanes
that the IF part did not. (Derived from R91, R94.) -/
def Obligations.MaskInstructionsKeepExitedLanesInactive : Prop :=
  (∀ i f t t', maskStep i = some f → t.act &&& t.exited = 0 → f t = .ok t' →
    t'.act &&& t'.exited = 0 ∧ t'.exited &&& t.exited = t.exited ∧ t'.exited &&& ~~~t.exited &&& ~~~t.act = 0 ∧
      ((∀ p, i ≠ .exitP p) → t'.exited = t.exited)) ∧
  (∀ i s, (maskStep i).isSome = true → (∀ u ∈ s.teams, u.act &&& u.exited = 0) →
    ∃ s', exec i s = .next s' ∧ ∀ u ∈ s'.teams, u.act &&& u.exited = 0) ∧
  (∀ p (t t1 : Team), t.act &&& t.exited = 0 → t.pushIf (t.activeWith p) = .ok t1 →
    ∃ t2 t3, t1.elseSwap = .ok t2 ∧ t2.popIf = .ok t3 ∧ t1.act = t.act &&& t.readP p.toNat ∧
      t2.act = t.act &&& ~~~t.readP p.toNat ∧ t3.act = t.act ∧ t3.stack = t.stack)

/-- With no dirty line in an L2, an encoded instruction other than STATESV and EXIT.saved that answers a next state
leaves every byte of device memory, of host memory and of every cast's scratch as before: stores, atomics and commands
are performed later. So do the performance of an LD, LDA or GATHER, and the end of a waiting WAITK, WAITB, BWAIT and
XACQ. In any state they may write back dirty lines, and nothing else: host memory, scratch, and every byte of device
memory outside the lines that caches hold, and those that the load accesses, stay as before. (Derived from R68, R149,
R155, R251, R252, R265.) -/
def Obligations.IssueAndLoadsStoreNothing : Prop :=
  (∀ i s s', i.encoded = true → storesAtIssue i = false → exec i s = .next s' →
    (s.allClean → SameMemory s s') ∧ (fillsAtIssue i = false → KeepsOthers s.lineAt s s')) ∧
  (∀ s t k tm e o s', s.posted? t k = none → s.entry? t k = some (tm, e) →
    (e.instr = .ld o ∨ e.instr = .lda o ∨ e.instr = .gather o) → exec (.f2Completion t k) s = .next s' →
    (s.allClean → SameMemory s s') ∧
    KeepsOthers (fun a => s.lineAt a ∨ (szScratch o.ext.sz = false ∧ accessedLine e (szBytes o.ext.sz) a)) s s') ∧
  (∀ s t k s', exec (.waitkDone t k) s = .next s' ∨ exec (.waitbDone t k) s = .next s' ∨ exec (.bwaitDone t k) s = .next s' ∨
    exec (.xacqGrant t k) s = .next s' ∨ exec (.xacqTimeout t k) s = .next s' →
    (s.allClean → SameMemory s s') ∧ KeepsOthers s.lineAt s s')

/-- A performed ST, or SCATR without .add, leaves scratch as before but for the bytes its lanes store in its own cast
in its scratch form, host memory but for those its lanes store there, and every byte of device memory outside the
lines that caches hold and those it accesses. With system-coherent pages and no dirty line, every byte of device
memory stays that no lane stores to. With no line in a cache and lanes aligned to the size, every such byte that one
of its pages reaches reads as before through that page. Where the granule of the highest lane lies in good device
memory, every copy of its line is whole and its address is aligned, the lane's data reads back at the place of the
store. (Derived from R143, R145, R149, R217, R222, R248, R251, R338.) -/
def Obligations.StoresChangeOnlyTheirBytes : Prop :=
  (∀ s t k tm e o s', Performed s t k tm e → (e.instr = .st o ∨ (e.instr = .scatr o ∧ o.ext.fn ≠ 1)) →
    exec (.f2Completion t k) s = .next s' →
    let z := szBytes o.ext.sz
    (szScratch o.ext.sz = true → s'.hostMem = s.hostMem ∧ (∀ a, ¬ s.lineAt a → s'.mem.read a = s.mem.read a) ∧
      (s.allClean → s'.mem = s.mem) ∧
      ∀ cast b, (cast ≠ tm.cast ∨ b ∉ storedBytes e z) → s'.scratchByte cast b = s.scratchByte cast b) ∧
    (szScratch o.ext.sz = false →
      (∀ cast b, s'.scratchByte cast b = s.scratchByte cast b) ∧
      (∀ a, a ∉ storedHost e z → s'.hostByte a = s.hostByte a) ∧
      (∀ a, s.MemWf → ¬ s.lineAt a → ¬ accessedLine e z a → s'.mem.read a = s.mem.read a) ∧
      (∀ a, s.MemWf → s.allClean → e.uncached → a ∉ storedDevice e z → s'.mem.read a = s.mem.read a) ∧
      (s.MemWf → s.noLines → ProperLanes e z → ∀ g b p off, lookupX e.outs g = some (.mapped b p) → off < 65536 →
        b + off ∉ storedDevice e z → s'.xread (.mapped b p) off 1 = s.xread (.mapped b p) off 1))) ∧
  (∀ s t k tm e o pre l va x b p, s.MemWf → Performs s t k tm e → (e.instr = .st o ∨ (e.instr = .scatr o ∧ o.ext.fn ≠ 1)) →
    szScratch o.ext.sz = false →
    let z := szBytes o.ext.sz
    e.addrs = pre ++ [(l, va)] → (∀ y ∈ pre, y.1 < l) → e.data.find? (·.1 == l) = some x →
    lookupX e.outs (granule va) = some (.mapped b p) → va % z = 0 → 0 < z → 128 % z = 0 →
    s.TrueCopies (p.at b (va % 65536)) →
    (∀ n, n < z → hasMemory (b + va % 65536 + n) = true ∧ s.poison.contains ((b + va % 65536 + n) / 32) = false) →
    ∃ s', exec (.f2Completion t k) s = .next s' ∧ s'.aread tm e false va z = leBytes z x.2)

/-- A trap at an instruction with nothing of its team outstanding, outside a handler: TS0 holds the clause's address,
or the next clause's for USER_TRAP; TS1 the code, the position, CMASK, the resume kind and INFO; TS2 the address, TS3
the lane record, TS4 the stack depth; TMASK is the old Act, every existing lane that has not exited is active, HND is
set, and the clause at TBASE comes next. V, S, P, Q and K registers, branch targets, the stack, Exited and TS5 to TS7
are as before. In a handler the context faults with REASON 1 and the trap's code; with something outstanding the trap
is held. (Derived from R97, R98, R100, R265.) -/
def Obligations.TakingATrap : Prop :=
  (∀ (s : State) (t : Team) c tr, t.outst = [] → t.hnd = false → ∃ t', s.trapNow t c tr = s.setTeam t' ∧
    t'.readTS 0 = (if tr.code = .userTrap then t.seqAddr c else t.pc) ∧
    (t'.readTS 1).extractLsb' 0 8 = tr.code.code ∧ (t'.readTS 1).extractLsb' 8 4 = BitVec.ofNat 4 c.pos ∧
    (t'.readTS 1).extractLsb' 12 15 = t.cmask c (some c.pos) ∧
    (t'.readTS 1).extractLsb' 27 2 = (if tr.code = .userTrap then 2 else if tr.code = .breakpoint then 1 else 0) ∧
    (t'.readTS 1).extractLsb' 32 16 = tr.info ∧ (t'.readTS 1).extractLsb' 29 3 = 0 ∧ (t'.readTS 1).extractLsb' 48 16 = 0 ∧
    t'.readTS 2 = tr.addr ∧ t'.readTS 3 = tr.lanes ∧ t'.readTS 4 = BitVec.ofNat 64 t.stack.length ∧
    (∀ r, 5 ≤ r → t'.readTS r = t.readTS r) ∧
    t'.tmask = t.act ∧ t'.act = t.existing &&& ~~~t.exited ∧ t'.hnd = true ∧ t'.pc = t.tbase ∧ t'.clause = none ∧
    t'.v = t.v ∧ t'.s = t.s ∧ t'.p = t.p ∧ t'.q = t.q ∧ t'.k = t.k ∧ t'.b = t.b ∧ t'.stack = t.stack ∧
    t'.exited = t.exited ∧ t'.fpstat = t.fpstat ∧ t'.svl = t.svl ∧ t'.world = t.world ∧ t'.tbase = t.tbase ∧
    t'.psave = (tr.code == .preempt)) ∧
  (∀ (s : State) (t : Team) c tr, t.outst = [] → t.hnd = true → (s.ctx t.ctx).state = .registered →
    s.trapNow t c tr = (s.record t.ctx (contextRecord (s.ctx t.ctx) (coreDie t.core) 1 tr.code.code 0)).onCtx t.ctx
      fun c => { c with state := .resetting }) ∧
  (∀ (s : State) (t : Team) c tr, t.outst ≠ [] → s.trapNow t c tr = s.setTeam { t with pending := some (tr, c.pos) })

/-- A team outside a handler that has entered a handler and then leaves it has its old Act but for lanes that have
exited, HND and SVL clear, its pc at the saved EPC, and a resume with the saved EPC, IDX, resume kind and CMASK; V, S,
P, Q and K registers, branch targets, the stack and Exited are as before. (Derived from R97, R98, R99.) -/
def Obligations.ReturningFromATrap : Prop :=
  ∀ (t : Team) info code addr lanes (r : Resume) base psave,
    let u := (t.enter info code addr lanes r base psave).leave
    u.act = t.act &&& ~~~t.exited ∧ u.hnd = false ∧ u.svl = false ∧ u.psave = false ∧ u.pc = r.epc ∧ u.resume = some r ∧
      u.clause = none ∧ u.v = t.v ∧ u.s = t.s ∧ u.p = t.p ∧ u.q = t.q ∧ u.k = t.k ∧ u.b = t.b ∧ u.stack = t.stack ∧
      u.exited = t.exited ∧ u.fpstat = t.fpstat ∧ u.tbase = t.tbase

/-- Whatever the page tables, the TLB and the context: if a translation for an access of the non-secure world answers
a device page, no byte of that page is secure; and with canonical memory, a write of any bytes within it leaves every
byte of every secure page as before. (Derived from R259, R347, R363.) -/
def Obligations.NonSecureAccessesNeverReachSecurePages : Prop :=
  (∀ (s : State) c (m : Mode) hit g pa p off, m.world = false → s.translate c m hit g = .mapped pa p → off < 65536 →
    s.securePa (pa + off) = false) ∧
  (∀ (s : State) c (m : Mode) hit g pa p off bs a, s.MemWf → m.world = false → s.translate c m hit g = .mapped pa p →
    off + bs.length ≤ 65536 → s.securePa a = true → (s.xwrite (.mapped pa p) off bs).mem.read a = s.mem.read a)

/-- A doorbell, a context register or command, a storage-table binding or a resolve word of function fn other than the
PF leaves the device-wide registers, the ports and the world table as before, and every context other than the one it
names; where the function does not own that context, it changes nothing at all. Its register write at an offset
outside the context blocks is ignored, and its reads there, and in the block of a context that it does not own, return
zero. (Derived from R344, R349, R350.) -/
def Obligations.HostFunctionsReachOnlyTheirContexts : Prop :=
  (∀ i s s' fn ctx, fn ≠ 0 → hostRequest fn ctx i = true → exec i s = .next s' →
    s'.regs = s.regs ∧ s'.ports = s.ports ∧ s'.wrt = s.wrt ∧ (∀ c, c ≠ ctx → s'.ctx c = s.ctx c) ∧
    ((s.ctx ctx).cfunc.toNat ≠ fn → s' = s)) ∧
  (∀ s fn off n v, fn ≠ 0 → (off < 0x100000 ∨ 0x110000 ≤ off) →
    exec (.registerWrite fn off n v) s = .next s ∧ s.bar0 fn off n = 0) ∧
  (∀ (s : State) fn off n, fn ≠ 0 → 0x100000 ≤ off → off < 0x110000 → (s.ctx ((off - 0x100000) / 64)).cfunc.toNat ≠ fn →
    s.bar0 fn off n = 0)

/-- The word of a barrier whose TX is in the .s32 range reads back as the barrier; a word whose reserved bits are zero
is the word of its fields. When an unbroken barrier with EXP not 0 has EXP arrivals and TX 0, its completion advances
PHASE by 1 modulo 2^16 and clears ARR, and leaves PART, EXP and TX; otherwise it changes nothing. (Derived from R201.)
-/
def Obligations.BarrierWordsHoldTheirFields : Prop :=
  (∀ b : Bar, -(2 ^ 31) ≤ b.tx → b.tx < 2 ^ 31 → Bar.ofWord b.word = b) ∧
  (∀ w : DWord, w.extractLsb' 44 3 = 0 → w.getLsbD 35 = false → (Bar.ofWord w).word = w) ∧
  (∀ b : Bar, b.brk = false → b.exp ≠ 0 → b.exp.toNat ≤ slotCount b.arr → b.tx = 0 →
    b.complete = { b with phase := b.phase + 1, arr := 0 }) ∧
  (∀ b : Bar, b.brk = true ∨ b.exp = 0 ∨ slotCount b.arr < b.exp.toNat ∨ b.tx ≠ 0 → b.complete = b)
end

