-- ==== Sys2Proof/Laws/Memory.lean ====
section
/-! SUPPORT. Memory: what one byte reads as after a write, and that every memory operation keeps the canonical form. -/

namespace Sys2Proof.Machine

/-! ### The canonical form by its lower bound -/

/-- A canonical list from an address on: its first cell lies there and lists a byte worth listing, and the rest follows. -/
theorem Memory.wfFrom_cons {lo : Nat} {c : Host.Cell} {r : Memory} :
    Memory.wfFrom lo (c :: r) = true ↔ lo ≤ c.1 ∧ c.2 ≠ Memory.unlisted ∧ Memory.wfFrom (c.1 + 1) r = true := by
  simp [Memory.wfFrom, and_assoc]

theorem Memory.wfFrom_mono {lo hi : Nat} (h : lo ≤ hi) : ∀ {m : Memory}, Memory.wfFrom hi m = true →
    Memory.wfFrom lo m = true
  | [], _ => rfl
  | _ :: _, w => Memory.wfFrom_cons.mpr ((Memory.wfFrom_cons.mp w).imp_left (Nat.le_trans h))

/-- Below the first address of a canonical memory every byte is unlisted. -/
theorem Memory.read_below {lo a : Nat} (h : a < lo) : ∀ {m : Memory}, Memory.wfFrom lo m = true →
    m.read a = Memory.unlisted
  | [], _ => rfl
  | (x, b) :: r, w => by
    have := (Memory.wfFrom_cons.mp w).1
    have hx : a < x := Nat.lt_of_lt_of_le h this
    simp [Memory.read, hx, Nat.ne_of_lt hx]

/-! ### One byte -/

/-- A byte written reads back; every other byte reads as before. -/
theorem Memory.read_write {m : Memory} {lo : Nat} (w : Memory.wfFrom lo m = true) (a x : Nat) (b : Byte) :
    (m.write a b).read x = if x = a then b else m.read x := by
  induction m generalizing lo with
  | nil =>
    by_cases hb : b = Memory.unlisted <;> by_cases hx : x = a <;> simp [Memory.write, Memory.read, hb, hx]
  | cons c r ih =>
    obtain ⟨y, d⟩ := c
    have tail := (Memory.wfFrom_cons.mp w).2.2
    have below : ∀ z, z < y + 1 → Memory.read r z = Memory.unlisted := fun z hz => Memory.read_below hz tail
    have ih' := ih tail
    by_cases h1 : a < y
    · by_cases hb : b = Memory.unlisted
      · by_cases hx : x = a
        · subst hx; have h2 : (x == y) = false := by simp; omega
          simp [Memory.write, Memory.read, h1, hb, h2]
        · simp [Memory.write, h1, hb, hx]
      · by_cases hx : x = a
        · subst hx; simp [Memory.write, Memory.read, h1, hb]
        · by_cases h3 : x < a
          · have h2 : (x == y) = false := by simp; omega
            have h4 : x < y := by omega
            simp [Memory.write, Memory.read, h1, hb, hx, h3, h2, h4]
          · simp [Memory.write, Memory.read, h1, hb, hx, h3]
    · by_cases h2 : a = y
      · subst h2
        by_cases hb : b = Memory.unlisted
        · by_cases hx : x = a
          · subst hx; simp [Memory.write, hb, below x (by omega)]
          · by_cases h3 : x < a
            · simp [Memory.write, Memory.read, hb, hx, h3, below x (by omega)]
            · simp [Memory.write, Memory.read, hb, hx, h3]
        · by_cases hx : x = a <;> simp [Memory.write, Memory.read, hb, hx]
      · by_cases hx : x = y
        · subst hx; have h3 : ¬ x = a := fun h => h2 h.symm
          simp [Memory.write, Memory.read, h1, h2, h3]
        · by_cases h3 : x < y
          · have h4 : ¬ x = a := by omega
            simp [Memory.write, Memory.read, h1, h2, hx, h3, h4]
          · simp [Memory.write, Memory.read, h1, h2, hx, h3, ih']

theorem Memory.wfFrom_write {m : Memory} {lo a : Nat} (w : Memory.wfFrom lo m = true) (h : lo ≤ a) (b : Byte) :
    Memory.wfFrom lo (m.write a b) = true := by
  induction m generalizing lo with
  | nil => by_cases hb : b = Memory.unlisted <;> simp [Memory.write, Memory.wfFrom, hb, h]
  | cons c r ih =>
    obtain ⟨y, d⟩ := c
    obtain ⟨first, worth, tail⟩ := Memory.wfFrom_cons.mp w
    rcases Nat.lt_trichotomy a y with lt | rfl | gt
    · by_cases hb : b = Memory.unlisted
      · simpa [Memory.write, lt, hb] using w
      · have e : Memory.write ((y, d) :: r) a b = (a, b) :: (y, d) :: r := by simp [Memory.write, lt, hb]
        exact e ▸ Memory.wfFrom_cons.mpr ⟨h, hb, Memory.wfFrom_cons.mpr ⟨lt, worth, tail⟩⟩
    · by_cases hb : b = Memory.unlisted
      · simpa [Memory.write, hb] using Memory.wfFrom_mono (Nat.le_succ_of_le first) tail
      · simpa [Memory.write, hb, Memory.wfFrom_cons, h] using tail
    · have ne : ¬ a = y := Nat.ne_of_gt gt
      have ge : ¬ a < y := Nat.lt_asymm gt
      simpa [Memory.write, ne, ge, Memory.wfFrom_cons, first] using ⟨worth, ih tail gt⟩

/-- A write keeps the canonical form. -/
theorem Memory.wf_write {m : Memory} (w : m.wf = true) (a : Nat) (b : Byte) : (m.write a b).wf = true :=
  Memory.wfFrom_write w (Nat.zero_le a) b

theorem Memory.read_write_wf {m : Memory} (w : m.wf = true) (a x : Nat) (b : Byte) :
    (m.write a b).read x = if x = a then b else m.read x := Memory.read_write w a x b

/-! ### Several bytes -/

theorem Memory.wf_writeIf {m : Memory} (w : m.wf = true) (a : Nat) (ok : Nat → Bool) (bs : List Byte) :
    (m.writeIf a ok bs).wf = true := by
  induction bs generalizing m a with
  | nil => exact w
  | cons b bs ih =>
    simp only [Memory.writeIf]
    apply ih
    split
    · exact Memory.wf_write w a b
    · exact w

theorem Memory.wf_writeN {m : Memory} (w : m.wf = true) (a : Nat) (bs : List Byte) : (m.writeN a bs).wf = true :=
  Memory.wf_writeIf w a _ bs

/-- Bytes below the written range read as before. -/
theorem Memory.read_writeIf_below {m : Memory} (w : m.wf = true) (a : Nat) (ok : Nat → Bool) (bs : List Byte) (x : Nat)
    (h : x < a) : (m.writeIf a ok bs).read x = m.read x := by
  induction bs generalizing m a with
  | nil => rfl
  | cons b bs ih =>
    simp only [Memory.writeIf]
    rw [ih _ _ (by omega)]
    · split
      · rw [Memory.read_write_wf w, if_neg (by omega)]
      · rfl
    · split
      · exact Memory.wf_write w a b
      · exact w

theorem Memory.read_writeOk {m : Memory} (w : m.wf = true) (ok : Bool) (a x : Nat) (b : Byte) :
    (if ok = true then m.write a b else m).read x = if x = a ∧ ok = true then b else m.read x := by
  cases ok <;> simp [Memory.read_write_wf w]

/-- What a byte reads as after bytes were written from an address where the test allows it. -/
theorem Memory.read_writeIf {m : Memory} (w : m.wf = true) (a : Nat) (ok : Nat → Bool) (bs : List Byte) (x : Nat) :
    (m.writeIf a ok bs).read x = if a ≤ x ∧ x < a + bs.length ∧ ok x = true then bs.getD (x - a) 0 else m.read x := by
  induction bs generalizing m a with
  | nil => simp [Memory.writeIf]; omega
  | cons b bs ih =>
    simp only [Memory.writeIf]
    have w' : (if ok a = true then m.write a b else m).wf = true := by
      split
      · exact Memory.wf_write w a b
      · exact w
    have r' := Memory.read_writeOk w (ok a) a x b
    generalize (if ok a = true then m.write a b else m) = m' at w' r'
    simp only [List.length_cons]
    by_cases he : x = a
    · subst he
      rw [Memory.read_writeIf_below w' _ _ _ _ (by omega), r']
      by_cases ho : ok x = true <;> simp [ho]
    · have r2 : m'.read x = m.read x := by rw [r', if_neg (fun h => he h.1)]
      rw [ih w', r2]
      by_cases hx : x < a
      · rw [if_neg (fun h => by omega), if_neg (fun h => by omega)]
      · have hd : (b :: bs).getD (x - a) 0 = bs.getD (x - (a + 1)) 0 := by
          obtain ⟨k, hk⟩ : ∃ k, x - a = k + 1 := ⟨x - a - 1, by omega⟩
          rw [hk, show x - (a + 1) = k by omega]; rfl
        by_cases hc : a + 1 ≤ x ∧ x < a + 1 + bs.length ∧ ok x = true
        · rw [if_pos hc, if_pos ⟨by omega, by omega, hc.2.2⟩, hd]
        · rw [if_neg hc, if_neg (fun h => hc ⟨by omega, by omega, h.2.2⟩)]

/-- Every byte outside the written range reads as before. -/
theorem Memory.read_writeN_other {m : Memory} (w : m.wf = true) (a : Nat) (bs : List Byte) (x : Nat)
    (h : x < a ∨ a + bs.length ≤ x) : (m.writeN a bs).read x = m.read x := by
  rw [Memory.writeN, Memory.read_writeIf w, if_neg (by omega)]

/-! ### Areas -/

theorem Memory.wfFrom_filter (p : Host.Cell → Bool) : ∀ {m : Memory} {lo : Nat}, Memory.wfFrom lo m = true →
    Memory.wfFrom lo (m.filter p) = true
  | [], _, _ => rfl
  | c :: r, lo, w => by
    obtain ⟨first, worth, tail⟩ := Memory.wfFrom_cons.mp w
    have rest := Memory.wfFrom_filter p tail
    by_cases keep : p c = true
    · rw [List.filter_cons_of_pos keep]; exact Memory.wfFrom_cons.mpr ⟨first, worth, rest⟩
    · rw [List.filter_cons_of_neg keep]; exact Memory.wfFrom_mono (Nat.le_succ_of_le first) rest

/-- A part of a memory is canonical. -/
theorem Memory.wf_filter {m : Memory} (w : m.wf = true) (p : Host.Cell → Bool) : Memory.wf (m.filter p) = true :=
  Memory.wfFrom_filter p w

theorem Memory.wfFrom_map_shift (f d : Nat) : ∀ {m : Memory} {lo : Nat}, f ≤ lo → Memory.wfFrom lo m = true →
    Memory.wfFrom (lo - f + d) (m.map fun c => (c.1 - f + d, c.2)) = true
  | [], _, _, _ => rfl
  | (a, b) :: r, lo, hf, w => by
    obtain ⟨first, worth, tail⟩ := Memory.wfFrom_cons.mp w
    have := Memory.wfFrom_map_shift f d (lo := a + 1) (by simp at first; omega) tail
    refine Memory.wfFrom_cons.mpr ⟨?_, worth, ?_⟩ <;> simp only at *
    · omega
    · rwa [show a - f + d + 1 = a + 1 - f + d by omega]

/-- Two canonical memories, the first below an address and the second from it on, are one canonical memory. -/
theorem Memory.wfFrom_append {n : Memory} {mid : Nat} (v : Memory.wfFrom mid n = true) : ∀ {m : Memory} {lo : Nat},
    Memory.wfFrom lo m = true → (∀ c ∈ m, c.1 < mid) → lo ≤ mid → Memory.wfFrom lo (m ++ n) = true
  | [], _, _, _, hl => Memory.wfFrom_mono hl v
  | _ :: _, _, w, h, _ =>
    have ⟨first, worth, tail⟩ := Memory.wfFrom_cons.mp w
    Memory.wfFrom_cons.mpr ⟨first, worth, Memory.wfFrom_append v tail (fun c hc => h c (List.mem_cons_of_mem _ hc))
      (h _ List.mem_cons_self)⟩

theorem Memory.wfFrom_of_bound {mid : Nat} : ∀ {m : Memory} {lo : Nat}, Memory.wfFrom lo m = true → (∀ c ∈ m, mid ≤ c.1) →
    Memory.wfFrom mid m = true
  | [], _, _, _ => rfl
  | _ :: _, _, w, h => Memory.wfFrom_cons.mpr ⟨h _ List.mem_cons_self, (Memory.wfFrom_cons.mp w).2⟩

/-! ### The device's memories -/

/-- Reset's memories are empty. -/
theorem State.reset_mem : State.reset.mem = [] ∧ State.reset.casts = [] ∧ State.reset.regs.windows = [] := ⟨rfl, rfl, rfl⟩

theorem State.MemWf.of_eq {s s' : State} (h : s.MemWf) (hm : s'.mem = s.mem) (hc : s'.casts = s.casts) : s'.MemWf := by
  unfold State.MemWf at *; rw [hm, hc]; exact h

theorem Cast.swrite_wf {c : Cast} (h : Memory.wf c.scratch = true) (off : Nat) (bs : List Byte) :
    Memory.wf (c.swrite off bs).scratch = true := Memory.wf_writeIf h _ _ _

theorem State.MemWf.countNoMemory {s : State} (h : s.MemWf) (pa : Nat) : (s.countNoMemory pa).MemWf := by
  unfold State.countNoMemory; split <;> exact h

theorem State.MemWf.physWrite {s : State} (h : s.MemWf) (pa : Nat) (bs : List Byte) : (s.physWrite pa bs).MemWf := by
  unfold State.physWrite
  exact State.MemWf.countNoMemory (s := { s with mem := _, poison := _, tele := _ }) ⟨Memory.wf_writeIf h.1 _ _ _, h.2⟩ pa

theorem State.MemWf.onCast {s : State} (h : s.MemWf) (id : Nat) (f : Cast → Cast)
    (hf : ∀ c, Memory.wf c.scratch = true → Memory.wf (f c).scratch = true) : (s.onCast id f).MemWf := by
  refine ⟨h.1, fun c hc => ?_⟩
  simp only [State.onCast, replaceIf, List.mem_map] at hc
  obtain ⟨x, hx, rfl⟩ := hc
  split
  · exact hf x (h.2 x hx)
  · exact h.2 x hx

theorem State.MemWf.foldl {s : State} {α : Type} (h : s.MemWf) (l : List α) (f : State → α → State)
    (hf : ∀ s x, s.MemWf → (f s x).MemWf) : (l.foldl f s).MemWf := by
  induction l generalizing s with
  | nil => exact h
  | cons x l ih => exact ih (hf s x h)

end Sys2Proof.Machine
end

