-- ==== Sys2Proof/Laws/State.lean ====
section
/-! SUPPORT. What each update of the state and of a team leaves unchanged: one equation per field and update. -/

namespace Sys2Proof.Machine

/-! ### `State.setTeam` -/

section
variable (s : State) (tm : Team)

@[simp] theorem State.setTeam_agenda : (s.setTeam tm).agenda = s.agenda := rfl
@[simp] theorem State.setTeam_cur : (s.setTeam tm).cur = s.cur := rfl
@[simp] theorem State.setTeam_freeCtr : (s.setTeam tm).freeCtr = s.freeCtr := rfl
@[simp] theorem State.setTeam_nextId : (s.setTeam tm).nextId = s.nextId := rfl
@[simp] theorem State.setTeam_clk : (s.setTeam tm).clk = s.clk := rfl
@[simp] theorem State.setTeam_ns : (s.setTeam tm).ns = s.ns := rfl
@[simp] theorem State.setTeam_mem : (s.setTeam tm).mem = s.mem := rfl
@[simp] theorem State.setTeam_poison : (s.setTeam tm).poison = s.poison := rfl
@[simp] theorem State.setTeam_tlb : (s.setTeam tm).tlb = s.tlb := rfl
@[simp] theorem State.setTeam_hostMem : (s.setTeam tm).hostMem = s.hostMem := rfl
@[simp] theorem State.setTeam_ats : (s.setTeam tm).ats = s.ats := rfl
@[simp] theorem State.setTeam_atsWaits : (s.setTeam tm).atsWaits = s.atsWaits := rfl
@[simp] theorem State.setTeam_contexts : (s.setTeam tm).contexts = s.contexts := rfl
@[simp] theorem State.setTeam_grids : (s.setTeam tm).grids = s.grids := rfl
@[simp] theorem State.setTeam_casts : (s.setTeam tm).casts = s.casts := rfl
@[simp] theorem State.setTeam_fronts : (s.setTeam tm).fronts = s.fronts := rfl
@[simp] theorem State.setTeam_cores : (s.setTeam tm).cores = s.cores := rfl
@[simp] theorem State.setTeam_l2 : (s.setTeam tm).l2 = s.l2 := rfl
@[simp] theorem State.setTeam_locks2 : (s.setTeam tm).locks2 = s.locks2 := rfl
@[simp] theorem State.setTeam_copies : (s.setTeam tm).copies = s.copies := rfl
@[simp] theorem State.setTeam_carries : (s.setTeam tm).carries = s.carries := rfl
@[simp] theorem State.setTeam_landing : (s.setTeam tm).landing = s.landing := rfl
@[simp] theorem State.setTeam_sweeps : (s.setTeam tm).sweeps = s.sweeps := rfl
@[simp] theorem State.setTeam_dusk : (s.setTeam tm).dusk = s.dusk := rfl
@[simp] theorem State.setTeam_handbacks : (s.setTeam tm).handbacks = s.handbacks := rfl
@[simp] theorem State.setTeam_queries : (s.setTeam tm).queries = s.queries := rfl
@[simp] theorem State.setTeam_graphs : (s.setTeam tm).graphs = s.graphs := rfl
@[simp] theorem State.setTeam_tasks : (s.setTeam tm).tasks = s.tasks := rfl
@[simp] theorem State.setTeam_tokens : (s.setTeam tm).tokens = s.tokens := rfl
@[simp] theorem State.setTeam_pieces : (s.setTeam tm).pieces = s.pieces := rfl
@[simp] theorem State.setTeam_remotes : (s.setTeam tm).remotes = s.remotes := rfl
@[simp] theorem State.setTeam_inbox : (s.setTeam tm).inbox = s.inbox := rfl
@[simp] theorem State.setTeam_seqs : (s.setTeam tm).seqs = s.seqs := rfl
@[simp] theorem State.setTeam_inSeqs : (s.setTeam tm).inSeqs = s.inSeqs := rfl
@[simp] theorem State.setTeam_ports : (s.setTeam tm).ports = s.ports := rfl
@[simp] theorem State.setTeam_regs : (s.setTeam tm).regs = s.regs := rfl
@[simp] theorem State.setTeam_wrt : (s.setTeam tm).wrt = s.wrt := rfl
@[simp] theorem State.setTeam_tele : (s.setTeam tm).tele = s.tele := rfl
@[simp] theorem State.setTeam_mgmt : (s.setTeam tm).mgmt = s.mgmt := rfl
@[simp] theorem State.setTeam_ck : (s.setTeam tm).ck = s.ck := rfl
@[simp] theorem State.setTeam_stopped : (s.setTeam tm).stopped = s.stopped := rfl
@[simp] theorem State.setTeam_mainOn : (s.setTeam tm).mainOn = s.mainOn := rfl
@[simp] theorem State.setTeam_retvOn : (s.setTeam tm).retvOn = s.retvOn := rfl
@[simp] theorem State.setTeam_out : (s.setTeam tm).out = s.out := rfl

end

/-! ### `State.onTeam` -/

section
variable (s : State) (id : Nat) (f : Team → Team)

@[simp] theorem State.onTeam_agenda : (s.onTeam id f).agenda = s.agenda := rfl
@[simp] theorem State.onTeam_cur : (s.onTeam id f).cur = s.cur := rfl
@[simp] theorem State.onTeam_freeCtr : (s.onTeam id f).freeCtr = s.freeCtr := rfl
@[simp] theorem State.onTeam_nextId : (s.onTeam id f).nextId = s.nextId := rfl
@[simp] theorem State.onTeam_clk : (s.onTeam id f).clk = s.clk := rfl
@[simp] theorem State.onTeam_ns : (s.onTeam id f).ns = s.ns := rfl
@[simp] theorem State.onTeam_mem : (s.onTeam id f).mem = s.mem := rfl
@[simp] theorem State.onTeam_poison : (s.onTeam id f).poison = s.poison := rfl
@[simp] theorem State.onTeam_tlb : (s.onTeam id f).tlb = s.tlb := rfl
@[simp] theorem State.onTeam_hostMem : (s.onTeam id f).hostMem = s.hostMem := rfl
@[simp] theorem State.onTeam_ats : (s.onTeam id f).ats = s.ats := rfl
@[simp] theorem State.onTeam_atsWaits : (s.onTeam id f).atsWaits = s.atsWaits := rfl
@[simp] theorem State.onTeam_contexts : (s.onTeam id f).contexts = s.contexts := rfl
@[simp] theorem State.onTeam_grids : (s.onTeam id f).grids = s.grids := rfl
@[simp] theorem State.onTeam_casts : (s.onTeam id f).casts = s.casts := rfl
@[simp] theorem State.onTeam_fronts : (s.onTeam id f).fronts = s.fronts := rfl
@[simp] theorem State.onTeam_cores : (s.onTeam id f).cores = s.cores := rfl
@[simp] theorem State.onTeam_l2 : (s.onTeam id f).l2 = s.l2 := rfl
@[simp] theorem State.onTeam_locks2 : (s.onTeam id f).locks2 = s.locks2 := rfl
@[simp] theorem State.onTeam_copies : (s.onTeam id f).copies = s.copies := rfl
@[simp] theorem State.onTeam_carries : (s.onTeam id f).carries = s.carries := rfl
@[simp] theorem State.onTeam_landing : (s.onTeam id f).landing = s.landing := rfl
@[simp] theorem State.onTeam_sweeps : (s.onTeam id f).sweeps = s.sweeps := rfl
@[simp] theorem State.onTeam_dusk : (s.onTeam id f).dusk = s.dusk := rfl
@[simp] theorem State.onTeam_handbacks : (s.onTeam id f).handbacks = s.handbacks := rfl
@[simp] theorem State.onTeam_queries : (s.onTeam id f).queries = s.queries := rfl
@[simp] theorem State.onTeam_graphs : (s.onTeam id f).graphs = s.graphs := rfl
@[simp] theorem State.onTeam_tasks : (s.onTeam id f).tasks = s.tasks := rfl
@[simp] theorem State.onTeam_tokens : (s.onTeam id f).tokens = s.tokens := rfl
@[simp] theorem State.onTeam_pieces : (s.onTeam id f).pieces = s.pieces := rfl
@[simp] theorem State.onTeam_remotes : (s.onTeam id f).remotes = s.remotes := rfl
@[simp] theorem State.onTeam_inbox : (s.onTeam id f).inbox = s.inbox := rfl
@[simp] theorem State.onTeam_seqs : (s.onTeam id f).seqs = s.seqs := rfl
@[simp] theorem State.onTeam_inSeqs : (s.onTeam id f).inSeqs = s.inSeqs := rfl
@[simp] theorem State.onTeam_ports : (s.onTeam id f).ports = s.ports := rfl
@[simp] theorem State.onTeam_regs : (s.onTeam id f).regs = s.regs := rfl
@[simp] theorem State.onTeam_wrt : (s.onTeam id f).wrt = s.wrt := rfl
@[simp] theorem State.onTeam_tele : (s.onTeam id f).tele = s.tele := rfl
@[simp] theorem State.onTeam_mgmt : (s.onTeam id f).mgmt = s.mgmt := rfl
@[simp] theorem State.onTeam_ck : (s.onTeam id f).ck = s.ck := rfl
@[simp] theorem State.onTeam_stopped : (s.onTeam id f).stopped = s.stopped := rfl
@[simp] theorem State.onTeam_mainOn : (s.onTeam id f).mainOn = s.mainOn := rfl
@[simp] theorem State.onTeam_retvOn : (s.onTeam id f).retvOn = s.retvOn := rfl
@[simp] theorem State.onTeam_out : (s.onTeam id f).out = s.out := rfl

end

/-! ### `State.onCast` -/

section
variable (s : State) (id : Nat) (f : Cast → Cast)

@[simp] theorem State.onCast_agenda : (s.onCast id f).agenda = s.agenda := rfl
@[simp] theorem State.onCast_cur : (s.onCast id f).cur = s.cur := rfl
@[simp] theorem State.onCast_freeCtr : (s.onCast id f).freeCtr = s.freeCtr := rfl
@[simp] theorem State.onCast_nextId : (s.onCast id f).nextId = s.nextId := rfl
@[simp] theorem State.onCast_clk : (s.onCast id f).clk = s.clk := rfl
@[simp] theorem State.onCast_ns : (s.onCast id f).ns = s.ns := rfl
@[simp] theorem State.onCast_mem : (s.onCast id f).mem = s.mem := rfl
@[simp] theorem State.onCast_poison : (s.onCast id f).poison = s.poison := rfl
@[simp] theorem State.onCast_tlb : (s.onCast id f).tlb = s.tlb := rfl
@[simp] theorem State.onCast_hostMem : (s.onCast id f).hostMem = s.hostMem := rfl
@[simp] theorem State.onCast_ats : (s.onCast id f).ats = s.ats := rfl
@[simp] theorem State.onCast_atsWaits : (s.onCast id f).atsWaits = s.atsWaits := rfl
@[simp] theorem State.onCast_contexts : (s.onCast id f).contexts = s.contexts := rfl
@[simp] theorem State.onCast_grids : (s.onCast id f).grids = s.grids := rfl
@[simp] theorem State.onCast_teams : (s.onCast id f).teams = s.teams := rfl
@[simp] theorem State.onCast_fronts : (s.onCast id f).fronts = s.fronts := rfl
@[simp] theorem State.onCast_cores : (s.onCast id f).cores = s.cores := rfl
@[simp] theorem State.onCast_l2 : (s.onCast id f).l2 = s.l2 := rfl
@[simp] theorem State.onCast_locks2 : (s.onCast id f).locks2 = s.locks2 := rfl
@[simp] theorem State.onCast_copies : (s.onCast id f).copies = s.copies := rfl
@[simp] theorem State.onCast_carries : (s.onCast id f).carries = s.carries := rfl
@[simp] theorem State.onCast_landing : (s.onCast id f).landing = s.landing := rfl
@[simp] theorem State.onCast_sweeps : (s.onCast id f).sweeps = s.sweeps := rfl
@[simp] theorem State.onCast_dusk : (s.onCast id f).dusk = s.dusk := rfl
@[simp] theorem State.onCast_handbacks : (s.onCast id f).handbacks = s.handbacks := rfl
@[simp] theorem State.onCast_queries : (s.onCast id f).queries = s.queries := rfl
@[simp] theorem State.onCast_graphs : (s.onCast id f).graphs = s.graphs := rfl
@[simp] theorem State.onCast_tasks : (s.onCast id f).tasks = s.tasks := rfl
@[simp] theorem State.onCast_tokens : (s.onCast id f).tokens = s.tokens := rfl
@[simp] theorem State.onCast_pieces : (s.onCast id f).pieces = s.pieces := rfl
@[simp] theorem State.onCast_remotes : (s.onCast id f).remotes = s.remotes := rfl
@[simp] theorem State.onCast_inbox : (s.onCast id f).inbox = s.inbox := rfl
@[simp] theorem State.onCast_seqs : (s.onCast id f).seqs = s.seqs := rfl
@[simp] theorem State.onCast_inSeqs : (s.onCast id f).inSeqs = s.inSeqs := rfl
@[simp] theorem State.onCast_ports : (s.onCast id f).ports = s.ports := rfl
@[simp] theorem State.onCast_regs : (s.onCast id f).regs = s.regs := rfl
@[simp] theorem State.onCast_wrt : (s.onCast id f).wrt = s.wrt := rfl
@[simp] theorem State.onCast_tele : (s.onCast id f).tele = s.tele := rfl
@[simp] theorem State.onCast_mgmt : (s.onCast id f).mgmt = s.mgmt := rfl
@[simp] theorem State.onCast_ck : (s.onCast id f).ck = s.ck := rfl
@[simp] theorem State.onCast_stopped : (s.onCast id f).stopped = s.stopped := rfl
@[simp] theorem State.onCast_mainOn : (s.onCast id f).mainOn = s.mainOn := rfl
@[simp] theorem State.onCast_retvOn : (s.onCast id f).retvOn = s.retvOn := rfl
@[simp] theorem State.onCast_out : (s.onCast id f).out = s.out := rfl

end

/-! ### `State.onGrid` -/

section
variable (s : State) (id : Nat) (f : Grid → Grid)

@[simp] theorem State.onGrid_agenda : (s.onGrid id f).agenda = s.agenda := rfl
@[simp] theorem State.onGrid_cur : (s.onGrid id f).cur = s.cur := rfl
@[simp] theorem State.onGrid_freeCtr : (s.onGrid id f).freeCtr = s.freeCtr := rfl
@[simp] theorem State.onGrid_nextId : (s.onGrid id f).nextId = s.nextId := rfl
@[simp] theorem State.onGrid_clk : (s.onGrid id f).clk = s.clk := rfl
@[simp] theorem State.onGrid_ns : (s.onGrid id f).ns = s.ns := rfl
@[simp] theorem State.onGrid_mem : (s.onGrid id f).mem = s.mem := rfl
@[simp] theorem State.onGrid_poison : (s.onGrid id f).poison = s.poison := rfl
@[simp] theorem State.onGrid_tlb : (s.onGrid id f).tlb = s.tlb := rfl
@[simp] theorem State.onGrid_hostMem : (s.onGrid id f).hostMem = s.hostMem := rfl
@[simp] theorem State.onGrid_ats : (s.onGrid id f).ats = s.ats := rfl
@[simp] theorem State.onGrid_atsWaits : (s.onGrid id f).atsWaits = s.atsWaits := rfl
@[simp] theorem State.onGrid_contexts : (s.onGrid id f).contexts = s.contexts := rfl
@[simp] theorem State.onGrid_casts : (s.onGrid id f).casts = s.casts := rfl
@[simp] theorem State.onGrid_teams : (s.onGrid id f).teams = s.teams := rfl
@[simp] theorem State.onGrid_fronts : (s.onGrid id f).fronts = s.fronts := rfl
@[simp] theorem State.onGrid_cores : (s.onGrid id f).cores = s.cores := rfl
@[simp] theorem State.onGrid_l2 : (s.onGrid id f).l2 = s.l2 := rfl
@[simp] theorem State.onGrid_locks2 : (s.onGrid id f).locks2 = s.locks2 := rfl
@[simp] theorem State.onGrid_copies : (s.onGrid id f).copies = s.copies := rfl
@[simp] theorem State.onGrid_carries : (s.onGrid id f).carries = s.carries := rfl
@[simp] theorem State.onGrid_landing : (s.onGrid id f).landing = s.landing := rfl
@[simp] theorem State.onGrid_sweeps : (s.onGrid id f).sweeps = s.sweeps := rfl
@[simp] theorem State.onGrid_dusk : (s.onGrid id f).dusk = s.dusk := rfl
@[simp] theorem State.onGrid_handbacks : (s.onGrid id f).handbacks = s.handbacks := rfl
@[simp] theorem State.onGrid_queries : (s.onGrid id f).queries = s.queries := rfl
@[simp] theorem State.onGrid_graphs : (s.onGrid id f).graphs = s.graphs := rfl
@[simp] theorem State.onGrid_tasks : (s.onGrid id f).tasks = s.tasks := rfl
@[simp] theorem State.onGrid_tokens : (s.onGrid id f).tokens = s.tokens := rfl
@[simp] theorem State.onGrid_pieces : (s.onGrid id f).pieces = s.pieces := rfl
@[simp] theorem State.onGrid_remotes : (s.onGrid id f).remotes = s.remotes := rfl
@[simp] theorem State.onGrid_inbox : (s.onGrid id f).inbox = s.inbox := rfl
@[simp] theorem State.onGrid_seqs : (s.onGrid id f).seqs = s.seqs := rfl
@[simp] theorem State.onGrid_inSeqs : (s.onGrid id f).inSeqs = s.inSeqs := rfl
@[simp] theorem State.onGrid_ports : (s.onGrid id f).ports = s.ports := rfl
@[simp] theorem State.onGrid_regs : (s.onGrid id f).regs = s.regs := rfl
@[simp] theorem State.onGrid_wrt : (s.onGrid id f).wrt = s.wrt := rfl
@[simp] theorem State.onGrid_tele : (s.onGrid id f).tele = s.tele := rfl
@[simp] theorem State.onGrid_mgmt : (s.onGrid id f).mgmt = s.mgmt := rfl
@[simp] theorem State.onGrid_ck : (s.onGrid id f).ck = s.ck := rfl
@[simp] theorem State.onGrid_stopped : (s.onGrid id f).stopped = s.stopped := rfl
@[simp] theorem State.onGrid_mainOn : (s.onGrid id f).mainOn = s.mainOn := rfl
@[simp] theorem State.onGrid_retvOn : (s.onGrid id f).retvOn = s.retvOn := rfl
@[simp] theorem State.onGrid_out : (s.onGrid id f).out = s.out := rfl

end

/-! ### `State.emit` -/

section
variable (s : State) (o : Output)

@[simp] theorem State.emit_agenda : (s.emit o).agenda = s.agenda := rfl
@[simp] theorem State.emit_cur : (s.emit o).cur = s.cur := rfl
@[simp] theorem State.emit_freeCtr : (s.emit o).freeCtr = s.freeCtr := rfl
@[simp] theorem State.emit_nextId : (s.emit o).nextId = s.nextId := rfl
@[simp] theorem State.emit_clk : (s.emit o).clk = s.clk := rfl
@[simp] theorem State.emit_ns : (s.emit o).ns = s.ns := rfl
@[simp] theorem State.emit_mem : (s.emit o).mem = s.mem := rfl
@[simp] theorem State.emit_poison : (s.emit o).poison = s.poison := rfl
@[simp] theorem State.emit_tlb : (s.emit o).tlb = s.tlb := rfl
@[simp] theorem State.emit_hostMem : (s.emit o).hostMem = s.hostMem := rfl
@[simp] theorem State.emit_ats : (s.emit o).ats = s.ats := rfl
@[simp] theorem State.emit_atsWaits : (s.emit o).atsWaits = s.atsWaits := rfl
@[simp] theorem State.emit_contexts : (s.emit o).contexts = s.contexts := rfl
@[simp] theorem State.emit_grids : (s.emit o).grids = s.grids := rfl
@[simp] theorem State.emit_casts : (s.emit o).casts = s.casts := rfl
@[simp] theorem State.emit_teams : (s.emit o).teams = s.teams := rfl
@[simp] theorem State.emit_fronts : (s.emit o).fronts = s.fronts := rfl
@[simp] theorem State.emit_cores : (s.emit o).cores = s.cores := rfl
@[simp] theorem State.emit_l2 : (s.emit o).l2 = s.l2 := rfl
@[simp] theorem State.emit_locks2 : (s.emit o).locks2 = s.locks2 := rfl
@[simp] theorem State.emit_copies : (s.emit o).copies = s.copies := rfl
@[simp] theorem State.emit_carries : (s.emit o).carries = s.carries := rfl
@[simp] theorem State.emit_landing : (s.emit o).landing = s.landing := rfl
@[simp] theorem State.emit_sweeps : (s.emit o).sweeps = s.sweeps := rfl
@[simp] theorem State.emit_dusk : (s.emit o).dusk = s.dusk := rfl
@[simp] theorem State.emit_handbacks : (s.emit o).handbacks = s.handbacks := rfl
@[simp] theorem State.emit_queries : (s.emit o).queries = s.queries := rfl
@[simp] theorem State.emit_graphs : (s.emit o).graphs = s.graphs := rfl
@[simp] theorem State.emit_tasks : (s.emit o).tasks = s.tasks := rfl
@[simp] theorem State.emit_tokens : (s.emit o).tokens = s.tokens := rfl
@[simp] theorem State.emit_pieces : (s.emit o).pieces = s.pieces := rfl
@[simp] theorem State.emit_remotes : (s.emit o).remotes = s.remotes := rfl
@[simp] theorem State.emit_inbox : (s.emit o).inbox = s.inbox := rfl
@[simp] theorem State.emit_seqs : (s.emit o).seqs = s.seqs := rfl
@[simp] theorem State.emit_inSeqs : (s.emit o).inSeqs = s.inSeqs := rfl
@[simp] theorem State.emit_ports : (s.emit o).ports = s.ports := rfl
@[simp] theorem State.emit_regs : (s.emit o).regs = s.regs := rfl
@[simp] theorem State.emit_wrt : (s.emit o).wrt = s.wrt := rfl
@[simp] theorem State.emit_tele : (s.emit o).tele = s.tele := rfl
@[simp] theorem State.emit_mgmt : (s.emit o).mgmt = s.mgmt := rfl
@[simp] theorem State.emit_ck : (s.emit o).ck = s.ck := rfl
@[simp] theorem State.emit_stopped : (s.emit o).stopped = s.stopped := rfl
@[simp] theorem State.emit_mainOn : (s.emit o).mainOn = s.mainOn := rfl
@[simp] theorem State.emit_retvOn : (s.emit o).retvOn = s.retvOn := rfl

end

/-! ### `State.onL2` -/

section
variable (s : State) (d : Nat) (f : List Line → List Line)

@[simp] theorem State.onL2_agenda : (s.onL2 d f).agenda = s.agenda := rfl
@[simp] theorem State.onL2_cur : (s.onL2 d f).cur = s.cur := rfl
@[simp] theorem State.onL2_freeCtr : (s.onL2 d f).freeCtr = s.freeCtr := rfl
@[simp] theorem State.onL2_nextId : (s.onL2 d f).nextId = s.nextId := rfl
@[simp] theorem State.onL2_clk : (s.onL2 d f).clk = s.clk := rfl
@[simp] theorem State.onL2_ns : (s.onL2 d f).ns = s.ns := rfl
@[simp] theorem State.onL2_mem : (s.onL2 d f).mem = s.mem := rfl
@[simp] theorem State.onL2_poison : (s.onL2 d f).poison = s.poison := rfl
@[simp] theorem State.onL2_tlb : (s.onL2 d f).tlb = s.tlb := rfl
@[simp] theorem State.onL2_hostMem : (s.onL2 d f).hostMem = s.hostMem := rfl
@[simp] theorem State.onL2_ats : (s.onL2 d f).ats = s.ats := rfl
@[simp] theorem State.onL2_atsWaits : (s.onL2 d f).atsWaits = s.atsWaits := rfl
@[simp] theorem State.onL2_contexts : (s.onL2 d f).contexts = s.contexts := rfl
@[simp] theorem State.onL2_grids : (s.onL2 d f).grids = s.grids := rfl
@[simp] theorem State.onL2_casts : (s.onL2 d f).casts = s.casts := rfl
@[simp] theorem State.onL2_teams : (s.onL2 d f).teams = s.teams := rfl
@[simp] theorem State.onL2_fronts : (s.onL2 d f).fronts = s.fronts := rfl
@[simp] theorem State.onL2_cores : (s.onL2 d f).cores = s.cores := rfl
@[simp] theorem State.onL2_locks2 : (s.onL2 d f).locks2 = s.locks2 := rfl
@[simp] theorem State.onL2_copies : (s.onL2 d f).copies = s.copies := rfl
@[simp] theorem State.onL2_carries : (s.onL2 d f).carries = s.carries := rfl
@[simp] theorem State.onL2_landing : (s.onL2 d f).landing = s.landing := rfl
@[simp] theorem State.onL2_sweeps : (s.onL2 d f).sweeps = s.sweeps := rfl
@[simp] theorem State.onL2_dusk : (s.onL2 d f).dusk = s.dusk := rfl
@[simp] theorem State.onL2_handbacks : (s.onL2 d f).handbacks = s.handbacks := rfl
@[simp] theorem State.onL2_queries : (s.onL2 d f).queries = s.queries := rfl
@[simp] theorem State.onL2_graphs : (s.onL2 d f).graphs = s.graphs := rfl
@[simp] theorem State.onL2_tasks : (s.onL2 d f).tasks = s.tasks := rfl
@[simp] theorem State.onL2_tokens : (s.onL2 d f).tokens = s.tokens := rfl
@[simp] theorem State.onL2_pieces : (s.onL2 d f).pieces = s.pieces := rfl
@[simp] theorem State.onL2_remotes : (s.onL2 d f).remotes = s.remotes := rfl
@[simp] theorem State.onL2_inbox : (s.onL2 d f).inbox = s.inbox := rfl
@[simp] theorem State.onL2_seqs : (s.onL2 d f).seqs = s.seqs := rfl
@[simp] theorem State.onL2_inSeqs : (s.onL2 d f).inSeqs = s.inSeqs := rfl
@[simp] theorem State.onL2_ports : (s.onL2 d f).ports = s.ports := rfl
@[simp] theorem State.onL2_regs : (s.onL2 d f).regs = s.regs := rfl
@[simp] theorem State.onL2_wrt : (s.onL2 d f).wrt = s.wrt := rfl
@[simp] theorem State.onL2_tele : (s.onL2 d f).tele = s.tele := rfl
@[simp] theorem State.onL2_mgmt : (s.onL2 d f).mgmt = s.mgmt := rfl
@[simp] theorem State.onL2_ck : (s.onL2 d f).ck = s.ck := rfl
@[simp] theorem State.onL2_stopped : (s.onL2 d f).stopped = s.stopped := rfl
@[simp] theorem State.onL2_mainOn : (s.onL2 d f).mainOn = s.mainOn := rfl
@[simp] theorem State.onL2_retvOn : (s.onL2 d f).retvOn = s.retvOn := rfl
@[simp] theorem State.onL2_out : (s.onL2 d f).out = s.out := rfl

end

/-! ### `State.putL2` -/

section
variable (s : State) (d : Nat) (l : Line)

@[simp] theorem State.putL2_agenda : (s.putL2 d l).agenda = s.agenda := rfl
@[simp] theorem State.putL2_cur : (s.putL2 d l).cur = s.cur := rfl
@[simp] theorem State.putL2_freeCtr : (s.putL2 d l).freeCtr = s.freeCtr := rfl
@[simp] theorem State.putL2_nextId : (s.putL2 d l).nextId = s.nextId := rfl
@[simp] theorem State.putL2_clk : (s.putL2 d l).clk = s.clk := rfl
@[simp] theorem State.putL2_ns : (s.putL2 d l).ns = s.ns := rfl
@[simp] theorem State.putL2_mem : (s.putL2 d l).mem = s.mem := rfl
@[simp] theorem State.putL2_poison : (s.putL2 d l).poison = s.poison := rfl
@[simp] theorem State.putL2_tlb : (s.putL2 d l).tlb = s.tlb := rfl
@[simp] theorem State.putL2_hostMem : (s.putL2 d l).hostMem = s.hostMem := rfl
@[simp] theorem State.putL2_ats : (s.putL2 d l).ats = s.ats := rfl
@[simp] theorem State.putL2_atsWaits : (s.putL2 d l).atsWaits = s.atsWaits := rfl
@[simp] theorem State.putL2_contexts : (s.putL2 d l).contexts = s.contexts := rfl
@[simp] theorem State.putL2_grids : (s.putL2 d l).grids = s.grids := rfl
@[simp] theorem State.putL2_casts : (s.putL2 d l).casts = s.casts := rfl
@[simp] theorem State.putL2_teams : (s.putL2 d l).teams = s.teams := rfl
@[simp] theorem State.putL2_fronts : (s.putL2 d l).fronts = s.fronts := rfl
@[simp] theorem State.putL2_cores : (s.putL2 d l).cores = s.cores := rfl
@[simp] theorem State.putL2_locks2 : (s.putL2 d l).locks2 = s.locks2 := rfl
@[simp] theorem State.putL2_copies : (s.putL2 d l).copies = s.copies := rfl
@[simp] theorem State.putL2_carries : (s.putL2 d l).carries = s.carries := rfl
@[simp] theorem State.putL2_landing : (s.putL2 d l).landing = s.landing := rfl
@[simp] theorem State.putL2_sweeps : (s.putL2 d l).sweeps = s.sweeps := rfl
@[simp] theorem State.putL2_dusk : (s.putL2 d l).dusk = s.dusk := rfl
@[simp] theorem State.putL2_handbacks : (s.putL2 d l).handbacks = s.handbacks := rfl
@[simp] theorem State.putL2_queries : (s.putL2 d l).queries = s.queries := rfl
@[simp] theorem State.putL2_graphs : (s.putL2 d l).graphs = s.graphs := rfl
@[simp] theorem State.putL2_tasks : (s.putL2 d l).tasks = s.tasks := rfl
@[simp] theorem State.putL2_tokens : (s.putL2 d l).tokens = s.tokens := rfl
@[simp] theorem State.putL2_pieces : (s.putL2 d l).pieces = s.pieces := rfl
@[simp] theorem State.putL2_remotes : (s.putL2 d l).remotes = s.remotes := rfl
@[simp] theorem State.putL2_inbox : (s.putL2 d l).inbox = s.inbox := rfl
@[simp] theorem State.putL2_seqs : (s.putL2 d l).seqs = s.seqs := rfl
@[simp] theorem State.putL2_inSeqs : (s.putL2 d l).inSeqs = s.inSeqs := rfl
@[simp] theorem State.putL2_ports : (s.putL2 d l).ports = s.ports := rfl
@[simp] theorem State.putL2_regs : (s.putL2 d l).regs = s.regs := rfl
@[simp] theorem State.putL2_wrt : (s.putL2 d l).wrt = s.wrt := rfl
@[simp] theorem State.putL2_tele : (s.putL2 d l).tele = s.tele := rfl
@[simp] theorem State.putL2_mgmt : (s.putL2 d l).mgmt = s.mgmt := rfl
@[simp] theorem State.putL2_ck : (s.putL2 d l).ck = s.ck := rfl
@[simp] theorem State.putL2_stopped : (s.putL2 d l).stopped = s.stopped := rfl
@[simp] theorem State.putL2_mainOn : (s.putL2 d l).mainOn = s.mainOn := rfl
@[simp] theorem State.putL2_retvOn : (s.putL2 d l).retvOn = s.retvOn := rfl
@[simp] theorem State.putL2_out : (s.putL2 d l).out = s.out := rfl

end

/-! ### `State.setCore` -/

section
variable (s : State) (c : Core)

@[simp] theorem State.setCore_agenda : (s.setCore c).agenda = s.agenda := by unfold State.setCore; split <;> rfl
@[simp] theorem State.setCore_cur : (s.setCore c).cur = s.cur := by unfold State.setCore; split <;> rfl
@[simp] theorem State.setCore_freeCtr : (s.setCore c).freeCtr = s.freeCtr := by unfold State.setCore; split <;> rfl
@[simp] theorem State.setCore_nextId : (s.setCore c).nextId = s.nextId := by unfold State.setCore; split <;> rfl
@[simp] theorem State.setCore_clk : (s.setCore c).clk = s.clk := by unfold State.setCore; split <;> rfl
@[simp] theorem State.setCore_ns : (s.setCore c).ns = s.ns := by unfold State.setCore; split <;> rfl
@[simp] theorem State.setCore_mem : (s.setCore c).mem = s.mem := by unfold State.setCore; split <;> rfl
@[simp] theorem State.setCore_poison : (s.setCore c).poison = s.poison := by unfold State.setCore; split <;> rfl
@[simp] theorem State.setCore_tlb : (s.setCore c).tlb = s.tlb := by unfold State.setCore; split <;> rfl
@[simp] theorem State.setCore_hostMem : (s.setCore c).hostMem = s.hostMem := by unfold State.setCore; split <;> rfl
@[simp] theorem State.setCore_ats : (s.setCore c).ats = s.ats := by unfold State.setCore; split <;> rfl
@[simp] theorem State.setCore_atsWaits : (s.setCore c).atsWaits = s.atsWaits := by unfold State.setCore; split <;> rfl
@[simp] theorem State.setCore_contexts : (s.setCore c).contexts = s.contexts := by unfold State.setCore; split <;> rfl
@[simp] theorem State.setCore_grids : (s.setCore c).grids = s.grids := by unfold State.setCore; split <;> rfl
@[simp] theorem State.setCore_casts : (s.setCore c).casts = s.casts := by unfold State.setCore; split <;> rfl
@[simp] theorem State.setCore_teams : (s.setCore c).teams = s.teams := by unfold State.setCore; split <;> rfl
@[simp] theorem State.setCore_fronts : (s.setCore c).fronts = s.fronts := by unfold State.setCore; split <;> rfl
@[simp] theorem State.setCore_l2 : (s.setCore c).l2 = s.l2 := by unfold State.setCore; split <;> rfl
@[simp] theorem State.setCore_locks2 : (s.setCore c).locks2 = s.locks2 := by unfold State.setCore; split <;> rfl
@[simp] theorem State.setCore_copies : (s.setCore c).copies = s.copies := by unfold State.setCore; split <;> rfl
@[simp] theorem State.setCore_carries : (s.setCore c).carries = s.carries := by unfold State.setCore; split <;> rfl
@[simp] theorem State.setCore_landing : (s.setCore c).landing = s.landing := by unfold State.setCore; split <;> rfl
@[simp] theorem State.setCore_sweeps : (s.setCore c).sweeps = s.sweeps := by unfold State.setCore; split <;> rfl
@[simp] theorem State.setCore_dusk : (s.setCore c).dusk = s.dusk := by unfold State.setCore; split <;> rfl
@[simp] theorem State.setCore_handbacks : (s.setCore c).handbacks = s.handbacks := by unfold State.setCore; split <;> rfl
@[simp] theorem State.setCore_queries : (s.setCore c).queries = s.queries := by unfold State.setCore; split <;> rfl
@[simp] theorem State.setCore_graphs : (s.setCore c).graphs = s.graphs := by unfold State.setCore; split <;> rfl
@[simp] theorem State.setCore_tasks : (s.setCore c).tasks = s.tasks := by unfold State.setCore; split <;> rfl
@[simp] theorem State.setCore_tokens : (s.setCore c).tokens = s.tokens := by unfold State.setCore; split <;> rfl
@[simp] theorem State.setCore_pieces : (s.setCore c).pieces = s.pieces := by unfold State.setCore; split <;> rfl
@[simp] theorem State.setCore_remotes : (s.setCore c).remotes = s.remotes := by unfold State.setCore; split <;> rfl
@[simp] theorem State.setCore_inbox : (s.setCore c).inbox = s.inbox := by unfold State.setCore; split <;> rfl
@[simp] theorem State.setCore_seqs : (s.setCore c).seqs = s.seqs := by unfold State.setCore; split <;> rfl
@[simp] theorem State.setCore_inSeqs : (s.setCore c).inSeqs = s.inSeqs := by unfold State.setCore; split <;> rfl
@[simp] theorem State.setCore_ports : (s.setCore c).ports = s.ports := by unfold State.setCore; split <;> rfl
@[simp] theorem State.setCore_regs : (s.setCore c).regs = s.regs := by unfold State.setCore; split <;> rfl
@[simp] theorem State.setCore_wrt : (s.setCore c).wrt = s.wrt := by unfold State.setCore; split <;> rfl
@[simp] theorem State.setCore_tele : (s.setCore c).tele = s.tele := by unfold State.setCore; split <;> rfl
@[simp] theorem State.setCore_mgmt : (s.setCore c).mgmt = s.mgmt := by unfold State.setCore; split <;> rfl
@[simp] theorem State.setCore_ck : (s.setCore c).ck = s.ck := by unfold State.setCore; split <;> rfl
@[simp] theorem State.setCore_stopped : (s.setCore c).stopped = s.stopped := by unfold State.setCore; split <;> rfl
@[simp] theorem State.setCore_mainOn : (s.setCore c).mainOn = s.mainOn := by unfold State.setCore; split <;> rfl
@[simp] theorem State.setCore_retvOn : (s.setCore c).retvOn = s.retvOn := by unfold State.setCore; split <;> rfl
@[simp] theorem State.setCore_out : (s.setCore c).out = s.out := by unfold State.setCore; split <;> rfl

end

/-! ### `State.setCtx` -/

section
variable (s : State) (c : Context)

@[simp] theorem State.setCtx_agenda : (s.setCtx c).agenda = s.agenda := by unfold State.setCtx; split <;> rfl
@[simp] theorem State.setCtx_cur : (s.setCtx c).cur = s.cur := by unfold State.setCtx; split <;> rfl
@[simp] theorem State.setCtx_freeCtr : (s.setCtx c).freeCtr = s.freeCtr := by unfold State.setCtx; split <;> rfl
@[simp] theorem State.setCtx_nextId : (s.setCtx c).nextId = s.nextId := by unfold State.setCtx; split <;> rfl
@[simp] theorem State.setCtx_clk : (s.setCtx c).clk = s.clk := by unfold State.setCtx; split <;> rfl
@[simp] theorem State.setCtx_ns : (s.setCtx c).ns = s.ns := by unfold State.setCtx; split <;> rfl
@[simp] theorem State.setCtx_mem : (s.setCtx c).mem = s.mem := by unfold State.setCtx; split <;> rfl
@[simp] theorem State.setCtx_poison : (s.setCtx c).poison = s.poison := by unfold State.setCtx; split <;> rfl
@[simp] theorem State.setCtx_tlb : (s.setCtx c).tlb = s.tlb := by unfold State.setCtx; split <;> rfl
@[simp] theorem State.setCtx_hostMem : (s.setCtx c).hostMem = s.hostMem := by unfold State.setCtx; split <;> rfl
@[simp] theorem State.setCtx_ats : (s.setCtx c).ats = s.ats := by unfold State.setCtx; split <;> rfl
@[simp] theorem State.setCtx_atsWaits : (s.setCtx c).atsWaits = s.atsWaits := by unfold State.setCtx; split <;> rfl
@[simp] theorem State.setCtx_grids : (s.setCtx c).grids = s.grids := by unfold State.setCtx; split <;> rfl
@[simp] theorem State.setCtx_casts : (s.setCtx c).casts = s.casts := by unfold State.setCtx; split <;> rfl
@[simp] theorem State.setCtx_teams : (s.setCtx c).teams = s.teams := by unfold State.setCtx; split <;> rfl
@[simp] theorem State.setCtx_fronts : (s.setCtx c).fronts = s.fronts := by unfold State.setCtx; split <;> rfl
@[simp] theorem State.setCtx_cores : (s.setCtx c).cores = s.cores := by unfold State.setCtx; split <;> rfl
@[simp] theorem State.setCtx_l2 : (s.setCtx c).l2 = s.l2 := by unfold State.setCtx; split <;> rfl
@[simp] theorem State.setCtx_locks2 : (s.setCtx c).locks2 = s.locks2 := by unfold State.setCtx; split <;> rfl
@[simp] theorem State.setCtx_copies : (s.setCtx c).copies = s.copies := by unfold State.setCtx; split <;> rfl
@[simp] theorem State.setCtx_carries : (s.setCtx c).carries = s.carries := by unfold State.setCtx; split <;> rfl
@[simp] theorem State.setCtx_landing : (s.setCtx c).landing = s.landing := by unfold State.setCtx; split <;> rfl
@[simp] theorem State.setCtx_sweeps : (s.setCtx c).sweeps = s.sweeps := by unfold State.setCtx; split <;> rfl
@[simp] theorem State.setCtx_dusk : (s.setCtx c).dusk = s.dusk := by unfold State.setCtx; split <;> rfl
@[simp] theorem State.setCtx_handbacks : (s.setCtx c).handbacks = s.handbacks := by unfold State.setCtx; split <;> rfl
@[simp] theorem State.setCtx_queries : (s.setCtx c).queries = s.queries := by unfold State.setCtx; split <;> rfl
@[simp] theorem State.setCtx_graphs : (s.setCtx c).graphs = s.graphs := by unfold State.setCtx; split <;> rfl
@[simp] theorem State.setCtx_tasks : (s.setCtx c).tasks = s.tasks := by unfold State.setCtx; split <;> rfl
@[simp] theorem State.setCtx_tokens : (s.setCtx c).tokens = s.tokens := by unfold State.setCtx; split <;> rfl
@[simp] theorem State.setCtx_pieces : (s.setCtx c).pieces = s.pieces := by unfold State.setCtx; split <;> rfl
@[simp] theorem State.setCtx_remotes : (s.setCtx c).remotes = s.remotes := by unfold State.setCtx; split <;> rfl
@[simp] theorem State.setCtx_inbox : (s.setCtx c).inbox = s.inbox := by unfold State.setCtx; split <;> rfl
@[simp] theorem State.setCtx_seqs : (s.setCtx c).seqs = s.seqs := by unfold State.setCtx; split <;> rfl
@[simp] theorem State.setCtx_inSeqs : (s.setCtx c).inSeqs = s.inSeqs := by unfold State.setCtx; split <;> rfl
@[simp] theorem State.setCtx_ports : (s.setCtx c).ports = s.ports := by unfold State.setCtx; split <;> rfl
@[simp] theorem State.setCtx_regs : (s.setCtx c).regs = s.regs := by unfold State.setCtx; split <;> rfl
@[simp] theorem State.setCtx_wrt : (s.setCtx c).wrt = s.wrt := by unfold State.setCtx; split <;> rfl
@[simp] theorem State.setCtx_tele : (s.setCtx c).tele = s.tele := by unfold State.setCtx; split <;> rfl
@[simp] theorem State.setCtx_mgmt : (s.setCtx c).mgmt = s.mgmt := by unfold State.setCtx; split <;> rfl
@[simp] theorem State.setCtx_ck : (s.setCtx c).ck = s.ck := by unfold State.setCtx; split <;> rfl
@[simp] theorem State.setCtx_stopped : (s.setCtx c).stopped = s.stopped := by unfold State.setCtx; split <;> rfl
@[simp] theorem State.setCtx_mainOn : (s.setCtx c).mainOn = s.mainOn := by unfold State.setCtx; split <;> rfl
@[simp] theorem State.setCtx_retvOn : (s.setCtx c).retvOn = s.retvOn := by unfold State.setCtx; split <;> rfl
@[simp] theorem State.setCtx_out : (s.setCtx c).out = s.out := by unfold State.setCtx; split <;> rfl

end

/-! ### `State.onCore` -/

section
variable (s : State) (no : Nat) (f : Core → Core)

@[simp] theorem State.onCore_agenda : (s.onCore no f).agenda = s.agenda := by simp [State.onCore]
@[simp] theorem State.onCore_cur : (s.onCore no f).cur = s.cur := by simp [State.onCore]
@[simp] theorem State.onCore_freeCtr : (s.onCore no f).freeCtr = s.freeCtr := by simp [State.onCore]
@[simp] theorem State.onCore_nextId : (s.onCore no f).nextId = s.nextId := by simp [State.onCore]
@[simp] theorem State.onCore_clk : (s.onCore no f).clk = s.clk := by simp [State.onCore]
@[simp] theorem State.onCore_ns : (s.onCore no f).ns = s.ns := by simp [State.onCore]
@[simp] theorem State.onCore_mem : (s.onCore no f).mem = s.mem := by simp [State.onCore]
@[simp] theorem State.onCore_poison : (s.onCore no f).poison = s.poison := by simp [State.onCore]
@[simp] theorem State.onCore_tlb : (s.onCore no f).tlb = s.tlb := by simp [State.onCore]
@[simp] theorem State.onCore_hostMem : (s.onCore no f).hostMem = s.hostMem := by simp [State.onCore]
@[simp] theorem State.onCore_ats : (s.onCore no f).ats = s.ats := by simp [State.onCore]
@[simp] theorem State.onCore_atsWaits : (s.onCore no f).atsWaits = s.atsWaits := by simp [State.onCore]
@[simp] theorem State.onCore_contexts : (s.onCore no f).contexts = s.contexts := by simp [State.onCore]
@[simp] theorem State.onCore_grids : (s.onCore no f).grids = s.grids := by simp [State.onCore]
@[simp] theorem State.onCore_casts : (s.onCore no f).casts = s.casts := by simp [State.onCore]
@[simp] theorem State.onCore_teams : (s.onCore no f).teams = s.teams := by simp [State.onCore]
@[simp] theorem State.onCore_fronts : (s.onCore no f).fronts = s.fronts := by simp [State.onCore]
@[simp] theorem State.onCore_l2 : (s.onCore no f).l2 = s.l2 := by simp [State.onCore]
@[simp] theorem State.onCore_locks2 : (s.onCore no f).locks2 = s.locks2 := by simp [State.onCore]
@[simp] theorem State.onCore_copies : (s.onCore no f).copies = s.copies := by simp [State.onCore]
@[simp] theorem State.onCore_carries : (s.onCore no f).carries = s.carries := by simp [State.onCore]
@[simp] theorem State.onCore_landing : (s.onCore no f).landing = s.landing := by simp [State.onCore]
@[simp] theorem State.onCore_sweeps : (s.onCore no f).sweeps = s.sweeps := by simp [State.onCore]
@[simp] theorem State.onCore_dusk : (s.onCore no f).dusk = s.dusk := by simp [State.onCore]
@[simp] theorem State.onCore_handbacks : (s.onCore no f).handbacks = s.handbacks := by simp [State.onCore]
@[simp] theorem State.onCore_queries : (s.onCore no f).queries = s.queries := by simp [State.onCore]
@[simp] theorem State.onCore_graphs : (s.onCore no f).graphs = s.graphs := by simp [State.onCore]
@[simp] theorem State.onCore_tasks : (s.onCore no f).tasks = s.tasks := by simp [State.onCore]
@[simp] theorem State.onCore_tokens : (s.onCore no f).tokens = s.tokens := by simp [State.onCore]
@[simp] theorem State.onCore_pieces : (s.onCore no f).pieces = s.pieces := by simp [State.onCore]
@[simp] theorem State.onCore_remotes : (s.onCore no f).remotes = s.remotes := by simp [State.onCore]
@[simp] theorem State.onCore_inbox : (s.onCore no f).inbox = s.inbox := by simp [State.onCore]
@[simp] theorem State.onCore_seqs : (s.onCore no f).seqs = s.seqs := by simp [State.onCore]
@[simp] theorem State.onCore_inSeqs : (s.onCore no f).inSeqs = s.inSeqs := by simp [State.onCore]
@[simp] theorem State.onCore_ports : (s.onCore no f).ports = s.ports := by simp [State.onCore]
@[simp] theorem State.onCore_regs : (s.onCore no f).regs = s.regs := by simp [State.onCore]
@[simp] theorem State.onCore_wrt : (s.onCore no f).wrt = s.wrt := by simp [State.onCore]
@[simp] theorem State.onCore_tele : (s.onCore no f).tele = s.tele := by simp [State.onCore]
@[simp] theorem State.onCore_mgmt : (s.onCore no f).mgmt = s.mgmt := by simp [State.onCore]
@[simp] theorem State.onCore_ck : (s.onCore no f).ck = s.ck := by simp [State.onCore]
@[simp] theorem State.onCore_stopped : (s.onCore no f).stopped = s.stopped := by simp [State.onCore]
@[simp] theorem State.onCore_mainOn : (s.onCore no f).mainOn = s.mainOn := by simp [State.onCore]
@[simp] theorem State.onCore_retvOn : (s.onCore no f).retvOn = s.retvOn := by simp [State.onCore]
@[simp] theorem State.onCore_out : (s.onCore no f).out = s.out := by simp [State.onCore]

end

/-! ### `State.onL1` -/

section
variable (s : State) (no : Nat) (f : List Line → List Line)

@[simp] theorem State.onL1_agenda : (s.onL1 no f).agenda = s.agenda := by simp [State.onL1]
@[simp] theorem State.onL1_cur : (s.onL1 no f).cur = s.cur := by simp [State.onL1]
@[simp] theorem State.onL1_freeCtr : (s.onL1 no f).freeCtr = s.freeCtr := by simp [State.onL1]
@[simp] theorem State.onL1_nextId : (s.onL1 no f).nextId = s.nextId := by simp [State.onL1]
@[simp] theorem State.onL1_clk : (s.onL1 no f).clk = s.clk := by simp [State.onL1]
@[simp] theorem State.onL1_ns : (s.onL1 no f).ns = s.ns := by simp [State.onL1]
@[simp] theorem State.onL1_mem : (s.onL1 no f).mem = s.mem := by simp [State.onL1]
@[simp] theorem State.onL1_poison : (s.onL1 no f).poison = s.poison := by simp [State.onL1]
@[simp] theorem State.onL1_tlb : (s.onL1 no f).tlb = s.tlb := by simp [State.onL1]
@[simp] theorem State.onL1_hostMem : (s.onL1 no f).hostMem = s.hostMem := by simp [State.onL1]
@[simp] theorem State.onL1_ats : (s.onL1 no f).ats = s.ats := by simp [State.onL1]
@[simp] theorem State.onL1_atsWaits : (s.onL1 no f).atsWaits = s.atsWaits := by simp [State.onL1]
@[simp] theorem State.onL1_contexts : (s.onL1 no f).contexts = s.contexts := by simp [State.onL1]
@[simp] theorem State.onL1_grids : (s.onL1 no f).grids = s.grids := by simp [State.onL1]
@[simp] theorem State.onL1_casts : (s.onL1 no f).casts = s.casts := by simp [State.onL1]
@[simp] theorem State.onL1_teams : (s.onL1 no f).teams = s.teams := by simp [State.onL1]
@[simp] theorem State.onL1_fronts : (s.onL1 no f).fronts = s.fronts := by simp [State.onL1]
@[simp] theorem State.onL1_l2 : (s.onL1 no f).l2 = s.l2 := by simp [State.onL1]
@[simp] theorem State.onL1_locks2 : (s.onL1 no f).locks2 = s.locks2 := by simp [State.onL1]
@[simp] theorem State.onL1_copies : (s.onL1 no f).copies = s.copies := by simp [State.onL1]
@[simp] theorem State.onL1_carries : (s.onL1 no f).carries = s.carries := by simp [State.onL1]
@[simp] theorem State.onL1_landing : (s.onL1 no f).landing = s.landing := by simp [State.onL1]
@[simp] theorem State.onL1_sweeps : (s.onL1 no f).sweeps = s.sweeps := by simp [State.onL1]
@[simp] theorem State.onL1_dusk : (s.onL1 no f).dusk = s.dusk := by simp [State.onL1]
@[simp] theorem State.onL1_handbacks : (s.onL1 no f).handbacks = s.handbacks := by simp [State.onL1]
@[simp] theorem State.onL1_queries : (s.onL1 no f).queries = s.queries := by simp [State.onL1]
@[simp] theorem State.onL1_graphs : (s.onL1 no f).graphs = s.graphs := by simp [State.onL1]
@[simp] theorem State.onL1_tasks : (s.onL1 no f).tasks = s.tasks := by simp [State.onL1]
@[simp] theorem State.onL1_tokens : (s.onL1 no f).tokens = s.tokens := by simp [State.onL1]
@[simp] theorem State.onL1_pieces : (s.onL1 no f).pieces = s.pieces := by simp [State.onL1]
@[simp] theorem State.onL1_remotes : (s.onL1 no f).remotes = s.remotes := by simp [State.onL1]
@[simp] theorem State.onL1_inbox : (s.onL1 no f).inbox = s.inbox := by simp [State.onL1]
@[simp] theorem State.onL1_seqs : (s.onL1 no f).seqs = s.seqs := by simp [State.onL1]
@[simp] theorem State.onL1_inSeqs : (s.onL1 no f).inSeqs = s.inSeqs := by simp [State.onL1]
@[simp] theorem State.onL1_ports : (s.onL1 no f).ports = s.ports := by simp [State.onL1]
@[simp] theorem State.onL1_regs : (s.onL1 no f).regs = s.regs := by simp [State.onL1]
@[simp] theorem State.onL1_wrt : (s.onL1 no f).wrt = s.wrt := by simp [State.onL1]
@[simp] theorem State.onL1_tele : (s.onL1 no f).tele = s.tele := by simp [State.onL1]
@[simp] theorem State.onL1_mgmt : (s.onL1 no f).mgmt = s.mgmt := by simp [State.onL1]
@[simp] theorem State.onL1_ck : (s.onL1 no f).ck = s.ck := by simp [State.onL1]
@[simp] theorem State.onL1_stopped : (s.onL1 no f).stopped = s.stopped := by simp [State.onL1]
@[simp] theorem State.onL1_mainOn : (s.onL1 no f).mainOn = s.mainOn := by simp [State.onL1]
@[simp] theorem State.onL1_retvOn : (s.onL1 no f).retvOn = s.retvOn := by simp [State.onL1]
@[simp] theorem State.onL1_out : (s.onL1 no f).out = s.out := by simp [State.onL1]

end

/-! ### `State.onCtx` -/

section
variable (s : State) (no : Nat) (f : Context → Context)

@[simp] theorem State.onCtx_agenda : (s.onCtx no f).agenda = s.agenda := by simp [State.onCtx]
@[simp] theorem State.onCtx_cur : (s.onCtx no f).cur = s.cur := by simp [State.onCtx]
@[simp] theorem State.onCtx_freeCtr : (s.onCtx no f).freeCtr = s.freeCtr := by simp [State.onCtx]
@[simp] theorem State.onCtx_nextId : (s.onCtx no f).nextId = s.nextId := by simp [State.onCtx]
@[simp] theorem State.onCtx_clk : (s.onCtx no f).clk = s.clk := by simp [State.onCtx]
@[simp] theorem State.onCtx_ns : (s.onCtx no f).ns = s.ns := by simp [State.onCtx]
@[simp] theorem State.onCtx_mem : (s.onCtx no f).mem = s.mem := by simp [State.onCtx]
@[simp] theorem State.onCtx_poison : (s.onCtx no f).poison = s.poison := by simp [State.onCtx]
@[simp] theorem State.onCtx_tlb : (s.onCtx no f).tlb = s.tlb := by simp [State.onCtx]
@[simp] theorem State.onCtx_hostMem : (s.onCtx no f).hostMem = s.hostMem := by simp [State.onCtx]
@[simp] theorem State.onCtx_ats : (s.onCtx no f).ats = s.ats := by simp [State.onCtx]
@[simp] theorem State.onCtx_atsWaits : (s.onCtx no f).atsWaits = s.atsWaits := by simp [State.onCtx]
@[simp] theorem State.onCtx_grids : (s.onCtx no f).grids = s.grids := by simp [State.onCtx]
@[simp] theorem State.onCtx_casts : (s.onCtx no f).casts = s.casts := by simp [State.onCtx]
@[simp] theorem State.onCtx_teams : (s.onCtx no f).teams = s.teams := by simp [State.onCtx]
@[simp] theorem State.onCtx_fronts : (s.onCtx no f).fronts = s.fronts := by simp [State.onCtx]
@[simp] theorem State.onCtx_cores : (s.onCtx no f).cores = s.cores := by simp [State.onCtx]
@[simp] theorem State.onCtx_l2 : (s.onCtx no f).l2 = s.l2 := by simp [State.onCtx]
@[simp] theorem State.onCtx_locks2 : (s.onCtx no f).locks2 = s.locks2 := by simp [State.onCtx]
@[simp] theorem State.onCtx_copies : (s.onCtx no f).copies = s.copies := by simp [State.onCtx]
@[simp] theorem State.onCtx_carries : (s.onCtx no f).carries = s.carries := by simp [State.onCtx]
@[simp] theorem State.onCtx_landing : (s.onCtx no f).landing = s.landing := by simp [State.onCtx]
@[simp] theorem State.onCtx_sweeps : (s.onCtx no f).sweeps = s.sweeps := by simp [State.onCtx]
@[simp] theorem State.onCtx_dusk : (s.onCtx no f).dusk = s.dusk := by simp [State.onCtx]
@[simp] theorem State.onCtx_handbacks : (s.onCtx no f).handbacks = s.handbacks := by simp [State.onCtx]
@[simp] theorem State.onCtx_queries : (s.onCtx no f).queries = s.queries := by simp [State.onCtx]
@[simp] theorem State.onCtx_graphs : (s.onCtx no f).graphs = s.graphs := by simp [State.onCtx]
@[simp] theorem State.onCtx_tasks : (s.onCtx no f).tasks = s.tasks := by simp [State.onCtx]
@[simp] theorem State.onCtx_tokens : (s.onCtx no f).tokens = s.tokens := by simp [State.onCtx]
@[simp] theorem State.onCtx_pieces : (s.onCtx no f).pieces = s.pieces := by simp [State.onCtx]
@[simp] theorem State.onCtx_remotes : (s.onCtx no f).remotes = s.remotes := by simp [State.onCtx]
@[simp] theorem State.onCtx_inbox : (s.onCtx no f).inbox = s.inbox := by simp [State.onCtx]
@[simp] theorem State.onCtx_seqs : (s.onCtx no f).seqs = s.seqs := by simp [State.onCtx]
@[simp] theorem State.onCtx_inSeqs : (s.onCtx no f).inSeqs = s.inSeqs := by simp [State.onCtx]
@[simp] theorem State.onCtx_ports : (s.onCtx no f).ports = s.ports := by simp [State.onCtx]
@[simp] theorem State.onCtx_regs : (s.onCtx no f).regs = s.regs := by simp [State.onCtx]
@[simp] theorem State.onCtx_wrt : (s.onCtx no f).wrt = s.wrt := by simp [State.onCtx]
@[simp] theorem State.onCtx_tele : (s.onCtx no f).tele = s.tele := by simp [State.onCtx]
@[simp] theorem State.onCtx_mgmt : (s.onCtx no f).mgmt = s.mgmt := by simp [State.onCtx]
@[simp] theorem State.onCtx_ck : (s.onCtx no f).ck = s.ck := by simp [State.onCtx]
@[simp] theorem State.onCtx_stopped : (s.onCtx no f).stopped = s.stopped := by simp [State.onCtx]
@[simp] theorem State.onCtx_mainOn : (s.onCtx no f).mainOn = s.mainOn := by simp [State.onCtx]
@[simp] theorem State.onCtx_retvOn : (s.onCtx no f).retvOn = s.retvOn := by simp [State.onCtx]
@[simp] theorem State.onCtx_out : (s.onCtx no f).out = s.out := by simp [State.onCtx]

end

/-! ### `State.onMatrix` -/

section
variable (s : State) (core m : Nat) (f : Matrix → Matrix)

@[simp] theorem State.onMatrix_agenda : (s.onMatrix core m f).agenda = s.agenda := by simp [State.onMatrix]
@[simp] theorem State.onMatrix_cur : (s.onMatrix core m f).cur = s.cur := by simp [State.onMatrix]
@[simp] theorem State.onMatrix_freeCtr : (s.onMatrix core m f).freeCtr = s.freeCtr := by simp [State.onMatrix]
@[simp] theorem State.onMatrix_nextId : (s.onMatrix core m f).nextId = s.nextId := by simp [State.onMatrix]
@[simp] theorem State.onMatrix_clk : (s.onMatrix core m f).clk = s.clk := by simp [State.onMatrix]
@[simp] theorem State.onMatrix_ns : (s.onMatrix core m f).ns = s.ns := by simp [State.onMatrix]
@[simp] theorem State.onMatrix_mem : (s.onMatrix core m f).mem = s.mem := by simp [State.onMatrix]
@[simp] theorem State.onMatrix_poison : (s.onMatrix core m f).poison = s.poison := by simp [State.onMatrix]
@[simp] theorem State.onMatrix_tlb : (s.onMatrix core m f).tlb = s.tlb := by simp [State.onMatrix]
@[simp] theorem State.onMatrix_hostMem : (s.onMatrix core m f).hostMem = s.hostMem := by simp [State.onMatrix]
@[simp] theorem State.onMatrix_ats : (s.onMatrix core m f).ats = s.ats := by simp [State.onMatrix]
@[simp] theorem State.onMatrix_atsWaits : (s.onMatrix core m f).atsWaits = s.atsWaits := by simp [State.onMatrix]
@[simp] theorem State.onMatrix_contexts : (s.onMatrix core m f).contexts = s.contexts := by simp [State.onMatrix]
@[simp] theorem State.onMatrix_grids : (s.onMatrix core m f).grids = s.grids := by simp [State.onMatrix]
@[simp] theorem State.onMatrix_casts : (s.onMatrix core m f).casts = s.casts := by simp [State.onMatrix]
@[simp] theorem State.onMatrix_teams : (s.onMatrix core m f).teams = s.teams := by simp [State.onMatrix]
@[simp] theorem State.onMatrix_fronts : (s.onMatrix core m f).fronts = s.fronts := by simp [State.onMatrix]
@[simp] theorem State.onMatrix_l2 : (s.onMatrix core m f).l2 = s.l2 := by simp [State.onMatrix]
@[simp] theorem State.onMatrix_locks2 : (s.onMatrix core m f).locks2 = s.locks2 := by simp [State.onMatrix]
@[simp] theorem State.onMatrix_copies : (s.onMatrix core m f).copies = s.copies := by simp [State.onMatrix]
@[simp] theorem State.onMatrix_carries : (s.onMatrix core m f).carries = s.carries := by simp [State.onMatrix]
@[simp] theorem State.onMatrix_landing : (s.onMatrix core m f).landing = s.landing := by simp [State.onMatrix]
@[simp] theorem State.onMatrix_sweeps : (s.onMatrix core m f).sweeps = s.sweeps := by simp [State.onMatrix]
@[simp] theorem State.onMatrix_dusk : (s.onMatrix core m f).dusk = s.dusk := by simp [State.onMatrix]
@[simp] theorem State.onMatrix_handbacks : (s.onMatrix core m f).handbacks = s.handbacks := by simp [State.onMatrix]
@[simp] theorem State.onMatrix_queries : (s.onMatrix core m f).queries = s.queries := by simp [State.onMatrix]
@[simp] theorem State.onMatrix_graphs : (s.onMatrix core m f).graphs = s.graphs := by simp [State.onMatrix]
@[simp] theorem State.onMatrix_tasks : (s.onMatrix core m f).tasks = s.tasks := by simp [State.onMatrix]
@[simp] theorem State.onMatrix_tokens : (s.onMatrix core m f).tokens = s.tokens := by simp [State.onMatrix]
@[simp] theorem State.onMatrix_pieces : (s.onMatrix core m f).pieces = s.pieces := by simp [State.onMatrix]
@[simp] theorem State.onMatrix_remotes : (s.onMatrix core m f).remotes = s.remotes := by simp [State.onMatrix]
@[simp] theorem State.onMatrix_inbox : (s.onMatrix core m f).inbox = s.inbox := by simp [State.onMatrix]
@[simp] theorem State.onMatrix_seqs : (s.onMatrix core m f).seqs = s.seqs := by simp [State.onMatrix]
@[simp] theorem State.onMatrix_inSeqs : (s.onMatrix core m f).inSeqs = s.inSeqs := by simp [State.onMatrix]
@[simp] theorem State.onMatrix_ports : (s.onMatrix core m f).ports = s.ports := by simp [State.onMatrix]
@[simp] theorem State.onMatrix_regs : (s.onMatrix core m f).regs = s.regs := by simp [State.onMatrix]
@[simp] theorem State.onMatrix_wrt : (s.onMatrix core m f).wrt = s.wrt := by simp [State.onMatrix]
@[simp] theorem State.onMatrix_tele : (s.onMatrix core m f).tele = s.tele := by simp [State.onMatrix]
@[simp] theorem State.onMatrix_mgmt : (s.onMatrix core m f).mgmt = s.mgmt := by simp [State.onMatrix]
@[simp] theorem State.onMatrix_ck : (s.onMatrix core m f).ck = s.ck := by simp [State.onMatrix]
@[simp] theorem State.onMatrix_stopped : (s.onMatrix core m f).stopped = s.stopped := by simp [State.onMatrix]
@[simp] theorem State.onMatrix_mainOn : (s.onMatrix core m f).mainOn = s.mainOn := by simp [State.onMatrix]
@[simp] theorem State.onMatrix_retvOn : (s.onMatrix core m f).retvOn = s.retvOn := by simp [State.onMatrix]
@[simp] theorem State.onMatrix_out : (s.onMatrix core m f).out = s.out := by simp [State.onMatrix]

end

/-! ### `State.onWeight` -/

section
variable (s : State) (core n : Nat) (f : Weight → Weight)

@[simp] theorem State.onWeight_agenda : (s.onWeight core n f).agenda = s.agenda := by simp [State.onWeight]
@[simp] theorem State.onWeight_cur : (s.onWeight core n f).cur = s.cur := by simp [State.onWeight]
@[simp] theorem State.onWeight_freeCtr : (s.onWeight core n f).freeCtr = s.freeCtr := by simp [State.onWeight]
@[simp] theorem State.onWeight_nextId : (s.onWeight core n f).nextId = s.nextId := by simp [State.onWeight]
@[simp] theorem State.onWeight_clk : (s.onWeight core n f).clk = s.clk := by simp [State.onWeight]
@[simp] theorem State.onWeight_ns : (s.onWeight core n f).ns = s.ns := by simp [State.onWeight]
@[simp] theorem State.onWeight_mem : (s.onWeight core n f).mem = s.mem := by simp [State.onWeight]
@[simp] theorem State.onWeight_poison : (s.onWeight core n f).poison = s.poison := by simp [State.onWeight]
@[simp] theorem State.onWeight_tlb : (s.onWeight core n f).tlb = s.tlb := by simp [State.onWeight]
@[simp] theorem State.onWeight_hostMem : (s.onWeight core n f).hostMem = s.hostMem := by simp [State.onWeight]
@[simp] theorem State.onWeight_ats : (s.onWeight core n f).ats = s.ats := by simp [State.onWeight]
@[simp] theorem State.onWeight_atsWaits : (s.onWeight core n f).atsWaits = s.atsWaits := by simp [State.onWeight]
@[simp] theorem State.onWeight_contexts : (s.onWeight core n f).contexts = s.contexts := by simp [State.onWeight]
@[simp] theorem State.onWeight_grids : (s.onWeight core n f).grids = s.grids := by simp [State.onWeight]
@[simp] theorem State.onWeight_casts : (s.onWeight core n f).casts = s.casts := by simp [State.onWeight]
@[simp] theorem State.onWeight_teams : (s.onWeight core n f).teams = s.teams := by simp [State.onWeight]
@[simp] theorem State.onWeight_fronts : (s.onWeight core n f).fronts = s.fronts := by simp [State.onWeight]
@[simp] theorem State.onWeight_l2 : (s.onWeight core n f).l2 = s.l2 := by simp [State.onWeight]
@[simp] theorem State.onWeight_locks2 : (s.onWeight core n f).locks2 = s.locks2 := by simp [State.onWeight]
@[simp] theorem State.onWeight_copies : (s.onWeight core n f).copies = s.copies := by simp [State.onWeight]
@[simp] theorem State.onWeight_carries : (s.onWeight core n f).carries = s.carries := by simp [State.onWeight]
@[simp] theorem State.onWeight_landing : (s.onWeight core n f).landing = s.landing := by simp [State.onWeight]
@[simp] theorem State.onWeight_sweeps : (s.onWeight core n f).sweeps = s.sweeps := by simp [State.onWeight]
@[simp] theorem State.onWeight_dusk : (s.onWeight core n f).dusk = s.dusk := by simp [State.onWeight]
@[simp] theorem State.onWeight_handbacks : (s.onWeight core n f).handbacks = s.handbacks := by simp [State.onWeight]
@[simp] theorem State.onWeight_queries : (s.onWeight core n f).queries = s.queries := by simp [State.onWeight]
@[simp] theorem State.onWeight_graphs : (s.onWeight core n f).graphs = s.graphs := by simp [State.onWeight]
@[simp] theorem State.onWeight_tasks : (s.onWeight core n f).tasks = s.tasks := by simp [State.onWeight]
@[simp] theorem State.onWeight_tokens : (s.onWeight core n f).tokens = s.tokens := by simp [State.onWeight]
@[simp] theorem State.onWeight_pieces : (s.onWeight core n f).pieces = s.pieces := by simp [State.onWeight]
@[simp] theorem State.onWeight_remotes : (s.onWeight core n f).remotes = s.remotes := by simp [State.onWeight]
@[simp] theorem State.onWeight_inbox : (s.onWeight core n f).inbox = s.inbox := by simp [State.onWeight]
@[simp] theorem State.onWeight_seqs : (s.onWeight core n f).seqs = s.seqs := by simp [State.onWeight]
@[simp] theorem State.onWeight_inSeqs : (s.onWeight core n f).inSeqs = s.inSeqs := by simp [State.onWeight]
@[simp] theorem State.onWeight_ports : (s.onWeight core n f).ports = s.ports := by simp [State.onWeight]
@[simp] theorem State.onWeight_regs : (s.onWeight core n f).regs = s.regs := by simp [State.onWeight]
@[simp] theorem State.onWeight_wrt : (s.onWeight core n f).wrt = s.wrt := by simp [State.onWeight]
@[simp] theorem State.onWeight_tele : (s.onWeight core n f).tele = s.tele := by simp [State.onWeight]
@[simp] theorem State.onWeight_mgmt : (s.onWeight core n f).mgmt = s.mgmt := by simp [State.onWeight]
@[simp] theorem State.onWeight_ck : (s.onWeight core n f).ck = s.ck := by simp [State.onWeight]
@[simp] theorem State.onWeight_stopped : (s.onWeight core n f).stopped = s.stopped := by simp [State.onWeight]
@[simp] theorem State.onWeight_mainOn : (s.onWeight core n f).mainOn = s.mainOn := by simp [State.onWeight]
@[simp] theorem State.onWeight_retvOn : (s.onWeight core n f).retvOn = s.retvOn := by simp [State.onWeight]
@[simp] theorem State.onWeight_out : (s.onWeight core n f).out = s.out := by simp [State.onWeight]

end

/-! ### `State.record` -/

section
variable (s : State) (no : Nat) (ws : List Word)

@[simp] theorem State.record_agenda : (s.record no ws).agenda = s.agenda := by simp [State.record]
@[simp] theorem State.record_cur : (s.record no ws).cur = s.cur := by simp [State.record]
@[simp] theorem State.record_freeCtr : (s.record no ws).freeCtr = s.freeCtr := by simp [State.record]
@[simp] theorem State.record_nextId : (s.record no ws).nextId = s.nextId := by simp [State.record]
@[simp] theorem State.record_clk : (s.record no ws).clk = s.clk := by simp [State.record]
@[simp] theorem State.record_ns : (s.record no ws).ns = s.ns := by simp [State.record]
@[simp] theorem State.record_mem : (s.record no ws).mem = s.mem := by simp [State.record]
@[simp] theorem State.record_poison : (s.record no ws).poison = s.poison := by simp [State.record]
@[simp] theorem State.record_tlb : (s.record no ws).tlb = s.tlb := by simp [State.record]
@[simp] theorem State.record_hostMem : (s.record no ws).hostMem = s.hostMem := by simp [State.record]
@[simp] theorem State.record_ats : (s.record no ws).ats = s.ats := by simp [State.record]
@[simp] theorem State.record_atsWaits : (s.record no ws).atsWaits = s.atsWaits := by simp [State.record]
@[simp] theorem State.record_grids : (s.record no ws).grids = s.grids := by simp [State.record]
@[simp] theorem State.record_casts : (s.record no ws).casts = s.casts := by simp [State.record]
@[simp] theorem State.record_teams : (s.record no ws).teams = s.teams := by simp [State.record]
@[simp] theorem State.record_fronts : (s.record no ws).fronts = s.fronts := by simp [State.record]
@[simp] theorem State.record_cores : (s.record no ws).cores = s.cores := by simp [State.record]
@[simp] theorem State.record_l2 : (s.record no ws).l2 = s.l2 := by simp [State.record]
@[simp] theorem State.record_locks2 : (s.record no ws).locks2 = s.locks2 := by simp [State.record]
@[simp] theorem State.record_copies : (s.record no ws).copies = s.copies := by simp [State.record]
@[simp] theorem State.record_carries : (s.record no ws).carries = s.carries := by simp [State.record]
@[simp] theorem State.record_landing : (s.record no ws).landing = s.landing := by simp [State.record]
@[simp] theorem State.record_sweeps : (s.record no ws).sweeps = s.sweeps := by simp [State.record]
@[simp] theorem State.record_dusk : (s.record no ws).dusk = s.dusk := by simp [State.record]
@[simp] theorem State.record_handbacks : (s.record no ws).handbacks = s.handbacks := by simp [State.record]
@[simp] theorem State.record_queries : (s.record no ws).queries = s.queries := by simp [State.record]
@[simp] theorem State.record_graphs : (s.record no ws).graphs = s.graphs := by simp [State.record]
@[simp] theorem State.record_tasks : (s.record no ws).tasks = s.tasks := by simp [State.record]
@[simp] theorem State.record_tokens : (s.record no ws).tokens = s.tokens := by simp [State.record]
@[simp] theorem State.record_pieces : (s.record no ws).pieces = s.pieces := by simp [State.record]
@[simp] theorem State.record_remotes : (s.record no ws).remotes = s.remotes := by simp [State.record]
@[simp] theorem State.record_inbox : (s.record no ws).inbox = s.inbox := by simp [State.record]
@[simp] theorem State.record_seqs : (s.record no ws).seqs = s.seqs := by simp [State.record]
@[simp] theorem State.record_inSeqs : (s.record no ws).inSeqs = s.inSeqs := by simp [State.record]
@[simp] theorem State.record_ports : (s.record no ws).ports = s.ports := by simp [State.record]
@[simp] theorem State.record_regs : (s.record no ws).regs = s.regs := by simp [State.record]
@[simp] theorem State.record_wrt : (s.record no ws).wrt = s.wrt := by simp [State.record]
@[simp] theorem State.record_tele : (s.record no ws).tele = s.tele := by simp [State.record]
@[simp] theorem State.record_mgmt : (s.record no ws).mgmt = s.mgmt := by simp [State.record]
@[simp] theorem State.record_ck : (s.record no ws).ck = s.ck := by simp [State.record]
@[simp] theorem State.record_stopped : (s.record no ws).stopped = s.stopped := by simp [State.record]
@[simp] theorem State.record_mainOn : (s.record no ws).mainOn = s.mainOn := by simp [State.record]
@[simp] theorem State.record_retvOn : (s.record no ws).retvOn = s.retvOn := by simp [State.record]
@[simp] theorem State.record_out : (s.record no ws).out = s.out := by simp [State.record]

end

/-! ### `Team.writeV` -/

section
variable (t : Team) (r : Nat) (m : Mask) (f : Nat → Word)

@[simp] theorem Team.writeV_id : (t.writeV r m f).id = t.id := rfl
@[simp] theorem Team.writeV_ctx : (t.writeV r m f).ctx = t.ctx := rfl
@[simp] theorem Team.writeV_core : (t.writeV r m f).core = t.core := rfl
@[simp] theorem Team.writeV_sub : (t.writeV r m f).sub = t.sub := rfl
@[simp] theorem Team.writeV_cast : (t.writeV r m f).cast = t.cast := rfl
@[simp] theorem Team.writeV_cslot : (t.writeV r m f).cslot = t.cslot := rfl
@[simp] theorem Team.writeV_grid : (t.writeV r m f).grid = t.grid := rfl
@[simp] theorem Team.writeV_index : (t.writeV r m f).index = t.index := rfl
@[simp] theorem Team.writeV_n : (t.writeV r m f).n = t.n := rfl
@[simp] theorem Team.writeV_pri : (t.writeV r m f).pri = t.pri := rfl
@[simp] theorem Team.writeV_lchk : (t.writeV r m f).lchk = t.lchk := rfl
@[simp] theorem Team.writeV_base : (t.writeV r m f).base = t.base := rfl
@[simp] theorem Team.writeV_extg : (t.writeV r m f).extg = t.extg := rfl
@[simp] theorem Team.writeV_runs : (t.writeV r m f).runs = t.runs := rfl
@[simp] theorem Team.writeV_s : (t.writeV r m f).s = t.s := rfl
@[simp] theorem Team.writeV_p : (t.writeV r m f).p = t.p := rfl
@[simp] theorem Team.writeV_q : (t.writeV r m f).q = t.q := rfl
@[simp] theorem Team.writeV_b : (t.writeV r m f).b = t.b := rfl
@[simp] theorem Team.writeV_k : (t.writeV r m f).k = t.k := rfl
@[simp] theorem Team.writeV_stack : (t.writeV r m f).stack = t.stack := rfl
@[simp] theorem Team.writeV_openNo : (t.writeV r m f).openNo = t.openNo := rfl
@[simp] theorem Team.writeV_openSeq : (t.writeV r m f).openSeq = t.openSeq := rfl
@[simp] theorem Team.writeV_sealed : (t.writeV r m f).sealed = t.sealed := rfl
@[simp] theorem Team.writeV_expand : (t.writeV r m f).expand = t.expand := rfl
@[simp] theorem Team.writeV_last : (t.writeV r m f).last = t.last := rfl
@[simp] theorem Team.writeV_act : (t.writeV r m f).act = t.act := rfl
@[simp] theorem Team.writeV_exited : (t.writeV r m f).exited = t.exited := rfl
@[simp] theorem Team.writeV_tmask : (t.writeV r m f).tmask = t.tmask := rfl
@[simp] theorem Team.writeV_hnd : (t.writeV r m f).hnd = t.hnd := rfl
@[simp] theorem Team.writeV_psave : (t.writeV r m f).psave = t.psave := rfl
@[simp] theorem Team.writeV_svl : (t.writeV r m f).svl = t.svl := rfl
@[simp] theorem Team.writeV_world : (t.writeV r m f).world = t.world := rfl
@[simp] theorem Team.writeV_stamp : (t.writeV r m f).stamp = t.stamp := rfl
@[simp] theorem Team.writeV_tbase : (t.writeV r m f).tbase = t.tbase := rfl
@[simp] theorem Team.writeV_saveptr : (t.writeV r m f).saveptr = t.saveptr := rfl
@[simp] theorem Team.writeV_ts : (t.writeV r m f).ts = t.ts := rfl
@[simp] theorem Team.writeV_fpstat : (t.writeV r m f).fpstat = t.fpstat := rfl
@[simp] theorem Team.writeV_srseed : (t.writeV r m f).srseed = t.srseed := rfl
@[simp] theorem Team.writeV_srstream : (t.writeV r m f).srstream = t.srstream := rfl
@[simp] theorem Team.writeV_svcvec : (t.writeV r m f).svcvec = t.svcvec := rfl
@[simp] theorem Team.writeV_pc : (t.writeV r m f).pc = t.pc := rfl
@[simp] theorem Team.writeV_clause : (t.writeV r m f).clause = t.clause := rfl
@[simp] theorem Team.writeV_clauseNo : (t.writeV r m f).clauseNo = t.clauseNo := rfl
@[simp] theorem Team.writeV_via : (t.writeV r m f).via = t.via := rfl
@[simp] theorem Team.writeV_target : (t.writeV r m f).target = t.target := rfl
@[simp] theorem Team.writeV_outst : (t.writeV r m f).outst = t.outst := rfl
@[simp] theorem Team.writeV_posted : (t.writeV r m f).posted = t.posted := rfl
@[simp] theorem Team.writeV_shadows : (t.writeV r m f).shadows = t.shadows := rfl
@[simp] theorem Team.writeV_resume : (t.writeV r m f).resume = t.resume := rfl
@[simp] theorem Team.writeV_park : (t.writeV r m f).park = t.park := rfl
@[simp] theorem Team.writeV_cleared : (t.writeV r m f).cleared = t.cleared := rfl
@[simp] theorem Team.writeV_pending : (t.writeV r m f).pending = t.pending := rfl
@[simp] theorem Team.writeV_late : (t.writeV r m f).late = t.late := rfl
@[simp] theorem Team.writeV_preempt : (t.writeV r m f).preempt = t.preempt := rfl
@[simp] theorem Team.writeV_wdogDue : (t.writeV r m f).wdogDue = t.wdogDue := rfl
@[simp] theorem Team.writeV_wdog : (t.writeV r m f).wdog = t.wdog := rfl
@[simp] theorem Team.writeV_yieldN : (t.writeV r m f).yieldN = t.yieldN := rfl
@[simp] theorem Team.writeV_yield : (t.writeV r m f).yield = t.yield := rfl
@[simp] theorem Team.writeV_port : (t.writeV r m f).port = t.port := rfl
@[simp] theorem Team.writeV_passed : (t.writeV r m f).passed = t.passed := rfl
@[simp] theorem Team.writeV_lastEnd : (t.writeV r m f).lastEnd = t.lastEnd := rfl
@[simp] theorem Team.writeV_lastY : (t.writeV r m f).lastY = t.lastY := rfl
@[simp] theorem Team.writeV_placed : (t.writeV r m f).placed = t.placed := rfl
@[simp] theorem Team.writeV_restored : (t.writeV r m f).restored = t.restored := rfl
@[simp] theorem Team.writeV_ended : (t.writeV r m f).ended = t.ended := rfl
@[simp] theorem Team.writeV_unacked : (t.writeV r m f).unacked = t.unacked := rfl

end

/-! ### `Team.writeS` -/

section
variable (t : Team) (r : Nat) (w : Word)

@[simp] theorem Team.writeS_id : (t.writeS r w).id = t.id := rfl
@[simp] theorem Team.writeS_ctx : (t.writeS r w).ctx = t.ctx := rfl
@[simp] theorem Team.writeS_core : (t.writeS r w).core = t.core := rfl
@[simp] theorem Team.writeS_sub : (t.writeS r w).sub = t.sub := rfl
@[simp] theorem Team.writeS_cast : (t.writeS r w).cast = t.cast := rfl
@[simp] theorem Team.writeS_cslot : (t.writeS r w).cslot = t.cslot := rfl
@[simp] theorem Team.writeS_grid : (t.writeS r w).grid = t.grid := rfl
@[simp] theorem Team.writeS_index : (t.writeS r w).index = t.index := rfl
@[simp] theorem Team.writeS_n : (t.writeS r w).n = t.n := rfl
@[simp] theorem Team.writeS_pri : (t.writeS r w).pri = t.pri := rfl
@[simp] theorem Team.writeS_lchk : (t.writeS r w).lchk = t.lchk := rfl
@[simp] theorem Team.writeS_base : (t.writeS r w).base = t.base := rfl
@[simp] theorem Team.writeS_extg : (t.writeS r w).extg = t.extg := rfl
@[simp] theorem Team.writeS_runs : (t.writeS r w).runs = t.runs := rfl
@[simp] theorem Team.writeS_v : (t.writeS r w).v = t.v := rfl
@[simp] theorem Team.writeS_p : (t.writeS r w).p = t.p := rfl
@[simp] theorem Team.writeS_q : (t.writeS r w).q = t.q := rfl
@[simp] theorem Team.writeS_b : (t.writeS r w).b = t.b := rfl
@[simp] theorem Team.writeS_k : (t.writeS r w).k = t.k := rfl
@[simp] theorem Team.writeS_stack : (t.writeS r w).stack = t.stack := rfl
@[simp] theorem Team.writeS_openNo : (t.writeS r w).openNo = t.openNo := rfl
@[simp] theorem Team.writeS_openSeq : (t.writeS r w).openSeq = t.openSeq := rfl
@[simp] theorem Team.writeS_sealed : (t.writeS r w).sealed = t.sealed := rfl
@[simp] theorem Team.writeS_expand : (t.writeS r w).expand = t.expand := rfl
@[simp] theorem Team.writeS_last : (t.writeS r w).last = t.last := rfl
@[simp] theorem Team.writeS_act : (t.writeS r w).act = t.act := rfl
@[simp] theorem Team.writeS_exited : (t.writeS r w).exited = t.exited := rfl
@[simp] theorem Team.writeS_tmask : (t.writeS r w).tmask = t.tmask := rfl
@[simp] theorem Team.writeS_hnd : (t.writeS r w).hnd = t.hnd := rfl
@[simp] theorem Team.writeS_psave : (t.writeS r w).psave = t.psave := rfl
@[simp] theorem Team.writeS_svl : (t.writeS r w).svl = t.svl := rfl
@[simp] theorem Team.writeS_world : (t.writeS r w).world = t.world := rfl
@[simp] theorem Team.writeS_stamp : (t.writeS r w).stamp = t.stamp := rfl
@[simp] theorem Team.writeS_tbase : (t.writeS r w).tbase = t.tbase := rfl
@[simp] theorem Team.writeS_saveptr : (t.writeS r w).saveptr = t.saveptr := rfl
@[simp] theorem Team.writeS_ts : (t.writeS r w).ts = t.ts := rfl
@[simp] theorem Team.writeS_fpstat : (t.writeS r w).fpstat = t.fpstat := rfl
@[simp] theorem Team.writeS_srseed : (t.writeS r w).srseed = t.srseed := rfl
@[simp] theorem Team.writeS_srstream : (t.writeS r w).srstream = t.srstream := rfl
@[simp] theorem Team.writeS_svcvec : (t.writeS r w).svcvec = t.svcvec := rfl
@[simp] theorem Team.writeS_pc : (t.writeS r w).pc = t.pc := rfl
@[simp] theorem Team.writeS_clause : (t.writeS r w).clause = t.clause := rfl
@[simp] theorem Team.writeS_clauseNo : (t.writeS r w).clauseNo = t.clauseNo := rfl
@[simp] theorem Team.writeS_via : (t.writeS r w).via = t.via := rfl
@[simp] theorem Team.writeS_target : (t.writeS r w).target = t.target := rfl
@[simp] theorem Team.writeS_outst : (t.writeS r w).outst = t.outst := rfl
@[simp] theorem Team.writeS_posted : (t.writeS r w).posted = t.posted := rfl
@[simp] theorem Team.writeS_shadows : (t.writeS r w).shadows = t.shadows := rfl
@[simp] theorem Team.writeS_resume : (t.writeS r w).resume = t.resume := rfl
@[simp] theorem Team.writeS_park : (t.writeS r w).park = t.park := rfl
@[simp] theorem Team.writeS_cleared : (t.writeS r w).cleared = t.cleared := rfl
@[simp] theorem Team.writeS_pending : (t.writeS r w).pending = t.pending := rfl
@[simp] theorem Team.writeS_late : (t.writeS r w).late = t.late := rfl
@[simp] theorem Team.writeS_preempt : (t.writeS r w).preempt = t.preempt := rfl
@[simp] theorem Team.writeS_wdogDue : (t.writeS r w).wdogDue = t.wdogDue := rfl
@[simp] theorem Team.writeS_wdog : (t.writeS r w).wdog = t.wdog := rfl
@[simp] theorem Team.writeS_yieldN : (t.writeS r w).yieldN = t.yieldN := rfl
@[simp] theorem Team.writeS_yield : (t.writeS r w).yield = t.yield := rfl
@[simp] theorem Team.writeS_port : (t.writeS r w).port = t.port := rfl
@[simp] theorem Team.writeS_passed : (t.writeS r w).passed = t.passed := rfl
@[simp] theorem Team.writeS_lastEnd : (t.writeS r w).lastEnd = t.lastEnd := rfl
@[simp] theorem Team.writeS_lastY : (t.writeS r w).lastY = t.lastY := rfl
@[simp] theorem Team.writeS_placed : (t.writeS r w).placed = t.placed := rfl
@[simp] theorem Team.writeS_restored : (t.writeS r w).restored = t.restored := rfl
@[simp] theorem Team.writeS_ended : (t.writeS r w).ended = t.ended := rfl
@[simp] theorem Team.writeS_unacked : (t.writeS r w).unacked = t.unacked := rfl

end

/-! ### `Team.writeSS` -/

section
variable (t : Team) (r : Nat) (d : DWord)

@[simp] theorem Team.writeSS_id : (t.writeSS r d).id = t.id := rfl
@[simp] theorem Team.writeSS_ctx : (t.writeSS r d).ctx = t.ctx := rfl
@[simp] theorem Team.writeSS_core : (t.writeSS r d).core = t.core := rfl
@[simp] theorem Team.writeSS_sub : (t.writeSS r d).sub = t.sub := rfl
@[simp] theorem Team.writeSS_cast : (t.writeSS r d).cast = t.cast := rfl
@[simp] theorem Team.writeSS_cslot : (t.writeSS r d).cslot = t.cslot := rfl
@[simp] theorem Team.writeSS_grid : (t.writeSS r d).grid = t.grid := rfl
@[simp] theorem Team.writeSS_index : (t.writeSS r d).index = t.index := rfl
@[simp] theorem Team.writeSS_n : (t.writeSS r d).n = t.n := rfl
@[simp] theorem Team.writeSS_pri : (t.writeSS r d).pri = t.pri := rfl
@[simp] theorem Team.writeSS_lchk : (t.writeSS r d).lchk = t.lchk := rfl
@[simp] theorem Team.writeSS_base : (t.writeSS r d).base = t.base := rfl
@[simp] theorem Team.writeSS_extg : (t.writeSS r d).extg = t.extg := rfl
@[simp] theorem Team.writeSS_runs : (t.writeSS r d).runs = t.runs := rfl
@[simp] theorem Team.writeSS_v : (t.writeSS r d).v = t.v := rfl
@[simp] theorem Team.writeSS_p : (t.writeSS r d).p = t.p := rfl
@[simp] theorem Team.writeSS_q : (t.writeSS r d).q = t.q := rfl
@[simp] theorem Team.writeSS_b : (t.writeSS r d).b = t.b := rfl
@[simp] theorem Team.writeSS_k : (t.writeSS r d).k = t.k := rfl
@[simp] theorem Team.writeSS_stack : (t.writeSS r d).stack = t.stack := rfl
@[simp] theorem Team.writeSS_openNo : (t.writeSS r d).openNo = t.openNo := rfl
@[simp] theorem Team.writeSS_openSeq : (t.writeSS r d).openSeq = t.openSeq := rfl
@[simp] theorem Team.writeSS_sealed : (t.writeSS r d).sealed = t.sealed := rfl
@[simp] theorem Team.writeSS_expand : (t.writeSS r d).expand = t.expand := rfl
@[simp] theorem Team.writeSS_last : (t.writeSS r d).last = t.last := rfl
@[simp] theorem Team.writeSS_act : (t.writeSS r d).act = t.act := rfl
@[simp] theorem Team.writeSS_exited : (t.writeSS r d).exited = t.exited := rfl
@[simp] theorem Team.writeSS_tmask : (t.writeSS r d).tmask = t.tmask := rfl
@[simp] theorem Team.writeSS_hnd : (t.writeSS r d).hnd = t.hnd := rfl
@[simp] theorem Team.writeSS_psave : (t.writeSS r d).psave = t.psave := rfl
@[simp] theorem Team.writeSS_svl : (t.writeSS r d).svl = t.svl := rfl
@[simp] theorem Team.writeSS_world : (t.writeSS r d).world = t.world := rfl
@[simp] theorem Team.writeSS_stamp : (t.writeSS r d).stamp = t.stamp := rfl
@[simp] theorem Team.writeSS_tbase : (t.writeSS r d).tbase = t.tbase := rfl
@[simp] theorem Team.writeSS_saveptr : (t.writeSS r d).saveptr = t.saveptr := rfl
@[simp] theorem Team.writeSS_ts : (t.writeSS r d).ts = t.ts := rfl
@[simp] theorem Team.writeSS_fpstat : (t.writeSS r d).fpstat = t.fpstat := rfl
@[simp] theorem Team.writeSS_srseed : (t.writeSS r d).srseed = t.srseed := rfl
@[simp] theorem Team.writeSS_srstream : (t.writeSS r d).srstream = t.srstream := rfl
@[simp] theorem Team.writeSS_svcvec : (t.writeSS r d).svcvec = t.svcvec := rfl
@[simp] theorem Team.writeSS_pc : (t.writeSS r d).pc = t.pc := rfl
@[simp] theorem Team.writeSS_clause : (t.writeSS r d).clause = t.clause := rfl
@[simp] theorem Team.writeSS_clauseNo : (t.writeSS r d).clauseNo = t.clauseNo := rfl
@[simp] theorem Team.writeSS_via : (t.writeSS r d).via = t.via := rfl
@[simp] theorem Team.writeSS_target : (t.writeSS r d).target = t.target := rfl
@[simp] theorem Team.writeSS_outst : (t.writeSS r d).outst = t.outst := rfl
@[simp] theorem Team.writeSS_posted : (t.writeSS r d).posted = t.posted := rfl
@[simp] theorem Team.writeSS_shadows : (t.writeSS r d).shadows = t.shadows := rfl
@[simp] theorem Team.writeSS_resume : (t.writeSS r d).resume = t.resume := rfl
@[simp] theorem Team.writeSS_park : (t.writeSS r d).park = t.park := rfl
@[simp] theorem Team.writeSS_cleared : (t.writeSS r d).cleared = t.cleared := rfl
@[simp] theorem Team.writeSS_pending : (t.writeSS r d).pending = t.pending := rfl
@[simp] theorem Team.writeSS_late : (t.writeSS r d).late = t.late := rfl
@[simp] theorem Team.writeSS_preempt : (t.writeSS r d).preempt = t.preempt := rfl
@[simp] theorem Team.writeSS_wdogDue : (t.writeSS r d).wdogDue = t.wdogDue := rfl
@[simp] theorem Team.writeSS_wdog : (t.writeSS r d).wdog = t.wdog := rfl
@[simp] theorem Team.writeSS_yieldN : (t.writeSS r d).yieldN = t.yieldN := rfl
@[simp] theorem Team.writeSS_yield : (t.writeSS r d).yield = t.yield := rfl
@[simp] theorem Team.writeSS_port : (t.writeSS r d).port = t.port := rfl
@[simp] theorem Team.writeSS_passed : (t.writeSS r d).passed = t.passed := rfl
@[simp] theorem Team.writeSS_lastEnd : (t.writeSS r d).lastEnd = t.lastEnd := rfl
@[simp] theorem Team.writeSS_lastY : (t.writeSS r d).lastY = t.lastY := rfl
@[simp] theorem Team.writeSS_placed : (t.writeSS r d).placed = t.placed := rfl
@[simp] theorem Team.writeSS_restored : (t.writeSS r d).restored = t.restored := rfl
@[simp] theorem Team.writeSS_ended : (t.writeSS r d).ended = t.ended := rfl
@[simp] theorem Team.writeSS_unacked : (t.writeSS r d).unacked = t.unacked := rfl

end

/-! ### `Team.writeQ` -/

section
variable (t : Team) (r : Nat) (b : Bool)

@[simp] theorem Team.writeQ_id : (t.writeQ r b).id = t.id := rfl
@[simp] theorem Team.writeQ_ctx : (t.writeQ r b).ctx = t.ctx := rfl
@[simp] theorem Team.writeQ_core : (t.writeQ r b).core = t.core := rfl
@[simp] theorem Team.writeQ_sub : (t.writeQ r b).sub = t.sub := rfl
@[simp] theorem Team.writeQ_cast : (t.writeQ r b).cast = t.cast := rfl
@[simp] theorem Team.writeQ_cslot : (t.writeQ r b).cslot = t.cslot := rfl
@[simp] theorem Team.writeQ_grid : (t.writeQ r b).grid = t.grid := rfl
@[simp] theorem Team.writeQ_index : (t.writeQ r b).index = t.index := rfl
@[simp] theorem Team.writeQ_n : (t.writeQ r b).n = t.n := rfl
@[simp] theorem Team.writeQ_pri : (t.writeQ r b).pri = t.pri := rfl
@[simp] theorem Team.writeQ_lchk : (t.writeQ r b).lchk = t.lchk := rfl
@[simp] theorem Team.writeQ_base : (t.writeQ r b).base = t.base := rfl
@[simp] theorem Team.writeQ_extg : (t.writeQ r b).extg = t.extg := rfl
@[simp] theorem Team.writeQ_runs : (t.writeQ r b).runs = t.runs := rfl
@[simp] theorem Team.writeQ_v : (t.writeQ r b).v = t.v := rfl
@[simp] theorem Team.writeQ_s : (t.writeQ r b).s = t.s := rfl
@[simp] theorem Team.writeQ_p : (t.writeQ r b).p = t.p := rfl
@[simp] theorem Team.writeQ_b : (t.writeQ r b).b = t.b := rfl
@[simp] theorem Team.writeQ_k : (t.writeQ r b).k = t.k := rfl
@[simp] theorem Team.writeQ_stack : (t.writeQ r b).stack = t.stack := rfl
@[simp] theorem Team.writeQ_openNo : (t.writeQ r b).openNo = t.openNo := rfl
@[simp] theorem Team.writeQ_openSeq : (t.writeQ r b).openSeq = t.openSeq := rfl
@[simp] theorem Team.writeQ_sealed : (t.writeQ r b).sealed = t.sealed := rfl
@[simp] theorem Team.writeQ_expand : (t.writeQ r b).expand = t.expand := rfl
@[simp] theorem Team.writeQ_last : (t.writeQ r b).last = t.last := rfl
@[simp] theorem Team.writeQ_act : (t.writeQ r b).act = t.act := rfl
@[simp] theorem Team.writeQ_exited : (t.writeQ r b).exited = t.exited := rfl
@[simp] theorem Team.writeQ_tmask : (t.writeQ r b).tmask = t.tmask := rfl
@[simp] theorem Team.writeQ_hnd : (t.writeQ r b).hnd = t.hnd := rfl
@[simp] theorem Team.writeQ_psave : (t.writeQ r b).psave = t.psave := rfl
@[simp] theorem Team.writeQ_svl : (t.writeQ r b).svl = t.svl := rfl
@[simp] theorem Team.writeQ_world : (t.writeQ r b).world = t.world := rfl
@[simp] theorem Team.writeQ_stamp : (t.writeQ r b).stamp = t.stamp := rfl
@[simp] theorem Team.writeQ_tbase : (t.writeQ r b).tbase = t.tbase := rfl
@[simp] theorem Team.writeQ_saveptr : (t.writeQ r b).saveptr = t.saveptr := rfl
@[simp] theorem Team.writeQ_ts : (t.writeQ r b).ts = t.ts := rfl
@[simp] theorem Team.writeQ_fpstat : (t.writeQ r b).fpstat = t.fpstat := rfl
@[simp] theorem Team.writeQ_srseed : (t.writeQ r b).srseed = t.srseed := rfl
@[simp] theorem Team.writeQ_srstream : (t.writeQ r b).srstream = t.srstream := rfl
@[simp] theorem Team.writeQ_svcvec : (t.writeQ r b).svcvec = t.svcvec := rfl
@[simp] theorem Team.writeQ_pc : (t.writeQ r b).pc = t.pc := rfl
@[simp] theorem Team.writeQ_clause : (t.writeQ r b).clause = t.clause := rfl
@[simp] theorem Team.writeQ_clauseNo : (t.writeQ r b).clauseNo = t.clauseNo := rfl
@[simp] theorem Team.writeQ_via : (t.writeQ r b).via = t.via := rfl
@[simp] theorem Team.writeQ_target : (t.writeQ r b).target = t.target := rfl
@[simp] theorem Team.writeQ_outst : (t.writeQ r b).outst = t.outst := rfl
@[simp] theorem Team.writeQ_posted : (t.writeQ r b).posted = t.posted := rfl
@[simp] theorem Team.writeQ_shadows : (t.writeQ r b).shadows = t.shadows := rfl
@[simp] theorem Team.writeQ_resume : (t.writeQ r b).resume = t.resume := rfl
@[simp] theorem Team.writeQ_park : (t.writeQ r b).park = t.park := rfl
@[simp] theorem Team.writeQ_cleared : (t.writeQ r b).cleared = t.cleared := rfl
@[simp] theorem Team.writeQ_pending : (t.writeQ r b).pending = t.pending := rfl
@[simp] theorem Team.writeQ_late : (t.writeQ r b).late = t.late := rfl
@[simp] theorem Team.writeQ_preempt : (t.writeQ r b).preempt = t.preempt := rfl
@[simp] theorem Team.writeQ_wdogDue : (t.writeQ r b).wdogDue = t.wdogDue := rfl
@[simp] theorem Team.writeQ_wdog : (t.writeQ r b).wdog = t.wdog := rfl
@[simp] theorem Team.writeQ_yieldN : (t.writeQ r b).yieldN = t.yieldN := rfl
@[simp] theorem Team.writeQ_yield : (t.writeQ r b).yield = t.yield := rfl
@[simp] theorem Team.writeQ_port : (t.writeQ r b).port = t.port := rfl
@[simp] theorem Team.writeQ_passed : (t.writeQ r b).passed = t.passed := rfl
@[simp] theorem Team.writeQ_lastEnd : (t.writeQ r b).lastEnd = t.lastEnd := rfl
@[simp] theorem Team.writeQ_lastY : (t.writeQ r b).lastY = t.lastY := rfl
@[simp] theorem Team.writeQ_placed : (t.writeQ r b).placed = t.placed := rfl
@[simp] theorem Team.writeQ_restored : (t.writeQ r b).restored = t.restored := rfl
@[simp] theorem Team.writeQ_ended : (t.writeQ r b).ended = t.ended := rfl
@[simp] theorem Team.writeQ_unacked : (t.writeQ r b).unacked = t.unacked := rfl

end

/-! ### `Team.writeK` -/

section
variable (t : Team) (r : Nat) (w : BitVec 16)

@[simp] theorem Team.writeK_id : (t.writeK r w).id = t.id := rfl
@[simp] theorem Team.writeK_ctx : (t.writeK r w).ctx = t.ctx := rfl
@[simp] theorem Team.writeK_core : (t.writeK r w).core = t.core := rfl
@[simp] theorem Team.writeK_sub : (t.writeK r w).sub = t.sub := rfl
@[simp] theorem Team.writeK_cast : (t.writeK r w).cast = t.cast := rfl
@[simp] theorem Team.writeK_cslot : (t.writeK r w).cslot = t.cslot := rfl
@[simp] theorem Team.writeK_grid : (t.writeK r w).grid = t.grid := rfl
@[simp] theorem Team.writeK_index : (t.writeK r w).index = t.index := rfl
@[simp] theorem Team.writeK_n : (t.writeK r w).n = t.n := rfl
@[simp] theorem Team.writeK_pri : (t.writeK r w).pri = t.pri := rfl
@[simp] theorem Team.writeK_lchk : (t.writeK r w).lchk = t.lchk := rfl
@[simp] theorem Team.writeK_base : (t.writeK r w).base = t.base := rfl
@[simp] theorem Team.writeK_extg : (t.writeK r w).extg = t.extg := rfl
@[simp] theorem Team.writeK_runs : (t.writeK r w).runs = t.runs := rfl
@[simp] theorem Team.writeK_v : (t.writeK r w).v = t.v := rfl
@[simp] theorem Team.writeK_s : (t.writeK r w).s = t.s := rfl
@[simp] theorem Team.writeK_p : (t.writeK r w).p = t.p := rfl
@[simp] theorem Team.writeK_q : (t.writeK r w).q = t.q := rfl
@[simp] theorem Team.writeK_b : (t.writeK r w).b = t.b := rfl
@[simp] theorem Team.writeK_stack : (t.writeK r w).stack = t.stack := rfl
@[simp] theorem Team.writeK_openNo : (t.writeK r w).openNo = t.openNo := rfl
@[simp] theorem Team.writeK_openSeq : (t.writeK r w).openSeq = t.openSeq := rfl
@[simp] theorem Team.writeK_sealed : (t.writeK r w).sealed = t.sealed := rfl
@[simp] theorem Team.writeK_expand : (t.writeK r w).expand = t.expand := rfl
@[simp] theorem Team.writeK_last : (t.writeK r w).last = t.last := rfl
@[simp] theorem Team.writeK_act : (t.writeK r w).act = t.act := rfl
@[simp] theorem Team.writeK_exited : (t.writeK r w).exited = t.exited := rfl
@[simp] theorem Team.writeK_tmask : (t.writeK r w).tmask = t.tmask := rfl
@[simp] theorem Team.writeK_hnd : (t.writeK r w).hnd = t.hnd := rfl
@[simp] theorem Team.writeK_psave : (t.writeK r w).psave = t.psave := rfl
@[simp] theorem Team.writeK_svl : (t.writeK r w).svl = t.svl := rfl
@[simp] theorem Team.writeK_world : (t.writeK r w).world = t.world := rfl
@[simp] theorem Team.writeK_stamp : (t.writeK r w).stamp = t.stamp := rfl
@[simp] theorem Team.writeK_tbase : (t.writeK r w).tbase = t.tbase := rfl
@[simp] theorem Team.writeK_saveptr : (t.writeK r w).saveptr = t.saveptr := rfl
@[simp] theorem Team.writeK_ts : (t.writeK r w).ts = t.ts := rfl
@[simp] theorem Team.writeK_fpstat : (t.writeK r w).fpstat = t.fpstat := rfl
@[simp] theorem Team.writeK_srseed : (t.writeK r w).srseed = t.srseed := rfl
@[simp] theorem Team.writeK_srstream : (t.writeK r w).srstream = t.srstream := rfl
@[simp] theorem Team.writeK_svcvec : (t.writeK r w).svcvec = t.svcvec := rfl
@[simp] theorem Team.writeK_pc : (t.writeK r w).pc = t.pc := rfl
@[simp] theorem Team.writeK_clause : (t.writeK r w).clause = t.clause := rfl
@[simp] theorem Team.writeK_clauseNo : (t.writeK r w).clauseNo = t.clauseNo := rfl
@[simp] theorem Team.writeK_via : (t.writeK r w).via = t.via := rfl
@[simp] theorem Team.writeK_target : (t.writeK r w).target = t.target := rfl
@[simp] theorem Team.writeK_outst : (t.writeK r w).outst = t.outst := rfl
@[simp] theorem Team.writeK_posted : (t.writeK r w).posted = t.posted := rfl
@[simp] theorem Team.writeK_shadows : (t.writeK r w).shadows = t.shadows := rfl
@[simp] theorem Team.writeK_resume : (t.writeK r w).resume = t.resume := rfl
@[simp] theorem Team.writeK_park : (t.writeK r w).park = t.park := rfl
@[simp] theorem Team.writeK_cleared : (t.writeK r w).cleared = t.cleared := rfl
@[simp] theorem Team.writeK_pending : (t.writeK r w).pending = t.pending := rfl
@[simp] theorem Team.writeK_late : (t.writeK r w).late = t.late := rfl
@[simp] theorem Team.writeK_preempt : (t.writeK r w).preempt = t.preempt := rfl
@[simp] theorem Team.writeK_wdogDue : (t.writeK r w).wdogDue = t.wdogDue := rfl
@[simp] theorem Team.writeK_wdog : (t.writeK r w).wdog = t.wdog := rfl
@[simp] theorem Team.writeK_yieldN : (t.writeK r w).yieldN = t.yieldN := rfl
@[simp] theorem Team.writeK_yield : (t.writeK r w).yield = t.yield := rfl
@[simp] theorem Team.writeK_port : (t.writeK r w).port = t.port := rfl
@[simp] theorem Team.writeK_passed : (t.writeK r w).passed = t.passed := rfl
@[simp] theorem Team.writeK_lastEnd : (t.writeK r w).lastEnd = t.lastEnd := rfl
@[simp] theorem Team.writeK_lastY : (t.writeK r w).lastY = t.lastY := rfl
@[simp] theorem Team.writeK_placed : (t.writeK r w).placed = t.placed := rfl
@[simp] theorem Team.writeK_restored : (t.writeK r w).restored = t.restored := rfl
@[simp] theorem Team.writeK_ended : (t.writeK r w).ended = t.ended := rfl
@[simp] theorem Team.writeK_unacked : (t.writeK r w).unacked = t.unacked := rfl

end

/-! ### `Team.bumpK` -/

section
variable (t : Team) (r : Nat)

@[simp] theorem Team.bumpK_id : (t.bumpK r).id = t.id := rfl
@[simp] theorem Team.bumpK_ctx : (t.bumpK r).ctx = t.ctx := rfl
@[simp] theorem Team.bumpK_core : (t.bumpK r).core = t.core := rfl
@[simp] theorem Team.bumpK_sub : (t.bumpK r).sub = t.sub := rfl
@[simp] theorem Team.bumpK_cast : (t.bumpK r).cast = t.cast := rfl
@[simp] theorem Team.bumpK_cslot : (t.bumpK r).cslot = t.cslot := rfl
@[simp] theorem Team.bumpK_grid : (t.bumpK r).grid = t.grid := rfl
@[simp] theorem Team.bumpK_index : (t.bumpK r).index = t.index := rfl
@[simp] theorem Team.bumpK_n : (t.bumpK r).n = t.n := rfl
@[simp] theorem Team.bumpK_pri : (t.bumpK r).pri = t.pri := rfl
@[simp] theorem Team.bumpK_lchk : (t.bumpK r).lchk = t.lchk := rfl
@[simp] theorem Team.bumpK_base : (t.bumpK r).base = t.base := rfl
@[simp] theorem Team.bumpK_extg : (t.bumpK r).extg = t.extg := rfl
@[simp] theorem Team.bumpK_runs : (t.bumpK r).runs = t.runs := rfl
@[simp] theorem Team.bumpK_v : (t.bumpK r).v = t.v := rfl
@[simp] theorem Team.bumpK_s : (t.bumpK r).s = t.s := rfl
@[simp] theorem Team.bumpK_p : (t.bumpK r).p = t.p := rfl
@[simp] theorem Team.bumpK_q : (t.bumpK r).q = t.q := rfl
@[simp] theorem Team.bumpK_b : (t.bumpK r).b = t.b := rfl
@[simp] theorem Team.bumpK_stack : (t.bumpK r).stack = t.stack := rfl
@[simp] theorem Team.bumpK_openNo : (t.bumpK r).openNo = t.openNo := rfl
@[simp] theorem Team.bumpK_openSeq : (t.bumpK r).openSeq = t.openSeq := rfl
@[simp] theorem Team.bumpK_sealed : (t.bumpK r).sealed = t.sealed := rfl
@[simp] theorem Team.bumpK_expand : (t.bumpK r).expand = t.expand := rfl
@[simp] theorem Team.bumpK_last : (t.bumpK r).last = t.last := rfl
@[simp] theorem Team.bumpK_act : (t.bumpK r).act = t.act := rfl
@[simp] theorem Team.bumpK_exited : (t.bumpK r).exited = t.exited := rfl
@[simp] theorem Team.bumpK_tmask : (t.bumpK r).tmask = t.tmask := rfl
@[simp] theorem Team.bumpK_hnd : (t.bumpK r).hnd = t.hnd := rfl
@[simp] theorem Team.bumpK_psave : (t.bumpK r).psave = t.psave := rfl
@[simp] theorem Team.bumpK_svl : (t.bumpK r).svl = t.svl := rfl
@[simp] theorem Team.bumpK_world : (t.bumpK r).world = t.world := rfl
@[simp] theorem Team.bumpK_stamp : (t.bumpK r).stamp = t.stamp := rfl
@[simp] theorem Team.bumpK_tbase : (t.bumpK r).tbase = t.tbase := rfl
@[simp] theorem Team.bumpK_saveptr : (t.bumpK r).saveptr = t.saveptr := rfl
@[simp] theorem Team.bumpK_ts : (t.bumpK r).ts = t.ts := rfl
@[simp] theorem Team.bumpK_fpstat : (t.bumpK r).fpstat = t.fpstat := rfl
@[simp] theorem Team.bumpK_srseed : (t.bumpK r).srseed = t.srseed := rfl
@[simp] theorem Team.bumpK_srstream : (t.bumpK r).srstream = t.srstream := rfl
@[simp] theorem Team.bumpK_svcvec : (t.bumpK r).svcvec = t.svcvec := rfl
@[simp] theorem Team.bumpK_pc : (t.bumpK r).pc = t.pc := rfl
@[simp] theorem Team.bumpK_clause : (t.bumpK r).clause = t.clause := rfl
@[simp] theorem Team.bumpK_clauseNo : (t.bumpK r).clauseNo = t.clauseNo := rfl
@[simp] theorem Team.bumpK_via : (t.bumpK r).via = t.via := rfl
@[simp] theorem Team.bumpK_target : (t.bumpK r).target = t.target := rfl
@[simp] theorem Team.bumpK_outst : (t.bumpK r).outst = t.outst := rfl
@[simp] theorem Team.bumpK_posted : (t.bumpK r).posted = t.posted := rfl
@[simp] theorem Team.bumpK_shadows : (t.bumpK r).shadows = t.shadows := rfl
@[simp] theorem Team.bumpK_resume : (t.bumpK r).resume = t.resume := rfl
@[simp] theorem Team.bumpK_park : (t.bumpK r).park = t.park := rfl
@[simp] theorem Team.bumpK_cleared : (t.bumpK r).cleared = t.cleared := rfl
@[simp] theorem Team.bumpK_pending : (t.bumpK r).pending = t.pending := rfl
@[simp] theorem Team.bumpK_late : (t.bumpK r).late = t.late := rfl
@[simp] theorem Team.bumpK_preempt : (t.bumpK r).preempt = t.preempt := rfl
@[simp] theorem Team.bumpK_wdogDue : (t.bumpK r).wdogDue = t.wdogDue := rfl
@[simp] theorem Team.bumpK_wdog : (t.bumpK r).wdog = t.wdog := rfl
@[simp] theorem Team.bumpK_yieldN : (t.bumpK r).yieldN = t.yieldN := rfl
@[simp] theorem Team.bumpK_port : (t.bumpK r).port = t.port := rfl
@[simp] theorem Team.bumpK_passed : (t.bumpK r).passed = t.passed := rfl
@[simp] theorem Team.bumpK_lastEnd : (t.bumpK r).lastEnd = t.lastEnd := rfl
@[simp] theorem Team.bumpK_lastY : (t.bumpK r).lastY = t.lastY := rfl
@[simp] theorem Team.bumpK_placed : (t.bumpK r).placed = t.placed := rfl
@[simp] theorem Team.bumpK_restored : (t.bumpK r).restored = t.restored := rfl
@[simp] theorem Team.bumpK_ended : (t.bumpK r).ended = t.ended := rfl
@[simp] theorem Team.bumpK_unacked : (t.bumpK r).unacked = t.unacked := rfl

end

/-! ### `Team.writeTS` -/

section
variable (t : Team) (r : Nat) (d : DWord)

@[simp] theorem Team.writeTS_id : (t.writeTS r d).id = t.id := rfl
@[simp] theorem Team.writeTS_ctx : (t.writeTS r d).ctx = t.ctx := rfl
@[simp] theorem Team.writeTS_core : (t.writeTS r d).core = t.core := rfl
@[simp] theorem Team.writeTS_sub : (t.writeTS r d).sub = t.sub := rfl
@[simp] theorem Team.writeTS_cast : (t.writeTS r d).cast = t.cast := rfl
@[simp] theorem Team.writeTS_cslot : (t.writeTS r d).cslot = t.cslot := rfl
@[simp] theorem Team.writeTS_grid : (t.writeTS r d).grid = t.grid := rfl
@[simp] theorem Team.writeTS_index : (t.writeTS r d).index = t.index := rfl
@[simp] theorem Team.writeTS_n : (t.writeTS r d).n = t.n := rfl
@[simp] theorem Team.writeTS_pri : (t.writeTS r d).pri = t.pri := rfl
@[simp] theorem Team.writeTS_lchk : (t.writeTS r d).lchk = t.lchk := rfl
@[simp] theorem Team.writeTS_base : (t.writeTS r d).base = t.base := rfl
@[simp] theorem Team.writeTS_extg : (t.writeTS r d).extg = t.extg := rfl
@[simp] theorem Team.writeTS_runs : (t.writeTS r d).runs = t.runs := rfl
@[simp] theorem Team.writeTS_v : (t.writeTS r d).v = t.v := rfl
@[simp] theorem Team.writeTS_s : (t.writeTS r d).s = t.s := rfl
@[simp] theorem Team.writeTS_p : (t.writeTS r d).p = t.p := rfl
@[simp] theorem Team.writeTS_q : (t.writeTS r d).q = t.q := rfl
@[simp] theorem Team.writeTS_b : (t.writeTS r d).b = t.b := rfl
@[simp] theorem Team.writeTS_k : (t.writeTS r d).k = t.k := rfl
@[simp] theorem Team.writeTS_stack : (t.writeTS r d).stack = t.stack := rfl
@[simp] theorem Team.writeTS_openNo : (t.writeTS r d).openNo = t.openNo := rfl
@[simp] theorem Team.writeTS_openSeq : (t.writeTS r d).openSeq = t.openSeq := rfl
@[simp] theorem Team.writeTS_sealed : (t.writeTS r d).sealed = t.sealed := rfl
@[simp] theorem Team.writeTS_expand : (t.writeTS r d).expand = t.expand := rfl
@[simp] theorem Team.writeTS_last : (t.writeTS r d).last = t.last := rfl
@[simp] theorem Team.writeTS_act : (t.writeTS r d).act = t.act := rfl
@[simp] theorem Team.writeTS_exited : (t.writeTS r d).exited = t.exited := rfl
@[simp] theorem Team.writeTS_tmask : (t.writeTS r d).tmask = t.tmask := rfl
@[simp] theorem Team.writeTS_hnd : (t.writeTS r d).hnd = t.hnd := rfl
@[simp] theorem Team.writeTS_psave : (t.writeTS r d).psave = t.psave := rfl
@[simp] theorem Team.writeTS_svl : (t.writeTS r d).svl = t.svl := rfl
@[simp] theorem Team.writeTS_world : (t.writeTS r d).world = t.world := rfl
@[simp] theorem Team.writeTS_stamp : (t.writeTS r d).stamp = t.stamp := rfl
@[simp] theorem Team.writeTS_tbase : (t.writeTS r d).tbase = t.tbase := rfl
@[simp] theorem Team.writeTS_saveptr : (t.writeTS r d).saveptr = t.saveptr := rfl
@[simp] theorem Team.writeTS_fpstat : (t.writeTS r d).fpstat = t.fpstat := rfl
@[simp] theorem Team.writeTS_srseed : (t.writeTS r d).srseed = t.srseed := rfl
@[simp] theorem Team.writeTS_srstream : (t.writeTS r d).srstream = t.srstream := rfl
@[simp] theorem Team.writeTS_svcvec : (t.writeTS r d).svcvec = t.svcvec := rfl
@[simp] theorem Team.writeTS_pc : (t.writeTS r d).pc = t.pc := rfl
@[simp] theorem Team.writeTS_clause : (t.writeTS r d).clause = t.clause := rfl
@[simp] theorem Team.writeTS_clauseNo : (t.writeTS r d).clauseNo = t.clauseNo := rfl
@[simp] theorem Team.writeTS_via : (t.writeTS r d).via = t.via := rfl
@[simp] theorem Team.writeTS_target : (t.writeTS r d).target = t.target := rfl
@[simp] theorem Team.writeTS_outst : (t.writeTS r d).outst = t.outst := rfl
@[simp] theorem Team.writeTS_posted : (t.writeTS r d).posted = t.posted := rfl
@[simp] theorem Team.writeTS_shadows : (t.writeTS r d).shadows = t.shadows := rfl
@[simp] theorem Team.writeTS_resume : (t.writeTS r d).resume = t.resume := rfl
@[simp] theorem Team.writeTS_park : (t.writeTS r d).park = t.park := rfl
@[simp] theorem Team.writeTS_cleared : (t.writeTS r d).cleared = t.cleared := rfl
@[simp] theorem Team.writeTS_pending : (t.writeTS r d).pending = t.pending := rfl
@[simp] theorem Team.writeTS_late : (t.writeTS r d).late = t.late := rfl
@[simp] theorem Team.writeTS_preempt : (t.writeTS r d).preempt = t.preempt := rfl
@[simp] theorem Team.writeTS_wdogDue : (t.writeTS r d).wdogDue = t.wdogDue := rfl
@[simp] theorem Team.writeTS_wdog : (t.writeTS r d).wdog = t.wdog := rfl
@[simp] theorem Team.writeTS_yieldN : (t.writeTS r d).yieldN = t.yieldN := rfl
@[simp] theorem Team.writeTS_yield : (t.writeTS r d).yield = t.yield := rfl
@[simp] theorem Team.writeTS_port : (t.writeTS r d).port = t.port := rfl
@[simp] theorem Team.writeTS_passed : (t.writeTS r d).passed = t.passed := rfl
@[simp] theorem Team.writeTS_lastEnd : (t.writeTS r d).lastEnd = t.lastEnd := rfl
@[simp] theorem Team.writeTS_lastY : (t.writeTS r d).lastY = t.lastY := rfl
@[simp] theorem Team.writeTS_placed : (t.writeTS r d).placed = t.placed := rfl
@[simp] theorem Team.writeTS_restored : (t.writeTS r d).restored = t.restored := rfl
@[simp] theorem Team.writeTS_ended : (t.writeTS r d).ended = t.ended := rfl
@[simp] theorem Team.writeTS_unacked : (t.writeTS r d).unacked = t.unacked := rfl

end

/-! ### `Team.setBranch` -/

section
variable (t : Team) (r : Nat) (b : Branch)

@[simp] theorem Team.setBranch_id : (t.setBranch r b).id = t.id := rfl
@[simp] theorem Team.setBranch_ctx : (t.setBranch r b).ctx = t.ctx := rfl
@[simp] theorem Team.setBranch_core : (t.setBranch r b).core = t.core := rfl
@[simp] theorem Team.setBranch_sub : (t.setBranch r b).sub = t.sub := rfl
@[simp] theorem Team.setBranch_cast : (t.setBranch r b).cast = t.cast := rfl
@[simp] theorem Team.setBranch_cslot : (t.setBranch r b).cslot = t.cslot := rfl
@[simp] theorem Team.setBranch_grid : (t.setBranch r b).grid = t.grid := rfl
@[simp] theorem Team.setBranch_index : (t.setBranch r b).index = t.index := rfl
@[simp] theorem Team.setBranch_n : (t.setBranch r b).n = t.n := rfl
@[simp] theorem Team.setBranch_pri : (t.setBranch r b).pri = t.pri := rfl
@[simp] theorem Team.setBranch_lchk : (t.setBranch r b).lchk = t.lchk := rfl
@[simp] theorem Team.setBranch_base : (t.setBranch r b).base = t.base := rfl
@[simp] theorem Team.setBranch_extg : (t.setBranch r b).extg = t.extg := rfl
@[simp] theorem Team.setBranch_runs : (t.setBranch r b).runs = t.runs := rfl
@[simp] theorem Team.setBranch_v : (t.setBranch r b).v = t.v := rfl
@[simp] theorem Team.setBranch_s : (t.setBranch r b).s = t.s := rfl
@[simp] theorem Team.setBranch_p : (t.setBranch r b).p = t.p := rfl
@[simp] theorem Team.setBranch_q : (t.setBranch r b).q = t.q := rfl
@[simp] theorem Team.setBranch_k : (t.setBranch r b).k = t.k := rfl
@[simp] theorem Team.setBranch_stack : (t.setBranch r b).stack = t.stack := rfl
@[simp] theorem Team.setBranch_openNo : (t.setBranch r b).openNo = t.openNo := rfl
@[simp] theorem Team.setBranch_openSeq : (t.setBranch r b).openSeq = t.openSeq := rfl
@[simp] theorem Team.setBranch_sealed : (t.setBranch r b).sealed = t.sealed := rfl
@[simp] theorem Team.setBranch_expand : (t.setBranch r b).expand = t.expand := rfl
@[simp] theorem Team.setBranch_last : (t.setBranch r b).last = t.last := rfl
@[simp] theorem Team.setBranch_act : (t.setBranch r b).act = t.act := rfl
@[simp] theorem Team.setBranch_exited : (t.setBranch r b).exited = t.exited := rfl
@[simp] theorem Team.setBranch_tmask : (t.setBranch r b).tmask = t.tmask := rfl
@[simp] theorem Team.setBranch_hnd : (t.setBranch r b).hnd = t.hnd := rfl
@[simp] theorem Team.setBranch_psave : (t.setBranch r b).psave = t.psave := rfl
@[simp] theorem Team.setBranch_svl : (t.setBranch r b).svl = t.svl := rfl
@[simp] theorem Team.setBranch_world : (t.setBranch r b).world = t.world := rfl
@[simp] theorem Team.setBranch_stamp : (t.setBranch r b).stamp = t.stamp := rfl
@[simp] theorem Team.setBranch_tbase : (t.setBranch r b).tbase = t.tbase := rfl
@[simp] theorem Team.setBranch_saveptr : (t.setBranch r b).saveptr = t.saveptr := rfl
@[simp] theorem Team.setBranch_ts : (t.setBranch r b).ts = t.ts := rfl
@[simp] theorem Team.setBranch_fpstat : (t.setBranch r b).fpstat = t.fpstat := rfl
@[simp] theorem Team.setBranch_srseed : (t.setBranch r b).srseed = t.srseed := rfl
@[simp] theorem Team.setBranch_srstream : (t.setBranch r b).srstream = t.srstream := rfl
@[simp] theorem Team.setBranch_svcvec : (t.setBranch r b).svcvec = t.svcvec := rfl
@[simp] theorem Team.setBranch_pc : (t.setBranch r b).pc = t.pc := rfl
@[simp] theorem Team.setBranch_clause : (t.setBranch r b).clause = t.clause := rfl
@[simp] theorem Team.setBranch_clauseNo : (t.setBranch r b).clauseNo = t.clauseNo := rfl
@[simp] theorem Team.setBranch_via : (t.setBranch r b).via = t.via := rfl
@[simp] theorem Team.setBranch_target : (t.setBranch r b).target = t.target := rfl
@[simp] theorem Team.setBranch_outst : (t.setBranch r b).outst = t.outst := rfl
@[simp] theorem Team.setBranch_posted : (t.setBranch r b).posted = t.posted := rfl
@[simp] theorem Team.setBranch_shadows : (t.setBranch r b).shadows = t.shadows := rfl
@[simp] theorem Team.setBranch_resume : (t.setBranch r b).resume = t.resume := rfl
@[simp] theorem Team.setBranch_park : (t.setBranch r b).park = t.park := rfl
@[simp] theorem Team.setBranch_cleared : (t.setBranch r b).cleared = t.cleared := rfl
@[simp] theorem Team.setBranch_pending : (t.setBranch r b).pending = t.pending := rfl
@[simp] theorem Team.setBranch_late : (t.setBranch r b).late = t.late := rfl
@[simp] theorem Team.setBranch_preempt : (t.setBranch r b).preempt = t.preempt := rfl
@[simp] theorem Team.setBranch_wdogDue : (t.setBranch r b).wdogDue = t.wdogDue := rfl
@[simp] theorem Team.setBranch_wdog : (t.setBranch r b).wdog = t.wdog := rfl
@[simp] theorem Team.setBranch_yieldN : (t.setBranch r b).yieldN = t.yieldN := rfl
@[simp] theorem Team.setBranch_yield : (t.setBranch r b).yield = t.yield := rfl
@[simp] theorem Team.setBranch_port : (t.setBranch r b).port = t.port := rfl
@[simp] theorem Team.setBranch_passed : (t.setBranch r b).passed = t.passed := rfl
@[simp] theorem Team.setBranch_lastEnd : (t.setBranch r b).lastEnd = t.lastEnd := rfl
@[simp] theorem Team.setBranch_lastY : (t.setBranch r b).lastY = t.lastY := rfl
@[simp] theorem Team.setBranch_placed : (t.setBranch r b).placed = t.placed := rfl
@[simp] theorem Team.setBranch_restored : (t.setBranch r b).restored = t.restored := rfl
@[simp] theorem Team.setBranch_ended : (t.setBranch r b).ended = t.ended := rfl
@[simp] theorem Team.setBranch_unacked : (t.setBranch r b).unacked = t.unacked := rfl

end

/-! ### `Team.raise` -/

section
variable (t : Team) (f : Flags)

@[simp] theorem Team.raise_id : (t.raise f).id = t.id := rfl
@[simp] theorem Team.raise_ctx : (t.raise f).ctx = t.ctx := rfl
@[simp] theorem Team.raise_core : (t.raise f).core = t.core := rfl
@[simp] theorem Team.raise_sub : (t.raise f).sub = t.sub := rfl
@[simp] theorem Team.raise_cast : (t.raise f).cast = t.cast := rfl
@[simp] theorem Team.raise_cslot : (t.raise f).cslot = t.cslot := rfl
@[simp] theorem Team.raise_grid : (t.raise f).grid = t.grid := rfl
@[simp] theorem Team.raise_index : (t.raise f).index = t.index := rfl
@[simp] theorem Team.raise_n : (t.raise f).n = t.n := rfl
@[simp] theorem Team.raise_pri : (t.raise f).pri = t.pri := rfl
@[simp] theorem Team.raise_lchk : (t.raise f).lchk = t.lchk := rfl
@[simp] theorem Team.raise_base : (t.raise f).base = t.base := rfl
@[simp] theorem Team.raise_extg : (t.raise f).extg = t.extg := rfl
@[simp] theorem Team.raise_runs : (t.raise f).runs = t.runs := rfl
@[simp] theorem Team.raise_v : (t.raise f).v = t.v := rfl
@[simp] theorem Team.raise_s : (t.raise f).s = t.s := rfl
@[simp] theorem Team.raise_p : (t.raise f).p = t.p := rfl
@[simp] theorem Team.raise_q : (t.raise f).q = t.q := rfl
@[simp] theorem Team.raise_b : (t.raise f).b = t.b := rfl
@[simp] theorem Team.raise_k : (t.raise f).k = t.k := rfl
@[simp] theorem Team.raise_stack : (t.raise f).stack = t.stack := rfl
@[simp] theorem Team.raise_openNo : (t.raise f).openNo = t.openNo := rfl
@[simp] theorem Team.raise_openSeq : (t.raise f).openSeq = t.openSeq := rfl
@[simp] theorem Team.raise_sealed : (t.raise f).sealed = t.sealed := rfl
@[simp] theorem Team.raise_expand : (t.raise f).expand = t.expand := rfl
@[simp] theorem Team.raise_last : (t.raise f).last = t.last := rfl
@[simp] theorem Team.raise_act : (t.raise f).act = t.act := rfl
@[simp] theorem Team.raise_exited : (t.raise f).exited = t.exited := rfl
@[simp] theorem Team.raise_tmask : (t.raise f).tmask = t.tmask := rfl
@[simp] theorem Team.raise_hnd : (t.raise f).hnd = t.hnd := rfl
@[simp] theorem Team.raise_psave : (t.raise f).psave = t.psave := rfl
@[simp] theorem Team.raise_svl : (t.raise f).svl = t.svl := rfl
@[simp] theorem Team.raise_world : (t.raise f).world = t.world := rfl
@[simp] theorem Team.raise_stamp : (t.raise f).stamp = t.stamp := rfl
@[simp] theorem Team.raise_tbase : (t.raise f).tbase = t.tbase := rfl
@[simp] theorem Team.raise_saveptr : (t.raise f).saveptr = t.saveptr := rfl
@[simp] theorem Team.raise_ts : (t.raise f).ts = t.ts := rfl
@[simp] theorem Team.raise_srseed : (t.raise f).srseed = t.srseed := rfl
@[simp] theorem Team.raise_srstream : (t.raise f).srstream = t.srstream := rfl
@[simp] theorem Team.raise_svcvec : (t.raise f).svcvec = t.svcvec := rfl
@[simp] theorem Team.raise_pc : (t.raise f).pc = t.pc := rfl
@[simp] theorem Team.raise_clause : (t.raise f).clause = t.clause := rfl
@[simp] theorem Team.raise_clauseNo : (t.raise f).clauseNo = t.clauseNo := rfl
@[simp] theorem Team.raise_via : (t.raise f).via = t.via := rfl
@[simp] theorem Team.raise_target : (t.raise f).target = t.target := rfl
@[simp] theorem Team.raise_outst : (t.raise f).outst = t.outst := rfl
@[simp] theorem Team.raise_posted : (t.raise f).posted = t.posted := rfl
@[simp] theorem Team.raise_shadows : (t.raise f).shadows = t.shadows := rfl
@[simp] theorem Team.raise_resume : (t.raise f).resume = t.resume := rfl
@[simp] theorem Team.raise_park : (t.raise f).park = t.park := rfl
@[simp] theorem Team.raise_cleared : (t.raise f).cleared = t.cleared := rfl
@[simp] theorem Team.raise_pending : (t.raise f).pending = t.pending := rfl
@[simp] theorem Team.raise_late : (t.raise f).late = t.late := rfl
@[simp] theorem Team.raise_preempt : (t.raise f).preempt = t.preempt := rfl
@[simp] theorem Team.raise_wdogDue : (t.raise f).wdogDue = t.wdogDue := rfl
@[simp] theorem Team.raise_wdog : (t.raise f).wdog = t.wdog := rfl
@[simp] theorem Team.raise_yieldN : (t.raise f).yieldN = t.yieldN := rfl
@[simp] theorem Team.raise_yield : (t.raise f).yield = t.yield := rfl
@[simp] theorem Team.raise_port : (t.raise f).port = t.port := rfl
@[simp] theorem Team.raise_passed : (t.raise f).passed = t.passed := rfl
@[simp] theorem Team.raise_lastEnd : (t.raise f).lastEnd = t.lastEnd := rfl
@[simp] theorem Team.raise_lastY : (t.raise f).lastY = t.lastY := rfl
@[simp] theorem Team.raise_placed : (t.raise f).placed = t.placed := rfl
@[simp] theorem Team.raise_restored : (t.raise f).restored = t.restored := rfl
@[simp] theorem Team.raise_ended : (t.raise f).ended = t.ended := rfl
@[simp] theorem Team.raise_unacked : (t.raise f).unacked = t.unacked := rfl

end

/-! ### `Team.writeP` -/

section
variable (t : Team) (r : Nat) (m v : Mask)

@[simp] theorem Team.writeP_id : (t.writeP r m v).id = t.id := by unfold Team.writeP; split <;> rfl
@[simp] theorem Team.writeP_ctx : (t.writeP r m v).ctx = t.ctx := by unfold Team.writeP; split <;> rfl
@[simp] theorem Team.writeP_core : (t.writeP r m v).core = t.core := by unfold Team.writeP; split <;> rfl
@[simp] theorem Team.writeP_sub : (t.writeP r m v).sub = t.sub := by unfold Team.writeP; split <;> rfl
@[simp] theorem Team.writeP_cast : (t.writeP r m v).cast = t.cast := by unfold Team.writeP; split <;> rfl
@[simp] theorem Team.writeP_cslot : (t.writeP r m v).cslot = t.cslot := by unfold Team.writeP; split <;> rfl
@[simp] theorem Team.writeP_grid : (t.writeP r m v).grid = t.grid := by unfold Team.writeP; split <;> rfl
@[simp] theorem Team.writeP_index : (t.writeP r m v).index = t.index := by unfold Team.writeP; split <;> rfl
@[simp] theorem Team.writeP_n : (t.writeP r m v).n = t.n := by unfold Team.writeP; split <;> rfl
@[simp] theorem Team.writeP_pri : (t.writeP r m v).pri = t.pri := by unfold Team.writeP; split <;> rfl
@[simp] theorem Team.writeP_lchk : (t.writeP r m v).lchk = t.lchk := by unfold Team.writeP; split <;> rfl
@[simp] theorem Team.writeP_base : (t.writeP r m v).base = t.base := by unfold Team.writeP; split <;> rfl
@[simp] theorem Team.writeP_extg : (t.writeP r m v).extg = t.extg := by unfold Team.writeP; split <;> rfl
@[simp] theorem Team.writeP_runs : (t.writeP r m v).runs = t.runs := by unfold Team.writeP; split <;> rfl
@[simp] theorem Team.writeP_v : (t.writeP r m v).v = t.v := by unfold Team.writeP; split <;> rfl
@[simp] theorem Team.writeP_s : (t.writeP r m v).s = t.s := by unfold Team.writeP; split <;> rfl
@[simp] theorem Team.writeP_q : (t.writeP r m v).q = t.q := by unfold Team.writeP; split <;> rfl
@[simp] theorem Team.writeP_b : (t.writeP r m v).b = t.b := by unfold Team.writeP; split <;> rfl
@[simp] theorem Team.writeP_k : (t.writeP r m v).k = t.k := by unfold Team.writeP; split <;> rfl
@[simp] theorem Team.writeP_stack : (t.writeP r m v).stack = t.stack := by unfold Team.writeP; split <;> rfl
@[simp] theorem Team.writeP_openNo : (t.writeP r m v).openNo = t.openNo := by unfold Team.writeP; split <;> rfl
@[simp] theorem Team.writeP_openSeq : (t.writeP r m v).openSeq = t.openSeq := by unfold Team.writeP; split <;> rfl
@[simp] theorem Team.writeP_sealed : (t.writeP r m v).sealed = t.sealed := by unfold Team.writeP; split <;> rfl
@[simp] theorem Team.writeP_expand : (t.writeP r m v).expand = t.expand := by unfold Team.writeP; split <;> rfl
@[simp] theorem Team.writeP_last : (t.writeP r m v).last = t.last := by unfold Team.writeP; split <;> rfl
@[simp] theorem Team.writeP_act : (t.writeP r m v).act = t.act := by unfold Team.writeP; split <;> rfl
@[simp] theorem Team.writeP_exited : (t.writeP r m v).exited = t.exited := by unfold Team.writeP; split <;> rfl
@[simp] theorem Team.writeP_tmask : (t.writeP r m v).tmask = t.tmask := by unfold Team.writeP; split <;> rfl
@[simp] theorem Team.writeP_hnd : (t.writeP r m v).hnd = t.hnd := by unfold Team.writeP; split <;> rfl
@[simp] theorem Team.writeP_psave : (t.writeP r m v).psave = t.psave := by unfold Team.writeP; split <;> rfl
@[simp] theorem Team.writeP_svl : (t.writeP r m v).svl = t.svl := by unfold Team.writeP; split <;> rfl
@[simp] theorem Team.writeP_world : (t.writeP r m v).world = t.world := by unfold Team.writeP; split <;> rfl
@[simp] theorem Team.writeP_stamp : (t.writeP r m v).stamp = t.stamp := by unfold Team.writeP; split <;> rfl
@[simp] theorem Team.writeP_tbase : (t.writeP r m v).tbase = t.tbase := by unfold Team.writeP; split <;> rfl
@[simp] theorem Team.writeP_saveptr : (t.writeP r m v).saveptr = t.saveptr := by unfold Team.writeP; split <;> rfl
@[simp] theorem Team.writeP_ts : (t.writeP r m v).ts = t.ts := by unfold Team.writeP; split <;> rfl
@[simp] theorem Team.writeP_fpstat : (t.writeP r m v).fpstat = t.fpstat := by unfold Team.writeP; split <;> rfl
@[simp] theorem Team.writeP_srseed : (t.writeP r m v).srseed = t.srseed := by unfold Team.writeP; split <;> rfl
@[simp] theorem Team.writeP_srstream : (t.writeP r m v).srstream = t.srstream := by unfold Team.writeP; split <;> rfl
@[simp] theorem Team.writeP_svcvec : (t.writeP r m v).svcvec = t.svcvec := by unfold Team.writeP; split <;> rfl
@[simp] theorem Team.writeP_pc : (t.writeP r m v).pc = t.pc := by unfold Team.writeP; split <;> rfl
@[simp] theorem Team.writeP_clause : (t.writeP r m v).clause = t.clause := by unfold Team.writeP; split <;> rfl
@[simp] theorem Team.writeP_clauseNo : (t.writeP r m v).clauseNo = t.clauseNo := by unfold Team.writeP; split <;> rfl
@[simp] theorem Team.writeP_via : (t.writeP r m v).via = t.via := by unfold Team.writeP; split <;> rfl
@[simp] theorem Team.writeP_target : (t.writeP r m v).target = t.target := by unfold Team.writeP; split <;> rfl
@[simp] theorem Team.writeP_outst : (t.writeP r m v).outst = t.outst := by unfold Team.writeP; split <;> rfl
@[simp] theorem Team.writeP_posted : (t.writeP r m v).posted = t.posted := by unfold Team.writeP; split <;> rfl
@[simp] theorem Team.writeP_shadows : (t.writeP r m v).shadows = t.shadows := by unfold Team.writeP; split <;> rfl
@[simp] theorem Team.writeP_resume : (t.writeP r m v).resume = t.resume := by unfold Team.writeP; split <;> rfl
@[simp] theorem Team.writeP_park : (t.writeP r m v).park = t.park := by unfold Team.writeP; split <;> rfl
@[simp] theorem Team.writeP_cleared : (t.writeP r m v).cleared = t.cleared := by unfold Team.writeP; split <;> rfl
@[simp] theorem Team.writeP_pending : (t.writeP r m v).pending = t.pending := by unfold Team.writeP; split <;> rfl
@[simp] theorem Team.writeP_late : (t.writeP r m v).late = t.late := by unfold Team.writeP; split <;> rfl
@[simp] theorem Team.writeP_preempt : (t.writeP r m v).preempt = t.preempt := by unfold Team.writeP; split <;> rfl
@[simp] theorem Team.writeP_wdogDue : (t.writeP r m v).wdogDue = t.wdogDue := by unfold Team.writeP; split <;> rfl
@[simp] theorem Team.writeP_wdog : (t.writeP r m v).wdog = t.wdog := by unfold Team.writeP; split <;> rfl
@[simp] theorem Team.writeP_yieldN : (t.writeP r m v).yieldN = t.yieldN := by unfold Team.writeP; split <;> rfl
@[simp] theorem Team.writeP_yield : (t.writeP r m v).yield = t.yield := by unfold Team.writeP; split <;> rfl
@[simp] theorem Team.writeP_port : (t.writeP r m v).port = t.port := by unfold Team.writeP; split <;> rfl
@[simp] theorem Team.writeP_passed : (t.writeP r m v).passed = t.passed := by unfold Team.writeP; split <;> rfl
@[simp] theorem Team.writeP_lastEnd : (t.writeP r m v).lastEnd = t.lastEnd := by unfold Team.writeP; split <;> rfl
@[simp] theorem Team.writeP_lastY : (t.writeP r m v).lastY = t.lastY := by unfold Team.writeP; split <;> rfl
@[simp] theorem Team.writeP_placed : (t.writeP r m v).placed = t.placed := by unfold Team.writeP; split <;> rfl
@[simp] theorem Team.writeP_restored : (t.writeP r m v).restored = t.restored := by unfold Team.writeP; split <;> rfl
@[simp] theorem Team.writeP_ended : (t.writeP r m v).ended = t.ended := by unfold Team.writeP; split <;> rfl
@[simp] theorem Team.writeP_unacked : (t.writeP r m v).unacked = t.unacked := by unfold Team.writeP; split <;> rfl

end

end Sys2Proof.Machine
end

