-- ==== Sys2Proof/Laws/Cache.lean ====
section
/-! SUPPORT. Every access through L1 and L2, to scratch and to physical memory keeps every memory in canonical form. -/

namespace Sys2Proof.Machine

theorem Cast.caughtUp_scratch (c : Cast) (team : Nat) (p : Lag → Bool) : (c.caughtUp team p).scratch = c.scratch := rfl

theorem Cast.landed_wf {c : Cast} (h : Memory.wf c.scratch = true) (teams : List Nat) (copy : Option (Nat × Nat)) (off : Nat)
    (bs : List Byte) : Memory.wf (c.landed teams copy off bs).scratch = true := by
  unfold Cast.landed
  dsimp only
  split <;> exact Cast.swrite_wf h off bs

theorem Cast.view_wf {c : Cast} (h : Memory.wf c.scratch = true) (team draw off n : Nat) :
    Memory.wf (c.view team draw off n).1.scratch = true := by
  unfold Cast.view
  dsimp only
  split <;> exact h

namespace State.MemWf

variable {s : State}

/-! ### Lines of L2 and L1 -/

theorem onL2 (h : s.MemWf) (d : Nat) (f : List Line → List Line) : (s.onL2 d f).MemWf := h

theorem putL2 (h : s.MemWf) (d : Nat) (l : Line) : (s.putL2 d l).MemWf := h

theorem onCore (h : s.MemWf) (no : Nat) (f : Core → Core) : (s.onCore no f).MemWf := h.of_eq (by simp) (by simp)

theorem onL1 (h : s.MemWf) (core : Nat) (f : List Line → List Line) : (s.onL1 core f).MemWf := h.of_eq (by simp) (by simp)

theorem contextFault (h : s.MemWf) (ctx die reason : Nat) (code : BitVec 8) (va : DWord) :
    (s.contextFault ctx die reason code va).MemWf := by
  unfold State.contextFault
  dsimp only
  split
  · exact h.of_eq (by simp) (by simp)
  · exact h

theorem faultAsid (h : s.MemWf) (d : Nat) (asid : BitVec 16) : (s.faultAsid d asid).MemWf :=
  h.foldl _ _ fun _ _ h => h.contextFault _ _ _ _ _

theorem homeStore (h : s.MemWf) (k : Line) (off : Nat) (bs : List Byte) : (s.homeStore k off bs).MemWf := by
  unfold State.homeStore
  split
  · exact h.physWrite _ _
  · exact h.putL2 _ _

theorem writeBack (h : s.MemWf) (d : Nat) (l : Line) : (s.writeBack d l).MemWf := by
  have good (is : List Nat) : (is.foldl (fun (s : State) i =>
      s.physWrite (l.base + 32 * i) ((l.data.drop (32 * i)).take 32)) s).MemWf := h.foldl _ _ fun _ _ h => h.physWrite _ _
  unfold State.writeBack
  split
  · exact h.foldl _ _ fun _ _ h => h.homeStore _ _ _
  · dsimp only
    split
    · exact good _
    · exact (good _).faultAsid _ _

theorem cleanL2 (h : s.MemWf) (d : Nat) (p : Line → Bool) : (s.cleanL2 d p).MemWf :=
  (h.foldl _ _ fun _ _ h => h.writeBack _ _).onL2 _ _

theorem allocL2 (h : s.MemWf) (d : Nat) (l : Line) (ret : Option Retention) (store : Bool)
    : (s.allocL2 d l ret store).MemWf := by
  unfold State.allocL2
  split
  · exact h
  · split
    · exact h
    · dsimp only
      split
      · exact (h.onL2 _ _).writeBack _ _
      · exact h.onL2 _ _

theorem fetchLine (h : s.MemWf) (d : Nat) (k : Line) (ret : Option Retention) (store : Bool) :
    (s.fetchLine d k ret store).1.MemWf := by
  unfold State.fetchLine
  split
  · exact h.putL2 _ _
  · split
    · exact h.allocL2 _ _ _ _
    · split
      · exact (h.putL2 _ _).allocL2 _ _ _ _
      · exact (h.allocL2 _ _ _ _).allocL2 _ _ _ _

theorem allocL1 (h : s.MemWf) (core : Nat) (l : Line) (ret : Retention) : (s.allocL1 core l ret).MemWf := by
  unfold State.allocL1
  split
  · exact h
  · exact h.onL1 _ _

theorem trimL1 (h : s.MemWf) (core : Nat) : (s.trimL1 core).MemWf := by
  unfold State.trimL1
  dsimp only
  split
  · exact h
  · exact h.onL1 _ _

theorem patchCopy (h : s.MemWf) (d : Nat) (k : Line) (off : Nat) (bs : List Byte) : (s.patchCopy d k off bs).MemWf := by
  unfold State.patchCopy
  split
  · exact h
  · exact h.onL2 _ _

/-! ### Accesses of engines -/

theorem engStore (h : s.MemWf) (p : Page) (b off : Nat) (bs : List Byte) : (s.engStore p b off bs).MemWf := by
  unfold State.engStore
  split
  · dsimp only
    cases p.via with
    | none => exact h.homeStore _ _ _
    | some d => exact (h.homeStore _ _ _).patchCopy _ _ _ _
  · exact h.physWrite _ _

theorem xwrite (h : s.MemWf) (x : Xlat) (off : Nat) (bs : List Byte) : (s.xwrite x off bs).MemWf := by
  unfold State.xwrite
  split
  · exact h.foldl _ _ fun _ _ h => h.engStore _ _ _ _
  · exact h
  · exact h

theorem vwrite (h : s.MemWf) (outs : List (Nat × Xlat)) (va : Nat) (bs : List Byte) : (s.vwrite outs va bs).MemWf :=
  h.foldl _ _ fun _ _ h => h.xwrite _ _ _

theorem landScratch (h : s.MemWf) (cast : Nat) (copy : Option (Nat × Nat)) (off : Nat) (bs : List Byte) :
    (s.landScratch cast copy off bs).MemWf := h.onCast _ _ fun _ hc => Cast.landed_wf hc _ _ _ _

/-! ### Accesses of teams -/

theorem refreshL1 (h : s.MemWf) (core : Nat) (l : Line) : (s.refreshL1 core l).MemWf := h.onL1 _ _

theorem homeLine (h : s.MemWf) (d : Nat) (k : Line) (ret : Option Retention) : (s.homeLine d k ret).1.MemWf := by
  unfold State.homeLine
  dsimp only
  split
  · exact h.fetchLine _ _ _ _
  · exact ((h.cleanL2 _ _).fetchLine _ _ _ _).onL2 _ _

theorem loadAt (h : s.MemWf) (core : Nat) (x : Xlat) (off n : Nat) (pl : Place) (ret : Option Retention) :
    (s.loadAt core x off n pl ret).1.MemWf := by
  unfold State.loadAt
  split
  · split
    · exact h.countNoMemory _
    · dsimp only
      split
      · split
        · exact h.onL1 _ _
        · dsimp only
          split <;> first | exact (h.fetchLine _ _ _ _).allocL1 _ _ _ | exact h.fetchLine _ _ _ _
      · exact (h.fetchLine _ _ _ _).refreshL1 _ _
      · exact (h.homeLine _ _ _).refreshL1 _ _
  · exact h

theorem storeL2 (h : s.MemWf) (d : Nat) (k : Line) (off : Nat) (bs : List Byte) (ret : Option Retention) :
    (s.storeL2 d k off bs ret).MemWf := by
  unfold State.storeL2
  dsimp only
  split
  · exact (h.fetchLine _ _ _ _).homeStore _ _ _
  · split
    · exact (h.fetchLine _ _ _ _).putL2 _ _
    · exact (h.fetchLine _ _ _ _).homeStore _ _ _

theorem storeAt (h : s.MemWf) (core : Nat) (x : Xlat) (off : Nat) (bs : List Byte) (pl : Place) (ret : Option Retention) :
    (s.storeAt core x off bs pl ret).MemWf := by
  unfold State.storeAt
  split
  · split
    · exact h.physWrite _ _
    · dsimp only
      refine State.MemWf.onL1 ?_ _ _
      split <;> split <;> first | exact h.storeL2 _ _ _ _ _ | exact (h.storeL2 _ _ _ _ _).patchCopy _ _ _ _
  · exact h.xwrite _ _ _

theorem storeLines (h : s.MemWf) (core : Nat) (x : Xlat) (off : Nat) (bs : List Byte) (pl : Place) (ret : Option Retention) :
    (s.storeLines core x off bs pl ret).MemWf := h.foldl _ _ fun _ _ h => h.storeAt _ _ _ _ _ _

theorem foldlFst {α β : Type} (h : s.MemWf) (l : List α) (x : β) (f : State × β → α → State × β)
    (hf : ∀ a y, a.1.MemWf → (f a y).1.MemWf) : (l.foldl f (s, x)).1.MemWf := by
  suffices ∀ a : State × β, a.1.MemWf → (l.foldl f a).1.MemWf from this (s, x) h
  induction l with
  | nil => exact fun _ h => h
  | cons y l ih => exact fun a h => ih _ (hf a y h)

theorem loadLines (h : s.MemWf) (core : Nat) (x : Xlat) (off n : Nat) (pl : Place) (ret : Option Retention) :
    (s.loadLines core x off n pl ret).1.MemWf := h.foldlFst _ _ _ fun _ _ h => h.loadAt _ _ _ _ _ _

theorem teamRead (h : s.MemWf) (core : Nat) (outs : List (Nat × Xlat)) (va n : Nat) (pl : Place) :
    (s.teamRead core outs va n pl).1.MemWf := h.foldlFst _ _ _ fun _ _ h => h.loadLines _ _ _ _ _ _

theorem teamWrite (h : s.MemWf) (core : Nat) (outs : List (Nat × Xlat)) (va : Nat) (bs : List Byte) (pl : Place) :
    (s.teamWrite core outs va bs pl).MemWf := h.foldl _ _ fun _ _ h => h.storeLines _ _ _ _ _ _

theorem aload (h : s.MemWf) (t : Team) (e : Outst) (scr : Bool) (va n : Nat) : (s.aload t e scr va n).1.MemWf := by
  unfold State.aload
  split
  · exact h
  · exact h.loadAt _ _ _ _ _ _

theorem astore (h : s.MemWf) (t : Team) (e : Outst) (scr : Bool) (va : Nat) (bs : List Byte) :
    (s.astore t e scr va bs).MemWf := by
  unfold State.astore
  split
  · exact h.onCast _ _ fun _ hc => Cast.swrite_wf hc _ _
  · exact h.storeAt _ _ _ _ _ _

theorem mscrWrite (h : s.MemWf) (core m off : Nat) (bs : List Byte) : (s.mscrWrite core m off bs).MemWf := by
  unfold State.mscrWrite
  split
  · exact h
  · exact h.onCast _ _ fun _ hc => Cast.landed_wf hc _ _ _ _

/-! ### Lines that an engine finds or brings in -/

theorem overLines (h : s.MemWf) (outs : List (Nat × Xlat)) (va n : Nat) (f : State → Page → Nat → Nat → Nat → State)
    (hf : ∀ s p b off n, s.MemWf → (f s p b off n).MemWf) : (s.overLines outs va n f).MemWf := by
  refine h.foldl _ _ fun s g h => ?_
  dsimp only
  split
  · refine h.foldl _ _ fun s c h => ?_
    split
    · exact hf _ _ _ _ _ h
    · exact h
  · exact h

theorem fillLines (h : s.MemWf) (outs : List (Nat × Xlat)) (va n : Nat) (dev : Bool) (ret : Option Retention) :
    (s.fillLines outs va n dev ret).MemWf := by
  refine h.overLines _ _ _ _ fun s p b off _ h => ?_
  dsimp only
  split
  · split
    · exact h.homeLine _ _ _
    · exact h.fetchLine _ _ _ _
  · exact h.fetchLine _ _ _ _

theorem openLines (h : s.MemWf) (outs : List (Nat × Xlat)) (va n : Nat) (ret : Option Retention) :
    (s.openLines outs va n ret).MemWf := h.overLines _ _ _ _ fun _ _ _ _ _ h => h.fetchLine _ _ _ _

theorem patchCore (h : s.MemWf) (core : Nat) (outs : List (Nat × Xlat)) (va : Nat) (bs : List Byte) :
    (s.patchCore core outs va bs).MemWf := h.overLines _ _ _ _ fun _ _ _ _ _ h => h.onL1 _ _

/-! ### Acquires, releases and invalidations -/

theorem dropPrefetch (h : s.MemWf) (who : Team → Bool) (asid : BitVec 16) (gone : Nat → Bool) :
    (s.dropPrefetch who asid gone).MemWf := h

theorem dropL2 (h : s.MemWf) (d : Nat) (p : Line → Bool) : (s.dropL2 d p).MemWf :=
  ((h.cleanL2 d p).onL2 _ _).foldl _ _ fun _ _ h => h.fetchLine _ _ _ _

theorem dropL1 (h : s.MemWf) (core : Nat) (p : Line → Bool) : (s.dropL1 core p).MemWf :=
  (h.onL1 _ _).foldl _ _ fun _ _ h => (h.fetchLine _ _ _ _).allocL1 _ _ _

theorem releaseAt (h : s.MemWf) (core : Nat) (asid : BitVec 16) (sc : Scope) : (s.releaseAt core asid sc).MemWf := by
  unfold State.releaseAt
  split
  · exact h.cleanL2 _ _
  · exact h

theorem acquireLines (h : s.MemWf) (core : Nat) (asid : BitVec 16) (sc : Scope)
    : (s.acquireLines core asid sc).MemWf := by
  have first : (if sc == .dev || sc == .sys then s.dropL2 (coreDie core) fun l => l.asid == asid && l.home != coreDie core
      else s).MemWf := by
    split
    · exact h.dropL2 _ _
    · exact h
  unfold State.acquireLines
  dsimp only
  split
  · exact (first.dropL1 _ _).dropPrefetch _ _ _
  · exact first

theorem cleanDies (h : s.MemWf) (dies : List Nat) (p : Line → Bool) : (s.cleanDies dies p).MemWf :=
  (h.foldl _ _ fun _ _ h => h.cleanL2 _ _).foldl _ _ fun _ _ h => h.cleanL2 _ _

theorem dropDies (h : s.MemWf) (dies : List Nat) (p : Line → Bool) : (s.dropDies dies p).MemWf :=
  (h.cleanDies dies p).foldl _ _ fun _ _ h => h.dropL2 _ _

theorem dropLines (h : s.MemWf) (p : Line → Bool) : (s.dropLines p).MemWf :=
  (h.dropDies _ _).foldl _ _ fun _ _ h => h.dropL1 _ _

theorem cleanAll (h : s.MemWf) : s.cleanAll.MemWf := h.cleanDies _ _

end State.MemWf

end Sys2Proof.Machine
end

