-- ==== Sys2Proof/Laws/Issue.lean ====
section
/-! SUPPORT. What reaching issue can do, said once: an instruction that issues has its effect or the trap its checks
name, and one that does not issue changes nothing or traps. -/

namespace Sys2Proof.Machine

theorem issue_next {i : Instr} {s : State} {t : Team} {c : Clause} {pre post : State → Team → Clause → Option Trap}
    {k : State → Team → Clause → State} (h : Issues i s t c) (hpre : pre s t c = none) (hpost : post s t c = none) :
    issue i s pre post k = .next (k s t c) := by
  obtain ⟨h1, h2, h3, h4, h5, h6⟩ := h
  simp only [issue, h1, h2, h3, h4, h5, h6, hpre, hpost]; rfl

theorem issue_post {i : Instr} {s : State} {t : Team} {c : Clause} {pre post : State → Team → Clause → Option Trap}
    {k : State → Team → Clause → State} {tr : Trap} (h : Issues i s t c) (hpre : pre s t c = none)
    (hpost : post s t c = some tr) : issue i s pre post k = .next (s.trapNow t c tr) := by
  obtain ⟨h1, h2, h3, h4, h5, h6⟩ := h
  simp only [issue, h1, h2, h3, h4, h5, h6, hpre, hpost]; rfl

theorem issue_pre {i : Instr} {s : State} {t : Team} {c : Clause} {pre post : State → Team → Clause → Option Trap}
    {k : State → Team → Clause → State} {tr : Trap} (h : Issues i s t c) (hpre : pre s t c = some tr) :
    issue i s pre post k = .next (s.trapNow t c tr) := by
  obtain ⟨h1, h2, h3, h4, _, _⟩ := h
  simp only [issue, h1, h2, h3, h4, hpre]; rfl

theorem issue_free {i : Instr} {s : State} {t : Team} {c : Clause} {k : State → Team → Clause → State}
    (h : Issues i s t c) : issue i s noTrap noTrap k = .next (k s t c) := issue_next h rfl rfl

/-- Everything an instruction can do on reaching issue: there is no team, or it waits, traps, or has its effect. -/
theorem issue_cases (i : Instr) (s : State) (pre post : State → Team → Clause → Option Trap)
    (k : State → Team → Clause → State) :
    (s.current = none ∧ issue i s pre post k = .fault .noTeam) ∨
    ∃ t c, s.current = some (t, c) ∧
      (issue i s pre post k = .next s ∨ (∃ tr, issue i s pre post k = .next (s.trapNow t c tr)) ∨
        (Issues i s t c ∧ pre s t c = none ∧ post s t c = none ∧ issue i s pre post k = .next (k s t c)) ) := by
  rcases here : s.current with _ | ⟨t, c⟩
  · left; simp [issue, here]
  right; refine ⟨t, c, rfl, ?_⟩
  by_cases held : t.settling = true ∨ t.heldByWindow c = true
  · left; simp [issue, here, held]
  simp only [not_or, Bool.not_eq_true] at held
  by_cases legal : t.illegal c i = true
  · right; left; exact ⟨{ code := .illegalInstr }, by simp [issue, here, held, legal]⟩
  rw [Bool.not_eq_true] at legal
  by_cases early : ∃ tr, pre s t c = some tr
  · obtain ⟨tr, early⟩ := early
    right; left; exact ⟨tr, by simp [issue, here, held, legal, early]⟩
  replace early : pre s t c = none := Option.eq_none_iff_forall_ne_some.mpr fun tr h => early ⟨tr, h⟩
  by_cases kept : (t.lchk && t.breaksPromise i) = true
  · right; left
    exact ⟨{ code := .lookaheadViolation }, by simp only [issue, here, held, legal, early, kept]; rfl⟩
  rw [Bool.not_eq_true] at kept
  by_cases free : t.interlocked i = true
  · left; simp only [issue, here, held, legal, early, kept, free]; rfl
  rw [Bool.not_eq_true] at free
  rcases late : post s t c with _ | tr
  · exact .inr (.inr ⟨⟨here, held.1, held.2, legal, kept, free⟩, early, rfl,
      issue_next ⟨here, held.1, held.2, legal, kept, free⟩ early late⟩)
  · exact .inr (.inl ⟨tr, issue_post ⟨here, held.1, held.2, legal, kept, free⟩ early late⟩)

/-- An instruction of a team that is there always answers a next state. -/
theorem issue_total {i : Instr} {s : State} {p : Team × Clause} {pre post : State → Team → Clause → Option Trap}
    {k : State → Team → Clause → State} (h : s.current = some p) : ∃ s', issue i s pre post k = .next s' := by
  rcases issue_cases i s pre post k with ⟨h1, _⟩ | ⟨t, c, _, h2 | ⟨tr, h2⟩ | ⟨_, _, _, h2⟩⟩
  · rw [h1] at h; cases h
  all_goals exact ⟨_, h2⟩

/-- A change of its team alone answers `done`. -/
theorem issueF1_next {i : Instr} {s : State} {t : Team} {c : Clause} {f : Team → Team} (h : Issues i s t c) :
    issueF1 i s f = .next (s.done (f t) c) := issue_free h

end Sys2Proof.Machine
end

