-- ==== Sys2Proof/Laws/PerInstr.lean ====
section
/-! SUPPORT. What holds of every instruction as syntax, one lemma for each constructor: an encoded instruction has words
and a class of 0 to 6, and an event has no words and nothing to check. -/

namespace Sys2Proof.Laws.Codec

open Sys2Proof

/-- An encoded instruction has at least one word and a class from 0 to 6; an event has neither words nor checks. -/
def Statement (i : Instr) : Prop :=
  (i.encoded = true → encode i ≠ [] ∧ i.cls ≤ 6) ∧ (i.encoded = false → encode i = [] ∧ i.illFormed = none)

theorem event {i : Instr} (he : i.encoded = false) (hw : encode i = []) (hf : i.illFormed = none) : Statement i :=
  ⟨fun h => (Bool.false_ne_true (he.symm.trans h)).elim, fun _ => ⟨hw, hf⟩⟩

theorem coded {i : Instr} (he : i.encoded = true) (hw : encode i ≠ []) (hc : i.cls ≤ 6) : Statement i :=
  ⟨fun _ => ⟨hw, hc⟩, fun h => (Bool.false_ne_true (h.symm.trans he)).elim⟩

theorem words_f1 (o : F1) (op : BitVec 7) : o.words op ≠ [] := by
  unfold F1.words; split <;> simp

theorem words_f2 (o : F2) (op : BitVec 7) : o.words op ≠ [] := by
  unfold F2.words; split <;> simp

theorem mov (o : F1) : Statement (.mov o) := coded rfl (words_f1 o _) (Nat.le_of_ble_eq_true rfl)
theorem sel (o : F1) : Statement (.sel o) := coded rfl (words_f1 o _) (Nat.le_of_ble_eq_true rfl)
theorem iadd (o : F1) : Statement (.iadd o) := coded rfl (words_f1 o _) (Nat.le_of_ble_eq_true rfl)
theorem isub (o : F1) : Statement (.isub o) := coded rfl (words_f1 o _) (Nat.le_of_ble_eq_true rfl)
theorem iadc (o : F1) : Statement (.iadc o) := coded rfl (words_f1 o _) (Nat.le_of_ble_eq_true rfl)
theorem isbc (o : F1) : Statement (.isbc o) := coded rfl (words_f1 o _) (Nat.le_of_ble_eq_true rfl)
theorem imul (o : F1) : Statement (.imul o) := coded rfl (words_f1 o _) (Nat.le_of_ble_eq_true rfl)
theorem imulh (o : F1) : Statement (.imulh o) := coded rfl (words_f1 o _) (Nat.le_of_ble_eq_true rfl)
theorem imad (o : F1) : Statement (.imad o) := coded rfl (words_f1 o _) (Nat.le_of_ble_eq_true rfl)
theorem imin (o : F1) : Statement (.imin o) := coded rfl (words_f1 o _) (Nat.le_of_ble_eq_true rfl)
theorem imax (o : F1) : Statement (.imax o) := coded rfl (words_f1 o _) (Nat.le_of_ble_eq_true rfl)
theorem iabs (o : F1) : Statement (.iabs o) := coded rfl (words_f1 o _) (Nat.le_of_ble_eq_true rfl)
theorem ineg (o : F1) : Statement (.ineg o) := coded rfl (words_f1 o _) (Nat.le_of_ble_eq_true rfl)
theorem andL (o : F1) : Statement (.andL o) := coded rfl (words_f1 o _) (Nat.le_of_ble_eq_true rfl)
theorem orL (o : F1) : Statement (.orL o) := coded rfl (words_f1 o _) (Nat.le_of_ble_eq_true rfl)
theorem xorL (o : F1) : Statement (.xorL o) := coded rfl (words_f1 o _) (Nat.le_of_ble_eq_true rfl)
theorem andn (o : F1) : Statement (.andn o) := coded rfl (words_f1 o _) (Nat.le_of_ble_eq_true rfl)
theorem notL (o : F1) : Statement (.notL o) := coded rfl (words_f1 o _) (Nat.le_of_ble_eq_true rfl)
theorem shl (o : F1) : Statement (.shl o) := coded rfl (words_f1 o _) (Nat.le_of_ble_eq_true rfl)
theorem shr (o : F1) : Statement (.shr o) := coded rfl (words_f1 o _) (Nat.le_of_ble_eq_true rfl)
theorem sar (o : F1) : Statement (.sar o) := coded rfl (words_f1 o _) (Nat.le_of_ble_eq_true rfl)
theorem rot (o : F1) : Statement (.rot o) := coded rfl (words_f1 o _) (Nat.le_of_ble_eq_true rfl)
theorem bfx (o : F1) : Statement (.bfx o) := coded rfl (words_f1 o _) (Nat.le_of_ble_eq_true rfl)
theorem bfi (o : F1) : Statement (.bfi o) := coded rfl (words_f1 o _) (Nat.le_of_ble_eq_true rfl)
theorem popc (o : F1) : Statement (.popc o) := coded rfl (words_f1 o _) (Nat.le_of_ble_eq_true rfl)
theorem clz (o : F1) : Statement (.clz o) := coded rfl (words_f1 o _) (Nat.le_of_ble_eq_true rfl)
theorem brev (o : F1) : Statement (.brev o) := coded rfl (words_f1 o _) (Nat.le_of_ble_eq_true rfl)
theorem lea (o : F1) : Statement (.lea o) := coded rfl (words_f1 o _) (Nat.le_of_ble_eq_true rfl)
theorem iset (o : F1) : Statement (.iset o) := coded rfl (words_f1 o _) (Nat.le_of_ble_eq_true rfl)
theorem bytep (o : F1) : Statement (.bytep o) := coded rfl (words_f1 o _) (Nat.le_of_ble_eq_true rfl)
theorem fadd (o : F1) : Statement (.fadd o) := coded rfl (words_f1 o _) (Nat.le_of_ble_eq_true rfl)
theorem fsub (o : F1) : Statement (.fsub o) := coded rfl (words_f1 o _) (Nat.le_of_ble_eq_true rfl)
theorem fmul (o : F1) : Statement (.fmul o) := coded rfl (words_f1 o _) (Nat.le_of_ble_eq_true rfl)
theorem ffma (o : F1) : Statement (.ffma o) := coded rfl (words_f1 o _) (Nat.le_of_ble_eq_true rfl)
theorem fmin (o : F1) : Statement (.fmin o) := coded rfl (words_f1 o _) (Nat.le_of_ble_eq_true rfl)
theorem fmax (o : F1) : Statement (.fmax o) := coded rfl (words_f1 o _) (Nat.le_of_ble_eq_true rfl)
theorem fset (o : F1) : Statement (.fset o) := coded rfl (words_f1 o _) (Nat.le_of_ble_eq_true rfl)
theorem frcp (o : F1) : Statement (.frcp o) := coded rfl (words_f1 o _) (Nat.le_of_ble_eq_true rfl)
theorem frsq (o : F1) : Statement (.frsq o) := coded rfl (words_f1 o _) (Nat.le_of_ble_eq_true rfl)
theorem fsqrt (o : F1) : Statement (.fsqrt o) := coded rfl (words_f1 o _) (Nat.le_of_ble_eq_true rfl)
theorem fexp2 (o : F1) : Statement (.fexp2 o) := coded rfl (words_f1 o _) (Nat.le_of_ble_eq_true rfl)
theorem flog2 (o : F1) : Statement (.flog2 o) := coded rfl (words_f1 o _) (Nat.le_of_ble_eq_true rfl)
theorem fscale (o : F1) : Statement (.fscale o) := coded rfl (words_f1 o _) (Nat.le_of_ble_eq_true rfl)
theorem fexpo (o : F1) : Statement (.fexpo o) := coded rfl (words_f1 o _) (Nat.le_of_ble_eq_true rfl)
theorem fclass (o : F1) : Statement (.fclass o) := coded rfl (words_f1 o _) (Nat.le_of_ble_eq_true rfl)
theorem frnd (o : F1) : Statement (.frnd o) := coded rfl (words_f1 o _) (Nat.le_of_ble_eq_true rfl)
theorem cvt (o : F1) : Statement (.cvt o) := coded rfl (words_f1 o _) (Nat.le_of_ble_eq_true rfl)
theorem pack (o : F1) : Statement (.pack o) := coded rfl (words_f1 o _) (Nat.le_of_ble_eq_true rfl)
theorem unpk (o : F1) : Statement (.unpk o) := coded rfl (words_f1 o _) (Nat.le_of_ble_eq_true rfl)
theorem hfma2 (o : F1) : Statement (.hfma2 o) := coded rfl (words_f1 o _) (Nat.le_of_ble_eq_true rfl)
theorem hadd2 (o : F1) : Statement (.hadd2 o) := coded rfl (words_f1 o _) (Nat.le_of_ble_eq_true rfl)
theorem hmul2 (o : F1) : Statement (.hmul2 o) := coded rfl (words_f1 o _) (Nat.le_of_ble_eq_true rfl)
theorem dot4 (o : F1) : Statement (.dot4 o) := coded rfl (words_f1 o _) (Nat.le_of_ble_eq_true rfl)
theorem dot2 (o : F1) : Statement (.dot2 o) := coded rfl (words_f1 o _) (Nat.le_of_ble_eq_true rfl)
theorem pand (o : F1) : Statement (.pand o) := coded rfl (words_f1 o _) (Nat.le_of_ble_eq_true rfl)
theorem por (o : F1) : Statement (.por o) := coded rfl (words_f1 o _) (Nat.le_of_ble_eq_true rfl)
theorem pxor (o : F1) : Statement (.pxor o) := coded rfl (words_f1 o _) (Nat.le_of_ble_eq_true rfl)
theorem pnot (o : F1) : Statement (.pnot o) := coded rfl (words_f1 o _) (Nat.le_of_ble_eq_true rfl)
theorem pmov (o : F1) : Statement (.pmov o) := coded rfl (words_f1 o _) (Nat.le_of_ble_eq_true rfl)
theorem sval (o : F1) : Statement (.sval o) := coded rfl (words_f1 o _) (Nat.le_of_ble_eq_true rfl)
theorem shfl (o : F1) : Statement (.shfl o) := coded rfl (words_f1 o _) (Nat.le_of_ble_eq_true rfl)
theorem bcast (o : F1) : Statement (.bcast o) := coded rfl (words_f1 o _) (Nat.le_of_ble_eq_true rfl)
theorem vote (o : F1) : Statement (.vote o) := coded rfl (words_f1 o _) (Nat.le_of_ble_eq_true rfl)
theorem reduce (o : F1) : Statement (.reduce o) := coded rfl (words_f1 o _) (Nat.le_of_ble_eq_true rfl)
theorem scan (o : F1) : Statement (.scan o) := coded rfl (words_f1 o _) (Nat.le_of_ble_eq_true rfl)
theorem lrscan (o : F1) : Statement (.lrscan o) := coded rfl (words_f1 o _) (Nat.le_of_ble_eq_true rfl)
theorem segred (o : F1) : Statement (.segred o) := coded rfl (words_f1 o _) (Nat.le_of_ble_eq_true rfl)
theorem segscan (o : F1) : Statement (.segscan o) := coded rfl (words_f1 o _) (Nat.le_of_ble_eq_true rfl)
theorem compact (o : F1) : Statement (.compact o) := coded rfl (words_f1 o _) (Nat.le_of_ble_eq_true rfl)
theorem matchP (o : F1) : Statement (.matchP o) := coded rfl (words_f1 o _) (Nat.le_of_ble_eq_true rfl)
theorem exset (o : F1) : Statement (.exset o) := coded rfl (words_f1 o _) (Nat.le_of_ble_eq_true rfl)
theorem exdeal (o : F1) : Statement (.exdeal o) := coded rfl (words_f1 o _) (Nat.le_of_ble_eq_true rfl)
theorem exclr (o : F1) : Statement (.exclr o) := coded rfl (words_f1 o _) (Nat.le_of_ble_eq_true rfl)
theorem ld (o : F2) : Statement (.ld o) := coded rfl (words_f2 o _) (Nat.le_of_ble_eq_true rfl)
theorem st (o : F2) : Statement (.st o) := coded rfl (words_f2 o _) (Nat.le_of_ble_eq_true rfl)
theorem lda (o : F2) : Statement (.lda o) := coded rfl (words_f2 o _) (Nat.le_of_ble_eq_true rfl)
theorem waitk (o : F2) : Statement (.waitk o) := coded rfl (words_f2 o _) (Nat.le_of_ble_eq_true rfl)
theorem atom (o : F2) : Statement (.atom o) := coded rfl (words_f2 o _) (Nat.le_of_ble_eq_true rfl)
theorem atomn (o : F2) : Statement (.atomn o) := coded rfl (words_f2 o _) (Nat.le_of_ble_eq_true rfl)
theorem cas (o : F2) : Statement (.cas o) := coded rfl (words_f2 o _) (Nat.le_of_ble_eq_true rfl)
theorem hacc (o : F2) : Statement (.hacc o) := coded rfl (words_f2 o _) (Nat.le_of_ble_eq_true rfl)
theorem gather (o : F2) : Statement (.gather o) := coded rfl (words_f2 o _) (Nat.le_of_ble_eq_true rfl)
theorem scatr (o : F2) : Statement (.scatr o) := coded rfl (words_f2 o _) (Nat.le_of_ble_eq_true rfl)
theorem lockl (o : F2) : Statement (.lockl o) := coded rfl (words_f2 o _) (Nat.le_of_ble_eq_true rfl)
theorem unlockl (o : F2) : Statement (.unlockl o) := coded rfl (words_f2 o _) (Nat.le_of_ble_eq_true rfl)
theorem pfetch (o : F2) : Statement (.pfetch o) := coded rfl (words_f2 o _) (Nat.le_of_ble_eq_true rfl)
theorem fence (o : F2) : Statement (.fence o) := coded rfl (words_f2 o _) (Nat.le_of_ble_eq_true rfl)
theorem cflush (o : F2) : Statement (.cflush o) := coded rfl (words_f2 o _) (Nat.le_of_ble_eq_true rfl)
theorem cinval (o : F2) : Statement (.cinval o) := coded rfl (words_f2 o _) (Nat.le_of_ble_eq_true rfl)
theorem wbload (o : F2) : Statement (.wbload o) := coded rfl (words_f2 o _) (Nat.le_of_ble_eq_true rfl)
theorem wbdrop (o : F2) : Statement (.wbdrop o) := coded rfl (words_f2 o _) (Nat.le_of_ble_eq_true rfl)
theorem mma (o : F2) : Statement (.mma o) := coded rfl (words_f2 o _) (Nat.le_of_ble_eq_true rfl)
theorem mmas (o : F2) : Statement (.mmas o) := coded rfl (words_f2 o _) (Nat.le_of_ble_eq_true rfl)
theorem accz (o : F2) : Statement (.accz o) := coded rfl (words_f2 o _) (Nat.le_of_ble_eq_true rfl)
theorem accld (o : F2) : Statement (.accld o) := coded rfl (words_f2 o _) (Nat.le_of_ble_eq_true rfl)
theorem accst (o : F2) : Statement (.accst o) := coded rfl (words_f2 o _) (Nat.le_of_ble_eq_true rfl)
theorem accdr (o : F2) : Statement (.accdr o) := coded rfl (words_f2 o _) (Nat.le_of_ble_eq_true rfl)
theorem accrd (o : F2) : Statement (.accrd o) := coded rfl (words_f2 o _) (Nat.le_of_ble_eq_true rfl)
theorem accrdSt (o : F2) : Statement (.accrdSt o) := coded rfl (words_f2 o _) (Nat.le_of_ble_eq_true rfl)
theorem attn (o : F2) : Statement (.attn o) := coded rfl (words_f2 o _) (Nat.le_of_ble_eq_true rfl)
theorem attnfin (o : F2) : Statement (.attnfin o) := coded rfl (words_f2 o _) (Nat.le_of_ble_eq_true rfl)
theorem psel (o : F2) : Statement (.psel o) := coded rfl (words_f2 o _) (Nat.le_of_ble_eq_true rfl)
theorem kvapp (o : F2) : Statement (.kvapp o) := coded rfl (words_f2 o _) (Nat.le_of_ble_eq_true rfl)
theorem demote (o : F2) : Statement (.demote o) := coded rfl (words_f2 o _) (Nat.le_of_ble_eq_true rfl)
theorem kvres (o : F2) : Statement (.kvres o) := coded rfl (words_f2 o _) (Nat.le_of_ble_eq_true rfl)
theorem copy (o : F2) : Statement (.copy o) := coded rfl (words_f2 o _) (Nat.le_of_ble_eq_true rfl)
theorem copyy (o : F2) : Statement (.copyy o) := coded rfl (words_f2 o _) (Nat.le_of_ble_eq_true rfl)
theorem bseal (o : F2) : Statement (.bseal o) := coded rfl (words_f2 o _) (Nat.le_of_ble_eq_true rfl)
theorem waitb (o : F2) : Statement (.waitb o) := coded rfl (words_f2 o _) (Nat.le_of_ble_eq_true rfl)
theorem binit (o : F2) : Statement (.binit o) := coded rfl (words_f2 o _) (Nat.le_of_ble_eq_true rfl)
theorem arrive (o : F2) : Statement (.arrive o) := coded rfl (words_f2 o _) (Nat.le_of_ble_eq_true rfl)
theorem arrdrop (o : F2) : Statement (.arrdrop o) := coded rfl (words_f2 o _) (Nat.le_of_ble_eq_true rfl)
theorem bwait (o : F2) : Statement (.bwait o) := coded rfl (words_f2 o _) (Nat.le_of_ble_eq_true rfl)
theorem qsrch (o : F2) : Statement (.qsrch o) := coded rfl (words_f2 o _) (Nat.le_of_ble_eq_true rfl)
theorem lksend (o : F2) : Statement (.lksend o) := coded rfl (words_f2 o _) (Nat.le_of_ble_eq_true rfl)
theorem spawn (o : F2) : Statement (.spawn o) := coded rfl (words_f2 o _) (Nat.le_of_ble_eq_true rfl)
theorem glaunch (o : F2) : Statement (.glaunch o) := coded rfl (words_f2 o _) (Nat.le_of_ble_eq_true rfl)
theorem gscan (o : F2) : Statement (.gscan o) := coded rfl (words_f2 o _) (Nat.le_of_ble_eq_true rfl)
theorem xacq (o : F2) : Statement (.xacq o) := coded rfl (words_f2 o _) (Nat.le_of_ble_eq_true rfl)
theorem xrel (o : F2) : Statement (.xrel o) := coded rfl (words_f2 o _) (Nat.le_of_ble_eq_true rfl)
theorem tqpush (o : F2) : Statement (.tqpush o) := coded rfl (words_f2 o _) (Nat.le_of_ble_eq_true rfl)
theorem nop : Statement .nop := coded rfl (List.cons_ne_nil _ _) (Nat.le_of_ble_eq_true rfl)
theorem prep (b : BitVec 3) (off : BitVec 18) : Statement (.prep b off) :=
  coded rfl (List.cons_ne_nil _ _) (Nat.le_of_ble_eq_true rfl)
theorem preps (b : BitVec 3) (off : BitVec 18) (s : BitVec 6) : Statement (.preps b off s) :=
  coded rfl (List.cons_ne_nil _ _) (Nat.le_of_ble_eq_true rfl)
theorem scmp (q : BitVec 2) (cc : Cmp) (ty : ScmpTy) (a : Operand) (b : Operand) : Statement (.scmp q cc ty a b) :=
  coded rfl (List.cons_ne_nil _ _) (Nat.le_of_ble_eq_true rfl)
theorem xfer (b : BitVec 3) (q : BitVec 2) (neg : Bool) (cnd : Bool) : Statement (.xfer b q neg cnd) :=
  coded rfl (List.cons_ne_nil _ _) (Nat.le_of_ble_eq_true rfl)
theorem xcall (b : BitVec 3) (q : BitVec 2) (neg : Bool) (cnd : Bool) (link : Option (BitVec 6))
    : Statement (.xcall b q neg cnd link) :=
  coded rfl (by cases link <;> exact List.cons_ne_nil _ _) (Nat.le_of_ble_eq_true rfl)
theorem xany (b : BitVec 3) (p : BitVec 3) (neg : Bool) : Statement (.xany b p neg) :=
  coded rfl (List.cons_ne_nil _ _) (Nat.le_of_ble_eq_true rfl)
theorem xall (b : BitVec 3) (p : BitVec 3) (neg : Bool) : Statement (.xall b p neg) :=
  coded rfl (List.cons_ne_nil _ _) (Nat.le_of_ble_eq_true rfl)
theorem ifP (p : BitVec 3) : Statement (.ifP p) := coded rfl (List.cons_ne_nil _ _) (Nat.le_of_ble_eq_true rfl)
theorem ifnP (p : BitVec 3) : Statement (.ifnP p) := coded rfl (List.cons_ne_nil _ _) (Nat.le_of_ble_eq_true rfl)
theorem elseP : Statement .elseP := coded rfl (List.cons_ne_nil _ _) (Nat.le_of_ble_eq_true rfl)
theorem endif : Statement .endif := coded rfl (List.cons_ne_nil _ _) (Nat.le_of_ble_eq_true rfl)
theorem loopP : Statement .loopP := coded rfl (List.cons_ne_nil _ _) (Nat.le_of_ble_eq_true rfl)
theorem breakP (p : BitVec 3) : Statement (.breakP p) := coded rfl (List.cons_ne_nil _ _) (Nat.le_of_ble_eq_true rfl)
theorem contP (p : BitVec 3) : Statement (.contP p) := coded rfl (List.cons_ne_nil _ _) (Nat.le_of_ble_eq_true rfl)
theorem endloop (q : BitVec 2) : Statement (.endloop q) := coded rfl (List.cons_ne_nil _ _) (Nat.le_of_ble_eq_true rfl)
theorem serial : Statement .serial := coded rfl (List.cons_ne_nil _ _) (Nat.le_of_ble_eq_true rfl)
theorem endserial (q : BitVec 2) : Statement (.endserial q) :=
  coded rfl (List.cons_ne_nil _ _) (Nat.le_of_ble_eq_true rfl)
theorem yieldP (n : BitVec 14) : Statement (.yieldP n) := coded rfl (List.cons_ne_nil _ _) (Nat.le_of_ble_eq_true rfl)
theorem exitP (p : BitVec 3) : Statement (.exitP p) := coded rfl (List.cons_ne_nil _ _) (Nat.le_of_ble_eq_true rfl)
theorem exitSaved : Statement .exitSaved := coded rfl (List.cons_ne_nil _ _) (Nat.le_of_ble_eq_true rfl)
theorem trapU (q : BitVec 2) (neg : Bool) (cnd : Bool) (code : BitVec 14) : Statement (.trapU q neg cnd code) :=
  coded rfl (List.cons_ne_nil _ _) (Nat.le_of_ble_eq_true rfl)
theorem icsync : Statement .icsync := coded rfl (List.cons_ne_nil _ _) (Nat.le_of_ble_eq_true rfl)
theorem bkpt (code : BitVec 14) : Statement (.bkpt code) := coded rfl (List.cons_ne_nil _ _) (Nat.le_of_ble_eq_true rfl)
theorem qset (q : BitVec 2) (md : QsetForm) : Statement (.qset q md) :=
  coded rfl (by cases md <;> exact List.cons_ne_nil _ _) (Nat.le_of_ble_eq_true rfl)
theorem srd (d : BitVec 6) (reg : BitVec 16) : Statement (.srd d reg) :=
  coded rfl (List.cons_ne_nil _ _) (Nat.le_of_ble_eq_true rfl)
theorem swr (d : BitVec 6) (reg : BitVec 16) : Statement (.swr d reg) :=
  coded rfl (List.cons_ne_nil _ _) (Nat.le_of_ble_eq_true rfl)
theorem statesvTeam (va : Option (BitVec 6)) : Statement (.statesvTeam va) :=
  coded rfl (List.cons_ne_nil _ _) (Nat.le_of_ble_eq_true rfl)
theorem statesvBar (va : Option (BitVec 6)) : Statement (.statesvBar va) :=
  coded rfl (List.cons_ne_nil _ _) (Nat.le_of_ble_eq_true rfl)
theorem statersTeam (va : Option (BitVec 6)) : Statement (.statersTeam va) :=
  coded rfl (List.cons_ne_nil _ _) (Nat.le_of_ble_eq_true rfl)
theorem statersBar (va : Option (BitVec 6)) : Statement (.statersBar va) :=
  coded rfl (List.cons_ne_nil _ _) (Nat.le_of_ble_eq_true rfl)
theorem svc (code : BitVec 16) : Statement (.svc code) := coded rfl (List.cons_ne_nil _ _) (Nat.le_of_ble_eq_true rfl)
theorem eret : Statement .eret := coded rfl (List.cons_ne_nil _ _) (Nat.le_of_ble_eq_true rfl)
theorem clkrd (d : BitVec 6) (clk : Bool) : Statement (.clkrd d clk) :=
  coded rfl (List.cons_ne_nil _ _) (Nat.le_of_ble_eq_true rfl)
theorem tlbinv (kind : TlbKind) : Statement (.tlbinv kind) :=
  coded rfl (by cases kind <;> exact List.cons_ne_nil _ _) (Nat.le_of_ble_eq_true rfl)
theorem worldx (secure : Bool) : Statement (.worldx secure) :=
  coded rfl (List.cons_ne_nil _ _) (Nat.le_of_ble_eq_true rfl)
theorem clauseFetch (t : Nat) : Statement (.clauseFetch t) := event rfl rfl rfl
theorem prefetchFill (t : Nat) (b : BitVec 3) : Statement (.prefetchFill t b) := event rfl rfl rfl
theorem issuePortChoice (core : Nat) (sub : Nat) (port : Nat) : Statement (.issuePortChoice core sub port) :=
  event rfl rfl rfl
theorem yieldWaitEnd (t : Nat) : Statement (.yieldWaitEnd t) := event rfl rfl rfl
theorem f2Completion (t : Nat) (k : Nat) : Statement (.f2Completion t k) := event rfl rfl rfl
theorem translationResult (t : Nat) (k : Nat) (hit : Bool) : Statement (.translationResult t k hit) :=
  event rfl rfl rfl
theorem trapEntry (t : Nat) : Statement (.trapEntry t) := event rfl rfl rfl
theorem teamPark (t : Nat) : Statement (.teamPark t) := event rfl rfl rfl
theorem parkedReissue (t : Nat) : Statement (.parkedReissue t) := event rfl rfl rfl
theorem faultRecordWrite (ctx : Nat) : Statement (.faultRecordWrite ctx) := event rfl rfl rfl
theorem watchdogExpiry (t : Nat) : Statement (.watchdogExpiry t) := event rfl rfl rfl
theorem contextReset (ctx : Nat) : Statement (.contextReset ctx) := event rfl rfl rfl
theorem commandAcceptance (t : Nat) (k : Nat) : Statement (.commandAcceptance t k) := event rfl rfl rfl
theorem wbloadDecode (core : Nat) (m : Nat) : Statement (.wbloadDecode core m) := event rfl rfl rfl
theorem wbdropExecute (core : Nat) (m : Nat) : Statement (.wbdropExecute core m) := event rfl rfl rfl
theorem mmaKStep (core : Nat) (m : Nat) : Statement (.mmaKStep core m) := event rfl rfl rfl
theorem commandResume (core : Nat) (m : Nat) : Statement (.commandResume core m) := event rfl rfl rfl
theorem tileImageOperation (core : Nat) (m : Nat) : Statement (.tileImageOperation core m) :=
  event rfl rfl rfl
theorem accdrDrain (core : Nat) (m : Nat) : Statement (.accdrDrain core m) := event rfl rfl rfl
theorem kvappAppend (core : Nat) (m : Nat) : Statement (.kvappAppend core m) := event rfl rfl rfl
theorem pselSelection (core : Nat) (m : Nat) : Statement (.pselSelection core m) := event rfl rfl rfl
theorem attnPage (core : Nat) (m : Nat) : Statement (.attnPage core m) := event rfl rfl rfl
theorem attnfinMerge (core : Nat) (m : Nat) : Statement (.attnfinMerge core m) := event rfl rfl rfl
theorem copyAcceptance (t : Nat) (k : Nat) : Statement (.copyAcceptance t k) := event rfl rfl rfl
theorem copyRow (j : Nat) : Statement (.copyRow j) := event rfl rfl rfl
theorem waitkDone (t : Nat) (k : Nat) : Statement (.waitkDone t k) := event rfl rfl rfl
theorem bwaitDone (t : Nat) (k : Nat) : Statement (.bwaitDone t k) := event rfl rfl rfl
theorem waitbDone (t : Nat) (k : Nat) : Statement (.waitbDone t k) := event rfl rfl rfl
theorem xacqGrant (t : Nat) (k : Nat) : Statement (.xacqGrant t k) := event rfl rfl rfl
theorem xacqTimeout (t : Nat) (k : Nat) : Statement (.xacqTimeout t k) := event rfl rfl rfl
theorem gscanWaitEnd (t : Nat) (k : Nat) : Statement (.gscanWaitEnd t k) := event rfl rfl rfl
theorem queryRound (q : Nat) : Statement (.queryRound q) := event rfl rfl rfl
theorem vertexDistance (q : Nat) (v : Word) : Statement (.vertexDistance q v) := event rfl rfl rfl
theorem queryCompletion (q : Nat) : Statement (.queryCompletion q) := event rfl rfl rfl
theorem duskPageStep (die : Nat) (ctx : Nat) : Statement (.duskPageStep die ctx) := event rfl rfl rfl
theorem handBack (j : Nat) : Statement (.handBack j) := event rfl rfl rfl
theorem kvresRestore (die : Nat) (ctx : Nat) : Statement (.kvresRestore die ctx) := event rfl rfl rfl
theorem backgroundSweep (ctx : Nat) : Statement (.backgroundSweep ctx) := event rfl rfl rfl
theorem doorbell (fn : Nat) (ctx : Nat) (q : Nat) (idx : Word) : Statement (.doorbell fn ctx q idx) :=
  event rfl rfl rfl
theorem gridStart (src : GridSource) : Statement (.gridStart src) := event rfl rfl rfl
theorem castPlace (g : Nat) (core : Nat) : Statement (.castPlace g core) := event rfl rfl rfl
theorem coresidentHold (g : Nat) : Statement (.coresidentHold g) := event rfl rfl rfl
theorem teamRetire (t : Nat) : Statement (.teamRetire t) := event rfl rfl rfl
theorem tokenQueueTimer (die : Nat) (q : Nat) : Statement (.tokenQueueTimer die q) := event rfl rfl rfl
theorem tokenQueueBind (die : Nat) (q : Nat) (record : List Byte) : Statement (.tokenQueueBind die q record) :=
  event rfl rfl rfl
theorem cdesc (fn : Nat) (ctx : Nat) (pa : DWord) : Statement (.cdesc fn ctx pa) := event rfl rfl rfl
theorem ccmdPreempt (fn : Nat) (ctx : Nat) : Statement (.ccmdPreempt fn ctx) := event rfl rfl rfl
theorem ccmdResume (fn : Nat) (ctx : Nat) : Statement (.ccmdResume fn ctx) := event rfl rfl rfl
theorem ccmdReset (fn : Nat) (ctx : Nat) : Statement (.ccmdReset fn ctx) := event rfl rfl rfl
theorem ccmdUnregister (fn : Nat) (ctx : Nat) : Statement (.ccmdUnregister fn ctx) := event rfl rfl rfl
theorem dusktb (fn : Nat) (ctx : Nat) (va : DWord) : Statement (.dusktb fn ctx va) := event rfl rfl rfl
theorem resolveRetry (fn : Nat) (word : DWord) : Statement (.resolveRetry fn word) := event rfl rfl rfl
theorem resolveFail (fn : Nat) (word : DWord) : Statement (.resolveFail fn word) := event rfl rfl rfl
theorem resolveRetryAll (fn : Nat) (word : DWord) : Statement (.resolveRetryAll fn word) := event rfl rfl rfl
theorem ckctlCheckpoint : Statement .ckctlCheckpoint := event rfl rfl rfl
theorem ckctlLoad : Statement .ckctlLoad := event rfl rfl rfl
theorem ckctlClear : Statement .ckctlClear := event rfl rfl rfl
theorem checkpointComplete : Statement .checkpointComplete := event rfl rfl rfl
theorem checkpointLoadComplete : Statement .checkpointLoadComplete := event rfl rfl rfl
theorem pmode (value : Word) : Statement (.pmode value) := event rfl rfl rfl
theorem powerModeChange : Statement .powerModeChange := event rfl rfl rfl
theorem wheelSettingChange : Statement .wheelSettingChange := event rfl rfl rfl
theorem sshare (stack : Nat) (value : Word) : Statement (.sshare stack value) := event rfl rfl rfl
theorem graphRegistration (g : Nat) (record : List Byte) : Statement (.graphRegistration g record) :=
  event rfl rfl rfl
theorem graphUnregistration (g : Nat) (record : List Byte) : Statement (.graphUnregistration g record) :=
  event rfl rfl rfl
theorem unregistrationEffect (g : Nat) : Statement (.unregistrationEffect g) := event rfl rfl rfl
theorem registerWrite (fn : Nat) (off : Nat) (n : Nat) (value : Nat) : Statement (.registerWrite fn off n value) :=
  event rfl rfl rfl
theorem hostPostedWrite (fn : Nat) (pa : Nat) (data : List Byte) : Statement (.hostPostedWrite fn pa data) :=
  event rfl rfl rfl
theorem pieceAcknowledgement (j : Nat) : Statement (.pieceAcknowledgement j) := event rfl rfl rfl
theorem hostRead (fn : Nat) (pa : Nat) (n : Nat) : Statement (.hostRead fn pa n) := event rfl rfl rfl
theorem atsAnswer (t : Nat) (k : Nat) (granted : Bool) : Statement (.atsAnswer t k granted) :=
  event rfl rfl rfl
theorem hostAtsInvalidation (page : Nat) : Statement (.hostAtsInvalidation page) := event rfl rfl rfl
theorem remoteStore (f : Flit) : Statement (.remoteStore f) := event rfl rfl rfl
theorem remoteAtomic (f : Flit) : Statement (.remoteAtomic f) := event rfl rfl rfl
theorem acknowledgement (f : Flit) : Statement (.acknowledgement f) := event rfl rfl rfl
theorem atomicResponse (f : Flit) : Statement (.atomicResponse f) := event rfl rfl rfl
theorem refusal (f : Flit) : Statement (.refusal f) := event rfl rfl rfl
theorem carryData (f : Flit) : Statement (.carryData f) := event rfl rfl rfl
theorem carryEnd (f : Flit) : Statement (.carryEnd f) := event rfl rfl rfl
theorem carryStatus (f : Flit) : Statement (.carryStatus f) := event rfl rfl rfl
theorem flitForward (f : Flit) : Statement (.flitForward f) := event rfl rfl rfl
theorem flitReplay (port : Nat) : Statement (.flitReplay port) := event rfl rfl rfl
theorem portUp (port : Nat) (neighbour : BitVec 19) : Statement (.portUp port neighbour) := event rfl rfl rfl
theorem portDown (port : Nat) : Statement (.portDown port) := event rfl rfl rfl
theorem pfail : Statement .pfail := event rfl rfl rfl
theorem mainRailFailure : Statement .mainRailFailure := event rfl rfl rfl
theorem retvLoss : Statement .retvLoss := event rfl rfl rfl
theorem coldReset : Statement .coldReset := event rfl rfl rfl
theorem warmReset : Statement .warmReset := event rfl rfl rfl
theorem vfFunctionLevelReset (vf : Nat) : Statement (.vfFunctionLevelReset vf) := event rfl rfl rfl
theorem thermalAlert : Statement .thermalAlert := event rfl rfl rfl
theorem thermtrip : Statement .thermtrip := event rfl rfl rfl
theorem stackAlert (stack : Nat) (pseudo : Nat) (owed : Nat) : Statement (.stackAlert stack pseudo owed) :=
  event rfl rfl rfl
theorem patrolScrub (line : Nat) (correctable : Bool) : Statement (.patrolScrub line correctable) :=
  event rfl rfl rfl
theorem ident : Statement .ident := event rfl rfl rfl
theorem telem : Statement .telem := event rfl rfl rfl
theorem sbReset (arg : Byte) : Statement (.sbReset arg) := event rfl rfl rfl
theorem fwstage (off : Nat) (chunk : List Byte) : Statement (.fwstage off chunk) := event rfl rfl rfl
theorem fwcommit : Statement .fwcommit := event rfl rfl rfl
theorem cktrig : Statement .cktrig := event rfl rfl rfl
theorem wrtset (authorised : Bool) (table : List Byte) : Statement (.wrtset authorised table) :=
  event rfl rfl rfl
theorem worldTableSwitch : Statement .worldTableSwitch := event rfl rfl rfl
theorem pmset (value : Word) : Statement (.pmset value) := event rfl rfl rfl
theorem spdmRequest (req : SpdmRequest) : Statement (.spdmRequest req) := event rfl rfl rfl
theorem mctpControl (msg : List Byte) : Statement (.mctpControl msg) := event rfl rfl rfl
theorem dynamicAddressAssignment (addr : BitVec 7) : Statement (.dynamicAddressAssignment addr) :=
  event rfl rfl rfl
theorem flitDiscard (f : Flit) : Statement (.flitDiscard f) := event rfl rfl rfl
theorem pstatUpdate : Statement .pstatUpdate := event rfl rfl rfl
theorem clockThrottle (down : Bool) : Statement (.clockThrottle down) := event rfl rfl rfl
theorem ccmdReserved (fn : Nat) (ctx : Nat) (cmd : BitVec 3) : Statement (.ccmdReserved fn ctx cmd) :=
  event rfl rfl rfl

end Sys2Proof.Laws.Codec
end

