-- ==== Sys2Proof/Laws/Registers.lean ====
section
/-! SUPPORT. Reading after writing, once for each kind of register and for the teams of a state, and everything that
taking a trap can do. -/

namespace Sys2Proof.Machine

/-- A write past the head of a padded list keeps the head and writes the tail. -/
theorem setAt_succ {α : Type} (l : List α) (i : Nat) (x d : α) :
    setAt l (i + 1) x d = l.headD d :: setAt l.tail i x d := by
  rcases l with _ | ⟨y, r⟩ <;> rfl

/-- A padded list reads as its head, then its tail. -/
theorem getD_succ {α : Type} (l : List α) (j : Nat) (d : α) : l.getD (j + 1) d = l.tail.getD j d := by
  rcases l with _ | ⟨y, r⟩ <;> rfl

/-- Reading a padded list after a write. -/
theorem getD_setAt {α : Type} (l : List α) (i j : Nat) (x d : α) :
    (setAt l i x d).getD j d = if j = i then x else l.getD j d := by
  match i, j with
  | 0, 0 => rcases l with _ | _ <;> simp [setAt]
  | 0, j + 1 => rcases l with _ | _ <;> simp [setAt]
  | i + 1, 0 => rcases l with _ | _ <;> simp [setAt]
  | i + 1, j + 1 => rw [setAt_succ, getD_succ, getD_succ, List.tail_cons, getD_setAt l.tail i j]; simp

theorem Team.readV_writeV (t : Team) (r r' l : Nat) (m : Mask) (f : Nat → Word) (hl : l < t.n) :
    (t.writeV r m f).readV r' l = if r' = r then (if m.getLsbD l then f l else t.readV r l) else t.readV r' l := by
  simp only [Team.readV, Team.writeV, getD_setAt]
  by_cases h : r' = r
  · simp [h, hl]
  · simp [h]

theorem Team.readS_writeS (t : Team) (r r' : Nat) (w : Word) :
    (t.writeS r w).readS r' = if r' = r then w else t.readS r' := by
  simp only [Team.readS, Team.writeS, getD_setAt]

theorem Team.readS_writeSS (t : Team) (r r' : Nat) (d : DWord) :
    (t.writeSS r d).readS r' = if r' = r + 1 then d.hi else if r' = r then d.lo else t.readS r' := by
  simp only [Team.writeSS, Team.readS_writeS]

theorem Team.readK_writeK (t : Team) (r r' : Nat) (w : BitVec 16) :
    (t.writeK r w).readK r' = if r' = r then w else t.readK r' := by
  simp only [Team.readK, Team.writeK, getD_setAt]

/-- P7 reads true in every lane, whatever is written (R13, R26). -/
theorem Team.writeP_seven (t : Team) (m v : Mask) : t.writeP 7 m v = t := by simp [Team.writeP]

/-- The teams after one is put back: those of another key are as before. -/
theorem State.mem_setTeam (s : State) (t u : Team) (h : u ∈ (s.setTeam t).teams) : u = t ∨ u ∈ s.teams := by
  simp only [State.setTeam, replaceIf, List.mem_map] at h
  obtain ⟨x, hx, rfl⟩ := h
  split
  · exact .inl rfl
  · exact .inr hx

/-- Everything that a trap of an instruction can do (R97, R265): it enters, or it is held until the
instructions of its team have settled. -/
theorem State.trapNow_cases (s : State) (t : Team) (c : Clause) (tr : Trap) :
    (t.outst = [] ∧ s.trapNow t c tr = s.enterTrap t tr (t.trapResume c c.pos tr.code)) ∨
    (t.outst ≠ [] ∧ s.trapNow t c tr = s.setTeam { t with pending := some (tr, c.pos) }) := by
  unfold State.trapNow
  cases h : t.outst with
  | nil => exact .inl ⟨rfl, by simp⟩
  | cons a l => exact .inr ⟨by simp, by simp⟩

/-- An instruction that becomes outstanding is the last of its team's entries, under a fresh key. -/
theorem State.enqueue_eq (s : State) (t : Team) (c : Clause) (e : Outst) :
    s.enqueue t c e = ({ s with nextId := s.nextId + 1 } : State).done { t with outst := t.outst ++ [e] } c := rfl

end Sys2Proof.Machine
end

