-- ==== Sys2Proof/Tests/Slice0.lean ====
section
/-! SUPPORT. Tests: an ill-formed term for each check, words written out from the formats of 03 with the instructions
they stand for, one small step of each kind, and for each statement a state and operands that meet its hypotheses. -/

namespace Sys2Proof.Tests

open Sys2Proof Sys2Proof.Machine

-- one test at a time: many at once need more threads than the memory limit leaves
set_option Elab.async false

/-! ### Short forms of operands -/

/-- An F1 instruction without an extension word. -/
def f1 (d a b : Operand) : F1 := { d := d, a := a, b := b, x := none }

/-- An extension word of a type, with FN. -/
def x1 (ty : Ty) (fn : BitVec 6) (c : Operand := .zero) : X1 :=
  { c := c, ty := ty, rm := .rne, sat := false, na := false, nb := false, fn := fn }

/-- An F1 instruction with a type and FN. -/
def f1x (ty : Ty) (fn : BitVec 6) (d a b : Operand) (c : Operand := .zero) : F1 :=
  { d := d, a := a, b := b, x := some (x1 ty fn c) }

/-- An F2 extension word. -/
def x2 (b : Operand) (sz : BitVec 4) (sc : Scope) (fn : BitVec 3 := 0) (imm : BitVec 12 := 0) : X2 :=
  { b := b, sz := sz, sc := sc, rh := 0, fn := fn, imm := imm }

/-- An F2 instruction. -/
def f2 (d a b : Operand) (sz : BitVec 4) (sc : Scope) (fn : BitVec 3 := 0) (imm : BitVec 12 := 0) : F2 :=
  { l := 0, tk := 0, d := d, a := a, x := some (x2 b sz sc fn imm) }

/-! ### One ill-formed term for each check -/

theorem test_unused_operand_refused : (Instr.notL (f1 (.v 1) (.v 2) (.v 3))).illFormed = some .unusedOperand := by decide
theorem test_missing_extension_refused : (Instr.cvt (f1 (.v 1) (.v 2) .zero)).illFormed = some .needsExt := by decide
theorem test_extension_of_exclr_refused :
    (Instr.exclr (f1x .b32 0 .zero .zero .zero)).illFormed = some .noExt := by decide
theorem test_type_refused : (Instr.fadd (f1x .s32 0 (.v 1) (.v 2) (.v 3))).illFormed = some .badType := by decide
theorem test_rounding_refused :
    (Instr.fmin { f1 (.v 1) (.v 2) (.v 3) with x := some { x1 .f32 0 with rm := .rtz } }).illFormed = some .badRounding := by
  decide
theorem test_saturation_refused :
    (Instr.imin { f1 (.v 1) (.v 2) (.v 3) with x := some { x1 .s32 0 with sat := true } }).illFormed = some .badSaturation := by
  decide
theorem test_negation_refused :
    (Instr.andL { f1 (.v 1) (.v 2) (.v 3) with x := some { x1 .b32 0 with na := true } }).illFormed = some .badNegation := by
  decide
theorem test_fn_refused : (Instr.iset (f1x .s32 6 (.p 1) (.v 2) (.v 3))).illFormed = some .badFn := by decide
theorem test_destination_refused : (Instr.iadd (f1 (.p 1) (.v 2) (.v 3))).illFormed = some .badDest := by decide
theorem test_odd_pair_source_refused : (Instr.iadd (f1x .s64 0 (.v 2) (.v 5) (.v 6))).illFormed = some .badSource := by
  decide
theorem test_lane_source_of_scalar_form_refused : (Instr.iadd (f1 (.s 1) (.v 2) (.s 3))).illFormed = some .badSource := by
  decide
theorem test_size_refused : (Instr.ld (f2 (.v 8) (.s 0) .zero 5 .team)).illFormed = some .badSize := by decide
theorem test_scope_refused : (Instr.fence (f2 .zero .zero .zero 0 .none)).illFormed = some .badScope := by decide
theorem test_hint_refused :
    (Instr.mma { f2 .zero (.s 0) .zero 0 .none with x := some { x2 .zero 0 .none with rh := 1 } }).illFormed
      = some .badHint := by decide
theorem test_offset_refused : (Instr.wbdrop (f2 .zero .zero .zero 0 .none 0 0x20)).illFormed = some .badOffset := by decide
theorem test_lookahead_refused :
    (Instr.fence { f2 .zero .zero .zero 0 .core with l := 1 }).illFormed = some .badLookahead := by decide
theorem test_token_refused : (Instr.waitb { f2 .zero .zero .zero 0 .none with tk := 1 }).illFormed = some .badToken := by
  decide
theorem test_condition_refused : (Instr.xfer 1 2 true false).illFormed = some .badCondition := by decide

/-! ### Words written out from the formats (R63, R66, R72, R73) and the opcode map (R74) -/

/-- The words decode to the instruction, with nothing left over. -/
def decodes (cls : Nat) (x : List Word × Instr) : Bool := (decodeInstr cls x.1).toOption == some (x.2, [])

theorem test_decode_integer_and_logic : [
    ([0x000182F0], .mov (f1 (.v 1) (.s 2) .zero)),
    ([0x81A8E1F0, 0xC9000000], .sel (f1x .b32 0 (.s 40) (.const 1) .zero (.q 1))),
    ([0x02030102], .iadd (f1 (.v 3) (.v 1) (.v 2))),
    ([0x030301D2], .isub (f1 (.v 3) (.v 1) (.k 2))),
    ([0x84040002, 0xF0800900], .iadc (f1x .n32 9 (.v 4) (.v 0) (.v 2))),
    ([0x85050103, 0xC1800000], .isbc (f1x .n32 0 (.v 5) (.v 1) (.v 3) (.p 1))),
    ([0x860301F3, 0xF031C000], .imul { f1 (.v 3) (.v 1) .team with x := some { c := .zero, ty := .s16, rm := .rne, sat := true, na := true, nb := true, fn := 0 } }),
    ([0x87030102, 0xF0800000], .imulh (f1x .n32 0 (.v 3) (.v 1) (.v 2))),
    ([0x8801F3F8, 0xF1400000, 0x00000020], .imad (f1x .s32 0 (.v 1) .team (.lit32 32) .lane)),
    ([0x09030102], .imin (f1 (.v 3) (.v 1) (.v 2))),
    ([0x0A030102], .imax (f1 (.v 3) (.v 1) (.v 2))),
    ([0x0B0301F0], .iabs (f1 (.v 3) (.v 1) .zero)),
    ([0x0C0301F0], .ineg (f1 (.v 3) (.v 1) .zero)),
    ([0x0D030102], .andL (f1 (.v 3) (.v 1) (.v 2))),
    ([0x0E030102], .orL (f1 (.v 3) (.v 1) (.v 2))),
    ([0x0F030102], .xorL (f1 (.v 3) (.v 1) (.v 2))),
    ([0x900204F9, 0xF0100000, 0x9ABCDEF0, 0x12345678], .andn (f1x .b64 0 (.v 2) (.v 4) (.lit64 0x123456789ABCDEF0))),
    ([0x110301F0], .notL (f1 (.v 3) (.v 1) .zero)),
    ([0x12030102], .shl (f1 (.v 3) (.v 1) (.v 2))),
    ([0x13030102], .shr (f1 (.v 3) (.v 1) (.v 2))),
    ([0x14030102], .sar (f1 (.v 3) (.v 1) (.v 2))),
    ([0x15030102], .rot (f1 (.v 3) (.v 1) (.v 2))),
    ([0x16030102], .bfx (f1 (.v 3) (.v 1) (.v 2))),
    ([0x17030102], .bfi (f1 (.v 3) (.v 1) (.v 2))),
    ([0x180301F0], .popc (f1 (.v 3) (.v 1) .zero)),
    ([0x190301F0], .clz (f1 (.v 3) (.v 1) .zero)),
    ([0x1A0301F0], .brev (f1 (.v 3) (.v 1) .zero)),
    ([0x9B048201, 0xF0100A00], .lea (f1x .b64 10 (.v 4) (.s 2) (.v 1))),
    ([0x9CC10102, 0xF0800200], .iset (f1x .n32 2 (.p 1) (.v 1) (.v 2))),
    ([0x1D030102], .bytep (f1 (.v 3) (.v 1) (.v 2)))].all (decodes 0) = true := by decide

theorem test_decode_floating_and_predicate : [
    ([0x20030102], .fadd (f1 (.v 3) (.v 1) (.v 2))),
    ([0x21030102], .fsub (f1 (.v 3) (.v 1) (.v 2))),
    ([0x22030102], .fmul (f1 (.v 3) (.v 1) (.v 2))),
    ([0xA30503F8, 0x06A20000, 0x3FC00000],
        .ffma { f1 (.v 5) (.v 3) (.lit32 0x3FC00000) with x := some { c := .v 6, ty := .f32, rm := .rtz, sat := false, na := false, nb := false, fn := 0 } }),
    ([0x24030102], .fmin (f1 (.v 3) (.v 1) (.v 2))),
    ([0x25030102], .fmax (f1 (.v 3) (.v 1) (.v 2))),
    ([0xA6CA8182, 0xF0A00700], .fset (f1x .f32 7 (.q 2) (.s 1) (.s 2))),
    ([0x270301F0], .frcp (f1 (.v 3) (.v 1) .zero)),
    ([0x280301F0], .frsq (f1 (.v 3) (.v 1) .zero)),
    ([0x290301F0], .fsqrt (f1 (.v 3) (.v 1) .zero)),
    ([0x2A0301F0], .fexp2 (f1 (.v 3) (.v 1) .zero)),
    ([0x2B0301F0], .flog2 (f1 (.v 3) (.v 1) .zero)),
    ([0x2C030102], .fscale (f1 (.v 3) (.v 1) (.v 2))),
    ([0x2D0301F0], .fexpo (f1 (.v 3) (.v 1) .zero)),
    ([0x2E0301F0], .fclass (f1 (.v 3) (.v 1) .zero)),
    ([0x2F0301F0], .frnd (f1 (.v 3) (.v 1) .zero)),
    ([0xB00301F0, 0xF0A00400], .cvt (f1x .f32 4 (.v 3) (.v 1) .zero)),
    ([0xB10301E1, 0xF0A00B00], .pack (f1x .f32 11 (.v 3) (.v 1) (.const 1))),
    ([0xB20301E5, 0xF0A01200], .unpk (f1x .f32 18 (.v 3) (.v 1) (.const 5))),
    ([0x33030102], .hfma2 (f1 (.v 3) (.v 1) (.v 2))),
    ([0x34030102], .hadd2 (f1 (.v 3) (.v 1) (.v 2))),
    ([0x35030102], .hmul2 (f1 (.v 3) (.v 1) (.v 2))),
    ([0x36030102], .dot4 (f1 (.v 3) (.v 1) (.v 2))),
    ([0x37030102], .dot2 (f1 (.v 3) (.v 1) (.v 2))),
    ([0x40C1C2C3], .pand (f1 (.p 1) (.p 2) (.p 3))),
    ([0x41C1C2C3], .por (f1 (.p 1) (.p 2) (.p 3))),
    ([0x42C9CACB], .pxor (f1 (.q 1) (.q 2) (.q 3))),
    ([0x43C0C0F0], .pnot (f1 (.p 0) (.p 0) .zero)),
    ([0x44C1C2F0], .pmov (f1 (.p 1) (.p 2) .zero)),
    ([0x4603E2F0], .sval (f1 (.v 3) (.const 2) .zero))].all (decodes 0) = true := by decide

theorem test_decode_lane : [
    ([0x800301E5, 0xF0000100], .shfl (f1x .b32 1 (.v 3) (.v 1) (.const 5))),
    ([0x010301E5], .bcast (f1 (.v 3) (.v 1) (.const 5))),
    ([0x8205C1F0, 0xF0000300], .vote (f1x .b32 3 (.v 5) (.p 1) .zero)),
    ([0x830A0AF0, 0xF0500000], .reduce (f1x .s64 0 (.v 10) (.v 10) .zero)),
    ([0x840301F0, 0xF0A01A00], .scan (f1x .f32 26 (.v 3) (.v 1) .zero)),
    ([0x85040608, 0xF0A00000], .lrscan (f1x .f32 0 (.v 4) (.v 6) (.v 8))),
    ([0x860B0AF4, 0xF0A00800], .segred (f1x .f32 8 (.v 11) (.v 10) .owner)),
    ([0x070301C2], .segscan (f1 (.v 3) (.v 1) (.p 2))),
    ([0x080301C2], .compact (f1 (.v 3) (.v 1) (.p 2))),
    ([0x090301F0], .matchP (f1 (.v 3) (.v 1) .zero)),
    ([0x0A030102], .exset (f1 (.v 3) (.v 1) (.v 2))),
    ([0x0B03F0F0], .exdeal (f1 (.v 3) .zero .zero)),
    ([0x0CF0F0F0], .exclr (f1 .zero .zero .zero))].all (decodes 1) = true := by decide

theorem test_decode_memory : [
    ([0x80020884, 0x02200000], .ld { l := 0, tk := 1, d := .v 8, a := .s 4, x := some (x2 (.v 2) 2 .none 0 0) }),
    ([0x81000786, 0x02200000], .st (f2 (.v 7) (.s 6) (.v 2) 2 .none)),
    ([0x00000884], .ld { l := 0, tk := 0, d := .v 8, a := .s 4, x := none }),
    ([0x8110A0F0, 0xF0C00002], .st { l := 1, tk := 0, d := .s 32, a := .zero, x := some (x2 .zero 12 .none 0 2) }),
    ([0x82000402, 0xD3200001], .lda (f2 (.v 4) (.v 2) (.k 3) 2 .none 0 1)),
    ([0x8300D2E1, 0xF0240000], .waitk (f2 (.k 2) (.const 1) .zero 2 .core)),
    ([0x84001E84, 0xE1298000], .atom { l := 0, tk := 0, d := .v 30, a := .s 4, x := some { x2 (.const 1) 2 .dev 0 0 with rh := 3 } }),
    ([0x85800C82, 0xF0380001], .atomn { l := 8, tk := 0, d := .v 12, a := .s 2, x := some (x2 .zero 3 .dev 0 1) }),
    ([0x86000482, 0x06280000], .cas (f2 (.v 4) (.s 2) (.v 6) 2 .dev)),
    ([0x87000488, 0x05A40004], .hacc (f2 (.v 4) (.s 8) (.v 5) 10 .core 0 4)),
    ([0x88000986, 0x07200000], .gather (f2 (.v 9) (.s 6) (.v 7) 2 .none)),
    ([0x89000986, 0x07200000], .scatr (f2 (.v 9) (.s 6) (.v 7) 2 .none)),
    ([0x8A009484, 0x88240000], .lockl (f2 (.s 20) (.s 4) (.s 8) 2 .core)),
    ([0x8B00F084, 0x88240000], .unlockl (f2 .zero (.s 4) (.s 8) 2 .core)),
    ([0x8C00F084, 0xF0240000], .pfetch (f2 .zero (.s 4) .zero 2 .core)),
    ([0x8D00F0F0, 0xF02A0000], .fence (f2 .zero .zero .zero 2 .sys)),
    ([0x8E00F084, 0x88280000], .cflush (f2 .zero (.s 4) (.s 8) 2 .dev)),
    ([0x8F00F084, 0x88280000], .cinval (f2 .zero (.s 4) (.s 8) 2 .dev))].all (decodes 2) = true := by decide

theorem test_decode_matrix : [
    ([0x8000D184, 0xF0200003], .wbload (f2 (.k 1) (.s 4) .zero 2 .none 0 3)),
    ([0x8100D1F0, 0xF0200003], .wbdrop (f2 (.k 1) .zero .zero 2 .none 0 3)),
    ([0x8200D18A, 0xF0201000], .mma (f2 (.k 1) (.s 10) .zero 2 .none 1 0)),
    ([0x8300D28A, 0x8C201000], .mmas (f2 (.k 2) (.s 10) (.s 12) 2 .none 1 0)),
    ([0x8400F0F0, 0xF0200000], .accz (f2 .zero .zero .zero 2 .none)),
    ([0x8500D184, 0xF0200000], .accld (f2 (.k 1) (.s 4) .zero 2 .none)),
    ([0x8600D184, 0xF0202000], .accst (f2 (.k 1) (.s 4) .zero 2 .none 2 0)),
    ([0x8700D184, 0xF0280000], .accdr (f2 (.k 1) (.s 4) .zero 2 .dev)),
    ([0x880004E0, 0xF0200000], .accrd (f2 (.v 4) (.const 0) .zero 2 .none)),
    ([0x880084F0, 0xF0201000], .accrdSt (f2 (.s 4) .zero .zero 2 .none 1 0)),
    ([0x8900D1F8, 0xF0A00000, 0x00000040], .attn (f2 (.k 1) (.lit32 0x40) .zero 10 .none)),
    ([0x8A00D1F8, 0xF0A00000, 0x00000040], .attnfin (f2 (.k 1) (.lit32 0x40) .zero 10 .none)),
    ([0x8B00D1F0, 0xF0A00000], .psel (f2 (.k 1) .zero .zero 10 .none)),
    ([0x8C00D184, 0xF8200000, 0x000000C0], .kvapp (f2 (.k 1) (.s 4) (.lit32 0xC0) 2 .none)),
    ([0x8E00D389, 0xF0A00000], .demote (f2 (.k 3) (.s 9) .zero 10 .none)),
    ([0x8F00D38A, 0xF0200000], .kvres (f2 (.k 3) (.s 10) .zero 2 .none))].all (decodes 3) = true := by decide

theorem test_decode_async : [
    ([0x8000D1F0, 0xF0A00000], .copy (f2 (.k 1) .zero .zero 10 .none)),
    ([0x8100D1F0, 0xF0200000], .copyy (f2 (.k 1) .zero .zero 2 .none)),
    ([0x0200F0F0], .bseal { l := 0, tk := 0, d := .zero, a := .zero, x := none }),
    ([0x8300F0F0, 0xF0240000], .waitb (f2 .zero .zero .zero 2 .core)),
    ([0x8400F0F0, 0xF8200000, 0x00000021], .binit (f2 .zero .zero (.lit32 0x21) 2 .none)),
    ([0x851094F0, 0xF8240000, 0x00000200],
        .arrive { l := 1, tk := 0, d := .s 20, a := .zero, x := some (x2 (.lit32 0x200) 2 .core 0 0) }),
    ([0x8600F0E1, 0xF0200000], .arrdrop (f2 .zero (.const 1) .zero 2 .none)),
    ([0x870094E3, 0xF0240000], .bwait (f2 (.s 20) (.const 3) .zero 2 .core)),
    ([0x8800F088, 0xF0A00000], .qsrch (f2 .zero (.s 8) .zero 10 .none)),
    ([0x8900D183, 0xF0A00000], .lksend (f2 (.k 1) (.s 3) .zero 10 .none)),
    ([0x8A00C984, 0x86200000], .spawn (f2 (.q 1) (.s 4) (.s 6) 2 .none)),
    ([0x8B00C984, 0xE2200000], .glaunch (f2 (.q 1) (.s 4) (.const 2) 2 .none)),
    ([0x8C008884, 0xC9201000], .gscan (f2 (.s 8) (.s 4) (.q 1) 2 .none 1 0)),
    ([0x8D0083E2, 0xF0200000], .xacq (f2 (.s 3) (.const 2) .zero 2 .none)),
    ([0x0E00F0F0], .xrel { l := 0, tk := 0, d := .zero, a := .zero, x := none }),
    ([0x8F000405, 0xF0200000], .tqpush (f2 (.v 4) (.v 5) .zero 2 .none))].all (decodes 4) = true := by decide

theorem test_decode_control : [
    ([0x00000000], .nop),
    ([0x01200002], .prep 1 2),
    ([0x8223FFFF, 0x84F00000], .preps 1 0x3FFFF 4),
    ([0x83000000, 0x88F00000], .scmp 0 .eq .s32 (.s 8) .zero),
    ([0x83102C00, 0x888A0000], .scmp 2 .ge .n64 (.s 8) (.s 10)),
    ([0x044A0000], .xfer 2 1 false true),
    ([0x856E0000, 0x84000000], .xcall 3 1 true true (some 4)),
    ([0x05600000], .xcall 3 0 false false none),
    ([0x06444000], .xany 2 1 true),
    ([0x07404000], .xall 2 1 false),
    ([0x08004000], .ifP 1),
    ([0x09008000], .ifnP 2),
    ([0x0A000000], .elseP),
    ([0x0B000000], .endif),
    ([0x0C000000], .loopP),
    ([0x0D000000], .breakP 0),
    ([0x0E004000], .contP 1),
    ([0x0F180000], .endloop 3),
    ([0x10000000], .serial),
    ([0x11100000], .endserial 2),
    ([0x12003FFF], .yieldP 0x3FFF),
    ([0x1301C000], .exitP 7),
    ([0x1301E000], .exitSaved),
    ([0x140A0009], .trapU 1 false true 9),
    ([0x16000000], .icsync),
    ([0x17000005], .bkpt 5),
    ([0x18080800], .qset 1 (.const true)),
    ([0x1814E000], .qset 2 (.all 3 true))].all (decodes 5) = true := by decide

theorem test_decode_system : [
    ([0x00820012], .srd 2 0x12),
    ([0x01840020], .swr 4 0x20),
    ([0x02860000], .statesvTeam (some 6)),
    ([0x02F00001], .statesvBar none),
    ([0x03F00000], .statersTeam none),
    ([0x03860001], .statersBar (some 6)),
    ([0x04F0ABCD], .svc 0xABCD),
    ([0x05F00000], .eret),
    ([0x06860001], .clkrd 6 true),
    ([0x87840000, 0x00011234], .tlbinv (.page 4 true 0x1234)),
    ([0x87F00001, 0x00001234], .tlbinv (.asid 0x1234)),
    ([0x87F00002, 0x00000000], .tlbinv .all),
    ([0x08F00001], .worldx true)].all (decodes 6) = true := by decide

/-! ### Small states -/

/-- The device with one team at an instruction that has its turn: context 0, core 0, a cast with eight barriers and
matrix context 0, 32 lanes. -/
def placed (i : Instr) : State := { State.reset.placeInstr i.cls (encode i) with cur := some 2 }

/-- A change of every team. -/
def onTeams (f : Team → Team) (s : State) : State := { s with teams := s.teams.map f }

/-- A change of every cast. -/
def onCasts (f : Cast → Cast) (s : State) : State := { s with casts := s.casts.map f }

/-- The instruction issues in the state, and `p` holds there. -/
def issuesIn (i : Instr) (s : State) (p : State → Team → Clause → Bool) : Bool :=
  match s.current with
  | some (t, c) => !t.settling && !t.heldByWindow c && !t.illegal c i && !(t.lchk && t.breaksPromise i) &&
      !t.interlocked i
      && p s t c
  | none => false

/-- It issues in the small state changed by `f`, where `p` holds. -/
def issuesWith (f : State → State) (p : State → Team → Clause → Bool) (i : Instr) : Bool := issuesIn i (f (placed i)) p

/-- It issues in the small state. -/
def issues (i : Instr) : Bool := issuesWith id (fun _ _ _ => true) i

theorem issuesIn_issues {i : Instr} {s : State} {p : State → Team → Clause → Bool} (h : issuesIn i s p = true) :
    ∃ t c, Issues i s t c ∧ p s t c = true := by
  unfold issuesIn at h
  cases hc : s.current with
  | none => simp [hc] at h
  | some x =>
    obtain ⟨t, c⟩ := x
    rw [hc] at h
    simp only [Bool.and_eq_true, Bool.not_eq_true'] at h
    obtain ⟨⟨⟨⟨⟨h1, h2⟩, h3⟩, h4⟩, h5⟩, h6⟩ := h
    exact ⟨t, c, ⟨rfl.trans hc, h1, h2, h3, h4, h5⟩, h6⟩

/-- An outstanding entry of the small state's team. -/
def entryFor (i : Instr) (o : F2) : Outst :=
  { pos := 1, clause := 0, instr := i, l := o.l.toNat, tk := o.tk.toNat, act := 0xFFFFFFFF, addrs := [], data := [],
    datb := [], args := [], block := [], needs := [], outs := [], fail := none, seq := 9, since := 0, taken := false }

/-- The small state with that entry outstanding. -/
def outstanding (e : Outst) : State := onTeams (fun t => { t with outst := [e] }) (placed .nop)

/-- The entry is there and `p` holds of it. -/
def entryIn (s : State) (p : Team → Outst → Bool) : Bool :=
  match s.entry? 2 9 with
  | some (tm, e) => p tm e
  | none => false

/-- The entry may be performed, and `p` holds of it. -/
def performs (s : State) (p : Team → Outst → Bool) : Bool :=
  (s.posted? 2 9).isNone && entryIn s fun tm e =>
    e.ends && tm.inOrder e && !s.awaiting tm e && s.mapped tm e && !e.sent && p tm e

theorem performs_performs {s : State} {p : Team → Outst → Bool} (h : performs s p = true) :
    ∃ tm e, Performs s 2 9 tm e ∧ p tm e = true := by
  simp only [performs, entryIn, Bool.and_eq_true] at h
  obtain ⟨hp, h⟩ := h
  cases hc : s.entry? 2 9 with
  | none => simp [hc] at h
  | some x =>
    obtain ⟨tm, e⟩ := x
    rw [hc] at h
    simp only [Bool.and_eq_true, Bool.not_eq_true'] at h
    obtain ⟨⟨⟨⟨⟨h1, h2⟩, h3⟩, h4⟩, h5⟩, h6⟩ := h
    exact ⟨tm, e, ⟨by simpa using hp, hc, h1, h2, h3, h4, h5⟩, h6⟩

/-- A page of a leaf word; a system-coherent one, whose accesses no cache holds (R258). -/
def page (leaf : DWord) : Page := { asid := 0, g := 0, leaf := leaf, via := none }
def plain : Xlat := .mapped 0 (page 0)
def direct : Xlat := .mapped 0 (page 0x0100000000000000)

/-! ### For each statement, states and operands that meet its hypotheses -/

theorem witness_MovesAndIntegerArithmeticComplete : [
    .mov (f1 (.v 3) (.s 2) .zero), .mov (f1 (.k 3) (.s 2) .zero), .sel (f1x .b32 0 (.s 40) (.const 1) .zero (.q 1)),
    .sel (f1x .b32 0 (.v 9) (.v 0) (.lit32 5) (.p 2)),
    .sval (f1 (.v 3) (.const 2) .zero), .iadd (f1 (.v 3) (.v 1) (.v 2)), .isub (f1 (.v 3) (.v 1) (.k 2)),
    .imul (f1x .s16 0 (.v 3) (.v 1) .team), .imulh (f1x .n64 0 (.v 4) (.v 0) (.v 2)),
    .imad (f1x .s32 0 (.v 1) .team (.lit32 32) .lane), .imad (f1x .s32 1 (.v 4) (.v 1) (.v 2) (.v 6)),
    .imin (f1 (.v 3) (.v 1) (.v 2)), .imax (f1 (.v 3) (.v 1) (.v 2)), .iabs (f1 (.v 3) (.v 1) .zero),
    .ineg (f1 (.v 3) (.v 1) .zero)].all issues = true := by decide +kernel

theorem witness_CarryAddressAndCompareComplete : [
    .iadc (f1x .n32 9 (.v 4) (.v 0) (.v 2)), .iadc (f1x .n64 11 (.s 4) (.s 0) (.s 2)),
        .isbc (f1x .n32 0 (.v 5) (.v 1) (.v 3) (.p 1)),
    .lea (f1x .b64 0x0A (.v 4) (.s 2) (.v 1)), .iset (f1x .n32 2 (.p 1) (.v 1) (.v 2)),
        .iset (f1x .s64 5 (.q 1) (.s 2) (.s 4)),
    .bytep (f1 (.v 3) (.v 1) (.v 2))].all issues = true := by decide +kernel

theorem witness_LogicShiftsAndFieldsComplete : [
    .andL (f1 (.v 3) (.v 1) (.v 2)), .orL (f1 (.v 3) (.v 1) (.v 2)), .xorL (f1 (.v 3) (.v 1) (.v 2)),
    .andn (f1x .b64 0 (.v 2) (.v 4) (.lit64 7)), .notL (f1 (.v 3) (.v 1) .zero), .shl (f1 (.v 3) (.v 1) (.v 2)),
    .shr (f1 (.v 3) (.v 1) (.v 2)), .sar (f1 (.v 3) (.v 1) (.v 2)), .rot (f1 (.v 3) (.v 1) (.v 2)),
    .bfx (f1 (.v 3) (.v 1) (.v 2)), .bfi (f1 (.v 3) (.v 1) (.v 2)), .brev (f1 (.v 3) (.v 1) .zero),
    .popc (f1 (.v 3) (.v 1) .zero), .clz (f1 (.v 3) (.v 1) .zero)].all issues = true := by decide +kernel

theorem witness_FloatingPointCompletes : [
    .fadd (f1 (.v 3) (.v 1) (.v 2)), .fsub (f1 (.v 3) (.v 1) (.v 2)), .fmul (f1 (.v 3) (.v 1) (.v 2)),
    .ffma (f1 (.v 3) (.v 1) (.v 2)), .fmin (f1 (.v 3) (.v 1) (.v 2)), .fmax (f1 (.v 3) (.v 1) (.v 2)),
    .fset (f1x .f32 7 (.q 2) (.s 1) (.s 2)), .frcp (f1 (.v 3) (.v 1) .zero), .frsq (f1 (.v 3) (.v 1) .zero),
    .fsqrt (f1 (.v 3) (.v 1) .zero), .fexp2 (f1 (.v 3) (.v 1) .zero), .flog2 (f1 (.v 3) (.v 1) .zero),
    .fscale (f1 (.v 3) (.v 1) (.v 2)), .fexpo (f1 (.v 3) (.v 1) .zero), .fclass (f1 (.v 3) (.v 1) .zero),
    .frnd (f1 (.v 3) (.v 1) .zero)].all issues = true := by decide +kernel

theorem witness_ConversionsPackedAndPredicatesComplete : [
    .cvt (f1x .f32 4 (.v 3) (.v 1) .zero), .pack (f1x .f32 11 (.v 3) (.v 1) (.const 1)),
    .unpk (f1x .f32 18 (.v 3) (.v 1) (.const 5)), .hadd2 (f1 (.v 3) (.v 1) (.v 2)), .hmul2 (f1 (.v 3) (.v 1) (.v 2)),
    .hfma2 (f1 (.v 3) (.v 1) (.v 2)), .dot4 (f1 (.v 3) (.v 1) (.v 2)), .dot2 (f1 (.v 3) (.v 1) (.v 2)),
    .pand (f1 (.p 1) (.p 2) (.p 3)), .por (f1 (.p 1) (.p 2) (.p 3)), .pxor (f1 (.q 1) (.q 2) (.q 3)),
    .pnot (f1 (.p 0) (.p 0) .zero), .pmov (f1 (.p 1) (.p 2) .zero)].all issues = true := by decide +kernel

theorem witness_LaneOperationsComplete : [
    .shfl (f1x .b32 1 (.v 3) (.v 1) (.const 5)), .bcast (f1 (.v 3) (.v 1) (.const 5)),
        .vote (f1x .b32 3 (.v 5) (.p 1) .zero),
    .matchP (f1 (.v 3) (.v 1) .zero), .compact (f1 (.v 3) (.v 1) (.p 2)), .reduce (f1x .s64 0 (.v 10) (.v 10) .zero),
    .scan (f1x .f32 0x1A (.v 3) (.v 1) .zero), .segscan (f1 (.v 3) (.v 1) (.p 2)),
        .lrscan (f1x .f32 0 (.v 4) (.v 6) (.v 8)),
    .segred (f1x .f32 8 (.v 11) (.v 10) .owner)].all issues = true := by decide +kernel

/-- A team whose expand state is armed. -/
def armed : State → State := onTeams fun t => { t with expand := { t.expand with armed := true, total := 5 } }

theorem witness_ExpandUnitCompletes :
    issuesWith id (fun _ t _ => !t.expand.armed && decide (exBase (exPairs t (f1 (.v 3) (.v 1) (.v 2))) t.n ≤ 0xFFFFFFFF))
      (.exset (f1 (.v 3) (.v 1) (.v 2))) = true ∧
    issuesWith armed (fun _ t _ => t.expand.armed) (.exset (f1 (.v 3) (.v 1) (.v 2))) = true ∧
    issuesWith id (fun _ t _ => decide (0xFFFFFFFF < exBase (exPairs t (f1 (.v 3) .zero (.lit32 0xFFFFFFFF))) t.n))
      (.exset (f1 (.v 3) .zero (.lit32 0xFFFFFFFF))) = true ∧
    issuesWith armed (fun _ t _ => t.expand.armed) (.exdeal (f1 (.v 3) .zero .zero)) = true ∧
    issuesWith id (fun _ t _ => !t.expand.armed) (.exdeal (f1 (.v 3) .zero .zero)) = true ∧
    issues (.exclr (f1 .zero .zero .zero)) = true := by decide +kernel

theorem witness_ControlFlowCompletes : [
    .prep 1 2, .preps 1 0x3FFFF 4, .scmp 2 .ge .n64 (.s 8) (.s 10), .qset 1 (.const true), .qset 2 (.all 3 true),
    .xfer 2 1 false true, .xcall 3 1 true true (some 4), .xcall 3 0 false false none, .xany 2 1 true,
    .xall 2 1 false].all issues = true ∧
    issuesWith id (fun _ t _ => t.mine == []) (.xcall 7 0 false false none) = true ∧
    issuesWith (onTeams fun t => { t.prepare 7 0x4000 with outst := [{ entryFor (.lda (f2 (.v 4) (.v 2) (.k 3) 2 .none 0 1))
        (f2 (.v 4) (.v 2) (.k 3) 2 .none 0 1) with l := 8, clause := t.clauseNo }] })
      (fun _ t _ => (t.branch 7).valid && t.mine != []) (.xcall 7 0 false false none) = true := by decide +kernel

/-- A team whose mask stack is `es`, from the top. -/
def stacked (es : List (MaskKind × Mask)) : State → State :=
  onTeams fun t => { t with stack := es.map fun e => { kind := e.1, mask := e.2 } }

/-- A mask instruction issues on the stack `es`, where `p` holds. -/
def masks (i : Instr) (es : List (MaskKind × Mask)) (p : Team → Bool := fun _ => true) : Bool :=
  issuesWith (stacked es) (fun _ t _ => t.stack == es.map (fun e => { kind := e.1, mask := e.2 }) && p t) i

/-- A full stack, and one with a single entry left. -/
def full (n : Nat) : List (MaskKind × Mask) := List.replicate n (.ifK, 1)

theorem witness_DivergenceCompletes :
    [Instr.ifP 1, .ifnP 2, .loopP, .serial].all (masks · []) = true ∧
    [Instr.ifP 1, .ifnP 2, .loopP, .serial].all (masks · (full 16)) = true ∧
    [Instr.loopP, .serial].all (masks · (full 14)) = true ∧ [Instr.loopP, .serial].all (masks · (full 15)) = true ∧
    masks .elseP [(.ifK, 6)] = true ∧ masks .elseP [(.elseK, 6)] = true ∧ masks .elseP [] = true ∧
    masks .endif [(.ifK, 6)] = true ∧ masks .endif [(.elseK, 6)] = true ∧ masks .endif [(.loopC, 6)] = true ∧
    masks .endif [] = true ∧
    [Instr.breakP 0, .contP 1].all (masks · [(.ifK, 1), (.loopC, 2), (.loopX, 3)]) = true ∧
    [Instr.breakP 0, .contP 1].all (masks · [(.ifK, 1)]) = true ∧
    [Instr.breakP 0, .contP 1].all (masks · [(.elseK, 1), (.serialR, 2), (.serialX, 3)]) = true ∧
    masks (.endloop 3) [(.loopC, 2), (.loopX, 3)] (fun t => (t.act ||| 2) &&& ~~~t.exited != 0) = true ∧
    issuesWith (fun s => onTeams (fun t => { t with act := 0 }) (stacked [(.loopC, 0), (.loopX, 3)] s))
      (fun _ t _ => (t.act ||| 0) &&& ~~~t.exited == 0) (.endloop 3) = true ∧
    masks (.endloop 3) [(.serialR, 2), (.serialX, 3)] = true ∧
    masks (.endserial 2) [(.serialR, 6), (.serialX, 7)] (fun t => 6 &&& ~~~t.exited != 0) = true ∧
    masks (.endserial 2) [(.serialR, 0), (.serialX, 7)] (fun t => 0 &&& ~~~t.exited == 0) = true ∧
    masks (.endserial 2) [] = true ∧ (2 < 1024 ∧ (12 : Mask).getLsbD 2 = true ∧ (12 : Mask).getLsbD 1 = false) := by
  decide +kernel

/-- The context's DBG is set. -/
def debugged : State → State := fun s => s.onCtx 0 fun c => { c with dbg := true }

theorem witness_LeavingTrappingAndWaitingComplete :
    [Instr.nop, .yieldP 5, .yieldP 0, .exitP 7, .trapU 0 false false 9].all issues = true ∧
    issuesWith id (fun _ t _ => t.readQ 1 == false) (.trapU 1 false true 9) = true ∧
    issuesWith id (fun _ t _ => t.readQ 1 != true) (.trapU 1 true true 9) = true ∧
    issuesWith debugged (fun s t _ => (s.ctx t.ctx).dbg) (.bkpt 5) = true ∧
    issuesWith id (fun s t _ => !(s.ctx t.ctx).dbg) (.bkpt 5) = true ∧
    issuesWith id (fun _ t _ => !t.unperformed.any Outst.stores) .icsync = true := by decide +kernel

theorem witness_MemoryAccessesIssue : [
    .ld (f2 (.v 8) (.s 4) (.v 2) 2 .none), .st (f2 (.v 7) (.s 6) (.v 2) 2 .none),
        .st (f2 (.s 32) .zero .zero 12 .none 0 2),
    .lda (f2 (.v 4) (.v 2) (.k 3) 2 .none 0 1), .atom (f2 (.v 30) (.s 4) (.const 1) 2 .dev),
    .atomn (f2 (.v 12) (.s 2) .zero 3 .dev 0 1), .cas (f2 (.v 4) (.s 2) (.v 6) 2 .dev),
        .gather (f2 (.v 9) (.s 6) (.v 7) 2 .none),
    .scatr (f2 (.v 9) (.s 6) (.v 7) 2 .none)].all issues = true := by decide +kernel

/-- HACC of R158's worked encoding, with its table at scratch offset 0. -/
def haccO : F2 := f2 (.v 4) (.s 8) (.v 5) 10 .core 0 4

/-- A line at VA 0, whose home is die 3, dirty in the L2 of die 0 and clean in the L1 of core 0, where it is locked. -/
def lineOf (home : Nat) (dirty : BitVec 128) : Line :=
  { asid := 0, line := 0, leaf := 0, base := 0, home := home, data := List.replicate 128 7, dirty := dirty, bad := 0,
    ret := .normal, since := 0 }
def cached (home : Nat) : State → State := fun s =>
  ((s.onL2 0 fun _ => [lineOf home 1]).onL1 0 fun _ => [lineOf home 0]).onCore 0 fun c =>
    { c with locks := [{ ctx := 0, asid := 0, line := 0 }] }

theorem witness_WaitsFencesAndResidencyIssue :
    issuesWith (onTeams fun t => { t with act := 0 }) (fun _ t _ => t.lanes == []) (.hacc haccO) = true ∧
    issuesWith id (fun s t _ => t.lanes != [] && (t.udword haccO.a).toNat % 8 == 0
      && !s.rangeHit t.core (s.spaceOf t (szScratch haccO.ext.sz)) (t.udword haccO.a).toNat 128 true
      && decide ((t.udword haccO.a).toNat + 128 ≤ s.scratchSize t)) (.hacc haccO) = true ∧
    [Instr.waitk (f2 (.k 2) (.const 1) .zero 2 .core), .pfetch (f2 .zero (.s 4) .zero 2 .core),
      .lockl (f2 (.s 20) (.s 4) (.s 8) 2 .core), .unlockl (f2 .zero (.s 4) (.s 8) 2 .core),
      .cflush (f2 .zero (.s 4) (.s 8) 2 .dev), .cinval (f2 .zero (.s 4) (.s 8) 2 .dev)].all issues = true ∧
    issuesWith id (fun _ t _ => !t.unperformed.any Outst.accesses && t.unacked == 0)
      (.fence (f2 .zero .zero .zero 2 .sys)) = true ∧
    issuesWith id (fun _ t _ => t.vaddr (f2 .zero (.const 2) .zero 2 .core) true 0 % szBytes 2 != 0) .nop = true ∧
    issuesWith (cached 3) (fun s t _ => ((s.acquire t .die).core t.core).l1.any fun l => l.asid == (s.ctx t.ctx).asid) .nop
      = true ∧
    issuesWith (cached 3) (fun s t _ => ((s.release t .dev).l2.getD (coreDie t.core) []).any fun l =>
      l.asid == (s.ctx t.ctx).asid && l.home != coreDie t.core) .nop = true := by decide +kernel

/-- A lane access to scratch with two lanes. -/
def scratchAccess (i : Instr) (o : F2) : Outst :=
  { entryFor i o with addrs := [(0, 0), (1, 64)], data := [(0, 5), (1, 6)], datb := [(0, 7), (1, 8)] }

/-- A scratch access of words. -/
def scrO : F2 := f2 (.v 8) .zero (.v 2) 10 .none

/-- The two lanes' access is performed, and `p` holds. -/
def scratchDue (i : Instr) (o : F2) (p : State → Team → Outst → Bool) : Bool :=
  let s := outstanding (scratchAccess i o)
  performs s (p s)

/-- A table of HACC whose slots 0 to 7 hold other keys, with empty slots after them. -/
def foreign : Memory := (List.range 8).map fun i => (8 * i, 1)

/-- HACC's entry of lane 0 with key 5, and the state with scratch `m`. -/
def haccAt (m : Memory) (p : State → Team → Outst → Bool) : Bool :=
  let s := onCasts (fun c => { c with scratch := m }) (outstanding (scratchAccess (.hacc scrO) scrO))
  entryIn s (p s)

theorem witness_MemoryAccessesArePerformed :
    (scratchDue (.ld scrO) scrO fun s tm e => decide (LoadGood s tm e scrO (loadSx scrO))) = true ∧
    (scratchDue (.lda scrO) scrO fun s tm e => decide (LoadGood s tm e scrO (loadSx scrO))) = true ∧
    (scratchDue (.gather scrO) scrO fun s tm e => decide (LoadGood s tm e scrO false)) = true ∧
    [Instr.st scrO, .scatr scrO].all (fun i => scratchDue i scrO fun _ _ _ => true) = true ∧
    [(Instr.atom scrO, 0), (.atomn scrO, 0), (.cas scrO, 8), (.scatr (f2 (.v 8) .zero (.v 2) 10 .none 1),
        0)].all (fun i =>
      scratchDue i.1 scrO fun s tm e =>
        let r := atomicLanes tm e 4 i.2 true e.addrs (s.release tm (atomicScope e.instr 1)) []
        r.2.2 == none && !r.1.awaiting tm e) = true ∧
    (scratchDue (.atom scrO) scrO fun s tm e => !(s.aload tm e true 0 4).2.2) = true ∧
    (scratchDue (.hacc scrO) scrO fun s tm e => !e.peerTable && (haccLanes tm e scrO e.addrs s []).2.2 == none) = true ∧
    (haccAt [(0, 0xFF), (1, 0xFF), (2, 0xFF), (3, 0xFF), (40, 5)] fun s tm e =>
      let word (a : Nat) := leNat (s.aread tm e true a 4)
      laneValue e.data 0 == 5 && haccSlots scrO == 1 && word 0 == 0xFFFFFFFF && !s.abad tm e true 0 8) = true ∧
    (haccAt [(0, 5)] fun s tm e => leNat (s.aread tm e true 0 4) == 5 && !s.abad tm e true 0 8) = true ∧
    (haccAt foreign fun s tm e => (List.range 8).all fun i => leNat (s.aread tm e true (8 * i) 4) == 1
      && !s.abad tm e true (8 * i) 8) = true := by decide +kernel

/-- A scoped residency operation of two lines of a page, and one whose range a lock covers. -/
def residO : F2 := f2 (.s 20) (.s 4) (.s 8) 2 .core
def resident (i : Instr) : Outst := { entryFor i residO with args := [0, 256], outs := [(0, plain)] }

theorem witness_ScopedResidencyIsPerformed : [
    Instr.lockl residO, .unlockl residO, .unlockl (f2 .zero (.s 4) (.s 8) 2 .die), .cflush residO,
    .cflush (f2 .zero (.s 4) (.s 8) 2 .dev 1), .cinval (f2 .zero (.s 4) (.s 8) 2 .dev)].all (fun i =>
      performs (outstanding (resident i)) fun _ _ => true) = true := by decide +kernel

/-- Barrier 0 holds a word. -/
def barWord (w : DWord) : State → State := onCasts fun c => { c with bars := [w] }

/-- ARRIVE of `n` bytes at barrier 0, and of 4; BINIT of barrier 0 with a setting. -/
def arriveAt (n : BitVec 32) : F2 := f2 (.s 20) .zero (.lit32 n) 2 .core
def arriveO : F2 := arriveAt 4
def binitO (w : BitVec 32) : F2 := f2 .zero .zero (.lit32 w) 2 .none
def bwaitO : F2 := f2 (.s 20) .zero .zero 2 .core

/-- A bar word with slot 0 in PART and EXP 1; the same in phase 1; a broken one. -/
def openBar : DWord := 0x0000010100000000
def laterBar : DWord := 0x0001010100000000
def brokenBar : DWord := 0x0000810100000000

/-- The first barrier number past the cast's eight. -/
def pastO : F2 := f2 .zero (.const 8) .zero 2 .none

/-- ARRIVE is in range, and its barrier as a change finds it meets `p`. -/
def arrives (o : F2) (w : DWord) (p : Team → Bar → Bool) : Bool :=
  issuesWith (barWord w) (fun s t _ => decide (barNo t o < s.barriers t) && decide ((t.uword o.ext.b).toNat ≤ 2 ^ 24)
    && !t.unperformed.any Outst.accesses && t.unacked == 0 && p t (s.barsNow t o).1 && (s.barsNow t o).1 == (s.barsNow t o).2) (.arrive o)

theorem witness_BarriersComplete :
    issuesWith id (fun s t _ => decide (barNo t (binitO 0x21) < s.barriers t) && !binitBad (t.uword (binitO 0x21).ext.b))
      (.binit (binitO 0x21)) = true ∧
    arrives arriveO openBar (fun t b => !b.brk && b.part.getLsbD t.cslot && !b.arr.getLsbD t.cslot) = true ∧
    arrives (arriveAt 0x1000000) openBar (fun _ b => !b.brk) = true ∧
    arrives arriveO 0 (fun t b => !b.brk && !b.part.getLsbD t.cslot) = true ∧
    issuesWith id (fun s t _ => decide (barNo t (f2 .zero (.const 7) .zero 2 .none) < s.barriers t))
      (.arrdrop (f2 .zero (.const 7) .zero 2 .none)) = true ∧
    [(openBar, true), (laterBar, false)].all (fun w => issuesWith (barWord w.1) (fun s t _ =>
      decide (barNo t bwaitO < s.barriers t) && !(s.barOf t bwaitO).brk
        && ((s.barOf t bwaitO).phase == (t.uword bwaitO.d).setWidth 16) == w.2)
      (.bwait bwaitO)) = true ∧
    [Instr.binit pastO, .arrive pastO, .arrdrop pastO, .bwait pastO].all (issuesWith id fun s t _ =>
      decide (s.barriers t ≤ barNo t pastO)) = true ∧
    issuesWith id (fun _ t _ => binitBad (t.uword (binitO 5).ext.b)) (.binit (binitO 5)) = true ∧
    issuesWith id (fun _ t _ => decide (2 ^ 24 < (t.uword (arriveAt 0x1000001).ext.b).toNat)) (.arrive (arriveAt 0x1000001))
      = true ∧
    issuesWith (barWord brokenBar) (fun s t _ => decide (barNo t bwaitO < s.barriers t) && (s.barOf t bwaitO).brk)
      (.bwait bwaitO) = true ∧
    arrives arriveO brokenBar (fun _ b => b.brk) = true ∧
    (match (barWord openBar (placed .nop)).cast? 1 with
     | some c => c.recent.all (·.bar != 0) && !((c.bar 0).clock ((placed .nop).liveSlots 1) [.arrive 0 4]).txOut
     | none => false) = true ∧
    (let b : Bar := { Bar.ofWord openBar with arr := 1 }
     b.brk = false ∧ b.exp ≠ 0 ∧ b.exp.toNat ≤ slotCount b.arr ∧ b.tx = 0) := by decide +kernel

/-- Page tables at 0x100000 and 0x108000 under which the first 256 MiB of context 0 map themselves, readable, writable and
executable at both levels (R257, R258); a grid descriptor of one 32-lane team at 0x2000 (R281), a clause of one NOP at
0x4000, a queue-table entry at 0x6000 (R279), a context descriptor at 0x7000 (R278), a list of descriptor addresses at
0x9000, three KV page descriptors from 0xA000 (R183), and a list record at 0xB1C0 (R306). -/
def mapped (s : State) : State :=
  ({ s with mem := [(0x2014, 0x20), (0x2016, 0x40), (0x2018, 8), (0x201C, 1), (0x2023, 0x40), (0x4003, 0x1A), (0x6010, 0x84),
      (0x7018, 6), (0x9000, 1), (0x9008, 0x40), (0x9009, 0xA0), (0xA000, 1), (0xA020, 0x21),
      (0xA040, 1), (0xA04B, 2), (0xB1C1, 0xC0), (0xB1D0, 4), (0x100001, 0x80), (0x100002, 0x10), (0x100007,
          0x80), (0x108007, 0xFC)] } : State).onCtx 0 fun c =>
    { c with root := 0x100000, qtab := 0x6000 }

/-- Scratch that holds these bytes. -/
def scratch (m : Memory) : State → State := onCasts fun c => { c with scratch := m }

/-- A descriptor at offset 0 of a copy of 16 bytes from 0x800 to 0x1000 (R197): CTL's second byte says which are scratch
and, with the mask, that it is a multicast. -/
def copyCells (ctl : Byte) (mask : Byte := 0) : Memory :=
  [(1, 8), (9, 0x10), (0x10, 16), (0x14, 1), (0x21, ctl)] ++ if mask == 0 then [] else [(0x22, mask)]

/-- The same descriptor as bytes. -/
def bytesOf (m : Memory) : List Byte := (List.range 64).map fun k => Memory.read m k
def copyBytes : List Byte := bytesOf (copyCells 0x30)

/-- COPY of that descriptor, of a misaligned one, and of one past the scratch; and COPYY. -/
def copyO : F2 := f2 (.k 1) .zero .zero 10 .none
def copyFrom (a : BitVec 32) : F2 := f2 (.k 1) (.lit32 a) .zero 10 .none
def copyyO : F2 := f2 (.k 1) .zero .zero 2 .none

/-- A team whose last copy is that one. -/
def copied : State → State := onTeams fun t => { t with last := some { desc := copyBytes, mcbase := 0, origin := 0 } }

/-- COPY's acceptance is due in the state, and finds the descriptor good or bad. -/
def copyDue (s : State) (o : F2) (again good : Bool) : Bool :=
  entryIn s fun tm e =>
    let adds := s.copyRanges tm e.seq (CopyDesc.ofBytes (s.copyBlock tm o again).1) 0
    tm.inOrder e && (copyTrap s tm o again == none) == good &&
        decide ((s.copies.filter (·.cluster == coreCluster tm.core)).length < 64)
      && s.rangeRoom adds && !s.heldByAccess adds

/-- A copy under way at row `r`. -/
def copyAt (bs : List Byte) (r : Nat) : CopyOp :=
  { op := 9, cluster := 0, team := 2, ctx := 0, world := false, kc := none, again := false, batch := 0, desc := bs,
    mcbase := 0, casts := [1], cast := 1, core := 0, row := r, susp := none }

/-- The mapped small state with that copy. -/
def copying (bs : List Byte) (r : Nat) : State := { mapped (placed .nop) with copies := [copyAt bs r] }

/-- The copy's next row is due, and its ranges are mapped and good. -/
def rowDue (bs : List Byte) : Bool :=
  let s := copying bs 0
  let op := copyAt bs 0
  let d := CopyDesc.ofBytes bs
  let rd := engMode (coreDie op.core) op.world true false
  let sa := (rowAddr d.src d.sstr op.row d.sscr).toNat
  let checks := (if d.sscr then [] else [(rd, sa, d.rowLen)])
    ++ if d.dscr then [] else [(engMode (coreDie op.core) op.world false true,
        (rowAddr d.dst d.dstr op.row d.dscr).toNat, d.rowLen)]
  s.copies.find? (·.op == 9) == some op && s.alive op.ctx && decide (op.row < d.rows) &&
      s.engChecks (s.ctx op.ctx) checks == none
    && !(if d.sscr then (s.cast? op.cast).elim false fun c => c.sbad sa d.rowLen
      else s.vbad (s.xlatRange (s.ctx op.ctx) rd sa d.rowLen) sa d.rowLen)

theorem witness_CopiesAndBatchesComplete :
    issuesWith id (fun s t _ => decide ((t.uword copyO.a).toNat % 64 = 0 ∧
        (t.uword copyO.a).toNat + 64 ≤ s.scratchSize t))
      (.copy copyO) = true ∧
    issuesWith id (fun _ t _ => (t.uword (copyFrom 32).a).toNat % 64 != 0) (.copy (copyFrom 32)) = true ∧
    issuesWith id (fun s t _ => (t.uword (copyFrom 32768).a).toNat % 64 == 0
      && decide (s.scratchSize t < (t.uword (copyFrom 32768).a).toNat + 64)) (.copy (copyFrom 32768)) = true ∧
    issuesWith copied (fun _ t _ => t.last.isSome) (.copyy copyyO) = true ∧
    issuesWith id (fun _ t _ => t.last == none) (.copyy copyyO) = true ∧
    [true, false].all (fun good => copyDue (scratch (if good then copyCells 0x30 else []) (outstanding (entryFor (.copy copyO) copyO)))
      copyO false good) = true ∧
    copyDue (copied (outstanding (entryFor (.copyy copyyO) copyyO))) copyyO true true = true ∧
    [copyCells 0x30, copyCells 0x10, copyCells 0x20, copyCells 0,
        copyCells 0xA0 1].all (fun m => rowDue (bytesOf m)) = true ∧
    ((copying copyBytes 0).cast? 1).elim false (fun c => decide (0x1000 + (16 : Int) ≤ c.size)) = true ∧
    ((copying copyBytes 1).copies.find? (·.op == 9) = some (copyAt copyBytes 1) ∧ (CopyDesc.ofBytes copyBytes).rows ≤ 1 ∧
      (copying copyBytes 1).alive 0 = true ∧ (copying copyBytes 1).unanswered 9 = false) ∧
    issues (.bseal (f2 .zero .zero .zero 2 .none)) = true ∧
    performs (outstanding (entryFor (.bseal copyO) copyO)) (fun tm e => decide (tm.sealed.length < 8)
      && !tm.outst.any fun x => x.instr.starts && decide (x.seq < e.seq)) = true ∧
    issues (.waitb (f2 .zero .zero .zero 2 .core)) = true ∧
    entryIn (outstanding (entryFor (.waitb copyO) copyO)) (fun tm _ => decide (tm.sealed.length ≤ waitbCount copyO)) = true := by
  decide +kernel

/-- A carry descriptor of 16 bytes at offset 0 (R205). -/
def carryCells : Memory := [(4, 16)]

/-- QSRCH of a packet at `a`, SPAWN, GLAUNCH and TQPUSH of all lanes. -/
def qsrchO (a : BitVec 32 := 0) : F2 := f2 .zero (.lit32 a) .zero 10 .none
def spawnO : F2 := f2 (.q 1) (.s 4) .zero 2 .none
def glaunchO : F2 := f2 (.q 1) (.s 4) (.const 2) 2 .none
def tqO : F2 := f2 (.v 4) (.v 5) .zero 2 .none

/-- Nothing earlier of the team that accesses memory or acquires is unperformed. -/
def idle (t : Team) : Bool := !t.unperformed.any fun p => p.accesses || Instr.acquires p.instr

/-- A token queue that every lane's word 0 names. -/
def withTokens : State → State := fun s => { s with tokens :=
  [{ die := 0, q := 0, ctx := 0, buf := 0, gdva := 0, capl := 6, thr := 16, tmo := 0, tpc := 1, pushed := 0, launched := 0,
     freed := 0, timer := none, batches := [] }] }

/-- A query of context 0 in a stack. -/
def queryAt (stack : Nat) : Query :=
  { id := 5, stack := stack, ctx := 0, world := false, team := 2, packet := [], outs := [], vis := [], cand := [], res := [],
    fresh := [], rounds := 0, full := false, nandist := false, badrec := false, status := none, written := false,
        ord := false,
    seq := 0 }

/-- As many as a stack has slots, of the stack that owns a packet of zeros. -/
def busyStack : State → State := fun s => { s with
  queries := List.replicate Config.querySlots (queryAt (s.ownerStack 0 (List.replicate 64 0))) }

/-- As many tasks of die 0 as its queue holds. -/
def fullTasks : State → State := fun s => { s with tasks := List.replicate 4096 (0, { ctx := 0, gd := 0, args := [] }) }

/-- LKSEND's entry, with its descriptor in scratch. -/
def carrying (m : Memory) (p : State → Team → Bool) : Bool :=
  let s := scratch m (outstanding { entryFor (.lksend copyO) copyO with args := [0] })
  performs s fun tm _ => p s tm

theorem witness_QueriesCarriesAndLaunchesComplete :
    issuesWith id (fun s t _ => qsrchTrap s t qsrchO == none && idle t && (s.packetHead t qsrchO).2
      && !s.slotsFull t (s.packetHead t qsrchO).1
      && (let adds := (rangeOf 0 false (.scratch t.cast) (qsrchAddr t qsrchO)
            (s.packetLen (s.packetHead t qsrchO).1)).map (t.core, ·)
          s.rangeRoom adds && !s.heldByAccess adds)) (.qsrch qsrchO) = true ∧
    issuesWith busyStack (fun s t _ => qsrchTrap s t qsrchO == none && (s.packetHead t qsrchO).2
      && s.slotsFull t (s.packetHead t qsrchO).1) (.qsrch qsrchO) = true ∧
    issuesWith (onTeams fun t => { t with outst := [{ entryFor (.ld scrO) scrO with l := 8, clause := t.clauseNo }] })
      (fun s t _ => qsrchTrap s t qsrchO == none && !idle t) (.qsrch qsrchO) = true ∧
    issuesWith id (fun _ t _ => qsrchAddr t (qsrchO 32) % 64 != 0) (.qsrch (qsrchO 32)) = true ∧
    issuesWith id (fun s t _ => decide ((t.uword copyO.a).toNat % 32 = 0 ∧
        (t.uword copyO.a).toNat + 32 ≤ s.scratchSize t))
      (.lksend copyO) = true ∧
    issuesWith id (fun _ t _ => (t.uword (copyFrom 16).a).toNat % 32 != 0) (.lksend (copyFrom 16)) = true ∧
    carrying [] (fun s tm => (carryTrap s tm copyO).isSome) = true ∧
    carrying carryCells (fun s tm => carryTrap s tm copyO == none
      && !(s.cast? tm.cast).elim false (fun c => c.sbad 0 16)
      && (let adds := (rangeOf 9 false (.scratch tm.cast) 0 16 ++ rangeOf 9 true (.scratch tm.cast) 0 32).map (tm.core, ·)
          s.rangeRoom adds && !s.heldByAccess adds)) = true ∧
    (let bs : List Byte := List.replicate 4096 0
     bs.isEmpty = false ∧ bs.length ≤ 4096 ∧ 232 * 17 < bs.length) ∧
    issuesWith fullTasks (fun s t _ => spawnTrap s t spawnO == none && !t.unperformed.any Outst.accesses
      && decide (4096 ≤ (s.tasks.filter (·.1 == coreDie t.core)).length)) (.spawn spawnO) = true ∧
    issuesWith id (fun s t _ => spawnTrap s t spawnO == none && !t.unperformed.any Outst.accesses
      && decide ((s.tasks.filter (·.1 == coreDie t.core)).length < 4096)
      && !(s.cast? t.cast).elim false (fun c => c.sbad (t.uword spawnO.ext.b).toNat 64)) (.spawn spawnO) = true ∧
    issuesWith id (fun _ t _ => decide ((t.uword glaunchO.ext.b).toNat < 16) && !t.unperformed.any Outst.accesses)
      (.glaunch glaunchO) = true ∧
    issuesWith id (fun _ t _ => decide (16 ≤ (t.uword (.lit32 16)).toNat)) (.glaunch (f2 (.q 1) (.s 4) (.lit32 16) 2 .none)) = true ∧
    issuesWith (onTeams fun t => { t with act := 0 }) (fun _ t _ => t.lanes == []) (.tqpush tqO) = true ∧
    issuesWith withTokens (fun s t _ => t.lanes != [] && s.tqBad t (tqLanes t tqO) == []) (.tqpush tqO) = true ∧
    (let s := withTokens (outstanding { entryFor (.tqpush tqO) tqO with data := [(0, 5)], datb := [(0, 0)], outs := [(0, plain)] })
     performs s fun tm e => s.tqBad tm e.datb == [] && (s.tokenQueue? (coreDie tm.core) 0 tm.ctx).isSome) = true := by
  decide +kernel

/-- GSCAN, XACQ. -/
def gscanO : F2 := f2 (.s 8) (.s 4) (.q 1) 2 .none
def xacqO : F2 := f2 (.s 3) (.const 2) .zero 2 .none

/-- A small budget and a partition with room for an extension block. -/
def lowBudget : State → State := fun s => (onTeams (fun t => { t with base := 8 }) s).onCore 0 fun c => { c with partw := 0x40000000 }

/-- GSCAN's entry of team `n` at VA 0 of a system-coherent page whose memory is `m`, with its range mapped. -/
def scanning (n : Nat) (m : Memory) (p : State → Team → Outst → Bool) : Bool :=
  let s : State := { outstanding { entryFor (.gscan gscanO) gscanO with args := [0, n, 3, 4], outs := [(0, direct)] } with mem := m }
  entryIn s fun tm e => s.mapped tm e && tm.inOrder e && p s tm e

/-- The word READY of a predecessor's slot, read without an error. -/
def readyOf (s : State) (tm : Team) (e : Outst) : Option Nat :=
  let r := s.teamRead tm.core e.outs (e.arg 0 + 16 * (e.arg 1 - 1)) 16 .home
  if r.2.2 then none else some (field r.2.1 8 4)

theorem witness_ScanLinkAndExtensionComplete :
    issuesWith id (fun _ t _ => (t.udword gscanO.a).toNat % 16 == 0) (.gscan gscanO) = true ∧
    issuesWith (onTeams fun t => t.writeS 4 8) (fun _ t _ => (t.udword gscanO.a).toNat % 16 != 0) (.gscan gscanO) = true ∧
    issuesWith lowBudget (fun _ t _ => !xacqIllegal t (t.uword xacqO.a).toNat) (.xacq xacqO) = true ∧
    entryIn (lowBudget (outstanding { entryFor (.xacq xacqO) xacqO with args := [2] })) (fun tm e =>
      let s := lowBudget (outstanding { entryFor (.xacq xacqO) xacqO with args := [2] })
      s.oldestXacq tm e && tm.extg == 0 &&
          (giveRuns (s.core tm.core).share (e.arg 0) true tm.liveGroups (s.usedRuns tm.core tm.sub)).isSome) = true ∧
    entryIn { outstanding (entryFor (.xacq xacqO) xacqO) with clk := 2 ^ 40 } (fun tm e =>
      decide (e.since + partTimeout ((outstanding (entryFor (.xacq xacqO) xacqO)).core tm.core).partw ≤ 2 ^ 40)) = true ∧
    issuesWith id (fun _ t _ => t.unperformed == []) (.xrel (f2 .zero .zero .zero 2 .none)) = true ∧
    entryIn (outstanding { entryFor (.waitk copyO) copyO with args := [1, 0] })
      (fun tm e => kReached (tm.readK (e.arg 0)) (BitVec.ofNat 16 (e.arg 1))) = true ∧
    entryIn (outstanding { entryFor (.bwait copyO) copyO with args := [0, 0, 2] }) (fun _ e => e.arg 2 == 2) = true ∧
    entryIn (outstanding { entryFor (.bwait copyO) copyO with args := [0, 0, 1] }) (fun _ e => e.arg 2 == 1) = true ∧
    scanning 0 [] (fun _ _ e => e.arg 1 == 0 && !gscanO.ext.fn.getLsbD 0) = true ∧
    scanning 1 [] (fun s tm e => e.arg 1 != 0 && readyOf s tm e == some 0) = true ∧
    scanning 1 [(0, 9), (8, 1)] (fun s tm e => e.arg 1 != 0 && readyOf s tm e == some 1) = true := by decide +kernel

/-- Supervisor level; a trap handler; a saving handler. -/
def super : State → State := onTeams fun t => { t with svl := true }
def handler : State → State := onTeams fun t => { t with hnd := true }
def saving : State → State := onTeams fun t => { t with psave := true }

theorem witness_SystemInstructionsComplete :
    issuesWith id (fun _ t _ => srTrap t 2 0x12 == none) (.srd 2 0x12) = true ∧
    issuesWith id (fun _ t _ => srTrap t 4 0x20 == none) (.swr 4 0x20) = true ∧
    issuesWith id (fun _ t _ => srTrap t 4 2 == none && t.outst.all fun e => !e.instr.starts) (.swr 4 2) = true ∧
    (0x20#16 ≠ 1 ∧ (placed .nop).cast? 1 ≠ none) ∧
    [Instr.srd 3 1, .swr 3 1].all (issuesWith id fun _ _ _ => srWide 1 && 3 % 2 == 1) = true ∧
    [Instr.srd 2 0x7FFF, .swr 2 0x7FFF].all (issuesWith id fun _ _ _ => decide (0x7FFF < 0x8000) &&
        !srUser 0x7FFF) = true ∧
    [Instr.srd 2 0x8000, .swr 2 0x8000].all (issuesWith id fun _ t _ => !t.svl) = true ∧
    [Instr.srd 2 0x8003, .swr 2 0x8103].all (issuesWith super fun _ t _ => t.svl) = true ∧
    (0x8000 ≤ (0x8003 : Nat) ∧ 0x8003 ∉ [0x8000, 0x8001, 0x8002, 0x8100, 0x8101, 0x8102] ∧
      0x8103 ∉ [0x8000, 0x8001, 0x8002, 0x8100, 0x8101, 0x8102]) ∧
    issuesWith (fun s => handler (stacked [(.ifK, 1)] s)) (fun _ t _ => t.hnd && t.stack.length != (t.readTS 4).toNat % 32) .eret
      = true ∧
    issuesWith (fun s => onTeams (fun t => { t with ts := [0, 0x18000000] }) (handler s)) (fun _ t _ => t.hnd &&
      t.stack.length == (t.readTS 4).toNat % 32 && (t.readTS 1).extractLsb' 27 2 == 3) .eret = true ∧
    issuesWith (onTeams fun t => { t with svcvec := 0x1000 }) (fun _ t _ => !t.hnd && t.svcvec != 0 &&
        t.mine == []) (.svc 7) = true ∧
    issuesWith id (fun _ t _ => t.svcvec == 0) (.svc 7) = true ∧
    issuesWith handler (fun _ t _ => t.hnd) (.svc 7) = true ∧
    issuesWith handler (fun _ t _ => t.hnd && t.stack.length == (t.readTS 4).toNat % 32
      && (t.readTS 1).extractLsb' 27 2 != 3) .eret = true ∧
    issuesWith id (fun _ t _ => !t.hnd) .eret = true ∧
    [Instr.clkrd 6 true, .clkrd 6 false].all issues = true ∧
    issuesWith super (fun s t _ => t.svl && !s.queryHolds t (.page 4 true 0) && !s.accessHolds t (.page 4 true 0))
      (.tlbinv (.page 4 true 0)) = true ∧
    issuesWith id (fun _ t _ => !t.svl) (.tlbinv .all) = true ∧
    issuesWith (fun s => { super s with wrt := { s.wrt with dual := 1 } }) (fun s t _ =>
      t.svl && s.mayBeSecure t && t.unperformed == [] && s.engineIdle t.id) (.worldx true) = true ∧
    issuesWith id (fun _ t _ => !t.svl) (.worldx false) = true ∧
    issuesWith super (fun s t _ => t.svl && !s.mayBeSecure t) (.worldx true) = true := by decide +kernel

/-- A state block of the small state's team is ready to be written, or read. -/
def blockReady (n : State → Team → Nat) (wr : Bool) (s : State) (t : Team) : Bool :=
  decide (BlockReady s t (stateVa t none) (n s t) wr) && t.unperformed == [] && !s.switching

theorem witness_StateSaveAndRestoreComplete :
    issuesWith mapped (fun s t _ => blockReady (fun _ _ => teamBlockSize) true s t &&
        s.drained t) (.statesvTeam none) = true ∧
    issuesWith mapped (fun s t _ => blockReady (fun s t => 8 * s.barriers t) true s t) (.statesvBar none) = true ∧
    issuesWith mapped (fun s t _ => blockReady (fun _ _ => teamBlockSize) false s t) (.statersTeam none) = true ∧
    issuesWith mapped (fun s t _ => blockReady (fun s t => 8 * s.barriers t) false s t) (.statersBar none) = true ∧
    issuesWith saving (fun s t _ => t.psave && s.quiet t) .exitSaved = true ∧
    issuesWith id (fun _ t _ => !t.psave) .exitSaved = true := by decide +kernel
theorem witness_MatrixAndAttentionCommandsIssue : [
    Instr.wbload (f2 (.k 1) (.s 4) .zero 2 .none 0 3), .wbdrop (f2 (.k 1) .zero .zero 2 .none 0 3),
    .mma (f2 (.k 1) (.s 10) .zero 2 .none 1), .mmas (f2 (.k 2) (.s 10) (.s 12) 2 .none 1),
        .accz (f2 .zero .zero .zero 2 .none),
    .accld (f2 (.k 1) (.s 4) .zero 2 .none), .accst (f2 (.k 1) (.s 4) .zero 2 .none 2),
        .accdr (f2 (.k 1) (.s 4) .zero 2 .dev),
    .accrd (f2 (.v 4) .zero .zero 2 .none), .accrdSt (f2 (.s 4) .zero .zero 2 .none 1),
    .attn (f2 (.k 1) (.lit32 0x40) .zero 10 .none), .attnfin (f2 (.k 1) (.lit32 0x40) .zero 10 .none),
    .psel (f2 (.k 1) .zero .zero 10 .none), .kvapp (f2 (.k 1) (.s 4) (.lit32 0xC0) 2 .none),
    .demote (f2 (.k 3) (.s 9) .zero 10 .none),
        .kvres (f2 (.k 3) (.s 10) .zero 2 .none)].all issues = true := by decide +kernel

/-- A command of the small state's team, and the small state with it at the head of its queue. -/
def cmd (i : Instr) : Command :=
  { op := 9, instr := i, team := 2, ctx := 0, kc := none, args := [0x1000, 0x2000], block := [], snaps := [], weight := Weight.reset,
    outst := none, started := false, prog := 0, susp := none, cleared := false, world := false, fin := false,
        bounds := [], massed := none }
def commanded (c : Command) : State := (placed .nop).onMatrix 0 0 fun x => { x with queue := [c] }

/-- A command is at the head of the queue, and `p` holds. -/
def headed (c : Command) (f : State → State) (p : State → Bool)
    : Bool := decide (AtHead (f (commanded c)) 0 0 c) && p (f (commanded c))

/-- Operands of class 3: with addresses in memory, and in scratch. -/
def memO : F2 := f2 (.k 1) (.s 4) .zero 2 .none
def scO : F2 := f2 (.k 1) (.s 4) .zero 10 .none

theorem witness_CommandsAcceptedResumedAndRead :
    entryIn (outstanding (entryFor (.accz memO) memO)) (fun tm e =>
      let s := outstanding (entryFor (.accz memO) memO)
      s.mctxOf tm == some 0 && e.offered && tm.inOrder e && !s.notFirst tm e && s.unanswered? tm e == none
        && match acceptOf s tm e 0 with
          | .take c rs =>
            let adds := (rs.flatMap fun r => rangeOf c.op r.2.2 (.scratch tm.cast) r.1 r.2.1).map (tm.core, ·)
            decide ((s.mqueue tm.core 0).length < 16) && s.rangeRoom adds && !s.heldByAccess adds
          | _ => false) = true ∧
    entryIn (outstanding (entryFor (.wbdrop memO) memO)) (fun tm e =>
      let s := outstanding (entryFor (.wbdrop memO) memO)
      s.mctxOf tm == some 0 && e.offered && tm.inOrder e && !s.notFirst tm e && s.unanswered? tm e == none
        && match acceptOf s tm e 0 with
          | .fail _ _ _ => true
          | _ => false) = true ∧
    (let c := { cmd (.accz memO) with susp := some (0, 0), cleared := true }
     (commanded c).mqueue 0 0 = [c] ∧ (commanded c).alive 0 = true) ∧
    headed (cmd (.wbdrop memO)) id (fun _ => true) = true ∧
    (let s := (outstanding { entryFor (.accrd memO) memO with args := [0], taken := true }).onMatrix 0 0 fun x =>
       { x with queue := [{ cmd (.accrd memO) with outst := some 9 }] }
     performs s fun tm e => s.mctxOf tm == some 0 && s.engineTurn tm.core 0 && (s.running? 0 0).elim false fun c => c.op == e.seq) = true ∧
    (let s := (outstanding { entryFor (.accrdSt memO) memO with taken := true }).onMatrix 0 0 fun x =>
       { x with queue := [{ cmd (.accrdSt memO) with outst := some 9 }] }
     performs s fun tm e => s.mctxOf tm == some 0 && s.engineTurn tm.core 0 && (s.running? 0 0).elim false fun c => c.op == e.seq) = true := by
  decide +kernel

/-- MATD for M = N = 2, K = 64 from its fields (R171), as the team reads it. -/
def someMatd : Nat := 0x0001000040020002

/-- The bytes of A and of B that step 0 of that product reads. -/
def aReads : List (Nat × Nat) :=
  let d := Matd.ofNat someMatd
  (panelReads d.afmt d.ase8 d.m (min 64 d.k)).map fun r => (d.aoff + r.1, r.2)
def bReads : List (Nat × Nat) :=
  let d := Matd.ofNat someMatd
  (panelReads d.bfmt d.bse8 d.n (min 64 d.k)).map fun r => (0x1000 + r.1, r.2)

/-- The command at the head reaches the ranges it reads and writes in memory, and finds its scratch good. -/
def engineReady (c : Command) (rds wrs scr : List (Nat × Nat)) (dev : List (Nat × Nat) := []) : Bool :=
  headed c mapped fun s => decide (EngineReaches s 0 c rds wrs dev) && !(engineTouched s 0 c rds wrs dev).mscrBad 0 0 scr

/-- MMA and MMAS of that product. -/
def mmaCmd (i : Instr) : Command := { cmd i with args := [someMatd, 0x1000] }

theorem witness_MatrixEngineRowsComplete :
    engineReady (cmd (.wbload scO)) [] [] [(0x1000, streamLen [])] = true ∧
    (engineReady (cmd (.wbload memO)) [(0x1000, streamLen [])] [] [] = true ∧
      headed (cmd (.wbload memO)) mapped (fun s =>
        let rds := [(0x1000, streamLen [])]
        let c := cmd (.wbload memO)
        let st := (engineTouched s 0 c rds []).vread (engineOuts s 0 c rds []) 0x1000 (streamLen [])
        match streamDecode st st.length with | .short _ => false | _ => true) = true) ∧
    engineReady (mmaCmd (.mma scO)) [] [] aReads = true ∧
    engineReady (mmaCmd (.mmas scO)) [] [] (aReads ++ bReads) = true ∧
    engineReady (mmaCmd (.mmas memO)) bReads [] aReads = true ∧
    engineReady (cmd (.accz scO)) [] [] [] = true ∧
    engineReady (cmd (.accld scO)) [] [] [(0x1000, 4096 * imageElem scO.ext.fn.toNat)] = true ∧
    engineReady (cmd (.accld memO)) [(0x1000, 4096 * imageElem memO.ext.fn.toNat)] [] [] = true ∧
    engineReady (cmd (.accst scO)) [] [] [] = true ∧
    engineReady (cmd (.accst memO)) [] [(0x1000, 16384)] [] = true ∧
    engineReady (cmd (.accdr scO)) [] [] [(0x1000, 16384)] = true ∧
    (let c := cmd (.accdr memO)
     let rs := [(0x1000, 16384)]
     headed c mapped fun s => s.engChecks (s.ctx c.ctx) (c.ranges 0 rs [] rs) == none &&
       !((s.engWalk (s.ctx c.ctx) (c.ranges 0 rs [] rs)).teamRead 0 (engineOuts s 0 c rs rs) 0x1000 16384
         (placeOf memO.ext.sc false)).2.2) = true := by decide +kernel

/-- A KVAPP of the page described at VA 0 by four zero words, a PSEL of it, and an ATTN of one page for one row. -/
def kvCmd (ws : List DWord) : Command := { cmd (.kvapp memO) with args := [0, 0x100], snaps := [(0, ws)] }
def pselCmd : Command := { cmd (.psel scO) with block := [1, 0, 0, 0, 0, 0, 1, 0], snaps := [(0, [0, 0x04000000, 0x200, 0])] }
def attnCmd (p : Nat) : Command :=
  { cmd (.attn scO) with block := [1, 0, 0, 1], prog := p, snaps := [(0, [0, 0x04000000, 0, 0])] }
def finCmd (p : Nat) : Command := { cmd (.attnfin scO) with block := [1, 0, 0, 1], prog := p, snaps := [] }

/-- ATTNFIN of one part of one row, with a page that takes its mass. -/
def massCmd (c : Command) : Command :=
  { c with block := c.block ++ List.replicate 36 0 ++ [1, 0], snaps := [(0, [0, 0, 0, 0])], massed := some 0 }

/-- The first mass addition of a list reaches its page. -/
def massReady (c : Command) (adds : List (Nat × Nat × Nat)) : Bool :=
  headed c mapped fun s => match adds with
    | (va, w, k) :: _ => c.massed == some 0 && !s.mscrBad 0 0 [(w, k)]
      && decide (EngineReaches s 0 c [] [(va + 8, 8)] [(va + 8, 8)])
    | [] => false

theorem witness_AttentionEngineRowsComplete :
    (headed (kvCmd [0x21, 0, 0, 0]) id fun _ =>
      let k := Kvpd.ofWords [0x21, 0, 0, 0]
      k.fmt != 0 || k.tier || k.busy || k.ntok == 64) = true ∧
    (let k := Kvpd.ofWords [0, 0, 0, 0]
     let dim := headDim k.dim
     let rds := if k.ntok ≠ 0 then [(k.sumva, 4 * dim)] else []
     let wrs := [(k.sva + kvRowAt 0 dim k.ntok false, 2 * dim), (k.sva + kvRowAt 0 dim k.ntok true, 2 * dim),
         (k.sumva, 4 * dim), (0 + 8, 8)]
     k.fmt = 0 ∧ k.tier = false ∧ k.busy = false ∧ k.ntok ≠ 64 ∧
       engineReady (kvCmd [0, 0, 0, 0]) rds wrs [(0x100, 4 * dim)] [(0 + 8, 8)] = true) ∧
    (headed pselCmd mapped fun s =>
      let dim := headDim (field pselCmd.block 7 1)
      let todo := (pselCmd.snaps.map fun x => Kvpd.ofWords x.2).drop pselCmd.prog
      let mode := engMode (coreDie 0) pselCmd.world true false
      let reads := todo.flatMap fun k => if k.ntok == 0 then [] else [(mode, k.sumva, 4 * dim)]
      let outs := todo.flatMap fun k => if k.ntok == 0 then [] else s.xlatRange (s.ctx pselCmd.ctx) mode k.sumva (4 * dim)
      s.engChecks (s.ctx pselCmd.ctx) reads == none && !(todo.any fun k => k.ntok != 0 && s.vbad outs k.sumva (4 * dim))
        && !s.mscrBad 0 0 [(field pselCmd.block 8 4, 4 * field pselCmd.block 6 1 * dim)]
        && pselCmd.bounds.length == pselCmd.prog && reads.length == 1) = true ∧
    (let b := (attnCmd 0).block
     let dim := headDim (field b 4 1)
     (attnCmd 0).prog < field b 0 2 ∧
       engineReady (attnCmd 0) (kvReads (Kvpd.ofWords [0, 0x04000000, 0, 0]) dim [0, 1]) [] [(field b 12 4,
           4 * dim * attnRows b), (0, 0)] = true ∧
       (Kvpd.ofWords [0, 0x04000000, 0, 0]).ntok = 2) ∧
    (let b := (attnCmd 1).block
     let dim := headDim (field b 4 1)
     field b 0 2 ≤ (attnCmd 1).prog ∧ (attnCmd 1).massed = none ∧
       engineReady (attnCmd 1) [] [] [(0, 8 * attnRows b + 4 * dim * attnRows b + 8 * field b 0 2 * attnRows b)] = true ∧
       massReady { attnCmd 1 with massed := some 0 } ((attnCmd 1).snaps.zipIdx.map fun (x, i) =>
         (x.1, partialsAt (field b 20 4) (attnRows b) dim i)) = true ∧ attnFlag b 2 = false) ∧
    (engineReady (finCmd 0) [] [] ((List.range (field (finCmd 0).block 0 1)).map (finWork (finCmd 0).block)) = true ∧
      (finCmd 0).prog < field (finCmd 0).block 0 1) ∧
    (engineReady (finCmd 1) [] [] ((List.range (field (finCmd 1).block 0 1)).map (finWork (finCmd 1).block)) = true ∧
      field (finCmd 1).block 0 1 ≤ (finCmd 1).prog ∧ (finCmd 1).massed = none) ∧
    (let b := (massCmd (finCmd 1)).block
     let plan := (List.range (field b 0 1)).flatMap fun p => (List.range (finPart b p).2.1).map fun i => (p, i)
     massReady (massCmd (finCmd 1)) (((massCmd (finCmd 1)).snaps.zip plan).map fun (x, p, i) =>
       (x.1, partialsAt (finPart b p).1 (field b 1 1 * field b 2 1) (headDim (field b 3 1)) i)) = true) := by
  decide +kernel

/-- The small state's team, and a check of it. -/
def teamIs (s : State) (p : Team → Bool) : Bool := (s.team? 2).elim false p

/-- A team that is about to fetch at an address. -/
def fetching (a : DWord) : State := onTeams (fun t => { t with clause := none, port := none, pc := a }) (placed .nop)

/-- It may fetch, and `p` holds of what it finds. -/
def fetches (s : State) (p : Fetched → Bool) : Bool :=
  teamIs s fun t => s.running t && t.clause == none && !t.trapWaits && t.via == none && !s.switching && t.earlierDone &&
      p (s.fetchAt t t.pc)

/-- Context 0 with a page table whose root is uncorrectable (R274). -/
def walkBad (s : State) : State := { mapped s with poison := [0x8000] }

theorem witness_FetchPrefetchAndChoiceComplete :
    fetches (mapped (fetching 0x4000)) (fun x => match x with | .ok h _ => (Header.ofWord h).isSome | _ => false) = true ∧
    (teamIs (onTeams (fun t => { t with via := some [0x1A000000, 0] }) (fetching 0x4000)) fun t =>
      (fetching 0x4000).running t && t.clause == none && !t.trapWaits && t.via == some [0x1A000000, 0]
        && (Header.ofWord 0x1A000000).isSome) = true ∧
    fetches (fetching 0x4000) (fun x => match x with | .missing _ => true | _ => false) = true ∧
    fetches (fetching 0x4002) (fun x => match x with | .bad .misaligned 0x4002 => true | _ => false) = true ∧
    fetches (walkBad (fetching 0x4000)) (fun x => match x with | .walkError 0 => true | _ => false) = true ∧
    fetches (mapped (fetching 0x5000)) (fun x => match x with | .ok h _ => Header.ofWord h == none | _ => false) = true ∧
    (teamIs (mapped (fetching 0x4000)) fun t =>
      let s := mapped (fetching 0x4000)
      let x := s.fetchMap t (0x4000 / 128)
      let ws := wordsOf (s.xread x 0x4000 484)
      let n := clauseLen (ws.headD 0) ws.tail
      (s.core t.core).code == [] && decide (n ≤ 120) && (List.range (n + 1)).all fun k =>
        (s.fetchLineX t ((0x4000 + 4 * k) / 128)).isMapped && !s.xbad x (0x4000 + 4 * k) 4) = true ∧
    teamIs (onTeams (fun t => { t with b := [{ Branch.reset with pf := 1 }] }) (placed .nop)) (fun t =>
      (placed .nop).alive t.ctx && (t.branch 0).pf == 1) = true ∧
    (let s := onTeams (fun t => { t with port := none }) (placed .nop)
     !(s.subTeams 0 0).any (·.port == some 1) && (s.bestTeam ((s.subTeams 0 0).filter s.ready)).isSome) = true := by
  decide +kernel

/-- A load of memory whose granule has no answer; one that met MISSING. -/
def missO : F2 := f2 (.v 8) (.s 4) .zero 2 .none
def asking : Outst := { entryFor (.ld missO) missO with addrs := [(0, 0x30000)], needs := [3] }
def missed : Outst := { asking with outs := [(3, .missing)] }

/-- An unended team of a context that moves, with no instruction of an earlier clause outstanding. -/
def live (s : State) (p : Team → Bool) : Bool := teamIs s fun t => !t.ended && s.going t.ctx && t.earlierDone && p t

/-- Such a team that is not parked. -/
def free (s : State) (p : Team → Bool) : Bool := live s fun t => t.park == none && p t

/-- At a boundary where no fetch has met a trap. -/
def bounded (f : Team → Team) (p : Team → Bool) : Bool :=
  free (onTeams f (fetching 0)) fun t => t.atBoundary && t.pending == none && p t

/-- The team's settled clause has the deciding entry `e`, whose outcome meets `p`. -/
def decides (e : Outst) (p : Outcome → Bool) : Bool :=
  let s := outstanding e
  free s fun t => t.clause.isSome && t.port.isSome && s.settled t && match (s.dead t).find? (·.pos == s.lowest t) with
    | some e => p (s.outcome t e)
    | none => false

/-- A parked team whose page has come. -/
def parked : Team → Team := fun t => { t with
  park := some { resume := { epc := 0, idx := 1, rk := 0, cmask := 0 }, missing := [], fetch := false } }

/-- A translation of the entry's granule is due, and its outcome meets `p`. -/
def translates (s : State) (p : Xlat → Bool) : Bool :=
  match s.translating? 2 9 with
  | some (tm, e) => !s.switching && match s.unanswered? tm e with
    | some g => p (s.askGranule tm e (s.neededMode tm e g fun m => s.askGranule tm e m false g) false g)
    | none => false
  | none => false

theorem witness_TrapsParkingAndRecordsComplete :
    translates (outstanding asking) (· == .missing) = true ∧
    translates (mapped (outstanding asking)) Xlat.isMapped = true ∧
    decides { asking with outs := [(3, .denied)] } (fun x => match x with | .trap _ => true | _ => false) = true ∧
    (let s := onTeams (fun t => { t with pending := some ({ code := .userTrap }, 1) }) (placed .nop)
     free s fun t => t.clause.isSome && t.port.isSome && s.settled t && (s.dead t).find? (·.pos == s.lowest t) == none
       && t.pending.isSome) = true ∧
    bounded (fun t => { t with late := [{ code := .memoryError }] }) (fun t => t.lateDue.isSome) = true ∧
    [true, false].all (fun h => bounded (fun t => { t with wdogDue := true, hnd := h }) fun t =>
      t.lateDue == none && t.wdogDue && t.hnd == h) = true ∧
    bounded (fun t => { t with preempt := true }) (fun t =>
      t.lateDue == none && !t.wdogDue && t.preempt && !t.hnd && !t.restored) = true ∧
    (let s := onTeams (fun t => { parked t with preempt := true }) (placed .nop)
     live s fun t => t.park.elim false (·.failed == none) && t.preempt && !t.hnd && !t.restored) = true ∧
    (let s := onTeams (fun t => { t with park := (parked t).park.map fun p => { p with failed := some (0x30000, 1) } })
       (placed .nop)
     live s fun t => t.park.elim false (·.failed == some (0x30000, 1))) = true ∧
    teamIs (onTeams (fun t => { t with outst := [{ asking with clause := t.clauseNo + 1 }] }) (placed .nop))
      (!·.earlierDone) = true ∧
    free (onTeams (fun t => { t with pending := some ({ code := .misaligned, addr := 2 }, 0) }) (fetching 2)) (fun t =>
      t.clause == none && t.lateDue == none && t.pending.isSome) = true ∧
    decides missed (fun x => match x with | .park .. => true | _ => false) = true ∧
    (let s := onTeams parked (placed .nop)
     teamIs s fun t => t.park.elim false (fun p => p.missing == [] && p.failed == none) && s.going t.ctx) = true ∧
    (let s := (placed .nop).onCtx 0 fun c => { c with records := [[1, 2, 3, 4, 5, 6, 7, 8]] }
     !s.stopped && (s.ctx 0).backlog == [] && (s.ctx 0).records != []
       && ((s.ctx 0).fprod + 2 ^ 64 - s.ringRead (s.ctx 0).fringHost ((s.ctx 0).fring + 8) 8) % 2 ^ 64 != 2 ^ (s.ctx 0).frl
       && !s.physBad ((s.ctx 0).fring + 8) 8) = true ∧
    [true, false].all (fun h =>
      let s := (onTeams (fun t => { t with wdog := 65536, hnd := h }) (placed .nop)).onCtx 0 fun c => { c with wdl := 16, wdh := !h }
      teamIs s fun t => !s.stopped && !t.ended && t.park == none && (s.ctx t.ctx).wdl != 0
        && decide (2 ^ (s.ctx t.ctx).wdl ≤ t.wdog) && !t.wdogDue && (t.hnd || !(s.ctx t.ctx).wdh) == h) = true := by
  decide +kernel

/-- The front end may start the grid that an offer names. -/
def startable (s0 : State) (src : GridSource) (o : Offer) : Bool :=
  match s0.feRead o.ctx (sourceDie src) o.gd 128 with
  | .ok (s1, .ok b) =>
    let d := GridDesc.ofBytes b
    match s1.feNeeded o.ctx (sourceDie src) (o.args.isNone && d.argva != 0) d.argva 64 with
    | .ok (s2, .ok _) =>
      match s2.feNeeded o.ctx (sourceDie src) (d.needs 0) ((d.centry + 2 ^ 64 - 16) % 2 ^ 64) 16 with
      | .ok (s3, .ok crec) =>
        match s3.feNeeded o.ctx (sourceDie src) (d.needs 1) ((d.pentry + 2 ^ 64 - 16) % 2 ^ 64) 16 with
        | .ok (s4, .ok prec) =>
          s4.gridReason (s4.ctx o.ctx) o.gd b src o.bad (s1.teamCount src d o.tokens) crec prec == none && d.statva == 0
        | _ => false
      | _ => false
    | _ => false
  | _ => false

/-- A launch list, a task and a batch that name the descriptor at 0x2000. -/
def listed : State := (mapped (placed .nop)).onCtx 0 fun c => c.setQueue { Queue.reset 0 with items := [.list 0x2000 0] }
def tasked : State := { mapped (placed .nop) with tasks := [(0, { ctx := 0, gd := 0x2000, args := [] })] }
def batched : State := { mapped (withTokens (placed .nop)) with tokens :=
  [{ die := 0, q := 0, ctx := 0, buf := 0, gdva := 0x2000, capl := 6, thr := 16, tmo := 0, tpc := 1, pushed := 1, launched := 1,
     freed := 0, timer := none, batches := [{ first := 0, count := 1 }] }] }

/-- The state in which the listed grid has started. -/
def started : State := match exec (.gridStart (.queue 0 0)) listed with | .next s => s | _ => State.reset

/-- A grid all of whose casts are placed, with unretired teams. -/
def someGrid (n : Nat) : Grid :=
  { id := 7, ctx := 0, source := .task 0 0, gdva := 0, desc := List.replicate 128 0, args := [], cvb := 0, pvb := 0, scrl := 1,
    partw := 0, nteam := 1, pri := 0, dies := [0], nextCast := 1, unretired := n, saved := [], headAt := none,
    holding := false, tokens := 0, order := 0 }

/-- The small state with a grid of `n` unretired teams besides its ended team's. -/
def retiring (n : Nat) : State :=
  { onTeams (fun t => { t with ended := true, grid := 7 }) (placed .nop) with
    grids := [someGrid (n + 1)] }

/-- The grid with CORES set, at the head of its queue since clock 0. -/
def waited (g : Grid) : Grid := { g with desc := setAt g.desc 0x17 4 0, headAt := some 0 }

/-- That grid as a co-resident one that has waited. -/
def coresident : State := { started with clk := 2 ^ 20, grids := started.grids.map waited }

/-- A second grid of another queue, with a higher priority. -/
def rivals : State := { started with grids := started.grids ++ started.grids.map fun g => { g with id := g.id + 1, pri := 3 } }

/-- The ended team's retiring is due, and its grid then meets `p`. -/
def retires (n : Nat) (p : State → Grid → Bool) : Bool :=
  let s := retiring n
  teamIs s fun t =>
    let s1 := ((s.release t .dev).dropTeam t).onGrid t.grid fun g => { g with unretired := g.unretired - 1 }
    t.ended && s.alive t.ctx && s.quiet t && !s.switching && (s1.grid? t.grid).elim false (p s1)

theorem witness_QueuesGridsAndCastsComplete :
    (let s := mapped (placed .nop)
     s.mayReach 0 0 && (s.ctx 0).live && !s.switching && match s.feRead 0 (homeDie 0) (s.ctx 0).qtab.toNat 32 with
       | .ok (_, .ok b) => queueEntryValid b && (field b 0x10 4).testBit 7
       | _ => false) = true ∧
    (listed.starts 0 && match listed.takeQueue 0 0 with
      | .ok (s0, some o) => startable s0 (.queue 0 0) o
      | _ => false) = true ∧
    (match tasked.takeTask 0 0 with
      | some o => tasked.starts o.ctx && startable tasked (.task 0 0) o
      | none => false) = true ∧
    (match batched.takeBatch 0 0 with
      | (s0, some o) => batched.starts o.ctx && startable s0 (.batch 0 0) o
      | _ => false) = true ∧
    (match started.grids with
      | g :: _ => (started.grid? g.id) == some g && (started.tryPlace g 2).elim false fun s1 =>
        (started.placedOn s1).all fun d => !started.yields d g
      | [] => false) = true ∧
    (match rivals.grids with
      | [g, h] => rivals.grid? g.id == some g && h.id != g.id && rivals.readyOn (coreDie 2) h && !isTaskSource h.source
        && decide (g.pri < h.pri) && (rivals.tryPlace g 2).elim false fun s1 => (rivals.placedOn s1).contains (coreDie 2)
      | _ => false) = true ∧
    ((∀ gd k, QueueItem.list gd k ∈ [QueueItem.list 0x2000 3, .ring 0 1] → k < 4) ∧
      ∀ i ∈ [QueueItem.list 0x2080 4], ∃ gd, i = .list gd 4) ∧
    (let s := coresident
     match s.grids with
      | g :: _ => g.d.cores && g.toPlace != 0 && s.starts g.ctx && g.headAt == some 0 && decide (0 + 2 ^ 20 ≤ s.clk)
      | [] => false) = true ∧
    retires 1 (fun _ g => g.unretired != 0) = true ∧
    retires 0 (fun s1 g => g.unretired == 0 && (s1.completeGrid g).toOption.isSome) = true := by
  refine ⟨?_, ?_, ?_, ?_, ?_, ?_, ⟨by simp, by simp⟩, ?_, ?_, ?_⟩
  all_goals decide +kernel

/-- Context 0 with an MT = 1 page at VA 0: a leaf at 0x108000 that names host page 0 (R347). -/
def hosted (s : State) : State :=
  ({ s with mem := [(0x100001, 0x80), (0x100002, 0x10), (0x100007, 0x80), (0x108006, 0x20), (0x108007, 0xFC)] } :
    State).onCtx 0 fun c => { c with root := 0x100000, pv := true }

/-- Context 0 in a state. -/
def ctxState (x : CtxState) : State := (placed .nop).onCtx 0 fun c => { c with state := x }

/-- A token-queue record that binds queue 0 to context 0 (R287), and one that unbinds it. -/
def bindRecord : List Byte := setAt (setAt (setAt (List.replicate 32 0) 0x11 0x60 0) 0x12 16 0) 0x18 1 0
def unbindRecord : List Byte := setAt (setAt (List.replicate 32 0) 0x10 0xFF 0) 0x11 3 0

/-- The mapped small state with other bytes at the descriptor of a context. -/
def badDescriptor : State := { mapped (placed .nop) with mem := [(0x7000, 0xFF)] }

/-- A sweep of one page from a list, with thresholds. -/
def sweepOf (source : SweepSource) (list : Nat) (thr : List Nat) (pos : Nat) : Sweep :=
  { op := 9, die := 0, ctx := 0, source := source, world := false, team := 2, core := 0, m := 0, cast := 1, kc := none, np := 1,
    nrec := 0, thr := thr, listva := list, status := 0, table := 0, pos := pos, counts := [0, 0, 0, 0, 0, 0],
        step := none,
    snap := [], susp := none }

/-- The mapped small state with it, and with other bytes of memory before those. -/
def sweeping (w : Sweep) (m : Memory := []) : State :=
  let s := mapped (placed .nop)
  { s with sweeps := [w], mem := m ++ s.mem }

/-- A step of the page at a VA with word 0, in a phase, with the storage it has taken. -/
def stepAt (va : Nat) (w0 : DWord) (phase : DuskPhase) (taken : Option Nat := none) (sum : List Byte := [])
    (outs : List (Nat × Xlat) := []) : DuskStep :=
  { va := va, w0 := w0, phase := phase, taken := taken, ntok := 1, dim := 64, level := 1, sumva := 0x400, sum := sum, done := 0,
    outs := outs }

/-- A sweep at that step. -/
def atStep (source : SweepSource) (x : DuskStep) : Sweep := { sweepOf source 0x9008 [4, 3, 2, 1] 0 with step := some x }

/-- Context 0 in reset while a page step of it waits for the host's answer. -/
def stepWaits : State :=
  hosted { (sweeping (atStep .demote (stepAt 0xA040 3 .swap))).onCtx 0 (fun c => { c with state := .resetting }) with
    atsWaits := [{ key := 9, ctx := 0, die := 0, page := 0, va := 0, refused := false }] }

/-- Context 0 resets, and its page steps in progress have ended, or wait. -/
def resets (s : State) (waits : Bool) : Bool :=
  (s.ctx 0).state == .resetting && !s.frozen && (s.finishSteps 0).stepsWait 0 == waits

theorem witness_ContextResets : resets (ctxState .resetting) false = true ∧ resets stepWaits true = true :=
  ⟨by decide +kernel, by decide +kernel⟩

theorem witness_ContextsAndTokenQueuesComplete :
    (let s := mapped (placed .nop)
     s.mayReach 0 1 && (s.ctx 1).state == .free && s.ck != some .load && !s.physBad 0x7000 64 &&
         !contextBad (s.physRead 0x7000 64)
       && !s.worldRefused (s.physRead 0x7000 64)) = true ∧
    ((placed .nop).mayReach 0 0 && ((placed .nop).ctx 0).state != .free) = true ∧
    (let s := badDescriptor
     s.mayReach 0 1 && (s.ctx 1).state == .free && s.ck != some .load && contextBad (s.physRead 0x7000 64)) = true ∧
    Accepts (placed .nop) 0 0 (·.state == .registered) ∧ Accepts (ctxState .preempted) 0 0 (·.state == .preempted) ∧
    Accepts (placed .nop) 0 0 Context.live ∧
    Accepts (ctxState .reset) 0 0 (fun c => c.state == .reset || (c.state == .registered &&
        !(ctxState .reset).grids.any (·.ctx == 0))) ∧
    Accepts { placed .nop with grids := [] } 0 0 (fun c => c.state == .reset || (c.state == .registered && !([]
        : List Grid).any (·.ctx == 0))) ∧
    ((placed .nop).mayReach 0 0 = true ∧ 5 ≤ (5#3).toNat) ∧
    ((ctxState .preempted).mayReach 0 0 && ((ctxState .preempted).ctx 0).state != .registered) = true ∧
    ((placed .nop).mayReach 0 0 && ((placed .nop).ctx 0).state != .preempted && ((placed .nop).ctx 0).live) = true ∧
    ((ctxState .reset).mayReach 0 0 = true ∧ ((ctxState .reset).ctx 0).state ∈ [CtxState.free, .resetting, .reset]) ∧
    ((ctxState .preempted).mayReach 0 0 && ((ctxState .preempted).ctx 0).state != .reset) = true ∧
    (let s := retiring 1
     s.mayReach 0 0 && (s.ctx 0).state == .registered && s.grids.any (·.ctx == 0)) = true ∧
    (let s := mapped (placed .nop)
     s.mayReach 0 0 && (s.ctx 0).live && !s.switching && match s.feRead 0 (homeDie 0) 0x3000 64 with
       | .ok (_, .ok b) => !headerBad b
       | _ => false) = true ∧
    ((ctxState .reset).mayReach 0 0 && !((ctxState .reset).ctx 0).live) = true ∧
    (bindRecord.length = 32 ∧ State.reset.pfReady = true ∧ bitsOf (field bindRecord 0x10 4) 9 0 ≠ 0x3FF ∧
      (boundQueue 0 0 bindRecord).isSome = true) ∧
    (unbindRecord.length = 32 ∧ bitsOf (field unbindRecord 0x10 4) 9 0 = 0x3FF) ∧ State.reset.stopped = false := by
  decide +kernel

/-- Dusk works at the sweep, and `p` holds of the state that has noted it. -/
def sweeps (w : Sweep) (p : State → Bool) (m : Memory := []) : Bool :=
  let s := sweeping w m
  s.sweep? 0 0 == some w && s.sweepRuns w && (w.ending || s.duskTurn 0 0) && p (if w.ending then s else s.duskServed 0 0)

/-- The ranges of a sweep are reached. -/
def reaches (s : State) (w : Sweep) (rds wrs : List (Nat × Nat)) : Bool := decide (SweepReaches s w rds wrs)

/-- The list position names a descriptor that may be read; `p` holds of its address and words. -/
def listedPage (w : Sweep) (p : State → Nat → List DWord → Bool) : Bool :=
  sweeps w fun s =>
    let la := w.listva + 8 * w.pos
    let s2 := sweepTouched s w [(la, 8)] []
    let a := leNat (s2.vread (sweepOuts s w [(la, 8)] []) la 8)
    let s3 := sweepTouched s2 w [(a, 16)] []
    reaches s w [(la, 8)] [] && a % 32 == 0 && reaches s2 w [(a, 16)] []
      && p s3 a (dwordsOf (s3.vread (sweepOuts s2 w [(a, 16)] []) a 16))

/-- The body of the page's step is reached, and `p` holds of its rewrite and of the state after its reads. -/
def bodyOf (w : Sweep) (m : Memory) (p : State → Kvpd → Option (List Byte × List Byte) → Bool) : Bool :=
  match w.step with
  | none => false
  | some x => sweeps w (fun s =>
    let s2 := sweepTouched s w [(x.va, 32)] [(x.va, 16)]
    let pg := Kvpd.ofWords (dwordsOf (s2.vread (sweepOuts s w [(x.va, 32)] [(x.va, 16)]) x.va 32))
    let new := if w.source = .kvres then 3 else pg.fmt + pg.tier.toNat + 1
    let copy := w.source == .kvres || new == 4
    let rds := if copy then [(pg.sva, kvPageBytes pg.fmt (headDim pg.dim))]
        else kvReads pg (headDim pg.dim) (List.range pg.ntok)
    let s3 := sweepTouched s2 w rds []
    x.outs == [] && x.phase == .body && reaches s w [(x.va, 32)] [(x.va, 16)] && reaches s2 w rds []
      && (let r := s3.rewritten (sweepOuts s2 w rds []) pg new copy
          p (s3.sweepMstat w r.2) pg r.1)) m

/-- A table of free storage whose list 12 is empty, or holds one entry. -/
def freeLists (full : Bool) (p : State → List (Nat × Xlat) → List Byte → Bool) : Bool :=
  let w := { sweepOf .demote 0x9008 [] 0 with table := 0xB000 }
  let s0 := sweeping w
  let s : State := if full then { s0 with mem := s0.mem.flatMap fun c => if c.1 == 0xB1D0 then [(0xB1C8, 1), c] else [c] } else s0
  reaches s w [(0xB1C0, 32)] [(0xB1CC, 4)] &&
    (let s2 := sweepTouched s w [(0xB1C0, 32)] [(0xB1CC, 4)]
     let outs := sweepOuts s w [(0xB1C0, 32)] [(0xB1CC, 4)]
     p s2 outs (s2.vread outs 0xB1C0 32))

/-- A hand-back of context 0 to its table at 0xB000, and a context whose ageing timer has expired. -/
def handed : State := { mapped (placed .nop) with handbacks :=
  [{ die := 0, ctx := 0, entry := 0x10000, grace := true, table := 0xB000, world := false, susp := none, told := false }] }
def aged : State := { (placed .nop).onCtx 0 (fun c => { c with bgAt := some 5 }) with ns := 5 }

/-- The step's translations are kept, in a phase; word 1 then holds the NTOK of the step or another. -/
def keptStep (phase : DuskPhase) (sum : List Byte) (va : Nat) (p : State → DuskStep → Bool) : Bool :=
  let x := stepAt va 3 phase (some 0x5000) sum [(0, direct)]
  sweeps (atStep .demote x) fun s => x.outs != [] && p s x

theorem witness_DuskStepsAndHandBacksComplete :
    sweeps (sweepOf .demote 0x9000 [4, 3, 2, 1] 1) (fun s => !s.unanswered 9) = true ∧
    (let w := sweepOf .demote 0x9000 [4, 3, 2, 1] 0
     sweeps w fun s => reaches s w [(w.listva, 8)] []
       && leNat ((sweepTouched s w [(w.listva, 8)] []).vread (sweepOuts s w [(w.listva, 8)]
           []) w.listva 8) % 32 != 0) = true ∧
    listedPage (sweepOf .demote 0x9010 [4, 3, 2, 1] 0) (fun _ _ ws => (kvrOf (Kvpd.ofWords ws) none).isSome) = true ∧
    (let w := sweepOf .demote 0x9008 [4, 3, 2, 1] 0
     listedPage w fun s a ws => kvrOf (Kvpd.ofWords ws) none == none && reaches s w [] [(a, 16)] &&
         w.due (Kvpd.ofWords ws)) = true ∧
    (let w := sweepOf .background 0x9008 [0, 0, 0, 0] 0
     listedPage w fun s a ws => kvrOf (Kvpd.ofWords ws) none == none && reaches s w [] [(a, 16)] &&
         !w.due (Kvpd.ofWords ws)) = true ∧
    [(1, DuskPhase.swap), (3, .swap), (3, .swapAgain)].all (fun y =>
      let x := stepAt 0xA040 y.1 y.2
      let w := atStep .demote x
      sweeps w fun s => reaches s w [(x.va, 16)] [(x.va, 16)] && x.outs == []) = true ∧
    bodyOf (atStep .demote (stepAt 0xA040 3 .body)) [(1, 0x7F), (2, 0xC0)] (fun _ _ r => r.isSome) = true ∧
    bodyOf (atStep .demote (stepAt 0xA040 3 .body)) [(0, 0xC0), (1, 0x7F)] (fun _ _ r => r == none) = true ∧
    (let x := stepAt 0xA040 3 .body (some 0x5000)
     let w := atStep .demote x
     bodyOf w [] fun s pg r => match r with
       | some (page, sum) =>
         let sums := if sum.isEmpty then [] else [(pg.sumva, sum.length)]
         reaches (s.onStep w x) w sums ((0x5000, page.length) :: sums)
       | none => false) = true ∧
    freeLists false (fun _ _ r => listValid r && field r 8 4 == field r 0xC 4) = true ∧
    freeLists true (fun s2 _ r => listValid r && field r 8 4 != field r 0xC 4
      && reaches s2 (sweepOf .demote 0x9008 [] 0) [(listEntry r (field r 0xC 4), 8)] []) = true ∧
    [DuskPhase.union, .renew, .exact].all (fun ph => keptStep ph (List.replicate 8 0) 0xA040 fun _ x => x.phase == ph) = true ∧
    keptStep .commit [] 0xA040 (fun s x => bitsOf (leNat (s.vread x.outs (x.va + 8) 8)) 31 25 == x.ntok) = true ∧
    keptStep .commit [] 0xA000 (fun s x => bitsOf (leNat (s.vread x.outs (x.va + 8) 8)) 31 25 != x.ntok) = true ∧
    (let x := stepAt 0xA040 3 .halve
     let w := atStep .demote x
     sweeps w fun s => reaches s w [(x.va + 8, 8)] [(x.va + 8, 8)] && x.outs == []) = true ∧
    [0xA000, 0xA020].all (fun va =>
      let w := sweepOf .kvres va [] 0
      sweeps w fun s => reaches s w [(va, 16)] [] &&
        (let s2 := sweepTouched s w [(va, 16)] []
         let p := Kvpd.ofWords (dwordsOf (s2.vread (sweepOuts s w [(va, 16)] []) va 16))
         p.tier == (va == 0xA020) && !p.busy && !p.held && reaches s2 w [] [(va, 16)])) = true ∧
    sweeps (sweepOf .kvres 0xA000 [] 1) (fun s => !s.unanswered 9) = true ∧
    (match handed.handbacks with
      | h :: _ =>
        h.susp == none && (handed.ctx h.ctx).state != .free && !handed.frozen && !handed.switching
          && !(h.grace && handed.graceHeld (handed.ctx h.ctx).asid (bitsOf h.entry.toNat 51 8 * 256))
          && decide (RingReaches handed h [(0xB1C0, 32)] [(0xB1C8, 4)]) &&
          (let s1 := handed.engTouch (handed.ctx h.ctx) (duskRanges h.die h.world [(0xB1C0, 32)] [(0xB1C8, 4)])
           let r := s1.vread (ringOuts handed h [(0xB1C0, 32)] [(0xB1C8, 4)]) 0xB1C0 32
           listValid r && (field r 8 4 + 2 ^ 32 - field r 0xC 4) % 2 ^ 32 != 2 ^ (field r 0x10 4 % 32)
             && decide (RingReaches s1 h [] [(listEntry r (field r 8 4), 8)]))
      | [] => false) = true ∧
    ((aged.ctx 0).live && !aged.frozen && !aged.switching && (aged.ctx 0).bgAt == some 5
      && decide ((aged.sweeps.filter (·.die == bitsOf (field (aged.ctx 0).header 0 4) 2 1)).length < 64)) = true := by
  decide +kernel

/-- A graph record of one vertex at address 0 of stack 0, for context 0 (R322), and the graph. -/
def graphRecord : List Byte := setAt (setAt (setAt (List.replicate 192 0) 3 0x81 0) 4 1 0) 0x14 1 0
def withGraph (s : State) : State := { s with graphs := [{ g := 0, record := graphRecord, leaving := false }] }

/-- A packet for graph 0 with one entry vertex, K 1 and EF 1 (R325), and a query of it. -/
def packet : List Byte := setAt (setAt (setAt (List.replicate 80 0) 1 0x81 0) 8 1 0) 0x28 0x40 0
def queryOf (vis : List Word) (cand : List (Word × Word)) (fresh : List (Word × Option Word)) : Query :=
  { id := 5, stack := 0, ctx := 0, world := false, team := 2, packet := packet, outs := [(0, plain)], vis := vis,
    cand := cand, res := [], fresh := fresh, rounds := 0, full := false, nandist := false, badrec := false,
        status := none,
    written := false, ord := false, seq := 5 }
def searching (q : Query) : State := { withGraph (placed .nop) with queries := [q] }

/-- Query 5 may move and its graph is registered. -/
def queries (q : Query) (p : Query → Graph → Bool) : Bool :=
  match (searching q).query? 5, (searching q).graph? 0 with
  | some x, some g => field x.packet 0 1 == 0 && p x g
  | _, _ => false

/-- A query of a team that asks for order, behind an earlier one of it. -/
def ordered (x : Query) : State :=
  { withGraph (placed .nop) with queries := [{ x with id := 4, seq := 4, ord := true }, { x with ord := true }] }

theorem witness_SearchComplete :
    (let s := withGraph (outstanding { entryFor (.qsrch (qsrchO)) qsrchO with args := [0], outs := [(0, plain)] })
     performs s fun tm e =>
       let h := (s.operand tm e true 0 64).1
       s.unanswered? tm e == none && s.headBad tm e.outs true 0 == (false, false) && packetAligned h &&
           decide (s.packetLen h ≤ s.scratchSize tm)
         && !(s.operand tm e true 0 (s.packetLen h)).2
         && decide ((s.queries.filter (·.stack == s.ownerStack (coreDie tm.core) h)).length < 256)) = true ∧
    queries (queryOf [] [] []) (fun x _ => x.status == none && x.fresh == [] && x.vis == []) = true ∧
    queries (queryOf [0] [] []) (fun x _ => x.status == none && x.fresh.all (·.2.isSome) && x.vis != [] && !x.merge.full
      && x.merge.cand == []) = true ∧
    queries (queryOf [0] [] [(0, some 0)]) (fun x g => x.status == none && x.fresh.all (·.2.isSome) &&
        x.vis != [] && !x.merge.full
      && x.merge.rlim == 0 && match x.merge.cand with
        | p :: _ =>
          (x.merge.res.length != x.merge.ef || !x.merge.res.getLast?.elim false (fun w => pairLt w p)) &&
          (let r := recordAt g.record p.2.toNat
           !(searching x).physBad (r.2 + graphVb g.record) (4 + 4 * ((searching x).neighbours g.record r.2).1.length))
        | [] => false) = true ∧
    queries (queryOf [0] [] [(0, none)]) (fun x g => x.fresh.any (fun f => f.1 == 0 && f.2.isNone)
      && !(searching x).physBad (recordAt g.record 0).2 (graphVb g.record)) = true ∧
    queries { queryOf [0] [] [] with status := some 0 } (fun x _ => x.status == some 0 && !x.ord) = true ∧
    (match (ordered { queryOf [0] [] [] with status := some 0 }).query? 5 with
     | some x => x.ord && x.status == some 0 && (ordered { queryOf [0] [] [] with status := some 0 }).queries.any
         fun y => y.ord && y.team == x.team && decide (y.seq < x.seq)
     | none => false) = true ∧
    (graphRecord.length = 192 ∧ recordValid graphRecord = true ∧ State.reset.pfReady = true ∧
      ((State.reset.window 0x010000 graphRecord).graphRefused 0 graphRecord) = false) ∧
    (((withGraph State.reset).window 0x010000 graphRecord).graphRefused 0 graphRecord) = true ∧
    ((List.replicate 192 (0 : Byte)).length = 192 ∧ recordValid (List.replicate 192 0) = false ∧
      ((withGraph State.reset).window 0x010000 (List.replicate 192 0)).graphNamed 0 = false) ∧
    (let s := (searching (queryOf [0] [] [])).window 0x010000 (List.replicate 192 0)
     (s.graph? 0).isSome = true ∧ s.graphNamed 0 = true) ∧
    (let s : State := { State.reset with graphs := [{ g := 0, record := graphRecord, leaving := true }] }
     (s.graph? 0).elim false (·.leaving) = true ∧ s.graphNamed 0 = false) ∧
    ((8 : Word).toNat % 16 ≤ 8 ∧ State.reset.graphs.any (fun g => (graphHome g.record 0).2.1 != 0) = false)
        := by decide +kernel

/-- A piece of the host, alone and behind another function's. -/
def pieced : State := { State.reset with pieces := [{ fn := 1, route := 1, pa := 0, data := [1] }, { fn := 2, route := 2, pa := 64, data := [2] }] }

/-- A state whose first 64 KiB are secure. -/
def secured : State := { pieced with wrt := { WorldTable.reset with entries := [(0, 0, 0)] } }

/-- A load of an MT = 1 page. -/
def hostPage : State := hosted (outstanding asking)

theorem witness_HostAccessesAndTranslationsComplete :
    (0x100000 ≤ 0x100000 ∧ 0x10FFFF < 0x110000 ∧ (placed .nop).mayReach 0 ((0x100004 - 0x100000) / 64) = true) ∧
    (0x200 < 0x100000 ∧ State.reset.pfReady = true ∧ State.reset.hostUp = true) ∧
    ((pieced.pieces[1]?).elim false (fun p => !(pieced.pieces.take 1).any (·.fn == p.fn) &&
        !pieced.secureRange p.pa p.data.length)
      = true ∧ pieced.hostUp = true) ∧
    ((secured.pieces[0]?).elim false (fun p => secured.secureRange p.pa p.data.length)) = true ∧
    (pieced.pieces.any (·.fn == 0) = false ∧ pieced.hostUp = true ∧ pieced.secureRange 0 16 = false) ∧
    (secured.pieces.any (·.fn == 0) = false ∧ secured.hostUp = true ∧ secured.secureRange 0 16 = true) ∧
    (match hostPage.translating? 2 9 with
     | some (tm, e) => !hostPage.stopped && hostPage.unanswered? tm e == some 3 &&
        match hostPage.askGranule tm e (hostPage.neededMode tm e 3 fun m => hostPage.askGranule tm e m true 3) true 3 with
        | .awaitAts _ => true
        | _ => false
     | none => false) = true ∧
    ((placed .nop).teams.any (fun t => t.unperformed.any fun o => !o.failed &&
        o.outs.any fun x => x.2.inHostPage 7) = false ∧
      (placed .nop).queries.any (fun q => q.outs.any fun x => x.2.inHostPage 7) = false ∧
      (stepWaits.sweeps.all fun w => w.step.elim false fun x => !x.outs.any fun y => y.2.inHostPage 7) = true) ∧
    ({ State.reset with stopped := true } : State).stopped = true ∧
    (resolveFields 0 = (0, 0, 0, 0) ∧ (placed .nop).stopped = false ∧ (placed .nop).mayReach 0 0 = true ∧
      ((placed .nop).ctx 0).asid = 0) ∧
    (∃ w, (resolveFields w).1 = 2 ∧ (resolveFields w).2.1 = 0) ∧
    (∃ w, (resolveFields w).1 = 1 ∧ (resolveFields w).2.2.2 = 0 ∧ (resolveFields w).2.1 = 0) := by
  refine ⟨?_, ?_, ?_, ?_, ?_, ?_, ?_, ?_, ?_, ?_, ⟨0x8000000000000000, ?_⟩, ⟨0x4000000000000000, ?_⟩⟩
  all_goals decide +kernel

/-- The device with checkpoints enabled, during one, during a load, and with the main rails lost. -/
def ckReady : State := { State.reset with regs := { Regs.reset with cken := true } }
def ckNow : State := { State.reset with ck := some .checkpoint }
def ckLoading : State := { State.reset with ck := some .load }

/-- A checkpoint while a page step is under way. -/
def ckStepping : State := { sweeping (atStep .demote (stepAt 0xA040 3 .swap)) with ck := some .checkpoint, stopped := true }

theorem witness_PowerCheckpointAndDeviceComplete :
    (ckReady.pfReady = true ∧ ckReady.ck = none ∧ ckReady.regs.cken = true ∧ ckReady.mainOn = true) ∧
    (State.reset.pfReady = true ∧ State.reset.ck = none ∧ State.reset.contexts.all (·.state == .free) = true) ∧
    (ckNow.ck = some .checkpoint ∧ ckNow.sweeps = []) ∧ ckLoading.ck = some .load ∧
    (ckStepping.ck = some .checkpoint ∧ (ckStepping.sweeps.any fun w => w.step.isSome && ckStepping.sweepRuns w) = true) ∧
    (let s : State := { State.reset with regs := { Regs.reset with pmode := 2 } }
     s.regs.pmode ≠ s.regs.pmodeOn ∧ s.accessOpen = false) ∧
    (outstanding { asking with outs := [(3, plain)] }).accessOpen = true ∧
    (State.reset.regs.pmodeOn = 0 ∧ State.reset.retvOn = true ∧ State.reset.mainOn = true) ∧ 128 * 5 < 2 ^ 39 ∧
    (2 ^ 40 ≤ 128 * 2 ^ 33 ∧ 128 * 2 ^ 33 < 2 ^ 41) ∧ (2 ^ 39 ≤ 128 * 2 ^ 32 ∧ 128 * 2 ^ 32 < 2 ^ 40) ∧
    2 ^ 41 ≤ 128 * 2 ^ 34 ∧ ({ State.reset with mainOn := false } : State).mainOn = false := by decide +kernel

/-- A device with port 3 up, and flits that come through it. -/
def linkUp (s : State) : State := { s with ports := setAt s.ports 3 { en := true, state := .up, peer := 7 } Port.reset }
def linked : State := linkUp State.reset
def flit (ty : BitVec 4) (opc : BitVec 8) (data : List Byte) : Flit :=
  { ty := ty, dst := 0, src := 7, ttl := 16, seq := 4, opc := opc, addr := if ty.toNat ≤ 2 then 0x10000 else 0, data := data, resv := false }

/-- An answer to the flit of number 4 that was sent to device 7. -/
def answering (ty : BitVec 4) (opc : BitVec 8 := 0) : Flit := flit ty opc (headerWord { flit 1 0 [1] with dst := 7 })

/-- The flit arrives as one of its type, and `p` holds of the state then. -/
def comes (s : State) (f : Flit) (p : State → Bool) : Bool := (s.arrive f.ty f).elim false p

/-- An inbound window for the page at 0x10000 (R356), a remote store, a remote atomic, and a carry that await answers. -/
def windowed : State := linked.window 0x2000 (leBytes 8 0x8000000000010000 ++ leBytes 4 16)
def remoteOf (atomic : Bool) (lane : Option (Nat × Nat × Nat)) : State :=
  { linked with remotes := [{ team := 2, ctx := 0, dst := 7, seq := 4, atomic := atomic, lane := lane, port := 3 }] }
def sending : State :=
  { linked with carries :=
    [{ op := 9, team := 2, core := 0, cast := 1, off := 0, dev := 7, seq := 4, flits := 1, len := 16, bar := 0, kc := none }] }

/-- A carry that is landing in cast 1, its entry granted, first met at a clock; one whose bytes wait. -/
def landingAt (clk : Nat) : CarryIn :=
  { src := 7, ep := 0, stat := 0, cast := 1, core := 0, off := 0, len := 16, bar := 0, op := 9, granted := true, data := [],
    landed := 0, ended := none, clk := clk }
def landingIn (clk : Nat) : State := { linkUp (placed .nop) with landing := [landingAt clk] }
def heldUp : State := { linked with landing := [{ landingAt 0 with ep := 1, data := [(0, [1])] }] }

/-- One flit of each type that may come from device 7. -/
def eachFlit : List Flit := [flit 1 0 [1], flit 2 0 [1, 0, 0, 0], flit 3 0 [1, 0, 0, 0], answering 4, flit 5 0 [1], flit 6 0 [1],
  answering 7, answering 8]

/-- Another flit of device 7 that has come and waits. -/
def queued : State := { linked with inbox := [flit 1 0 [9]] }

/-- A flit for device 9, with a route through port 3 where `routed`. -/
def foreignFlit : Flit := { flit 1 0 [1] with dst := 9 }
def routed : State := { linked with regs := { Regs.reset with routem := setAt [] 9 0x83 0 } }

theorem witness_LinkFlitsComplete :
    [windowed, linked].all (fun s => comes s (flit 1 0 [1, 2, 3, 4]) fun s1 => s1.admits (flit 1 0 [1, 2, 3,
        4]) 4 == (s == windowed))
      = true ∧
    flitMasked (flit 1 0 [1, 2, 3, 4]) = false ∧
    [(0, 4, windowed, true), (8, 8, windowed, true), (0, 4, linked, false)].all (fun x =>
      let f := flit 2 x.1 (List.replicate x.2.1 1)
      comes x.2.2.1 f fun s1 => s1.admits f 4 == x.2.2.2 && x.1.toNat % 16 ≤ 8
        && f.data.length == if x.1.toNat % 16 = 8 then 2 * 4 else 4) = true ∧
    comes (remoteOf false none) (answering 4) (fun s => (s.remote? (answering 4)).elim false (!·.atomic)) = true ∧
    comes (remoteOf true (some (1, 0, 0))) (flit 3 0 [1, 0, 0, 0]) (fun s => (s.atomic? (flit 3 0 [1, 0, 0,
        0])).isSome) = true ∧
    comes (remoteOf false none) (answering 8) (fun s => (s.remote? (answering 8)).isSome) = true ∧
    comes sending (answering 8) (fun s => (s.remote? (answering 8)).isNone
      && (s.carry? (flitAnswers (answering 8)).1 (flitAnswers (answering 8)).2).isSome) = true ∧
    [(5 : BitVec 4), 6].all (fun ty => comes (landingIn 0) (flit ty 0 [1, 2]) fun _ => true) = true ∧
    eachFlit.all (fun f => heldUp.forHere f.ty f && heldUp.newFlit f && heldUp.behindCarry f && heldUp.firstOf 7 != some f) = true ∧
    eachFlit.all (fun f => queued.forHere f.ty f && queued.newFlit f && (queued.firstOf 7).isSome && queued.firstOf 7 != some f)
      = true ∧
    (queued.forHere 1 (flit 1 0 [9]) = true ∧ queued.behindCarry (flit 1 0 [9]) = false ∧
      queued.firstOf 7 = some (flit 1 0 [9])) ∧
    (linked.firstOf 7 = none ∧ linked.newFlit (flit 1 0 [9]) = true) ∧
    (linked.landing.any (·.takes (flit 5 0 [1, 2])) = false ∧ linked.landing = []) ∧
    ((landingIn 0).landing = [landingAt 0] ∧ (landingAt 0).clk = (landingIn 0).clk ∧
      (landingAt 0).takes (flit 6 0 [1, 2]) = true) ∧
    ((landingIn 3).landing = [landingAt 3] ∧ (landingAt 3).takes (flit 6 0 [1, 2]) = true ∧ (landingAt 3).stat = 0 ∧
      (landingAt 3).granted = true ∧ (landingAt 3).data = [] ∧ (landingIn 3).stopped = false ∧
      (landingAt 3).clk ≠ (landingIn 3).clk ∧
      (landingIn 3).heldByAccess ((((landingIn 3).core 0).ranges.filter (·.op == 9)).map (0, ·)) = false) ∧
    comes sending (answering 7) (fun s => (s.carry? (flitAnswers (answering 7)).1 (flitAnswers (answering 7)).2).isSome) = true ∧
    (routed.foreign foreignFlit && !flitDiscarded foreignFlit && foreignFlit.ttl != 0 &&
        routed.portFor 9 == some 3) = true ∧
    (linked.foreign foreignFlit && !flitDiscarded foreignFlit && linked.portFor 9 == none) = true ∧
    (flitDiscarded { flit 1 0 [1] with resv := true } && linked.mainOn && linked.ports.any (·.state == .up)) = true ∧
    (let s : State := { State.reset with ports := setAt State.reset.ports 3 { en := true, state := .training, peer := 0 } Port.reset }
     (s.ports.getD 3 Port.reset).en && s.mainOn && (s.ports.getD 3 Port.reset).state == .training) = true ∧
    ((linked.ports.getD 3 Port.reset).state ≠ .down ∧ linked.pfReady = true) := by decide +kernel

/-- A carry from another device comes in one clock with one from this device: it lands first, its port is below 16. -/
theorem witness_LowerPortFirst : (landingIn 0).portOf 7 < (landingIn 0).portOf 0 ∧
    ({ landingAt 0 with src := 0 } : CarryIn).clk = (landingAt 0).clk := by
  have h : (landingIn 0).portOf 7 = (Config.arrivalPort 7).toNat := by unfold State.portOf; rw [if_neg (by decide +kernel)]
  have h' : (landingIn 0).portOf 0 = 16 := by unfold State.portOf; rw [if_pos (by decide +kernel)]
  rw [h, h']
  exact ⟨(Config.arrivalPort 7).isLt, rfl⟩

/-- A world table waiting to take effect; a session; the device in a session. -/
def waitingTable : State := { State.reset with mgmt := { Mgmt.reset with wrtNext := some WorldTable.reset } }
def inSession : State := { State.reset with mgmt := { Mgmt.reset with session := true } }

theorem witness_ManagementComplete :
    (State.reset.ck ≠ some .checkpoint ∧ State.reset.mgmt.wrtNext = none ∧ ckNow.ck = some .checkpoint ∧
      State.reset.retvOn = true ∧ State.reset.hostUp = true) ∧
    (waitingTable.ck ≠ some .checkpoint ∧ waitingTable.mgmt.wrtNext ≠ none ∧ waitingTable.stopped = false) ∧
    ((1 : Nat) ≠ 0 ∧ ckNow.hostUp = true) ∧
    (State.reset.mgmt.configCopy.isSome = true ∧ State.reset.mgmt.bootSlot.isSome = true) ∧
    ({ State.reset.mgmt with dead := some State.reset.mgmt.marked, fw := [[1], [1]] } : Mgmt).bootSlot = none ∧
    (([1] : List Byte) ≠ [] ∧ [(1 : Byte)].length ≤ 1024) ∧
    (ckReady.mgmt.recovery = false ∧ ckReady.ck = none ∧ ckReady.regs.cken = true ∧ ckReady.mainOn = true) ∧
    (inSession.mgmt.recovery = false ∧ inSession.mgmt.wrtNext = none) ∧
    (waitingTable.mgmt.wrtNext.isSome = true ∧ waitingTable.accessOpen = false) ∧
    (let s : State := { outstanding { asking with outs := [(3, plain)] } with mgmt := { Mgmt.reset with wrtNext := some WorldTable.reset } }
     s.mgmt.wrtNext.isSome = true ∧ s.accessOpen = true) ∧
    (({ Mgmt.reset with recovery := true } : Mgmt).recovery = true ∧ Mgmt.reset.wrtNext = none) ∧
    (State.reset.measurements 0).isSome = true := by decide +kernel

/-- The device with an instruction before its next step, and with words that do not decode. -/
def stepping (cls : Nat) (ws : List Word) : State := State.reset.placeInstr cls ws

/-- A running team that holds a port at a clause with a position to issue has its turn, and `p` holds of its clause. -/
def turnOf (s : State) (p : Team → Clause → Bool) : Bool :=
  s.dueReset.isNone && s.agenda == [.team 2] && (({ s with agenda := [] } : State).team? 2).elim false fun t =>
    t.id == 2 && ({ s with agenda := [] } : State).running t && t.port.isSome && t.clause.elim false fun c =>
      decide (c.pos ≤ c.header.n) && p t c

/-- The device before an addition that reads V1 too early: its lanes may still be found as they were. -/
def doubted : State := onTeams (fun t => { t with
  shadows := [{ tk := 0, clause := t.clauseNo, upto := 15, reg := .v 1, old := [7, 7] }] })
  (stepping 0 (encode (.iadd (f1 (.v 3) (.v 1) (.v 2)))))

theorem witness_AStepRunsTheDecodedInstruction :
    turnOf (stepping 5 [0]) (fun t c => c.instr == some .nop && !(t.shadows.filter (·.covers t c)).any fun y =>
      (Instr.regs .nop).contains y.reg) = true ∧
    turnOf doubted (fun t c => c.instr == some (.iadd (f1 (.v 3) (.v 1) (.v 2))) &&
        (t.shadows.filter (·.covers t c)).any fun y =>
      (Instr.regs (.iadd (f1 (.v 3) (.v 1) (.v 2)))).contains y.reg) = true ∧
    turnOf (stepping 0 [0x1E000000]) (fun t c => c.instr == none && !t.settling && !t.heldByWindow c) = true := by
  decide +kernel

theorem witness_EveryStepKeepsMemoryCanonical :
    (mapped (scratch (copyCells 0x30) (placed .nop))).MemWf ∧
        (mapped (scratch (copyCells 0x30) (placed .nop))).WindowsWf := by
  refine ⟨⟨by decide +kernel, ?_⟩, by unfold State.WindowsWf; decide +kernel⟩
  decide +kernel

/-- An encoded instruction of a class that no check refuses. -/
def wellFormedOf (lo hi : Nat) (i : Instr) : Bool := i.encoded && decide (lo ≤ i.cls) && decide (i.cls ≤ hi) &&
    i.illFormed == none

theorem witness_DecodeOfEncodeOfRegisterInstructions : [
    Instr.iadc (f1x .n64 11 (.s 4) (.s 0) (.s 2)), .andn (f1x .b64 0 (.v 2) (.v 4) (.lit64 7)),
        .cvt (f1x .f32 4 (.v 3) (.v 1) .zero),
    .pand (f1 (.p 1) (.p 2) (.p 3)), .segred (f1x .f32 8 (.v 11) (.v 10) .owner)].all (wellFormedOf 0 1) = true := by decide

theorem witness_DecodeOfEncodeOfMemoryAndAsynchronousInstructions : [
    Instr.ld missO, .atom (f2 (.v 30) (.s 4) (.const 1) 2 .dev), .mmas (f2 (.k 2) (.s 10) (.s 12) 2 .none 1), .copy copyO,
    .tqpush tqO].all (wellFormedOf 2 4) = true := by decide

theorem witness_DecodeOfEncodeOfControlAndSystemInstructions : [
    Instr.prep 1 2, .scmp 2 .ge .n64 (.s 8) (.s 10), .trapU 1 false true 9, .srd 2 0x12, .tlbinv (.page 4 true 0x1234),
    .eret].all (wellFormedOf 5 6) = true := by decide

theorem witness_DecodedWordsAreTheEncoding : decodeInstr 5 [0x04020000, 0] = .ok (.xfer 0 0 false true, [0]) := rfl

theorem witness_RegisterInstructionsChangeOnlyTheirDestinations :
    (f1Of (.iadd (f1 (.v 3) (.v 1) (.v 2))) = some (f1 (.v 3) (.v 1) (.v 2)) ∧
        issues (.iadd (f1 (.v 3) (.v 1) (.v 2))) = true) ∧
    (f1Of (.exdeal (f1 (.v 3) .zero .zero)) = some (f1 (.v 3) .zero .zero) ∧
      issuesWith armed (fun _ t _ => t.expand.armed) (.exdeal (f1 (.v 3) .zero .zero)) = true) ∧
    (f1Of (.exset (f1 (.v 3) (.v 1) (.v 2))) = some (f1 (.v 3) (.v 1) (.v 2)) ∧
      issuesWith id (fun _ t _ => !t.expand.armed && decide (exBase (exPairs t (f1 (.v 3) (.v 1) (.v 2))) t.n < 2 ^ 32))
        (.exset (f1 (.v 3) (.v 1) (.v 2))) = true) := by decide +kernel

/-- The small state's team has reached its next instruction. -/
theorem witness_reaches : ∃ t c, Reaches (placed .nop) t c := by
  obtain ⟨t, c, h, -⟩ := issuesIn_issues (show issuesIn .nop (placed .nop) (fun _ _ _ => true) = true by decide +kernel)
  exact ⟨t, c, h.1, h.2.1, h.2.2.1⟩

theorem witness_MoveAndSelect :
    issuesWith id (fun _ t _ => decide (Writes t (f1 (.v 3) (.s 2) .zero) 31)) (.mov (f1 (.v 3) (.s 2) .zero)) = true ∧
    issuesWith id (fun _ t _ => decide (Writes t (f1 (.s 4) (.s 2) .zero) 5)) (.mov (f1 (.s 4) (.s 2) .zero)) = true ∧
    issues (.mov (f1 (.k 3) (.s 2) .zero)) = true ∧
    issuesWith id (fun _ t _ => decide (Writes t (f1x .b32 0 (.v 9) (.v 0) (.v 1) (.p 2)) 0)) (.sel (f1x .b32 0 (.v 9) (.v 0) (.v 1) (.p 2))) = true ∧
    issues (.sel (f1x .b32 0 (.k 9) (.s 0) (.s 1) (.q 2))) = true ∧
    ((f1 (.v 3) (.v 1) (.v 2)).third = .v 3) := by decide +kernel

theorem witness_CarryChain :
    issues (.iadc (f1x .n32 9 (.v 4) (.v 0) (.v 2))) = true ∧
        issues (.isbc (f1x .n32 15 (.v 5) (.v 1) (.v 3) (.p 1))) = true ∧
    issues (.iadc (f1x .n64 11 (.s 4) (.s 0) (.s 2))) = true ∧
        issues (.isbc (f1x .n64 0 (.s 4) (.s 0) (.s 2) (.q 3))) = true ∧
    ((x1 .n32 0 (.v 3)).c = .v 3 ∧ (x1 .n32 16).fn.extractLsb' 4 2 ≠ 0 ∧
      ((x1 .n32 1).fn.getLsbD 3 = false ∧ (x1 .n32 1).fn.extractLsb' 0 3 ≠ 0) ∧
      ((x1 .n32 12).fn.getLsbD 3 = true ∧ (f1x .n32 12 (.s 4) (.s 0) (.s 2)).scalar = true ∧
        3 < ((x1 .n32 12).fn.extractLsb' 0 3).toNat)) := by decide +kernel

theorem witness_LoadEffectiveAddress :
    issuesWith id (fun _ t _ => decide (31 < t.n) &&
        t.act.getLsbD 31) (.lea (f1x .b64 0x0F (.v 4) (.s 2) (.v 1))) = true ∧
    issues (.lea (f1x .b64 0 (.s 4) (.s 2) (.s 1))) = true ∧
    (((f1x .b64 16 (.v 4) (.s 2) (.v 1)).ext .b64).fn.extractLsb' 4 2 ≠ 0 ∧ (5#7).toNat % 2 = 1 ∧
        (5#6).toNat % 2 = 1) := by
  decide +kernel

theorem witness_IntegerCompare :
    issuesWith id (fun _ t _ => decide (31 < t.n) && t.act.getLsbD 31) (.iset (f1x .n32 2 (.p 6) (.v 1) (.v 2))) = true ∧
    [Instr.iset (f1x .s64 5 (.q 3) (.s 2) (.s 4)), .iset (f1x .s32 0 (.v 3) (.v 1) (.v 2)),
      .iset (f1x .n64 4 (.s 3) (.s 2) (.s 4))].all issues = true ∧
    (6 ≤ ((x1 .s32 6).fn.extractLsb' 0 3).toNat) := by decide +kernel

theorem witness_IntegerArithmeticIsModular : [
    Instr.iadd (f1 (.v 3) (.v 1) (.v 2)), .isub (f1x .n32 0 (.v 3) (.v 1) (.v 2)), .imul (f1 (.s 3) (.s 1) (.s 2)),
    .ineg (f1 (.v 3) (.v 1) .zero), .imulh (f1 (.v 3) (.v 1) (.v 2)), .imulh (f1x .n32 0 (.v 3) (.v 1) (.v 2)),
    .imulh (f1x .s64 0 (.v 4) (.v 0) (.v 2)), .imulh (f1x .n64 0 (.v 4) (.v 0) (.v 2)),
    .iadd (f1x .s64 0 (.v 4) (.v 0) (.v 2)), .isub (f1x .n64 0 (.v 4) (.v 0) (.v 2)),
        .imul (f1x .s64 0 (.s 4) (.s 0) (.s 2)),
    .ineg (f1x .s64 0 (.v 4) (.v 0) .zero)].all issues = true := by decide +kernel

theorem witness_LogicAndShiftsAreThoseOfBitVectors : [
    Instr.andL (f1x .b64 0 (.v 4) (.v 0) (.v 2)), .orL (f1x .b64 0 (.v 4) (.v 0) (.v 2)),
        .xorL (f1x .b64 0 (.v 4) (.v 0) (.v 2)),
    .andn (f1x .b64 0 (.v 4) (.v 0) (.v 2)), .notL (f1x .b64 0 (.v 4) (.v 0) .zero),
        .shl (f1x .b64 0 (.v 4) (.v 0) (.v 3)),
    .shr (f1x .b64 0 (.v 4) (.v 0) (.v 3)), .sar (f1x .b64 0 (.v 4) (.v 0) (.v 3)),
        .rot (f1x .b64 0 (.v 4) (.v 0) (.v 3)),
    .rot (f1 (.v 4) (.v 0) (.v 3)), .sar (f1 (.s 4) (.s 0) (.s 3))].all issues = true := by decide +kernel

theorem witness_FiniteValuesRoundToThemselves :
    [(Fmt.f32, 0x7F7FFFFF), (Fmt.f16, 0x7BFF), (Fmt.bf16, 0x8001), (Fmt.e4m3, 0x7E), (Fmt.e5m2, 0x7B), (Fmt.mx6, 0x1F),
      (Fmt.mx6b, 0x3F), (Fmt.mx4, 0xF)].all (fun x => decide (x.2 < 2 ^ x.1.width) && !(x.1.decode x.2).isNan
        && !(x.1.decode x.2).isInf) = true := by decide +kernel

/-- The team of the small state. -/
def smallTeam : Team := ((placed .nop).team? 2).getD ((placed .nop).teams.headD ((State.reset.newTeam (someGrid 0) 0 0 0 2 (0, 32, 16) 0 [] false)))

theorem witness_MaskInstructionsKeepExitedLanesInactive :
    smallTeam.act &&& smallTeam.exited = 0 ∧ (smallTeam.pushIf (smallTeam.activeWith 7)).toOption.isSome = true ∧
    [Instr.ifP 1, .serial, .loopP, .exitP 7].all (fun i => (maskStep i).elim false fun f => (f smallTeam).toOption.isSome) = true ∧
    ((placed (.ifP 1)).teams.all fun u => u.act &&& u.exited == 0) = true := by
  decide +kernel

/-- Granule 3's page, system-coherent. -/
def direct3 : Page := { page 0x0100000000000000 with g := 3 }

/-- A store outstanding to two lanes of a mapped page, and to scratch. -/
def storeO : F2 := f2 (.v 7) (.s 4) (.v 2) 2 .none
def storing : State := outstanding { entryFor (.st storeO) storeO with
  addrs := [(0, 0x30000), (1, 0x30010)], data := [(0, 5), (1, 6)], outs := [(3, .mapped 0x50000 direct3)] }

/-- No cache of the state holds a line. -/
def lineless (s : State) : Bool := s.l2.all (·.isEmpty) && s.cores.all (·.l1.isEmpty)

theorem lineless_clean {s : State} (h : lineless s = true) : s.noLines ∧ s.allClean := by
  simp only [lineless, Bool.and_eq_true, List.all_eq_true, List.isEmpty_iff] at h
  exact ⟨h, fun ls hl l hm => by simp [h.1 ls hl] at hm⟩

theorem witness_IssueAndLoadsStoreNothing :
    ((Instr.st storeO).encoded = true ∧ storesAtIssue (.st storeO) = false ∧ fillsAtIssue (.st storeO) = false ∧
      (match exec (.st storeO) (placed (.st storeO)) with | .next _ => true | _ => false) = true) ∧
    (lineless (placed (.st storeO)) = true ∧ lineless storing = true) ∧
    (let s := outstanding (scratchAccess (.ld scrO) scrO)
     s.posted? 2 9 = none ∧ entryIn s (fun _ e => decide (e.instr = .ld scrO)) = true) ∧
    [Instr.waitkDone 2 9, .waitbDone 2 9, .bwaitDone 2 9, .xacqGrant 2 9, .xacqTimeout 2 9].all (fun i =>
      match exec i storing with | .next _ => true | _ => false) = true := by decide +kernel

theorem witness_StoresChangeOnlyTheirBytes :
    (performs storing (fun _ e => decide (e.instr = .st storeO) && !szScratch storeO.ext.sz
      && e.addrs == [(0, 0x30000)] ++ [(1, 0x30010)] && e.data.find? (·.1 == 1) == some (1, 6) &&
          0x30010 % szBytes storeO.ext.sz == 0
      && 128 % szBytes storeO.ext.sz == 0 && lookupX e.outs (granule 0x30010) == some (.mapped 0x50000 direct3)
      && (List.range 4).all fun n =>
        hasMemory (0x50000 + 0x30010 % 65536 + n) &&
            !storing.poison.contains ((0x50000 + 0x30010 % 65536 + n) / 32)) = true ∧
      lineless storing = true) ∧
    (storing.posted? 2 9 = none ∧ direct3.g = granule 0x30010 ∧ direct3.sysc = true ∧ Memory.wf storing.mem = true) ∧
    (let s := outstanding (scratchAccess (.st scrO) scrO)
     s.posted? 2 9 = none ∧ entryIn s (fun _ e => decide (e.instr = .st scrO) && szScratch scrO.ext.sz) = true) ∧
    ((storing.onTeam 2 fun t => { t with posted := t.outst, outst := [] }).posted? 2 9).isSome = true := by decide +kernel

theorem witness_TakingATrap :
    (smallTeam.outst = [] ∧ smallTeam.hnd = false) ∧
    ((placed .nop).ctx smallTeam.ctx).state = .registered ∧ ({ smallTeam with hnd := true } : Team).hnd = true ∧
    ({ smallTeam with outst := [entryFor (.st storeO) storeO] } : Team).outst ≠ [] := by decide +kernel

theorem witness_ResetMemoryIsCanonicalAndReadsAsListed :
    (0x100000 : Nat) ≠ 0x84 ∧ (0x100000 : Nat) ≠ 0x88 ∧ ∀ k, k < 8 → (0x100000 : Nat) ≠ 0x40 + 4 * k := by decide

theorem witness_NonSecureAccessesNeverReachSecurePages :
    (let s : State := { mapped (placed .nop) with wrt := { WorldTable.reset with entries := [(0, 5, 6)] } }
     (match s.translate (s.ctx 0) { user := true, world := false, rd := true, wr := true, fetch := false, via := none } true 4 with
      | .mapped pa _ => pa == 0x40000
      | _ => false) = true ∧ s.securePa 0x50000 = true) := by decide +kernel

theorem witness_HostFunctionsReachOnlyTheirContexts :
    (hostRequest 1 0 (.ccmdReset 1 0) = true ∧
      (match exec (.ccmdReset 1 0) (placed .nop) with | .next _ => true | _ => false) = true) ∧
    ((placed .nop).ctx 0).cfunc.toNat ≠ 1 ∧
    (hostRequest 1 0 (.registerWrite 1 0x100004 4 1) = true ∧ (0x200 < 0x100000 ∧ 0x110000 ≤ 0x110004) ∧
      (match exec (.registerWrite 1 0x100004 4 1) (placed .nop) with | .next _ => true | _ => false) = true) := by
  decide +kernel

theorem witness_BarrierWordsHoldTheirFields :
    (-(2 ^ 31) ≤ (Bar.ofWord 0x80000000).tx ∧ (Bar.ofWord 0x7FFFFFFF).tx < 2 ^ 31) ∧
    ((openBar.extractLsb' 44 3) = 0 ∧ openBar.getLsbD 35 = false) ∧
    (let b := Bar.ofWord 0xFFFF011100000000
     b.brk = false ∧ b.exp ≠ 0 ∧ b.exp.toNat ≤ slotCount b.arr ∧ b.tx = 0) ∧
    (Bar.ofWord brokenBar).brk = true ∧ (Bar.ofWord 0).exp = 0 ∧
    slotCount (Bar.ofWord openBar).arr < (Bar.ofWord openBar).exp.toNat ∧ (Bar.ofWord 1).tx ≠ 0 := by decide +kernel

/-! ### Single steps: worked results of the spec -/

/-- A team with these values in S1 and S2 (and S3 zero), or in V1 and V2 of lane 0. -/
def withS (a b : Word) : State → State := onTeams fun t => { t with s := [0, a, b] }

/-- The team after an instruction in the small state changed by `f`. -/
def after (f : State → State) (i : Instr) (p : Team → Bool) : Bool :=
  match exec i (f (placed i)) with
  | .next s => teamIs s p
  | _ => false

/-- A scalar instruction on S1 and S2 leaves `r` in S3 and these flags in FPSTAT. -/
def scalarGives (i : Instr) (a b r : Word) (fl : Flags) : Bool := after (withS a b) i fun t => t.readS 3 == r &&
    t.fpstat == fl

/-- S3 from S1 and S2 with a type and a rounding mode. -/
def s3 (ty : Ty) (rm : RM) (c : Operand := .zero) : F1 :=
  { d := .s 3, a := .s 1, b := .s 2, x := some { c := c, ty := ty, rm := rm, sat := false, na := false, nb := false, fn := 0 } }

-- 05, Worked results
theorem test_fadd_opposites : scalarGives (.fadd (s3 .f32 .rne)) 0x3F800000 0xBF800000 0 0 = true := by decide +kernel
theorem test_fadd_opposites_down : scalarGives (.fadd (s3 .f32 .rdn)) 0x3F800000 0xBF800000 0x80000000 0 = true := by
  decide +kernel
theorem test_ffma_tie_to_zero : scalarGives (.ffma (s3 .f32 .rne)) 0x1A000000 0x1A000000 0 0b00011 = true := by decide +kernel
theorem test_ffma_up_to_least : scalarGives (.ffma (s3 .f32 .rup)) 0x1A000000 0x1A000000 1 0b00011 = true := by decide +kernel
theorem test_fmin_quiet : scalarGives (.fmin (s3 .f32 .rne)) 0x7FC00000 0x40400000 0x40400000 0 = true := by decide +kernel
theorem test_fmin_signalling : scalarGives (.fmin (s3 .f32 .rne)) 0x7F800001 0x40400000 0x40400000 0b10000 = true := by
  decide +kernel
theorem test_fmin_zeros : scalarGives (.fmin (s3 .f32 .rne)) 0x80000000 0 0x80000000 0 = true := by decide +kernel
theorem test_fset_lt_nan : after (withS 0x7FC00000 0x3F800000) (.fset (f1x .f32 2 (.q 1) (.s 1) (.s 2)))
    (fun t => !t.readQ 1 && t.fpstat == 0b10000) = true := by decide +kernel
theorem test_fset_ne_nan : after (withS 0x7FC00000 0x3F800000) (.fset (f1x .f32 1 (.q 1) (.s 1) (.s 2)))
    (fun t => t.readQ 1 && t.fpstat == 0) = true := by decide +kernel
theorem test_cvt_rne : scalarGives (.cvt (f1x .s32 10 (.s 3) (.s 1) .zero)) 0x40200000 0 2 1 = true := by decide +kernel
theorem test_cvt_up : scalarGives (.cvt { f1 (.s 3) (.s 1) .zero with x := some { x1 .s32 10 with rm := .rup } })
    0x40200000 0 3 1 = true := by decide +kernel
theorem test_cvt_too_large : scalarGives (.cvt (f1x .s32 10 (.s 3) (.s 1) .zero)) 0x4F32D05E 0 0x7FFFFFFF 0b10000 = true := by
  decide +kernel
theorem test_cvt_narrows : scalarGives (.cvt (f1x .n8 4 (.s 3) (.s 1) .zero)) 300 0 0x2C 0 = true := by decide +kernel
theorem test_cvt_narrows_saturating : scalarGives (.cvt { f1 (.s 3) (.s 1) .zero with x := some { x1 .n8 4 with sat := true } })
    300 0 0xFF 0 = true := by decide +kernel
theorem test_pack_mx4 : scalarGives (.pack (f1x .f32 18 (.s 3) (.s 1) .zero)) 0x40A00000 0 6 1 = true := by decide +kernel
theorem test_iadd_saturates : scalarGives (.iadd { f1 (.s 3) (.s 1) (.s 2) with x := some { x1 .s32 0 with sat := true } })
    0x7FFFFFFF 1 0x7FFFFFFF 0 = true := by decide +kernel

/-- V0 to V3 of lane 3 in the worked 64-bit addition of 05. -/
def addends : State → State := onTeams fun t => { t with
  v := [0xFFFFFFFF, 1, 1, 2].map fun (x : Word) => [0, 0, 0, x], p := [0, 0x8] }

theorem test_carry_out_of_low_words : after addends (.iadc (f1x .n32 9 (.v 4) (.v 0) (.v 2)))
    (fun t => t.readV 4 3 == 0 && (t.readP 1).getLsbD 3) = true := by decide +kernel
theorem test_carry_into_high_words : after addends (.iadc (f1x .n32 0 (.v 5) (.v 1) (.v 3) (.p 1)))
    (fun t => t.readV 5 3 == 4) = true := by decide +kernel

-- 04, the loop example: eight lanes, BREAK of lanes 0 and 1, then CONT of lane 4, then ENDLOOP
def eight (act : Mask) (stack : List MaskEntry) (p : List Mask) : State → State := onTeams fun t => { t with
  act := act, stack := stack, p := p }
theorem test_break_leaves :
    after (eight 0xFF [{ kind := .loopC, mask := 0 }, { kind := .loopX, mask := 0xFF }] [0x03]) (.breakP 0)
      (fun t => t.act == 0xFC) = true := by decide +kernel

-- 06, the expand example: the bases of EXSET, and the first deal
def lengths : State → State := onTeams fun t => { t with
  v := [[], [100, 0, 500, 7], [3, 0, 40, 1]] }
theorem test_exset_bases : after lengths (.exset (f1 (.v 3) (.v 1) (.v 2)))
    (fun t => [t.readV 3 0, t.readV 3 1, t.readV 3 2, t.readV 3 3, t.readV 3 4] == [0, 3, 3, 43, 44] &&
        t.expand.total == 44)
      = true := by decide +kernel
theorem test_exdeal_iterations :
    after (onTeams fun t => { t with expand :=
        { armed := true, total := 44, cursor := 0, pairs := [(100, 3), (0, 0), (500, 40), (7, 1)], owners := [] } })
      (.exdeal (f1 (.v 5) .zero .zero))
      (fun t => [t.readV 5 0, t.readV 5 2, t.readV 5 3, t.readV 5 31] == [100, 102, 500, 528] &&
          t.expand.owners.getD 4 0 == 2)
      = true := by decide +kernel

-- 09: bytes of an ARRIVE that are still to come hold the phase
theorem test_arrive_holds_the_phase : (match exec (.arrive (f2 (.s 20) (.const 3) (.lit32 4096) 2 .core))
      (onCasts (fun c => { c with bars := [0, 0, 0, 0x00000F2300000000 + 0x1000] }) (placed (.arrive (f2 (.s 20) (.const 3) (.lit32 4096) 2 .core)))) with
    | .next s => (s.cast? 1).elim false fun c => (c.bar 3).phase == 0 && (c.bar 3).tx == 8192
    | _ => false) = true := by decide +kernel

-- 14, the demotion example: the scale of each format and the first element of the block
def pageBlock : List FVal := [0x41A0, 0xC0E8, 0x3EA0, 0x3A80, 0x8000].map fun x => Fmt.bf16.decode x

theorem test_block_e4m3 : rewriteBlock .e4m3 pageBlock = (0x7A7, [0x7E, 0xF2, 0x4E, 0x0B, 0]) := by decide +kernel
theorem test_block_mx6 : rewriteBlock .mx6 (rowValues .e4m3 [rewriteBlock .e4m3 pageBlock]) = (0x806, [0x1F,
    0x32, 1, 0, 0]) := by decide +kernel
theorem test_block_mx4 : rewriteBlock .mx4 (rowValues .mx6 [(0x806, [0x1F, 0x32, 1, 0, 0])]) = (0x80C, [7, 0xC,
    0, 0, 0]) := by decide +kernel

/-- A trap of TRAP #9 is taken at TBASE with USER_TRAP in TS1 and its code in INFO (R97, R98). -/
theorem test_trap_enters_handler : after (onTeams fun t => { t with tbase := 0x8000 }) (.trapU 0 false false 9)
    (fun t => t.hnd && t.pc == 0x8000 && (t.readTS 1).extractLsb' 0 8 == 0x0E &&
        (t.readTS 1).extractLsb' 32 16 == 9) = true := by
  decide +kernel

/-- A store of two lanes to one word leaves the higher lane's (R149). -/
theorem test_store_last_lane_wins :
    (match exec (.f2Completion 2 9) (outstanding { entryFor (.st storeO) storeO with
        addrs := [(0, 0x30000), (1, 0x30000)], data := [(0, 5), (1, 0x1234)], outs := [(3,
            .mapped 0x50000 direct3)] }) with
      | .next s => s.mem == [(0x50000, 0x34), (0x50001, 0x12)]
      | _ => false) = true := by decide +kernel

/-- Lane 1 of a load of two lanes lands before lane 0: a read meets the old value in lane 0 and the new one in lane 1
(R71); both completions together leave both (R149). -/
def loading : State := outstanding { entryFor (.ld storeO) storeO with
  addrs := [(0, 0x30000), (1, 0x30010)], outs := [(3, .mapped 0x50000 direct3)] }
theorem test_load_lanes_apart :
    (let s : State := { loading with mem := [(0x50000, 5), (0x50010, 6)], agenda := [.lanes 2 9 2, .event (.f2Completion 2 9)] }
     match step s with
     | .next a => teamIs a (fun t => t.readV 7 0 == 0 && t.readV 7 1 == 6 && t.outst.length == 1) &&
       (match step a with
        | .next b => teamIs b fun t => t.readV 7 0 == 5 && t.readV 7 1 == 6 && t.outst.isEmpty
        | _ => false)
     | _ => false) = true := by decide +kernel

/-- Another agent's addition may fall between two lanes of an atomic (the worked run of R155, with +100 after lane 1). -/
def adding : State := outstanding { entryFor (.atom storeO) storeO with
  addrs := [(0, 0x30000), (1, 0x30000), (2, 0x30000), (3, 0x30000)], data := [(0, 1), (1, 2), (2, 3), (3, 4)]
  outs := [(3, .mapped 0x50000 direct3)] }
theorem test_atomic_lanes_apart :
    (match step { adding with mem := [(0x50000, 5)], agenda := [.lanes 2 9 3, .event (.f2Completion 2 9)] } with
     | .next a => a.mem == [(0x50000, 8)] && (match step { a with mem := [(0x50000, 108)] } with
       | .next b => teamIs b fun t => [t.readV 7 0, t.readV 7 1, t.readV 7 2, t.readV 7 3] == [5, 6, 108, 111]
       | _ => false)
     | _ => false) = true := by decide +kernel

theorem witness_LanesPerformedApartLeaveTheSameMemory :
    ({ loading with agenda := [.lanes 2 9 2] } : State).dueReset = none ∧
    performs loading (fun tm e => decide (e.instr = .ld storeO) && !e.addrs.any (fun a => (peerOf e.outs a.2).isSome)
      && !e.peerTable && decide ((loading.loads tm e storeO (loadSx storeO) (e.addrs.filter fun a => (2 : Mask).getLsbD a.1)).2.2
        = [])) = true ∧
    (performs adding (fun _ e => e.instr.f2? == some storeO &&
        e.addrs.all fun x => x.2 % szBytes storeO.ext.sz == 0) = true ∧
      0 < szBytes storeO.ext.sz ∧ 65536 % szBytes storeO.ext.sz = 0 ∧ 128 % szBytes storeO.ext.sz = 0 ∧
      direct3.g = 3 ∧ direct3.sysc = true ∧ Memory.wf adding.mem = true ∧ (adding.someLanes 2 9 3 != adding) = true) := by
  decide +kernel

/-- The next step after an instruction is placed runs it. -/
theorem test_step_runs_placed : (match step (State.reset.withFetchWord 32 0x0283F0E5) with
    | .next s => teamIs s fun t => t.readS 3 == 5
    | _ => false) = true := by decide +kernel
end Sys2Proof.Tests
end

section
/-! Every step answers a next state: what each row of the table answers, by itself or by the operation that rows share,
and the turns and steps that perform rows. -/

namespace Sys2Proof.Machine

/-! ### Every row of the table answers a next state (R7, R75) -/

/-- A test whose outcomes both answer a next state. -/
theorem next_ite {c : Prop} [Decidable c] {a b : Result} (ha : ∃ s', a = .next s') (hb : ∃ s', b = .next s') :
    ∃ s', (if c then a else b) = .next s' := by split <;> assumption

/-- `issue_total` for the instructions that change their team alone. -/
theorem issueF1_total {i : Instr} {s : State} {p : Team × Clause} {f : Team → Team} (h : s.current = some p) :
    ∃ s', issueF1 i s f = .next s' := by unfold issueF1; exact issue_total h

/-- An encoded instruction reaches issue, so it answers a next state wherever a team is at a clause. -/
theorem exec_encoded_next {i : Instr} {s : State} {p : Team × Clause} (h : s.current = some p)
    (he : i.encoded = true) : ∃ s', exec i s = .next s' := by
  cases i with
  | imad o => exact next_ite (issueF1_total h) (issueF1_total h)
  | mov _ | sel _ | iadd _ | isub _ | iadc _ | isbc _ | imul _ | imulh _ | imin _ | imax _ | iabs _ | ineg _
  | andL _ | orL _ | xorL _ | andn _ | notL _ | shl _ | shr _ | sar _ | rot _ | bfx _ | bfi _ | popc _ | clz _
  | brev _ | lea _ | iset _ | bytep _ | fadd _ | fsub _ | fmul _ | ffma _ | fmin _ | fmax _ | fset _ | frcp _
  | frsq _ | fsqrt _ | fexp2 _ | flog2 _ | fscale _ | fexpo _ | fclass _ | frnd _ | cvt _ | pack _ | unpk _
  | hfma2 _ | hadd2 _ | hmul2 _ | dot4 _ | dot2 _ | pand _ | por _ | pxor _ | pnot _ | pmov _ | sval _ | shfl _
  | bcast _ | vote _ | reduce _ | scan _ | lrscan _ | segred _ | segscan _ | compact _ | matchP _
  | exclr _ => exact issueF1_total h
  | exset _ | exdeal _ | ld _ | st _ | lda _ | waitk _ | atom _ | atomn _ | cas _ | hacc _ | gather _ | scatr _
  | lockl _ | unlockl _ | pfetch _ | fence _ | cflush _ | cinval _ | wbload _ | wbdrop _ | mma _ | mmas _ | accz _
  | accld _ | accst _ | accdr _ | accrd _ | accrdSt _ | attn _ | attnfin _ | psel _ | kvapp _ | demote _ | kvres _
  | copy _ | copyy _ | bseal _ | waitb _ | binit _ | arrive _ | arrdrop _ | bwait _ | qsrch _ | lksend _ | spawn _
  | glaunch _ | gscan _ | xacq _ | xrel _ | tqpush _ | nop | prep _ _ | preps _ _ _ | scmp _ _ _ _ _ | xfer _ _ _ _
  | xcall _ _ _ _ _ | xany _ _ _ | xall _ _ _ | ifP _ | ifnP _ | elseP | endif | loopP | breakP _ | contP _
  | endloop _ | serial | endserial _ | yieldP _ | exitP _ | exitSaved | trapU _ _ _ _ | icsync | bkpt _ | qset _ _
  | srd _ _ | swr _ _ | statesvTeam _ | statesvBar _ | statersTeam _ | statersBar _ | svc _ | eret | clkrd _ _
  | tlbinv _ | worldx _ =>
    simp only [exec, issueF3, issueMask, issueTransfer, issueAccess, issueRange, issueMat,
      execExset, execExdeal, execLd, execSt, execLda, execWaitk, execAtom, execAtomn, execCas, execHacc,
      execGather, execScatr, execLockl, execUnlockl, execPfetch, execFence, execCflush, execCinval, execWbload,
      execWbdrop, execMma, execMmas, execAccz, execAccld, execAccst, execAccdr, execAccrd, execAccrdSt, execAttn,
      execAttnfin, execPsel, execKvapp, execDemote, execKvres, execCopy, execCopyy, execBseal, execWaitb,
      execBinit, execArrive, execArrdrop, execBwait, execQsrch, execLksend, execSpawn, execGlaunch, execGscan,
      execXacq, execXrel, execTqpush, execNop, execPrep, execPreps, execScmp, execXfer, execXcall, execXany,
      execXall, execIfP, execIfnP, execElseP, execEndif, execLoopP, execBreakP, execContP, execEndloop, execSerial,
      execEndserial, execYieldP, execExitP, execExitSaved, execTrapU, execIcsync, execBkpt, execQset, execSrd,
      execSwr, execStatesvTeam, execStatesvBar, execStatersTeam, execStatersBar, execSvc, execEret, execClkrd,
      execTlbinv, execWorldx]
    exact issue_total h
  | _ => exact (Bool.false_ne_true he).elim

theorem State.fe_next (s : State) (r : Fe State) : ∃ s', s.fe r = .next s' := by
  unfold State.fe
  refine next_ite ⟨_, rfl⟩ ?_
  cases r <;> exact ⟨_, rfl⟩

theorem engineStep_next (s : State) (core m : Nat) (can : Instr → Bool) (f : State → Command → State) :
    ∃ s', engineStep s core m can f = .next s' := by
  unfold engineStep
  cases s.running? core m with
  | none => exact ⟨_, rfl⟩
  | some c => exact next_ite ⟨_, rfl⟩ (next_ite ⟨_, rfl⟩ (next_ite ⟨_, rfl⟩ ⟨_, rfl⟩))

theorem duskStep_next (s : State) (die ctx : Nat) (can : Sweep → Bool) : ∃ s', duskStep s die ctx can = .next s' := by
  unfold duskStep
  cases s.sweep? die ctx with
  | none => exact ⟨_, rfl⟩
  | some w =>
    refine next_ite ⟨_, rfl⟩ ?_
    cases w.step with
    | none => exact State.fe_next _ _
    | some x => exact next_ite ⟨_, rfl⟩ (State.fe_next _ _)

theorem State.command_next (s : State) (fn ctx : Nat) (can : Context → Bool) (act : State → State) :
    ∃ s', s.command fn ctx can act = .next s' :=
  next_ite ⟨_, rfl⟩ (next_ite ⟨_, rfl⟩ ⟨_, rfl⟩)

theorem State.resolve_next (s : State) (fn : Nat) (word : DWord) (act : Nat) (f : State → Nat → Nat → State) :
    ∃ s', s.resolve fn word act f = .next s' :=
  next_ite ⟨_, rfl⟩ ⟨_, rfl⟩

theorem execCopyRow_next (j : Nat) (s : State) : ∃ s', execCopyRow j s = .next s' := by
  unfold execCopyRow
  split
  · exact ⟨_, rfl⟩
  · refine next_ite ⟨_, rfl⟩ (next_ite ⟨_, rfl⟩ ?_)
    extract_lets
    split
    · exact ⟨_, rfl⟩
    · exact next_ite ⟨_, rfl⟩ ⟨_, rfl⟩

theorem execTeamRetire_next (t : Nat) (s : State) : ∃ s', execTeamRetire t s = .next s' := by
  unfold execTeamRetire
  cases s.team? t with
  | none => exact ⟨_, rfl⟩
  | some tm => exact next_ite ⟨_, rfl⟩ (State.fe_next _ _)

/-- An event answers a next state, from every state. -/
theorem exec_event_next {i : Instr} (s : State) (he : i.encoded = false) : ∃ s', exec i s = .next s' := by
  cases i with
  | wbloadDecode _ _ | wbdropExecute _ _ | mmaKStep _ _ | tileImageOperation _ _ | accdrDrain _ _ | kvappAppend _ _
  | pselSelection _ _ | attnPage _ _ | attnfinMerge _ _ =>
    simp only [exec, execWbloadDecode, execWbdropExecute, execMmaKStep, execTileImageOperation, execAccdrDrain,
      execKvappAppend, execPselSelection, execAttnPage, execAttnfinMerge]
    exact engineStep_next _ _ _ _ _
  | duskPageStep _ _ | kvresRestore _ _ =>
    simp only [exec, execDuskPageStep, execKvresRestore]
    exact duskStep_next _ _ _ _
  | ccmdPreempt _ _ | ccmdResume _ _ | ccmdReset _ _ | ccmdUnregister _ _ =>
    simp only [exec, execCcmdPreempt, execCcmdResume, execCcmdReset, execCcmdUnregister]
    exact State.command_next _ _ _ _ _
  | resolveRetry _ _ | resolveFail _ _ | resolveRetryAll _ _ =>
    simp only [exec, execResolveRetry, execResolveFail, execResolveRetryAll]
    exact State.resolve_next _ _ _ _ _
  | gridStart _ => exact State.fe_next _ _
  | doorbell _ _ _ _ => exact next_ite ⟨_, rfl⟩ (State.fe_next _ _)
  | dusktb _ _ _ =>
    exact next_ite ⟨_, rfl⟩ (next_ite ⟨_, rfl⟩ (next_ite ⟨_, rfl⟩ (State.fe_next _ _)))
  | teamRetire t => exact execTeamRetire_next t s
  | copyRow j => exact execCopyRow_next j s
  | yieldWaitEnd _ | tokenQueueTimer _ _ | ckctlCheckpoint | ckctlClear | pmode _ | flitReplay _ | pfail | retvLoss
  | coldReset | warmReset | thermalAlert | stackAlert _ _ _ | ident | telem | mctpControl _
  | dynamicAddressAssignment _ | pstatUpdate | remoteStore _ | remoteAtomic _ | acknowledgement _
  | atomicResponse _ | refusal _ | carryData _ | carryEnd _ | carryStatus _ | cktrig | pmset _ => exact ⟨_, rfl⟩
  | clauseFetch _ | prefetchFill _ _ | issuePortChoice _ _ _ | f2Completion _ _ | translationResult _ _ _
  | trapEntry _ | teamPark _ | parkedReissue _ | faultRecordWrite _ | watchdogExpiry _ | contextReset _
  | commandAcceptance _ _ | commandResume _ _ | copyAcceptance _ _ | waitkDone _ _ | bwaitDone _ _ | waitbDone _ _
  | xacqGrant _ _ | xacqTimeout _ _ | gscanWaitEnd _ _ | queryRound _ | vertexDistance _ _ | queryCompletion _
  | handBack _ | backgroundSweep _ | castPlace _ _ | coresidentHold _ | tokenQueueBind _ _ _ | cdesc _ _ _
  | ckctlLoad | checkpointComplete | checkpointLoadComplete | powerModeChange | wheelSettingChange | sshare _ _
  | graphRegistration _ _ | graphUnregistration _ _ | unregistrationEffect _ | registerWrite _ _ _ _
  | hostPostedWrite _ _ _ | pieceAcknowledgement _ | hostRead _ _ _ | atsAnswer _ _ _ | hostAtsInvalidation _
  | flitForward _ | portUp _ _ | portDown _ | mainRailFailure | vfFunctionLevelReset _ | thermtrip
  | patrolScrub _ _ | sbReset _ | fwstage _ _ | fwcommit | wrtset _ _ | worldTableSwitch | spdmRequest _
  | flitDiscard _ | clockThrottle _ | ccmdReserved _ _ _ =>
    simp only [exec, execClauseFetch, execPrefetchFill, execIssuePortChoice, execF2Completion, execTranslationResult,
      execTrapEntry, execTeamPark, execParkedReissue, execFaultRecordWrite, execWatchdogExpiry, execContextReset,
      execCommandAcceptance, execCommandResume, execCopyAcceptance, execWaitkDone, execBwaitDone, execWaitbDone,
      execXacqGrant, execXacqTimeout, execGscanWaitEnd, execQueryRound, execVertexDistance, execQueryCompletion,
      execHandBack, execBackgroundSweep, execCastPlace, execCoresidentHold, execTokenQueueBind, execCdesc,
      execCkctlLoad, execCheckpointComplete, execCheckpointLoadComplete, execPowerModeChange,
      execWheelSettingChange, execSshare, execGraphRegistration, execGraphUnregistration, execUnregistrationEffect,
      execRegisterWrite, execHostPostedWrite, execPieceAcknowledgement, execHostRead, execAtsAnswer,
      execHostAtsInvalidation, execFlitForward, execPortUp, execPortDown, execMainRailFailure,
      execVfFunctionLevelReset, execThermtrip, execPatrolScrub, execSbReset, execFwstage, execFwcommit, execWrtset,
      execWorldTableSwitch, execSpdmRequest, execFlitDiscard, execClockThrottle, execCcmdReserved]
    repeat' split
    all_goals exact ⟨_, rfl⟩
  | _ => exact (Bool.false_ne_true he.symm).elim

/-! ### The team that an instruction with doubtful reads runs for is still at its clause (R71) -/

/-- What makes a team the one that an instruction of its clause is performed for. -/
def Team.seat (t : Team) : Nat × Option Clause := (t.id, t.clause)

@[simp] theorem Team.seat_setReg (t : Team) (r : Reg) (f : Nat → Word) : (t.setReg r f).seat = t.seat := by
  cases r <;> simp [Team.setReg, Team.seat]

theorem Team.seat_foldl_setReg {α : Type} (reg : α → Reg) (f : α → Nat → Word) (l : List α) (t : Team) :
    (l.foldl (fun (t : Team) x => t.setReg (reg x) (f x)) t).seat = t.seat := by
  induction l generalizing t with
  | nil => rfl
  | cons x l ih => simp [ih]

theorem Team.seat_readPosition (t : Team) (sh : List Shadow) (draw : Nat) (x : Reading) (k : Nat) (o : Operand)
    (at' : Operand → Instr) : (t.readPosition sh draw x k o at').2.team.seat = x.team.seat := by
  unfold Team.readPosition
  cases o.reg? with
  | none => rfl
  | some r =>
    dsimp only
    split
    · rfl
    · split
      · exact Team.seat_foldl_setReg _ _ _ _
      · split
        · rfl
        · exact Team.seat_foldl_setReg _ _ _ _

theorem Team.seat_readPositions (t : Team) (sh : List Shadow) (draw k : Nat) (os : List Operand) (x : Reading) :
    (t.readPositions sh draw k os x).2.team.seat = x.team.seat := by
  induction os generalizing k x with
  | nil => rfl
  | cons o os ih => simp only [Team.readPositions, ih, Team.seat_readPosition]

theorem Team.seat_readDest (t : Team) (sh : List Shadow) (draw : Nat) (x : Reading) (i : Instr) :
    (t.readDest sh draw x i).2.team.seat = x.team.seat := by
  unfold Team.readDest
  split
  · dsimp only
    split <;> exact Team.seat_readPosition _ _ _ _ _ _ _
  · rfl

theorem Team.seat_readings (t : Team) (sh : List Shadow) (draw : Nat) (i : Instr) :
    (t.readings sh draw i).team.seat = t.seat := by
  simp only [Team.readings, Team.seat_foldl_setReg, Team.seat_readDest, Team.seat_readPositions]

/-! ### Turns and steps -/

theorem State.team?_id {s : State} {id : Nat} {t : Team} (h : s.team? id = some t) : t.id = id := by
  simpa using List.find?_some h

/-- A team put back is the one found under its key. -/
theorem State.team?_setTeam {s : State} {id : Nat} {t u : Team} (h : s.team? id = some t) (hu : u.id = id) :
    (s.setTeam u).team? id = some u := by
  subst hu
  simp only [State.team?, State.setTeam, replaceIf] at h ⊢
  generalize s.teams = l at h ⊢
  induction l with
  | nil => simp at h
  | cons x l ih =>
    by_cases hx : (x.id == u.id) = true
    · rw [List.map_cons, if_pos hx, List.find?_cons_of_pos (by simp)]
    · have tail (l : List Team) : (x :: l).find? (·.id == u.id) = l.find? (·.id == u.id) := List.find?_cons_of_neg hx
      rw [List.map_cons, if_neg hx, tail, ih (tail l ▸ h)]

/-- A team of the state that is at a clause is where an instruction performed for it reaches issue. -/
theorem State.current_eq {s : State} {id : Nat} {t : Team} {c : Clause} (h : s.team? id = some t)
    (hc : t.clause = some c) : ({ s with cur := some id } : State).current = some (t, c) := by
  have found : ({ s with cur := some id } : State).team? id = some t := h
  simp [State.current, found, hc]

theorem mapNext_next {f : State → State} {r : Result} (h : ∃ s', r = .next s') : ∃ s', mapNext f r = .next s' := by
  obtain ⟨s', rfl⟩ := h
  exact ⟨f s', rfl⟩

/-- Whatever is performed for a team at a clause, instruction or event, answers a next state. -/
theorem State.perform1_next {s : State} {id : Nat} {t : Team} {c : Clause} (i : Instr) (h : s.team? id = some t)
    (hc : t.clause = some c) : ∃ s', s.perform1 id i = .next s' := by
  refine mapNext_next ?_
  cases he : i.encoded with
  | true => exact exec_encoded_next (State.current_eq h hc) he
  | false => exact exec_event_next _ he

theorem State.issueTurn_next {s : State} {t : Team} {c : Clause} (h : s.team? t.id = some t)
    (hc : t.clause = some c) : ∃ s', s.issueTurn t c = .next s' := by
  unfold State.issueTurn
  refine next_ite ⟨_, rfl⟩ ?_
  cases c.instr with
  | none => exact ⟨_, rfl⟩
  | some i =>
    refine next_ite (mapNext_next ?_) (State.perform1_next i h hc)
    have seat := t.seat_readings (t.shadows.filter (·.covers t c)) s.freeCtr i
    simp only [Team.seat, Prod.mk.injEq] at seat
    exact State.perform1_next _ (State.team?_setTeam h seat.1) (seat.2.trans hc)

theorem State.teamTurn_next (s : State) (id : Nat) : ∃ s', s.teamTurn id = .next s' := by
  unfold State.teamTurn
  cases h : s.team? id with
  | none => exact ⟨_, rfl⟩
  | some t =>
    have event (a b : Instr) (ha : a.encoded = false) (hb : b.encoded = false) :
        ∃ s', exec (if t.trapWaits then a else b) s = .next s' := by
      split
      · exact exec_event_next s ha
      · exact exec_event_next s hb
    refine next_ite ⟨_, rfl⟩ ?_
    cases hc : t.clause with
    | none => exact event _ _ rfl rfl
    | some c => exact next_ite (event _ _ rfl rfl) (State.issueTurn_next (State.team?_id h ▸ h) hc)

theorem State.turn_next (s : State) (x : Turn) : ∃ s', s.turn x = .next s' := by
  cases x with
  | team t => exact s.teamTurn_next t
  | event i =>
    simp only [State.turn]
    split
    · exact ⟨_, rfl⟩
    · next he => exact next_ite ⟨_, rfl⟩ (exec_event_next s (by simpa using he))
  | _ => exact ⟨_, rfl⟩

/-- A reset that is due answers a next state. -/
theorem State.dueReset_next {s : State} {r : Result} (h : s.dueReset = some r) : ∃ s', r = .next s' := by
  unfold State.dueReset at h
  split at h
  · cases h
  · split at h
    · next cold _ =>
      split at h
      · cases h
      · obtain rfl := Option.some.inj h
        exact next_ite (exec_event_next (i := .coldReset) s rfl) (exec_event_next (i := .warmReset) s rfl)
    · obtain ⟨vf, -, rfl⟩ := Option.map_eq_some_iff.mp h
      exact exec_event_next (i := .vfFunctionLevelReset vf) s rfl

/-- Settles O37: a step is a due reset, a turn of the agenda, or a turn of the device's own, and each answers a next
state; an encoded instruction runs only for a team that is at a clause. -/
theorem everyStepAnswersANextState : Obligations.EveryStepAnswersANextState := by
  intro s
  refine mapNext_next ?_
  cases due : s.dueReset with
  | some r => exact State.dueReset_next due
  | none =>
    cases s.agenda with
    | cons x rest => exact State.turn_next _ x
    | nil =>
      cases s.ownTurn with
      | some x => exact s.turn_next x
      | none => exact ⟨_, rfl⟩

end Sys2Proof.Machine
end

section
/-! What an instruction of class 0 or 1 leaves as before: what each write of a register keeps, how such writes compose,
and which of them each instruction makes. -/

namespace Sys2Proof.Machine

/-! ### Registers after a write, where the laws of the model's registers leave a case -/

theorem Team.readV_writeV_of_ne (t : Team) {r r' : Nat} (l : Nat) (m : Mask) (f : Nat → Word) (h : r' ≠ r) :
    (t.writeV r m f).readV r' l = t.readV r' l := by
  simp only [Team.readV, Team.writeV, getD_setAt, if_neg h]

theorem Team.readP_writeP (t : Team) {r : Nat} (r' : Nat) (m x : Mask) (seven : r ≠ 7) :
    (t.writeP r m x).readP r' = if r' = r then (t.readP r &&& ~~~m) ||| (x &&& m) else t.readP r' := by
  by_cases h : r' = r
  · simp only [Team.writeP, Team.readP, beq_iff_eq, h, seven, if_false, if_true, getD_setAt]
  · simp only [Team.writeP, Team.readP, beq_iff_eq, h, seven, if_false, getD_setAt]

theorem Team.readQ_writeQ (t : Team) (r r' : Nat) (b : Bool) :
    (t.writeQ r b).readQ r' = if r' = r then b && decide (r < 4) else t.readQ r' := by
  have bit : (1#4 <<< r).getLsbD r' = (decide (r < 4) && decide (r' = r)) := by
    rw [BitVec.getLsbD_shiftLeft, BitVec.getLsbD_one, Bool.eq_iff_iff]
    simp
    omega
  have inside : t.q.getLsbD r' = true → r' < 4 := BitVec.lt_of_getLsbD
  by_cases h : r' = r
  · subst h
    cases b <;> simp [Team.readQ, Team.writeQ, bit]
    omega
  · cases b
    · simpa [Team.readQ, Team.writeQ, bit, h] using inside
    · simp [Team.readQ, Team.writeQ, bit, h]

theorem Team.fpstat_raise_and (t : Team) (f : Flags) : (t.raise f).fpstat &&& t.fpstat = t.fpstat := by
  refine BitVec.eq_of_getLsbD_eq fun i _ => ?_
  rw [Team.raise, BitVec.getLsbD_and, BitVec.getLsbD_or]
  cases t.fpstat.getLsbD i <;> simp

/-! ### What a change of a team keeps -/

/-- A change from `t` to `t'` that writes the registers `ws` alone and adds flags: everything that `SameTeamState` and
`KeepsRegisters` speak of is as before. -/
def Keeps (ws : List Reg) (anyLane : Bool) (d : Operand) (t t' : Team) : Prop :=
  SameTeamState t t' ∧ KeepsRegisters ws anyLane d t t'

theorem SameTeamState.refl (t : Team) : SameTeamState t t := by simp [SameTeamState]

theorem SameTeamState.trans {t t' t'' : Team} (h : SameTeamState t t') (h' : SameTeamState t' t'') :
    SameTeamState t t'' := by
  simp_all [SameTeamState]

theorem SameTeamState.act_eq {t t' : Team} (h : SameTeamState t t') : t'.act = t.act := by
  obtain ⟨-, -, act, -⟩ := h
  exact act

theorem SameTeamState.n_eq {t t' : Team} (h : SameTeamState t t') : t'.n = t.n := by
  obtain ⟨-, -, -, -, -, -, -, -, -, -, -, -, -, -, -, -, n⟩ := h
  exact n

namespace Keeps

section
variable {ws : List Reg} {anyLane : Bool} {d : Operand} {t t' t'' : Team}

/-- One change after another. -/
theorem trans (h : Keeps ws anyLane d t t') (h' : Keeps ws anyLane d t' t'') : Keeps ws anyLane d t t'' := by
  obtain ⟨same, v, lanes, s, p, pl, q, k, flags⟩ := h
  obtain ⟨same', v', lanes', s', p', pl', q', k', flags'⟩ := h'
  have inactive (l : Nat) (hl : l < t.n) (ha : t.act.getLsbD l = false) : l < t'.n ∧ t'.act.getLsbD l = false := by
    rw [same.n_eq, same.act_eq]; exact ⟨hl, ha⟩
  refine ⟨same.trans same', fun r l hr => (v' r l hr).trans (v r l hr), fun r l any hl ha => ?_,
    fun r hr => (s' r hr).trans (s r hr), fun r hr => (p' r hr).trans (p r hr), fun r l hl ha => ?_,
    fun r hr => (q' r hr).trans (q r hr), fun r hr => (k' r hr).trans (k r hr), ?_⟩
  · obtain ⟨hl', ha'⟩ := inactive l hl ha
    exact (lanes' r l any hl' ha').trans (lanes r l any hl ha)
  · obtain ⟨hl', ha'⟩ := inactive l hl ha
    exact (pl' r l hl' ha').trans (pl r l hl ha)
  · calc t''.fpstat &&& t.fpstat
      _ = (t''.fpstat &&& t'.fpstat) &&& t.fpstat := by rw [BitVec.and_assoc, flags]
      _ = t.fpstat := by rw [flags', flags]

theorem refl : Keeps ws anyLane d t t :=
  ⟨.refl t, fun _ _ _ => rfl, fun _ _ _ _ _ => rfl, fun _ _ => rfl, fun _ _ => rfl, fun _ _ _ _ => rfl,
    fun _ _ => rfl, fun _ _ => rfl, BitVec.and_self⟩

/-- A V register written in the lanes of a mask: active ones, where that matters. -/
theorem writeV {r : Nat} {m : Mask} (f : Nat → Word) (hr : Reg.v r ∈ ws)
    (hm : anyLane = false → ∀ l, l < t.n → m.getLsbD l = true → t.act.getLsbD l = true) :
    Keeps ws anyLane d t (t.writeV r m f) := by
  refine ⟨by simp [SameTeamState], fun r' l h => t.readV_writeV_of_ne l m f fun e => h (e.symm ▸ hr),
    fun r' l any hl ha => ?_, fun _ _ => rfl, fun _ _ => rfl, fun _ _ _ _ => rfl, fun _ _ => rfl, fun _ _ => rfl,
    BitVec.and_self⟩
  have outside : m.getLsbD l = false := Bool.eq_false_iff.mpr fun h => by simp [hm any l hl h] at ha
  by_cases h : r' = r
  · rw [t.readV_writeV r r' l m f hl, if_pos h, outside, h]; rfl
  · exact t.readV_writeV_of_ne l m f h

theorem writeS {r : Nat} (w : Word) (hr : Reg.s r ∈ ws) : Keeps ws anyLane d t (t.writeS r w) := by
  refine ⟨by simp [SameTeamState], fun _ _ _ => rfl, fun _ _ _ _ _ => rfl, fun r' h => ?_, fun _ _ => rfl,
    fun _ _ _ _ => rfl, fun _ _ => rfl, fun _ _ => rfl, BitVec.and_self⟩
  rw [Team.readS_writeS, if_neg fun (e : r' = r) => h (e.symm ▸ hr)]

/-- A predicate written in active lanes; P7 has no place among the registers, and is not written. -/
theorem writeP {r : Nat} {m : Mask} (x : Mask) (hr : r ≠ 7 → Reg.p r ∈ ws)
    (hm : ∀ l, l < t.n → m.getLsbD l = true → t.act.getLsbD l = true) : Keeps ws anyLane d t (t.writeP r m x) := by
  by_cases seven : r = 7
  · rw [seven, Team.writeP_seven]; exact refl
  refine ⟨by simp [SameTeamState], fun _ _ _ => ?_, fun _ _ _ _ _ => ?_, fun _ _ => ?_, fun r' h => ?_,
    fun r' l hl ha => ?_, fun _ _ => ?_, fun _ _ => ?_, by simp⟩
  · simp [Team.readV]
  · simp [Team.readV]
  · simp [Team.readS]
  · rw [Team.readP_writeP _ _ _ _ seven, if_neg fun (e : r' = r) => h (e.symm ▸ hr seven)]
  · have outside : m.getLsbD l = false := Bool.eq_false_iff.mpr fun h => by simp [hm l hl h] at ha
    rw [Team.readP_writeP _ _ _ _ seven]
    split
    · next same =>
      simp only [BitVec.getLsbD_or, BitVec.getLsbD_and, BitVec.getLsbD_not, outside, same, Bool.not_false,
        Bool.and_true, Bool.and_false, Bool.or_false, Bool.and_eq_left_iff_imp, decide_eq_true_eq]
      exact BitVec.lt_of_getLsbD
    · rfl
  · simp [Team.readQ]
  · simp [Team.readK]

theorem writeQ {r : Nat} (b : Bool) (hr : Reg.q r ∈ ws) : Keeps ws anyLane d t (t.writeQ r b) := by
  refine ⟨by simp [SameTeamState], fun _ _ _ => rfl, fun _ _ _ _ _ => rfl, fun _ _ => rfl, fun _ _ => rfl,
    fun _ _ _ _ => rfl, fun r' h => ?_, fun _ _ => rfl, BitVec.and_self⟩
  rw [Team.readQ_writeQ, if_neg fun (e : r' = r) => h (e.symm ▸ hr)]

theorem writeK {n : BitVec 4} (w : BitVec 16) (hd : d = .k n) : Keeps ws anyLane d t (t.writeK n.toNat w) := by
  refine ⟨by simp [SameTeamState], fun _ _ _ => rfl, fun _ _ _ _ _ => rfl, fun _ _ => rfl, fun _ _ => rfl,
    fun _ _ _ _ => rfl, fun _ _ => rfl, fun r h => ?_, BitVec.and_self⟩
  rw [Team.readK_writeK, if_neg (h n hd)]

theorem raise (f : Flags) : Keeps ws anyLane d t (t.raise f) :=
  ⟨by simp [SameTeamState], fun _ _ _ => rfl, fun _ _ _ _ _ => rfl, fun _ _ => rfl, fun _ _ => rfl,
    fun _ _ _ _ => rfl, fun _ _ => rfl, fun _ _ => rfl, t.fpstat_raise_and f⟩

theorem expand (e : Expand) : Keeps ws anyLane d t { t with expand := e } :=
  ⟨by simp [SameTeamState], fun _ _ _ => rfl, fun _ _ _ _ _ => rfl, fun _ _ => rfl, fun _ _ => rfl,
    fun _ _ _ _ => rfl, fun _ _ => rfl, fun _ _ => rfl, BitVec.and_self⟩

end

end Keeps

/-! ### The destination write of a class 0 or 1 instruction (R26, R101) -/

/-- A run of a predicate code is that predicate, but for P7 (R13). -/
theorem Operand.mem_regs_p {n : BitVec 3} {r : Nat} (seven : n.toNat ≠ 7) (hr : 0 < r) :
    Reg.p n.toNat ∈ (Operand.p n).regs r := by
  have ne : n ≠ 7#3 := fun e => seven (e ▸ rfl)
  simp [Operand.regs, ne, Nat.ne_of_gt hr]

theorem Team.putIn_p (t : Team) (m : Mask) (n : BitVec 3) (w64 : Bool) (f : Nat → Nat) :
    t.putIn m (.p n) w64 f = t.writeP n.toNat m (maskOf t.n fun i => (f i).testBit 0) := by
  simp only [Team.putIn, Team.put, Team.writeP]
  split <;> rfl

/-- A result is written in the active lanes. -/
theorem Team.put_eq_putIn (t : Team) (d : Operand) (w64 : Bool) (f : Nat → Nat) :
    t.put d w64 f = t.putIn t.act d w64 f := by
  cases d with
  | p n => rw [Team.putIn_p]; rfl
  | v n | s n => cases w64 <;> rfl
  | _ => rfl

@[simp] theorem Team.put_act (t : Team) (d : Operand) (w64 : Bool) (f : Nat → Nat) : (t.put d w64 f).act = t.act := by
  rw [Team.put_eq_putIn]; rfl

section
variable {side : List Reg} {anyLane : Bool} {d : Operand} {w64 : Bool} {t : Team}

/-- A result written in the lanes of a mask, active ones or, for SEGRED's V destination, any, changes its destination
alone: the register or the pair of a 64-bit result. -/
theorem Keeps.putIn {m : Mask} (f : Nat → Nat)
    (hm : (anyLane = true ∧ d.isV = true) ∨ ∀ l, l < t.n → m.getLsbD l = true → t.act.getLsbD l = true) :
    Keeps (d.regs (if w64 then 2 else 1) ++ side) anyLane d t (t.putIn m d w64 f) := by
  cases d with
  | v n =>
    have lanes (any : anyLane = false) : ∀ l, l < t.n → m.getLsbD l = true → t.act.getLsbD l = true :=
      hm.resolve_left fun h => by simp [any] at h
    cases w64 with
    | false => exact Keeps.writeV _ (by simp [Operand.regs]) lanes
    | true =>
      exact (Keeps.writeV _ (by simp [Operand.regs]) lanes).trans (Keeps.writeV _ (by simp [Operand.regs]) lanes)
  | s n =>
    cases w64 with
    | false => exact Keeps.writeS _ (by simp [Operand.regs])
    | true => exact (Keeps.writeS _ (by simp [Operand.regs])).trans (Keeps.writeS _ (by simp [Operand.regs]))
  | p n =>
    rw [Team.putIn_p]
    exact Keeps.writeP _ (fun h => List.mem_append_left _ (Operand.mem_regs_p h (by split <;> simp)))
      (hm.resolve_left fun h => Bool.false_ne_true h.2)
  | q n => exact Keeps.writeQ _ (by cases w64 <;> simp [Operand.regs])
  | k n => exact Keeps.writeK _ rfl
  | _ => exact Keeps.refl

theorem Keeps.put (f : Nat → Nat) : Keeps (d.regs (if w64 then 2 else 1) ++ side) anyLane d t (t.put d w64 f) := by
  rw [Team.put_eq_putIn]
  exact Keeps.putIn f (.inr fun _ _ h => h)

theorem Keeps.putFlags (f : Nat → Nat × Flags) :
    Keeps (d.regs (if w64 then 2 else 1) ++ side) anyLane d t (t.putFlags d w64 f) :=
  (Keeps.put _).trans (Keeps.raise _)

end

/-! ### What an instruction of class 0 or 1 keeps -/

/-- An instruction that issues goes on with a team in which its destination alone has changed. -/
def KeepsFrame (i : Instr) (o : F1) : Prop :=
  ∀ s t c, Issues i s t c → ∃ t', exec i s = .next (s.done t' c) ∧ SameTeamState t t' ∧
    KeepsRegisters (f1Writes i) (writesAnyLane i) o.d t t'

theorem f1Writes_eq {i : Instr} {o : F1} (h : f1Of i = some o) : f1Writes i = o.d.regs (destRun i) ++ sideWrites i := by
  simp [f1Writes, h]

theorem KeepsFrame.of_issueF1 {i : Instr} {o : F1} {f : Team → Team} (he : ∀ s, exec i s = issueF1 i s f)
    (hf : f1Of i = some o)
    (hk : ∀ t, Keeps (o.d.regs (destRun i) ++ sideWrites i) (writesAnyLane i) o.d t (f t)) : KeepsFrame i o := by
  intro s t c h
  rw [he, f1Writes_eq hf]
  exact ⟨f t, issueF1_next h, hk t⟩

/-- An instruction whose effect is its destination write. -/
theorem KeepsFrame.of_put {i : Instr} {o : F1} {w64 : Bool} {f : Team → Nat → Nat}
    (he : ∀ s, exec i s = issueF1 i s fun t => t.put o.d w64 (f t)) (hf : f1Of i = some o)
    (hr : destRun i = if w64 then 2 else 1) : KeepsFrame i o :=
  .of_issueF1 he hf fun _ => hr ▸ Keeps.put _

/-- An instruction whose effect is its destination write and the flags of it. -/
theorem KeepsFrame.of_putFlags {i : Instr} {o : F1} {w64 : Bool} {f : Team → Nat → Nat × Flags}
    (he : ∀ s, exec i s = issueF1 i s fun t => t.putFlags o.d w64 (f t)) (hf : f1Of i = some o)
    (hr : destRun i = if w64 then 2 else 1) : KeepsFrame i o :=
  .of_issueF1 he hf fun _ => hr ▸ Keeps.putFlags _


/-! ### What the encoding of an instruction that issues satisfies (R7, R75) -/

theorem firstFail_eq_none {l : List (Bool × IllFormed)} (h : firstFail l = none) : ∀ x ∈ l, x.1 = true := by
  induction l with
  | nil => simp
  | cons x l ih =>
    obtain ⟨ok, e⟩ := x
    cases ok with
    | true => simpa using ih h
    | false => cases h

theorem F1Rule.check_eq_none {r : F1Rule} {o : F1} {kinds : List (Bool × IllFormed)} (h : r.check o kinds = none) :
    r.tys.contains (o.ext r.dflt).ty = true ∧ ∀ x ∈ kinds, x.1 = true :=
  ⟨firstFail_eq_none h (r.tys.contains (o.ext r.dflt).ty, .badType) (by simp),
    fun x hx => firstFail_eq_none h x (List.mem_append_right _ hx)⟩

theorem illFormed_of_issues {i : Instr} {s : State} {t : Team} {c : Clause} (h : Issues i s t c) :
    i.illFormed = none := by
  obtain ⟨-, -, -, legal, -⟩ := h
  simp only [Team.illegal, Bool.or_eq_false_iff] at legal
  obtain ⟨⟨wellFormed, -⟩, -⟩ := legal
  simpa using wellFormed

/-! ### A mask from a test -/

/-- Bit l of a number written bit by bit from a list. -/
theorem testBit_foldr_bits (p : Nat → Bool) (ls : List Nat) (l : Nat) :
    (ls.foldr (fun i acc => 2 * acc + (p i).toNat) 0).testBit l = (ls[l]?.map p).getD false := by
  induction ls generalizing l with
  | nil => simp
  | cons x ls ih =>
    cases l with
    | zero => cases h : p x <;> simp [h]
    | succ l =>
      have half (n : Nat) : (2 * n + (p x).toNat) / 2 = n := by have := (p x).toNat_lt; omega
      rw [List.foldr_cons, Nat.testBit_succ, half]
      simpa using ih l

theorem getLsbD_maskOf (n : Nat) (p : Nat → Bool) (l : Nat) :
    (maskOf n p).getLsbD l = (decide (l < 1024) && (decide (l < n) && p l)) := by
  rw [maskOf, BitVec.getLsbD_ofNat, testBit_foldr_bits]
  by_cases h : l < n <;> simp [h]

/-! ### Instructions whose effect is more than one destination write, or depends on the encoding -/

theorem keepsFrame_imad (o : F1) : KeepsFrame (.imad o) o := by
  by_cases wide : ((o.ext .s32).fn == 1) = true
  · exact .of_put (fun _ => if_pos wide) rfl (if_pos wide)
  · exact .of_put (fun _ => if_neg wide) rfl (if_neg wide)

/-- BYTEP has no 64-bit form. -/
theorem keepsFrame_bytep (o : F1) : KeepsFrame (.bytep o) o := by
  intro s t c h
  have b32 : (o.ext .b32).ty = .b32 := by simpa using (F1Rule.check_eq_none (illFormed_of_issues h)).1
  exact KeepsFrame.of_put (fun _ => rfl) rfl (by rw [b32]; rfl) s t c h

/-- The carry-out is written beside the result (R107). -/
theorem Keeps.carryResult {anyLane : Bool} (o : F1) (sub : Bool) (t : Team) :
    Keeps (o.d.regs (o.run .n32) ++ sideWrites (.iadc o)) anyLane o.d t (carryResult o sub t) := by
  simp only [Machine.carryResult, sideWrites]
  split
  · exact Keeps.put _
  · split
    · exact (Keeps.put _).trans (Keeps.writeQ _ (by simp))
    · exact (Keeps.put _).trans (Keeps.writeP _
        (fun seven => List.mem_append_right _ (Operand.mem_regs_p seven Nat.one_pos)) fun l _ active => by
          rwa [Team.put_act])

theorem keepsFrame_iadc (o : F1) : KeepsFrame (.iadc o) o :=
  .of_issueF1 (f := carryResult o false) (fun _ => rfl) rfl fun t => Keeps.carryResult o false t

theorem keepsFrame_isbc (o : F1) : KeepsFrame (.isbc o) o :=
  .of_issueF1 (f := carryResult o true) (fun _ => rfl) rfl fun t => Keeps.carryResult o true t

theorem keepsFrame_lrscan (o : F1) : KeepsFrame (.lrscan o) o := by
  have run : destRun (.lrscan o) = if !((o.ext .f32).fn == 1) then 2 else 1 := by
    simp only [destRun]
    cases ((o.ext .f32).fn == 1) <;> rfl
  exact .of_issueF1 (fun _ => rfl) rfl fun _ => run ▸ (Keeps.put _).trans (Keeps.raise _)

/-- COMPACT writes active lanes alone (R131). -/
theorem keepsFrame_compact (o : F1) : KeepsFrame (.compact o) o := by
  refine .of_issueF1 (fun _ => rfl) rfl fun t => Keeps.putIn _ (.inr fun l _ written => ?_)
  split at written
  · exact written
  · rw [BitVec.getLsbD_and, Bool.and_eq_true] at written
    exact written.1

/-- SEGRED writes in lanes that are not active, and has a V destination alone (R139). -/
theorem keepsFrame_segred (o : F1) : KeepsFrame (.segred o) o := by
  intro s t c h
  have dest := (F1Rule.check_eq_none (illFormed_of_issues h)).2 (_, .badDest) (List.mem_cons_self ..)
  have isV : o.d.isV = true := (Bool.and_eq_true_iff.mp dest).1
  exact KeepsFrame.of_issueF1 (fun _ => rfl) rfl
    (fun t => (Keeps.putIn _ (.inl ⟨rfl, isV⟩)).trans (Keeps.raise _)) s t c h

theorem keepsFrame_exclr (o : F1) : KeepsFrame (.exclr o) o :=
  .of_issueF1 (fun _ => rfl) rfl fun _ => Keeps.expand _

/-- EXSET writes the base offsets and arms the expand state (R136). -/
theorem exset_keeps {o : F1} {s : State} {t : Team} {c : Clause} (h : Issues (.exset o) s t c)
    (idle : t.expand.armed = false) (fits : exBase (exPairs t o) t.n < 2 ^ 32) :
    ∃ t', exec (.exset o) s = .next (s.done t' c) ∧ Keeps (f1Writes (.exset o)) false o.d t t' := by
  have inWord : ¬ 0xFFFFFFFF < exBase (exPairs t o) t.n := by omega
  simp only [exec, execExset]
  exact ⟨_, issue_next h rfl (by simp [idle, inWord]), (Keeps.put _).trans (Keeps.expand _)⟩

/-- A lane that EXDEAL deals an iteration to is active (R137). -/
theorem active_of_exDealt {t : Team} {give l : Nat} (h : (exDealt t give l).isSome = true) :
    t.act.getLsbD l = true := by
  unfold exDealt at h
  split at h
  · next dealt => exact (Bool.and_eq_true_iff.mp dealt).1
  · cases h

/-- EXDEAL writes the lanes it deals to and P6, and moves the expand state on (R137). -/
theorem exdeal_keeps {o : F1} {s : State} {t : Team} {c : Clause} (h : Issues (.exdeal o) s t c)
    (armed : t.expand.armed = true) :
    ∃ t', exec (.exdeal o) s = .next (s.done t' c) ∧ Keeps (f1Writes (.exdeal o)) false o.d t t' := by
  simp only [exec, execExdeal]
  refine ⟨_, issue_next h rfl (by simp [armed]), ((Keeps.putIn _ (.inr fun l _ dealt => ?_)).trans
    (Keeps.writeP _ (fun _ => by simp [sideWrites]) fun l _ active => active)).trans (Keeps.expand _)⟩
  simp only [getLsbD_maskOf, Bool.and_eq_true] at dealt
  obtain ⟨-, -, dealt⟩ := dealt
  exact active_of_exDealt dealt

/-- Settles O45: an instruction writes its destination, with its carry-out or P6 beside it, and merges flags; what each
such write keeps composes. -/
theorem registerInstructionsChangeOnlyTheirDestinations :
    Obligations.RegisterInstructionsChangeOnlyTheirDestinations := by
  intro i o s t c hf h armed idle
  cases i with
  | exset o' =>
    obtain rfl := Option.some.inj hf
    exact exset_keeps h (idle o' rfl).1 (idle o' rfl).2
  | exdeal o' =>
    obtain rfl := Option.some.inj hf
    exact exdeal_keeps h (armed o' rfl)
  | imad o' =>
    obtain rfl := Option.some.inj hf
    exact keepsFrame_imad o' s t c h
  | iadc o' =>
    obtain rfl := Option.some.inj hf
    exact keepsFrame_iadc o' s t c h
  | isbc o' =>
    obtain rfl := Option.some.inj hf
    exact keepsFrame_isbc o' s t c h
  | bytep o' =>
    obtain rfl := Option.some.inj hf
    exact keepsFrame_bytep o' s t c h
  | lrscan o' =>
    obtain rfl := Option.some.inj hf
    exact keepsFrame_lrscan o' s t c h
  | segred o' =>
    obtain rfl := Option.some.inj hf
    exact keepsFrame_segred o' s t c h
  | compact o' =>
    obtain rfl := Option.some.inj hf
    exact keepsFrame_compact o' s t c h
  | exclr o' =>
    obtain rfl := Option.some.inj hf
    exact keepsFrame_exclr o' s t c h
  | mov _ | sel _ | iadd _ | isub _ | imul _ | imulh _ | imin _ | imax _ | iabs _ | ineg _ | andL _ | orL _
  | xorL _ | andn _ | notL _ | shl _ | shr _ | sar _ | rot _ | bfx _ | bfi _ | popc _ | clz _ | brev _ | lea _
  | iset _ | fclass _ | pand _ | por _ | pxor _ | pnot _ | pmov _ | sval _ | shfl _ | bcast _ | vote _ | matchP _ =>
    obtain rfl := Option.some.inj hf
    exact KeepsFrame.of_put (fun _ => rfl) rfl rfl s t c h
  | fadd _ | fsub _ | fmul _ | ffma _ | fmin _ | fmax _ | fset _ | frcp _ | frsq _ | fsqrt _ | fexp2 _ | flog2 _
  | fscale _ | fexpo _ | frnd _ | cvt _ | pack _ | unpk _ | hfma2 _ | hadd2 _ | hmul2 _ | dot4 _ | dot2 _
  | reduce _ | scan _ | segscan _ =>
    obtain rfl := Option.some.inj hf
    exact KeepsFrame.of_putFlags (fun _ => rfl) rfl rfl s t c h
  | _ => cases hf

end Sys2Proof.Machine
end

section
/-! The encodings of a format as a sign, an exponent field and a mantissa field, the values they stand for, and Round
where a value lies on the spacing of the format: the finite values of a format round to themselves. -/

namespace Sys2Proof.Machine

/-! ### The fields of an encoding (R39) -/

namespace Fmt

/-- The exponent field of an encoding. -/
def expField (f : Fmt) (x : Nat) : Nat := (x >>> f.m) % 2 ^ f.e

/-- The mantissa field of an encoding. -/
def manField (f : Fmt) (x : Nat) : Nat := x % 2 ^ f.m

/-- The sign of an encoding. -/
def signBit (f : Fmt) (x : Nat) : Bool := x.testBit (f.e + f.m)

theorem expField_lt (f : Fmt) (x : Nat) : f.expField x < 2 ^ f.e := Nat.mod_lt _ (Nat.two_pow_pos _)

theorem manField_lt (f : Fmt) (x : Nat) : f.manField x < 2 ^ f.m := Nat.mod_lt _ (Nat.two_pow_pos _)

/-- Below its sign, an encoding is its exponent field over its mantissa field. -/
theorem mod_eq_fields (f : Fmt) (x : Nat) :
    x % 2 ^ (f.e + f.m) = f.expField x * 2 ^ f.m + f.manField x := by
  rw [expField, manField, Nat.shiftRight_eq_div_pow, Nat.add_comm f.e, Nat.pow_add, Nat.mod_mul,
    Nat.add_comm (x % _), Nat.mul_comm (2 ^ f.m)]

/-- A magnitude with an exponent field below `b` is below the first magnitude with `b` for its exponent field. -/
theorem mod_lt_of_expField_lt (f : Fmt) {x b : Nat} (below : f.expField x < b) :
    x % 2 ^ (f.e + f.m) < b * 2 ^ f.m := by
  have man := f.manField_lt x
  have succ := Nat.mul_le_mul_right (2 ^ f.m) (Nat.succ_le_of_lt below)
  rw [Nat.succ_mul] at succ
  rw [f.mod_eq_fields]
  omega

/-- Only the all-ones fields give the greatest magnitude. -/
theorem fields_of_last (f : Fmt) {x : Nat} (last : x % 2 ^ (f.e + f.m) = 2 ^ (f.e + f.m) - 1) :
    f.expField x = 2 ^ f.e - 1 ∧ f.manField x = 2 ^ f.m - 1 := by
  have manPos := Nat.two_pow_pos f.m
  have top : f.expField x = 2 ^ f.e - 1 := by
    refine Nat.le_antisymm (Nat.le_sub_one_of_lt (f.expField_lt x)) (Nat.le_of_not_lt fun below => ?_)
    have lower := f.mod_lt_of_expField_lt below
    rw [last, Nat.pow_add, Nat.sub_mul, Nat.one_mul] at lower
    omega
  have fields := f.mod_eq_fields x
  rw [last, top, Nat.pow_add, Nat.sub_mul, Nat.one_mul] at fields
  have := Nat.le_mul_of_pos_left (2 ^ f.m) (Nat.two_pow_pos f.e)
  exact ⟨top, by omega⟩

/-- An encoding is its sign over its magnitude. -/
theorem sign_add_mod (f : Fmt) {x : Nat} (inWidth : x < 2 ^ f.width) :
    f.sign (f.signBit x) + x % 2 ^ (f.e + f.m) = x := by
  have sign : f.sign (f.signBit x) = 2 ^ (f.e + f.m) * (x / 2 ^ (f.e + f.m)) := by
    have twice : x < 2 ^ (f.e + f.m) * 2 := by
      rwa [width, Nat.add_assoc, Nat.add_comm, Nat.pow_succ] at inWidth
    have bit : x / 2 ^ (f.e + f.m) < 2 := Nat.div_lt_of_lt_mul twice
    rw [Fmt.sign, signBit, Nat.testBit_eq_decide_div_mod_eq]
    rcases Nat.le_one_iff_eq_zero_or_eq_one.mp (Nat.le_of_lt_succ bit) with plus | minus
    · simp [plus]
    · simp [minus]
  rw [sign, Nat.div_add_mod]

/-! ### Finite encodings (R39, R40) -/

/-- The value of an encoding that is neither a NaN nor an infinity. -/
def finite (f : Fmt) (x : Nat) : FVal :=
  if f.expField x = 0 then .fin (f.signBit x) (f.manField x) f.minExp
  else .fin (f.signBit x) (2 ^ f.m + f.manField x) ((f.expField x : Int) - f.bias - f.m)

theorem decode_ieee (f : Fmt) (x : Nat) (kind : f.nan = .ieee) : f.decode x =
    if f.expField x = 2 ^ f.e - 1 then
      if f.manField x = 0 then .inf (f.signBit x) else .nan (!(f.manField x).testBit (f.m - 1))
    else f.finite x := by
  simp only [decode, kind, beq_iff_eq]
  rfl

theorem decode_e4m3 (f : Fmt) (x : Nat) (kind : f.nan = .e4m3) : f.decode x =
    if f.expField x = 2 ^ f.e - 1 ∧ f.manField x = 2 ^ f.m - 1 then .nan false else f.finite x := by
  simp only [decode, kind, Bool.and_eq_true, beq_iff_eq]
  rfl

theorem decode_noNan (f : Fmt) (x : Nat) (kind : f.nan = .none) : f.decode x = f.finite x := by
  simp only [decode, kind, beq_iff_eq]
  rfl

/-- What stands for neither a NaN nor an infinity stands for its finite value, and its magnitude is at most the
largest. -/
theorem decode_eq_finite_and_mod_le (f : Fmt) {x : Nat} (notNan : (f.decode x).isNan = false)
    (notInf : (f.decode x).isInf = false) :
    f.decode x = f.finite x ∧ x % 2 ^ (f.e + f.m) ≤ f.maxBits := by
  have magnitude : x % 2 ^ (f.e + f.m) < 2 ^ (f.e + f.m) := Nat.mod_lt _ (Nat.two_pow_pos _)
  cases kind : f.nan with
  | ieee =>
    rw [f.decode_ieee x kind] at notNan notInf ⊢
    split at notNan
    · split at notNan
      · next top inf => simp [top, inf, FVal.isInf] at notInf
      · cases notNan
    · next notTop =>
      have belowTop : f.expField x < 2 ^ f.e - 1 := by
        have := f.expField_lt x
        omega
      have belowInf := f.mod_lt_of_expField_lt belowTop
      exact ⟨if_neg notTop, by simp only [maxBits, kind]; omega⟩
  | e4m3 =>
    rw [f.decode_e4m3 x kind] at notNan ⊢
    split at notNan
    · cases notNan
    · next notLast =>
      have notOnes := mt f.fields_of_last notLast
      exact ⟨if_neg notLast, by simp only [maxBits, kind]; omega⟩
  | none => exact ⟨f.decode_noNan x kind, by simp only [maxBits, kind]; omega⟩

end Fmt

/-! ### Round where nothing is lost (R47, R51) -/

/-- Nothing goes up where there is no remainder. -/
@[simp] theorem roundUp_exact (rm : RM) (h : Word) (neg odd : Bool) (k : Nat) :
    roundUp rm h neg odd 0 k false = false := by
  cases rm <;> simp [roundUp, Nat.ne_of_lt (Nat.two_pow_pos k)]

/-- A value on its own spacing keeps its magnitude. -/
@[simp] theorem roundAt_self (rm : RM) (h : Word) (neg : Bool) (n : Nat) (e : Int) :
    roundAt rm h neg n e e false = (n, false) := by
  simp [roundAt]

namespace Fmt

/-- The spacing at a value with at most one bit above the mantissa: the value's own exponent, where that is the least or
the bit is set. -/
theorem spacing_eq (f : Fmt) {n k : Nat} (fits : n < 2 ^ (f.m + 1)) (normal : k = 0 ∨ 2 ^ f.m ≤ n) (pos : n ≠ 0) :
    max ((n.log2 : Int) + (f.minExp + k) - f.m) f.minExp = f.minExp + k := by
  have upper : n.log2 < f.m + 1 := (Nat.log2_lt pos).mpr fits
  rcases normal with rfl | large
  · omega
  · have lower : f.m ≤ n.log2 := (Nat.le_log2 pos).mpr large
    omega

/-- A value on the spacing of its binade rounds to the encoding of its exponent and magnitude, and nothing is raised. -/
theorem round_onSpacing (f : Fmt) (rm : RM) (h : Word) (neg : Bool) {n k : Nat} (fits : n < 2 ^ (f.m + 1))
    (normal : k = 0 ∨ 2 ^ f.m ≤ n) (notOver : k * 2 ^ f.m + n ≤ f.maxBits) :
    f.round rm h (.fin neg n (f.minExp + k)) = (f.sign neg + (k * 2 ^ f.m + n), 0) := by
  by_cases zero : n = 0
  · have : k = 0 := normal.resolve_right (by simp [zero])
    simp [round, zero, this]
  · have units : (f.minExp + (k : Int) - f.minExp).toNat = k := by omega
    simp only [round, beq_eq_false_iff_ne.mpr zero, Bool.false_and, Bool.false_eq_true, ite_false,
      f.spacing_eq fits normal zero, roundAt_self, units, gt_iff_lt, Nat.not_lt.mpr notOver, Flags.when]
    rfl

/-- The finite value of an encoding rounds to that encoding in every mode, and nothing is raised (R47, R51). -/
theorem round_finite (f : Fmt) (rm : RM) (h : Word) {x : Nat} (inWidth : x < 2 ^ f.width)
    (notOver : x % 2 ^ (f.e + f.m) ≤ f.maxBits) : f.round rm h (f.finite x) = (x, 0) := by
  rw [f.mod_eq_fields] at notOver
  have value := f.mod_eq_fields x ▸ f.sign_add_mod inWidth
  have man := f.manField_lt x
  unfold finite
  split
  · next subnormal =>
    rw [subnormal] at notOver value
    have rounded := f.round_onSpacing rm h (f.signBit x) (k := 0) (by omega) (.inl rfl) notOver
    rw [value] at rounded
    simpa using rounded
  · next normal =>
    obtain ⟨k, exp⟩ := Nat.exists_eq_succ_of_ne_zero normal
    rw [exp, Nat.succ_mul, Nat.add_assoc] at notOver value
    have rounded := f.round_onSpacing rm h (f.signBit x) (by omega) (.inr (Nat.le_add_right ..)) notOver
    have exponent : (f.expField x : Int) - f.bias - f.m = f.minExp + k := by
      rw [minExp]
      omega
    rw [exponent, rounded, value]

/-- The value of a finite encoding of any format rounds to that encoding in every mode, and nothing is raised. -/
theorem round_decode (f : Fmt) (rm : RM) (h : Word) {x : Nat} (inWidth : x < 2 ^ f.width)
    (notNan : (f.decode x).isNan = false) (notInf : (f.decode x).isInf = false) :
    f.round rm h (f.decode x) = (x, 0) := by
  obtain ⟨value, notOver⟩ := f.decode_eq_finite_and_mod_le notNan notInf
  rw [value, f.round_finite rm h inWidth notOver]

end Fmt

/-- Settles O52: a finite encoding is its sign, exponent field and mantissa field, and its value lies on the spacing
that Round takes for it, so that nothing is rounded away; no property of the eight formats is needed. -/
theorem finiteValuesRoundToThemselves : Obligations.FiniteValuesRoundToThemselves :=
  fun f _ _ rm h inWidth notNan notInf => f.round_decode rm h inWidth notNan notInf

end Sys2Proof.Machine
end

section
/-! Taking a trap and leaving its handler: the frame's registers, the team that enters, and what an entry followed by a
leave restores. -/

namespace Sys2Proof.Machine

/-! ### The trap frame (R98) -/

theorem Team.readTS_writeTS (t : Team) (r r' : Nat) (d : DWord) :
    (t.writeTS r d).readTS r' = if r' = r then d else t.readTS r' := by
  simp only [Team.readTS, Team.writeTS, getD_setAt]

/-- Each field of TS1 stands at its place, and the reserved bits are zero. -/
theorem frameWord_fields (info : BitVec 16) (rk : BitVec 2) (cmask : BitVec 15) (idx : BitVec 4)
    (code : BitVec 8) :
    let w := frameWord info rk cmask idx code
    w.extractLsb' 0 8 = code ∧ w.extractLsb' 8 4 = idx ∧ w.extractLsb' 12 15 = cmask ∧ w.extractLsb' 27 2 = rk ∧
      w.extractLsb' 32 16 = info ∧ w.extractLsb' 29 3 = 0 ∧ w.extractLsb' 48 16 = 0 := by
  simp (disch := decide) only [frameWord, BitVec.extractLsb'_append_eq_of_le,
    BitVec.extractLsb'_append_eq_of_add_le]
  simp

/-- The trap-state registers of a team that has entered a handler: the five of the frame, and the others as before. -/
theorem Team.readTS_enter (t : Team) (info : BitVec 16) (code : BitVec 8) (addr lanes : DWord) (r : Resume)
    (base : DWord) (psave : Bool) :
    let u := t.enter info code addr lanes r base psave
    u.readTS 0 = r.epc ∧ u.readTS 1 = frameWord info r.rk r.cmask r.idx code ∧ u.readTS 2 = addr ∧ u.readTS 3 = lanes ∧
      u.readTS 4 = BitVec.ofNat 64 t.stack.length ∧ ∀ k, 5 ≤ k → u.readTS k = t.readTS k := by
  have frame (k : Nat) : (t.enter info code addr lanes r base psave).readTS k =
      (t.writeFrame info code addr lanes r).readTS k := rfl
  simp only [frame, Team.writeFrame, Team.readTS_writeTS]
  refine ⟨rfl, rfl, rfl, rfl, rfl, fun k high => ?_⟩
  have other (j : Nat) (low : j < 5) : k ≠ j := by omega
  simp [other]

/-- The frame's registers are all that writing it changes. -/
theorem Team.writeFrame_eq (t : Team) (info : BitVec 16) (code : BitVec 8) (addr lanes : DWord) (r : Resume) :
    ∃ ts, t.writeFrame info code addr lanes r = { t with ts := ts } := by
  simp only [Team.writeFrame, Team.writeTS]
  exact ⟨_, rfl⟩

/-- The team that enters a handler: its frame field by field, its masks, and what it keeps (R97, R98). -/
theorem Team.enter_frame (t : Team) (info : BitVec 16) (code : BitVec 8) (addr lanes : DWord) (r : Resume)
    (base : DWord) (psave : Bool) :
    let u := t.enter info code addr lanes r base psave
    u.readTS 0 = r.epc ∧ (u.readTS 1).extractLsb' 0 8 = code ∧ (u.readTS 1).extractLsb' 8 4 = r.idx ∧
      (u.readTS 1).extractLsb' 12 15 = r.cmask ∧ (u.readTS 1).extractLsb' 27 2 = r.rk ∧
      (u.readTS 1).extractLsb' 32 16 = info ∧ (u.readTS 1).extractLsb' 29 3 = 0 ∧
      (u.readTS 1).extractLsb' 48 16 = 0 ∧ u.readTS 2 = addr ∧ u.readTS 3 = lanes ∧
      u.readTS 4 = BitVec.ofNat 64 t.stack.length ∧ (∀ k, 5 ≤ k → u.readTS k = t.readTS k) ∧
      u.tmask = t.act ∧ u.act = t.existing &&& ~~~t.exited ∧ u.hnd = true ∧ u.pc = base ∧ u.clause = none ∧
      u.v = t.v ∧ u.s = t.s ∧ u.p = t.p ∧ u.q = t.q ∧ u.k = t.k ∧ u.b = t.b ∧ u.stack = t.stack ∧
      u.exited = t.exited ∧ u.fpstat = t.fpstat ∧ u.svl = t.svl ∧ u.world = t.world ∧ u.tbase = t.tbase ∧
      u.psave = psave := by
  obtain ⟨epc, word, addr, lanes, depth, others⟩ := t.readTS_enter info code addr lanes r base psave
  obtain ⟨code, idx, cmask, rk, info, middle, high⟩ := frameWord_fields info r.rk r.cmask r.idx code
  refine ⟨epc, ?_⟩
  rw [word]
  refine ⟨code, idx, cmask, rk, info, middle, high, addr, lanes, depth, others, rfl, rfl, rfl, rfl, rfl, ?_⟩
  obtain ⟨ts, frame⟩ := t.writeFrame_eq _ _ _ _ r
  rw [Team.enter, frame]
  exact ⟨rfl, rfl, rfl, rfl, rfl, rfl, rfl, rfl, rfl, rfl, rfl, rfl, rfl⟩

/-! ### The resume of a trap at an instruction (R98) -/

theorem Team.trapResume_eq (t : Team) (c : Clause) (pos : Nat) (code : TrapCode) :
    t.trapResume c pos code =
      { epc := if code = .userTrap then t.seqAddr c else t.pc
        idx := BitVec.ofNat 4 pos
        rk := if code = .userTrap then 2 else if code = .breakpoint then 1 else 0
        cmask := t.cmask c (some pos) } := by
  cases code <;> rfl

/-! ### Entering (R97, R100) -/

/-- The end of a clause at a trap notes when it was and whether it had header bit Y. -/
theorem Team.endsClause_eq (t : Team) (clk : Nat) :
    ∃ last y, t.endsClause clk = { t with lastEnd := last, lastY := y } := by
  unfold Team.endsClause
  split
  · exact ⟨_, _, rfl⟩
  · exact ⟨t.lastEnd, t.lastY, rfl⟩

theorem State.trapNow_settled {s : State} {t : Team} (c : Clause) (tr : Trap) (h : t.outst = []) :
    s.trapNow t c tr = s.enterTrap t tr (t.trapResume c c.pos tr.code) :=
  ((s.trapNow_cases t c tr).resolve_right fun ⟨busy, _⟩ => busy h).2

theorem State.trapNow_held {s : State} {t : Team} (c : Clause) (tr : Trap) (h : t.outst ≠ []) :
    s.trapNow t c tr = s.setTeam { t with pending := some (tr, c.pos) } :=
  ((s.trapNow_cases t c tr).resolve_left fun ⟨idle, _⟩ => h idle).2

theorem State.enterTrap_outside {s : State} {t : Team} (tr : Trap) (r : Resume) (h : t.hnd = false) :
    s.enterTrap t tr r = s.setTeam
      ((t.endsClause s.clk).enter tr.info tr.code.code tr.addr tr.lanes r t.tbase (tr.code == .preempt)) := by
  simp [State.enterTrap, h]

theorem State.enterTrap_inHandler {s : State} {t : Team} (tr : Trap) (r : Resume) (h : t.hnd = true) :
    s.enterTrap t tr r = s.contextFault t.ctx (coreDie t.core) 1 tr.code.code 0 := by simp [State.enterTrap, h]

theorem State.contextFault_registered {s : State} {ctx : Nat} (die reason : Nat) (code : BitVec 8) (va : DWord)
    (h : (s.ctx ctx).state = .registered) :
    s.contextFault ctx die reason code va =
      (s.record ctx (contextRecord (s.ctx ctx) die reason code va)).onCtx ctx
        fun c => { c with state := .resetting } := by
  simp [State.contextFault, h]

/-- Settles O56: a trap with nothing outstanding is entered at once, and what the handler's entry writes and keeps is
said of every team; the end of the clause that goes with it touches neither. -/
theorem takingATrap : Obligations.TakingATrap := by
  refine ⟨fun s t c tr idle outside => ?_, fun s t c tr idle inside registered => ?_,
    fun s t c tr busy => State.trapNow_held c tr busy⟩
  · obtain ⟨last, y, ends⟩ := t.endsClause_eq s.clk
    rw [State.trapNow_settled c tr idle, State.enterTrap_outside tr _ outside, ends, Team.trapResume_eq]
    exact ⟨_, rfl, Team.enter_frame { t with lastEnd := last, lastY := y } ..⟩
  · rw [State.trapNow_settled c tr idle, State.enterTrap_inHandler tr _ inside,
      State.contextFault_registered _ _ _ _ registered]

/-! ### Leaving (R99) -/

/-- An entry and the leave after it: Act as it was but for lanes that have exited since, the levels clear, and the
resume that the frame holds. The frame has no room for whether the resume goes on inside a clause that a missing page
had parked (R98, R268), so that the resume read back never does. -/
theorem Team.leave_enter (t : Team) (info : BitVec 16) (code : BitVec 8) (addr lanes : DWord) (r : Resume)
    (base : DWord) (psave : Bool) :
    let u := (t.enter info code addr lanes r base psave).leave
    u.act = t.act &&& ~~~t.exited ∧ u.hnd = false ∧ u.svl = false ∧ u.psave = false ∧ u.pc = r.epc ∧
      u.resume = some { r with inside := false } ∧ u.clause = none ∧ u.v = t.v ∧ u.s = t.s ∧ u.p = t.p ∧ u.q = t.q ∧
      u.k = t.k ∧ u.b = t.b ∧ u.stack = t.stack ∧ u.exited = t.exited ∧ u.fpstat = t.fpstat ∧ u.tbase = t.tbase := by
  obtain ⟨epc, -, idx, cmask, rk, -, -, -, -, -, -, -, tmask, -, -, -, -, v, s, p, q, k, b, stack, exited, fpstat, -, -,
    tbase, -⟩ := t.enter_frame info code addr lanes r base psave
  refine ⟨?_, rfl, rfl, rfl, epc, ?_, rfl, v, s, p, q, k, b, stack, exited, fpstat, tbase⟩
  · simp only [Team.leave, tmask, exited]
  · simp only [Team.leave, epc, idx, cmask, rk]

/-- The resume read back is the one entered with exactly where that one does not go on inside a parked clause. -/
theorem Team.leave_enter_resume {t : Team} {info : BitVec 16} {code : BitVec 8} {addr lanes : DWord} {r : Resume}
    {base : DWord} {psave : Bool} :
    (t.enter info code addr lanes r base psave).leave.resume = some r ↔ r.inside = false := by
  obtain ⟨-, -, -, -, -, resume, -⟩ := t.leave_enter info code addr lanes r base psave
  rw [resume]
  cases r
  simp [eq_comm]

/-- A 32-lane team as placement makes it, of a grid that asks for nothing. -/
def launchedTeam : Team :=
  State.reset.newTeam
    { id := 0, ctx := 0, source := .task 0 0, gdva := 0, desc := [], args := [], cvb := 0, pvb := 0, scrl := 0,
      partw := 0, nteam := 1, pri := 0, dies := [0], nextCast := 1, unretired := 1, saved := [], headAt := none,
      holding := false, tokens := 0, order := 0 }
    0 0 0 1 (0, 32, 1) 0 [] false

/-- The resume of a team that goes on at the first instruction of a clause that a missing page had parked (R268). -/
def insideResume : Resume := { epc := 0x1000, idx := 1, rk := 0, cmask := 0, inside := true }

/-- Refutes O57: the statement takes every resume, and one that goes on inside a parked clause, as a WATCHDOG or PREEMPT
at that boundary enters with, comes back without its mark, which the frame does not hold. -/
theorem not_returningFromATrap : ¬ Obligations.ReturningFromATrap := by
  intro h
  obtain ⟨-, -, -, -, -, resume, -⟩ := h launchedTeam 0 TrapCode.watchdog.code 0 0 insideResume 0x8000 false
  exact absurd (Team.leave_enter_resume.mp resume) (by decide)

end Sys2Proof.Machine
end

section
/-! Class 5: what an instruction that issues answers by the trap its checks name, transfers, structured divergence, and
the instructions that leave, trap and wait. -/

namespace Sys2Proof.Machine

/-! ### Reaching issue, with one trap to check -/

/-- An instruction that issues takes the trap of its last checks, or has its effect. -/
theorem issue_eq {i : Instr} {s : State} {t : Team} {c : Clause} {post : State → Team → Clause → Option Trap}
    {k : State → Team → Clause → State} (h : Issues i s t c) :
    issue i s noTrap post k = .next ((post s t c).elim (k s t c) (s.trapNow t c)) := by
  cases trap : post s t c with
  | none => exact issue_next h rfl trap
  | some tr => exact issue_post h rfl trap

/-! ### Targets, conditions and transfers (R83, R84, R88 to R90) -/

/-- An address is aligned to a word where its two lowest bits are zero. -/
theorem extractLsb'_low_ne_zero (a : DWord) : (a.extractLsb' 0 2 != 0) = decide (a.toNat % 4 ≠ 0) := by
  have zero : a.extractLsb' 0 2 = 0 ↔ a.toNat % 4 = 0 := by
    rw [← BitVec.toNat_inj, BitVec.extractLsb'_toNat, Nat.shiftRight_zero]
    rfl
  rw [Bool.eq_iff_iff, bne_iff_ne, decide_eq_true_iff, Ne, zero]

/-- An address lies below 2^52 where its twelve highest bits are zero. -/
theorem extractLsb'_high_ne_zero (a : DWord) : (a.extractLsb' 52 12 != 0) = decide (2 ^ 52 ≤ a.toNat) := by
  have zero : a.extractLsb' 52 12 = 0 ↔ a.toNat < 2 ^ 52 := by
    have bound := a.isLt
    rw [← BitVec.toNat_inj, BitVec.extractLsb'_toNat, Nat.shiftRight_eq_div_pow]
    change _ = 0 ↔ _
    omega
  rw [Bool.eq_iff_iff, bne_iff_ne, decide_eq_true_iff, Ne, zero, Nat.not_lt]

/-- A transfer that issues, and that is taken where it may be: it goes on, traps on an invalid target, or makes that
target the next clause. -/
theorem issueTransfer_eq {i : Instr} {s : State} {t : Team} {c : Clause} {b : BitVec 3} {take : Team → Bool}
    {link : Team → Clause → Team} {hold : Team → Bool} (h : Issues i s t c)
    (free : take t = true → (t.branch b.toNat).valid = true → hold t = false) :
    issueTransfer i s b take link hold = .next (
      if take t = false then s.done t c
      else if (t.branch b.toNat).valid = false then s.trapNow t c { code := .unpreparedTarget, info := b.setWidth 16 }
      else
        let br := t.branch b.toNat
        s.done { link t c with via := if br.pf == 2 && br.gen == (link t c).stamp then some br.copy else none }
          { c with next := some (br.target.setWidth 64) }) := by
  rw [issueTransfer, issue_eq h]
  cases taken : take t with
  | false => simp
  | true =>
    cases valid : (t.branch b.toNat).valid with
    | false => simp
    | true => simp [free taken valid, Team.transfer]

/-- A call through B7 waits while something of its clause is outstanding. -/
theorem issueTransfer_held {i : Instr} {s : State} {t : Team} {c : Clause} {b : BitVec 3} {take : Team → Bool}
    {link : Team → Clause → Team} {hold : Team → Bool} (h : Issues i s t c) (taken : take t = true)
    (valid : (t.branch b.toNat).valid = true) (held : hold t = true) :
    issueTransfer i s b take link hold = .next s := by
  rw [issueTransfer, issue_eq h]
  simp [taken, valid, held]

/-- PREPS answers the first of its two traps that its target address meets, or prepares the target. -/
theorem execPreps_eq {b : BitVec 3} {off : BitVec 18} {r : BitVec 6} {s : State} {t : Team} {c : Clause}
    (h : Issues (.preps b off r) s t c) :
    execPreps b off r s = .next (
      if (prepsTarget t off r).toNat % 4 ≠ 0 then s.trapNow t c { code := .misaligned, addr := prepsTarget t off r }
      else if 2 ^ 52 ≤ (prepsTarget t off r).toNat then
        s.trapNow t c { code := .protection, addr := prepsTarget t off r }
      else s.done (t.prepare b ((prepsTarget t off r).setWidth 52)) c) := by
  rw [execPreps, issue_eq h]
  simp only [extractLsb'_low_ne_zero, extractLsb'_high_ne_zero, decide_eq_true_iff]
  split
  · rfl
  · split <;> rfl

/-- Settles O8: the conditions of the four transfers differ, and `issueTransfer_eq` says once what follows from them;
of the four only a call through B7 can be held. -/
theorem controlFlowCompletes : Obligations.ControlFlowCompletes := by
  refine ⟨fun b off s t c h => ?prep, fun b off r s t c h => execPreps_eq h, fun q cc ty a b s t c h => issueF1_next h,
    fun q md s t c h => issueF1_next h, fun b q neg cnd s t c h _ => issueTransfer_eq h fun _ _ => rfl,
    fun b q neg cnd link s t c h ready => ?xcall, fun q neg cnd link s t c h cond valid busy => ?held,
    fun b p neg s t c h _ => issueTransfer_eq h fun _ _ => rfl,
    fun b p neg s t c h _ => issueTransfer_eq h fun _ _ => rfl⟩
  case prep =>
    change execPrep b off s = _
    rw [execPrep, issue_free h]
  case xcall =>
    cases link with
    | none | some r =>
      refine issueTransfer_eq h fun taken valid => ?_
      simp only [Bool.and_eq_false_imp, beq_iff_eq, Bool.not_eq_false', List.isEmpty_iff]
      exact ready taken valid
  case held =>
    refine issueTransfer_held h ?_ valid (by simp [busy])
    rcases cond with always | differs
    · simp [Team.condition, always]
    · simp [Team.condition, differs]

/-! ### Structured divergence (R91) -/

theorem issueMask_ok {i : Instr} {s : State} {t t' : Team} {c : Clause} {f : Team → Except TrapCode Team}
    (h : Issues i s t c) (ok : f t = .ok t') : issueMask i s f = .next (s.done t' c) := by
  rw [issueMask, issue_eq h]
  simp only [ok, Option.elim]

theorem issueMask_error {i : Instr} {s : State} {t : Team} {c : Clause} {f : Team → Except TrapCode Team} {e : TrapCode}
    (h : Issues i s t c) (error : f t = .error e) : issueMask i s f = .next (s.trapNow t c { code := e }) := by
  rw [issueMask, issue_eq h]
  simp only [error, Option.elim]

theorem Team.pushIf_ok {t : Team} (p : Mask) (room : t.stack.length ≠ 16) :
    t.pushIf p = .ok { t with stack := { kind := .ifK, mask := t.act &&& ~~~p } :: t.stack, act := p } := by
  simp [Team.pushIf, Config.stackDepth, room]

theorem Team.pushIf_full {t : Team} (p : Mask) (full : t.stack.length = 16) :
    t.pushIf p = .error .maskStackOverflow := by
  simp [Team.pushIf, Config.stackDepth, full]

theorem Team.elseSwap_mismatch {t : Team} (h : ∀ m r, t.stack ≠ { kind := .ifK, mask := m } :: r) :
    t.elseSwap = .error .maskStackMismatch := by
  unfold Team.elseSwap
  split
  · next m r top => exact absurd top (h m r)
  · rfl

theorem Team.popIf_ok {t : Team} {e : MaskEntry} {r : List MaskEntry} (top : t.stack = e :: r)
    (kind : e.kind = .ifK ∨ e.kind = .elseK) :
    t.popIf = .ok { t with stack := r, act := (t.act ||| e.mask) &&& ~~~t.exited } := by
  simp [Team.popIf, top, kind]

theorem Team.popIf_mismatch {t : Team} (h : ∀ e r, t.stack = e :: r → e.kind ≠ .ifK ∧ e.kind ≠ .elseK) :
    t.popIf = .error .maskStackMismatch := by
  unfold Team.popIf
  split
  · next e r top =>
    obtain ⟨notIf, notElse⟩ := h e r top
    simp [notIf, notElse]
  · rfl

theorem Team.pushLoop_ok {t : Team} (room : t.stack.length ≤ 14) :
    t.pushLoop = .ok { t with
      stack := { kind := .loopC, mask := 0 } :: { kind := .loopX, mask := t.act } :: t.stack } :=
  if_neg (Nat.not_lt.mpr room)

theorem Team.pushLoop_full {t : Team} (full : 14 < t.stack.length) : t.pushLoop = .error .maskStackOverflow :=
  if_pos full

theorem Team.pushSerial_ok {t : Team} (room : t.stack.length ≤ 14) :
    t.pushSerial = .ok { t with
      stack := { kind := .serialR, mask := t.act &&& ~~~Mask.lowest t.act } ::
        { kind := .serialX, mask := t.act } :: t.stack
      act := Mask.lowest t.act } :=
  if_neg (Nat.not_lt.mpr room)

theorem Team.pushSerial_full {t : Team} (full : 14 < t.stack.length) : t.pushSerial = .error .maskStackOverflow :=
  if_pos full

/-- The loop entry lies below every IF and ELSE entry above it. -/
theorem onLoopC_append (f : Mask → Mask) (above : List MaskEntry) (rest : List MaskEntry)
    (branches : ∀ x ∈ above, x.kind = .ifK ∨ x.kind = .elseK) :
    onLoopC f (above ++ rest) = (onLoopC f rest).map (above ++ ·) := by
  induction above with
  | nil => simp
  | cons x above ih =>
    obtain ⟨here, others⟩ := List.forall_mem_cons.mp branches
    simp [onLoopC, here, ih others, Function.comp_def]

theorem onLoopC_cons (f : Mask → Mask) {e : MaskEntry} (below : List MaskEntry) (notIf : e.kind ≠ .ifK)
    (notElse : e.kind ≠ .elseK) :
    onLoopC f (e :: below) = if e.kind = .loopC then some ({ e with mask := f e.mask } :: below) else none := by
  simp [onLoopC, notIf, notElse]

theorem Team.leaveLoop_ok {t : Team} {above below : List MaskEntry} {e : MaskEntry} (p : Mask) (cont : Bool)
    (entry : LoopEntry t above e below) (loop : e.kind = .loopC) :
    t.leaveLoop p cont = .ok { t with
      stack := above ++ { e with mask := if cont then e.mask ||| p else e.mask } :: below
      act := t.act &&& ~~~p } := by
  obtain ⟨stack, branches, notIf, notElse⟩ := entry
  simp [Team.leaveLoop, stack, onLoopC_append _ above _ branches, onLoopC_cons _ below notIf notElse, loop]

/-- BREAK leaves the mask stack as it is. -/
theorem Team.leaveLoop_break {t : Team} {above below : List MaskEntry} {e : MaskEntry} (p : Mask)
    (entry : LoopEntry t above e below) (loop : e.kind = .loopC) :
    t.leaveLoop p false = .ok { t with act := t.act &&& ~~~p } := by
  have ok := Team.leaveLoop_ok p false entry loop
  obtain ⟨stack, -⟩ := entry
  simpa [← stack] using ok

/-- BREAK and CONT find no loop to leave: only IF and ELSE entries, or an entry of another kind above it. -/
theorem Team.leaveLoop_mismatch {t : Team} (p : Mask) (cont : Bool)
    (h : (∀ e ∈ t.stack, e.kind = .ifK ∨ e.kind = .elseK) ∨
      ∃ above e below, LoopEntry t above e below ∧ e.kind ≠ .loopC) :
    t.leaveLoop p cont = .error .maskStackMismatch := by
  have noLoop : onLoopC (fun m => if cont then m ||| p else m) t.stack = none := by
    rcases h with branches | ⟨above, e, below, ⟨stack, branches, notIf, notElse⟩, other⟩
    · simpa [onLoopC] using onLoopC_append (fun m => if cont then m ||| p else m) t.stack [] branches
    · rw [stack, onLoopC_append _ above _ branches, onLoopC_cons _ below notIf notElse, if_neg other, Option.map_none]
  rw [Team.leaveLoop, noLoop]

theorem Team.endLoop_again {t : Team} (q : BitVec 2) {m : Mask} {r : List MaskEntry}
    (top : t.stack = { kind := .loopC, mask := m } :: r) (left : (t.act ||| m) &&& ~~~t.exited ≠ 0) :
    t.endLoop q = .ok ({ t with
      stack := { kind := .loopC, mask := 0 } :: r
      act := (t.act ||| m) &&& ~~~t.exited }.writeQ q.toNat true) := by
  simp only [Team.endLoop, top, bne_iff_ne, if_pos left]

theorem Team.endLoop_over {t : Team} (q : BitVec 2) {m : Mask} {x : MaskEntry} {r : List MaskEntry}
    (top : t.stack = { kind := .loopC, mask := m } :: x :: r) (out : (t.act ||| m) &&& ~~~t.exited = 0) :
    t.endLoop q = .ok ({ t with stack := r, act := x.mask &&& ~~~t.exited }.writeQ q.toNat false) := by
  simp only [Team.endLoop, top, bne_iff_ne, if_neg (not_not_intro out)]
  rfl

theorem Team.endLoop_mismatch {t : Team} (q : BitVec 2) (h : ∀ m r, t.stack ≠ { kind := .loopC, mask := m } :: r) :
    t.endLoop q = .error .maskStackMismatch := by
  unfold Team.endLoop
  split
  · next m r top => exact absurd top (h m r)
  · rfl

theorem Team.endSerial_again {t : Team} (q : BitVec 2) {m : Mask} {r : List MaskEntry}
    (top : t.stack = { kind := .serialR, mask := m } :: r) (left : m &&& ~~~t.exited ≠ 0) :
    t.endSerial q = .ok ({ t with
      stack := { kind := .serialR, mask := m &&& ~~~t.exited &&& ~~~Mask.lowest (m &&& ~~~t.exited) } :: r
      act := Mask.lowest (m &&& ~~~t.exited) }.writeQ q.toNat true) := by
  simp only [Team.endSerial, top, bne_iff_ne, if_pos left]

theorem Team.endSerial_over {t : Team} (q : BitVec 2) {m : Mask} {x : MaskEntry} {r : List MaskEntry}
    (top : t.stack = { kind := .serialR, mask := m } :: x :: r) (out : m &&& ~~~t.exited = 0) :
    t.endSerial q = .ok ({ t with stack := r, act := x.mask &&& ~~~t.exited }.writeQ q.toNat false) := by
  simp only [Team.endSerial, top, bne_iff_ne, if_neg (not_not_intro out)]
  rfl

theorem Team.endSerial_mismatch {t : Team} (q : BitVec 2) (h : ∀ m r, t.stack ≠ { kind := .serialR, mask := m } :: r) :
    t.endSerial q = .error .maskStackMismatch := by
  unfold Team.endSerial
  split
  · next m r top => exact absurd top (h m r)
  · rfl

/-- The lowest lane of a mask: a lane is kept when it is in the mask and none below it is. -/
theorem Mask.getLsbD_lowest (m : Mask) {k : Nat} (hk : k < 1024) :
    (Mask.lowest m).getLsbD k = (m.getLsbD k && !decide (∃ j < k, m.getLsbD j = true)) := by
  rw [Mask.lowest, BitVec.getLsbD_and, BitVec.getLsbD_neg]
  cases m.getLsbD k <;> simp [hk]

theorem Mask.lowest_zero : Mask.lowest 0 = 0 := BitVec.zero_and

theorem Mask.lowest_eq {m : Mask} {l : Nat} (lane : l < 1024) (mem : m.getLsbD l = true)
    (below : ∀ j, j < l → m.getLsbD j = false) : Mask.lowest m = 1 <<< l := by
  refine BitVec.eq_of_getLsbD_eq fun k hk => ?_
  rw [Mask.getLsbD_lowest m hk, BitVec.natCast_eq_ofNat, BitVec.getLsbD_ofNat, Nat.one_shiftLeft,
    Nat.testBit_two_pow]
  rcases Nat.lt_trichotomy k l with low | rfl | high
  · simp [below k low, Nat.ne_of_gt low]
  · simpa [mem, hk] using below
  · have lower : ∃ j < k, m.getLsbD j = true := ⟨l, high, mem⟩
    simp [lower, Nat.ne_of_lt high]

/-- Settles O9: each instruction is its function on the team, whose equations stand above, reaching issue. -/
theorem divergenceCompletes : Obligations.DivergenceCompletes :=
  ⟨fun _ _ _ _ h room => issueMask_ok h (Team.pushIf_ok _ room),
   fun _ _ _ _ h room => issueMask_ok h (Team.pushIf_ok _ room),
   fun _ _ _ _ h full => issueMask_error h (Team.pushIf_full _ full),
   fun _ _ _ _ h full => issueMask_error h (Team.pushIf_full _ full),
   fun _ _ _ _ _ h top => issueMask_ok h (by simp only [Team.elseSwap, top]),
   fun _ _ _ h other => issueMask_error h (Team.elseSwap_mismatch other),
   fun _ _ _ _ _ h ⟨top, kind⟩ => issueMask_ok h (Team.popIf_ok top kind),
   fun _ _ _ h other => issueMask_error h (Team.popIf_mismatch other),
   fun _ _ _ h room => issueMask_ok h (Team.pushLoop_ok room),
   fun _ _ _ h full => issueMask_error h (Team.pushLoop_full full),
   fun _ _ _ _ _ _ _ h ⟨entry, loop⟩ => issueMask_ok h (Team.leaveLoop_break _ entry loop),
   fun _ _ _ _ _ _ _ h ⟨entry, loop⟩ => issueMask_ok h (Team.leaveLoop_ok _ true entry loop),
   fun _ => ⟨fun _ _ _ h other => issueMask_error h (Team.leaveLoop_mismatch _ false other),
     fun _ _ _ h other => issueMask_error h (Team.leaveLoop_mismatch _ true other)⟩,
   fun q _ _ _ _ _ h ⟨top, left⟩ => issueMask_ok h (Team.endLoop_again q top left),
   fun q _ _ _ _ _ _ h ⟨top, out⟩ => issueMask_ok h (Team.endLoop_over q top out),
   fun q _ _ _ h other => issueMask_error h (Team.endLoop_mismatch q other),
   fun _ _ _ h room => issueMask_ok h (Team.pushSerial_ok room),
   fun _ _ _ h full => issueMask_error h (Team.pushSerial_full full),
   fun q _ _ _ _ _ h ⟨top, left⟩ => issueMask_ok h (Team.endSerial_again q top left),
   fun q _ _ _ _ _ _ h ⟨top, out⟩ => issueMask_ok h (Team.endSerial_over q top out),
   fun q _ _ _ h other => issueMask_error h (Team.endSerial_mismatch q other),
   Mask.lowest_zero,
   fun _ _ lane mem below => Mask.lowest_eq lane mem below⟩

/-! ### Leaving, trapping and waiting (R86, R94, R95) -/

/-- Settles O10: none of these checks more than that it issues, and each decides its effect by one condition. -/
theorem leavingTrappingAndWaitingComplete : Obligations.LeavingTrappingAndWaitingComplete := by
  refine ⟨fun s t c h => issueF1_next h, fun n s t c h count => ?yield, fun s t c h => ?yieldZero,
    fun p s t c h => issueF1_next h, fun q neg cnd code s t c h cond => ?trap, fun q neg code s t c h cond => ?noTrap,
    fun code s t c h dbg => ?bkpt, fun code s t c h dbg => ?noBkpt, fun s t c h quiet => ?icsync⟩
  case yield =>
    change execYieldP n s = _
    rw [execYieldP, issue_free h, if_neg fun zero => count (beq_iff_eq.mp zero)]
  case yieldZero =>
    change execYieldP 0 s = _
    rw [execYieldP, issue_free h]
    rfl
  case trap =>
    change execTrapU q neg cnd code s = _
    rw [execTrapU, issue_free h, if_pos]
    rcases cond with always | differs
    · simp [Team.condition, always]
    · simp [Team.condition, differs]
  case noTrap =>
    change execTrapU q neg true code s = _
    rw [execTrapU, issue_free h, if_neg]
    simp [Team.condition, cond]
  case bkpt =>
    change execBkpt code s = _
    rw [execBkpt, issue_free h, if_pos dbg]
  case noBkpt =>
    change execBkpt code s = _
    rw [execBkpt, issue_free h, if_neg (by simp [dbg])]
  case icsync =>
    change execIcsync s = _
    rw [execIcsync, issue_free h]
    simp [quiet]

end Sys2Proof.Machine
end

section
/-! Translations that arrive, traps that are due, parking and re-issue, fault records and the watchdog: what each of
these events answers, by the branch of it that applies. -/

namespace Sys2Proof.Machine

/-! ### Translation results (R263, R265) -/

/-- An answer that the entry keeps is noted in it, and the clause ends where that was all it waited for. -/
theorem execTranslationResult_noted {s : State} {t k : Nat} {tm : Team} {e : Outst} {g : Nat} {hit : Bool}
    (entry : s.translating? t k = some (tm, e)) (world : s.switching = true → tm.holdsUp e = true)
    (order : Instr.readsAhead e.instr = true → tm.inOrder e = true) (asks : s.unanswered? tm e = some g)
    (noted : let x := s.askGranule tm e (s.neededMode tm e g fun m => s.askGranule tm e m hit g) hit g
      x.isMapped = true ∨ x = .missing ∨ x = .denied ∨ x = .world) :
    let x := s.askGranule tm e (s.neededMode tm e g fun m => s.askGranule tm e m hit g) hit g
    let s1 := if s.hitsGranule tm e g = true then s else s.fillAfter (s.ctx tm.ctx) hit g
    execTranslationResult t k hit s = .next (s1.putTeam (({ tm with
      outst := replaceIf tm.outst (·.seq == k) fun e => { e with outs := e.outs ++ [(g, x)] } } : Team).closeClause
        Outst.checked s.clk)) := by
  have ready : ((s.switching && !tm.holdsUp e) || (Instr.readsAhead e.instr && !tm.inOrder e)) = false := by
    simpa using ⟨world, order⟩
  revert noted
  simp only [execTranslationResult, entry, ready, asks, Bool.false_eq_true, if_false]
  cases s.askGranule tm e (s.neededMode tm e g fun m => s.askGranule tm e m hit g) hit g with
  | walkError | awaitAts _ => simp [Xlat.isMapped]
  | _ => exact fun _ => rfl

/-! ### Traps that are due (R97 to R100) -/

/-- A team that may take a trap: its context goes on, and nothing of an earlier clause is outstanding. -/
structure MayTrap (s : State) (t : Nat) (tm : Team) : Prop where
  team : s.team? t = some tm
  notEnded : tm.ended = false
  going : s.going tm.ctx = true
  earlier : tm.earlierDone = true

section
variable {s : State} {t : Nat} {tm : Team}

theorem execTrapEntry_earlier (team : s.team? t = some tm) (earlier : tm.earlierDone = false) :
    execTrapEntry t s = .next s := by
  simp [execTrapEntry, team, earlier]

theorem execTrapEntry_settled {c : Clause} (may : MayTrap s t tm) (park : tm.park = none) (clause : tm.clause = some c)
    (port : tm.port.isSome = true) (settled : s.settled tm = true) :
    execTrapEntry t s = .next (s.settledTrap tm c) := by
  have inside : tm.atBoundary = false := by simpa [Team.atBoundary, clause] using port
  simp [execTrapEntry, may.team, may.notEnded, may.going, may.earlier, park, inside, clause, settled]

theorem execTrapEntry_late {tr : Trap} (may : MayTrap s t tm) (park : tm.park = none) (boundary : tm.atBoundary = true)
    (late : tm.lateDue = some tr) :
    execTrapEntry t s = .next (s.enterTrap { tm with late := tm.late.tail } tr
      { tm.boundaryResume with idx := 0, rk := 2, cmask := 0 }) := by
  simp [execTrapEntry, may.team, may.notEnded, may.going, may.earlier, park, boundary, late]

theorem execTrapEntry_fetch {tr : Trap} {p : Nat} (may : MayTrap s t tm) (park : tm.park = none)
    (clause : tm.clause = none) (late : tm.lateDue = none) (pending : tm.pending = some (tr, p)) :
    execTrapEntry t s = .next (s.enterTrap tm tr tm.fetchResume) := by
  have boundary : tm.atBoundary = true := by simp [Team.atBoundary, clause]
  simp [execTrapEntry, may.team, may.notEnded, may.going, may.earlier, park, boundary, late, clause, pending]

/-- At a boundary without a late error or a trap of a fetch, WATCHDOG goes before PREEMPT. -/
theorem execTrapEntry_boundary (may : MayTrap s t tm) (park : tm.park = none) (boundary : tm.atBoundary = true)
    (late : tm.lateDue = none) (noFetch : tm.clause = none → tm.pending = none) :
    execTrapEntry t s = .next (
      if tm.wdogDue then s.enterDue tm true tm.boundaryResume
      else if tm.preempt && !tm.hnd && !tm.restored then s.enterDue tm false tm.boundaryResume
      else s) := by
  have fetch : (if tm.clause.isNone then tm.pending else none) = none := by
    cases clause : tm.clause with
    | none => simp [noFetch clause]
    | some c => rfl
  simp only [execTrapEntry, may.team, may.notEnded, may.going, may.earlier, park, boundary, late, fetch, Bool.not_true,
    Bool.or_false, Bool.false_eq_true, if_false, if_true, apply_ite Host.Outcome.next]

theorem execTrapEntry_parked {p : Park} (may : MayTrap s t tm) (park : tm.park = some p) (failed : p.failed = none) :
    execTrapEntry t s = .next (if tm.preempt && !tm.hnd && !tm.restored then s.enterDue tm false p.resume else s) := by
  simp [execTrapEntry, may.team, may.notEnded, may.going, may.earlier, park, failed]

theorem execTrapEntry_failed {p : Park} {va lanes : DWord} (may : MayTrap s t tm) (park : tm.park = some p)
    (failed : p.failed = some (va, lanes)) :
    execTrapEntry t s =
      .next (s.enterTrap tm { code := .protection, addr := va, lanes := lanes } p.resume) := by
  simp [execTrapEntry, may.team, may.notEnded, may.going, may.earlier, park, failed]

/-- A settled team takes the trap of its deciding instruction, where that is outstanding and met one. -/
theorem State.settledTrap_outstanding {c : Clause} {e : Outst} {tr : Trap}
    (found : (s.dead tm).find? (·.pos == s.lowest tm) = some e) (trap : s.outcome tm e = .trap tr) :
    s.settledTrap tm c = s.drawn.enterTrap (s.partialLoads tm) tr (tm.trapResume c (s.lowest tm) tr.code) := by
  simp [State.settledTrap, found, trap]

/-- Where the deciding instruction is none of those outstanding, the team takes the trap met at issue. -/
theorem State.settledTrap_pending {c : Clause} {tr : Trap} {p : Nat}
    (found : (s.dead tm).find? (·.pos == s.lowest tm) = none) (pending : tm.pending = some (tr, p)) :
    s.settledTrap tm c = s.drawn.enterTrap (s.partialLoads tm) tr (tm.trapResume c p tr.code) := by
  simp [State.settledTrap, found, pending]

/-- A WATCHDOG that is due faults the context of a team in a handler; another team takes it. -/
theorem State.enterDue_watchdog (r : Resume) :
    s.enterDue tm true r =
      if tm.hnd = true then s.contextFault tm.ctx (coreDie tm.core) 2 0x16#8 0
      else s.enterTrap { tm with wdogDue := false, wdog := 0 } { code := .watchdog } r := rfl

/-! ### Parking and re-issue (R268, R269) -/

theorem execTeamPark_parks {c : Clause} {e : Outst} {gs each : List (Nat × DWord)} {lanes : DWord}
    (team : s.team? t = some tm) (notEnded : tm.ended = false) (going : s.going tm.ctx = true) (park : tm.park = none)
    (clause : tm.clause = some c) (settled : s.settled tm = true)
    (found : (s.dead tm).find? (·.pos == s.lowest tm) = some e) (missing : s.outcome tm e = .park gs lanes each) :
    execTeamPark t s = .next (s.drawn.parkAt (s.partialLoads tm) (tm.resumeAt c (s.lowest tm) 0 tm.pc) gs
      (Instr.memWrites e.instr) lanes each) := by
  simp [execTeamPark, team, notEnded, going, park, clause, settled, found, missing]

theorem execParkedReissue_reissues {p : Park} (team : s.team? t = some tm) (park : tm.park = some p)
    (cleared : p.missing = []) (failed : p.failed = none) (going : s.going tm.ctx = true) :
    execParkedReissue t s = .next (s.setTeam { tm with
      park := none, pc := p.resume.epc, via := none
      resume := if p.fetch then none else some { p.resume with inside := true } }) := by
  simp [execParkedReissue, team, park, cleared, failed, going]

/-! ### Fault records (R270, R278) and the watchdog (R298) -/

/-- A ring that has room takes the oldest record that waits for it, and then its producer index. -/
theorem State.writeRecord_oldest {f : FaultRing} {r : List Word} {rest : List (List Word)}
    (records : f.records = r :: rest)
    (room : (f.prod + 2 ^ 64 - s.ringRead f.host (f.base + 8) 8) % 2 ^ 64 ≠ 2 ^ f.len)
    (good : f.host = false → s.physBad (f.base + 8) 8 = false) :
    s.writeRecord f = some
      (((if f.host then s else s.countNoMemory (f.base + 8)).ringWrite f.host (f.base + 64 + 32 * (f.prod % 2 ^ f.len))
          (r.flatMap fun w => leBytes 4 w.toNat)).ringWrite f.host f.base (leBytes 8 ((f.prod + 1) % 2 ^ 64)),
        { f with records := rest, prod := (f.prod + 1) % 2 ^ 64 }) := by
  have takes : ((f.prod + 2 ^ 64 - s.ringRead f.host (f.base + 8) 8) % 2 ^ 64 == 2 ^ f.len ||
      (!f.host && s.physBad (f.base + 8) 8)) = false := by
    simp only [Bool.or_eq_false_iff, beq_eq_false_iff_ne, Bool.and_eq_false_imp, Bool.not_eq_true']
    exact ⟨room, good⟩
  simp only [State.writeRecord, records, takes, Bool.false_eq_true, if_false]

theorem execFaultRecordWrite_current {ctx : Nat} {s1 : State} {f : FaultRing} (on : s.stopped = false)
    (backlog : (s.ctx ctx).backlog = []) (written : s.writeRecord (s.ctx ctx).ring = some (s1, f)) :
    execFaultRecordWrite ctx s =
      .next ((s1.onCtx ctx fun k => { k with records := f.records, fprod := f.prod }).contextIrq ctx) := by
  simp [execFaultRecordWrite, on, backlog, State.writeBacklog, written]

theorem execWatchdogExpiry_due (team : s.team? t = some tm) (on : s.stopped = false) (notEnded : tm.ended = false)
    (park : tm.park = none) (limit : (s.ctx tm.ctx).wdl ≠ 0) (reached : 2 ^ (s.ctx tm.ctx).wdl ≤ tm.wdog)
    (fresh : tm.wdogDue = false) :
    execWatchdogExpiry t s = .next (
      if tm.hnd = true ∨ (s.ctx tm.ctx).wdh = false then s.contextFault tm.ctx (coreDie tm.core) 2 0x16#8 0
      else s.setTeam { tm with wdogDue := true }) := by
  simp [execWatchdogExpiry, team, on, notEnded, park, fresh, limit, Nat.not_lt.mpr reached,
    apply_ite Host.Outcome.next, TrapCode.code]

end

/-- Settles O27: each clause is the branch of its event that the hypotheses single out; at a boundary the order of
`execTrapEntry_boundary` leaves WATCHDOG before PREEMPT. -/
theorem trapsParkingAndRecordsComplete : Obligations.TrapsParkingAndRecordsComplete := by
  refine ⟨fun s t k tm e g hit entry world order asks => execTranslationResult_noted entry world order asks,
    fun s t tm team earlier => execTrapEntry_earlier team earlier,
    fun s t tm c e tr team ended going earlier park clause port settled found trap => ?outstanding,
    fun s t tm c tr p team ended going earlier park clause port settled found pending => ?pending,
    fun s t tm tr team ended going earlier park boundary late =>
      execTrapEntry_late ⟨team, ended, going, earlier⟩ park boundary late,
    fun s t tm tr p team ended going earlier park clause late pending =>
      execTrapEntry_fetch ⟨team, ended, going, earlier⟩ park clause late pending,
    fun s t tm team ended going earlier park boundary late noFetch due => ?watchdog,
    fun s t tm team ended going earlier park boundary late noFetch due preempt outside fresh => ?preempt,
    fun s t tm p va lanes team ended going earlier park failed =>
      execTrapEntry_failed ⟨team, ended, going, earlier⟩ park failed,
    fun s t tm p team ended going earlier park failed preempt outside fresh => ?parked,
    fun s t tm c e gs lanes each team ended going park clause settled found missing =>
      execTeamPark_parks team ended going park clause settled found missing,
    fun s t tm p team park cleared failed going => execParkedReissue_reissues team park cleared failed going,
    fun s ctx r rest on backlog records room good =>
      execFaultRecordWrite_current on backlog (State.writeRecord_oldest records room good),
    fun s t tm team on ended park limit reached fresh =>
      execWatchdogExpiry_due team on ended park limit reached fresh⟩
  case outstanding =>
    exact (execTrapEntry_settled ⟨team, ended, going, earlier⟩ park clause port settled).trans
      (congrArg _ (State.settledTrap_outstanding found trap))
  case pending =>
    exact (execTrapEntry_settled ⟨team, ended, going, earlier⟩ park clause port settled).trans
      (congrArg _ (State.settledTrap_pending found pending))
  case watchdog =>
    refine (execTrapEntry_boundary ⟨team, ended, going, earlier⟩ park boundary late noFetch).trans ?_
    rw [if_pos due, State.enterDue_watchdog]
  case preempt =>
    refine (execTrapEntry_boundary ⟨team, ended, going, earlier⟩ park boundary late noFetch).trans ?_
    simp [due, preempt, outside, fresh, State.enterDue]
  case parked =>
    refine (execTrapEntry_parked ⟨team, ended, going, earlier⟩ park failed).trans ?_
    simp [preempt, outside, fresh, State.enterDue]

end Sys2Proof.Machine
end

section
/-! Class 0: what an instruction that issues answers, by the operation that it shares with others, and what one answers
whose encoding is refused. -/

namespace Sys2Proof.Machine

/-! ### What an instruction that issues answers, by shape (R101) -/

section
variable {i : Instr} {o : F1}

/-- A change of its team alone goes on with it. -/
theorem Yields.of_issueF1 {f : Team → Team} (he : ∀ s, exec i s = issueF1 i s f) : Yields i f :=
  fun s _ _ h => (he s).trans (issueF1_next h)

theorem Yields.of_aluInt {op : Ty → Int → Int → Int → Int} (he : ∀ s, exec i s = aluInt i o op s) :
    Yields i (intResult o .s32 op) := .of_issueF1 he

theorem Yields.of_aluBits {dflt : Ty} {b32 : Bool} {f : Ty → Nat → Nat → Nat → Nat}
    (he : ∀ s, exec i s = aluBits i o dflt b32 f s) : Yields i (bitResult o dflt b32 f) := .of_issueF1 he

theorem Yields.of_aluCarry {sub : Bool} (he : ∀ s, exec i s = aluCarry i o sub s) : Yields i (carryResult o sub) :=
  .of_issueF1 he

theorem Yields.of_aluCount {f : Nat → Nat → Nat} (he : ∀ s, exec i s = aluCount i o f s) :
    Yields i fun t => t.put o.d false fun l =>
      f (o.ext .b32).ty.bits (t.num (o.ext .b32).ty.is64 false false l o.a) := .of_issueF1 he

theorem Yields.of_fpOp {f : X1 → Nat → Nat → Nat → Word → Nat × Flags} (he : ∀ s, exec i s = fpOp i o f s) :
    Yields i (fpResult o f) := .of_issueF1 he

theorem Yields.of_fpHalf {f : Fmt → RM → Word → FVal → FVal → FVal → Nat × Flags}
    (he : ∀ s, exec i s = fpHalf i o f s) : Yields i (halfResult o f) := .of_issueF1 he

theorem Yields.of_fpDot {dflt : Ty} {n : Nat} (he : ∀ s, exec i s = fpDot i o dflt n s) :
    Yields i (dotResult o dflt n) := .of_issueF1 he

theorem Yields.of_predOp {f : Bool → Bool → Bool} (he : ∀ s, exec i s = predOp i o f s) : Yields i (predResult o f) :=
  .of_issueF1 he

end

/-- Settles O1: each opcode is the operation it shares, and IMAD the wide or the narrow one by its FN. -/
theorem movesAndIntegerArithmeticComplete : Obligations.MovesAndIntegerArithmeticComplete :=
  ⟨fun _ => .of_issueF1 fun _ => rfl, fun _ => .of_issueF1 fun _ => rfl, fun _ => .of_issueF1 fun _ => rfl,
    fun _ => .of_aluInt fun _ => rfl, fun _ => .of_aluInt fun _ => rfl, fun _ => .of_aluInt fun _ => rfl,
    fun _ => .of_aluInt fun _ => rfl, fun _ narrow => .of_aluInt fun _ => if_neg (by simpa using narrow),
    fun _ wide => .of_issueF1 fun _ => if_pos (by simpa using wide), fun _ => .of_aluInt fun _ => rfl,
    fun _ => .of_aluInt fun _ => rfl, fun _ => .of_aluInt fun _ => rfl, fun _ => .of_aluInt fun _ => rfl⟩

/-- Settles O2: IADC and ISBC are the carry chain, and each of the others writes its destination. -/
theorem carryAddressAndCompareComplete : Obligations.CarryAddressAndCompareComplete :=
  ⟨fun _ => .of_aluCarry fun _ => rfl, fun _ => .of_aluCarry fun _ => rfl, fun _ => .of_issueF1 fun _ => rfl,
    fun _ => .of_issueF1 fun _ => rfl, fun _ => .of_issueF1 fun _ => rfl⟩

/-- Settles O3: each is an operation on bits, and POPC and CLZ count them. -/
theorem logicShiftsAndFieldsComplete : Obligations.LogicShiftsAndFieldsComplete :=
  ⟨fun _ => .of_aluBits fun _ => rfl, fun _ => .of_aluBits fun _ => rfl, fun _ => .of_aluBits fun _ => rfl,
    fun _ => .of_aluBits fun _ => rfl, fun _ => .of_aluBits fun _ => rfl, fun _ => .of_aluBits fun _ => rfl,
    fun _ => .of_aluBits fun _ => rfl, fun _ => .of_aluBits fun _ => rfl, fun _ => .of_aluBits fun _ => rfl,
    fun _ => .of_aluBits fun _ => rfl, fun _ => .of_aluBits fun _ => rfl, fun _ => .of_aluBits fun _ => rfl,
    fun _ => .of_aluCount fun _ => rfl, fun _ => .of_aluCount fun _ => rfl⟩

/-- Settles O4: each is an FP32 operation on its inputs; FSCALE has an integer B, and FCLASS raises no flag. -/
theorem floatingPointCompletes : Obligations.FloatingPointCompletes :=
  ⟨fun _ => .of_fpOp fun _ => rfl, fun _ => .of_fpOp fun _ => rfl, fun _ => .of_fpOp fun _ => rfl,
    fun _ => .of_fpOp fun _ => rfl, fun _ => .of_fpOp fun _ => rfl, fun _ => .of_fpOp fun _ => rfl,
    fun _ => .of_fpOp fun _ => rfl, fun _ => .of_fpOp fun _ => rfl, fun _ => .of_fpOp fun _ => rfl,
    fun _ => .of_fpOp fun _ => rfl, fun _ => .of_fpOp fun _ => rfl, fun _ => .of_fpOp fun _ => rfl,
    fun _ => .of_issueF1 fun _ => rfl, fun _ => .of_fpOp fun _ => rfl, fun _ => .of_issueF1 fun _ => rfl,
    fun _ => .of_fpOp fun _ => rfl⟩

/-- Settles O5: conversions write their destination with its flags, and the others are operations they share. -/
theorem conversionsPackedAndPredicatesComplete : Obligations.ConversionsPackedAndPredicatesComplete :=
  ⟨fun _ => .of_issueF1 fun _ => rfl, fun _ => .of_issueF1 fun _ => rfl, fun _ => .of_issueF1 fun _ => rfl,
    fun _ => .of_fpHalf fun _ => rfl, fun _ => .of_fpHalf fun _ => rfl, fun _ => .of_fpHalf fun _ => rfl,
    fun _ => .of_fpDot fun _ => rfl, fun _ => .of_fpDot fun _ => rfl, fun _ => .of_predOp fun _ => rfl,
    fun _ => .of_predOp fun _ => rfl, fun _ => .of_predOp fun _ => rfl, fun _ => .of_predOp fun _ => rfl,
    fun _ => .of_predOp fun _ => rfl⟩

end Sys2Proof.Machine
end

section
/-! Reading the destination of a class 0 instruction after its write, what an encoding that no check refuses says of an
instruction's operands, and what one answers whose encoding is refused. -/

namespace Sys2Proof.Machine

/-! ### Sources -/

@[simp] theorem Team.cond_p (t : Team) (l : Nat) (n : BitVec 3) : t.cond l (.p n) = (t.readP n.toNat).getLsbD l := by
  simp [Team.cond, Team.word]

@[simp] theorem Team.cond_q (t : Team) (l : Nat) (n : BitVec 2) : t.cond l (.q n) = t.readQ n.toNat := by
  simp [Team.cond, Team.word]

/-- Types of 32 bits or more fill the registers they take. -/
theorem Ty.bits_eq {ty : Ty} (full : 32 ≤ ty.bits) : ty.bits = if ty.is64 then 64 else 32 := by
  cases ty <;> simp_all [Ty.bits, Ty.is64]

theorem Team.num_lt (t : Team) (w64 sx flt : Bool) (l : Nat) (x : Operand) :
    t.num w64 sx flt l x < 2 ^ (if w64 then 64 else 32) := by
  cases w64
  · exact (t.word flt l x).isLt
  · exact (t.dword sx l x).isLt

/-- In the scalar form a source has one value for all lanes (R26). -/
theorem Team.num_of_srcOk {x : Operand} {w : Bool} (ok : x.srcOk w true = true) (t : Team) (w64 sx flt : Bool)
    (l l' : Nat) : t.num w64 sx flt l x = t.num w64 sx flt l' x := by
  cases x with
  | v _ | p _ | q _ | lane | group | owner => simp [Operand.srcOk] at ok
  | _ => rfl

/-- In the scalar form a condition is a Q code. -/
theorem Team.cond_of_condOk {x : Operand} (ok : x.condOk true = true) (t : Team) (l l' : Nat) :
    t.cond l x = t.cond l' x := by
  cases x with
  | q _ => rfl
  | _ => simp [Operand.condOk] at ok

/-! ### Destinations after the write (R26, R101) -/

theorem Word.pair_ofNat (v : Nat) : Word.pair (BitVec.ofNat 32 (v >>> 32)) (BitVec.ofNat 32 v) = BitVec.ofNat 64 v := by
  refine BitVec.eq_of_getLsbD_eq fun i hi => ?_
  simp only [Word.pair, BitVec.getLsbD_append, BitVec.getLsbD_ofNat, Nat.testBit_shiftRight]
  by_cases low : i < 32
  · simp [low, hi]
  · have high : i - 32 < 32 := by omega
    simp [low, hi, high, Nat.add_sub_of_le (Nat.le_of_not_lt low)]

theorem DWord.pair_hi_lo (d : DWord) : Word.pair d.hi d.lo = d := by
  refine BitVec.eq_of_getLsbD_eq fun i hi => ?_
  rw [Word.pair, BitVec.getLsbD_append]
  by_cases low : i < 32
  · simp [DWord.lo, low]
  · simp [DWord.hi, BitVec.getLsbD_extractLsb', low, Nat.add_sub_of_le (Nat.le_of_not_lt low)]
    omega

section
variable (t : Team) (f : Nat → Nat)

theorem Team.readV_put {l : Nat} (hl : l < t.n) (active : t.act.getLsbD l = true) (n : BitVec 7) (w64 : Bool) :
    (t.put (.v n) w64 f).readV n.toNat l = BitVec.ofNat 32 (f l) := by
  cases w64 with
  | false => simp [Team.put, Team.readV_writeV _ _ _ _ _ _ hl, active]
  | true =>
    rw [Team.put, if_pos rfl, Team.readV_writeV_of_ne _ _ _ _ (by omega), Team.readV_writeV _ _ _ _ _ _ hl, if_pos rfl,
      if_pos active]

theorem Team.readV_put_high {l : Nat} (hl : l < t.n) (active : t.act.getLsbD l = true) (n : BitVec 7) :
    (t.put (.v n) true f).readV (n.toNat + 1) l = BitVec.ofNat 32 (f l >>> 32) := by
  rw [Team.put, if_pos rfl, Team.readV_writeV _ _ _ _ _ _ (by exact hl), if_pos rfl, if_pos active]

theorem Team.readS_put (n : BitVec 6) : (t.put (.s n) false f).readS n.toNat = BitVec.ofNat 32 (f 0) := by
  simp [Team.put, Team.readS_writeS]

theorem Team.readSS_put (n : BitVec 6) : (t.put (.s n) true f).readSS n.toNat = BitVec.ofNat 64 (f 0) := by
  rw [Team.put, if_pos rfl, Team.readSS, Team.readS_writeSS, Team.readS_writeSS, if_pos rfl,
    if_neg (Nat.ne_of_lt (Nat.lt_succ_self _)), if_pos rfl, DWord.pair_hi_lo]

theorem Team.readP_put {l : Nat} (lane : l < 1024) (hl : l < t.n) (active : t.act.getLsbD l = true) {n : BitVec 3}
    (seven : n ≠ 7) (w64 : Bool) : ((t.put (.p n) w64 f).readP n.toNat).getLsbD l = (f l).testBit 0 := by
  rw [Team.put, Team.readP_writeP _ _ _ _ fun h => seven (BitVec.eq_of_toNat_eq h), if_pos rfl]
  simp only [BitVec.getLsbD_or, BitVec.getLsbD_and, BitVec.getLsbD_not, getLsbD_maskOf, lane, hl, active]
  simp

theorem Team.readQ_put (n : BitVec 2) (w64 : Bool) : (t.put (.q n) w64 f).readQ n.toNat = (f 0).testBit 0 := by
  rw [Team.put, Team.readQ_writeQ, if_pos rfl, decide_eq_true n.isLt, Bool.and_true]

theorem Team.readK_put (n : BitVec 4) (w64 : Bool) :
    (t.put (.k n) w64 f).readK n.toNat = BitVec.ofNat 16 (f 0) := by
  rw [Team.put, Team.readK_writeK, if_pos rfl]

end

/-- A V or S destination reads as what was written, where it is written. -/
theorem Team.num_put {t : Team} {o : F1} {l : Nat} {w64 : Bool} {f : Nat → Nat} (writes : Writes t o l)
    (dest : o.d.isV = true ∨ o.d.isS = true) (fits : ∀ l, f l < 2 ^ (if w64 then 64 else 32))
    (once : o.scalar = true → f 0 = f l) (sx flt : Bool) : (t.put o.d w64 f).num w64 sx flt l o.d = f l := by
  obtain ⟨hl, active⟩ := writes
  rw [F1.scalar] at active once
  generalize o.d = d at *
  cases d with
  | v n =>
    have active := active.resolve_right Bool.false_ne_true
    cases w64 with
    | false =>
      exact (congrArg BitVec.toNat (Team.readV_put t f hl active n false)).trans (Nat.mod_eq_of_lt (fits l))
    | true =>
      simp only [Team.num, Team.dword, Team.readV_put t f hl active, Team.readV_put_high t f hl active, Word.pair_ofNat]
      exact Nat.mod_eq_of_lt (fits l)
  | s n =>
    rw [← once rfl]
    cases w64 with
    | false => exact (congrArg BitVec.toNat (Team.readS_put t f n)).trans (Nat.mod_eq_of_lt (fits 0))
    | true => exact (congrArg BitVec.toNat (Team.readSS_put t f n)).trans (Nat.mod_eq_of_lt (fits 0))
  | _ => simp [Operand.isV, Operand.isS] at dest

/-! ### Encodings that are refused (R7, R75) -/

theorem Refuses.of_issueF1 {i : Instr} {f : Team → Team} (he : ∀ s, exec i s = issueF1 i s f)
    (bad : i.illFormed ≠ none) : Refuses i := by
  intro s t c ⟨here, going, free⟩
  have illegal : t.illegal c i = true := by simp [Team.illegal, Option.isSome_iff_ne_none.mpr bad]
  simp [he, issueF1, issue, here, going, free, illegal]

/-- An instruction that no check refuses has an FN that its row admits. -/
theorem F1Rule.fn_of_check {r : F1Rule} {o : F1} {kinds : List (Bool × IllFormed)} (h : r.check o kinds = none) :
    r.fn (o.ext r.dflt).fn = true :=
  firstFail_eq_none h (r.fn (o.ext r.dflt).fn, .badFn) (by simp)

theorem F1.ext_of_some {o : F1} {x : X1} (h : o.x = some x) (dflt : Ty) : o.ext dflt = x := by simp [F1.ext, h]

/-- The operand checks of a row with A and B of the widths given (R101). -/
theorem kinds3_ok {o : F1} {wd wa wb wc : Bool} {nin : Nat} (h : ∀ x ∈ kinds3 o wd wa wb wc nin, x.1 = true) :
    o.d.dstOk wd = true ∧ (1 ≤ nin → o.a.srcOk wa o.scalar = true) ∧ (2 ≤ nin → o.b.srcOk wb o.scalar = true) := by
  simp only [kinds3, List.forall_mem_cons, Bool.or_eq_true, decide_eq_true_eq] at h
  obtain ⟨dest, a, b, -⟩ := h
  exact ⟨dest, a.resolve_left ∘ Nat.not_lt_of_le, b.resolve_left ∘ Nat.not_lt_of_le⟩

end Sys2Proof.Machine
end

section
/-! The integers of R106 and the operations of R107 and R110 on numbers, as operations on bit vectors of their width. -/

namespace Sys2Proof.Machine

/-! ### Integers of a type (R106) -/

theorem wrap_eq (w : Nat) (v : Int) : wrap w v = (BitVec.ofInt w v).toNat := (BitVec.toNat_ofInt v).symm

theorem testBit_last {w : Nat} (a : BitVec w) : a.toNat.testBit (w - 1) = a.msb := (BitVec.msb_eq_getLsbD_last a).symm

/-- A value of the type's width stands for its number with or without a sign. -/
theorem intOf_toNat (ty : Ty) (a : BitVec ty.bits) :
    intOf ty a.toNat = if ty.isSigned = true then a.toInt else (a.toNat : Int) := by
  simp only [intOf, Nat.mod_eq_of_lt a.isLt, testBit_last, BitVec.toInt_eq_msb_cond]
  cases ty.isSigned <;> simp

/-- In any width it is the value extended by its sign or by zeros. -/
theorem ofInt_intOf (ty : Ty) (a : BitVec ty.bits) (w : Nat) :
    BitVec.ofInt w (intOf ty a.toNat) = if ty.isSigned = true then a.signExtend w else a.setWidth w := by
  rw [intOf_toNat]
  split
  · rfl
  · rw [BitVec.ofInt_natCast, BitVec.ofNat_toNat]

/-- In its own width it is the value. -/
theorem ofInt_intOf_self (ty : Ty) (a : BitVec ty.bits) : BitVec.ofInt ty.bits (intOf ty a.toNat) = a := by
  rw [ofInt_intOf]
  split
  · exact BitVec.signExtend_eq a
  · exact BitVec.setWidth_eq a

/-- The upper half of an integer of twice the width is its quotient (R106). -/
theorem extractLsb'_ofInt (w : Nat) (v : Int) :
    (BitVec.ofInt (w + w) v).extractLsb' w w = BitVec.ofInt w (v / (2 ^ w : Nat)) := by
  have nonzero (k : Nat) : ((2 ^ k : Nat) : Int) ≠ 0 := Int.ne_of_gt (Int.natCast_pos.mpr (Nat.two_pow_pos k))
  have low : (0 : Int) ≤ v % (2 ^ (w + w) : Nat) := Int.emod_nonneg _ (nonzero _)
  have high : v % (2 ^ (w + w) : Nat) / (2 ^ w : Nat) % (2 ^ w : Nat) = v / (2 ^ w : Nat) % (2 ^ w : Nat) := by
    have rest : v % (2 ^ (w + w) : Nat) = v - (2 ^ w : Nat) * ((2 ^ w : Nat) * (v / (2 ^ (w + w) : Nat))) := by
      rw [Int.emod_def, ← Int.mul_assoc, ← Int.natCast_mul, ← Nat.pow_add]
    rw [rest, Int.sub_mul_ediv_left _ _ (nonzero w), Int.sub_mul_emod_self_left]
  refine BitVec.eq_of_toNat_eq ?_
  rw [BitVec.extractLsb'_toNat, BitVec.toNat_ofInt, BitVec.toNat_ofInt, ← high, Nat.shiftRight_eq_div_pow]
  refine Int.natCast_inj.mp ?_
  rw [Int.natCast_emod, Int.natCast_ediv, Int.toNat_of_nonneg low,
    Int.toNat_of_nonneg (Int.emod_nonneg _ (nonzero w))]

/-! ### Integer operations that fill their registers (R106) -/

section
variable {ty : Ty} {x : X1} (full : 32 ≤ ty.bits) (sat : x.sat = false) (na : x.na = false) (nb : x.nb = false)
include full sat na nb

/-- With neither negation nor saturation the operation's result is cut to the width. -/
theorem intLane_eq (op : Int → Int → Int → Int) (a b c : Nat) :
    intLane ty x op a b c = (BitVec.ofInt ty.bits (op (intOf ty a) (intOf ty b) (intOf ty c))).toNat := by
  simp [intLane, intElem, Nat.not_lt.mpr full, sat, na, nb, wrap_eq]

variable (a b : BitVec ty.bits) (c : Nat)

theorem intLane_add : intLane ty x (fun p q _ => p + q) a.toNat b.toNat c = (a + b).toNat := by
  rw [intLane_eq full sat na nb, BitVec.ofInt_add, ofInt_intOf_self, ofInt_intOf_self]

theorem intLane_sub : intLane ty x (fun p q _ => p - q) a.toNat b.toNat c = (a - b).toNat := by
  rw [intLane_eq full sat na nb, Int.sub_eq_add_neg, BitVec.ofInt_add, BitVec.ofInt_neg, ofInt_intOf_self,
    ofInt_intOf_self, BitVec.sub_eq_add_neg]

theorem intLane_mul : intLane ty x (fun p q _ => p * q) a.toNat b.toNat c = (a * b).toNat := by
  rw [intLane_eq full sat na nb, BitVec.ofInt_mul, ofInt_intOf_self, ofInt_intOf_self]

theorem intLane_neg (b : Nat) : intLane ty x (fun p _ _ => -p) a.toNat b c = (-a).toNat := by
  rw [intLane_eq full sat na nb, BitVec.ofInt_neg, ofInt_intOf_self]

theorem intLane_mulh :
    intLane ty x (fun p q _ => p * q / (2 ^ ty.bits : Nat)) a.toNat b.toNat c =
      if ty.isSigned = true then
        ((a.signExtend (ty.bits + ty.bits) * b.signExtend (ty.bits + ty.bits)).extractLsb' ty.bits ty.bits).toNat
      else ((a.setWidth (ty.bits + ty.bits) * b.setWidth (ty.bits + ty.bits)).extractLsb' ty.bits ty.bits).toNat := by
  rw [intLane_eq full sat na nb, ← extractLsb'_ofInt, BitVec.ofInt_mul, ofInt_intOf, ofInt_intOf]
  split <;> rfl

end

/-! ### The carry chain (R107) -/

/-- The sum or difference with a carry-in, before it is cut to the width. -/
def carryTotal (sub : Bool) (a b : Int) (ci : Bool) : Int :=
  if sub = true then a - b - ci.toNat else a + b + ci.toNat

/-- A sum is never below zero, and a difference never reaches the width, so one bound each decides the carry-out. -/
theorem carryStep_eq {w a : Nat} (ha : a < 2 ^ w) (b : Nat) (sub ci : Bool) :
    carryStep sub w a b ci = ((carryTotal sub a b ci % 2 ^ w).toNat,
      if sub = true then decide (carryTotal sub a b ci < 0) else decide ((2 : Int) ^ w ≤ carryTotal sub a b ci)) := by
  have bound : (a : Int) < 2 ^ w := by exact_mod_cast ha
  cases sub with
  | false =>
    have pos : ¬ (a : Int) + b + ci.toNat < 0 := by omega
    simp [carryStep, carryTotal, wrap, pos]
  | true =>
    have below : ¬ (2 : Int) ^ w ≤ (a : Int) - b - ci.toNat := by omega
    simp [carryStep, carryTotal, wrap, below]

/-! ### Logic and shifts (R110) -/

theorem notBits_toNat {w : Nat} (a : BitVec w) : notBits w a.toNat = (~~~a).toNat := by
  rw [notBits, Nat.mod_eq_of_lt a.isLt, BitVec.toNat_not]

theorem shlOf_toNat {w : Nat} (a : BitVec w) (b : Nat) : shlOf w a.toNat b = (a <<< (b % 256)).toNat := by
  rw [shlOf, BitVec.toNat_shiftLeft, Nat.shiftLeft_eq]
  split
  · next out => rw [Nat.mod_eq_zero_of_dvd (Nat.dvd_trans (Nat.pow_dvd_pow 2 out) (Nat.dvd_mul_left ..))]
  · rfl

theorem shrOf_toNat {w : Nat} (a : BitVec w) (b : Nat) : shrOf w a.toNat b = (a >>> (b % 256)).toNat := by
  rw [shrOf, BitVec.toNat_ushiftRight, Nat.shiftRight_eq_div_pow]
  split
  · next out =>
    rw [Nat.div_eq_of_lt (Nat.lt_of_lt_of_le a.isLt (Nat.pow_le_pow_right Nat.two_pos out))]
  · rfl

/-- A quotient by more than the magnitude is the sign. -/
theorem ediv_of_abs_lt {v d : Int} (low : -d ≤ v) (high : v < d) : v / d = if v < 0 then -1 else 0 := by
  split
  · next neg =>
    have parts : v / d = -1 ∧ v % d = v + d :=
      (Int.ediv_emod_unique (by omega)).mpr ⟨by omega, by omega, by omega⟩
    exact parts.1
  · next notNeg => exact Int.ediv_eq_zero_of_lt (by omega) high

/-- Past the width a shift leaves copies of the top bit, as a shift by the width does. -/
theorem toInt_ediv_min {w : Nat} (a : BitVec w) (k : Nat) :
    a.toInt / (2 ^ min k w : Nat) = a.toInt / (2 ^ k : Nat) := by
  by_cases inside : k ≤ w
  · rw [Nat.min_eq_left inside]
  have wide : ((2 ^ w : Nat) : Int) ≤ (2 ^ k : Nat) := by
    exact_mod_cast Nat.pow_le_pow_right Nat.two_pos (Nat.le_of_not_le inside)
  have low : -((2 ^ w : Nat) : Int) ≤ 2 * a.toInt := by exact_mod_cast a.le_two_mul_toInt
  have high : 2 * a.toInt < (2 ^ w : Nat) := by exact_mod_cast a.two_mul_toInt_lt
  rw [Nat.min_eq_right (Nat.le_of_not_le inside), ediv_of_abs_lt (by omega) (by omega),
    ediv_of_abs_lt (by omega) (by omega)]

theorem sarOf_toNat {w : Nat} (a : BitVec w) (b : Nat) : sarOf w a.toNat b = (a.sshiftRight (b % 256)).toNat := by
  have number : (if a.toNat.testBit (w - 1) then (a.toNat : Int) - (2 ^ w : Nat) else a.toNat) = a.toInt := by
    rw [testBit_last, BitVec.toInt_eq_msb_cond]
  rw [sarOf, number, wrap_eq, toInt_ediv_min, BitVec.sshiftRight_eq, Int.shiftRight_eq_div_pow]

/-- The two parts of a rotation have no bit in common. -/
theorem rotOf_toNat {w : Nat} (pos : 0 < w) (a : BitVec w) (b : Nat) :
    rotOf w a.toNat b = (a.rotateLeft (b % 256 % w)).toNat := by
  rw [rotOf, BitVec.toNat_rotateLeft, Nat.mod_mod, Nat.shiftLeft_eq, Nat.shiftRight_eq_div_pow]
  generalize hr : b % 256 % w = r
  have parts : 2 ^ w = 2 ^ r * 2 ^ (w - r) := by
    rw [← Nat.pow_add, Nat.add_sub_of_le (hr ▸ Nat.le_of_lt (Nat.mod_lt _ pos))]
  have fits : a.toNat / 2 ^ (w - r) < 2 ^ r := Nat.div_lt_of_lt_mul (by rw [Nat.mul_comm, ← parts]; exact a.isLt)
  rw [parts, Nat.mod_mul, Nat.mul_comm a.toNat, Nat.mul_add_mod, Nat.mod_eq_of_lt fits,
    Nat.mul_add_div (Nat.two_pow_pos r), Nat.div_eq_of_lt fits, Nat.add_zero, Nat.mul_mod_mul_left, Nat.add_comm,
    Nat.two_pow_add_eq_or_of_lt fits]

end Sys2Proof.Machine
end

section
/-! Moves, the carry chain, LEA and ISET: what an instruction that issues leaves in its destination, and the encodings
that are refused. -/

namespace Sys2Proof.Machine

/-! ### MOV and SEL (R104) -/

theorem isSigned_of_bw {ty : Ty} (h : bw.contains ty = true) : ty.isSigned = false := by
  obtain rfl | rfl : ty = .b32 ∨ ty = .b64 := by simpa [bw] using h
  · rfl
  · rfl

/-- What a SEL that no check refuses has: in the scalar form one value for all lanes, and a P or Q code as C. -/
theorem chkSel_ok {o : F1} (h : chkSel o = none) :
    (o.scalar = true → ∀ (t : Team) (w : Bool) l l', t.num w false false l o.a = t.num w false false l' o.a ∧
      t.num w false false l o.b = t.num w false false l' o.b ∧ t.cond l o.third = t.cond l' o.third) ∧
    ((∃ n, o.third = .p n) ∨ ∃ n, o.third = .q n) := by
  obtain ⟨-, kinds⟩ := F1Rule.check_eq_none h
  obtain ⟨-, a, b⟩ := kinds3_ok fun x hx => kinds x (List.mem_append_left _ hx)
  have c : o.third.condOk o.scalar = true := kinds (_, .badSource) (List.mem_append_right _ (List.mem_singleton_self _))
  refine ⟨fun scalar t w l l' => ?_, ?_⟩
  · rw [scalar] at a b c
    exact ⟨Team.num_of_srcOk (a (by decide)) .., Team.num_of_srcOk (b (by decide)) .., Team.cond_of_condOk c ..⟩
  · cases third : o.third with
    | p n => exact .inl ⟨n, rfl⟩
    | q n => exact .inr ⟨n, rfl⟩
    | _ => simp [third, Operand.condOk] at c

/-- Settles O46: the destination reads as what was written, the value is one for all lanes in the scalar form, and SEL
checks its C code. -/
theorem moveAndSelect : Obligations.MoveAndSelect := by
  obtain ⟨mov, sel, -⟩ := movesAndIntegerArithmeticComplete
  refine ⟨fun o s t c h => ?mov, fun o s t c h => ?sel, Team.cond_p, Team.cond_q,
    fun o notP notQ => ?refused⟩
  case mov =>
    obtain ⟨types, kinds⟩ := F1Rule.check_eq_none (illFormed_of_issues h)
    obtain ⟨-, a, -⟩ := kinds3_ok kinds
    refine ⟨by simpa only [Team.val, isSigned_of_bw types] using mov o s t c h, fun l writes dest => ?_, fun n k => ?_⟩
    · refine Team.num_put writes dest (fun l => t.num_lt ..) (fun scalar => ?_) ..
      rw [scalar] at a
      exact Team.num_of_srcOk (a (by decide)) ..
    · rw [k]
      exact t.readK_put _ n _
  case sel =>
    obtain ⟨once, -⟩ := chkSel_ok (illFormed_of_issues h)
    have pick (w : Bool) (l : Nat) := (apply_ite (t.num w false false l) (t.cond l o.third = true) o.a o.b).symm
    refine ⟨sel o s t c h, fun l writes dest => ?_, fun n k => ?_⟩
    · refine (Team.num_put writes dest (fun l => ?_) (fun scalar => ?_) ..).trans (pick _ l)
      · rw [pick]
        exact t.num_lt ..
      · obtain ⟨a, b, cond⟩ := once scalar t (o.ext .b32).ty.is64 0 l
        rw [a, b, cond]
    · rw [k]
      exact (t.readK_put _ n _).trans (congrArg _ (pick _ 0))
  case refused =>
    refine .of_issueF1 (fun _ => rfl) fun h => ?_
    obtain ⟨-, ⟨n, p⟩ | ⟨n, q⟩⟩ := chkSel_ok h
    · exact notP n p
    · exact notQ n q

/-! ### IADC and ISBC (R107) -/

/-- The encodings of the carry chain that no check refuses. -/
theorem chkCarry_ok {o : F1} (h : chkCarry o = none) :
    32 ≤ (o.ext .n32).ty.bits ∧
    ((o.ext .n32).fn.extractLsb' 4 2 = 0 ∧ ((o.ext .n32).fn.getLsbD 3 = true ∨ (o.ext .n32).fn.extractLsb' 0 3 = 0) ∧
      ((o.ext .n32).fn.getLsbD 3 = true → o.scalar = true → ((o.ext .n32).fn.extractLsb' 0 3).toNat ≤ 3)) ∧
    ((∃ n, (o.ext .n32).c = .p n) ∨ (∃ n, (o.ext .n32).c = .q n) ∨ (o.ext .n32).c = .zero ∨
      (o.ext .n32).c = .const 1) := by
  obtain ⟨types, kinds⟩ := F1Rule.check_eq_none h
  have fn := F1Rule.fn_of_check h
  have c := kinds (_, .badSource) (List.mem_append_right _ (List.mem_singleton_self _))
  refine ⟨?_, ?_, ?_⟩
  · obtain ty | ty : (o.ext .n32).ty = .n32 ∨ (o.ext .n32).ty = .n64 := by simpa using types
    · rw [ty]; decide
    · rw [ty]; decide
  · simp only [Bool.and_eq_true, Bool.or_eq_true, beq_iff_eq, Bool.not_eq_true', decide_eq_true_eq] at fn
    obtain ⟨⟨high, enabled⟩, scalar⟩ := fn
    exact ⟨high, enabled, fun on one => scalar.resolve_left (by rw [on, one]; decide)⟩
  · generalize (o.ext .n32).c = code at c
    cases code with
    | p n => exact .inl ⟨n, rfl⟩
    | q n => exact .inr (.inl ⟨n, rfl⟩)
    | zero => exact .inr (.inr (.inl rfl))
    | const n => exact .inr (.inr (.inr (congrArg Operand.const (beq_iff_eq.mp c))))
    | _ => cases c

theorem carryChain_refuses {o : F1} (bad : chkCarry o ≠ none) : Refuses (.iadc o) ∧ Refuses (.isbc o) :=
  ⟨.of_issueF1 (fun _ => rfl) bad, .of_issueF1 (fun _ => rfl) bad⟩

/-- Settles O47: the carry chain's value and its carry-out are those of the total before it is cut, and the checks of
the encoding name every other case. -/
theorem carryChain : Obligations.CarryChain := by
  obtain ⟨iadc, isbc, -⟩ := carryAddressAndCompareComplete
  refine ⟨?issues, Team.writeP_seven, Team.cond_p, Team.cond_q,
    fun t l => ⟨by simp [Team.cond, Team.word], by simp [Team.cond, Team.word]⟩,
    fun o x ext notP notQ notZero notOne => carryChain_refuses fun h => ?code,
    fun o x ext high => carryChain_refuses fun h => ?high,
    fun o x ext off low => carryChain_refuses fun h => ?low,
    fun o x ext on one n => carryChain_refuses fun h => ?scalar⟩
  case issues =>
    intro sub o s t c i h
    have wellFormed : chkCarry o = none := by cases sub <;> exact illFormed_of_issues h
    have yields : exec i s = .next (s.done (carryResult o sub t) c) := by
      cases sub with
      | false => exact iadc o s t c h
      | true => exact isbc o s t c h
    have fits (l : Nat) : t.num (o.ext .n32).ty.is64 false false l o.a < 2 ^ (o.ext .n32).ty.bits := by
      rw [Ty.bits_eq (chkCarry_ok wellFormed).1]
      exact t.num_lt ..
    have step (l : Nat) := carryStep_eq (fits l) (t.num (o.ext .n32).ty.is64 false false l o.b) sub (t.cond l o.third)
    rw [yields]
    simp only [carryResult, step, Bool.not_eq_true', carryTotal]
    rfl
  all_goals obtain ⟨-, ⟨high', enabled, few⟩, code⟩ := chkCarry_ok h
  all_goals rw [F1.ext_of_some ext] at *
  case code =>
    obtain ⟨n, p⟩ | ⟨n, q⟩ | zero | one := code
    · exact notP n p
    · exact notQ n q
    · exact notZero zero
    · exact notOne one
  case high => exact high high'
  case low => exact low (enabled.resolve_left (Bool.eq_false_iff.mp off))
  case scalar => exact Nat.not_lt.mpr (few on one) n

/-! ### LEA (R108) -/

/-- LEA in bit vectors. -/
theorem leaOf_toNat (fn : BitVec 6) (a : DWord) (b : Word) :
    leaOf fn a.toNat b.toNat =
      (a + (if fn.getLsbD 3 then b.signExtend 64 else b.setWidth 64) <<< (fn.extractLsb' 0 3).toNat).toNat := by
  have extended : (if fn.getLsbD 3 then wrap 64 (intOf .s32 b.toNat) else b.toNat) =
      (if fn.getLsbD 3 then b.signExtend 64 else b.setWidth 64).toNat := by
    split
    · rw [wrap_eq]
      exact congrArg BitVec.toNat (ofInt_intOf .s32 b 64)
    · rw [BitVec.toNat_setWidth_of_le (by decide)]
  rw [leaOf, extended, BitVec.toNat_add, BitVec.toNat_shiftLeft, Nat.shiftLeft_eq, Nat.add_mod_mod]

theorem lea_refuses {o : F1}
    (bad : (o.ext .b64).fn.extractLsb' 4 2 = 0 → o.d.dstOk true = true → o.a.srcOk true o.scalar = true → False) :
    Refuses (.lea o) := by
  refine .of_issueF1 (fun _ => rfl) fun h => ?_
  obtain ⟨d, a, -⟩ := kinds3_ok (F1Rule.check_eq_none (show chkLea o = none from h)).2
  exact bad (by simpa using F1Rule.fn_of_check (show chkLea o = none from h)) d (a (by decide))

/-- Settles O48: the address is the sum of bit vectors, and its pair reads as what was written. -/
theorem loadEffectiveAddress : Obligations.LoadEffectiveAddress := by
  obtain ⟨-, -, lea, -⟩ := carryAddressAndCompareComplete
  refine ⟨fun o s t c h => ?issues, fun o high => lea_refuses fun low _ _ => high low,
    fun o n odd code => lea_refuses fun _ d a => ?v, fun o n odd code => lea_refuses fun _ d a => ?s⟩
  case issues =>
    intro fn b r t'
    have value (l : Nat) : leaOf (o.ext .b64).fn (t.num true false false l o.a) (t.num false false false l o.b) =
      (r l).toNat := leaOf_toNat fn (t.dword false l o.a) (t.word false l o.b)
    refine ⟨by simpa only [value] using lea o s t c h, fun n l d hl active => ?_, fun n d => ?_⟩
    · simp only [t', d]
      exact ⟨(t.readV_put _ hl active n true).trans (by simp),
        (t.readV_put_high _ hl active n).trans (BitVec.eq_of_toNat_eq (by simp))⟩
    · simp only [t', d]
      exact (t.readSS_put _ n).trans (by simp)
  case v =>
    rcases code with code | code
    · simp [code, Operand.dstOk, odd] at d
    · simp [code, Operand.srcOk, odd] at a
  case s =>
    rcases code with code | code
    · simp [code, Operand.dstOk, odd] at d
    · simp [code, Operand.srcOk, odd] at a

/-! ### ISET (R109) -/

/-- The encodings of ISET that no check refuses. -/
theorem chkSet_ok {o : F1} {dflt : Ty} {tys : List Ty} {neg : Bool} {last : Nat}
    (h : chkSet o dflt tys neg last = none) :
    tys.contains (o.ext dflt).ty = true ∧ o.d.dstCmp = true ∧ (o.ext dflt).fn.toNat ≤ last := by
  obtain ⟨types, kinds⟩ := F1Rule.check_eq_none h
  exact ⟨types, kinds (_, .badDest) (List.mem_cons_self ..), by simpa using F1Rule.fn_of_check h⟩

theorem iset_refuses {o : F1} (bad : o.d.dstCmp = true → (o.ext .s32).fn.toNat ≤ 5 → False) : Refuses (.iset o) := by
  refine .of_issueF1 (fun _ => rfl) fun h => ?_
  obtain ⟨-, d, fn⟩ := chkSet_ok h
  exact bad d fn

/-- The integer that a source of ISET stands for. -/
theorem intOf_val {ty : Ty} (h : iw.contains ty = true) (t : Team) (l : Nat) (x : Operand) :
    intOf ty (t.val ty l x) =
      if ty.is64 then (if ty.isSigned then (t.dword ty.isSigned l x).toInt else (t.dword ty.isSigned l x).toNat)
      else if ty.isSigned then (t.word false l x).toInt else (t.word false l x).toNat := by
  cases ty with
  | s32 => exact intOf_toNat .s32 (t.word false l x)
  | n32 => exact intOf_toNat .n32 (t.word false l x)
  | s64 => exact intOf_toNat .s64 (t.dword true l x)
  | n64 => exact intOf_toNat .n64 (t.dword false l x)
  | _ => simp [iw] at h

/-- The comparisons of R109, by number. -/
theorem cmpOf_int :
    (∀ p q : Int, cmpOf 0 (decide (p < q)) (p == q) = decide (p = q)) ∧
    (∀ p q : Int, cmpOf 1 (decide (p < q)) (p == q) = decide (p ≠ q)) ∧
    (∀ p q : Int, cmpOf 2 (decide (p < q)) (p == q) = decide (p < q)) ∧
    (∀ p q : Int, cmpOf 3 (decide (p < q)) (p == q) = decide (p ≤ q)) ∧
    (∀ p q : Int, cmpOf 4 (decide (p < q)) (p == q) = decide (q < p)) ∧
    ∀ p q : Int, cmpOf 5 (decide (p < q)) (p == q) = decide (q ≤ p) := by
  refine ⟨fun p q => ?_, fun p q => ?_, fun p q => ?_, fun p q => ?_, fun p q => ?_, fun p q => ?_⟩ <;>
    rw [Bool.eq_iff_iff] <;> simp [cmpOf] <;> omega

theorem ofNat_toNat_bool (b : Bool) : BitVec.ofNat 32 b.toNat = if b then 1 else 0 := by cases b <;> rfl

/-- Settles O49: the outcome is the comparison of the integers of the type, and each kind of destination reads as it. -/
theorem integerCompare : Obligations.IntegerCompare := by
  obtain ⟨-, -, -, iset, -⟩ := carryAddressAndCompareComplete
  refine ⟨fun o s t c h => ?issues, fun o x ext above => iset_refuses fun _ fn => ?comparison,
    fun o n k => iset_refuses fun d _ => by simp [k, Operand.dstCmp] at d⟩
  case issues =>
    intro x a b r t'
    obtain ⟨types, -, fn⟩ := chkSet_ok (illFormed_of_issues h)
    replace fn : x.fn.toNat ≤ 5 := fn
    obtain ⟨eq, ne, lt, le, gt, ge⟩ := cmpOf_int
    have outcome (l : Nat) : cmpOf x.fn.toNat (decide (a l < b l)) (a l == b l) = r l := by
      have low : (x.fn.extractLsb' 0 3).toNat = x.fn.toNat := by
        rw [BitVec.extractLsb'_toNat, Nat.shiftRight_zero, Nat.mod_eq_of_lt (by omega)]
      simp only [r, low]
      generalize x.fn.toNat = cc at fn
      match cc with
      | 0 => exact eq _ _
      | 1 => exact ne _ _
      | 2 => exact lt _ _
      | 3 => exact le _ _
      | 4 => exact gt _ _
      | 5 => exact ge _ _
    refine ⟨?_, fun n l d seven hl lane active => ?_, fun n d => ?_, fun n l d hl active => ?_, fun n d => ?_⟩
    · refine (iset o s t c h).trans ?_
      simp only [intOf_val types]
      exact congrArg (fun f => Host.Outcome.next (s.done (t.put o.d false f) c))
        (funext fun l => congrArg Bool.toNat (outcome l))
    all_goals simp only [t', d]
    · exact (t.readP_put _ lane hl active seven false).trans (Nat.testBit_bool_toNat _ 0)
    · exact (t.readQ_put _ n false).trans (Nat.testBit_bool_toNat _ 0)
    · exact (t.readV_put _ hl active n false).trans (ofNat_toNat_bool _)
    · exact (t.readS_put _ n).trans (ofNat_toNat_bool _)
  case comparison =>
    rw [F1.ext_of_some ext] at fn
    rw [BitVec.extractLsb'_toNat, Nat.shiftRight_zero] at above
    omega

end Sys2Proof.Machine
end

section
/-! Integer arithmetic, logic and shifts of 32 and 64 bits: the operations of bit vectors. -/

namespace Sys2Proof.Machine

/-! ### Integer arithmetic (R106) -/

section
variable {i : Instr} {o : F1} {s : State} {t : Team} {c : Clause} {ty : Ty}

/-- An integer opcode of a type writes what its operation gives on the sources, whatever its third input. -/
theorem exec_of_intResult {op : Ty → Int → Int → Int → Int} {g : Nat → Nat} (yields : Yields i (intResult o .s32 op))
    (h : Issues i s t c) (type : (o.ext .s32).ty = ty)
    (value : ∀ l z, intLane ty (o.ext .s32) (op ty) (t.val ty l o.a) (t.val ty l o.b) z = g l) :
    exec i s = .next (s.done (t.put o.d ty.is64 g) c) := by
  rw [yields s t c h, ← funext fun l => value l (t.val ty l o.third), ← type]
  rfl

/-- A logic or shift opcode of a type writes what its operation gives on the sources, whatever its third input. -/
theorem exec_of_bitResult {b32 : Bool} {f : Ty → Nat → Nat → Nat → Nat} {g : Nat → Nat}
    (yields : Yields i (bitResult o .b32 b32 f)) (h : Issues i s t c) (type : (o.ext .b32).ty = ty)
    (value : ∀ l z, f ty (t.val ty l o.a) (t.num (ty.is64 && !b32) ty.isSigned false l o.b) z = g l) :
    exec i s = .next (s.done (t.put o.d ty.is64 g) c) := by
  rw [yields s t c h, ← funext fun l => value l (t.val ty l o.third), ← type]
  rfl

end

/-- The arithmetic of a type that fills its registers, `w` being a source in that width. -/
theorem arithmetic_of_width {o : F1} {s : State} {t : Team} {c : Clause} {ty : Ty} (type : (o.ext .s32).ty = ty)
    (full : 32 ≤ ty.bits) (sat : (o.ext .s32).sat = false) (na : (o.ext .s32).na = false)
    (nb : (o.ext .s32).nb = false) (w : Nat → Operand → BitVec ty.bits) (source : ∀ l y, t.val ty l y = (w l y).toNat)
    {signed : Prop} [Decidable signed] (sign : signed ↔ ty.isSigned = true) :
    (Issues (.iadd o) s t c →
      exec (.iadd o) s = .next (s.done (t.put o.d ty.is64 fun l => (w l o.a + w l o.b).toNat) c)) ∧
    (Issues (.isub o) s t c →
      exec (.isub o) s = .next (s.done (t.put o.d ty.is64 fun l => (w l o.a - w l o.b).toNat) c)) ∧
    (Issues (.imul o) s t c →
      exec (.imul o) s = .next (s.done (t.put o.d ty.is64 fun l => (w l o.a * w l o.b).toNat) c)) ∧
    (Issues (.ineg o) s t c → exec (.ineg o) s = .next (s.done (t.put o.d ty.is64 fun l => (-w l o.a).toNat) c)) ∧
    (Issues (.imulh o) s t c → exec (.imulh o) s = .next (s.done (t.put o.d ty.is64 fun l =>
      if signed then (((w l o.a).signExtend (ty.bits + ty.bits) *
        (w l o.b).signExtend (ty.bits + ty.bits)).extractLsb' ty.bits ty.bits).toNat
      else (((w l o.a).setWidth (ty.bits + ty.bits) *
        (w l o.b).setWidth (ty.bits + ty.bits)).extractLsb' ty.bits ty.bits).toNat) c)) := by
  obtain ⟨-, -, -, iadd, isub, imul, imulh, -, -, -, -, -, ineg⟩ := movesAndIntegerArithmeticComplete
  refine ⟨fun h => exec_of_intResult (iadd o) h type fun l z => ?_,
    fun h => exec_of_intResult (isub o) h type fun l z => ?_, fun h => exec_of_intResult (imul o) h type fun l z => ?_,
    fun h => exec_of_intResult (ineg o) h type fun l z => ?_, fun h => exec_of_intResult (imulh o) h type fun l z => ?_⟩
  all_goals rw [source, source]
  · exact intLane_add full sat na nb ..
  · exact intLane_sub full sat na nb ..
  · exact intLane_mul full sat na nb ..
  · exact intLane_neg full sat na nb ..
  · simp only [sign]
    exact intLane_mulh full sat na nb ..

/-- Settles O50: an operation on the integers of a type, cut to its width, is that of bit vectors. -/
theorem integerArithmeticIsModular : Obligations.IntegerArithmeticIsModular := by
  refine ⟨fun o s t c type sat na nb => ?narrow, fun o s t c type sat na nb => ?wide⟩
  case narrow =>
    rcases type with type | type
    all_goals
      exact arithmetic_of_width type (by decide) sat na nb (fun l y => t.word false l y) (fun _ _ => rfl)
        (by simp [type, Ty.isSigned])
  case wide =>
    rcases type with type | type
    all_goals
      exact arithmetic_of_width type (by decide) sat na nb (fun l y => t.dword (o.ext .s32).ty.isSigned l y)
        (fun _ _ => by rw [type]; rfl) (by simp [type, Ty.isSigned])

/-! ### Logic and shifts (R110) -/

/-- Logic and shifts of a type that fills its registers, `w` being a source in that width. -/
theorem logic_of_width {o : F1} {s : State} {t : Team} {c : Clause} {ty : Ty} (type : (o.ext .b32).ty = ty)
    (pos : 0 < ty.bits) (w : Nat → Operand → BitVec ty.bits) (source : ∀ l y, t.val ty l y = (w l y).toNat) :
    let k (l : Nat) : Nat := (t.word false l o.b).toNat % 256
    let gives (i : Instr) (f : Nat → BitVec ty.bits) : Prop :=
      Issues i s t c → exec i s = .next (s.done (t.put o.d ty.is64 fun l => (f l).toNat) c)
    gives (.andL o) (fun l => w l o.a &&& w l o.b) ∧ gives (.orL o) (fun l => w l o.a ||| w l o.b) ∧
    gives (.xorL o) (fun l => w l o.a ^^^ w l o.b) ∧ gives (.andn o) (fun l => w l o.a &&& ~~~w l o.b) ∧
    gives (.notL o) (fun l => ~~~w l o.a) ∧ gives (.shl o) (fun l => w l o.a <<< k l) ∧
    gives (.shr o) (fun l => w l o.a >>> k l) ∧ gives (.sar o) (fun l => (w l o.a).sshiftRight (k l)) ∧
    gives (.rot o) (fun l => (w l o.a).rotateLeft (k l % ty.bits)) := by
  intro k gives
  obtain ⟨andL, orL, xorL, andn, notL, shl, shr, sar, rot, -⟩ := logicShiftsAndFieldsComplete
  have wide (l : Nat) : t.num (ty.is64 && !false) ty.isSigned false l o.b = (w l o.b).toNat := by
    rw [← source, Bool.not_false, Bool.and_true]; rfl
  have count (l : Nat) : t.num (ty.is64 && !true) ty.isSigned false l o.b = (t.word false l o.b).toNat := by
    rw [Bool.not_true, Bool.and_false]; rfl
  refine ⟨fun h => exec_of_bitResult (andL o) h type fun l z => ?_,
    fun h => exec_of_bitResult (orL o) h type fun l z => ?_, fun h => exec_of_bitResult (xorL o) h type fun l z => ?_,
    fun h => exec_of_bitResult (andn o) h type fun l z => ?_, fun h => exec_of_bitResult (notL o) h type fun l z => ?_,
    fun h => exec_of_bitResult (shl o) h type fun l z => ?_, fun h => exec_of_bitResult (shr o) h type fun l z => ?_,
    fun h => exec_of_bitResult (sar o) h type fun l z => ?_, fun h => exec_of_bitResult (rot o) h type fun l z => ?_⟩
  all_goals simp only [source, wide, count]
  · exact (BitVec.toNat_and ..).symm
  · exact (BitVec.toNat_or ..).symm
  · exact (BitVec.toNat_xor ..).symm
  · rw [notBits_toNat, BitVec.toNat_and]
  · exact notBits_toNat _
  · exact shlOf_toNat ..
  · exact shrOf_toNat ..
  · exact sarOf_toNat ..
  · exact rotOf_toNat pos ..

/-- Settles O51: each operation on numbers below 2^w is that of bit vectors of w bits. -/
theorem logicAndShiftsAreThoseOfBitVectors : Obligations.LogicAndShiftsAreThoseOfBitVectors :=
  ⟨fun _ _ t _ type => logic_of_width type (by decide) (fun l y => t.word false l y) fun _ _ => rfl,
    fun _ _ t _ type => logic_of_width type (by decide) (fun l y => t.dword false l y) fun _ _ => rfl⟩

end Sys2Proof.Machine
end

section
/-! Class 1: what an instruction that issues answers, by the operation that it shares with others, and where the expand
unit raises EXPAND_STATE. -/

namespace Sys2Proof.Machine

/-! ### Moves between lanes, votes, reductions and scans (R124 to R135, R139) -/

/-- A reduction or scan combines the terms of the lanes it picks (R133, R134). -/
theorem Yields.of_laneReduce {i : Instr} {o : F1} {pick : Team → X1 → Nat → List Nat}
    (he : ∀ s, exec i s = laneReduce i o pick s) : Yields i (redResult o pick) := .of_issueF1 he

/-- Settles O6: REDUCE, SCAN and SEGSCAN differ in the lanes they pick alone, and each of the others changes its team by
a write of its own. -/
theorem laneOperationsComplete : Obligations.LaneOperationsComplete :=
  ⟨fun _ => .of_issueF1 fun _ => rfl, fun _ => .of_issueF1 fun _ => rfl, fun _ => .of_issueF1 fun _ => rfl,
    fun _ => .of_issueF1 fun _ => rfl, fun _ => .of_issueF1 fun _ => rfl, fun _ => .of_laneReduce fun _ => rfl,
    fun _ => .of_laneReduce fun _ => rfl, fun _ => .of_laneReduce fun _ => rfl, fun _ => .of_issueF1 fun _ => rfl,
    fun _ => .of_issueF1 fun _ => rfl⟩

/-! ### The expand unit (R136 to R138) -/

/-- An instruction that issues traps where its last checks do (R7, steps 4 to 6). -/
theorem Traps.of_post {i : Instr} {ok : State → Team → Prop} {tr : State → Team → Trap}
    {post : State → Team → Clause → Option Trap} {k : State → Team → Clause → State}
    (he : ∀ s, exec i s = issue i s noTrap post k) (trap : ∀ s t c, ok s t → post s t c = some (tr s t)) :
    Traps i ok tr :=
  fun s t c h hok => (he s).trans (issue_post h rfl (trap s t c hok))

/-- Settles O7: EXSET checks that the state is idle and the total fits a word, EXDEAL that the state is armed, and EXCLR
nothing. -/
theorem expandUnitCompletes : Obligations.ExpandUnitCompletes := by
  refine ⟨fun o s t c h idle fits => ?exset, fun o => .of_post (fun _ => rfl) fun s t c wrong => ?exsetTrap,
    fun o s t c h armed => ?exdeal, fun o => .of_post (fun _ => rfl) fun s t c idle => ?exdealTrap,
    fun o => .of_issueF1 fun _ => rfl⟩
  case exset =>
    change execExset o s = _
    rw [execExset]
    exact issue_next h rfl (if_neg (by simp [idle, fits]))
  case exsetTrap => exact if_pos (by simpa using wrong)
  case exdeal =>
    change execExdeal o s = _
    rw [execExdeal]
    exact issue_next h rfl (if_pos armed)
  case exdealTrap => exact if_neg (by simp [idle])

end Sys2Proof.Machine
end

section
/-! What the caches keep: no operation on L1 or L2 lines changes a core's locks, a line that a cache gains is one that was
asked for, and what leaves a cache on an acquire or a release. -/

namespace Sys2Proof.Machine

/-! ### The core of a number -/

@[simp] theorem State.core_no (s : State) (no : Nat) : (s.core no).no = no := by
  unfold State.core
  cases found : s.cores.find? fun c => c.no == no with
  | none => rfl
  | some c => simpa using List.find?_some found

theorem State.core_congr {s s' : State} (h : s'.cores = s.cores) (no : Nat) : s'.core no = s.core no := by
  simp only [State.core, h]

theorem find?_replaceIf {α : Type} (l : List α) (p : α → Bool) (y : α) (hy : p y = true) :
    (replaceIf l p fun _ => y).find? p = (l.find? p).map fun _ => y := by
  induction l with
  | nil => rfl
  | cons x l ih =>
    simp only [replaceIf] at ih
    by_cases hx : p x = true
    · simp [replaceIf, hx, hy]
    · simp [replaceIf, hx, ih]

theorem State.core_setCore (s : State) (c : Core) : (s.setCore c).core c.no = c := by
  unfold State.setCore State.core
  split
  · rename_i held
    simp only [find?_replaceIf s.cores (·.no == c.no) c (by simp)]
    obtain ⟨x, hx, same⟩ := List.any_eq_true.mp held
    cases found : s.cores.find? (·.no == c.no) with
    | none => exact absurd same (List.find?_eq_none.mp found x hx)
    | some y => rfl
  · rename_i fresh
    have none' : s.cores.find? (·.no == c.no) = none := by simpa using fresh
    simp [List.find?_append, none']

/-- A change of a core that keeps its number is what the core then is. -/
theorem State.core_onCore (s : State) (no : Nat) (f : Core → Core) (keeps : (f (s.core no)).no = no) :
    (s.onCore no f).core no = f (s.core no) := by
  have h := s.core_setCore (f (s.core no))
  rwa [keeps] at h

/-! ### Lines of L2 leave the cores as they are -/

/-- What every step of a fold keeps, the fold keeps. -/
theorem foldl_keeps {α β γ : Type} (g : β → γ) {f : β → α → β} (h : ∀ b a, g (f b a) = g b) (l : List α) (b : β) :
    g (l.foldl f b) = g b :=
  List.foldlRecOn (motive := fun b' => g b' = g b) l f rfl fun b' same a _ => (h b' a).trans same

@[simp] theorem State.physWrite_cores (s : State) (pa : Nat) (bs : List Byte) : (s.physWrite pa bs).cores = s.cores := by
  simp only [State.physWrite, State.countNoMemory]
  split <;> rfl

@[simp] theorem State.homeStore_cores (s : State) (k : Line) (off : Nat) (bs : List Byte) :
    (s.homeStore k off bs).cores = s.cores := by
  unfold State.homeStore
  split
  · exact s.physWrite_cores _ _
  · rfl

@[simp] theorem State.contextFault_cores (s : State) (ctx die reason : Nat) (code : BitVec 8) (va : DWord) :
    (s.contextFault ctx die reason code va).cores = s.cores := by
  simp only [State.contextFault]
  split
  · simp
  · rfl

@[simp] theorem State.faultAsid_cores (s : State) (d : Nat) (asid : BitVec 16) : (s.faultAsid d asid).cores = s.cores :=
  foldl_keeps State.cores (fun s _ => s.contextFault_cores _ _ _ _ _) _ s

@[simp] theorem State.writeBack_cores (s : State) (d : Nat) (l : Line) : (s.writeBack d l).cores = s.cores := by
  have good (is : List Nat) : (is.foldl (fun (s : State) i =>
      s.physWrite (l.base + 32 * i) ((l.data.drop (32 * i)).take 32)) s).cores = s.cores :=
    foldl_keeps State.cores (fun s _ => s.physWrite_cores _ _) _ s
  unfold State.writeBack
  split
  · exact foldl_keeps State.cores (fun s _ => s.homeStore_cores _ _ _) _ s
  · dsimp only
    split
    · exact good _
    · rw [State.faultAsid_cores, good]

@[simp] theorem State.cleanL2_cores (s : State) (d : Nat) (p : Line → Bool) : (s.cleanL2 d p).cores = s.cores :=
  foldl_keeps State.cores (fun s _ => s.writeBack_cores _ _) _ s

@[simp] theorem State.allocL2_cores (s : State) (d : Nat) (l : Line) (ret : Option Retention) (store : Bool) :
    (s.allocL2 d l ret store).cores = s.cores := by
  unfold State.allocL2
  split
  · rfl
  · split
    · rfl
    · dsimp only
      split <;> simp

@[simp] theorem State.fetchLine_cores (s : State) (d : Nat) (k : Line) (ret : Option Retention) (store : Bool) :
    (s.fetchLine d k ret store).1.cores = s.cores := by
  unfold State.fetchLine
  split
  · rfl
  · split
    · simp
    · split <;> simp

@[simp] theorem State.dropL2_cores (s : State) (d : Nat) (p : Line → Bool) : (s.dropL2 d p).cores = s.cores := by
  unfold State.dropL2
  refine (foldl_keeps State.cores (fun s l => s.fetchLine_cores d l (some l.ret) false) _ _).trans ?_
  simp

/-! ### Lines that a cache gains -/

theorem Line.same_iff {k l : Line} : k.same l = true ↔ l.asid = k.asid ∧ l.line = k.line := by simp [Line.same]

theorem Line.same_refl (l : Line) : l.same l = true := Line.same_iff.mpr ⟨rfl, rfl⟩

theorem Line.same_trans {k l m : Line} (h : k.same l = true) (h' : l.same m = true) : k.same m = true := by
  rw [Line.same_iff] at *
  exact ⟨h'.1.trans h.1, h'.2.trans h.2⟩

/-- A line that is fetched is the line asked for. -/
theorem State.fetchLine_same (s : State) (d : Nat) (k : Line) (ret : Option Retention) (store : Bool) :
    k.same (s.fetchLine d k ret store).2 = true := by
  unfold State.fetchLine
  split
  · rename_i l found
    exact List.find?_some found
  · split
    · exact k.same_refl
    · split
      · rename_i l found
        exact List.find?_some found
      · exact k.same_refl

theorem mem_demoteSticky {p : Line → Bool} {half : Nat} {ls : List Line} {x : Line} (h : x ∈ demoteSticky p half ls) :
    ∃ y ∈ ls, y.same x = true := by
  simp only [demoteSticky] at h
  split at h
  · split at h
    · obtain ⟨y, hy, rfl⟩ := List.mem_map.mp h
      exact ⟨y, hy, by split <;> exact Line.same_iff.mpr ⟨rfl, rfl⟩⟩
    · exact ⟨x, h, x.same_refl⟩
  · exact ⟨x, h, x.same_refl⟩

/-- After a fill the set holds the line put in and lines that it held before. -/
theorem mem_fillSet {inSet free : Line → Bool} {ways : Nat} {l : Line} {ls : List Line} {x : Line}
    (h : x ∈ (fillSet inSet free ways l ls).1) : ∃ y ∈ l :: ls, y.same x = true := by
  have settled {half : Nat} {r : List Line}
      (h : x ∈ if l.ret == .sticky then demoteSticky (fun x => inSet x && free x) half r else r) :
      ∃ y ∈ r, y.same x = true := by
    split at h
    · exact mem_demoteSticky h
    · exact ⟨x, h, x.same_refl⟩
  simp only [fillSet] at h
  split at h
  · exact settled h
  · split at h
    · obtain ⟨y, hy, same⟩ := settled h
      refine ⟨y, ?_, same⟩
      rcases List.mem_cons.mp hy with rfl | old
      · exact List.mem_cons_self
      · exact List.mem_cons_of_mem _ (List.mem_filter.mp old).1
    · exact ⟨x, List.mem_cons_of_mem _ h, x.same_refl⟩

theorem State.mem_allocL1 {s : State} {core : Nat} {l x : Line} {ret : Retention}
    (h : x ∈ ((s.allocL1 core l ret).core core).l1) : ∃ y ∈ l :: (s.core core).l1, y.same x = true := by
  simp only [State.allocL1] at h
  split at h
  · exact ⟨x, List.mem_cons_of_mem _ h, x.same_refl⟩
  · rw [State.onL1, State.core_onCore _ _ _ (s.core_no core)] at h
    obtain ⟨y, hy, same⟩ := mem_fillSet h
    rcases List.mem_cons.mp hy with rfl | old
    · exact ⟨l, List.mem_cons_self, Line.same_trans (Line.same_iff.mpr ⟨rfl, rfl⟩) same⟩
    · exact ⟨y, List.mem_cons_of_mem _ old, same⟩

/-! ### Lines that leave (R252) -/

/-- A line of a core's L1 may stay where lines that `p` names leave: it is one held before that `p` does not name, or that
a lock holds. -/
def State.MayStay (s : State) (core : Nat) (p : Line → Bool) (x : Line) : Prop :=
  ∃ y ∈ (s.core core).l1, y.same x = true ∧ (p y = false ∨ (s.core core).locked1 y = true)

theorem State.MayStay.of_same {s : State} {core : Nat} {p : Line → Bool} {x z : Line} (h : s.MayStay core p x)
    (same : x.same z = true) : s.MayStay core p z := by
  obtain ⟨y, hy, same', why⟩ := h
  exact ⟨y, hy, Line.same_trans same' same, why⟩

/-- What an L1 holds after lines left it might stay. -/
theorem State.mayStay_of_mem_dropL1 {s : State} {core : Nat} {p : Line → Bool} :
    ∀ x ∈ ((s.dropL1 core p).core core).l1, s.MayStay core p x := by
  refine List.foldlRecOn (motive := fun s' : State => ∀ x ∈ (s'.core core).l1, s.MayStay core p x) _ _ ?left ?again
  case left =>
    intro x hx
    rw [State.onL1, State.core_onCore _ _ _ (s.core_no core)] at hx
    obtain ⟨member, unnamed⟩ := List.mem_filter.mp hx
    exact ⟨x, member, x.same_refl, .inl (by simpa only [Bool.not_eq_true'] using unnamed)⟩
  case again =>
    intro s' held l hl x hx
    obtain ⟨member, locked⟩ := List.mem_filter.mp hl
    change x ∈ (((s'.fetchLine (coreDie core) l (some .normal) false).1.allocL1 core
      (s'.fetchLine (coreDie core) l (some .normal) false).2 l.ret).core core).l1 at hx
    obtain ⟨y, hy, same⟩ := State.mem_allocL1 hx
    refine State.MayStay.of_same ?_ same
    rcases List.mem_cons.mp hy with rfl | old
    · exact ⟨l, member, s'.fetchLine_same _ l _ _, .inr (Bool.and_eq_true_iff.mp locked).2⟩
    · rw [State.core_congr (s'.fetchLine_cores (coreDie core) l (some .normal) false)] at old
      exact held y old

theorem Core.locked1_of_same {c : Core} {k l : Line} (same : k.same l = true) (h : c.locked1 k = true) :
    c.locked1 l = true := by
  obtain ⟨asid, line⟩ := Line.same_iff.mp same
  have names : l.lockedBy = k.lockedBy := by funext j; simp only [Line.lockedBy, asid, line]
  rwa [Core.locked1, names]

/-- After an acquire at .die or wider, an L1 line of the ASID is one that a lock of the core holds. -/
theorem State.locked1_of_mem_acquireLines {s : State} {core : Nat} {asid : BitVec 16} {sc : Scope} {l : Line}
    (wide : sc = .die ∨ sc = .dev ∨ sc = .sys) (h : l ∈ ((s.acquireLines core asid sc).core core).l1)
    (ours : l.asid = asid) : (s.core core).locked1 l = true := by
  have dropped : ∃ s1 : State, s1.cores = s.cores ∧ l ∈ ((s1.dropL1 core (·.asid == asid)).core core).l1 := by
    rcases wide with rfl | rfl | rfl
    · exact ⟨s, rfl, h⟩
    · exact ⟨_, s.dropL2_cores _ _, h⟩
    · exact ⟨_, s.dropL2_cores _ _, h⟩
  obtain ⟨s1, cores, member⟩ := dropped
  obtain ⟨y, -, same, stayed⟩ := State.mayStay_of_mem_dropL1 l member
  rw [State.core_congr cores] at stayed
  have named : (y.asid == asid) = true := by rw [beq_iff_eq, ← ours, (Line.same_iff.mp same).1]
  exact Core.locked1_of_same same (stayed.resolve_left (by simp [named]))

/-- After the lines that `p` names were written back, each line of that L2 is clean or not named. -/
theorem State.mem_cleanL2 {s : State} {d : Nat} {p : Line → Bool} {l : Line} (h : l ∈ (s.cleanL2 d p).l2.getD d []) :
    l.dirty = 0 ∨ p l = false := by
  rw [State.cleanL2, State.onL2, getD_setAt, if_pos rfl] at h
  obtain ⟨y, -, rfl⟩ := List.mem_map.mp h
  by_cases named : p y = true
  · exact .inl (by simp [named])
  · exact .inr (by simp [named])

end Sys2Proof.Machine
end

section
/-! Class 2 at issue: lane accesses, HACC, waits, fences, prefetches and residency. -/

namespace Sys2Proof.Machine

/-! ### Lane accesses (R144 to R146) -/

/-- A class 2 access that issues takes the first trap of its lanes, goes on with no lane, or becomes outstanding. -/
theorem AccessIssues.of_issueAccess {i : Instr} {o : F2} {idx store : Bool} {dat datb : Option Operand}
    {empty : Team → Team} (he : ∀ s, exec i s = issueAccess i o idx store dat datb empty s) :
    AccessIssues i o idx store dat datb empty := by
  intro s t c h
  rw [he, issueAccess, issue_eq h]
  cases accessTraps s t o (accsOf t o idx) (szBytes o.ext.sz) store with
  | some tr => rfl
  | none => cases dat <;> cases datb <;> rfl

/-- Settles O11: the eight instructions are one operation, which differs in what it captures and checks. -/
theorem memoryAccessesIssue : Obligations.MemoryAccessesIssue :=
  ⟨fun _ => .of_issueAccess fun _ => rfl, fun _ => .of_issueAccess fun _ => rfl, fun _ => .of_issueAccess fun _ => rfl,
    fun _ => .of_issueAccess fun _ => rfl, fun _ => .of_issueAccess fun _ => rfl, fun _ => .of_issueAccess fun _ => rfl,
    fun _ => .of_issueAccess fun _ => rfl, fun _ => .of_issueAccess fun _ => rfl⟩

/-! ### Waits, fences, prefetches and residency (R152, R158, R160 to R163) -/

/-- A residency instruction that issues becomes outstanding with its range, and the granules that it reads. -/
theorem Enqueues.of_issueRange {i : Instr} {o : F2} {translate : Bool} (he : ∀ s, exec i s = issueRange i o translate s) :
    Enqueues i (fun _ _ => True) fun s t c => { t.entry c i o s.nextId s.clk with
      args := [(t.udword o.a).toNat, (t.uword o.ext.b).toNat]
      needs := if translate then granules (t.udword o.a).toNat (t.uword o.ext.b).toNat else [] } :=
  fun s _ _ h _ => (he s).trans (issue_free h)

/-- HACC that issues with a table it may use becomes outstanding with one lane for each active one. -/
theorem execHacc_next {o : F2} {s : State} {t : Team} {c : Clause} (h : Issues (.hacc o) s t c) (some' : t.lanes ≠ [])
    (aligned : (t.udword o.a).toNat % 8 = 0)
    (free : s.rangeHit t.core (s.spaceOf t (szScratch o.ext.sz)) (t.udword o.a).toNat (8 * haccSlots o) true = false)
    (inside : szScratch o.ext.sz = true → (t.udword o.a).toNat + 8 * haccSlots o ≤ s.scratchSize t) :
    execHacc o s = .next (s.enqueue t c { t.entry c (.hacc o) o s.nextId s.clk with
      addrs := t.lanes.map fun l => (l, (t.udword o.a).toNat)
      data := t.lanes.map fun l => (l, (t.word false l o.d).toNat)
      datb := t.lanes.map fun l => (l, (t.word (o.ext.rh == 2) l o.ext.b).toNat)
      needs := if szScratch o.ext.sz then [] else granules (t.udword o.a).toNat (8 * haccSlots o) }) := by
  have room : (szScratch o.ext.sz && decide (s.scratchSize t < (t.udword o.a).toNat + 8 * haccSlots o)) = false := by
    simpa using inside
  rw [execHacc, issue_eq h]
  simp only [List.isEmpty_eq_false_iff.mpr some', aligned, free, room, bne_self_eq_false, Bool.false_eq_true, if_false,
    Option.elim_none]

/-- A fence that may issue releases, acquires, or does both. -/
theorem execFence_eq {o : F2} {s : State} {t : Team} {c : Clause} (h : Issues (.fence o) s t c)
    (performed : t.unperformed.any Outst.accesses = false) (acked : o.ext.sc = .sys → t.unacked = 0) :
    execFence o s = .next (
      if o.ext.fn = 1 then (s.done t c).acquire t o.ext.sc
      else if o.ext.fn = 2 then (s.release t o.ext.sc).done t c
      else ((s.release t o.ext.sc).done t c).acquire t o.ext.sc) := by
  have ready : (t.unperformed.any Outst.accesses || (o.ext.sc == .sys && t.unacked != 0)) = false := by
    simpa [performed] using acked
  rw [execFence, issue_free h]
  simp only [ready, Bool.false_eq_true, if_false, beq_iff_eq]
  by_cases acquires : o.ext.fn = 1
  · simp [acquires]
  · simp only [acquires, if_false]

theorem execWaitk_eq {o : F2} {k : BitVec 4} {s : State} {t : Team} {c : Clause} (counter : o.d = .k k)
    (h : Issues (.waitk o) s t c) :
    execWaitk o s = .next (
      if (t.readK k.toNat - (t.uword o.a).setWidth 16).toNat < 2 ^ 15 then (s.done t c).acquire t o.ext.sc
      else s.enqueue t c { t.entry c (.waitk o) o s.nextId s.clk with
        args := [k.toNat, ((t.uword o.a).setWidth 16).toNat] }) := by
  rw [execWaitk, issue_free h]
  simp only [counter, kReached, decide_eq_true_eq]

/-- A misaligned address of a prefetch is dropped (R161). -/
theorem State.prefetchLine_misaligned (s : State) (t : Team) (o : F2) {va : Nat} (h : va % szBytes o.ext.sz ≠ 0) :
    s.prefetchLine t o va = s := if_pos (by simpa using h)

/-- Settles O12: at issue the branch of each instruction; of acquires and releases what the caches then hold. -/
theorem waitsFencesAndResidencyIssue : Obligations.WaitsFencesAndResidencyIssue := by
  refine ⟨fun o s t c h empty => ?hacc,
    fun o s t c h some' aligned free inside => execHacc_next h some' aligned free inside,
    fun o k s t c counter h => execWaitk_eq counter h, fun o s t c h performed acked => execFence_eq h performed acked,
    fun o s t c h => ?pfetch, fun s t o va misaligned => s.prefetchLine_misaligned t o misaligned,
    fun o => .of_issueRange (translate := true) fun _ => rfl, fun o => .of_issueRange (translate := false) fun _ => rfl,
    fun o => .of_issueRange (translate := false) fun _ => rfl,
    fun o => .of_issueRange (translate := false) fun _ => rfl, fun s t sc l wide member ours => ?acquire,
    fun s t sc l wide member ours away => ?release⟩
  case hacc =>
    change execHacc o s = _
    rw [execHacc, issue_eq h]
    simp [empty]
  case pfetch =>
    change execPfetch o s = _
    rw [execPfetch, issue_free h]
  case acquire =>
    refine State.locked1_of_mem_acquireLines wide ?_ ours
    have kept : (s.acquire t sc).cores = (s.acquireLines t.core (s.ctx t.ctx).asid sc).cores := by
      simp only [State.acquire]
      split <;> rfl
    rwa [State.core_congr kept] at member
  case release =>
    have cleaned : l ∈ (s.releaseLines (coreDie t.core) (s.ctx t.ctx).asid).l2.getD (coreDie t.core) [] := by
      rcases wide with rfl | rfl <;> exact member
    exact (State.mem_cleanL2 cleaned).resolve_right (by simp [ours, away])

end Sys2Proof.Machine
end

section
/-! The scan link and extension registers at issue, and the ends of the waits of WAITK, BWAIT, GSCAN and XACQ. -/

namespace Sys2Proof.Machine

/-! ### Waits (R152, R203) -/

section
variable {s : State} {t k : Nat} {tm : Team} {e : Outst} {o : F2}

theorem execWaitkDone_reached (entry : s.entry? t k = some (tm, e)) (instr : e.instr = .waitk o)
    (reached : kReached (tm.readK (e.arg 0)) (BitVec.ofNat 16 (e.arg 1)) = true) :
    execWaitkDone t k s = .next ((s.complete tm e).acquire tm o.ext.sc) := by
  simp only [execWaitkDone, entry, instr, reached, if_true, Instr.waitScope]

theorem execBwaitDone_over (entry : s.entry? t k = some (tm, e)) (instr : e.instr = .bwait o) (passed : e.arg 2 = 2) :
    execBwaitDone t k s = .next ((s.complete tm e).acquire tm o.ext.sc) := by
  simp only [execBwaitDone, entry, instr, passed, BEq.rfl, if_true, Instr.waitScope]

theorem execBwaitDone_broken (entry : s.entry? t k = some (tm, e)) (instr : e.instr = .bwait o) (broken : e.arg 2 = 1) :
    execBwaitDone t k s =
      .next (s.failEntry tm e { code := .barrierBroken, addr := BitVec.ofNat 64 (e.arg 1) }) := by
  simp [execBwaitDone, entry, instr, broken, brokenTrap]

/-! ### Extension registers (R209) -/

theorem execXacqGrant_grants {rs : List (Nat × Bool × Nat × Nat)} (entry : s.entry? t k = some (tm, e))
    (instr : e.instr = .xacq o) (oldest : s.oldestXacq tm e = true) (without : tm.extg = 0)
    (room : giveRuns (s.core tm.core).share (e.arg 0) true tm.liveGroups (s.usedRuns tm.core tm.sub) = some rs) :
    execXacqGrant t k s = .next (s.complete
      (({ tm.clearV tm.base (e.arg 0) with extg := e.arg 0, runs := tm.runs ++ rs } : Team).put o.d false fun _ => 0)
      e) := by
  simp only [execXacqGrant, entry, instr, oldest, without, room, Bool.not_true, bne_self_eq_false,
    Bool.false_eq_true, if_false]

theorem execXacqTimeout_due (entry : s.entry? t k = some (tm, e)) (instr : e.instr = .xacq o)
    (due : e.since + partTimeout (s.core tm.core).partw ≤ s.clk) :
    execXacqTimeout t k s = .next (
      if o.d = .zero then s.failEntry tm e { code := .extTimeout } else s.complete (tm.put o.d false fun _ => 1) e) := by
  simp only [execXacqTimeout, entry, instr, Nat.not_lt.mpr due, if_false, beq_iff_eq, apply_ite Host.Outcome.next]

/-! ### The scan link (R208) -/

theorem slotPair_eq (b : List Byte) : slotPair b =
    if field b 12 4 ≠ 0 then none else some (BitVec.ofNat 32 (field b 0 4), BitVec.ofNat 32 (field b 4 4)) := by
  simp [slotPair]

theorem execGscanWaitEnd_first (entry : s.entry? t k = some (tm, e)) (instr : e.instr = .gscan o)
    (mapped : s.mapped tm e = true) (order : tm.inOrder e = true) (first : e.arg 1 = 0)
    (given : o.ext.fn.getLsbD 0 = false) :
    let slot := leBytes 4 (e.arg 2 % 2 ^ 32) ++ leBytes 4 (e.arg 3 % 2 ^ 32) ++ leBytes 4 1 ++ leBytes 4 0
    let s1 := ((({ s with freeCtr := s.freeCtr + 2 } : State).release tm .dev).teamWrite tm.core e.outs (e.arg 0) slot
      .home).remoteStores tm.id tm.ctx tm.world (peerPieces e.outs (e.arg 0) slot)
    execGscanWaitEnd t k s = .next ((s1.complete ((s1.again tm).putQ o.ext.b false) e).acquire tm .dev) := by
  simp only [execGscanWaitEnd, entry, instr, mapped, order, first, given, lrCombine, BEq.rfl, bne_self_eq_false,
    Bool.not_true, Bool.or_false, Bool.false_and, Bool.false_eq_true, if_true, if_false, Option.getD_some,
    Option.isNone_some, Option.isSome_none, BitVec.toNat_ofNat, Bool.toNat_false, Nat.mul_zero, Nat.add_zero]

theorem execGscanWaitEnd_waits (entry : s.entry? t k = some (tm, e)) (instr : e.instr = .gscan o)
    (mapped : s.mapped tm e = true) (order : tm.inOrder e = true) (later : e.arg 1 ≠ 0)
    (good : (s.teamRead tm.core e.outs (e.arg 0 + 16 * (e.arg 1 - 1)) 16 .home).2.2 = false)
    (unready : field (s.teamRead tm.core e.outs (e.arg 0 + 16 * (e.arg 1 - 1)) 16 .home).2.1 8 4 ≠ 1) :
    execGscanWaitEnd t k s = .next s := by
  simp [execGscanWaitEnd, entry, instr, mapped, order, later, good, unready]

theorem execGscanWaitEnd_later (entry : s.entry? t k = some (tm, e)) (instr : e.instr = .gscan o)
    (mapped : s.mapped tm e = true) (order : tm.inOrder e = true) (later : e.arg 1 ≠ 0) :
    let r := s.teamRead tm.core e.outs (e.arg 0 + 16 * (e.arg 1 - 1)) 16 .home
    r.2.2 = false → field r.2.1 8 4 = 1 →
    let carry : LrPair := slotPair r.2.1
    let total : LrPair :=
      if o.ext.fn.getLsbD 0 = true then none else some (BitVec.ofNat 32 (e.arg 2), BitVec.ofNat 32 (e.arg 3))
    let p := (lrCombine carry total).1
    let ab := p.getD (Config.freeWord r.1.freeCtr, Config.freeWord (r.1.freeCtr + 1))
    let slot := leBytes 4 ab.1.toNat ++ leBytes 4 ab.2.toNat ++ leBytes 4 1 ++ leBytes 4 p.isNone.toNat
    let own := e.arg 0 + 16 * e.arg 1
    let s1 := ((({ r.1 with freeCtr := r.1.freeCtr + 2 } : State).release tm .dev).teamWrite tm.core e.outs own slot
      .home).remoteStores tm.id tm.ctx tm.world (peerPieces e.outs own slot)
    let t1 := (s1.again tm).putQ o.ext.b carry.isSome
    let t2 := match carry, o.d with
      | some (a, b), .s n => t1.writeSS n.toNat (a ++ b)
      | _, _ => t1
    execGscanWaitEnd t k s = .next ((s1.complete t2 e).acquire tm .dev) := by
  intro r good ready
  have notFirst : (e.arg 1 == 0) = false := by simpa using later
  simp only [execGscanWaitEnd, entry, instr, mapped, order, notFirst, Bool.not_true, Bool.or_false,
    Bool.false_eq_true, if_false]
  change (if r.2.2 = true then _ else if (e.arg 1 != 0 && field r.2.1 8 4 != 1) = true then _ else _) = _
  rw [if_neg (by simp [good]), if_neg (by simp [ready])]
  rfl

end

/-- GSCAN traps where its record is not aligned. -/
theorem execGscan_misaligned (o : F2) : Traps (.gscan o) (fun _ t => (t.udword o.a).toNat % 16 ≠ 0)
    fun _ t => { code := .misaligned, addr := t.udword o.a } :=
  .of_post (fun _ => rfl) fun _ _ _ misaligned => if_pos (by simpa using misaligned)

/-- Settles O19: at issue and at the end of each wait the branch that the hypotheses single out. -/
theorem scanLinkAndExtensionComplete : Obligations.ScanLinkAndExtensionComplete := by
  refine ⟨fun o s t c h aligned => ?gscan, execGscan_misaligned, fun o s t c h legal => ?xacq,
    fun s t k tm e o rs entry instr oldest without room => execXacqGrant_grants entry instr oldest without room,
    fun s t k tm e o entry instr due => execXacqTimeout_due entry instr due, fun o s t c h idle => ?xrel,
    fun s t k tm e o entry instr reached => execWaitkDone_reached entry instr reached,
    fun s t k tm e o entry instr passed => execBwaitDone_over entry instr passed,
    fun s t k tm e o entry instr broken => execBwaitDone_broken entry instr broken,
    fun s t k tm e o entry instr mapped order first given => execGscanWaitEnd_first entry instr mapped order first given,
    fun s t k tm e o entry instr mapped order later good unready =>
      execGscanWaitEnd_waits entry instr mapped order later good unready,
    fun s t k tm e o entry instr mapped order later => ?later⟩
  case gscan =>
    change execGscan o s = _
    rw [execGscan]
    exact issue_next h rfl (if_neg (by simpa using aligned))
  case xacq =>
    change execXacq o s = _
    rw [execXacq]
    exact issue_next h (if_neg (by simpa using legal)) rfl
  case xrel =>
    change execXrel o s = _
    rw [execXrel, issue_free h]
    simp [idle]
  case later =>
    have h := execGscanWaitEnd_later entry instr mapped order later
    simp only [slotPair_eq] at h
    exact h

end Sys2Proof.Machine
end

section
/-! F2_COMPLETION of the residency instructions: what each does to locks and lines when it is performed. -/

namespace Sys2Proof.Machine

/-! ### Performing an entry (R70) -/

/-- An entry that may be performed, and is no query, has the effect of its completion. -/
theorem Performs.exec {s : State} {t k : Nat} {tm : Team} {e : Outst} (h : Performs s t k tm e)
    (noQuery : ∀ o, e.instr ≠ .qsrch o) : exec (.f2Completion t k) s = .next (completeEntry s tm e) := by
  obtain ⟨notPosted, entry, ends, order, answered, mapped, unsent⟩ := h
  change execF2Completion t k s = _
  simp only [execF2Completion, notPosted, entry, ends, order, answered, mapped, unsent, Bool.not_true, Bool.or_false,
    Bool.false_eq_true, if_false]

/-! ### Locks (R160, R254) -/

/-- The lock quota of a core is a field of its partition word (R242). -/
theorem partw_quota (w : Word) : (w.extractLsb' 17 4).toNat = w.toNat / 2 ^ 17 % 16 := by
  rw [BitVec.extractLsb'_toNat, Nat.shiftRight_eq_div_pow]

/-- LOCKL locks and brings in every new line of its range, or with a STAT other than 0 none. -/
theorem completeLockl_eq (s : State) (tm : Team) (e : Outst) (o : F2) :
    let core := o.ext.sc == .core
    let c := s.ctx tm.ctx
    let mine := (s.locksAt tm core).filter fun l => l.ctx == tm.ctx
    let new := (lineRange (e.args.getD 0 0) (e.args.getD 1 0)).filter fun n =>
      !mine.any fun l => l.line == n && l.asid == c.asid
    let quota := if core then (s.core tm.core).partw.toNat / 2 ^ 17 % 16 * 256 else 32768
    let stat : Nat := if quota < mine.length + new.length then 1 else if s.setsFull tm core c.asid new then 2 else 0
    let locks := new.map fun n => ({ ctx := tm.ctx, asid := c.asid, line := n } : LineLock)
    let s1 := if stat ≠ 0 then s
      else if core then s.onCore tm.core fun k => { k with locks := k.locks ++ locks }
      else { s with locks2 := s.locks2 ++ locks.map fun l => (coreDie tm.core, l) }
    let s2 := if stat ≠ 0 then s1 else new.foldl (fun s n => s.bringLocked tm e.outs core n) s1
    completeLockl s tm e o = s2.complete (tm.writeRun o.d 1 (fun _ => true)
      [(0, (BitVec.ofNat 2 stat ++ BitVec.ofNat 30 (if stat = 0 then new.length else 0)).toNat)]) e := by
  simp only [completeLockl, partw_quota, bne_iff_ne, beq_iff_eq]

/-- UNLOCKL ends the context's locks on the lines of its range at its level. -/
theorem completeUnlockl_eq (s : State) (tm : Team) (e : Outst) (o : F2) :
    let lines := lineRange (e.args.getD 0 0) (e.args.getD 1 0)
    let goes (l : LineLock) : Bool := l.asid == (s.ctx tm.ctx).asid && l.ctx == tm.ctx && lines.contains l.line
    let count (ls : List LineLock) := tm.writeRun o.d 1 (fun _ => true) [(0, (ls.filter goes).length % 2 ^ 30)]
    completeUnlockl s tm e o =
      if o.ext.sc = .core then
        (s.onCore tm.core fun k => { k with locks := k.locks.filter fun l => !goes l }).complete
          (count (s.core tm.core).locks) e
      else ({ s with locks2 := s.locks2.filter fun l => !(goes l.2 && l.1 == coreDie tm.core) } : State).complete
        (count ((s.locks2.filter (·.1 == coreDie tm.core)).map (·.2))) e := by
  intro lines goes count
  unfold completeUnlockl
  cases o.ext.sc <;> rfl

/-! ### Lines that leave, or are written back (R163) -/

/-- The locks on lines of any context of the ASID. -/
theorem lockCovered_any (c : Context) (tm : Team) (lines : List Nat) :
    lockCovered c tm true lines = fun l => l.asid == c.asid && lines.contains l.line := by
  funext l
  simp only [lockCovered, Bool.true_or, Bool.and_true]

/-- The locks that CINVAL ends: those on its lines of every context of the ASID, in its core and, at a wider scope, in its
die or in every die. -/
theorem State.unlock_ofScope (s : State) (tm : Team) (sc : Scope) (lines : List Nat) :
    let goes (l : LineLock) : Bool := l.asid == (s.ctx tm.ctx).asid && lines.contains l.line
    let s1 := s.onCore tm.core fun k => { k with locks := k.locks.filter fun l => !goes l }
    s.unlock tm true (sc != .core) (sc == .dev || sc == .sys) true lines =
      if sc = .core then s1
      else { s1 with locks2 := s1.locks2.filter fun l =>
        !(goes l.2 && (sc == .dev || sc == .sys || l.1 == coreDie tm.core)) } := by
  intro goes s1
  simp only [State.unlock, lockCovered_any, if_true]
  cases sc <;> rfl

/-- CINVAL ends locks, and the lines then leave every level it reaches. -/
theorem completeCinval_eq (s : State) (tm : Team) (e : Outst) (o : F2) :
    let p (l : Line) : Bool := l.asid == (s.ctx tm.ctx).asid && e.lines.contains l.line
    completeCinval s tm e o =
      ((((s.unlock tm true (o.ext.sc != .core) (o.ext.sc == .dev || o.ext.sc == .sys) true e.lines).dropDies
        (diesReached tm o.ext.sc) p).dropL1 tm.core p).dropPrefetch (·.core == tm.core)
        (s.ctx tm.ctx).asid e.lines.contains).complete (tm.dropPrefetch e.lines.contains) e := rfl

/-- Settles O15: each is performed as its own completion, and what that does is said once for each. -/
theorem scopedResidencyIsPerformed : Obligations.ScopedResidencyIsPerformed := by
  refine ⟨fun s t k tm e o h instr => ?lockl, fun s t k tm e o h instr => ?unlockl,
    fun s t k tm e o h instr keep => ?clean, fun s t k tm e o h instr inv => ?flush, fun s t k tm e o h instr => ?cinval, fun tm => ⟨rfl, rfl, rfl, rfl⟩⟩
  all_goals
    have performed := h.exec (by simp [instr])
    simp only [completeEntry, instr] at performed
    refine performed.trans ?_
  case lockl => rw [completeLockl_eq]
  case unlockl =>
    rw [completeUnlockl_eq, apply_ite Host.Outcome.next]
  case cinval => rw [completeCinval_eq, State.unlock_ofScope]
  case clean => rw [completeCflush, if_neg (by simpa using keep)]; rfl
  case flush => rw [completeCflush, if_pos (by simpa using inv)]; rfl

end Sys2Proof.Machine
end

section
/-! F2_COMPLETION of loads, stores, atomics and HACC. -/

namespace Sys2Proof.Machine

/-! ### Loads (R149) -/

section
variable {s : State} {tm : Team} {e : Outst} {o : F2}

/-- A load of which no lane meets an error writes its values, and acquires where it is an acquire. -/
theorem completeLoad_good {sx : Bool} (after : Team → Team) (good : LoadGood s tm e o sx) :
    completeLoad s tm e o sx after =
      ((loadsOf s tm e o sx).1.complete (after (loadedTeam s tm e o sx)) e).acquire tm (loadAcquire e.instr) := by
  simp only [LoadGood] at good
  simp only [completeLoad, good, laneTrap]

/-- A number's low bits as an integer of a signed type, in a wider word. -/
theorem wrap_intOf {ty : Ty} (signed : ty.isSigned = true) (w v : Nat) :
    wrap w (intOf ty v) = ((BitVec.ofNat ty.bits v).signExtend w).toNat := by
  have low : intOf ty v = intOf ty (BitVec.ofNat ty.bits v).toNat := by
    simp only [intOf, BitVec.toNat_ofNat, Nat.mod_mod]
  rw [wrap_eq, low, ofInt_intOf, if_pos signed]

/-- A loaded value is extended by its sign where it is 1 or 2 bytes and SX asks for it. -/
theorem loadExtend_eq (z : Nat) (sx : Bool) (v : Nat) :
    loadExtend z sx v =
      if sx = true ∧ z = 1 then ((BitVec.ofNat 8 v).signExtend 32).toNat
      else if sx = true ∧ z ≤ 2 then ((BitVec.ofNat 16 v).signExtend 32).toNat else v := by
  cases sx with
  | false => rfl
  | true =>
    by_cases one : z = 1
    · subst one
      exact wrap_intOf (ty := .s8) rfl 32 v
    · have notOne : (z == 1) = false := beq_eq_false_iff_ne.mpr one
      simp only [loadExtend, notOne, one, Bool.true_and, decide_eq_true_eq, true_and, Bool.false_eq_true, if_false]
      rw [wrap_intOf (ty := .s16) rfl]
      rfl

theorem loadLanes_cons {z l va : Nat} {scr sx : Bool} {rest : List (Nat × Nat)} :
    loadLanes tm e z scr sx ((l, va) :: rest) s =
      let r := s.tload tm e scr va z
      let more := loadLanes tm e z scr sx rest r.1
      (more.1, (l, loadExtend z sx (leNat r.2.1)) :: more.2.1, if r.2.2 then (l, va) :: more.2.2 else more.2.2) := rfl

/-! ### Atomics (R155, R156) -/

/-- An atomic none of whose lanes meets an error, and that awaits no remote step. -/
theorem completeAtomic_done {op : Nat} {ret : Bool} {s1 : State} {vals : List (Nat × Nat)}
    (lanes : atomicLanes tm e (szBytes o.ext.sz) op (szScratch o.ext.sz) e.addrs
      (s.release tm (atomicScope e.instr 1)) [] = (s1, vals, none)) (answered : s1.awaiting tm e = false) :
    completeAtomic s tm e o op ret =
      (s1.complete (if ret then tm.writeRun o.d o.run (fun _ => true) vals else tm) e).acquire tm
        (atomicScope e.instr 0) := by
  simp only [completeAtomic, lanes, answered, Bool.false_eq_true, if_false]

/-- The step of one lane of an atomic on memory of this device. -/
theorem atomicLanes_local {z op l va : Nat} {scr : Bool} {rest vals : List (Nat × Nat)} (here : LocalLane e scr va)
    (good : (s.aload tm e scr va z).2.2 = false) :
    let old := leNat (s.aload tm e scr va z).2.1
    let x := laneValue e.data l
    atomicLanes tm e z op scr ((l, va) :: rest) s vals = atomicLanes tm e z op scr rest
      ((s.aload tm e scr va z).1.astore tm e scr va
        (leBytes z (if op = 8 then (if old = laneValue e.datb l then x else old) else atomicNew op (8 * z) old x)))
      (vals ++ [(l, old)]) := by
  have nowhere : (if scr = true then none else peerOf e.outs va) = none := by
    rcases here with rfl | here
    · rfl
    · rw [here, ite_self]
  intro old x
  rw [atomicLanes]
  simp only [good, nowhere, beq_iff_eq, Bool.false_eq_true, if_false]
  rfl

/-- The smaller and the larger of two values of a signed type. -/
theorem wrap_min_max {ty : Ty} (signed : ty.isSigned = true) (a b : BitVec ty.bits) :
    wrap ty.bits (min (intOf ty a.toNat) (intOf ty b.toNat)) = (if a.slt b then a else b).toNat ∧
    wrap ty.bits (max (intOf ty a.toNat) (intOf ty b.toNat)) = (if a.slt b then b else a).toNat := by
  have order : a.slt b = true ↔ intOf ty a.toNat < intOf ty b.toNat := by
    simp only [intOf_toNat, signed, if_true, BitVec.slt, decide_eq_true_eq]
  by_cases less : a.slt b = true
  · have le := Int.le_of_lt (order.mp less)
    rw [if_pos less, if_pos less, Int.min_eq_left le, Int.max_eq_right le, wrap_eq, wrap_eq, ofInt_intOf_self,
      ofInt_intOf_self]
    exact ⟨rfl, rfl⟩
  · have le := Int.not_lt.mp (mt order.mpr less)
    rw [if_neg less, if_neg less, Int.min_eq_right le, Int.max_eq_left le, wrap_eq, wrap_eq, ofInt_intOf_self,
      ofInt_intOf_self]
    exact ⟨rfl, rfl⟩

/-- The value that each operation of an atomic leaves (R155). -/
theorem atomicNew_eq {w : Nat} (a b : BitVec w) (width : w = 32 ∨ w = 64) :
    atomicNew 0 w a.toNat b.toNat = (a + b).toNat ∧ atomicNew 1 w a.toNat b.toNat = (if a.slt b then a else b).toNat ∧
    atomicNew 2 w a.toNat b.toNat = (if a.slt b then b else a).toNat ∧
    atomicNew 3 w a.toNat b.toNat = min a.toNat b.toNat ∧ atomicNew 4 w a.toNat b.toNat = max a.toNat b.toNat ∧
    atomicNew 5 w a.toNat b.toNat = (a &&& b).toNat ∧ atomicNew 6 w a.toNat b.toNat = (a ||| b).toNat ∧
    atomicNew 7 w a.toNat b.toNat = b.toNat := by
  have signed : atomicNew 1 w a.toNat b.toNat = (if a.slt b then a else b).toNat ∧
      atomicNew 2 w a.toNat b.toNat = (if a.slt b then b else a).toNat := by
    rcases width with rfl | rfl
    · exact wrap_min_max (ty := .s32) rfl a b
    · exact wrap_min_max (ty := .s64) rfl a b
  obtain ⟨smaller, larger⟩ := signed
  exact ⟨(BitVec.toNat_add a b).symm, smaller, larger, rfl, rfl, (BitVec.toNat_and a b).symm,
    (BitVec.toNat_or a b).symm, rfl⟩

end

end Sys2Proof.Machine
end

section
/-! HACC: the slots that a lane probes, and the slot that it updates or fills. -/

namespace Sys2Proof.Machine

/-! ### Probing (R158) -/

/-- Slots that hold other keys are passed over. -/
theorem haccProbe_skip {rd : Nat → Nat} {slots rh k v : Nat} (j : Nat) (inside : j ≤ 8)
    (foreign : ∀ i, i < j → rd (8 * ((k + i) % slots)) ≠ k ∧ rd (8 * ((k + i) % slots)) ≠ 0xFFFFFFFF) :
    haccProbe rd slots rh k v 8 = haccProbe rd slots rh k v (8 - j) := by
  induction j with
  | zero => rfl
  | succ j ih =>
    obtain ⟨notKey, notEmpty⟩ := foreign j (Nat.lt_succ_self j)
    have here : 8 - j = (8 - (j + 1)) + 1 := by omega
    have place : 7 - (8 - (j + 1)) = j := by omega
    rw [ih (Nat.le_of_succ_le inside) fun i before => foreign i (Nat.lt_succ_of_lt before), here]
    simp only [haccProbe, place, beq_iff_eq, notKey, notEmpty, if_false]

/-- The first slot of the key is updated. -/
theorem haccProbe_updates {rd : Nat → Nat} {slots rh k v j : Nat} (inside : j < 8)
    (foreign : ∀ i, i < j → rd (8 * ((k + i) % slots)) ≠ k ∧ rd (8 * ((k + i) % slots)) ≠ 0xFFFFFFFF)
    (same : rd (8 * ((k + j) % slots)) = k) :
    haccProbe rd slots rh k v 8 =
      some ((k + j) % slots, k, haccOp rh (rd (8 * ((k + j) % slots) + 4)) v) := by
  have here : 8 - j = (7 - j) + 1 := by omega
  have place : 7 - (7 - j) = j := by omega
  rw [haccProbe_skip j (Nat.le_of_lt inside) foreign, here]
  simp only [haccProbe, place, beq_iff_eq, same, if_true]

/-- The first empty slot is filled. -/
theorem haccProbe_fills {rd : Nat → Nat} {slots rh k v j : Nat} (inside : j < 8)
    (foreign : ∀ i, i < j → rd (8 * ((k + i) % slots)) ≠ k ∧ rd (8 * ((k + i) % slots)) ≠ 0xFFFFFFFF)
    (empty : rd (8 * ((k + j) % slots)) = 0xFFFFFFFF) (key : k < 0xFFFFFFFF) :
    haccProbe rd slots rh k v 8 = some ((k + j) % slots, k, v) := by
  have here : 8 - j = (7 - j) + 1 := by omega
  have place : 7 - (7 - j) = j := by omega
  rw [haccProbe_skip j (Nat.le_of_lt inside) foreign, here]
  simp only [haccProbe, place, beq_iff_eq, empty, Nat.ne_of_gt key, if_false, if_true]

/-! ### One lane -/

section
variable {s : State} {tm : Team} {e : Outst} {o : F2} {l base : Nat} {rest : List (Nat × Nat)} {placed : List Nat}

/-- The word of the table at an offset, as a lane reads it. -/
def haccWord (s : State) (tm : Team) (e : Outst) (o : F2) (base off : Nat) : Nat :=
  leNat (s.aread tm e (szScratch o.ext.sz) (base + off) 4)

/-- The offset of the slot that a key probes in its i-th place. -/
def haccPlace (o : F2) (k i : Nat) : Nat := 8 * ((k + i) % haccSlots o)

/-- The slot meets an uncorrectable error. -/
def haccBad (s : State) (tm : Team) (e : Outst) (o : F2) (base k i : Nat) : Bool :=
  s.abad tm e (szScratch o.ext.sz) (base + haccPlace o k i) 8

/-- A slot that a lane passes over: it can be read, and holds another key. -/
def HaccForeign (s : State) (tm : Team) (e : Outst) (o : F2) (base k i : Nat) : Prop :=
  haccBad s tm e o base k i = false ∧ haccWord s tm e o base (haccPlace o k i) ≠ k ∧
    haccWord s tm e o base (haccPlace o k i) ≠ 0xFFFFFFFF

/-- After a lane has read its first n slots in scratch, its team reads nothing older there (R223). -/
def haccSeen (s : State) (tm : Team) (o : F2) (base k n : Nat) : State :=
  if szScratch o.ext.sz = true then s.onCast tm.cast fun c => c.caughtUp tm.id fun x =>
    (List.range n).any fun i => overlaps (base + haccPlace o k i) 8 x.off x.old.length
  else s

/-- A lane with the reserved key is not placed, and ends the instruction. -/
theorem haccLanes_reserved (key : laneValue e.data l = 0xFFFFFFFF) :
    haccLanes tm e o ((l, base) :: rest) s placed = (s, placed, none) := by
  simp only [laneValue] at key
  simp only [haccLanes, key, bne_self_eq_false, Bool.and_false, Bool.false_and, Bool.false_eq_true, if_false,
    BEq.rfl, if_true]

/-- A lane stops at the first slot that meets an error, holds its key or is empty. -/
def haccStop (s : State) (tm : Team) (e : Outst) (o : F2) (base k : Nat) : Option Nat :=
  (List.range 8).find? fun i => haccBad s tm e o base k i || haccWord s tm e o base (haccPlace o k i) == k ||
    haccWord s tm e o base (haccPlace o k i) == 0xFFFFFFFF

/-- A lane that meets no error updates or fills the slot that its probes find, or ends the instruction. -/
theorem haccLanes_probed {stop : Option Nat} (key : laneValue e.data l < 0xFFFFFFFF)
    (stops : haccStop s tm e o base (laneValue e.data l) = stop)
    (good : stop.any (haccBad s tm e o base (laneValue e.data l)) = false) :
    haccLanes tm e o ((l, base) :: rest) s placed =
      let s0 := haccSeen s tm o base (laneValue e.data l) (stop.elim 8 (· + 1))
      match haccProbe (haccWord s tm e o base) (haccSlots o) o.ext.rh.toNat (laneValue e.data l)
        (laneValue e.datb l) 8 with
      | some (sl, k, x) => haccLanes tm e o rest ((s0.aload tm e (szScratch o.ext.sz) (base + 8 * sl) 8).1.astore tm e
          (szScratch o.ext.sz) (base + 8 * sl) (leBytes 4 k ++ leBytes 4 x)) (placed ++ [l])
      | none => (s0, placed, none) := by
  subst stops
  have word : laneValue e.data l % 2 ^ 32 = laneValue e.data l := Nat.mod_eq_of_lt (by omega)
  have notReserved : (laneValue e.data l == 0xFFFFFFFF) = false := by simpa using Nat.ne_of_lt key
  rw [haccLanes]
  change (if ((laneValue e.data l != 0xFFFFFFFF) && (haccStop s tm e o base (laneValue e.data l)).any
    (haccBad s tm e o base (laneValue e.data l))) = true then _ else _) = _
  rw [good, Bool.and_false, if_neg Bool.false_ne_true]
  simp only [bne, notReserved, Bool.not_false, Bool.and_true, Bool.false_eq_true, if_false, word]
  rfl

theorem HaccForeign.passed {k i : Nat} (h : HaccForeign s tm e o base k i) :
    (!(haccBad s tm e o base k i || haccWord s tm e o base (haccPlace o k i) == k ||
      haccWord s tm e o base (haccPlace o k i) == 0xFFFFFFFF)) = true := by
  obtain ⟨good, notKey, notEmpty⟩ := h
  simp only [good, beq_eq_false_iff_ne.mpr notKey, beq_eq_false_iff_ne.mpr notEmpty, Bool.or_false, Bool.not_false]

theorem haccStop_eq_some {k j : Nat} (inside : j < 8) (foreign : ∀ i, i < j → HaccForeign s tm e o base k i)
    (stops : haccWord s tm e o base (haccPlace o k j) = k ∨ haccWord s tm e o base (haccPlace o k j) = 0xFFFFFFFF) :
    haccStop s tm e o base k = some j := by
  refine List.find?_range_eq_some.mpr ⟨?_, List.mem_range.mpr inside, fun i before => (foreign i before).passed⟩
  rcases stops with stops | stops <;> simp [stops]

theorem haccStop_eq_none {k : Nat} (foreign : ∀ i, i < 8 → HaccForeign s tm e o base k i) :
    haccStop s tm e o base k = none :=
  List.find?_range_eq_none.mpr fun i before => (foreign i before).passed

/-- A lane whose first slot of its key or empty one is the j-th it probes writes there: the operation's value, or its
own. -/
theorem haccLanes_placed {j : Nat} (key : laneValue e.data l < 0xFFFFFFFF) (inside : j < 8)
    (foreign : ∀ i, i < j → HaccForeign s tm e o base (laneValue e.data l) i)
    (good : haccBad s tm e o base (laneValue e.data l) j = false) :
    let at' := haccPlace o (laneValue e.data l) j
    let s0 := haccSeen s tm o base (laneValue e.data l) (j + 1)
    let puts (x : Nat) := haccLanes tm e o rest ((s0.aload tm e (szScratch o.ext.sz) (base + at') 8).1.astore tm e
      (szScratch o.ext.sz) (base + at') (leBytes 4 (laneValue e.data l) ++ leBytes 4 x)) (placed ++ [l])
    (haccWord s tm e o base at' = laneValue e.data l → haccLanes tm e o ((l, base) :: rest) s placed =
      puts (haccOp o.ext.rh.toNat (haccWord s tm e o base (at' + 4)) (laneValue e.datb l))) ∧
    (haccWord s tm e o base at' = 0xFFFFFFFF →
      haccLanes tm e o ((l, base) :: rest) s placed = puts (laneValue e.datb l)) := by
  intro at' s0 puts
  have others : ∀ i, i < j → haccWord s tm e o base (haccPlace o (laneValue e.data l) i) ≠ laneValue e.data l ∧
      haccWord s tm e o base (haccPlace o (laneValue e.data l) i) ≠ 0xFFFFFFFF := fun i before => (foreign i before).2
  constructor
  · intro same
    rw [haccLanes_probed key (haccStop_eq_some inside foreign (.inl same)) good, haccProbe_updates inside others same]
    rfl
  · intro empty
    rw [haccLanes_probed key (haccStop_eq_some inside foreign (.inr empty)) good, haccProbe_fills inside others empty key]
    rfl

/-- A lane all of whose slots hold other keys is not placed, and ends the instruction. -/
theorem haccLanes_foreign (key : laneValue e.data l < 0xFFFFFFFF)
    (foreign : ∀ i, i < 8 → HaccForeign s tm e o base (laneValue e.data l) i) :
    haccLanes tm e o ((l, base) :: rest) s placed = (haccSeen s tm o base (laneValue e.data l) 8, placed, none) := by
  have others : ∀ i, i < 8 → haccWord s tm e o base (haccPlace o (laneValue e.data l) i) ≠ laneValue e.data l ∧
      haccWord s tm e o base (haccPlace o (laneValue e.data l) i) ≠ 0xFFFFFFFF := fun i before => (foreign i before).2
  have probe := haccProbe_skip (rh := o.ext.rh.toNat) (v := laneValue e.datb l) 8 (Nat.le_refl 8) others
  rw [haccLanes_probed key (haccStop_eq_none foreign) rfl, probe]
  rfl

end

/-- The operations of HACC on the value of its slot (R158). -/
theorem haccOp_eq (a b : Word) : haccOp 0 a.toNat b.toNat = (a + b).toNat ∧
    haccOp 1 a.toNat b.toNat = max a.toNat b.toNat ∧
    haccOp 2 a.toNat b.toNat = (Fmt.f32.add .rne 0 (dec32 a.toNat) (dec32 b.toNat)).1 :=
  ⟨(BitVec.toNat_add a b).symm, rfl, rfl⟩

/-- HACC of which no lane meets an error writes which lanes were placed. -/
theorem completeHacc_done {s s1 : State} {tm : Team} {e : Outst} {o : F2} {placed : List Nat}
    (lanes : haccLanes tm e o e.addrs s [] = (s1, placed, none)) :
    completeHacc s tm e o = s1.complete
      (tm.writeP o.ext.fn.toNat e.act (maskOf tm.n fun l => placed.contains l || e.args.contains l)) e := by
  simp only [completeHacc, lanes]

/-! ### What is performed -/

section
variable {s : State} {tm : Team} {e : Outst} {o : F2}

theorem completeEntry_store (instr : e.instr = .st o ∨ (e.instr = .scatr o ∧ o.ext.fn ≠ 1)) :
    completeEntry s tm e = completeStore s tm e o := by
  rcases instr with instr | ⟨instr, plain⟩
  · simp only [completeEntry, instr]
  · simp only [completeEntry, instr, bne_iff_ne.mpr plain, if_true]

theorem completeEntry_atomic {op : Nat} {ret : Bool}
    (instr : (e.instr = .atom o ∧ op = o.ext.fn.toNat ∧ ret = true) ∨
      (e.instr = .atomn o ∧ op = o.ext.fn.toNat ∧ ret = false) ∨ (e.instr = .cas o ∧ op = 8 ∧ ret = true) ∨
      (e.instr = .scatr o ∧ o.ext.fn = 1 ∧ op = 0 ∧ ret = false)) :
    completeEntry s tm e = completeAtomic s tm e o op ret := by
  rcases instr with ⟨instr, rfl, rfl⟩ | ⟨instr, rfl, rfl⟩ | ⟨instr, rfl, rfl⟩ | ⟨instr, add, rfl, rfl⟩
  · simp only [completeEntry, instr]
  · simp only [completeEntry, instr]
  · simp only [completeEntry, instr]
  · simp only [completeEntry, instr, add, bne_self_eq_false, Bool.false_eq_true, if_false]

end

/-- Settles O13: the completion of each instruction, then what one lane of it does. -/
theorem memoryAccessesArePerformed : Obligations.MemoryAccessesArePerformed := by
  refine ⟨fun s t k tm e o h instr good => ?ld, fun s t k tm e o h instr good => ?lda,
    fun s t k tm e o h instr good => ?gather, fun t e z scr sx l va rest s => ?lane, fun s t k tm e o h instr => ?store,
    fun s t k tm e o op ret s1 vals h instr lanes answered => ?atomic,
    fun t e z op scr l va rest s vals here good => atomicLanes_local here good,
    fun w a b width => atomicNew_eq a b width,
    fun s t k tm e o s1 placed h instr here lanes => ?hacc, fun t e o l base rest s placed j => ?placed,
    fun t e o l base rest s placed =>
      ⟨fun key => haccLanes_reserved key, fun key foreign => haccLanes_foreign key foreign⟩,
    haccOp_eq⟩
  case ld | lda | gather =>
    refine (h.exec (by simp [instr])).trans ?_
    simp only [completeEntry, instr, completeLoad_good _ good, loadAcquire]
    rfl
  case lane => simp only [loadLanes_cons, loadExtend_eq]
  case store =>
    have noQuery : ∀ o, e.instr ≠ .qsrch o := by rcases instr with instr | ⟨instr, -⟩ <;> simp [instr]
    rw [h.exec noQuery, completeEntry_store instr]
    rfl
  case atomic =>
    have noQuery : ∀ o, e.instr ≠ .qsrch o := by
      rcases instr with ⟨instr, -⟩ | ⟨instr, -⟩ | ⟨instr, -⟩ | ⟨instr, -⟩ <;> simp [instr]
    rw [h.exec noQuery, completeEntry_atomic instr, completeAtomic_done lanes answered]
  case hacc =>
    refine (h.exec (by simp [instr])).trans ?_
    simp only [completeEntry, instr, here, completeHacc_done lanes, Bool.false_eq_true, if_false]
  case placed => exact fun key inside foreign good => haccLanes_placed key inside foreign good

end Sys2Proof.Machine
end

section
/-! What a performed store changes: where the scratch of its cast is no canonical memory, more than its bytes. -/

namespace Sys2Proof.Machine

/-- An access that has completed before is performed when no order and no answer holds it back (R70). -/
theorem exec_f2Completion_posted {s : State} {t k : Nat} {tm : Team} {e : Outst} (posted : s.posted? t k = some (tm, e))
    (order : tm.inOrder e = true) (answered : s.awaiting tm e = false) :
    exec (.f2Completion t k) s = .next (s.perform tm e) := by
  change execF2Completion t k s = _
  simp only [execF2Completion, posted, order, answered, Bool.not_false, Bool.and_true, if_true]

/-- A cast whose scratch lists its cells in falling order, so that it is not canonical: the cell of byte 3 stands behind
that of byte 200, and is not reached. -/
def unsortedCast : Cast :=
  { id := launchedTeam.cast, core := 0, number := 0, grid := 0, index := 0, size := 1024, nb := 0, bars := [],
    mcbase := 0, mctx := none, scratch := [(200, 1), (3, 2)], bad := [], live := 1, order := 0 }

/-- ST of one byte in its scratch form. -/
def scratchStore : F2 :=
  { l := 0, tk := 0, d := .zero, a := .zero, x := some { b := .zero, sz := 8, sc := .none, rh := 0, fn := 0, imm := 0 } }

/-- It stores a zero at byte 200, in one lane, and has completed. -/
def zeroAt200 : Outst :=
  { pos := 1, clause := 0, instr := .st scratchStore, l := 0, tk := 0, act := 1, addrs := [(0, 200)], data := [(0, 0)],
    datb := [], args := [], block := [], needs := [], outs := [], fail := none, seq := 9, since := 0, taken := false }

def storingTeam : Team := { launchedTeam with posted := [zeroAt200] }

def unsortedState : State := { State.reset with casts := [unsortedCast], teams := [storingTeam] }

/-- Refutes O55: for a store to scratch it asks for no canonical memory. The zero at byte 200 takes the cell of that byte
off the list (an unlisted byte reads zero, log 1), and byte 3, which no lane stores to, then reads 2 in place of 0. -/
theorem not_storesChangeOnlyTheirBytes : ¬ Obligations.StoresChangeOnlyTheirBytes := by
  rintro ⟨frame, -⟩
  have posted : unsortedState.posted? storingTeam.id 9 = some (storingTeam, zeroAt200) := by decide +kernel
  have run := exec_f2Completion_posted posted (by decide +kernel) (by decide +kernel)
  obtain ⟨inScratch, -⟩ := frame _ _ _ _ _ scratchStore _ (.inl posted) (.inl rfl) run
  obtain ⟨-, -, -, kept⟩ := inScratch (by decide)
  have other : unsortedState.scratchByte unsortedCast.id 3 = some 0 := by decide +kernel
  have changed : (unsortedState.perform storingTeam zeroAt200).scratchByte unsortedCast.id 3 = some 2 := by decide +kernel
  have same := kept unsortedCast.id 3 (.inr (by decide))
  rw [changed, other] at same
  exact absurd same (by decide)

end Sys2Proof.Machine
end

section
/-! Class 3 at issue, acceptance and the command queue, and what a step of the matrix engine answers where its context has
the turn and its data is good. -/

namespace Sys2Proof.Machine

/-! ### Issue (R165, R167) -/

/-- A class 3 instruction that issues is illegal, takes the first trap of R167, or becomes outstanding. -/
theorem CommandIssues.of_issueMat {i : Instr} {o : F2} (he : ∀ s, exec i s = issueMat i o s) : CommandIssues i o := by
  intro s t c h
  rw [he, issueMat]
  by_cases illegal : matIllegal i s t = true
  · rw [if_pos illegal]
    exact issue_pre h (if_pos illegal)
  · rw [if_neg illegal]
    cases trap : matTrap i s t with
    | some tr => exact issue_post h (if_neg illegal) trap
    | none => exact issue_next h (if_neg illegal) trap

/-- Settles O22: the sixteen instructions are one operation. -/
theorem matrixAndAttentionCommandsIssue : Obligations.MatrixAndAttentionCommandsIssue :=
  ⟨fun _ => .of_issueMat fun _ => rfl, fun _ => .of_issueMat fun _ => rfl, fun _ => .of_issueMat fun _ => rfl,
    fun _ => .of_issueMat fun _ => rfl, fun _ => .of_issueMat fun _ => rfl, fun _ => .of_issueMat fun _ => rfl,
    fun _ => .of_issueMat fun _ => rfl, fun _ => .of_issueMat fun _ => rfl, fun _ => .of_issueMat fun _ => rfl,
    fun _ => .of_issueMat fun _ => rfl, fun _ => .of_issueMat fun _ => rfl, fun _ => .of_issueMat fun _ => rfl,
    fun _ => .of_issueMat fun _ => rfl, fun _ => .of_issueMat fun _ => rfl, fun _ => .of_issueMat fun _ => rfl,
    fun _ => .of_issueMat fun _ => rfl⟩

/-! ### A step of the engine (R166, R178, R295) -/

/-- In its context's turn the engine performs its step on the command at the head, and has then served the context. -/
theorem engineStep_eq {s : State} {core m : Nat} {c : Command} {can : Instr → Bool} {f : State → Command → State}
    {s' : State} (h : AtHead s core m c) (named : can c.instr = true) (steps : f s c = s') :
    engineStep s core m can f = .next (s'.turned core m) := by
  subst steps
  obtain ⟨runs, unfinished, turn⟩ := h
  simp only [engineStep, runs, named, unfinished, turn, Bool.not_true, Bool.false_eq_true, if_false]

section
variable {s : State} {core m : Nat} {c : Command}

/-- An access whose granules are all mapped goes on with their translations. -/
theorem State.engAllowed_eq {rs : List (Mode × Nat × Nat)} {k : List (Nat × Xlat) → State}
    (mapped : s.engChecks (s.ctx c.ctx) rs = none) :
    s.engAllowed core m c rs k = k (s.engOuts (s.ctx c.ctx) rs) := by
  simp only [State.engAllowed, mapped]

/-- An access that reaches all it reads and writes goes on from the state that it leaves. -/
theorem EngineReaches.engAccess {rds wrs dev : List (Nat × Nat)} {k : State → List (Nat × Xlat) → State}
    (h : EngineReaches s core c rds wrs dev) :
    s.engAccess core m c rds wrs k dev = k (engineTouched s core c rds wrs dev) (engineOuts s core c rds wrs dev) := by
  obtain ⟨mapped, good⟩ := h
  rw [State.engAccess, State.engAllowed_eq mapped]
  exact if_neg (Bool.eq_false_iff.mp good)

end

/-! ### Acceptance, resumption and reads of tiles (R166, R168, R176, R181) -/

/-- Settles O23: acceptance by what it finds, the resumption, WBDROP in its turn, and the two reads. -/
theorem commandsAcceptedResumedAndRead : Obligations.CommandsAcceptedResumedAndRead := by
  refine ⟨fun s t k tm e m c rs entry owner offered order first answered taken => ?take,
    fun s t k tm e m tr kvr wsr entry owner offered order first answered failed => ?fail,
    fun s core m c rest queue suspended cleared alive => ?resume, fun s core m c o head instr => ?wbdrop,
    fun s t k tm e o m c h instr owner runs own turn => ?accrd, fun s t k tm e o m c h instr owner runs own turn => ?accrdSt⟩
  case take =>
    intro adds room ranges free
    change execCommandAcceptance t k s = _
    simp only [execCommandAcceptance, entry, owner, offered, order, first, answered, taken]
    refine (if_neg Bool.false_ne_true).trans (if_neg ?_)
    simp only [Bool.or_eq_true, decide_eq_true_eq, Bool.not_eq_true', not_or]
    exact ⟨⟨Nat.not_le.mpr room, Bool.not_eq_false _ ▸ ranges⟩, Bool.eq_false_iff.mp free⟩
  case fail =>
    change execCommandAcceptance t k s = _
    simp only [execCommandAcceptance, entry, owner, offered, order, first, answered, failed]
    rfl
  case resume =>
    change execCommandResume core m s = _
    simp only [execCommandResume, queue, suspended, cleared, alive, Bool.and_self, if_true]
  case wbdrop =>
    change execWbdropExecute core m s = _
    exact engineStep_eq head (by rw [instr]; rfl) rfl
  case accrd | accrdSt =>
    rw [h.exec (by simp [instr])]
    simp only [completeEntry, instr, completeAccrd, owner, runs, own, turn, bne_self_eq_false, Bool.not_true, Bool.or_self,
      Bool.false_eq_true, if_false]

end Sys2Proof.Machine
end

section
/-! The matrix engine: weight streams, k-steps of products, tile images and drains, in the turn of their context and with
their data good. -/

namespace Sys2Proof.Machine

/-! ### Ranges whose granules are all mapped (R263, R273) -/

/-- No outcome is refused where each is a mapping. -/
theorem isMapped_of_firstBad {outs : List (Nat × Xlat)} (noRefusal : firstBad outs = none) {x : Nat × Xlat} (mem : x ∈ outs) :
    x.2.isMapped = true := by
  simp only [firstBad, Option.or_eq_none_iff, List.find?_eq_none] at noRefusal
  obtain ⟨-, -, -, -, mapped⟩ := noRefusal
  simpa using mapped x mem

theorem State.engChecks_cons (s : State) (c : Context) (m : Mode) (va n : Nat) (rs : List (Mode × Nat × Nat)) :
    s.engChecks c ((m, va, n) :: rs) = none ↔ s.engCheck c m va n = none ∧ s.engChecks c rs = none := by
  simp [State.engChecks]

/-- A granule of a range in which every translation is a mapping has one. -/
theorem State.lookupX_xlatRange {s : State} {c : Context} {m : Mode} {va n g : Nat} (mapped : s.engCheck c m va n = none)
    (mem : g ∈ granules va n) : ∃ x, lookupX (s.xlatRange c m va n) g = some x ∧ x.isMapped = true := by
  have all := Option.map_eq_none_iff.mp mapped
  have here : ((s.xlatRange c m va n).filter (·.1 == g)) ≠ [] := by
    rw [Ne, List.filter_eq_nil_iff]
    intro h
    exact h _ (List.mem_map_of_mem mem) (by simp)
  refine ⟨_, by rw [lookupX, List.getLast?_eq_some_getLast here, Option.map_some], ?_⟩
  exact isMapped_of_firstBad all (List.mem_filter.mp (List.getLast_mem here)).1

/-- The engine finds every granule of such a range mapped, up to its end. -/
theorem State.takeWhile_mapped {s : State} {c : Context} {m : Mode} {va n : Nat} (mapped : s.engCheck c m va n = none) :
    ((granules va n).takeWhile fun g => (lookupX (s.xlatRange c m va n) g).elim false Xlat.isMapped) = granules va n := by
  have all (g : Nat) (mem : g ∈ granules va n) :
      (lookupX (s.xlatRange c m va n) g).elim false Xlat.isMapped = true := by
    obtain ⟨x, found, good⟩ := s.lookupX_xlatRange mapped mem
    rw [found]
    exact good
  have whole := List.takeWhile_append_of_pos (l₂ := []) all
  rwa [List.append_nil, List.takeWhile_nil, List.append_nil] at whole

/-- The granules of a range reach its end. -/
theorem granules_cover (va n : Nat) : min n ((granule va + (granules va n).length) * 65536 - va) = n := by
  unfold granules granule
  split
  · next h => simp only [beq_iff_eq] at h; omega
  · next h =>
    simp only [beq_iff_eq] at h
    simp only [List.length_map, List.length_range]
    omega

/-! ### Weights (R173, R175) -/

section
variable {s : State} {core m : Nat} {c : Command} {o : F2}

/-- A stream in scratch is decoded as it stands there. -/
theorem execWbloadDecode_scratch (head : AtHead s core m c) (instr : c.instr = .wbload o) (inScratch : szScratch o.ext.sz = true)
    (good : s.mscrBad core m [(c.args.getD 0 0, streamLen c.block)] = false) :
    execWbloadDecode core m s = .next ((s.weightLoaded core m c (F2.wentry o) (streamDecode
      (c.block ++ (s.mscr core m (c.args.getD 0 0) (streamLen c.block)).drop 64) (streamLen c.block))).turned core m) := by
  refine engineStep_eq head (by rw [instr]; rfl) ?_
  simp only [instr, inScratch, good, Bool.false_eq_true, if_true, if_false]

/-- A stream in memory that is all mapped is decoded from the bytes kept and those that follow them. -/
theorem execWbloadDecode_memory (head : AtHead s core m c) (instr : c.instr = .wbload o)
    (inMemory : szScratch o.ext.sz = false) :
    let rds := [(c.args.getD 0 0 + c.block.length, streamLen c.block - c.block.length)]
    EngineReaches s core c rds [] →
    let s0 := engineTouched s core c rds []
    let st := c.block ++ s0.vread (engineOuts s core c rds []) (c.args.getD 0 0 + c.block.length)
      (streamLen c.block - c.block.length)
    (∀ n, streamDecode st st.length ≠ .short n) → execWbloadDecode core m s =
      .next ((s0.weightLoaded core m c (F2.wentry o) (streamDecode st st.length)).turned core m) := by
  intro rds reaches s0 st whole
  obtain ⟨mapped, good⟩ := reaches
  have mapped' := ((s.engChecks_cons _ _ _ _ _).mp mapped).1
  have outs : engineOuts s core c rds [] = s.xlatRange (s.ctx c.ctx) (engMode (coreDie core) c.world true false)
      (c.args.getD 0 0 + c.block.length) (streamLen c.block - c.block.length) := List.append_nil _
  simp only [rds, List.append_nil, List.any_cons, List.any_nil, Bool.or_false] at good
  refine engineStep_eq head (by rw [instr]; rfl) ?_
  simp only [instr, inMemory, Bool.false_eq_true, if_false, State.takeWhile_mapped mapped', granules_cover]
  have touched : engineTouched s core c rds [] = s.engTouch (s.ctx c.ctx) [(engMode (coreDie core) c.world true false,
      c.args.getD 0 0 + c.block.length, streamLen c.block - c.block.length)] := rfl
  rw [← outs, ← touched, if_neg (Bool.eq_false_iff.mp good)]
  split
  · next short => exact absurd short (whole _)
  · rfl

end

/-! ### Products (R177, R178) -/

/-- The bytes of A that k-step `j` reads from scratch. -/
def readsOfA (d : Matd) (j : Nat) : List (Nat × Nat) :=
  (panelReads d.afmt d.ase8 d.m (min 64 (d.k - 64 * j))).map fun r =>
    (d.aoff + j * panelStride d.afmt d.ase8 + r.1, r.2)

/-- The bytes of a panel of B that it reads from address `x`. -/
def readsOfB (d : Matd) (bfmt : Nat) (bse8 : Bool) (j x : Nat) : List (Nat × Nat) :=
  (panelReads bfmt bse8 d.n (min 64 (d.k - 64 * j))).map fun r => (x + r.1, r.2)

/-- A panel of B as read from memory: the bytes of its reads, zeros between them. -/
def panelFrom (s : State) (outs : List (Nat × Xlat)) (d : Matd) (bfmt : Nat) (bse8 : Bool) (j x : Nat) : List Byte :=
  (panelReads bfmt bse8 d.n (min 64 (d.k - 64 * j))).foldl
    (fun bs r => bs.take r.1 ++ s.vread outs (x + r.1) r.2 ++ bs.drop (r.1 + r.2))
    (List.replicate (panelBytes bfmt bse8) 0)

section
variable {s : State} {core m : Nat} {c : Command} {o : F2} {d : Matd} {bfmt : Nat} {bse8 : Bool}

/-- The reads of a range of memory, or of none, go on from the state that they leave. -/
theorem EngineReaches.engAccess_or_none {rds : List (Nat × Nat)} {k : State → List (Nat × Xlat) → State}
    (h : EngineReaches s core c rds []) :
    (if rds.isEmpty then k s [] else s.engAccess core m c rds [] k)
      = k (engineTouched s core c rds []) (engineOuts s core c rds []) := by
  cases rds with
  | nil => rfl
  | cons r rds => exact h.engAccess

/-! A k-step by where its panel of B comes from: the held entry, scratch, or memory. -/

theorem kStep_held {bs : List Byte} (good : s.mscrBad core m (readsOfA d c.prog) = false) :
    kStep s core m c o d bfmt bse8 (.held bs) = stepped s core m c o d (productStep s core m o d bfmt bse8 c.prog
      ((bs.drop (c.prog * panelStride bfmt bse8)).take (panelBytes bfmt bse8))) := by
  unfold kStep
  simp only [List.append_nil, List.isEmpty_nil, if_true]
  exact (if_neg (Bool.eq_false_iff.mp good)).trans (by simp only [stepped, productStep])

theorem kStep_scratch {x : Nat} (good : s.mscrBad core m (readsOfA d c.prog ++ readsOfB d bfmt bse8 c.prog x) = false) :
    kStep s core m c o d bfmt bse8 (.scratch x) = stepped s core m c o d (productStep s core m o d bfmt bse8 c.prog
      (s.mscr core m x (panelBytes bfmt bse8))) := by
  unfold kStep
  simp only [List.isEmpty_nil, if_true]
  exact (if_neg (Bool.eq_false_iff.mp good)).trans (by simp only [stepped, productStep])

theorem kStep_virt {x : Nat} (reaches : EngineReaches s core c (readsOfB d bfmt bse8 c.prog x) []) :
    let s0 := engineTouched s core c (readsOfB d bfmt bse8 c.prog x) []
    s0.mscrBad core m (readsOfA d c.prog) = false →
    kStep s core m c o d bfmt bse8 (.virt x) = stepped s0 core m c o d (productStep s0 core m o d bfmt bse8 c.prog
      (panelFrom s0 (engineOuts s core c (readsOfB d bfmt bse8 c.prog x) []) d bfmt bse8 c.prog x)) := by
  intro s0 good
  unfold kStep
  simp only [List.append_nil]
  refine reaches.engAccess_or_none.trans ?_
  exact (if_neg (Bool.eq_false_iff.mp good)).trans (by simp only [stepped, productStep, panelFrom, s0])

end

/-! ### Drains (R180) -/

section
variable {s : State} {core m : Nat} {c : Command} {o : F2}

/-- A drain into scratch that reads no bad block. -/
theorem execAccdrDrain_scratch {r : List Byte × Word} (head : AtHead s core m c) (instr : c.instr = .accdr o)
    (inScratch : szScratch o.ext.sz = true) (good : s.mscrBad core m [(c.args.getD 0 0, 16384)] = false)
    (drained : drainImage (s.tile core m (F2.tile o)) (s.mscr core m (c.args.getD 0 0) 16384) = r) :
    execAccdrDrain core m s = .next (((((s.mscrWrite core m (c.args.getD 0 0) r.1).setTile core m (F2.tile o) []).raiseMstat
      core m r.2).endCommand core m c).turned core m) := by
  refine engineStep_eq head (by rw [instr]; rfl) ?_
  simp only [instr, inScratch, good, if_true, Bool.false_eq_true, if_false, drained]

/-- A drain into memory whose granules are all mapped, and that reads no bad burst. -/
theorem execAccdrDrain_memory {rs : List (Nat × Nat)} {x : State × List Byte × Bool} {r : List Byte × Word}
    (head : AtHead s core m c) (instr : c.instr = .accdr o) (inMemory : szScratch o.ext.sz = false)
    (range : [(c.args.getD 0 0, 16384)] = rs) (mapped : s.engChecks (s.ctx c.ctx) (c.ranges core rs [] rs) = none)
    (read : (s.engWalk (s.ctx c.ctx) (c.ranges core rs [] rs)).teamRead core (s.engOuts (s.ctx c.ctx) (c.ranges core rs [] rs))
      (c.args.getD 0 0) 16384 (placeOf o.ext.sc false) = x) (good : x.2.2 = false)
    (drained : drainImage (s.tile core m (F2.tile o)) x.2.1 = r) :
    execAccdrDrain core m s = .next (((((x.1.engWrite (c.engine core m) (engineOuts s core c rs rs) (c.args.getD 0 0)
      r.1).setTile core m (F2.tile o) []).raiseMstat core m r.2).endCommand core m c).turned core m) := by
  refine engineStep_eq head (by rw [instr]; rfl) ?_
  simp only [instr, inMemory, Bool.false_eq_true, if_false, range, State.engAllowed_eq mapped, read, good, drained]

end

/-- Settles O24: each row is the step of its instruction on the command at the head, with its accesses all good. -/
theorem matrixEngineRowsComplete : Obligations.MatrixEngineRowsComplete := by
  refine ⟨fun s core m c o head instr here => ?wbloadScratch, fun s core m c o head instr here => ?wbloadMemory,
    fun _ _ _ _ _ _ => rfl, fun _ _ _ _ _ _ => rfl, fun s core m c o head instr => ?mma,
    fun s core m c o head instr here => ?mmasScratch, fun s core m c o head instr here => ?mmasMemory,
    fun s core m c o head instr => ?accz, fun s core m c o head instr here => ?accldScratch,
    fun s core m c o head instr here => ?accldMemory, fun s core m c o head instr here => ?accstScratch,
    fun s core m c o head instr here => ?accstMemory, fun s core m c o head instr here => ?accdrScratch,
    fun s core m c o head instr here => ?accdrMemory⟩
  case wbloadScratch => exact fun good => execWbloadDecode_scratch head instr here good
  case wbloadMemory => exact execWbloadDecode_memory head instr here
  case mma =>
    intro d areads good
    change execMmaKStep core m s = _
    refine engineStep_eq head (by rw [instr]; rfl) ?_
    simp only [instr]
    exact kStep_held good
  case mmasScratch =>
    intro d kk x areads good
    change execMmaKStep core m s = _
    refine engineStep_eq head (by rw [instr]; rfl) ?_
    simp only [instr, here, if_true]
    exact kStep_scratch good
  case mmasMemory =>
    intro d kk x areads breads rds s0 reaches good pb
    change execMmaKStep core m s = _
    refine engineStep_eq head (by rw [instr]; rfl) ?_
    simp only [instr, here, Bool.false_eq_true, if_false]
    exact kStep_virt reaches good
  case accz =>
    change execTileImageOperation core m s = _
    refine engineStep_eq head (by rw [instr]; rfl) ?_
    simp only [instr]
  case accldScratch =>
    intro n good r
    change execTileImageOperation core m s = _
    refine engineStep_eq head (by rw [instr]; rfl) ?_
    simp only [instr, here, if_true]
    exact if_neg (Bool.eq_false_iff.mp good)
  case accldMemory =>
    intro a n reaches s0 r
    change execTileImageOperation core m s = _
    refine engineStep_eq head (by rw [instr]; rfl) ?_
    simp only [instr, here, Bool.false_eq_true, if_false]
    exact reaches.engAccess
  case accstScratch =>
    change execTileImageOperation core m s = _
    refine engineStep_eq head (by rw [instr]; rfl) ?_
    simp only [instr, here, if_true]
  case accstMemory =>
    intro a r wrs reaches
    change execTileImageOperation core m s = _
    refine engineStep_eq head (by rw [instr]; rfl) ?_
    simp only [instr, here, Bool.false_eq_true, if_false]
    exact reaches.engAccess
  case accdrScratch => exact fun good => execAccdrDrain_scratch head instr here good rfl
  case accdrMemory => exact fun mapped good => execAccdrDrain_memory head instr here rfl mapped rfl good rfl

end Sys2Proof.Machine
end

section
/-! ATTN adds a page's mass to the word as its home die holds it, where the die of the engine holds an older copy. -/

namespace Sys2Proof.Machine

/-- Line 0 of memory as the L2 of die 1 holds it from an earlier read, with MASS 1 in the descriptor at address 0; its home
is die 0, where memory lists nothing, so that MASS is 0 there. -/
def olderCopy : Line :=
  { asid := 0, line := 0, base := 0, leaf := 0xFC00000000000000, home := 0, ret := .normal, since := 0,
    data := List.replicate 13 0 ++ [1] ++ List.replicate 114 0, dirty := 0, bad := 0 }

/-- ATTN of that page for one row, which has made its output and stands before the page's mass addition. -/
def addingMass : Command :=
  { op := 1, instr := .attn { l := 0, tk := 0, d := .zero, a := .zero, x := none }, team := 0, ctx := 0, kc := none,
    args := [], block := [1, 0, 1, 1], snaps := [(0, [0, 0, 0, 0])], weight := Weight.reset, outst := none, started := true,
    prog := 1, susp := none, cleared := false, world := false, fin := false, bounds := [], massed := some 0 }

/-- A core of die 1 is at that command. -/
def addingState : State :=
  ({ State.reset with contexts := [{ Context.reset 0 with state := .registered }] } : State).onMatrix 48 0 (fun x =>
    { x with queue := [addingMass] }) |>.putL2 1 olderCopy

/-- The low byte of that MASS in the line that the home die then holds. -/
def massAtHome : Result → Option Byte
  | .next s => ((s.l2.getD 0 []).head?).map (·.data.getD 13 0)
  | _ => none

/-- Refutes O25: it forms the new MASS from a read before the access at .dev brings the home die's line (`massAdded` reads
in the state that the access has not touched). Here that read finds the older copy of the engine's own die, with MASS 1,
where the engine adds to the home die's MASS 0 (R190). -/
theorem not_attentionEngineRowsComplete : ¬ Obligations.AttentionEngineRowsComplete := by
  rintro ⟨-, -, -, -, output, -⟩
  have head : AtHead addingState 48 0 addingMass := by decide +kernel
  obtain ⟨-, adds⟩ := output _ _ _ _ _ head rfl (by decide)
  have stated := adds 0 0 _ _ rfl rfl (by decide +kernel) (by decide +kernel)
  have added : massAtHome (exec (.attnPage 48 0) addingState) = some 0 := by decide +kernel
  rw [stated] at added
  exact absurd added (by decide +kernel)

end Sys2Proof.Machine
end

section
/-! The rewrite of a page keeps the code of its head dimension for the later parts of its step. -/

namespace Sys2Proof.Machine

/-- The step of the page whose descriptor stands at address 0, which is BUSY, with storage taken before a fault (R319). -/
def busyStep : DuskStep :=
  { va := 0, w0 := 0x20E1, phase := .body, taken := some 0x4000, ntok := 0, dim := 0, level := 0, sumva := 0, sum := [],
    done := 0, outs := [] }

/-- The KVRES whose one page that is. -/
def restoring : Sweep :=
  { op := 1, die := 0, ctx := 0, source := .kvres, world := false, team := 0, core := 0, m := 0, cast := 0, kc := none,
    np := 1, nrec := 0, thr := [], listva := 0, status := 0, table := 0, pos := 0, counts := [0, 0, 0, 0, 0, 0],
    step := some busyStep, snap := [], susp := none }

/-- The page stands at 0x2000 in MXFP4 on LPDDR6, with one token of head dimension 64 (DIM 0); a page table at 0x100000 maps
all of it to the same addresses, system-coherent. -/
def restoringState : State :=
  { State.reset with
    contexts := [{ Context.reset 0 with state := .registered, root := 0x100000 }]
    mem := [(0, 0xE3), (1, 0x20), (11, 2), (0x100001, 0x80), (0x100002, 0x10), (0x100007, 0x80), (0x108007, 0xFD)]
    sweeps := [restoring] }

/-- What the first sweep's step keeps of the dimension of its page. -/
def keptDim : Result → Option Nat
  | .next s => (s.sweeps.head?.bind (·.step)).map (·.dim)
  | _ => none

/-- Refutes O30: it says that the rewrite keeps the head dimension (64 for the page's DIM 0), where the step keeps the code
DIM itself, which the entry of the freed ring is made of (R307). -/
theorem not_duskStepsAndHandBacksComplete : ¬ Obligations.DuskStepsAndHandBacksComplete := by
  rintro ⟨-, -, -, body, -⟩
  have sweeping : Sweeping restoringState 0 0 restoring (restoringState.duskServed 0 0) := by decide +kernel
  obtain ⟨-, -, written⟩ := body _ _ _ _ _ busyStep sweeping rfl rfl rfl (by decide +kernel) (by decide +kernel)
  have stated := written _ _ 0x4000 rfl rfl (by decide +kernel)
  have kept : keptDim (exec (stepRow restoring 0 0) restoringState) = some 0 := by decide +kernel
  rw [stated] at kept
  exact absurd kept (by decide +kernel)

end Sys2Proof.Machine
end

section
/-! Barrier words by their fields (R201). -/

namespace Sys2Proof.Machine

/-- One bit of a word is its field of width 1. -/
theorem ofBool_getLsbD {w : Nat} (x : BitVec w) (k : Nat) : BitVec.ofBool (x.getLsbD k) = x.extractLsb' k 1 := by
  ext i hi
  obtain rfl : i = 0 := by omega
  simp

theorem Bar.word_fields (b : Bar) :
    b.word.extractLsb' 48 16 = b.phase ∧ b.word.getLsbD 47 = b.brk ∧ b.word.extractLsb' 40 4 = b.part ∧
      b.word.extractLsb' 36 4 = b.arr ∧ b.word.extractLsb' 32 3 = b.exp ∧ b.word.lo = BitVec.ofInt 32 b.tx := by
  have brk : b.word.extractLsb' 47 1 = BitVec.ofBool b.brk := by
    simp (disch := decide) only [Bar.word, BitVec.extractLsb'_append_eq_of_le, BitVec.extractLsb'_append_eq_of_add_le]
    simp
  refine ⟨?_, ?_, ?_⟩
  · simp (disch := decide) only [Bar.word, BitVec.extractLsb'_append_eq_of_le]
    simp
  · rw [← ofBool_getLsbD] at brk
    simpa using congrArg (BitVec.getLsbD · 0) brk
  · simp (disch := decide) only [Bar.word, DWord.lo, BitVec.extractLsb'_append_eq_of_le,
      BitVec.extractLsb'_append_eq_of_add_le]
    simp

theorem Bar.ofWord_word {b : Bar} (low : -(2 ^ 31) ≤ b.tx) (high : b.tx < 2 ^ 31) : Bar.ofWord b.word = b := by
  have tx : (BitVec.ofInt 32 b.tx).toInt = b.tx := by
    rw [BitVec.toInt_ofInt]; exact Int.bmod_eq_of_le (by simpa using low) (by simpa using high)
  obtain ⟨phase, brk, part, arr, exp, lo⟩ := b.word_fields
  simp only [Bar.ofWord, phase, brk, part, arr, exp, lo, tx]

theorem Bar.word_ofWord {w : DWord} (reserved : w.extractLsb' 44 3 = 0) (bit : w.getLsbD 35 = false) :
    (Bar.ofWord w).word = w := by
  have bit' : 0#1 = w.extractLsb' 35 1 := by rw [← ofBool_getLsbD, bit]; rfl
  have reserved' : 0#3 = w.extractLsb' 44 3 := reserved.symm
  simp only [Bar.word, Bar.ofWord, DWord.lo, BitVec.ofInt_toInt, reserved', bit', ofBool_getLsbD]
  simp only [BitVec.extractLsb'_append_extractLsb'_eq_extractLsb', BitVec.extractLsb'_eq_self]

theorem Bar.complete_due {b : Bar} (unbroken : b.brk = false) (counted : b.exp ≠ 0)
    (arrived : b.exp.toNat ≤ slotCount b.arr) (landed : b.tx = 0) :
    b.complete = { b with phase := b.phase + 1, arr := 0 } :=
  if_pos (by simpa [unbroken, arrived, landed] using counted)

theorem Bar.complete_waits {b : Bar} (h : b.brk = true ∨ b.exp = 0 ∨ slotCount b.arr < b.exp.toNat ∨ b.tx ≠ 0) :
    b.complete = b := by
  refine if_neg ?_
  simp only [Bool.and_eq_true, Bool.not_eq_true', bne_iff_ne, decide_eq_true_eq, beq_iff_eq]
  rintro ⟨⟨⟨unbroken, counted⟩, arrived⟩, landed⟩
  rcases h with h | h | h | h
  · simp [h] at unbroken
  · exact counted h
  · omega
  · exact h landed

/-- Settles O60: the fields of a word are cut where the word joins them, and completion is decided by one test. -/
theorem barrierWordsHoldTheirFields : Obligations.BarrierWordsHoldTheirFields :=
  ⟨fun _ => Bar.ofWord_word, fun _ => Bar.word_ofWord, fun _ => Bar.complete_due, fun _ => Bar.complete_waits⟩

end Sys2Proof.Machine
end

section
/-! Barriers: the changes of one clock, the instructions that make them, and BWAIT (R201 to R203). -/

namespace Sys2Proof.Machine

/-! ### The changes of one clock (R201) -/

@[simp] theorem Bar.complete_complete (b : Bar) : b.complete.complete = b.complete := by
  by_cases due : b.brk = true ∨ b.exp = 0 ∨ slotCount b.arr < b.exp.toNat ∨ b.tx ≠ 0
  · simp only [Bar.complete_waits due]
  · simp only [not_or, Bool.not_eq_true, Nat.not_lt, ne_eq, Decidable.not_not] at due
    obtain ⟨unbroken, counted, arrived, landed⟩ := due
    rw [Bar.complete_due unbroken counted arrived landed]
    refine Bar.complete_waits (.inr (.inr (.inl ?_)))
    have empty : slotCount 0 = 0 := rfl
    change slotCount 0 < b.exp.toNat
    rw [empty]
    exact Nat.pos_of_ne_zero fun zero => counted (BitVec.eq_of_toNat_eq zero)

section
variable (b : Bar) (live : BitVec 4)

/-- The changes of a clock none of which is an arrival that is refused. -/
theorem Bar.clock_admitted {cs : List BarChange} (admitted : cs.contains .refused = false) :
    b.clock live cs = (cs.foldl Bar.renewed (b.counted cs)).break live := by
  simp only [Bar.clock, admitted, Bool.or_false]

theorem Bar.clock_arrive (slot n : Nat) : b.clock live [.arrive slot n] =
    (Bar.complete { b with tx := b.tx + (n : Int), arr := b.arr ||| (1#4 <<< slot) }).break live := by
  simp [b.clock_admitted, Bar.counted, Bar.count, Bar.dropped, Bar.renewed]

theorem Bar.clock_arrive_arrive (i j m n : Nat) : b.clock live [.arrive i m, .arrive j n] = (Bar.complete { b with
    tx := b.tx + (m : Int) + (n : Int), arr := b.arr ||| (1#4 <<< i) ||| (1#4 <<< j) }).break live := by
  simp [b.clock_admitted, Bar.counted, Bar.count, Bar.dropped, Bar.renewed]

theorem Bar.clock_land (n : Nat) :
    b.clock live [.land n] = (Bar.complete { b with tx := b.tx - (n : Int) }).break live := by
  simp [b.clock_admitted, Bar.counted, Bar.count, Bar.dropped, Bar.renewed]

theorem Bar.clock_drop (slot : Nat) : b.clock live [.drop slot] = (b.complete.drop slot).complete.break live := by
  simp [b.clock_admitted, Bar.counted, Bar.count, Bar.dropped, Bar.renewed]

theorem Bar.clock_init (w : Word) : b.clock live [.init w] = Bar.break { b.complete with
    brk := false, part := w.extractLsb' 4 4, arr := 0, exp := w.extractLsb' 0 3, tx := 0 } live := by
  simp [b.clock_admitted, Bar.counted, Bar.count, Bar.dropped, Bar.renewed]

theorem Bar.clock_put (w : DWord) : b.clock live [.put w] = (restoredBar w).complete.break live := by
  simp [b.clock_admitted, Bar.counted, Bar.count, Bar.dropped, Bar.renewed]

/-- A barrier that is broken is not broken again. -/
theorem Bar.break_broken (broken : b.brk = true) : b.break live = b := by
  simp only [Bar.break, ← broken, ite_self]

theorem Bar.clock_refused : b.clock live [.refused] = { b.complete with brk := true } := by
  simp [Bar.clock, Bar.counted, Bar.count, Bar.dropped, Bar.renewed, Bar.break_broken]

end

/-! ### A change that is the first of its clock -/

theorem find?_replaceIf_map {α : Type} (l : List α) {p : α → Bool} {f : α → α}
    (keeps : ∀ x, p x = true → p (f x) = true) : (replaceIf l p f).find? p = (l.find? p).map f := by
  induction l with
  | nil => rfl
  | cons x l ih =>
    simp only [replaceIf] at ih
    by_cases hx : p x = true
    · simp [replaceIf, hx, keeps]
    · simp [replaceIf, hx, ih]

theorem State.cast?_onCast (s : State) (cast : Nat) {f : Cast → Cast} (keeps : ∀ c, (f c).id = c.id) :
    (s.onCast cast f).cast? cast = (s.cast? cast).map f :=
  find?_replaceIf_map s.casts fun c named => by simpa only [keeps] using named

/-- A change where no other team's change of the barrier is recent has a clock of its own. -/
theorem Cast.clockOf_first {c : Cast} {n mark : Nat} {who : Option Nat}
    (first : ∀ r ∈ c.recent, r.bar = n → who.elim false r.teams.contains = true) :
    c.clockOf n who mark = { bar := n, mark := mark, before := c.bars.getD n 0, changes := [], teams := [],
                             fresh := false } := by
  unfold Cast.clockOf
  cases found : c.recent.find? (·.bar == n) with
  | none => rfl
  | some r => exact if_pos (first r (List.mem_of_find?_eq_some found) (by simpa using List.find?_some found))

theorem State.barsNow_first {s : State} {t : Team} {o : F2} {c : Cast} (cast : s.cast? t.cast = some c)
    (first : ∀ r ∈ c.recent, r.bar = barNo t o → r.teams.contains t.id = true) :
    s.barsNow t o = (s.barOf t o, s.barOf t o) := by
  simp only [State.barsNow, State.barOf, cast, Option.elim_some, Cast.clockOf_first (who := some t.id) first,
    List.foldl_nil, Cast.bar]

theorem State.barChange_first {s : State} {cast n : Nat} {ch : BarChange} {who : Option Nat} {c : Cast}
    (cast' : s.cast? cast = some c) (first : ∀ r ∈ c.recent, r.bar = n → who.elim false r.teams.contains = true)
    (inRange : ((c.bar n).clock (s.liveSlots cast) [ch]).txOut = false) :
    ((s.barChange cast n ch who).cast? cast).map (·.bars.getD n 0)
      = some ((c.bar n).clock (s.liveSlots cast) [ch]).word := by
  simp only [Cast.bar] at inRange ⊢
  simp only [State.barChange, cast', Cast.clockOf_first first, List.nil_append, inRange, Bool.false_eq_true, if_false]
  change Option.map _ ((s.onCast cast _).cast? cast) = _
  rw [State.cast?_onCast _ _ fun c => by rfl]
  simp only [cast', Option.map_some, getD_setAt, if_true]

/-! ### The instructions (R202, R203) -/

section
variable {o : F2} {bad : Team → Bool} {s : State} {t : Team} {c : Clause}

theorem barIllegal_eq_none (has : barNo t o < s.barriers t) (good : bad t = false) : barIllegal o bad s t c = none :=
  if_neg (by simp [has, good])

theorem barIllegal_eq_some (wrong : s.barriers t ≤ barNo t o ∨ bad t = true) :
    barIllegal o bad s t c = some { code := .illegalInstr } := if_pos (by simpa using wrong)

end

/-- An instruction whose checks before its promise (R7) find what it names traps with that. -/
theorem Traps.of_pre {i : Instr} {ok : State → Team → Prop} {tr : State → Team → Trap}
    {pre post : State → Team → Clause → Option Trap} {k : State → Team → Clause → State}
    (he : ∀ s, exec i s = issue i s pre post k) (trap : ∀ s t c, ok s t → pre s t c = some (tr s t)) : Traps i ok tr :=
  fun s t c h hok => (he s).trans (issue_pre h (trap s t c hok))

theorem Traps.of_barIllegal {i : Instr} {o : F2} {bad : Team → Bool} {ok : State → Team → Prop}
    {post : State → Team → Clause → Option Trap} {k : State → Team → Clause → State}
    (he : ∀ s, exec i s = issue i s (barIllegal o bad) post k)
    (wrong : ∀ s t, ok s t → s.barriers t ≤ barNo t o ∨ bad t = true) : Traps i ok fun _ _ => { code := .illegalInstr } :=
  .of_pre he fun s t _ h => barIllegal_eq_some (wrong s t h)

/-- An ARRIVE that may issue and finds its barrier whole arrives, or is refused and breaks the barrier. -/
theorem execArrive_eq {o : F2} {s : State} {t : Team} {c : Clause} {before now : Bar} (h : Issues (.arrive o) s t c)
    (has : barNo t o < s.barriers t) (small : (t.uword o.ext.b).toNat ≤ 2 ^ 24)
    (performed : o.ext.sc ≠ .none → t.unperformed.any Outst.accesses = false) (acked : o.ext.sc = .sys → t.unacked = 0)
    (bars : s.barsNow t o = (before, now)) (whole : before.brk = false) :
    execArrive o s = .next (
      if now.part.getLsbD t.cslot = true ∧ now.arr.getLsbD t.cslot = false then
        let s1 := (s.release t o.ext.sc).barChange t.cast (barNo t o) (.arrive t.cslot (t.uword o.ext.b).toNat) (some t.id)
        s1.done ((s1.again t).put o.d false fun _ => before.phase.toNat) c
      else
        let s1 := s.barChange t.cast (barNo t o) .refused (some t.id)
        s1.trapNow (s1.again t) c (brokenTrap (barNo t o))) := by
  have ready : (o.ext.sc != .none && t.unperformed.any Outst.accesses || o.ext.sc == .sys && t.unacked != 0) = false := by
    simp only [Bool.or_eq_false_iff, Bool.and_eq_false_imp, bne_iff_ne, beq_iff_eq, bne_eq_false_iff_eq]
    exact ⟨performed, acked⟩
  have unbroken : arriveBroken o s t c = none := if_neg (by simp [bars, whole])
  rw [execArrive, issue_next h (barIllegal_eq_none has (by simpa using small)) unbroken]
  simp only [ready, bars, Bar.admits, Bool.false_eq_true, if_false, Bool.and_eq_true, Bool.not_eq_true']

/-- A BWAIT on a whole barrier goes on where the phase is another, and else waits for its end. -/
theorem execBwait_eq {o : F2} {s : State} {t : Team} {c : Clause} (h : Issues (.bwait o) s t c)
    (has : barNo t o < s.barriers t) (whole : (s.barOf t o).brk = false) :
    execBwait o s = .next (
      if (s.barOf t o).phase ≠ (t.uword o.d).setWidth 16 then (s.done t c).acquire t o.ext.sc
      else s.enqueue t c { t.entry c (.bwait o) o s.nextId s.clk with
        args := [((t.uword o.d).setWidth 16).toNat, barNo t o, 0] }) := by
  have unbroken : barBroken o s t c = none := if_neg (by simp [whole])
  rw [execBwait, issue_next h (barIllegal_eq_none has rfl) unbroken]
  simp only [bne_iff_ne]

/-- Settles O16: each instruction by its checks and its change of the barrier; of a change alone in its clock, and of two
arrivals of one, the steps of R201. -/
theorem barriersComplete : Obligations.BarriersComplete := by
  refine ⟨fun o s t c h has good => ?binit,
    fun o s t c h has small performed acked before now bars whole =>
      execArrive_eq h has small performed acked bars whole,
    fun o s t c h has => ?arrdrop,
    fun o s t c h has whole => execBwait_eq h has whole,
    fun o => .of_barIllegal (post := noTrap) (fun _ => rfl) fun s t wrong => wrong,
    fun o => .of_barIllegal (fun _ => rfl) fun s t wrong => wrong.imp_right decide_eq_true,
    fun o => .of_barIllegal (bad := fun _ => false) (post := noTrap) (fun _ => rfl) fun s t wrong => .inl wrong,
    fun o => .of_barIllegal (bad := fun _ => false) (fun _ => rfl) fun s t wrong => .inl wrong,
    fun o s t c h ⟨has, isBroken⟩ => ?bwait, fun o s t c h ⟨has, small, isBroken⟩ => ?arrive,
    fun s t o c cast first => State.barsNow_first cast first,
    fun s cast n ch who c cast' first inRange => State.barChange_first cast' first inRange,
    fun b => Bar.complete_due, Bar.clock_arrive, Bar.clock_arrive_arrive, Bar.clock_land, Bar.clock_drop,
    Bar.clock_init, Bar.clock_refused⟩
  case binit =>
    change execBinit o s = _
    rw [execBinit]
    exact issue_next h (barIllegal_eq_none has good) rfl
  case arrdrop =>
    change execArrdrop o s = _
    rw [execArrdrop]
    exact issue_next h (barIllegal_eq_none has rfl) rfl
  case bwait =>
    change execBwait o s = _
    rw [execBwait]
    exact issue_post h (barIllegal_eq_none has rfl) (if_pos isBroken)
  case arrive =>
    change execArrive o s = _
    rw [execArrive]
    exact issue_post h (barIllegal_eq_none has (by simpa using small)) (if_pos isBroken)

end Sys2Proof.Machine
end

section
/-! Copies and copy batches: issue, acceptance, rows and batches (R197 to R200). -/

namespace Sys2Proof.Machine

/-! ### Issue (R198 to R200) -/

theorem placeTrap_eq_none {s : State} {t : Team} {off n : Nat} (aligned : off % n = 0) (inside : off + n ≤ s.scratchSize t) :
    placeTrap s t off n = none := by
  simp [placeTrap, aligned, inside]

theorem placeTrap_misaligned (s : State) (t : Team) {off n : Nat} (misaligned : off % n ≠ 0) :
    placeTrap s t off n = some { code := .misaligned, addr := BitVec.ofNat 64 off } := if_pos (by simpa using misaligned)

theorem placeTrap_outside {s : State} {t : Team} {off n : Nat} (aligned : off % n = 0) (beyond : s.scratchSize t < off + n) :
    placeTrap s t off n = some { code := .protection, addr := BitVec.ofNat 64 off } := by
  simp [placeTrap, aligned, beyond]

/-- An instruction with no check before its promise becomes outstanding where the later checks find nothing. -/
theorem Enqueues.of_post {i : Instr} {ok : State → Team → Prop} {e : State → Team → Clause → Outst}
    {post : State → Team → Clause → Option Trap}
    (he : ∀ s, exec i s = issue i s noTrap post fun s t c => s.enqueue t c (e s t c))
    (passes : ∀ s t c, ok s t → post s t c = none) : Enqueues i ok e :=
  fun s t c h hok => (he s).trans (issue_next h rfl (passes s t c hok))

/-- COPYY without a last copy traps, before or after the check of its promise. -/
theorem execCopyy_first {o : F2} {s : State} {t : Team} {c : Clause} (h : Issues (.copyy o) s t c) (first : t.last = none) :
    execCopyy o s = .next (s.trapNow t c { code := .illegalInstr }) := by
  rw [execCopyy]
  by_cases behind : t.outst.any (·.instr.starts) = true
  · exact issue_post h (if_neg (by simp [behind])) (if_pos (by simp [first]))
  · exact issue_pre h (if_pos (by simp [first, behind]))

/-! ### Acceptance (R198, R199) -/

section
variable {s : State} {t k : Nat} {tm : Team} {e : Outst} {o : F2} {again : Bool}

/-- The copy instruction of an entry, and whether it advances the last descriptor. -/
abbrev CopyEntry (e : Outst) (o : F2) (again : Bool) : Prop :=
  (e.instr = .copy o ∧ again = false) ∨ (e.instr = .copyy o ∧ again = true)

theorem execCopyAcceptance_traps {tr : Trap} (entry : s.entry? t k = some (tm, e)) (copies : CopyEntry e o again)
    (order : tm.inOrder e = true) (trap : copyTrap s tm o again = some tr) :
    execCopyAcceptance t k s = .next (s.failEntry tm e tr) := by
  rcases copies with ⟨instr, rfl⟩ | ⟨instr, rfl⟩ <;> simp [execCopyAcceptance, entry, instr, order, trap]

theorem execCopyAcceptance_accepts (entry : s.entry? t k = some (tm, e)) (copies : CopyEntry e o again)
    (order : tm.inOrder e = true) (good : copyTrap s tm o again = none) :
    let bs := (s.copyBlock tm o again).1
    let d := CopyDesc.ofBytes bs
    let mcb := (s.cast? tm.cast).elim 0 fun c => c.mcbase.lo
    let adds := s.copyRanges tm e.seq d mcb.toNat
    (s.copies.filter (·.cluster == coreCluster tm.core)).length < 64 → s.rangeRoom adds = true →
    s.heldByAccess adds = false →
    let op : CopyOp :=
      { op := e.seq, cluster := coreCluster tm.core, team := tm.id, ctx := tm.ctx, world := tm.world,
        kc := counterOf o.d, again := again, rh := o.ext.rh, batch := tm.openSeq, desc := bs, mcbase := mcb,
        casts := if d.mc then (s.landingCasts tm d).map (·.id) else [tm.cast], cast := tm.cast, core := tm.core,
        row := 0, susp := none }
    execCopyAcceptance t k s = .next (({ s.register adds with copies := s.copies ++ [op] } : State).complete
      { tm with last := some { desc := bs, mcbase := mcb, origin := BitVec.ofNat 32 (s.copyBlock tm o again).2 } } e) := by
  intro bs d mcb adds slot room free op
  have waits : (decide (Config.copyQueue ≤ (s.copies.filter (·.cluster == coreCluster tm.core)).length) ||
      !s.rangeRoom adds || s.heldByAccess adds) = false := by
    simp only [decide_eq_false (show ¬ Config.copyQueue ≤ _ from Nat.not_le.mpr slot), room, free, Bool.not_true,
      Bool.or_false]
  rcases copies with ⟨instr, rfl⟩ | ⟨instr, rfl⟩ <;>
    (simp only [execCopyAcceptance, entry, instr, order, good, Bool.not_true, Bool.false_eq_true, if_false]
     exact if_neg (by rw [waits]; exact Bool.false_ne_true))

end

/-! ### Rows (R198) -/

section
variable {s : State} {j : Nat} {op : CopyOp}

theorem execCopyRow_over (queued : s.copies.find? (·.op == j) = some op) (runs : op.susp = none)
    (live : s.alive op.ctx = true) (past : (CopyDesc.ofBytes op.desc).rows ≤ op.row)
    (answered : s.unanswered op.op = false) : execCopyRow j s = .next (s.finishCopy op) := by
  simp [execCopyRow, queued, runs, live, past, answered]

theorem execCopyRow_moves (queued : s.copies.find? (·.op == j) = some op) (runs : op.susp = none)
    (live : s.alive op.ctx = true) :
    let d := CopyDesc.ofBytes op.desc
    let x := s.ctx op.ctx
    let sa := rowAddr d.src d.sstr op.row d.sscr
    let da := rowAddr d.dst d.dstr op.row d.dscr
    let checks := (if d.sscr then [] else [(engMode (coreDie op.core) op.world true false, sa.toNat, d.rowLen)])
      ++ if d.dscr then [] else [(engMode (coreDie op.core) op.world false true, da.toNat, d.rowLen)]
    let from' := s.xlatRange x (engMode (coreDie op.core) op.world true false) sa.toNat d.rowLen
    let into := s.xlatRange x (engMode (coreDie op.core) op.world false true) da.toNat d.rowLen
    op.row < d.rows → s.engChecks x checks = none →
    let s0 := s.engTouch x checks (retOf op.rh)
    (if d.sscr then (s0.cast? op.cast).elim false fun c => c.sbad sa.toNat d.rowLen
      else s0.vbad from' sa.toNat d.rowLen) = false →
    let bs := if d.sscr then (s0.cast? op.cast).elim [] fun c => c.sread sa.toNat d.rowLen
      else s0.vread from' sa.toNat d.rowLen
    let s1 := if d.dscr then op.casts.foldl (fun (s : State) k =>
        s.landRow op d (if d.mc then da + (op.mcbase.toNat : Int) else da) bs k) s0
      else s0.engWrite op.engine into da.toNat bs (retOf op.rh)
    let op' := { op with row := op.row + 1 }
    let s2 : State := { s1 with copies := replaceIf s1.copies (·.op == j) fun _ => op' }
    execCopyRow j s = .next (if op.row + 1 = d.rows ∧ s2.unanswered j = false then s2.finishCopy op' else s2) := by
  intro d x sa da checks from' into left mapped s0 good bs s1 op' s2
  have moves : (op.susp.isSome || !s.alive op.ctx) = false := by simp [runs, live]
  have more : ¬ (CopyDesc.ofBytes op.desc).rows ≤ op.row := Nat.not_le.mpr left
  simp only [execCopyRow, queued, moves, more, Bool.false_eq_true, if_false]
  rw [mapped]
  refine (if_neg (by rw [good]; exact Bool.false_ne_true)).trans ?_
  refine congrArg Host.Outcome.next (ite_congr ?_ (fun _ => rfl) fun _ => rfl)
  rw [Bool.and_eq_true, beq_iff_eq, Bool.not_eq_true']

theorem State.landRow_inside {d : CopyDesc} {off : Int} {bs : List Byte} {k : Nat} {c : Cast} (cast : s.cast? k = some c)
    (low : 0 ≤ off) (high : off + bs.length ≤ (c.size : Int)) :
    let s1 := s.landScratch k (some (op.team, op.batch)) off.toNat bs
    s.landRow op d off bs k
      = if d.bv = true ∧ d.bar < c.nb then s1.barChange k d.bar (.land bs.length) else s1 := by
  simp [State.landRow, cast, low, high]

end

/-! ### Batches (R200) -/

theorem completeBseal_eq (s : State) (tm : Team) (e : Outst) : completeBseal s tm e =
    if 8 ≤ tm.sealed.length ∨ tm.outst.any (fun x => x.instr.starts && decide (x.seq < e.seq)) = true then s
    else (s.complete { tm with
      sealed := tm.sealed ++ [tm.openSeq], openNo := tm.openNo + 1, openSeq := tm.openSeq + 1 } e).settleBatches tm.id := by
  simp only [completeBseal, Bool.or_eq_true, decide_eq_true_eq]

theorem execWaitbDone_reached {s : State} {t k : Nat} {tm : Team} {e : Outst} {o : F2}
    (entry : s.entry? t k = some (tm, e)) (instr : e.instr = .waitb o) (few : tm.sealed.length ≤ waitbCount o) :
    execWaitbDone t k s = .next ((s.complete tm e).acquireCopies tm o.ext.sc) := by
  simp only [execWaitbDone, entry, instr, few, if_true]

/-- Settles O17: issue by the place of the descriptor; acceptance, rows and batches by the branch that the hypotheses
single out. -/
theorem copiesAndBatchesComplete : Obligations.CopiesAndBatchesComplete := by
  refine ⟨fun o => .of_post (fun _ => rfl) fun s t c ⟨aligned, inside⟩ => placeTrap_eq_none aligned inside,
    fun o => .of_post (fun _ => rfl) fun s t c misaligned => placeTrap_misaligned s t misaligned,
    fun o => .of_post (fun _ => rfl) fun s t c ⟨aligned, beyond⟩ => placeTrap_outside aligned beyond,
    fun o s t c h kept => ?copyy, fun o s t c h first => execCopyy_first h first,
    fun s t k tm e o again tr entry copies order trap => execCopyAcceptance_traps entry copies order trap,
    fun s t k tm e o again entry copies order good => execCopyAcceptance_accepts entry copies order good,
    fun s j op queued runs live => execCopyRow_moves queued runs live,
    fun s op d off bs k c cast low high => State.landRow_inside cast low high,
    fun s j op queued runs live past answered => execCopyRow_over queued runs live past answered,
    fun o => .of_post (fun _ => rfl) fun s t c _ => rfl, fun s t k tm e o h instr => ?bseal, fun o s t c h => ?waitb,
    fun s t k tm e o entry instr few => execWaitbDone_reached entry instr few⟩
  case copyy =>
    change execCopyy o s = _
    rw [execCopyy]
    have known : t.last.isNone = false := by simpa using kept
    exact issue_next h (if_neg (by simp [known])) (if_neg (by simp [known]))
  case bseal =>
    rw [h.exec (by simp [instr]), ← completeBseal_eq]
    simp only [completeEntry, instr]
  case waitb =>
    change execWaitb o s = _
    rw [execWaitb, issue_free h]

end Sys2Proof.Machine
end

section
/-! Queries, carries, tasks, launches and token pushes: issue, and the performance of LKSEND and TQPUSH (R204 to R207). -/

namespace Sys2Proof.Machine

/-! ### Queries (R204) -/

section
variable {o : F2} {s : State} {t : Team} {c : Clause}

/-- What a QSRCH needs: the ranges of a packet in scratch, of as many bytes as its head says where that can be read. -/
abbrev qsrchAdds (s : State) (t : Team) (o : F2) : List (Nat × RangeLock) :=
  if szScratch o.ext.sz then (rangeOf 0 false (.scratch t.cast) (qsrchAddr t o)
    (if (s.packetHead t o).2 = true then s.packetLen (s.packetHead t o).1 else 64)).map (t.core, ·) else []

/-- QSRCH waits for its team's earlier accesses, for a slot of its stack and for its ranges. -/
theorem execQsrch_eq (h : Issues (.qsrch o) s t c) (good : qsrchTrap s t o = none) : execQsrch o s = .next (
    if (t.unperformed.any (fun p => p.accesses || Instr.acquires p.instr) ||
        (s.packetHead t o).2 && s.slotsFull t (s.packetHead t o).1 || !s.rangeRoom (qsrchAdds s t o) ||
        s.heldByAccess (qsrchAdds s t o)) = true then s
    else s.enqueue t c { t.entry c (.qsrch o) o s.nextId s.clk with
      args := [qsrchAddr t o, if (s.packetHead t o).2 = true then s.packetLen (s.packetHead t o).1 else 64] }) := by
  rw [execQsrch, issue_next h rfl good]

theorem execQsrch_enqueues (h : Issues (.qsrch o) s t c) (good : qsrchTrap s t o = none)
    (idle : t.unperformed.any (fun p => p.accesses || Instr.acquires p.instr) = false)
    (slot : (s.packetHead t o).2 = true → s.slotsFull t (s.packetHead t o).1 = false)
    (room : s.rangeRoom (qsrchAdds s t o) = true) (free : s.heldByAccess (qsrchAdds s t o) = false) :
    execQsrch o s = .next (s.enqueue t c { t.entry c (.qsrch o) o s.nextId s.clk with
      args := [qsrchAddr t o, if (s.packetHead t o).2 = true then s.packetLen (s.packetHead t o).1 else 64] }) := by
  have slot' : ((s.packetHead t o).2 && s.slotsFull t (s.packetHead t o).1) = false := by simpa using slot
  rw [execQsrch_eq h good, idle, slot', room, free]
  exact congrArg Host.Outcome.next (if_neg (by decide))

theorem execQsrch_waits (h : Issues (.qsrch o) s t c) (good : qsrchTrap s t o = none)
    (busy : t.unperformed.any (fun p => p.accesses || Instr.acquires p.instr) = true ∨
      ((s.packetHead t o).2 = true ∧ s.slotsFull t (s.packetHead t o).1 = true)) : execQsrch o s = .next s := by
  have busy' : (t.unperformed.any (fun p => p.accesses || Instr.acquires p.instr) ||
      (s.packetHead t o).2 && s.slotsFull t (s.packetHead t o).1) = true := by
    simpa only [Bool.or_eq_true, Bool.and_eq_true] using busy
  rw [execQsrch_eq h good, busy']
  exact congrArg Host.Outcome.next (if_pos (by rw [Bool.true_or, Bool.true_or]))

theorem qsrchTrap_misaligned (s : State) (misaligned : qsrchAddr t o % 64 ≠ 0) :
    qsrchTrap s t o = some { code := .misaligned, addr := BitVec.ofNat 64 (qsrchAddr t o) } :=
  if_pos (by simpa using misaligned)

end

/-! ### Carries (R205) -/

/-- Flit k of a carry holds the bytes from 232 k on, at their offset, and the last ends the carry. -/
theorem carryFlits_get (src dst : BitVec 19) (ep : Nat) (seq : BitVec 16) : ∀ (fuel doff k : Nat) (bs : List Byte),
    bs.length ≤ 232 * fuel → 232 * k < bs.length → (carryFlits src dst ep doff fuel bs)[k]?.map (· seq) = some
      { ty := if bs.length ≤ 232 * (k + 1) then 6 else 5, dst := dst, src := src, ttl := 16, seq := seq, opc := 0,
        addr := BitVec.ofNat 48 (ep * 2 ^ 36 + (doff + 232 * k) % 2 ^ 32), data := (bs.drop (232 * k)).take 232,
        resv := false }
  | 0, _, _, _, short, here => by omega
  | fuel + 1, doff, 0, bs, _, _ => by
    simp [carryFlits]
  | fuel + 1, doff, k + 1, bs, short, here => by
    have more : (bs.drop 232).isEmpty = false := by
      simp only [List.isEmpty_eq_false_iff, ne_eq, List.drop_eq_nil_iff]; omega
    have rest := carryFlits_get src dst ep seq fuel (doff + 232) k (bs.drop 232) (by rw [List.length_drop]; omega)
      (by rw [List.length_drop]; omega)
    have last : bs.length - 232 ≤ 232 * (k + 1) ↔ bs.length ≤ 232 * (k + 1 + 1) := by omega
    have place : doff + 232 + 232 * k = doff + 232 * (k + 1) := by omega
    have start : 232 + 232 * k = 232 * (k + 1) := by omega
    simp only [carryFlits, more, Bool.false_eq_true, if_false, List.getElem?_cons_succ, rest, List.length_drop, last,
      List.drop_drop, place, start]

/-- A carry takes as many flits as its bytes fill. -/
theorem carryFlits_length (src dst : BitVec 19) (ep : Nat) : ∀ (fuel doff : Nat) (bs : List Byte), bs ≠ [] →
    bs.length ≤ 232 * fuel → (carryFlits src dst ep doff fuel bs).length = (bs.length + 231) / 232
  | 0, _, bs, some', short => absurd (List.length_eq_zero_iff.mp (by omega)) some'
  | fuel + 1, doff, bs, some', short => by
    have pos : 0 < bs.length := List.length_pos_iff.mpr some'
    by_cases last : bs.drop 232 = []
    · have few : bs.length ≤ 232 := List.drop_eq_nil_iff.mp last
      simp only [carryFlits, last, List.isEmpty_nil, if_true, List.length_cons, List.length_nil]
      omega
    · have many : 232 < bs.length := by simpa using last
      have rest := carryFlits_length src dst ep fuel (doff + 232) (bs.drop 232) last (by rw [List.length_drop]; omega)
      simp only [carryFlits, List.isEmpty_eq_false_iff.mpr last, Bool.false_eq_true, if_false, List.length_cons, rest,
        List.length_drop]
      omega

section
variable {s : State} {tm : Team} {e : Outst} {o : F2}

theorem completeLksend_traps {tr : Trap} (trap : carryTrap s tm o = some tr) :
    completeLksend s tm e o = s.failEntry tm e tr := by
  simp only [completeLksend, trap]

theorem completeLksend_sends (good : carryTrap s tm o = none) :
    let b := s.scr tm (e.arg 0) 32
    let src := field b 0 4
    let n := field b 4 2
    let dev := BitVec.ofNat 19 (field b 8 4)
    let adds := (rangeOf e.seq false (.scratch tm.cast) src n ++ rangeOf e.seq true (.scratch tm.cast) (e.arg 0) 32).map
      (tm.core, ·)
    let flits := carryFlits s.regs.devid dev (field b 12 2) (field b 16 4) 18 (s.scr tm src n)
    s.rangeRoom adds = true → s.heldByAccess adds = false →
    (s.cast? tm.cast).elim false (fun c => c.sbad src n) = false →
    let op : CarryOut :=
      { op := e.seq, team := tm.id, core := tm.core, cast := tm.cast, off := e.arg 0, dev := dev, seq := (s.nextSeq dev).1,
        flits := flits.length, len := n, bar := BitVec.ofNat 8 (field b 6 1), kc := counterOf o.d }
    let s1 := flits.foldl (fun (s : State) f => (s.nextSeq dev).2.send (f (s.nextSeq dev).1)) (s.register adds)
    completeLksend s tm e o = ({ s1 with carries := s1.carries ++ [op] } : State).complete tm e := by
  intro b src n dev adds flits room free readable op s1
  have takes : ¬ (!s.rangeRoom adds || s.heldByAccess adds) = true := by simp [room, free]
  simp only [completeLksend, good]
  exact (if_neg takes).trans (if_neg (by rw [readable]; exact Bool.false_ne_true))

end

/-! ### Tasks and launches (R206) -/

section
variable {o : F2} {s : State} {t : Team} {c : Clause}

theorem execSpawn_full (h : Issues (.spawn o) s t c) (good : spawnTrap s t o = none)
    (performed : t.unperformed.any Outst.accesses = false)
    (full : 4096 ≤ (s.tasks.filter (·.1 == coreDie t.core)).length) :
    execSpawn o s = .next (s.done (t.putQ o.d false) c) := by
  rw [execSpawn, issue_next h rfl good]
  simp only [performed, Bool.false_eq_true, if_false]
  exact congrArg Host.Outcome.next (if_pos full)

theorem execSpawn_adds (h : Issues (.spawn o) s t c) (good : spawnTrap s t o = none)
    (performed : t.unperformed.any Outst.accesses = false)
    (room : (s.tasks.filter (·.1 == coreDie t.core)).length < 4096)
    (readable : (s.cast? t.cast).elim false (fun c => c.sbad (t.uword o.ext.b).toNat 64) = false) :
    execSpawn o s = .next ((({ s with tasks := s.tasks ++ [(coreDie t.core,
        { ctx := t.ctx, gd := t.udword o.a, args := wordsOf (s.scr t (t.uword o.ext.b).toNat 64) })] } : State).release t
          .dev).done (t.putQ o.d true) c) := by
  rw [execSpawn, issue_next h rfl good]
  simp only [performed, readable, Bool.false_eq_true, if_false]
  exact congrArg Host.Outcome.next (if_neg (Nat.not_le.mpr room))

theorem execGlaunch_eq (h : Issues (.glaunch o) s t c) (known : (t.uword o.ext.b).toNat < 16)
    (performed : t.unperformed.any Outst.accesses = false) :
    let q := (s.ctx t.ctx).queue (t.uword o.ext.b).toNat
    execGlaunch o s = .next (
      if q.listed < 64 then
        ((s.onCtx t.ctx fun c => c.setQueue { q with items := q.items ++ [.list (t.udword o.a) s.clk] }).release t .dev).done
          (t.putQ o.d true) c
      else s.done (t.putQ o.d false) c) := by
  intro q
  rw [execGlaunch, issue_next h (if_neg (Nat.not_le.mpr known)) rfl]
  simp only [performed, Bool.false_eq_true, if_false, ← Nat.not_le (a := 64), ite_not]
  rfl

/-! ### Token pushes (R207, R288) -/

theorem execTqpush_empty (h : Issues (.tqpush o) s t c) (none' : t.lanes = []) :
    execTqpush o s = .next (s.done t c) := by
  have good : laneTrap t true .protection (s.tqBad t (tqLanes t o)) = none := by
    simp [tqLanes, none', State.tqBad, laneTrap]
  rw [execTqpush, issue_next h rfl good]
  simp [none']

theorem execTqpush_enqueues (h : Issues (.tqpush o) s t c) (some' : t.lanes ≠ []) (bound : s.tqBad t (tqLanes t o) = []) :
    let e := { t.entry c (.tqpush o) o s.nextId s.clk with
      data := t.lanes.map fun l => (l, (t.word false l o.d).toNat), datb := tqLanes t o }
    execTqpush o s = .next (s.enqueue t c { e with addrs := s.accessed t e, needs := reachGranules (s.reach t e) }) := by
  have good : laneTrap t true .protection (s.tqBad t (tqLanes t o)) = none := by rw [bound]; rfl
  rw [execTqpush, issue_next h rfl good]
  simp only [List.isEmpty_eq_false_iff.mpr some', Bool.false_eq_true, if_false]

end

theorem completeTqpush_pushes {s : State} {tm : Team} {e : Outst} {o : F2} (bound : s.tqBad tm e.datb = []) :
    let die := coreDie tm.core
    let ok := (s.pushPlan die tm.ctx e.datb []).filterMap fun (l, q, j) => j.map fun j => (l, q, j)
    let ws := ok.map fun (l, q, j) => (s.pushAddr die tm.ctx q j, leBytes 4 (laneValue e.data l))
    let s1 := (ws.foldl (fun (s : State) w => s.teamWrite tm.core e.outs w.1 w.2 .home) (s.release tm .dev)).remoteStores
      tm.id tm.ctx tm.world (ws.flatMap fun w => peerPieces e.outs w.1 w.2)
    let s2 := ((ok.map fun x => x.2.1).eraseDups).foldl (fun (s : State) q => s.onTokens die q fun tq =>
      { tq with pushed := tq.pushed + (ok.filter fun x => x.2.1 == q).length, fresh := true }) s1
    completeTqpush s tm e o = s2.complete
      ((s2.again tm).writeP o.ext.fn.toNat e.act (maskOf tm.n fun l => ok.any fun x => x.1 == l)) e := by
  simp only [completeTqpush, bound, laneTrap]

theorem State.pushPlan_cons {s : State} {die ctx l q : Nat} {rest seen : List (Nat × Nat)} {tq : TokenQueue}
    (queue : s.tokenQueue? die q ctx = some tq) :
    let i := (seen.filter fun x => x.2 == q).length
    s.pushPlan die ctx ((l, q) :: rest) seen
      = (l, q, if tq.pushed + i - tq.freed < 2 ^ tq.capl then some (tq.pushed + i) else none)
        :: s.pushPlan die ctx rest (seen ++ [(l, q)]) := by
  simp only [State.pushPlan, queue]

theorem State.testTriggers_tokens (s : State) (n : Nat) : (s.testTriggers n).tokens = s.tokens.map fun q =>
    if n ≠ 0 ∧ q.fresh = true then { q.trigger s.ns with fresh := false } else q := by
  simp only [State.testTriggers, Bool.and_eq_true, bne_iff_ne]

/-- Settles O18: each instruction by its checks; LKSEND and TQPUSH by what their completion finds. -/
theorem queriesCarriesAndLaunchesComplete : Obligations.QueriesCarriesAndLaunchesComplete := by
  refine ⟨fun o => ?qsrch, fun o s t c h good busy => execQsrch_waits h good busy,
    fun o => .of_post (fun _ => rfl) fun s t c misaligned => qsrchTrap_misaligned s misaligned,
    fun o => .of_post (fun _ => rfl) fun s t c ⟨aligned, inside⟩ => placeTrap_eq_none aligned inside,
    fun o => .of_post (fun _ => rfl) fun s t c misaligned => placeTrap_misaligned s t misaligned,
    fun s t k tm e o tr h instr trap => ?lksendTrap, fun s t k tm e o h instr good => ?lksend,
    fun src dst ep doff bs some' short => ⟨carryFlits_length src dst ep 18 doff bs some' (by omega),
      fun k seq here => carryFlits_get src dst ep seq 18 doff k bs (by omega) here⟩,
    fun o s t c h good performed full => execSpawn_full h good performed full,
    fun o s t c h good performed room readable => execSpawn_adds h good performed room readable,
    fun o s t c h known performed => execGlaunch_eq h known performed,
    fun o => .of_pre (post := noTrap) (fun _ => rfl) fun s t c unknown => if_pos unknown,
    fun o s t c h none' => execTqpush_empty h none', fun o s t c h ⟨some', bound⟩ => execTqpush_enqueues h some' bound,
    fun s t k tm e o h instr bound => ?tqpush, fun s die ctx l q rest seen tq queue => State.pushPlan_cons queue,
    fun s die ctx q j tq queue => ?pushAddr, State.testTriggers_tokens⟩
  case qsrch =>
    intro len s t c h ⟨good, idle, slot, room, free⟩
    exact execQsrch_enqueues h good idle slot room free
  case lksendTrap =>
    rw [h.exec (by simp [instr]), ← completeLksend_traps trap]
    simp only [completeEntry, instr]
  case lksend =>
    intro b src n dev adds flits room free readable op s1
    rw [h.exec (by simp [instr]), ← completeLksend_sends good room free readable]
    simp only [completeEntry, instr]
  case tqpush =>
    intro die ok ws s1 s2
    have pushes := completeTqpush_pushes (e := e) (o := o) bound
    rw [h.exec (by simp [instr])]
    simp only [completeEntry, instr]
    exact congrArg Host.Outcome.next pushes
  case pushAddr => simp only [State.pushAddr, queue, Option.elim_some]

end Sys2Proof.Machine
end

section
/-! State blocks and EXIT.saved (R213, R300). -/

namespace Sys2Proof.Machine

/-! ### Access to a block -/

/-- Where every granule is mapped, none is the first bad one. -/
theorem firstBad_eq_none {outs : List (Nat × Xlat)} (mapped : outs.all (·.2.isMapped) = true) : firstBad outs = none := by
  have absent {p : Nat × Xlat → Bool} (refuses : ∀ x, p x = true → x.2.isMapped = false) : outs.find? p = none :=
    List.find?_eq_none.mpr fun x member found =>
      Bool.false_ne_true ((refuses x found).symm.trans (List.all_eq_true.mp mapped x member))
  have outcome (y : Xlat) (bad : y.isMapped = false) : outs.find? (·.2 == y) = none :=
    absent fun x same => by rw [beq_iff_eq.mp same, bad]
  simp only [firstBad, outcome .world rfl, outcome .denied rfl, outcome .walkError rfl, outcome .missing rfl,
    absent (p := fun o => !o.2.isMapped) (by simp), Option.none_or]

section
variable {s : State} {t : Team} {c : Clause} {va : Option (BitVec 6)} {n : Nat} {wr : Bool}
  {k : State → List (Nat × Xlat) → List Byte → State}

theorem stateTrap_eq_none {size : State → Team → Nat} (ready : BlockReady s t (stateVa t va) (size s t) wr) :
    stateTrap va size wr s t c = none := by
  obtain ⟨aligned, free, -⟩ := ready
  simp [stateTrap, aligned, free]

theorem stateAccess_writes {a : DWord} (ready : BlockReady s t a n true) (steady : s.switching = false) :
    stateAccess s t c a n true k = k (blockFilled s t a n) (blockOuts s t a n true) [] := by
  obtain ⟨-, -, mapped⟩ := ready
  have allowed := firstBad_eq_none mapped
  simp only [blockOuts] at allowed
  simp only [stateAccess, steady, allowed, Bool.false_eq_true, if_false, if_true]
  rfl

theorem stateAccess_reads {a : DWord} (ready : BlockReady s t a n false) (steady : s.switching = false) :
    let r := (blockFilled s t a n).teamRead t.core (blockOuts s t a n false) a.toNat n .l1
    stateAccess s t c a n false k =
      if r.2.2 = true then r.1.trapNow t c { code := .memoryError, addr := a }
      else k r.1 (blockOuts s t a n false) r.2.1 := by
  obtain ⟨-, -, mapped⟩ := ready
  have allowed := firstBad_eq_none mapped
  simp only [blockOuts] at allowed
  simp only [stateAccess, steady, allowed, Bool.false_eq_true, if_false]
  rfl

/-! ### The instructions -/

theorem execStatesvTeam_eq (h : Issues (.statesvTeam va) s t c) (ready : BlockReady s t (stateVa t va) teamBlockSize true)
    (drained : s.drained t = true) (steady : s.switching = false) :
    let s0 := blockFilled s t (stateVa t va) teamBlockSize
    let s1 := ({ s0 with freeCtr := s0.freeCtr + 1024 } : State).blockWrite t
      (blockOuts s t (stateVa t va) teamBlockSize true) (stateVa t va).toNat (teamBlock t s0.freeCtr)
    execStatesvTeam va s = .next (s1.done (s1.again t) c) := by
  rw [execStatesvTeam, issue_next h rfl (stateTrap_eq_none (size := fun _ _ => teamBlockSize) ready)]
  simp only [drained, Bool.not_true, Bool.false_eq_true, if_false, stateAccess_writes ready steady]

theorem execStatesvBar_eq (h : Issues (.statesvBar va) s t c)
    (ready : BlockReady s t (stateVa t va) (8 * s.barriers t) true)
    (performed : t.unperformed.any Outst.accesses = false) (steady : s.switching = false) :
    let s0 := blockFilled s t (stateVa t va) (8 * s.barriers t)
    let s1 := (s0.blockWrite t (blockOuts s t (stateVa t va) (8 * s.barriers t) true) (stateVa t va).toNat
      ((List.range (s0.barriers t)).flatMap fun n =>
        leBytes 8 ((s0.cast? t.cast).elim 0 fun c => (c.bars.getD n 0).toNat))).onCast t.cast fun c => { c with recent := [] }
    execStatesvBar va s = .next (s1.done (s1.again t) c) := by
  rw [execStatesvBar, issue_next h rfl (stateTrap_eq_none (size := barBlockSize) ready)]
  simp only [performed, Bool.false_eq_true, if_false, barBlockSize, stateAccess_writes ready steady]

theorem execStatersTeam_eq (h : Issues (.statersTeam va) s t c)
    (ready : BlockReady s t (stateVa t va) teamBlockSize false) (performed : t.unperformed = [])
    (steady : s.switching = false) :
    let r := (blockFilled s t (stateVa t va) teamBlockSize).teamRead t.core
      (blockOuts s t (stateVa t va) teamBlockSize false) (stateVa t va).toNat teamBlockSize .l1
    execStatersTeam va s = .next (
      if r.2.2 = true then r.1.trapNow t c { code := .memoryError, addr := stateVa t va }
      else r.1.done (t.restore r.2.1) c) := by
  rw [execStatersTeam, issue_next h rfl (stateTrap_eq_none (size := fun _ _ => teamBlockSize) ready)]
  simp only [performed, List.isEmpty_nil, Bool.not_true, Bool.false_eq_true, if_false, stateAccess_reads ready steady]

theorem execStatersBar_eq (h : Issues (.statersBar va) s t c)
    (ready : BlockReady s t (stateVa t va) (8 * s.barriers t) false)
    (performed : t.unperformed.any Outst.accesses = false) (steady : s.switching = false) :
    let r := (blockFilled s t (stateVa t va) (8 * s.barriers t)).teamRead t.core
      (blockOuts s t (stateVa t va) (8 * s.barriers t) false) (stateVa t va).toNat (8 * s.barriers t) .l1
    let s1 := (List.range (r.1.barriers t)).foldl (fun (s : State) n =>
      s.barChange t.cast n (.put (BitVec.ofNat 64 (field r.2.1 (8 * n) 8))) (some t.id)) r.1
    execStatersBar va s = .next (
      if r.2.2 = true then r.1.trapNow t c { code := .memoryError, addr := stateVa t va }
      else s1.done (s1.again t) c) := by
  rw [execStatersBar, issue_next h rfl (stateTrap_eq_none (size := barBlockSize) ready)]
  simp only [performed, Bool.false_eq_true, if_false, barBlockSize, stateAccess_reads ready steady]

theorem execExitSaved_eq (h : Issues .exitSaved s t c) (saving : t.psave = true) (quiet : s.quiet t = true) :
    execExitSaved s = .next ((((s.release t .dev).dropTeam t).onGrid t.grid fun g =>
      g.save ((s.cast? t.cast).elim 0 (·.index)) t.cslot).settlePreempt t.ctx) := by
  rw [execExitSaved, issue_next h (if_pos saving) rfl]
  simp only [quiet, Bool.not_true, Bool.false_eq_true, if_false]

end

/-- A restored word expects at most the four slots that there are (R213). -/
theorem restoredBar_exp (w : DWord) : (restoredBar w).exp.toNat = min 4 (Bar.ofWord w).exp.toNat := by
  by_cases large : 4 < (Bar.ofWord w).exp.toNat
  · simp only [restoredBar, large, if_true, Nat.min_eq_left (Nat.le_of_lt large)]
    rfl
  · simp only [restoredBar, large, if_false, Nat.min_eq_right (Nat.not_lt.mp large)]

/-- Settles O21: each block access by the granules that it finds mapped, and EXIT.saved by its handler. -/
theorem stateSaveAndRestoreComplete : Obligations.StateSaveAndRestoreComplete :=
  ⟨fun _ _ _ _ h ready drained steady => execStatesvTeam_eq h ready drained steady,
    fun _ _ _ _ h ready performed steady => execStatesvBar_eq h ready performed steady,
    fun _ _ _ _ h ready performed steady => execStatersTeam_eq h ready performed steady,
    fun _ _ _ _ h ready performed steady => execStatersBar_eq h ready performed steady,
    Bar.clock_put, fun w => ⟨rfl, restoredBar_exp w⟩,
    fun _ _ _ h saving quiet => execExitSaved_eq h saving quiet,
    .of_pre (post := noTrap) (fun _ => rfl) fun _ _ _ elsewhere => if_neg (by simp [elsewhere])⟩

end Sys2Proof.Machine
end

section
/-! Queries of the Astrolabe engines from acceptance to completion, graph records and search shares (R320 to R333). -/

namespace Sys2Proof.Machine

/-! ### Acceptance (R204, R326) -/

section
variable {s : State} {tm : Team} {e : Outst} {o : F2}

/-- F2_COMPLETION of a QSRCH whose team's order, remote steps and translations allow it. -/
theorem execF2Completion_qsrch {t k : Nat} (notPosted : s.posted? t k = none) (entry : s.entry? t k = some (tm, e))
    (instr : e.instr = .qsrch o) (ends : e.ends = true) (order : tm.inOrder e = true) (answered : s.awaiting tm e = false)
    (translated : s.unanswered? tm e = none) : execF2Completion t k s = .next (completeQsrch s tm e o) := by
  simp [execF2Completion, notPosted, entry, instr, ends, order, answered, translated]

theorem completeQsrch_accepts (mapped : s.mapped tm e = true) :
    let a := e.arg 0
    let scr := szScratch o.ext.sz
    let h := (s.operand tm e scr a 64).1
    let p := (s.operand tm e scr a (s.packetLen h)).1
    s.headBad tm e.outs scr a = (false, false) → packetAligned h = true → (scr = true → a + s.packetLen h ≤ s.scratchSize tm) →
    (s.operand tm e scr a (s.packetLen h)).2 = false →
    let stack := s.ownerStack (coreDie tm.core) h
    (s.queries.filter (·.stack == stack)).length < 256 →
    let q : Query :=
      { id := s.nextId, stack := stack, ctx := tm.ctx, world := tm.world, team := tm.id, packet := p, outs := e.outs,
        vis := [], cand := [], res := [], fresh := [], rounds := 0, full := false, nandist := false, badrec := false,
        status := s.packetStatus tm.ctx p, written := false,
        ord := (field p 0 4).testBit 24, seq := s.nextId }
    let s1 := if scr then s else s.engineRead e.outs a (s.packetLen h)
    completeQsrch s tm e o = ({ s1 with nextId := s.nextId + 1, queries := s.queries ++ [q] } : State).complete tm e := by
  intro a scr h p head aligned inside readable stack slot q s1
  have room : (scr && decide (s.scratchSize tm < a + s.packetLen h)) = false := by simpa using inside
  have free : s.slotsFull tm h = false := decide_eq_false (Nat.not_le.mpr slot)
  simp only [a, scr, h] at head aligned readable room free
  simp only [completeQsrch, head, aligned, room, mapped, readable, free, Bool.not_true, Bool.not_false, Bool.and_false,
    Bool.or_false, Bool.and_true, Bool.false_eq_true, if_false]
  rfl

end

/-! ### Rounds (R327, R328) -/

@[simp] theorem Query.expand_id (nv : Nat) : ∀ (vs : List Nat) (q : Query), (Query.expand nv vs q).id = q.id
  | [], _ => rfl
  | v :: rest, q => by
    simp only [Query.expand]
    by_cases beyond : nv ≤ v
    · rw [if_pos beyond, Query.expand_id nv rest]
    by_cases visited : q.vis.contains (BitVec.ofNat 32 v) = true
    · rw [if_neg beyond, if_pos visited, Query.expand_id nv rest]
    by_cases full : Config.visitedMax ≤ q.vis.length
    · rw [if_neg beyond, if_neg visited, if_pos full]
    · rw [if_neg beyond, if_neg visited, if_neg full, Query.expand_id nv rest]

theorem any_isNone_of_all_isSome {α β : Type} {l : List (α × Option β)} (all : l.all (·.2.isSome) = true) :
    l.any (·.2.isNone) = false := by
  rw [List.any_eq_false]
  intro x member
  simpa [Option.isSome_iff_ne_none] using List.all_eq_true.mp all x member

section
variable {s : State} {q : Nat} {x : Query} {g : Graph}

theorem execQueryRound_first (query : s.query? q = some x) (graph : s.graph? (field x.packet 0 1) = some g)
    (runs : x.status = none) (fresh : x.fresh = []) (first : x.vis = []) : execQueryRound q s =
    .next (s.onQuery q fun x => x.expand (graphNv g.record) (packetEntries x.packet)) := by
  simp [execQueryRound, query, graph, runs, fresh, first]

theorem execQueryRound_later (query : s.query? q = some x) (graph : s.graph? (field x.packet 0 1) = some g)
    (runs : x.status = none) (arrived : x.fresh.all (·.2.isSome) = true) (later : x.vis ≠ []) :
    execQueryRound q s = .next (s.popNext g.record x.merge) := by
  simp only [execQueryRound, query, graph, runs, any_isNone_of_all_isSome arrived, List.isEmpty_eq_false_iff.mpr later,
    Option.isSome_none, Bool.or_self, Bool.false_eq_true, if_false]

theorem State.popNext_empty {record : List Byte} (room : x.full = false) (done : x.cand = []) :
    s.popNext record x = s.onQuery x.id fun _ => x.stop 0 := by
  simp only [State.popNext, room, done, Bool.false_eq_true, if_false]
  rfl

theorem State.popNext_expands {record : List Byte} {p : Word × Word} {rest : List (Word × Word)} (room : x.full = false)
    (next : x.cand = p :: rest) (rounds : x.rlim = 0 ∨ x.rounds ≠ x.rlim)
    (near : x.res.length ≠ x.ef ∨ x.res.getLast?.elim false (fun w => pairLt w p) = false) :
    let r := recordAt record p.2.toNat
    let n := s.neighbours record r.2
    s.physBad (r.2 + graphVb record) (4 + 4 * n.1.length) = false →
    let q2 := ({ x with cand := rest, badrec := x.badrec || n.2 } : Query).expand (graphNv record) n.1
    s.popNext record x = s.onQuery x.id fun _ => { q2 with rounds := q2.rounds + 1 } := by
  rcases place : recordAt record p.2.toNat with ⟨st, pa⟩
  rcases listed : s.neighbours record pa with ⟨ns, bad⟩
  simp only [listed]
  intro readable
  have goesOn : (x.rlim != 0 && x.rounds == x.rlim) = false := by
    rw [Bool.and_eq_false_imp, bne_iff_ne, beq_eq_false_iff_ne]
    exact fun limited => rounds.resolve_left limited
  have nearer : (x.res.length == x.ef && x.res.getLast?.elim false fun w => pairLt w p) = false := by
    rw [Bool.and_eq_false_imp, beq_iff_eq]
    exact fun full => near.resolve_left fun short => short full
  simp only [State.popNext, room, next, goesOn, nearer, place, listed, readable, Query.expand_id, Bool.false_eq_true,
    if_false]

theorem execVertexDistance_returns {v : Word} (query : s.query? q = some x)
    (graph : s.graph? (field x.packet 0 1) = some g) (waits : x.fresh.any (fun f => f.1 == v && f.2.isNone) = true) :
    let pa := (recordAt g.record v.toNat).2
    s.physBad pa (graphVb g.record) = false →
    let vec (bs : List Byte) := (List.range (graphDim g.record)).map (vecElem (graphEfmt g.record) bs)
    let r := distanceOf x.ip (vec (x.packet.drop 0x40)) (vec (s.physRead pa (graphVb g.record)))
    execVertexDistance q v s = .next (s.onQuery q fun x => { x with
      nandist := x.nandist || r.2
      fresh := replaceIf x.fresh (fun f => f.1 == v && f.2.isNone) fun f => (f.1, some r.1) }) := by
  intro pa readable vec r
  simp only [execVertexDistance, query, graph, waits, Bool.not_true, Bool.false_eq_true, if_false]
  exact if_neg (by rw [readable]; exact Bool.false_ne_true)

/-! ### Completion (R331) -/

theorem execQueryCompletion_eq {st : Nat} (query : s.query? q = some x) (stopped : x.status = some st)
    (turn : x.ord = true → s.queries.any (fun y => y.ord && y.team == x.team && decide (y.seq < x.seq)) = false) :
    let ws := x.writes st
    let s1 := if x.written then s else ((ws.foldl (fun (s : State) w => s.vwrite x.outs w.1 w.2) s).remoteStores q x.ctx x.world
      (ws.flatMap fun w => peerPieces x.outs w.1 w.2)).onQuery q fun x => { x with written := true }
    execQueryCompletion q s = .next (if x.early st s.freeCtr ≠ [] then s.showWords x (x.early st s.freeCtr)
      else if s1.unanswered q then s1 else
      (({ s1 with queries := s1.queries.filter (·.id != q) } : State).bump x.team
        (if st = 4 then none else packetCounter x.packet))) := by
  intro ws s1
  have mayWrite : (x.ord && s.queries.any fun y => y.ord && y.team == x.team && decide (y.seq < x.seq)) = false := by
    rw [Bool.and_eq_false_imp]; exact turn
  simp only [execQueryCompletion, query, stopped, mayWrite, Bool.false_eq_true, if_false, Bool.not_eq_true',
    List.isEmpty_eq_false_iff, beq_iff_eq, ← apply_ite Host.Outcome.next]
  rfl

theorem execQueryCompletion_waits {st : Nat} (query : s.query? q = some x) (stopped : x.status = some st)
    (ordered : x.ord = true)
    (earlier : s.queries.any (fun y => y.ord && y.team == x.team && decide (y.seq < x.seq)) = true) :
    execQueryCompletion q s = .next s := by
  simp only [execQueryCompletion, query, stopped, ordered, earlier, Bool.and_self, if_true]

end

/-! ### Graphs and search shares (R322, R333) -/

section
variable {s : State} {g : Nat} {record : List Byte}

theorem execGraphRegistration_eq (known : g < 256) (size : record.length = 192) (valid : recordValid record = true)
    (ready : s.pfReady = true) :
    let s1 := s.window (0x010000 + 256 * g) record
    execGraphRegistration g record s = .next (if s1.graphRefused g record = true then s1.grstat g 1 else
      { s1.grstat g 0 with graphs := s1.graphs ++ [{ g := g, record := record, leaving := false }] }) := by
  intro s1
  have taken : (decide (256 ≤ g) || record.length != 192 || !recordValid record || !s.pfReady) = false := by
    simp [size, valid, ready, known]
  rw [execGraphRegistration, taken, apply_ite Host.Outcome.next]
  rfl

theorem execGraphUnregistration_eq (known : g < 256) (size : record.length = 192) (invalid : recordValid record = false)
    (ready : s.pfReady = true) :
    let s1 := s.window (0x010000 + 256 * g) record
    execGraphUnregistration g record s = .next (if ((s1.graph? g).isSome && s1.graphNamed g) = true then
      { s1.grstat g 2 with graphs := s1.graphs.map fun x => if x.g == g then { x with leaving := true } else x }
    else { s1.grstat g 0 with graphs := s1.graphs.filter (·.g != g) }) := by
  intro s1
  have taken : (decide (256 ≤ g) || record.length != 192 || recordValid record || !s.pfReady) = false := by
    simp [size, invalid, ready, known]
  rw [execGraphUnregistration, taken, apply_ite Host.Outcome.next]
  rfl

end

theorem execUnregistrationEffect_due {s : State} {g : Nat} {x : Graph} (graph : s.graph? g = some x)
    (leaving : x.leaving = true) (unnamed : s.graphNamed g = false) :
    let s1 : State := { s with graphs := s.graphs.filter (·.g != g) }
    execUnregistrationEffect g s =
      .next (if s.regs.grstat = 2#2 ++ BitVec.ofNat 8 g then s1.grstat g 0 else s1) := by
  simp [execUnregistrationEffect, graph, leaving, unnamed]

theorem execSshare_sets {s : State} {stack : Nat} {value : Word} (known : stack < 8) (inRange : value.toNat % 16 ≤ 8)
    (free : value.toNat % 16 = 0 → s.graphs.any (fun g => (graphHome g.record stack).2.1 != 0) = false)
    (ready : s.pfReady = true) : execSshare stack value s =
      .next { s with regs := { s.regs with sshare := setAt s.regs.sshare stack (value.setWidth 4) 0 } } := by
  have number : (value.setWidth 4).toNat = value.toNat % 16 := by simp
  have zero : (value.setWidth 4 == 0) = decide (value.toNat % 16 = 0) := by
    rw [Bool.beq_eq_decide_eq, ← number]; simp [← BitVec.toNat_inj]
  have taken : ¬ (decide (8 ≤ stack) || decide (8 < (value.setWidth 4).toNat) ||
      (value.setWidth 4 == 0 && s.graphs.any fun g => (graphHome g.record stack).2.1 != 0) || !s.pfReady) = true := by
    rw [zero, number]
    simp only [ready, Bool.not_true, Bool.or_false, Bool.or_eq_true, Bool.and_eq_true, decide_eq_true_eq, not_or, not_and]
    exact ⟨⟨Nat.not_le.mpr known, Nat.not_lt.mpr inRange⟩, fun none' => by rw [free none']; exact Bool.false_ne_true⟩
  exact if_neg taken

/-- Settles O31: each row by the branch that its hypotheses single out. -/
theorem searchComplete : Obligations.SearchComplete := by
  refine ⟨fun s t k tm e o notPosted entry instr ends order answered translated mapped => ?accept,
    fun s q x g query graph runs fresh first => execQueryRound_first query graph runs fresh first,
    fun s q x g query graph runs arrived later room done =>
      (execQueryRound_later query graph runs arrived later).trans (congrArg _ (State.popNext_empty room done)),
    fun s q x g p rest query graph runs arrived later room next rounds near => ?pops,
    fun s q v x g query graph waits => execVertexDistance_returns query graph waits,
    fun s q x st query stopped turn => execQueryCompletion_eq query stopped turn,
    fun s q x st query stopped ordered earlier => execQueryCompletion_waits query stopped ordered earlier,
    fun s g record known size valid ready => ?refused, fun s g record known size invalid ready => ?marked,
    fun s g record known size valid ready => ?registered, fun s g record known size invalid ready => ?unregistered,
    fun s g x graph leaving unnamed => execUnregistrationEffect_due graph leaving unnamed,
    fun s stack value known inRange free ready => execSshare_sets known inRange free ready⟩
  case accept =>
    intro a scr h p head aligned inside readable stack slot q s1
    rw [← completeQsrch_accepts mapped head aligned inside readable slot]
    exact execF2Completion_qsrch notPosted entry instr ends order answered translated
  case pops =>
    intro r n readable q2
    rw [← State.popNext_expands room next rounds near readable]
    exact execQueryRound_later query graph runs arrived later
  case refused =>
    intro s1 refused
    exact (execGraphRegistration_eq known size valid ready).trans (congrArg _ (if_pos refused))
  case marked =>
    intro s1 registered named
    exact (execGraphUnregistration_eq known size invalid ready).trans
      (congrArg _ (if_pos (by rw [Bool.and_eq_true]; exact ⟨registered, named⟩)))
  case registered =>
    intro s1 good
    exact (execGraphRegistration_eq known size valid ready).trans
      (congrArg _ (if_neg (by rw [good]; exact Bool.false_ne_true)))
  case unregistered =>
    intro s1 unnamed
    exact (execGraphUnregistration_eq known size invalid ready).trans
      (congrArg _ (if_neg (by rw [unnamed, Bool.and_false]; exact Bool.false_ne_true)))

end Sys2Proof.Machine
end

section
/-! Flits that arrive, wait or pass, carries that land, and ports that come up or go down (R352 to R359). -/

namespace Sys2Proof.Machine

/-! ### Taking a flit (R354) -/

section
variable {s s1 : State} {f : Flit} {ty : BitVec 4}

theorem State.comes_arrived {k : State → State} (arrives : s.arrive ty f = some s1) : s.comes ty f k = .next (k s1) := by
  simp only [State.comes, arrives, Option.elim_some]

/-- A flit that comes behind another of its source, or behind a carry whose bytes wait, joins the inbox. -/
theorem State.comes_behind {k : State → State} (new : s.newFlit f = true)
    (behind : s.behindCarry f = true ∨ s.firstOf f.src ≠ none) (notFirst : s.firstOf f.src ≠ some f)
    (here : s.forHere ty f = true) : s.comes ty f k = .next { s.received f with inbox := s.inbox ++ [f] } := by
  have behind' : (s.behindCarry f || (s.firstOf f.src).isSome) = true := by
    rw [Bool.or_eq_true, Option.isSome_iff_ne_none]; exact behind
  have stays : s.arrive ty f = none := by
    rcases behind with carry | other
    · simp [State.arrive, carry]
    · simp [State.arrive, notFirst, other]
  simp only [State.comes, stays, Option.elim_none, State.waitHere, here, new, behind', Bool.and_self, if_true]

theorem State.arrive_first (here : s.forHere ty f = true) (free : s.behindCarry f = false)
    (first : s.firstOf f.src = some f) : s.arrive ty f = some { s with inbox := s.inbox.erase f } := by
  simp [State.arrive, here, free, first]

theorem State.arrive_new (here : s.forHere ty f = true) (free : s.behindCarry f = false) (first : s.firstOf f.src = none)
    (new : s.newFlit f = true) : s.arrive ty f = some (s.received f) := by
  simp [State.arrive, here, free, first, new]

/-! ### Stores, atomics and answers (R355, R357) -/

theorem flitWrites_plain (plain : flitMasked f = false) :
    flitWrites f = [(f.addr.toNat, f.data)] ∧ flitSpan f = f.data.length := by
  simp [flitWrites, flitSpan, plain]

theorem execRemoteAtomic_performs (arrives : s.arrive 2 f = some s1) :
    let z := if f.opc.getLsbD 4 then 8 else 4
    let op := f.opc.toNat % 16
    s1.admits f z = true → op ≤ 8 → f.data.length = (if op = 8 then 2 * z else z) →
    let old := leNat (s1.hostData f.addr.toNat z)
    execRemoteAtomic f s = .next ((({ s1 with freeCtr := s1.freeCtr + 1 } : State).physWrite f.addr.toNat
      (leBytes z (remoteNew op z old f.data))).reply f 3 0 (leBytes z old)) := by
  intro z op admitted known size old
  have code : (f.opc.extractLsb' 0 4).toNat = op := by simp [op]
  have good : (!s1.admits f z || decide (8 < op) || f.data.length != if op == 8 then 2 * z else z) = false := by
    simp only [admitted, decide_eq_false (Nat.not_lt.mpr known), beq_iff_eq, size, bne_self_eq_false, Bool.not_true,
      Bool.or_self]
  rw [execRemoteAtomic, State.comes_arrived arrives]
  simp only [code]
  exact congrArg Host.Outcome.next (if_neg (by rw [good]; exact Bool.false_ne_true))

theorem execRemoteAtomic_refuses (arrives : s.arrive 2 f = some s1)
    (outside' : s1.admits f (if f.opc.getLsbD 4 then 8 else 4) = false) :
    execRemoteAtomic f s = .next (s1.reply f 8 0 (headerWord f)) := by
  rw [execRemoteAtomic, State.comes_arrived arrives]
  exact congrArg Host.Outcome.next (if_pos (by rw [outside']; rfl))

theorem execAcknowledgement_closes {r : Remote} (arrives : s.arrive 4 f = some s1) (request : s1.remote? f = some r)
    (store : r.atomic = false) : execAcknowledgement f s = .next (s1.closeRemote r) := by
  rw [execAcknowledgement, State.comes_arrived arrives]
  simp [request, store]

theorem execAtomicResponse_delivers {r : Remote} (arrives : s.arrive 3 f = some s1) (request : s1.atomic? f = some r) :
    execAtomicResponse f s = .next ((s1.closeRemote r).deliver r (leNat f.data)) := by
  rw [execAtomicResponse, State.comes_arrived arrives]
  simp only [request, Option.elim_some]

theorem execRefusal_request {r : Remote} (arrives : s.arrive 8 f = some s1) (request : s1.remote? f = some r) :
    execRefusal f s = .next (s1.refuseRemote r) := by
  rw [execRefusal, State.comes_arrived arrives]
  simp only [request]

theorem execRefusal_carry {k : CarryOut} (arrives : s.arrive 8 f = some s1) (none' : s1.remote? f = none)
    (carry : s1.carry? (flitAnswers f).1 (flitAnswers f).2 = some k) :
    execRefusal f s = .next (s1.carryStat k 4) := by
  rw [execRefusal, State.comes_arrived arrives]
  simp only [none', carry, Option.elim_some]

theorem execCarryStatus_ends {k : CarryOut} (arrives : s.arrive 7 f = some s1)
    (carry : s1.carry? (flitAnswers f).1 (flitAnswers f).2 = some k) :
    execCarryStatus f s = .next (s1.carryStat k f.opc.toNat) := by
  rw [execCarryStatus, State.comes_arrived arrives]
  simp only [carry, Option.elim_some]

end

/-! ### Carries that open (R358, R359) -/

/-- None of the carries that came before a carry in its clock came at a later port. -/
theorem takeWhile_laterPort {s : State} {k : CarryIn} {l : List CarryIn}
    (earlier : ∀ x ∈ l, x.clk = k.clk → s.portOf x.src ≤ s.portOf k.src) :
    (l.reverse.takeWhile fun x => x.clk == k.clk && decide (s.portOf k.src < s.portOf x.src)) = [] := by
  cases reversed : l.reverse with
  | nil => rfl
  | cons x rest =>
    have member : x ∈ l := List.mem_reverse.mp (reversed ▸ List.mem_cons_self)
    rw [List.takeWhile_cons, if_neg]
    rw [Bool.and_eq_true, beq_iff_eq, decide_eq_true_eq]
    rintro ⟨sameClock, later⟩
    exact Nat.not_lt.mpr (earlier x member sameClock) later

theorem State.addCarry_last {s : State} {k : CarryIn}
    (earlier : ∀ x ∈ s.landing, x.clk = k.clk → s.portOf x.src ≤ s.portOf k.src) :
    (s.addCarry k).landing = s.landing ++ [k] := by
  simp only [State.addCarry, takeWhile_laterPort earlier, List.length_nil, Nat.sub_zero, List.take_length, List.drop_length]

theorem State.addCarry_before {s : State} {k x : CarryIn} {l : List CarryIn} (landing : s.landing = l ++ [x])
    (earlier : ∀ y ∈ l, y.clk = k.clk → s.portOf y.src ≤ s.portOf k.src) (sameClock : x.clk = k.clk)
    (later : s.portOf k.src < s.portOf x.src) : (s.addCarry k).landing = l ++ [k, x] := by
  simp [State.addCarry, landing, takeWhile_laterPort earlier, sameClock, later]

theorem State.openCarry_opens {s : State} {f : Flit} (fresh : s.landing.any (·.takes f) = false)
    (earlier : ∀ x ∈ s.landing, x.clk = s.clk → s.portOf x.src ≤ s.portOf f.src) :
    let t := s.carryTerms f
    let e := s.endpoint (flitEndpoint f) (flitLandAt f) t.1
    (s.openCarry f).landing = s.landing ++ [{
      src := f.src, ep := flitEndpoint f, stat := e.1, cast := e.2.elim 0 (·.id),
      core := e.2.elim 0 (·.core), off := flitLandAt f, len := t.1, bar := t.2, op := s.nextId, granted := false, data := [],
      landed := 0, ended := none, clk := s.clk }] := by
  simp only [State.openCarry, fresh, Bool.false_eq_true, if_false]
  exact State.addCarry_last (s := s.fresh.2) earlier

/-! ### Carries that land (R205, R358) -/

/-- A carry with STAT 0 that a flit, its last or not, has joined. -/
def CarryIn.joined (k : CarryIn) (f : Flit) (last : Bool) : CarryIn :=
  { k with data := k.data ++ [(flitLandAt f, f.data)], ended := if last then some f else none }

section
variable {s : State} {f : Flit} {last : Bool} {k : CarryIn}

/-- A flit of the one carry that lands joins it, and the carry then does what it can. -/
theorem State.carryFlit_alone (alone : s.landing = [k]) (takes : k.takes f = true) (good : k.stat = 0) :
    s.carryFlit f last = ({ s with landing := [k.joined f last] } : State).landOne k.op := by
  have opened : s.openCarry f = s := by simp [State.openCarry, alone, takes]
  simp [State.carryFlit, opened, alone, replaceIf, takes, good, State.landAll, CarryIn.joined]

/-- A carry whose entry is granted lands, where nothing holds it. -/
theorem State.landOne_alone (alone : s.landing = [k]) (good : k.stat = 0) (granted : k.granted = true) :
    s.landOne k.op = if s.landingHeld k = true then s
      else k.ended.elim (s.landBytes k) fun f =>
        (s.landBytes k).endCarry (((s.landBytes k).landing.find? (·.op == k.op)).getD k) f := by
  have kept : s.grantCarry k = s := by simp [State.grantCarry, granted]
  have found : s.landing.find? (·.op == k.op) = some k := by simp [alone]
  simp only [State.landOne, found, kept, Option.getD_some, good, BEq.rfl, Bool.true_and, if_true]
  cases k.ended <;> rfl

theorem State.carryFlit_waits (alone : s.landing = [k]) (takes : k.takes f = true) (good : k.stat = 0)
    (granted : k.granted = true) (sameClock : k.clk = s.clk) :
    s.carryFlit f last = { s with landing := [k.joined f last] } := by
  rw [State.carryFlit_alone alone takes good]
  refine (State.landOne_alone (k := k.joined f last) rfl good granted).trans (if_pos ?_)
  simp [State.landingHeld, CarryIn.joined, sameClock]

/-- The bytes of a carry's one flit land at their offset. -/
theorem State.landBytes_joined (empty : k.data = []) :
    ({ s with landing := [k.joined f last] } : State).landBytes (k.joined f last) =
      { (s.onCast k.cast fun c => c.swrite (flitLandAt f) f.data) with
        landing := [{ k with landed := k.landed + f.data.length, ended := if last then some f else none }] } := by
  simp [State.landBytes, State.onLanding, replaceIf, CarryIn.joined, empty, State.onCast]

theorem State.carryFlit_lands (alone : s.landing = [k]) (takes : k.takes f = true) (good : k.stat = 0)
    (granted : k.granted = true) (empty : k.data = []) (runs : s.stopped = false) (otherClock : k.clk ≠ s.clk)
    (free : s.heldByAccess (((s.core k.core).ranges.filter (·.op == k.op)).map (k.core, ·)) = false) :
    let k' : CarryIn := { k with landed := k.landed + f.data.length, ended := if last then some f else none }
    let s1 : State := { (s.onCast k.cast fun c => c.swrite (flitLandAt f) f.data) with landing := [k'] }
    s.carryFlit f last = if last then s1.endCarry k' f else s1 := by
  intro k' s1
  have mayLand : ({ s with landing := [k.joined f last] } : State).landingHeld (k.joined f last) = false := by
    have first : ([k.joined f last].takeWhile (·.op != (k.joined f last).op)) = [] := by simp
    have laterClock : (k.clk == s.clk) = false := by simpa using otherClock
    change (!k.granted || s.stopped || k.clk == s.clk ||
      ([k.joined f last].takeWhile (·.op != (k.joined f last).op)).any _ ||
      s.heldByAccess (((s.core k.core).ranges.filter (·.op == k.op)).map (k.core, ·))) = false
    rw [first, granted, runs, laterClock, free]
    rfl
  rw [State.carryFlit_alone alone takes good]
  refine (State.landOne_alone (k := k.joined f last) rfl good granted).trans ?_
  rw [mayLand, State.landBytes_joined empty]
  cases last
  · rfl
  · simp [CarryIn.joined, k', s1]

theorem State.endCarry_eq (s : State) (k : CarryIn) (f : Flit) :
    let b := (k.bar.setWidth 7).toNat
    let s1 := if k.stat = 0 ∧ k.bar.getLsbD 7 = true ∧ b < (s.cast? k.cast).elim 0 (·.nb) then
      s.barChange k.cast b (.land k.landed) else s
    s.endCarry k f = (({ s1 with landing := s1.landing.filter (·.op != k.op) } : State).releaseOp k.op).reply f 7
      (BitVec.ofNat 8 k.stat) (headerWord f) := by
  simp only [State.endCarry, Bool.and_eq_true, beq_iff_eq, decide_eq_true_eq, and_assoc]

end

/-! ### Flits that pass (R353, R354) -/

section
variable {s : State} {f : Flit}

theorem execFlitForward_forwards {p : Nat} (foreign : s.foreign f = true) (good : flitDiscarded f = false)
    (hops : f.ttl ≠ 0) (route : s.portFor f.dst = some p) :
    execFlitForward f s = .next (s.emit (.flit p { f with ttl := f.ttl - 1 })) := by
  have way : (if (f.ttl == 0) = true then none else s.portFor f.dst) = some p := (if_neg (by simpa using hops)).trans route
  simp only [execFlitForward, foreign, good, way, Bool.not_true, Bool.or_self, Bool.false_eq_true, if_false]

theorem execFlitForward_refuses (foreign : s.foreign f = true) (good : flitDiscarded f = false)
    (stuck : f.ttl = 0 ∨ s.portFor f.dst = none) : execFlitForward f s = .next (s.refuseFlit f) := by
  have noWay : (if (f.ttl == 0) = true then none else s.portFor f.dst) = none := by
    simp only [beq_iff_eq, ite_eq_left_iff]
    exact fun hops => stuck.resolve_left hops
  simp only [execFlitForward, foreign, good, noWay, Bool.not_true, Bool.or_self, Bool.false_eq_true, if_false]

theorem execFlitDiscard_counts (bad : flitDiscarded f = true) (powered : s.mainOn = true)
    (linked : s.ports.any (·.state == .up) = true) :
    let s1 := if f.dst = s.regs.devid ∧ s.newFlit f = true then s.received f else s
    execFlitDiscard f s = .next { s1 with tele := { s1.tele with discarded := s1.tele.discarded + 1 } } := by
  simp only [execFlitDiscard, bad, powered, linked, Bool.and_self, if_true, Bool.and_eq_true, beq_iff_eq]

end

/-! ### Ports (R348, R349, R359) -/

section
variable {s : State} {port : Nat}

theorem execPortUp_trained {peer : BitVec 19} (known : port < 16) (enabled : (s.ports.getD port Port.reset).en = true)
    (powered : s.mainOn = true) (trains : (s.ports.getD port Port.reset).state = .training) :
    execPortUp port peer s = .next (({ s with
      ports := setAt s.ports port { s.ports.getD port Port.reset with state := .up, peer := peer } Port.reset } :
        State).emit (.msix 0 0)) := by
  simp only [execPortUp, decide_eq_false (Nat.not_le.mpr known), enabled, powered, trains, Bool.not_true,
    bne_self_eq_false, Bool.or_self, Bool.false_eq_true, if_false]

theorem execPortDown_falls (known : port < 16) (notDown : (s.ports.getD port Port.reset).state ≠ .down) :
    let lost := s.carries.filter fun k => k.dev != s.regs.devid && s.portFor k.dev == some port
    let s1 : State := { s with
      ports := setAt s.ports port { s.ports.getD port Port.reset with state := .down, peer := 0 } Port.reset
      regs := { s.regs with routeg := unroute port s.regs.routeg, routem := unroute port s.regs.routem } }
    let s2 := (s.remotes.filter (·.port == port)).foldl State.refuseRemote s1
    execPortDown port s = .next ((lost.foldl (fun s k => s.carryStat k 4) s2).emit (.msix 0 0)) := by
  simp only [execPortDown, decide_eq_false (Nat.not_le.mpr known), beq_eq_false_iff_ne.mpr notDown, Bool.or_self,
    Bool.false_eq_true, if_false]

theorem State.writeReg_portctl (known : port < 16) (en : Bool) :
    s.writeReg (0x200 + 16 * port) 4 en.toNat = s.portControl port en := by
  have bit : en.toNat.testBit 0 = en := by cases en <;> rfl
  have inside : 0x200 + 16 * port < 0x300 := by omega
  have aligned : (0x200 + 16 * port) % 16 = 0 := by omega
  have notWctl : 0x200 + 16 * port ≠ 0x10 := by omega
  have notSlotmap : ¬ 0x200 + 16 * port < 0x40 := by omega
  simp [State.writeReg, notWctl, notSlotmap, inside, aligned, bit]

theorem execRegisterWrite_portctl (known : port < 16) (ready : s.pfReady = true) (en : Bool) :
    let p := s.ports.getD port Port.reset
    let s1 : State := { s with ports := setAt s.ports port (p.control en) Port.reset }
    execRegisterWrite 0 (0x200 + 16 * port) 4 en.toNat s =
      .next (if (p.control en).state = p.state then s1 else s1.emit (.msix 0 0)) := by
  have noContext : ¬ 0x100000 ≤ 0x200 + 16 * port := by omega
  simp only [execRegisterWrite, noContext, decide_false, Bool.false_and, Bool.false_eq_true, if_false, BEq.rfl, ready,
    Bool.and_self, if_true, State.writeReg_portctl known, State.portControl, beq_iff_eq]

end

/-- Settles O34: a flit is taken or waits by its place among those of its source, and each row then does what its flit
asks. -/
theorem linkFlitsComplete : Obligations.LinkFlitsComplete :=
  ⟨fun _ _ _ arrives => State.comes_arrived arrives,
    fun _ _ new behind notFirst => ⟨State.comes_behind new behind notFirst, State.comes_behind new behind notFirst,
      State.comes_behind new behind notFirst, State.comes_behind new behind notFirst,
      State.comes_behind new behind notFirst, State.comes_behind new behind notFirst,
      State.comes_behind new behind notFirst, State.comes_behind new behind notFirst⟩,
    fun _ _ _ here free => ⟨State.arrive_first here free, State.arrive_new here free⟩,
    fun _ => flitWrites_plain, fun _ _ _ _ _ => rfl, fun _ _ _ arrives => execRemoteAtomic_performs arrives,
    fun _ _ _ arrives outside' => execRemoteAtomic_refuses arrives outside',
    fun _ _ _ _ arrives request store => execAcknowledgement_closes arrives request store,
    fun _ _ _ _ arrives request => execAtomicResponse_delivers arrives request,
    fun _ _ _ _ arrives request => execRefusal_request arrives request,
    fun _ _ _ _ arrives none' carry => execRefusal_carry arrives none' carry,
    fun _ _ _ arrives => State.comes_arrived arrives, fun _ _ _ arrives => State.comes_arrived arrives,
    fun _ _ fresh earlier => State.openCarry_opens fresh earlier, fun _ _ earlier => State.addCarry_last earlier,
    fun _ _ _ _ landing earlier sameClock later => State.addCarry_before landing earlier sameClock later,
    fun _ _ _ _ alone takes good granted sameClock => State.carryFlit_waits alone takes good granted sameClock,
    fun _ _ _ _ alone takes good granted empty runs otherClock free =>
      State.carryFlit_lands alone takes good granted empty runs otherClock free,
    State.endCarry_eq, fun _ _ _ _ arrives carry => execCarryStatus_ends arrives carry,
    fun _ _ _ foreign good hops route => execFlitForward_forwards foreign good hops route,
    fun _ _ foreign good stuck => execFlitForward_refuses foreign good stuck,
    fun _ _ bad powered linked => execFlitDiscard_counts bad powered linked, fun _ _ => rfl,
    fun _ _ _ known enabled powered trains => execPortUp_trained known enabled powered trains,
    fun _ _ known notDown => execPortDown_falls known notDown,
    fun _ _ en known ready => execRegisterWrite_portctl known ready en⟩

end Sys2Proof.Machine
end

section
/-! Register writes, posted pieces and reads of the host, its ATS answers and invalidations, and the resolves (R240,
R271, R346, R347, R349, R350, R363). -/

namespace Sys2Proof.Machine

section
variable {s : State} {fn : Nat}

/-! ### Registers (R349, R350) -/

theorem execRegisterWrite_context {off : Nat} (n value : Nat) (above : 0x100000 ≤ off) (below : off < 0x110000)
    (reach : s.mayReach fn ((off - 0x100000) / 64) = true) :
    execRegisterWrite fn off n value s =
      .next (s.onCtx ((off - 0x100000) / 64) fun c => c.writeReg fn (off % 64) n value) := by
  simp only [execRegisterWrite, above, below, reach, decide_true, Bool.and_self, if_true]

theorem execRegisterWrite_device {off : Nat} (n value : Nat) (elsewhere : off < 0x100000 ∨ 0x110000 ≤ off)
    (ready : s.pfReady = true) : execRegisterWrite 0 off n value s = .next (s.writeReg off n value) := by
  have noContext : ¬ (0x100000 ≤ off ∧ off < 0x110000) := by omega
  simp only [execRegisterWrite, ← Bool.decide_and, decide_eq_true_eq, noContext, if_false, BEq.rfl, ready, Bool.and_self,
    if_true]

/-! ### Posted pieces and reads (R240, R346, R363) -/

theorem execHostPostedWrite_splits (pa : Nat) (data : List Byte) (up : s.hostUp = true) :
    execHostPostedWrite fn pa data s =
      .next { s with pieces := s.pieces ++ splitPieces fn (data.length + 1) pa data } := by
  simp only [execHostPostedWrite, up, Bool.not_true, Bool.false_eq_true, if_false]

theorem execPieceAcknowledgement_oldest {j : Nat} {p : Piece} (piece : s.pieces[j]? = some p)
    (oldest : (s.pieces.take j).any (·.fn == p.fn) = false) (up : s.hostUp = true) :
    execPieceAcknowledgement j s = .next (
      let s1 : State := { s with pieces := s.pieces.eraseIdx j }
      if s.secureRange p.pa p.data.length then s1.countRefused else s1.physWrite p.pa p.data) := by
  simp only [execPieceAcknowledgement, piece, oldest, up, Bool.not_true, Bool.or_self, Bool.false_eq_true, if_false]

theorem execHostRead_answers {pa n : Nat} (first : s.pieces.any (·.fn == fn) = false) (up : s.hostUp = true)
    (insecure : s.secureRange pa n = false) :
    execHostRead fn pa n s =
      .next ((({ s with freeCtr := s.freeCtr + 1 } : State).countNoMemory pa).emit (.readData fn (s.hostData pa n))) := by
  simp only [execHostRead, first, up, insecure, Bool.and_false, Bool.not_true, Bool.or_self, Bool.false_eq_true, if_false]

theorem execHostRead_refused {pa n : Nat} (first : s.pieces.any (·.fn == fn) = false) (up : s.hostUp = true)
    (nonempty : n ≠ 0) (secure : s.secureRange pa n = true) :
    execHostRead fn pa n s = .next (s.countRefused.emit (.unsupported fn)) := by
  simp only [execHostRead, first, up, secure, bne_iff_ne.mpr nonempty, Bool.and_self, Bool.not_true, Bool.or_self,
    Bool.false_eq_true, if_false, if_true]

end

/-! ### ATS (R347) -/

section
variable {s : State} {t k : Nat} {granted : Bool}

theorem execAtsAnswer_entry {tm : Team} {e : Outst} {g p : Nat} (runs : s.stopped = false) (entry : k ≠ 0)
    (translating : s.translating? t k = some (tm, e)) (unanswered : s.unanswered? tm e = some g)
    (asks : s.askGranule tm e (s.neededMode tm e g fun m => s.askGranule tm e m true g) true g = .awaitAts p) :
    execAtsAnswer t k granted s = .next (
      if granted then
        if s.ats.contains ((s.ctx tm.ctx).pasid, p) then s else { s with ats := s.ats ++ [((s.ctx tm.ctx).pasid, p)] }
      else s.setTeam { tm with
        outst := replaceIf tm.outst (·.seq == e.seq) fun e => { e with outs := e.outs ++ [(g, .denied)] } }) := by
  simp only [execAtsAnswer, runs, bne_iff_ne.mpr entry, translating, Bool.false_eq_true, if_false, if_true,
    State.atsEntry, unanswered, asks, State.grantAts]

theorem execAtsAnswer_stopped (stopped : s.stopped = true) : execAtsAnswer t k granted s = .next s :=
  if_pos stopped

end

theorem execHostAtsInvalidation_drops {s : State} {page : Nat}
    (teams : (s.teams.any fun t => t.unperformed.any fun o => !o.failed && o.outs.any fun x => x.2.inHostPage page) = false)
    (queries : (s.queries.any fun q => q.outs.any fun x => x.2.inHostPage page) = false)
    (steps : ∀ w ∈ s.sweeps, ∀ x, w.step = some x → (x.outs.any fun y => y.2.inHostPage page) = false) :
    execHostAtsInvalidation page s = .next { s with ats := s.ats.filter (·.2 != page) } := by
  have sweeps : (s.sweeps.any fun w => w.step.elim false fun x => x.outs.any fun y => y.2.inHostPage page) = false := by
    refine List.any_eq_false.mpr fun w member => ?_
    cases step : w.step with
    | none => exact Bool.false_ne_true
    | some x => exact Bool.eq_false_iff.mp (steps w member x step)
  simp only [execHostAtsInvalidation, teams, queries, sweeps, Bool.or_self, Bool.false_eq_true, if_false]

/-! ### Resolves (R271, R272) -/

section
variable {s : State} {fn ctx g act : Nat} {word : DWord} {asid : BitVec 16} {f : State → Nat → Nat → State}

theorem State.resolve_applies (fields : resolveFields word = (act, ctx, g, asid)) (runs : s.stopped = false)
    (reach : s.mayReach fn ctx = true) (named : act = 2 ∨ (s.ctx ctx).asid = asid) :
    s.resolve fn word act f = .next (f s ctx g) := by
  have known : (act != 2 && (s.ctx ctx).asid != asid) = false := by
    rw [Bool.and_eq_false_iff, bne_eq_false_iff_eq, bne_eq_false_iff_eq]
    exact named
  simp only [State.resolve, fields, runs, reach, known, bne_self_eq_false, Bool.not_true, Bool.or_self,
    Bool.false_eq_true, if_false]

theorem State.resolve_stopped (stopped : s.stopped = true) : s.resolve fn word act f = .next s := by
  simp only [State.resolve, stopped, Bool.or_true, Bool.true_or, if_true]

/-- What RESOLVE_FAIL of a granule does to one team: parked on the granule it takes PROTECTION, or with instructions
outstanding keeps the failure until they have completed (R97, R271). -/
def State.failParked (g : Nat) (s : State) (t : Team) : State :=
  t.park.elim s fun k =>
    let va := ((k.missing.find? (·.1 == g)).map (·.2)).getD 0
    let lanes := ((k.lanes.find? (·.1 == g)).map (·.2)).getD 0
    if t.outst = [] then s.enterTrap t { code := .protection, addr := va, lanes := lanes } k.resume
    else s.setTeam { t with park := some { k with failed := k.failed.or (some (va, lanes)) } }

theorem foldl_eq_of_step_eq {α β : Type} {f g : β → α → β} {l : List α} {b : β} (same : ∀ b a, f b a = g b a) :
    l.foldl f b = l.foldl g b :=
  congrArg (fun step => l.foldl step b) (funext fun b => funext (same b))

theorem execResolveFail_eq (fn : Nat) (word : DWord) (s : State) :
    execResolveFail fn word s = s.resolve fn word 1 fun s ctx g =>
      let parked := s.teams.filter fun t => t.ctx == ctx && t.park.elim false fun k => k.missing.any (·.1 == g)
      let s1 := parked.foldl (State.failParked g) s
      let s2 := if s.engineWaits ctx g then s1.contextFault ctx (s.waitDie ctx g) 5 0 0 else s1
      s2.clearGranules ctx (· == g) := by
  refine congrArg (s.resolve fn word 1) (funext fun s => funext fun ctx => funext fun g => ?_)
  dsimp only
  rw [foldl_eq_of_step_eq (g := State.failParked g)]
  intro s t
  unfold State.failParked
  cases t.park with
  | none => rfl
  | some k => simp only [List.isEmpty_iff, Option.elim_some]

theorem execResolveRetry_clears (fields : resolveFields word = (0, ctx, g, asid)) (runs : s.stopped = false)
    (reach : s.mayReach fn ctx = true) (named : (s.ctx ctx).asid = asid) :
    execResolveRetry fn word s = .next (s.clearGranules ctx (· == g)) :=
  State.resolve_applies fields runs reach (.inr named)

theorem execResolveRetryAll_clears (fields : resolveFields word = (2, ctx, g, asid)) (runs : s.stopped = false)
    (reach : s.mayReach fn ctx = true) :
    execResolveRetryAll fn word s = .next (s.clearGranules ctx fun _ => true) :=
  State.resolve_applies fields runs reach (.inl rfl)

theorem execResolveFail_fails (fields : resolveFields word = (1, ctx, g, asid)) (runs : s.stopped = false)
    (reach : s.mayReach fn ctx = true) (named : (s.ctx ctx).asid = asid) :
    let parked := s.teams.filter fun t => t.ctx == ctx && t.park.elim false fun k => k.missing.any (·.1 == g)
    let s1 := parked.foldl (State.failParked g) s
    let s2 := if s.engineWaits ctx g then s1.contextFault ctx (s.waitDie ctx g) 5 0 0 else s1
    execResolveFail fn word s = .next (s2.clearGranules ctx (· == g)) :=
  (execResolveFail_eq fn word s).trans (State.resolve_applies fields runs reach (.inr named))

theorem execResolves_stopped (fn : Nat) (word : DWord) (stopped : s.stopped = true) :
    execResolveRetry fn word s = .next s ∧ execResolveRetryAll fn word s = .next s ∧
      execResolveFail fn word s = .next s :=
  ⟨State.resolve_stopped stopped, State.resolve_stopped stopped, State.resolve_stopped stopped⟩

end

/-- Settles O32: each row is the branch of its event that the hypotheses single out, and the three resolves are one
operation. -/
theorem hostAccessesAndTranslationsComplete : Obligations.HostAccessesAndTranslationsComplete :=
  ⟨fun _ _ _ n value above below reach => execRegisterWrite_context n value above below reach,
    fun _ _ n value elsewhere ready => execRegisterWrite_device n value elsewhere ready,
    fun _ _ pa data up => execHostPostedWrite_splits pa data up,
    fun _ _ _ piece oldest up => execPieceAcknowledgement_oldest piece oldest up,
    fun _ _ _ _ first up insecure => execHostRead_answers first up insecure,
    fun _ _ _ _ first up nonempty secure => execHostRead_refused first up nonempty secure,
    fun _ _ _ _ _ _ _ _ runs entry translating unanswered asks =>
      execAtsAnswer_entry runs entry translating unanswered asks,
    fun _ _ teams queries steps => execHostAtsInvalidation_drops teams queries steps,
    fun _ fn word _ _ _ stopped => ⟨execAtsAnswer_stopped stopped, execResolves_stopped fn word stopped⟩,
    fun _ _ _ _ _ _ fields runs reach named => execResolveRetry_clears fields runs reach named,
    fun _ _ _ _ _ _ fields runs reach => execResolveRetryAll_clears fields runs reach,
    fun _ _ _ _ _ _ fields runs reach named => execResolveFail_fails fields runs reach named⟩

end Sys2Proof.Machine
end

section
/-! Isolation of worlds (R259, R363): where a translation for the non-secure world leads, and what a write through it
leaves as it is. -/

namespace Sys2Proof.Machine

/-! ### What a translation answers (R259) -/

theorem leafBase_mod (e : DWord) (large : Bool) (g : Nat) : leafBase e large g % 65536 = 0 := by
  unfold leafBase
  split <;> omega

/-- Bytes of one 64 KiB page are secure together. -/
theorem State.securePa_page (s : State) {pa off : Nat} (start : pa % 65536 = 0) (inside : off < 65536) :
    s.securePa (pa + off) = s.securePa pa := by
  have page : (pa + off) / 65536 = pa / 65536 := by omega
  unfold State.securePa
  rw [page]

/-- A check that does not refuse the non-secure world finds no secure page of device memory. -/
theorem State.securePa_of_refused?_none {s : State} {m : Mode} {e : DWord} {base : Nat} (world : m.world = false)
    (device : (e.extractLsb' 53 2).toNat = 0) (allowed : s.refused? m e base = none) : s.securePa base = false := by
  unfold State.refused? at allowed
  split at allowed
  · contradiction
  · next unrefused =>
    simp only [world, device, Bool.not_false, Bool.true_and, beq_self_eq_true, Bool.or_eq_true, not_or] at unrefused
    simpa using unrefused.2

theorem State.peerWindow_ne_mapped (s : State) (c : Context) (e : DWord) (large : Bool) (g pa : Nat) (p : Page) :
    s.peerWindow c e large g ≠ .mapped pa p := by
  unfold State.peerWindow
  split
  · simp
  · dsimp only
    split
    · simp
    · split <;> simp

/-- A leaf that a non-secure access reaches starts a page of which no byte is secure. -/
theorem State.checkLeaf_mapped {s : State} {c : Context} {m : Mode} {e : DWord} {large : Bool} {g pa : Nat} {p : Page}
    (world : m.world = false) (mapped : s.checkLeaf c m e large g = .mapped pa p) :
    pa % 65536 = 0 ∧ s.securePa pa = false := by
  unfold State.checkLeaf at mapped
  dsimp only at mapped
  split at mapped
  · next x refused => exact absurd (mapped ▸ refused) (by unfold State.refused?; repeat' split <;> simp)
  · next allowed device =>
    obtain ⟨rfl, -⟩ := Xlat.mapped.inj mapped
    exact ⟨leafBase_mod e large g, State.securePa_of_refused?_none world device allowed⟩
  · repeat' split at mapped
    all_goals contradiction
  · exact absurd mapped (s.peerWindow_ne_mapped c e large g pa p)

theorem State.translate_mapped {s : State} {c : Context} {m : Mode} {hit : Bool} {g pa : Nat} {p : Page}
    (world : m.world = false) (mapped : s.translate c m hit g = .mapped pa p) :
    pa % 65536 = 0 ∧ s.securePa pa = false := by
  unfold State.translate at mapped
  split at mapped
  · contradiction
  · split at mapped
    · exact State.checkLeaf_mapped world mapped
    · split at mapped
      · exact State.checkLeaf_mapped world mapped
      all_goals contradiction

/-! ### What a write through a page changes (R250, R251) -/

/-- Every piece of a range lies in it. -/
theorem lineChunks_inside {off n : Nat} {c : Nat × Nat} (mem : c ∈ lineChunks off n) : off ≤ c.1 ∧ c.1 + c.2 ≤ off + n := by
  unfold lineChunks at mem
  split at mem
  · simp at mem
  · next some' =>
    obtain ⟨k, hk, rfl⟩ := List.mem_map.mp mem
    have hk := List.mem_range.mp hk
    have some' : n ≠ 0 := by simpa using some'
    dsimp only
    omega

theorem State.physWrite_read {s : State} (wf : s.MemWf) {pa a : Nat} {bs : List Byte} (out : a < pa ∨ pa + bs.length ≤ a) :
    (s.physWrite pa bs).mem.read a = s.mem.read a := by
  have mem (s : State) : (s.countNoMemory pa).mem = s.mem := by
    unfold State.countNoMemory
    split <;> rfl
  unfold State.physWrite
  rw [mem]
  dsimp only
  rw [Memory.read_writeIf wf.1, if_neg (by omega)]

/-- Bytes that reach the home die of a line change memory at most where they lie. -/
theorem State.homeStore_read {s : State} (wf : s.MemWf) {k : Line} {off a : Nat} {bs : List Byte}
    (out : a < k.base + off ∨ k.base + off + bs.length ≤ a) : (s.homeStore k off bs).mem.read a = s.mem.read a := by
  unfold State.homeStore
  split
  · exact s.physWrite_read wf out
  · rw [State.putL2_mem]

@[simp] theorem State.patchCopy_mem (s : State) (d : Nat) (k : Line) (off : Nat) (bs : List Byte) :
    (s.patchCopy d k off bs).mem = s.mem := by
  unfold State.patchCopy
  split <;> rfl

theorem State.engStore_read {s : State} (wf : s.MemWf) (p : Page) {b off a : Nat} {bs : List Byte}
    (out : a < b + off ∨ b + off + bs.length ≤ a) : (s.engStore p b off bs).mem.read a = s.mem.read a := by
  have there : (p.at b off).base + off % 128 = b + off := by
    change b + off / 128 * 128 + off % 128 = b + off
    omega
  unfold State.engStore
  split
  · dsimp only
    cases p.via with
    | none => exact s.homeStore_read wf (there ▸ out)
    | some d =>
      change ((s.homeStore (p.at b off) (off % 128) bs).patchCopy d (p.at b off) (off % 128) bs).mem.read a = _
      rw [State.patchCopy_mem]
      exact s.homeStore_read wf (there ▸ out)
  · exact s.physWrite_read wf out

/-- Every byte of memory beside the bytes written reads as before. -/
theorem State.xwrite_read {s : State} (wf : s.MemWf) (p : Page) {b off a : Nat} {bs : List Byte}
    (out : a < b + off ∨ b + off + bs.length ≤ a) : (s.xwrite (.mapped b p) off bs).mem.read a = s.mem.read a := by
  refine (List.foldlRecOn (motive := fun s' : State => s'.MemWf ∧ s'.mem.read a = s.mem.read a) _ _ ⟨wf, rfl⟩
    fun s' ⟨wf', same⟩ c mem => ⟨wf'.engStore _ _ _ _, ?_⟩).2
  obtain ⟨low, high⟩ := lineChunks_inside mem
  rw [s'.engStore_read wf' p, same]
  simp only [List.length_take, List.length_drop]
  omega

/-- Settles O58: a leaf that the non-secure world may use starts a page that is not secure, and the bytes written through
it lie in that page. -/
theorem nonSecureAccessesNeverReachSecurePages : Obligations.NonSecureAccessesNeverReachSecurePages := by
  refine ⟨fun s c m hit g pa p off world mapped inside => ?_,
    fun s c m hit g pa p off bs a wf world mapped inside secure => s.xwrite_read wf p ?_⟩
  · obtain ⟨start, notSecure⟩ := State.translate_mapped world mapped
    rw [s.securePa_page start inside, notSecure]
  · obtain ⟨start, notSecure⟩ := State.translate_mapped world mapped
    have outside : ¬ (pa ≤ a ∧ a < pa + 65536) := by
      rintro ⟨low, high⟩
      have page := s.securePa_page (off := a - pa) start (by omega)
      rw [Nat.add_sub_cancel' low, secure, notSecure] at page
      contradiction
    omega

end Sys2Proof.Machine
end

section
/-! What the caches and the accesses through them leave as it is: the device-wide registers (R349). -/

namespace Sys2Proof.Machine

namespace State

section
variable (s : State)

@[simp] theorem countNoMemory_regs (pa : Nat) : (s.countNoMemory pa).regs = s.regs := by
  unfold State.countNoMemory
  split <;> rfl

@[simp] theorem physWrite_regs (pa : Nat) (bs : List Byte) : (s.physWrite pa bs).regs = s.regs :=
  State.countNoMemory_regs _ pa

@[simp] theorem homeStore_regs (k : Line) (off : Nat) (bs : List Byte) : (s.homeStore k off bs).regs = s.regs := by
  unfold State.homeStore
  split <;> simp

@[simp] theorem contextFault_regs (ctx die reason : Nat) (code : BitVec 8) (va : DWord) :
    (s.contextFault ctx die reason code va).regs = s.regs := by
  unfold State.contextFault
  dsimp only
  split <;> simp

@[simp] theorem faultAsid_regs (d : Nat) (asid : BitVec 16) : (s.faultAsid d asid).regs = s.regs :=
  foldl_keeps State.regs (fun s _ => s.contextFault_regs _ _ _ _ _) _ s

@[simp] theorem writeBack_regs (d : Nat) (l : Line) : (s.writeBack d l).regs = s.regs := by
  have good (is : List Nat) : (is.foldl (fun (s : State) i =>
      s.physWrite (l.base + 32 * i) ((l.data.drop (32 * i)).take 32)) s).regs = s.regs :=
    foldl_keeps State.regs (fun s _ => s.physWrite_regs _ _) _ s
  unfold State.writeBack
  dsimp only
  split
  · exact foldl_keeps State.regs (fun s _ => s.homeStore_regs _ _ _) _ s
  · split <;> simp [good]

@[simp] theorem cleanL2_regs (d : Nat) (p : Line → Bool) : (s.cleanL2 d p).regs = s.regs :=
  foldl_keeps State.regs (fun s _ => s.writeBack_regs _ _) _ s

@[simp] theorem allocL2_regs (d : Nat) (l : Line) (ret : Option Retention) (store : Bool) :
    (s.allocL2 d l ret store).regs = s.regs := by
  unfold State.allocL2
  split
  · rfl
  · split
    · rfl
    · dsimp only
      split <;> simp

@[simp] theorem fetchLine_regs (d : Nat) (k : Line) (ret : Option Retention) (store : Bool) :
    (s.fetchLine d k ret store).1.regs = s.regs := by
  unfold State.fetchLine
  split
  · rfl
  · split
    · simp
    · split <;> simp

@[simp] theorem allocL1_regs (core : Nat) (l : Line) (ret : Retention) : (s.allocL1 core l ret).regs = s.regs := by
  unfold State.allocL1
  split <;> simp

@[simp] theorem trimL1_regs (core : Nat) : (s.trimL1 core).regs = s.regs := by
  unfold State.trimL1
  dsimp only
  split <;> simp

@[simp] theorem patchCopy_regs (d : Nat) (k : Line) (off : Nat) (bs : List Byte) :
    (s.patchCopy d k off bs).regs = s.regs := by
  unfold State.patchCopy
  split <;> simp

@[simp] theorem engStore_regs (p : Page) (b off : Nat) (bs : List Byte) : (s.engStore p b off bs).regs = s.regs := by
  unfold State.engStore
  split
  · cases p.via <;> simp
  · simp

@[simp] theorem xwrite_regs (x : Xlat) (off : Nat) (bs : List Byte) : (s.xwrite x off bs).regs = s.regs := by
  unfold State.xwrite
  split
  · exact foldl_keeps State.regs (fun s _ => s.engStore_regs _ _ _ _) _ s
  · rfl
  · rfl

@[simp] theorem vwrite_regs (outs : List (Nat × Xlat)) (va : Nat) (bs : List Byte) :
    (s.vwrite outs va bs).regs = s.regs := foldl_keeps State.regs (fun s _ => s.xwrite_regs _ _ _) _ s

@[simp] theorem refreshL1_regs (core : Nat) (l : Line) : (s.refreshL1 core l).regs = s.regs := s.onL1_regs core _

@[simp] theorem homeLine_regs (d : Nat) (k : Line) (ret : Option Retention) :
    (s.homeLine d k ret).1.regs = s.regs := by
  unfold State.homeLine
  dsimp only
  split <;> simp

@[simp] theorem loadAt_regs (core : Nat) (x : Xlat) (off n : Nat) (pl : Place) (ret : Option Retention) :
    (s.loadAt core x off n pl ret).1.regs = s.regs := by
  unfold State.loadAt
  split
  · split
    · simp
    · dsimp only
      split
      · split
        · simp
        · dsimp only
          split <;> simp
      · simp
      · simp
  · rfl

@[simp] theorem storeL2_regs (d : Nat) (k : Line) (off : Nat) (bs : List Byte) (ret : Option Retention) :
    (s.storeL2 d k off bs ret).regs = s.regs := by
  unfold State.storeL2
  dsimp only
  split
  · simp
  · split <;> simp

@[simp] theorem storeAt_regs (core : Nat) (x : Xlat) (off : Nat) (bs : List Byte) (pl : Place)
    (ret : Option Retention) : (s.storeAt core x off bs pl ret).regs = s.regs := by
  unfold State.storeAt
  split
  · split
    · simp
    · dsimp only
      rw [State.patchL1, State.onL1_regs]
      simp [apply_ite State.regs]
  · simp

@[simp] theorem storeLines_regs (core : Nat) (x : Xlat) (off : Nat) (bs : List Byte) (pl : Place)
    (ret : Option Retention) : (s.storeLines core x off bs pl ret).regs = s.regs :=
  foldl_keeps State.regs (fun s _ => s.storeAt_regs _ _ _ _ _ _) _ s

theorem foldlFst_regs {α β : Type} (l : List α) (x : β) (f : State × β → α → State × β)
    (hf : ∀ a y, (f a y).1.regs = a.1.regs) : (l.foldl f (s, x)).1.regs = s.regs :=
  foldl_keeps (fun a : State × β => a.1.regs) hf l (s, x)

@[simp] theorem loadLines_regs (core : Nat) (x : Xlat) (off n : Nat) (pl : Place) (ret : Option Retention) :
    (s.loadLines core x off n pl ret).1.regs = s.regs :=
  s.foldlFst_regs _ _ _ fun a _ => a.1.loadAt_regs _ _ _ _ _ _

@[simp] theorem teamRead_regs (core : Nat) (outs : List (Nat × Xlat)) (va n : Nat) (pl : Place) :
    (s.teamRead core outs va n pl).1.regs = s.regs :=
  s.foldlFst_regs _ _ _ fun a _ => a.1.loadLines_regs _ _ _ _ _ _

@[simp] theorem teamWrite_regs (core : Nat) (outs : List (Nat × Xlat)) (va : Nat) (bs : List Byte) (pl : Place) :
    (s.teamWrite core outs va bs pl).regs = s.regs :=
  foldl_keeps State.regs (fun s _ => s.storeLines_regs _ _ _ _ _ _) _ s

@[simp] theorem aload_regs (t : Team) (e : Outst) (scr : Bool) (va n : Nat) :
    (s.aload t e scr va n).1.regs = s.regs := by
  unfold State.aload
  split <;> simp

@[simp] theorem astore_regs (t : Team) (e : Outst) (scr : Bool) (va : Nat) (bs : List Byte) :
    (s.astore t e scr va bs).regs = s.regs := by
  unfold State.astore
  split <;> simp

@[simp] theorem mscrWrite_regs (core m off : Nat) (bs : List Byte) : (s.mscrWrite core m off bs).regs = s.regs := by
  unfold State.mscrWrite
  split <;> rfl

theorem overLines_regs (outs : List (Nat × Xlat)) (va n : Nat) {f : State → Page → Nat → Nat → Nat → State}
    (hf : ∀ s p b off n, (f s p b off n).regs = s.regs) : (s.overLines outs va n f).regs = s.regs := by
  refine foldl_keeps State.regs (fun s g => ?_) _ s
  dsimp only
  split
  · refine foldl_keeps State.regs (fun s c => ?_) _ s
    split
    · exact hf _ _ _ _ _
    · rfl
  · rfl

@[simp] theorem fillLines_regs (outs : List (Nat × Xlat)) (va n : Nat) (dev : Bool) (ret : Option Retention) :
    (s.fillLines outs va n dev ret).regs = s.regs := by
  refine s.overLines_regs _ _ _ fun s p b off _ => ?_
  dsimp only
  split
  · split <;> simp
  · simp

@[simp] theorem openLines_regs (outs : List (Nat × Xlat)) (va n : Nat) (ret : Option Retention) :
    (s.openLines outs va n ret).regs = s.regs := s.overLines_regs _ _ _ fun s _ _ _ _ => s.fetchLine_regs _ _ _ _

@[simp] theorem patchCore_regs (core : Nat) (outs : List (Nat × Xlat)) (va : Nat) (bs : List Byte) :
    (s.patchCore core outs va bs).regs = s.regs := s.overLines_regs _ _ _ fun s _ _ _ _ => s.onL1_regs _ _

@[simp] theorem dropL2_regs (d : Nat) (p : Line → Bool) : (s.dropL2 d p).regs = s.regs := by
  unfold State.dropL2
  refine (foldl_keeps State.regs (fun s l => s.fetchLine_regs d l (some l.ret) false) _ _).trans ?_
  simp

@[simp] theorem dropL1_regs (core : Nat) (p : Line → Bool) : (s.dropL1 core p).regs = s.regs := by
  refine (foldl_keeps State.regs (fun s l => ?_) _ _).trans (s.onL1_regs core _)
  simp

@[simp] theorem releaseAt_regs (core : Nat) (asid : BitVec 16) (sc : Scope) :
    (s.releaseAt core asid sc).regs = s.regs := by
  unfold State.releaseAt
  split
  · exact s.cleanL2_regs _ _
  · rfl

@[simp] theorem acquireLines_regs (core : Nat) (asid : BitVec 16) (sc : Scope) :
    (s.acquireLines core asid sc).regs = s.regs := by
  unfold State.acquireLines
  dsimp only
  split
  · simp only [State.dropPrefetch, State.dropL1_regs]
    split <;> simp
  · split <;> simp

@[simp] theorem cleanDies_regs (dies : List Nat) (p : Line → Bool) : (s.cleanDies dies p).regs = s.regs :=
  (foldl_keeps State.regs (fun s _ => s.cleanL2_regs _ _) _ _).trans
    (foldl_keeps State.regs (fun s _ => s.cleanL2_regs _ _) _ s)

@[simp] theorem dropDies_regs (dies : List Nat) (p : Line → Bool) : (s.dropDies dies p).regs = s.regs :=
  (foldl_keeps State.regs (fun s _ => s.dropL2_regs _ _) _ _).trans (s.cleanDies_regs dies p)

@[simp] theorem dropLines_regs (p : Line → Bool) : (s.dropLines p).regs = s.regs :=
  (foldl_keeps State.regs (fun s _ => s.dropL1_regs _ _) _ _).trans (s.dropDies_regs _ p)

end

end State

end Sys2Proof.Machine
end

section
/-! The canonical form of every memory of the device (R336, R338, R349, R373), as one property of a state: what it
follows from, and that the caches and every access through them keep it. -/

namespace Sys2Proof.Machine

/-- Every memory of the device is in canonical form: its own, every cast's scratch, and the record windows of BAR0. -/
def State.Canon (s : State) : Prop := s.MemWf ∧ s.WindowsWf

/-- The state that a row answers, where it answers one, is canonical. -/
def CanonNext : Result → Prop
  | .next s => s.Canon
  | _ => True

/-- What a front end goes on with, where it does not wait, meets a condition. -/
def FeHolds {α : Type} (p : α → Prop) : Fe α → Prop
  | .ok a => p a
  | .error _ => True

theorem FeHolds.bind {α β : Type} {p : α → Prop} {q : β → Prop} {x : Fe α} {f : α → Fe β} (hx : FeHolds p x)
    (hf : ∀ a, p a → FeHolds q (f a)) : FeHolds q (x >>= f) := by
  cases x with
  | error w => trivial
  | ok a => exact hf a hx

/-- A front end that goes on from one of two actions. -/
theorem FeHolds.iteBind {α β : Type} {p : α → Prop} {q : β → Prop} {c : Prop} [Decidable c] {x y : Fe α} {f : α → Fe β}
    (hx : FeHolds p x) (hy : FeHolds p y) (hf : ∀ a, p a → FeHolds q (f a)) :
    FeHolds q (if c then x >>= f else y >>= f) := by
  split
  · exact hx.bind hf
  · exact hy.bind hf

theorem FeHolds.map {α β : Type} {p : α → Prop} {q : β → Prop} {x : Fe α} {f : α → β} (hx : FeHolds p x)
    (hf : ∀ a, p a → q (f a)) : FeHolds q (x.map f) := by
  cases x with
  | error w => trivial
  | ok a => exact hf a hx

namespace State.Canon

variable {s s' : State} {d core die ctx reason id m n no off pa va : Nat} {asid : BitVec 16} {code : BitVec 8}
  {e : Outst} {l k : Line} {outs : List (Nat × Xlat)} {p : Line → Bool} {pl : Place} {ret : Option Retention}
  {r : Retention} {sc : Scope} {scr store dev : Bool} {t : Team} {addr : DWord} {bs : List Byte}

/-! ### From one state to another -/

/-- A change of memory that is canonical, with the scratches and the windows as before. -/
theorem of_mem (h : s.Canon) (mem : Memory.wf s'.mem = true) (casts : s'.casts = s.casts)
    (windows : s'.regs.windows = s.regs.windows) : s'.Canon := by
  refine ⟨⟨mem, ?_⟩, ?_⟩
  · rw [casts]
    exact h.1.2
  · unfold State.WindowsWf
    rw [windows]
    exact h.2

theorem of_windows (h : s.Canon) (mem : s'.mem = s.mem) (casts : s'.casts = s.casts)
    (windows : s'.regs.windows = s.regs.windows) : s'.Canon := h.of_mem (mem ▸ h.1.1) casts windows

theorem setRegs {r : Regs} (h : s.Canon) (windows : r.windows = s.regs.windows) :
    ({ s with regs := r } : State).Canon := h.of_windows rfl rfl windows

theorem of_eq (h : s.Canon) (mem : s'.mem = s.mem) (casts : s'.casts = s.casts) (regs : s'.regs = s.regs) : s'.Canon :=
  h.of_windows mem casts (congrArg Regs.windows regs)

/-- Where the registers are as before, the windows are. -/
theorem of_memWf (h : s.Canon) (mem : s'.MemWf) (regs : s'.regs = s.regs) : s'.Canon := by
  refine ⟨mem, ?_⟩
  unfold State.WindowsWf
  rw [regs]
  exact h.2

theorem ite {c : Prop} [Decidable c] {a b : State} (ha : a.Canon) (hb : b.Canon) : (if c then a else b).Canon := by
  split
  · exact ha
  · exact hb

section
variable {α β : Type} {xs : List α}

theorem elim {o : Option α} {f : α → State} (h : s.Canon) (hf : ∀ a, (f a).Canon) : (o.elim s f).Canon := by
  cases o with
  | none => exact h
  | some a => exact hf a

theorem foldl {f : State → α → State} (h : s.Canon) (hf : ∀ s x, s.Canon → (f s x).Canon) : (xs.foldl f s).Canon :=
  List.foldlRecOn (motive := State.Canon) xs f h fun s h x _ => hf s x h

end

/-! ### Changes of one part of the state -/

theorem setTeam (h : s.Canon) : (s.setTeam t).Canon := h

theorem onTeam {f : Team → Team} (h : s.Canon) : (s.onTeam id f).Canon := h

theorem onGrid {f : Grid → Grid} (h : s.Canon) : (s.onGrid id f).Canon := h

theorem emit {o : Output} (h : s.Canon) : (s.emit o).Canon := h

theorem setCore {c : Core} (h : s.Canon) : (s.setCore c).Canon := h.of_eq (by simp) (by simp) (by simp)

theorem onCore {f : Core → Core} (h : s.Canon) : (s.onCore no f).Canon := h.setCore

theorem onMatrix {f : Matrix → Matrix} (h : s.Canon) : (s.onMatrix core m f).Canon := h.onCore

theorem onWeight {f : Weight → Weight} (h : s.Canon) : (s.onWeight core n f).Canon := h.onCore

theorem setCtx {c : Context} (h : s.Canon) : (s.setCtx c).Canon := h.of_eq (by simp) (by simp) (by simp)

theorem onCtx {f : Context → Context} (h : s.Canon) : (s.onCtx no f).Canon := h.setCtx

theorem record {ws : List Word} (h : s.Canon) : (s.record ctx ws).Canon := h.onCtx

theorem contextFault (h : s.Canon) : (s.contextFault ctx die reason code addr).Canon :=
  h.of_memWf (h.1.contextFault _ _ _ _ _) (by simp)

theorem onCast {f : Cast → Cast} (h : s.Canon)
    (hf : ∀ c, Memory.wf c.scratch = true → Memory.wf (f c).scratch = true) : (s.onCast id f).Canon :=
  h.of_memWf (h.1.onCast id f hf) rfl

/-- A change of a cast beside its scratch. -/
theorem onCastBeside {f : Cast → Cast} (h : s.Canon) (hf : ∀ c, (f c).scratch = c.scratch) : (s.onCast id f).Canon :=
  h.onCast fun c hc => by rw [hf c]; exact hc

/-- A change of every cast beside its scratch. -/
theorem mapCasts {f : Cast → Cast} (h : s.Canon) (hf : ∀ c, (f c).scratch = c.scratch) :
    ({ s with casts := s.casts.map f } : State).Canon := by
  refine ⟨⟨h.1.1, fun c hc => ?_⟩, h.2⟩
  obtain ⟨x, hx, rfl⟩ := List.mem_map.mp hc
  rw [hf x]
  exact h.1.2 x hx

/-- Casts leave. -/
theorem filterCasts {q : Cast → Bool} (h : s.Canon) : ({ s with casts := s.casts.filter q } : State).Canon :=
  ⟨⟨h.1.1, fun c hc => h.1.2 c (List.mem_filter.mp hc).1⟩, h.2⟩

theorem window (h : s.Canon) : (s.window off bs).Canon := ⟨h.1, Memory.wf_writeN h.2 off bs⟩

/-! ### Lines of L2 and L1 -/

theorem countNoMemory (h : s.Canon) : (s.countNoMemory pa).Canon := h.of_memWf (h.1.countNoMemory _) (by simp)

theorem physWrite (h : s.Canon) : (s.physWrite pa bs).Canon := h.of_memWf (h.1.physWrite _ _) (by simp)

theorem fetchLine (h : s.Canon) : (s.fetchLine d k ret store).1.Canon := h.of_memWf (h.1.fetchLine _ _ _ _) (by simp)

theorem allocL1 (h : s.Canon) : (s.allocL1 core l r).Canon := h.of_memWf (h.1.allocL1 _ _ _) (by simp)

theorem trimL1 (h : s.Canon) : (s.trimL1 core).Canon := h.of_memWf (h.1.trimL1 _) (by simp)

/-! ### Accesses of engines and teams -/

theorem vwrite (h : s.Canon) : (s.vwrite outs va bs).Canon := h.of_memWf (h.1.vwrite _ _ _) (by simp)

theorem landScratch {copy : Option (Nat × Nat)} (h : s.Canon) : (s.landScratch id copy off bs).Canon :=
  h.onCast fun _ hc => Cast.landed_wf hc _ _ _ _

theorem teamRead (h : s.Canon) : (s.teamRead core outs va n pl).1.Canon := h.of_memWf (h.1.teamRead _ _ _ _ _) (by simp)

theorem teamWrite (h : s.Canon) : (s.teamWrite core outs va bs pl).Canon :=
  h.of_memWf (h.1.teamWrite _ _ _ _ _) (by simp)

theorem aload (h : s.Canon) : (s.aload t e scr va n).1.Canon := h.of_memWf (h.1.aload _ _ _ _ _) (by simp)

theorem astore (h : s.Canon) : (s.astore t e scr va bs).Canon := h.of_memWf (h.1.astore _ _ _ _ _) (by simp)

theorem mscrWrite (h : s.Canon) : (s.mscrWrite core m off bs).Canon := h.of_memWf (h.1.mscrWrite _ _ _ _) (by simp)

theorem fillLines (h : s.Canon) : (s.fillLines outs va n dev ret).Canon :=
  h.of_memWf (h.1.fillLines _ _ _ _ _) (by simp)

theorem openLines (h : s.Canon) : (s.openLines outs va n ret).Canon := h.of_memWf (h.1.openLines _ _ _ _) (by simp)

theorem patchCore (h : s.Canon) : (s.patchCore core outs va bs).Canon := h.of_memWf (h.1.patchCore _ _ _ _) (by simp)

/-! ### Acquires, releases and invalidations -/

theorem dropPrefetch {who : Team → Bool} {gone : Nat → Bool} (h : s.Canon) : (s.dropPrefetch who asid gone).Canon := h

theorem dropL1 (h : s.Canon) : (s.dropL1 core p).Canon := h.of_memWf (h.1.dropL1 _ _) (by simp)

theorem releaseAt (h : s.Canon) : (s.releaseAt core asid sc).Canon := h.of_memWf (h.1.releaseAt _ _ _) (by simp)

theorem acquireLines (h : s.Canon) : (s.acquireLines core asid sc).Canon :=
  h.of_memWf (h.1.acquireLines _ _ _) (by simp)

theorem cleanDies {dies : List Nat} (h : s.Canon) : (s.cleanDies dies p).Canon :=
  h.of_memWf (h.1.cleanDies _ _) (by simp)

theorem dropDies {dies : List Nat} (h : s.Canon) : (s.dropDies dies p).Canon := h.of_memWf (h.1.dropDies _ _) (by simp)

theorem dropLines (h : s.Canon) : (s.dropLines p).Canon := h.of_memWf (h.1.dropLines _) (by simp)

theorem cleanAll (h : s.Canon) : s.cleanAll.Canon := h.cleanDies

end State.Canon

end Sys2Proof.Machine
end

section
/-! The canonical form of every memory, kept by the timer, resets, the front end, flits
that leave, and what engines access. -/

namespace Sys2Proof.Machine

namespace State.Canon

variable {s : State}

/-! ### The timer, resets and the world table (R75, R341, R363) -/

theorem ageBars {n : Nat} (h : s.Canon) : (s.ageBars n).Canon := ite h (h.mapCasts fun _ => rfl)

theorem tick (h : s.Canon) : s.tick.Canon := .ageBars h

/-- What a reset keeps of memory is canonical. -/
theorem cleared {n : Nat} (h : s.Canon) : (s.cleared n).Canon :=
  ⟨⟨Memory.wf_filter h.1.1 _, fun _ mem => absurd mem List.not_mem_nil⟩, rfl⟩

theorem recover (h : s.Canon) : s.recover.Canon := .emit h

theorem answer {code : Nat} {data : List Byte} (h : s.Canon) : (s.answer code data).Canon := h.emit

theorem unwait (h : s.Canon) : s.unwait.Canon := h

theorem switchTable {w : WorldTable} (h : s.Canon) : (s.switchTable w).Canon := by
  have kept : (s.dropLines fun l => pageChanges s.wrt w (l.base / 65536)).Canon := h.dropLines
  unfold State.switchTable
  generalize s.dropLines _ = s1 at kept
  exact answer (unwait kept)

/-- The accepted configuration brings up registers whose windows are empty. -/
theorem configured (r : Regs) (cfg : List Byte) : Memory.wf (r.configured cfg).windows = true := by
  unfold Regs.configured
  dsimp only
  split <;> rfl

theorem bringUp (h : s.Canon) : s.bringUp.Canon := by
  unfold State.bringUp
  split
  · next cfg slot _ _ =>
    have up : Memory.wf (s.regs.configured cfg).windows = true := configured s.regs cfg
    dsimp only
    split
    · exact recover ⟨h.1, up⟩
    · exact ⟨h.1, up⟩
  · exact h.recover

theorem coldStart (h : s.Canon) : s.coldStart.Canon := by
  have clear : (s.cleared (if s.retvOn then lpddrBase else 2 ^ 41)).Canon := h.cleared
  unfold State.coldStart
  generalize s.cleared _ = s1 at clear
  exact ite (recover clear) (bringUp clear)

theorem warmStart (h : s.Canon) : s.warmStart.Canon := (elim h fun _ => h.switchTable).cleared.bringUp

theorem requestReset {cold : Bool} (h : s.Canon) : (s.requestReset cold).Canon :=
  ite h (ite h.coldStart h.warmStart)

theorem execColdReset (h : s.Canon) : CanonNext (execColdReset s) := h.requestReset

theorem execWarmReset (h : s.Canon) : CanonNext (execWarmReset s) := h.requestReset

/-! ### Front-end accesses and flits that leave -/

theorem bump {team : Nat} {kc : Option (BitVec 4)} (h : s.Canon) : (s.bump team kc).Canon := by
  unfold State.bump
  split
  · exact h
  · exact h.onTeam

theorem releaseOp {op : Nat} (h : s.Canon) : (s.releaseOp op).Canon := h

theorem feRange {ctx die : Nat} {rd wr : Bool} {va n : Nat} (h : s.Canon) :
    FeHolds (·.1.Canon) (s.feRange ctx die rd wr va n) := by
  unfold State.feRange
  dsimp only
  split
  · split
    · exact h
    · exact h
  · split
    · exact h
    · exact h
    · exact h.contextFault
    · split
      · exact h
      · trivial
    · exact h

theorem queueFault {ctx die cause queue : Nat} {wr : Bool} {code : BitVec 8} {va : DWord} (h : s.Canon) :
    (s.queueFault ctx die cause queue wr code va).Canon :=
  h.record

theorem nextSeq {dst : BitVec 19} (h : s.Canon) : (s.nextSeq dst).2.Canon := by
  unfold State.nextSeq
  split
  · exact h
  · exact h

theorem answerTo {f : Flit} {ty : BitVec 4} {opc : BitVec 8} {data : List Byte} (h : s.Canon) :
    (s.answerTo f ty opc data).2.Canon :=
  h.nextSeq

theorem refuseFlit {f : Flit} (h : s.Canon) : (s.refuseFlit f).Canon := by
  unfold State.refuseFlit
  dsimp only
  split
  · exact h.answerTo
  · split
    · exact h.answerTo.emit
    · exact h.answerTo

theorem send {f : Flit} (h : s.Canon) : (s.send f).Canon := by
  unfold State.send
  split
  · exact h
  · split
    · exact h.emit
    · exact h.refuseFlit

theorem request {ty : BitVec 4} {dst : BitVec 19} {opc : BitVec 8} {addr : Nat} {data : List Byte}
    {r : BitVec 16 → Nat → Remote}
    (h : s.Canon) :
    (s.request ty dst opc addr data r).Canon :=
  h.nextSeq.send

theorem remoteStores {key ctx : Nat} {world : Bool} {ws : List (BitVec 19 × Nat × List Byte)} (h : s.Canon) :
    (s.remoteStores key ctx world ws).Canon :=
  h.foldl fun _ _ h => h.foldl fun _ _ h => h.request.onTeam

theorem feWrite {ctx die cause queue va : Nat} {bs : List Byte} (h : s.Canon) :
    FeHolds State.Canon (s.feWrite ctx die cause queue va bs) := by
  unfold State.feWrite
  dsimp only
  refine FeHolds.bind h.feRange ?_
  rintro ⟨s1, r1⟩ (h1 : s1.Canon)
  split
  · exact h1.queueFault
  · exact h1.vwrite.remoteStores

theorem sweepEnd {w : Sweep} (h : s.Canon) : FeHolds State.Canon (s.sweepEnd w) := by
  unfold State.sweepEnd
  dsimp only
  split
  · exact .bump (.releaseOp h)
  · exact .bump (.releaseOp (.landScratch h))
  · refine FeHolds.bind (feWrite h) ?_
    rintro s2 h2
    exact h2.onCtx

/-! ### Engines' accesses -/

theorem engFail {e : EngineId} {x : Xlat} {va : DWord} {wr : Bool} {susp : State → State} (h : s.Canon)
    (hs : ∀ s, s.Canon → (susp s).Canon) : (s.engFail e x va wr susp).Canon := by
  unfold State.engFail
  split
  · exact h.contextFault
  · exact h.contextFault
  · exact h.contextFault
  · exact ite h h
  · exact hs _ h.record

theorem onSweep {op : Nat} {f : Sweep → Sweep} (h : s.Canon) : (s.onSweep op f).Canon := h

theorem countReads {outs : List (Nat × Xlat)} {va n : Nat} (h : s.Canon) : (s.countReads outs va n).Canon := by
  unfold State.countReads
  refine h.foldl fun s x h => ?_
  split
  · exact h.countNoMemory
  · exact h

theorem countWalk {c : Context} {leaf : Option DWord} {walked : Bool} {g : Nat} (h : s.Canon) :
    (s.countWalk c leaf walked g).Canon := by
  have counted : (if walked then (s.walkReads g 3 1 c.root).foldl (·.countNoMemory ·) s else s).Canon :=
    ite (h.foldl fun _ _ h => h.countNoMemory) h
  unfold State.countWalk
  dsimp only
  split
  · exact ite (elim counted fun _ => counted.countNoMemory) counted
  · exact counted

theorem fillTlb {c : Context} {g : Nat} (h : s.Canon) : (s.fillTlb c g).Canon := by
  unfold State.fillTlb
  dsimp only
  split
  · exact h
  · split
    · exact ite h.countWalk h.countWalk
    · exact h.countWalk

theorem engWalk {c : Context} {rs : List (Mode × Nat × Nat)} (h : s.Canon) : (s.engWalk c rs).Canon :=
  h.foldl fun _ _ h => h.foldl fun _ _ h => ite h h.fillTlb

theorem engTouch {c : Context} {rs : List (Mode × Nat × Nat)} {ret : Option Retention} (h : s.Canon) :
    (s.engTouch c rs ret).Canon :=
  h.engWalk.foldl fun _ _ h => h.countReads.fillLines

theorem engBad {ctx core : Nat} (h : s.Canon) : (s.engBad ctx core).Canon := h.contextFault

theorem onStep {w : Sweep} {x : DuskStep} (h : s.Canon) : (s.onStep w x).Canon := h.onSweep

theorem countPage {w : Sweep} {k : Nat} (h : s.Canon) : (s.countPage w k).Canon := ite h h.onSweep

theorem visit {w : Sweep} {a : Nat} {ws : List DWord} (h : s.Canon) : (s.visit w a ws).Canon := h.countPage.onStep

theorem nextPage {w : Sweep} (h : s.Canon) : (s.nextPage w).Canon := h.onSweep

theorem duskAccess {w : Sweep} {rds wrs : List (Nat × Nat)} {k : State → List (Nat × Xlat) → Fe State} (h : s.Canon)
    (hk : ∀ s outs, s.Canon → FeHolds State.Canon (k s outs)) : FeHolds State.Canon (s.duskAccess w rds wrs k) := by
  unfold State.duskAccess
  dsimp only
  split
  · exact h.engFail fun s h => h.onSweep
  · split
    · exact h.engTouch.engBad
    · exact hk _ _ h.engTouch

theorem lookPage {w : Sweep} (h : s.Canon) : FeHolds State.Canon (s.lookPage w) := by
  unfold State.lookPage
  dsimp only
  split
  · refine h.duskAccess fun _ _ h => ?_
    split
    · exact h.duskAccess fun _ _ h => h.visit
    · exact h.visit
  · refine h.duskAccess fun _ _ h => ?_
    split
    · exact h.countPage.nextPage
    · refine h.duskAccess fun _ _ h => ?_
      split
      · exact h.countPage.nextPage
      · exact h.duskAccess fun _ _ h => h.visit

theorem engPut {e : EngineId} {outs : List (Nat × Xlat)} {va : Nat} {bs : List Byte} {ret : Option Retention}
    (h : s.Canon) :
    (s.engPut e outs va bs ret).Canon :=
  ite h.openLines.vwrite.patchCore h.openLines.vwrite

theorem engWrites {e : EngineId} {outs : List (Nat × Xlat)} {ws : List (Nat × List Byte)} (h : s.Canon) :
    (s.engWrites e outs ws).Canon :=
  (h.foldl fun _ _ h => h.engPut).remoteStores

end State.Canon

end Sys2Proof.Machine
end

section
/-! The canonical form of every memory, kept by the Dusk engines, what teams access, and contexts that end. -/

namespace Sys2Proof.Machine

namespace State.Canon

variable {s : State}

/-! ### Page steps of the Dusk engines -/

theorem stepEnd {w : Sweep} {x : DuskStep} (h : s.Canon) : (s.stepEnd w x).Canon := h.onStep

theorem stepSwap {w : Sweep} {x : DuskStep} {again : Bool} (h : s.Canon) :
    FeHolds State.Canon (s.stepSwap w x again) := by
  unfold State.stepSwap
  dsimp only
  refine h.duskAccess fun _ _ h => ?_
  split
  · exact h.engWrites.onStep
  · split
    · exact h.stepEnd
    · exact h.onStep

theorem onMstat {core m : Nat} {f : Word → Word} (h : s.Canon) : (s.onMstat core m f).Canon := h.onMatrix

theorem raiseMstat {core m : Nat} {w : Word} (h : s.Canon) : (s.raiseMstat core m w).Canon := h.onMstat

theorem sweepMstat {w : Sweep} {bits : Word} (h : s.Canon) : (s.sweepMstat w bits).Canon := ite h h.raiseMstat

theorem takeFree {w : Sweep} {j : Nat} {k : State → Option Nat → Fe State} (h : s.Canon)
    (hk : ∀ s store, s.Canon → FeHolds State.Canon (k s store)) : FeHolds State.Canon (s.takeFree w j k) := by
  unfold State.takeFree
  split
  · exact hk s none h
  · refine h.duskAccess fun s outs h => ?_
    dsimp only
    split
    · exact hk s none h
    · exact h.duskAccess fun s _ h => hk _ _ h.vwrite.remoteStores

theorem stepBody {w : Sweep} {x : DuskStep} (h : s.Canon) : FeHolds State.Canon (s.stepBody w x) := by
  unfold State.stepBody
  refine h.duskAccess fun s outs h => h.duskAccess fun s ro h => ?_
  dsimp only
  split
  · exact h.sweepMstat.engWrites.countPage.sweepMstat.stepEnd
  · split
    · exact h.sweepMstat.onStep.duskAccess fun _ _ h => h.engWrites.onStep
    · refine h.sweepMstat.takeFree fun s store h => ?_
      split
      · exact h.engWrites.countPage.sweepMstat.stepEnd
      · exact h.onStep.duskAccess fun _ _ h => h.engWrites.onStep

theorem writeSummary {w : Sweep} {x : DuskStep} {bound : Nat → List Byte} {next : State → DuskStep → State}
    (h : s.Canon) (hn : ∀ s x, s.Canon → (next s x).Canon) : (s.writeSummary w x bound next).Canon :=
  ite (hn _ _ h.engWrites) h.engWrites.onStep

theorem halvePage {w : Sweep} {x : DuskStep} (h : s.Canon) : FeHolds State.Canon (s.halvePage w x) := by
  unfold State.halvePage
  split
  · exact h.nextPage
  · exact h.duskAccess fun _ _ h => h.engWrites.nextPage

theorem handBack {w : Sweep} {sva dim fmt : Nat} {tier grace : Bool} (h : s.Canon) :
    (s.handBack w sva dim fmt tier grace).Canon :=
  h

theorem stepDone {w : Sweep} {x : DuskStep} (h : s.Canon) : (s.stepDone w x).Canon := h.countPage.handBack.stepEnd

theorem heldStep {w : Sweep} {x : DuskStep} (h : s.Canon) : (s.heldStep w x).Canon := by
  unfold State.heldStep
  dsimp only
  split
  · exact h.writeSummary fun _ _ h => h.onStep
  · exact ite h.engWrites.onStep h.engWrites.handBack.stepEnd
  · exact ite h.engWrites.stepDone h.engWrites.onStep
  · exact h.writeSummary fun _ _ h => h.stepDone
  · exact h

theorem pageStep {w : Sweep} (h : s.Canon) : FeHolds State.Canon (s.pageStep w) := by
  unfold State.pageStep
  split
  · split
    · split
      · exact h
      · exact h.sweepEnd
    · exact h.lookPage
  · split
    · exact h.stepSwap
    · exact h.stepSwap
    · exact h.stepBody
    · exact h.halvePage
    · exact h.heldStep
    · exact h.heldStep
    · exact h.heldStep
    · exact h.heldStep

theorem finishStep {op n : Nat} (h : s.Canon) : (State.finishStep op n s).Canon := by
  induction n generalizing s with
  | zero => exact h
  | succ n ih =>
    unfold State.finishStep
    split
    · exact h
    · next w _ =>
      split
      · exact h
      · split
        · exact h
        · have held : FeHolds State.Canon (s.pageStep w) := h.pageStep
          split
          · next s' page =>
            rw [page] at held
            exact ih held
          · exact h

theorem finishSteps {ctx : Nat} (h : s.Canon) : (s.finishSteps ctx).Canon := h.foldl fun _ _ h => h.finishStep

theorem flrFault {ctx : Nat} (h : s.Canon) : (s.flrFault ctx).Canon := h.contextFault.finishSteps

theorem wipe {ctx : Nat} (h : s.Canon) : (s.wipe ctx).Canon := h.filterCasts

/-! ### Accesses of teams -/

theorem stores {t : Team} {e : Outst} {o : F2} {ws : List (Nat × List Byte)} (h : s.Canon) :
    (s.stores t e o ws).Canon :=
  h.foldl fun _ _ h => h.astore

theorem release {t : Team} {sc : Scope} (h : s.Canon) : (s.release t sc).Canon := h.releaseAt

theorem performStore {t : Team} {e : Outst} {o : F2} (h : s.Canon) : (performStore s t e o).Canon :=
  h.release.stores.remoteStores

theorem acquire {t : Team} {sc : Scope} (h : s.Canon) : (s.acquire t sc).Canon :=
  ite h.acquireLines (h.acquireLines.onCastBeside fun _ => rfl)

theorem atomicLanes {t : Team} {e : Outst} {z op : Nat} {scr : Bool} {lanes vals : List (Nat × Nat)} (h : s.Canon) :
    (atomicLanes t e z op scr lanes s vals).1.Canon := by
  induction lanes generalizing s vals with
  | nil => exact h
  | cons lane rest ih =>
    unfold Machine.atomicLanes
    dsimp only
    split
    · exact h.aload
    · split
      · exact ih h.request
      · exact ih h.aload.astore

theorem performAtomic {t : Team} {e : Outst} {o : F2} {op : Nat} (h : s.Canon) : (performAtomic s t e o op).Canon := by
  unfold Machine.performAtomic
  dsimp only
  split
  · exact h.release.atomicLanes.onTeam
  · exact ite h.release.atomicLanes.onTeam h.release.atomicLanes.onTeam.acquire

theorem haccLanes {t : Team} {e : Outst} {o : F2} {lanes : List (Nat × Nat)} {placed : List Nat} (h : s.Canon) :
    (haccLanes t e o lanes s placed).1.Canon := by
  induction lanes generalizing s placed with
  | nil => exact h
  | cons lane rest ih =>
    unfold Machine.haccLanes
    dsimp only
    have seen {c : Prop} [Decidable c] {p : Lag → Bool} :
        (if c then s.onCast t.cast fun c => c.caughtUp t.id p else s).Canon := ite (h.onCastBeside fun _ => rfl) h
    split
    · exact seen
    · split
      · exact ih seen.aload.astore
      · exact seen

theorem sendHacc {t : Team} {e : Outst} {o : F2} (h : s.Canon) : (s.sendHacc t e o).Canon := by
  unfold State.sendHacc
  dsimp only
  refine (h.foldl fun s x h => ?_).onTeam
  split
  · exact h
  · exact h.request

theorem barChange {cast n : Nat} {ch : BarChange} {who : Option Nat} (h : s.Canon) :
    (s.barChange cast n ch who).Canon := by
  unfold State.barChange
  dsimp only
  split
  · exact h
  · exact h.onCastBeside fun _ => rfl

theorem implicitDrop {t : Team} (h : s.Canon) : (s.implicitDrop t).Canon := by
  unfold State.implicitDrop
  split
  · exact h
  · exact h.foldl fun _ _ h => h.barChange

theorem putTeam {t : Team} (h : s.Canon) : (s.putTeam t).Canon := ite h.setTeam.implicitDrop h.setTeam

theorem failEntry {t : Team} {e : Outst} {tr : Trap} (h : s.Canon) : (s.failEntry t e tr).Canon :=
  ite h.setTeam h.putTeam

theorem onTokens {die q : Nat} {f : TokenQueue → TokenQueue} (h : s.Canon) : (s.onTokens die q f).Canon := h

theorem complete {t : Team} {e : Outst} (h : s.Canon) : (s.complete t e).Canon := h.putTeam

theorem completeTqpush {t : Team} {e : Outst} {o : F2} (h : s.Canon) : (completeTqpush s t e o).Canon := by
  unfold Machine.completeTqpush
  dsimp only
  split
  · exact h.failEntry
  · exact ((h.release.foldl fun _ _ h => h.teamWrite).remoteStores.foldl fun _ _ h => h.onTokens).complete

theorem lastAccess {t : Team} {e : Outst} (h : s.Canon) : (s.lastAccess t e).Canon := by
  unfold State.lastAccess
  split
  · exact h
  · split
    · exact h.performStore
    · exact ite h.performAtomic h.performStore
    · exact h.performAtomic
    · exact h.performAtomic
    · exact h.performAtomic
    · exact ite h.sendHacc h.haccLanes
    · exact h.completeTqpush
    · exact h

theorem lastAccesses {ctx : Nat} (h : s.Canon) : (s.lastAccesses ctx).Canon :=
  h.foldl fun _ _ h => h.foldl fun _ _ h => h.lastAccess

theorem contextIrq {ctx : Nat} (h : s.Canon) : (s.contextIrq ctx).Canon := h.emit

theorem resetContext {ctx : Nat} (h : s.Canon) : (s.resetContext ctx).Canon :=
  h.lastAccesses.wipe.dropDies.onCtx.contextIrq

theorem flrContext {ctx : Nat} (h : s.Canon) : (s.flrContext ctx).Canon := h.resetContext.onCtx

theorem execVfFunctionLevelReset {vf : Nat} (h : s.Canon) : CanonNext (execVfFunctionLevelReset vf s) := by
  have faulted : ((s.ownedBy vf).foldl State.flrFault s).Canon := h.foldl fun _ _ h => h.flrFault
  unfold Machine.execVfFunctionLevelReset
  dsimp only
  split
  · exact h
  · split
    · exact h
    · split
      · exact faulted
      · exact faulted.foldl (f := State.flrContext) fun _ _ h => h.flrContext

theorem dueReset {r : Result} (h : s.Canon) (due : s.dueReset = some r) : CanonNext r := by
  unfold State.dueReset at due
  split at due
  · contradiction
  · split at due
    · split at due
      · contradiction
      · obtain rfl := Option.some.inj due
        split
        · exact h.execColdReset
        · exact h.execWarmReset
    · obtain ⟨vf, -, rfl⟩ := Option.map_eq_some_iff.mp due
      exact h.execVfFunctionLevelReset

theorem enterTrap {t : Team} {tr : Trap} {r : Resume} (h : s.Canon) : (s.enterTrap t tr r).Canon :=
  ite h.contextFault h.setTeam

theorem trapNow {t : Team} {c : Clause} {tr : Trap} (h : s.Canon) : (s.trapNow t c tr).Canon :=
  ite h.enterTrap h.setTeam

end State.Canon

end Sys2Proof.Machine
end

section
/-! The canonical form of every memory, kept by instructions that issue. -/

namespace Sys2Proof.Machine

namespace State.Canon

variable {s : State}

/-! ### Instructions that issue (R61, R80) -/

theorem nextIte {c : Prop} [Decidable c] {a : State} {r : Result} (ha : a.Canon) (hr : CanonNext r) :
    CanonNext (if c then .next a else r) := by
  split
  · exact ha
  · exact hr

theorem issue {i : Instr} {pre post : State → Team → Clause → Option Trap} {k : State → Team → Clause → State}
    (h : s.Canon) (hk : ∀ t c, (k s t c).Canon) : CanonNext (issue i s pre post k) := by
  unfold Machine.issue
  split
  · trivial
  · refine nextIte h (nextIte h.trapNow ?_)
    split
    · exact h.trapNow
    · refine nextIte h.trapNow (nextIte h ?_)
      split
      · exact h.trapNow
      · exact hk _ _

theorem done {t : Team} {c : Clause} (h : s.Canon) : (s.done t c).Canon := h.putTeam

theorem issueF1 {i : Instr} {f : Team → Team} (h : s.Canon) : CanonNext (issueF1 i s f) := h.issue fun _ _ => h.done

theorem enqueue {t : Team} {c : Clause} {e : Outst} (h : s.Canon) : (s.enqueue t c e).Canon := .done h

theorem issueAccess {i : Instr} {o : F2} {idx store : Bool} {dat datb : Option Operand} {empty : Team → Team}
    (h : s.Canon) :
    CanonNext (issueAccess i o idx store dat datb empty s) := by
  unfold Machine.issueAccess
  dsimp only
  exact h.issue fun _ _ => ite h.done h.enqueue

theorem execWaitk {o : F2} (h : s.Canon) : CanonNext (execWaitk o s) := by
  unfold Machine.execWaitk
  dsimp only
  exact h.issue fun _ _ => ite h.done.acquire h.enqueue

theorem execHacc {o : F2} (h : s.Canon) : CanonNext (execHacc o s) := by
  unfold Machine.execHacc
  dsimp only
  exact h.issue fun _ _ => ite h.done h.enqueue

theorem issueRange {i : Instr} {o : F2} {translate : Bool} (h : s.Canon) : CanonNext (issueRange i o translate s) :=
  h.issue fun _ _ => h.enqueue

theorem prefetchLine {t : Team} {o : F2} {va : Nat} (h : s.Canon) : (s.prefetchLine t o va).Canon := by
  unfold State.prefetchLine
  dsimp only
  split
  · exact h
  · split
    · exact ite h (ite (elim h.fetchLine fun _ => ite h.fetchLine h.fetchLine.allocL1)
        h.fetchLine)
    · exact h

theorem execPfetch {o : F2} (h : s.Canon) : CanonNext (execPfetch o s) :=
  h.issue fun _ _ => (h.foldl fun _ _ h => h.prefetchLine).done

theorem execFence {o : F2} (h : s.Canon) : CanonNext (execFence o s) :=
  h.issue fun _ _ => ite h (ite (ite h h.release).done (ite h h.release).done.acquire)

theorem issueMat {i : Instr} {o : F2} (h : s.Canon) : CanonNext (issueMat i o s) := h.issue fun _ _ => h.enqueue

theorem acquireCopies {t : Team} {sc : Scope} (h : s.Canon) : (s.acquireCopies t sc).Canon :=
  ite h.acquireLines (h.acquireLines.onCastBeside fun _ => rfl)

theorem execWaitb {o : F2} (h : s.Canon) : CanonNext (execWaitb o s) :=
  h.issue fun _ _ => ite h.done.acquireCopies h.enqueue

theorem execArrive {o : F2} (h : s.Canon) : CanonNext (execArrive o s) :=
  h.issue fun _ _ => ite h (ite h.release.barChange.done h.barChange.trapNow)

theorem execBwait {o : F2} (h : s.Canon) : CanonNext (execBwait o s) :=
  h.issue fun _ _ => ite h.done.acquire h.enqueue

theorem execQsrch {o : F2} (h : s.Canon) : CanonNext (execQsrch o s) := h.issue fun _ _ => ite h h.enqueue

theorem execSpawn {o : F2} (h : s.Canon) : CanonNext (execSpawn o s) :=
  issue h fun _ _ => ite h (ite (.done h) (ite (.trapNow h) (.done (.release h))))

theorem execGlaunch {o : F2} (h : s.Canon) : CanonNext (execGlaunch o s) :=
  h.issue fun _ _ => ite h (ite h.done h.onCtx.release.done)

theorem execXrel {o : F2} (h : s.Canon) : CanonNext (execXrel o s) := h.issue fun _ _ => ite h h.done

theorem execTqpush {o : F2} (h : s.Canon) : CanonNext (execTqpush o s) := h.issue fun _ _ => ite h.done h.enqueue

theorem issueF3 {i : Instr} {f : Team → Team} (h : s.Canon) : CanonNext (issueF3 i s f) := h.issue fun _ _ => h.done

theorem issueTransfer {i : Instr} {b : BitVec 3} {take : Team → Bool} {link : Team → Clause → Team} {hold : Team → Bool}
    (h : s.Canon) :
    CanonNext (issueTransfer i s b take link hold) :=
  h.issue fun _ _ => ite h (ite h.done h.done)

theorem issueMask {i : Instr} {f : Team → Except TrapCode Team} (h : s.Canon) : CanonNext (issueMask i s f) := by
  unfold Machine.issueMask
  refine h.issue fun _ _ => ?_
  split
  · exact h
  · exact h.done

theorem execYieldP {n : BitVec 14} (h : s.Canon) : CanonNext (execYieldP n s) :=
  h.issue fun _ _ => ite h.done h.done

theorem settlePreempt {ctx : Nat} (h : s.Canon) : (s.settlePreempt ctx).Canon := ite h.onCtx.contextIrq h

theorem releaseCast {cast : Nat} (h : s.Canon) : (s.releaseCast cast).Canon := by
  unfold State.releaseCast
  dsimp only
  split
  · exact h
  · split
    · exact h.filterCasts.onCore.onMatrix
    · exact h.filterCasts.onCore

theorem dropTeam {t : Team} (h : s.Canon) : (s.dropTeam t).Canon :=
  ite (.releaseCast (.onCastBeside h fun _ => rfl)) (.onCastBeside h fun _ => rfl)

theorem execExitSaved (h : s.Canon) : CanonNext (execExitSaved s) :=
  h.issue fun _ _ => ite h h.release.dropTeam.onGrid.settlePreempt

theorem execTrapU {q : BitVec 2} {neg cnd : Bool} {code : BitVec 14} (h : s.Canon) :
    CanonNext (execTrapU q neg cnd code s) :=
  h.issue fun _ _ => ite h.trapNow h.done

theorem execIcsync (h : s.Canon) : CanonNext (execIcsync s) := h.issue fun _ _ => ite h h.onCore.done

theorem execBkpt {code : BitVec 14} (h : s.Canon) : CanonNext (execBkpt code s) :=
  h.issue fun _ _ => ite h.trapNow h.done

theorem srWrite {t : Team} {reg : Nat} {d : DWord} (h : s.Canon) : (s.srWrite t reg d).1.Canon := by
  unfold State.srWrite
  split
  · exact h
  · split
    · exact h
    · exact h
    · exact h.onCastBeside fun _ => rfl
    · exact h
    · exact h
    · exact h
    · exact h
    · exact h

theorem execSwr {d : BitVec 6} {reg : BitVec 16} (h : s.Canon) : CanonNext (execSwr d reg s) :=
  h.issue fun _ _ => ite h h.srWrite.done

theorem parkAt {t : Team} {r : Resume} {gs : List (Nat × DWord)} {wr : Bool} {lanes : DWord} {each : List (Nat × DWord)}
    (h : s.Canon) :
    (s.parkAt t r gs wr lanes each).Canon :=
  (h.foldl fun _ _ h => h.record).setTeam

theorem blockWrite {t : Team} {outs : List (Nat × Xlat)} {a : Nat} {bs : List Byte} (h : s.Canon) :
    (s.blockWrite t outs a bs).Canon :=
  h.teamWrite.remoteStores

theorem execSvc {code : BitVec 16} (h : s.Canon) : CanonNext (execSvc code s) :=
  h.issue fun _ _ => ite h h.setTeam

theorem execWorldx {secure : Bool} (h : s.Canon) : CanonNext (execWorldx secure s) :=
  h.issue fun _ _ => ite h.done h

/-! ### State blocks and TLB invalidations (R213, R260) -/

theorem stateAccess {t : Team} {c : Clause} {a : DWord} {n : Nat} {wr : Bool}
    {k : State → List (Nat × Xlat) → List Byte → State} (h : s.Canon)
    (hk : ∀ s outs bs, s.Canon → (k s outs bs).Canon) : (stateAccess s t c a n wr k).Canon := by
  have filled {hits : State → Nat → Bool} :
      ((granules a.toNat n).foldl (fun s' g => if hits s' g then s' else s'.fillTlb (s.ctx t.ctx) g) s).Canon :=
    h.foldl fun _ _ h => ite h h.fillTlb
  unfold Machine.stateAccess
  dsimp only
  split
  · exact h
  · split
    · split
      · exact hk _ _ _ filled
      · split
        · exact filled.teamRead.trapNow
        · exact hk _ _ _ filled.teamRead
    · split
      · exact filled.parkAt
      · exact filled.contextFault
      · exact ite (.trapNow filled) (ite filled filled)
      · exact filled.trapNow

theorem execStatesvTeam {va : Option (BitVec 6)} (h : s.Canon) : CanonNext (execStatesvTeam va s) :=
  h.issue fun _ _ => ite h (h.stateAccess fun _ _ _ h => .done (.blockWrite h))

theorem execStatesvBar {va : Option (BitVec 6)} (h : s.Canon) : CanonNext (execStatesvBar va s) :=
  h.issue fun _ _ => ite h (h.stateAccess fun _ _ _ h => .done (.onCastBeside (.blockWrite h) fun _ => rfl))

theorem execStatersTeam {va : Option (BitVec 6)} (h : s.Canon) : CanonNext (execStatersTeam va s) :=
  h.issue fun _ _ => ite h (h.stateAccess fun _ _ _ h => h.done)

theorem execStatersBar {va : Option (BitVec 6)} (h : s.Canon) : CanonNext (execStatersBar va s) :=
  h.issue fun _ _ => ite h (h.stateAccess fun _ _ _ h => (h.foldl fun _ _ h => h.barChange).done)

theorem forget {gone : BitVec 16 → Nat → Bool} (h : s.Canon) : (s.forget gone).Canon := by
  unfold State.forget
  dsimp only
  generalize dropped : State.dropLines _ _ = s2
  have kept : s2.Canon := by
    rw [← dropped]
    exact dropLines h
  exact kept

theorem execTlbinv {kind : TlbKind} (h : s.Canon) : CanonNext (execTlbinv kind s) :=
  h.issue fun _ _ => ite h (.done (.forget h))

/-- An encoded instruction that issues leaves the memories canonical. -/
theorem exec_encoded {i : Instr} (h : s.Canon) (he : i.encoded = true) : CanonNext (exec i s) := by
  cases i with
  | imad o =>
    simp only [exec, Machine.execImad]
    split
    · exact h.issueF1
    · exact h.issueF1
  | mov _ | sel _ | iadd _ | isub _ | iadc _ | isbc _ | imul _ | imulh _ | imin _ | imax _ | iabs _ | ineg _
  | andL _ | orL _ | xorL _ | andn _ | notL _ | shl _ | shr _ | sar _ | rot _ | bfx _ | bfi _ | popc _ | clz _
  | brev _ | lea _ | iset _ | bytep _ | fadd _ | fsub _ | fmul _ | ffma _ | fmin _ | fmax _ | fset _ | frcp _
  | frsq _ | fsqrt _ | fexp2 _ | flog2 _ | fscale _ | fexpo _ | fclass _ | frnd _ | cvt _ | pack _ | unpk _
  | hfma2 _ | hadd2 _ | hmul2 _ | dot4 _ | dot2 _ | pand _ | por _ | pxor _ | pnot _ | pmov _ | sval _ | shfl _
  | bcast _ | vote _ | reduce _ | scan _ | lrscan _ | segred _ | segscan _ | compact _ | matchP _
  | exclr _ => exact h.issueF1
  | ld _ | st _ | lda _ | atom _ | atomn _ | cas _ | gather _ | scatr _ =>
    simp only [exec, execLd, execSt, execLda, execAtom, execAtomn, execCas, execGather, execScatr]
    exact h.issueAccess
  | lockl _ | unlockl _ | cflush _ | cinval _ =>
    simp only [exec, execLockl, execUnlockl, execCflush, execCinval]
    exact h.issueRange
  | wbload _ | wbdrop _ | mma _ | mmas _ | accz _ | accld _ | accst _ | accdr _ | accrd _ | accrdSt _ | attn _
  | attnfin _ | psel _ | kvapp _ | demote _ | kvres _ =>
    simp only [exec, execWbload, execWbdrop, execMma, execMmas, execAccz, execAccld, execAccst, execAccdr, execAccrd,
      execAccrdSt, execAttn, execAttnfin, execPsel, execKvapp, execDemote, execKvres]
    exact h.issueMat
  | nop | scmp _ _ _ _ _ | qset _ _ | exitP _ => exact h.issueF3
  | xfer _ _ _ _ | xcall _ _ _ _ _ | xany _ _ _ | xall _ _ _ => exact h.issueTransfer
  | ifP _ | ifnP _ | elseP | endif | loopP | breakP _ | contP _ | endloop _ | serial | endserial _ => exact h.issueMask
  | exset _ | exdeal _ | prep _ _ | preps _ _ _ | srd _ _ | clkrd _ _ =>
    simp only [exec, execExset, execExdeal, execPrep, execPreps, execSrd, execClkrd]
    exact h.issue fun _ _ => h.done
  | copy _ | copyy _ | bseal _ | lksend _ | gscan _ | xacq _ =>
    simp only [exec, execCopy, execCopyy, execBseal, execLksend, execGscan, execXacq]
    exact h.issue fun _ _ => h.enqueue
  | binit _ | arrdrop _ =>
    simp only [exec, execBinit, execArrdrop]
    exact h.issue fun _ _ => h.barChange.done
  | eret =>
    simp only [exec, execEret]
    exact h.issue fun _ _ => h.setTeam
  | waitk _ => exact h.execWaitk
  | hacc _ => exact h.execHacc
  | pfetch _ => exact h.execPfetch
  | fence _ => exact h.execFence
  | waitb _ => exact h.execWaitb
  | arrive _ => exact h.execArrive
  | bwait _ => exact h.execBwait
  | qsrch _ => exact h.execQsrch
  | spawn _ => exact h.execSpawn
  | glaunch _ => exact h.execGlaunch
  | xrel _ => exact h.execXrel
  | tqpush _ => exact h.execTqpush
  | yieldP _ => exact h.execYieldP
  | exitSaved => exact h.execExitSaved
  | trapU _ _ _ _ => exact h.execTrapU
  | icsync => exact h.execIcsync
  | bkpt _ => exact h.execBkpt
  | swr _ _ => exact h.execSwr
  | statesvTeam _ => exact h.execStatesvTeam
  | statesvBar _ => exact h.execStatesvBar
  | statersTeam _ => exact h.execStatersTeam
  | statersBar _ => exact h.execStatersBar
  | svc _ => exact h.execSvc
  | tlbinv _ => exact h.execTlbinv
  | worldx _ => exact h.execWorldx
  | _ => exact (Bool.false_ne_true he).elim

end State.Canon

end Sys2Proof.Machine
end

section
/-! The canonical form of every memory, kept by fetches, entries that are performed, traps,
the matrix engine and copies. -/

namespace Sys2Proof.Machine

namespace State.Canon

variable {s : State}

/-! ### Fetches (R59, R85) -/

theorem fetchTrap {t : Team} {code : TrapCode} {addr : DWord} (h : s.Canon) : (s.fetchTrap t code addr).Canon :=
  ite h.enterTrap h.setTeam

theorem installClause {t : Team} {w : Word} {ws : List Word} (h : s.Canon) : (s.installClause t w ws).Canon := by
  unfold State.installClause
  split
  · exact h.fetchTrap
  · exact h.setTeam

theorem fillCode {t : Team} {x : Xlat} {line : Nat} (h : s.Canon) : (s.fillCode t x line).Canon := ite h h.onCore

theorem fetched {t : Team} {pc n : Nat} (h : s.Canon) : (s.fetched t pc n).Canon :=
  (h.countReads.foldl fun _ _ h => ite h h.fillTlb).foldl fun _ _ h => h.fillCode

theorem parkFetch {t : Team} {gs : List (Nat × DWord)} (h : s.Canon) : (s.parkFetch t gs).Canon :=
  (h.foldl fun _ _ h => h.record).setTeam

theorem execClauseFetch {t : Nat} (h : s.Canon) : CanonNext (execClauseFetch t s) := by
  unfold Machine.execClauseFetch
  split
  · exact h
  · split
    · exact h
    · split
      · exact h.installClause
      · split
        · exact h
        · split
          · exact h.fetched.installClause
          · exact h.parkFetch
          · exact h.fetchTrap
          · exact h.contextFault
          · exact h

theorem execPrefetchFill {t : Nat} {b : BitVec 3} (h : s.Canon) : CanonNext (execPrefetchFill t b s) := by
  unfold Machine.execPrefetchFill
  dsimp only
  split
  · exact h
  · split
    · exact h
    · split
      · exact h.fetched.setTeam
      · exact h.setTeam

theorem execIssuePortChoice {core sub port : Nat} (h : s.Canon) : CanonNext (execIssuePortChoice core sub port s) := by
  unfold Machine.execIssuePortChoice
  dsimp only
  split
  · exact h
  · split
    · exact h
    · exact h

theorem execYieldWaitEnd {t : Nat} (h : s.Canon) : CanonNext (execYieldWaitEnd t s) := ite h h.onTeam

/-! ### Entries that are performed (R149 to R163) -/

theorem perform {t : Team} {e : Outst} (h : s.Canon) : (s.perform t e).Canon := by
  unfold State.perform
  dsimp only
  split
  · exact h.onTeam.acquire
  · split
    · exact ite h.performAtomic h.onTeam.performStore
    · exact h.performAtomic
    · exact h.onTeam.performStore
    · exact h.onTeam

theorem post {t : Team} {e : Outst} (h : s.Canon) : (s.post t e).Canon := h.complete

theorem engineRead {outs : List (Nat × Xlat)} {va n : Nat} (h : s.Canon) : (s.engineRead outs va n).Canon :=
  h.countReads.fillLines

theorem completeQsrch {t : Team} {e : Outst} {o : F2} (h : s.Canon) : (completeQsrch s t e o).Canon :=
  ite (.failEntry h) (ite (.failEntry h)
    (ite h (ite (.failEntry h) (ite (.failEntry h)
    (ite h (.complete (ite h (.engineRead h))))))))

/-- What a team sees of a cast's scratch leaves the scratch as it is. -/
theorem view_scratch (c : Cast) (team draw off n : Nat) : (c.view team draw off n).1.scratch = c.scratch := by
  unfold Cast.view
  dsimp only
  split
  · rfl
  · rfl

theorem tload {t : Team} {e : Outst} {scr : Bool} {va n : Nat} (h : s.Canon) : (s.tload t e scr va n).1.Canon := by
  unfold State.tload
  dsimp only
  split
  · exact h.aload
  · split
    · exact h
    · next c cast =>
      have seen : Memory.wf (c.view t.id s.freeCtr va n).1.scratch = true := by
        rw [view_scratch]
        exact h.1.2 c (List.mem_of_find?_eq_some cast)
      exact h.onCast fun _ _ => seen

theorem loadLanes {t : Team} {e : Outst} {z : Nat} {scr sx : Bool} {lanes : List (Nat × Nat)} (h : s.Canon) :
    (loadLanes t e z scr sx lanes s).1.Canon := by
  induction lanes generalizing s with
  | nil => exact h
  | cons lane rest ih =>
    unfold Machine.loadLanes
    dsimp only
    exact ih h.tload

theorem loads {t : Team} {e : Outst} {o : F2} {sx : Bool} {lanes : List (Nat × Nat)} (h : s.Canon) :
    (s.loads t e o sx lanes).1.Canon := h.loadLanes

theorem completeLoad {t : Team} {e : Outst} {o : F2} {sx : Bool} {after : Team → Team} (h : s.Canon) :
    (completeLoad s t e o sx after).Canon := by
  have read : (s.loads t e o sx (mappedLanes e (szScratch o.ext.sz))).1.Canon := h.loads
  unfold Machine.completeLoad
  generalize s.loads t e o sx _ = r at read
  dsimp only
  split
  · exact failEntry read
  · exact read.complete.acquire

theorem completeStore {t : Team} {e : Outst} {o : F2} (h : s.Canon) : (completeStore s t e o).Canon :=
  h.complete.performStore

theorem completeAtomic {t : Team} {e : Outst} {o : F2} {op : Nat} {ret : Bool} (h : s.Canon) :
    (completeAtomic s t e o op ret).Canon := by
  unfold Machine.completeAtomic
  dsimp only
  split
  · exact h.release.atomicLanes.failEntry
  · exact ite (ite h.release.atomicLanes.setTeam h.release.atomicLanes.complete)
      h.release.atomicLanes.complete.acquire

theorem completeHacc {t : Team} {e : Outst} {o : F2} (h : s.Canon) : (completeHacc s t e o).Canon := by
  unfold Machine.completeHacc
  dsimp only
  split
  · exact h.haccLanes.failEntry
  · exact h.haccLanes.complete

theorem bringLocked {t : Team} {outs : List (Nat × Xlat)} {core : Bool} {n : Nat} (h : s.Canon) :
    (s.bringLocked t outs core n).Canon := by
  unfold State.bringLocked
  dsimp only
  split
  · exact ite h (ite h.fetchLine.allocL1 h.fetchLine)
  · exact h

theorem completeLockl {t : Team} {e : Outst} {o : F2} (h : s.Canon) : (completeLockl s t e o).Canon := by
  unfold Machine.completeLockl
  dsimp only
  refine complete (ite (ite h (ite h.onCore h)) (foldl ?_ fun _ _ h => h.bringLocked))
  exact ite h (ite h.onCore h)

theorem unlock {t : Team} {core die dev any : Bool} {lines : List Nat} (h : s.Canon) :
    (s.unlock t core die dev any lines).Canon :=
  ite (ite h.onCore h) (ite h.onCore h)

theorem completeUnlockl {t : Team} {e : Outst} {o : F2} (h : s.Canon) : (completeUnlockl s t e o).Canon :=
  h.unlock.complete

theorem completeCflush {t : Team} {e : Outst} {o : F2} (h : s.Canon) : (completeCflush s t e o).Canon :=
  ite h.dropDies.dropL1.dropPrefetch.complete h.cleanDies.complete

theorem completeCinval {t : Team} {e : Outst} {o : F2} (h : s.Canon) : (completeCinval s t e o).Canon :=
  h.unlock.dropDies.dropL1.dropPrefetch.complete

theorem turned {core m : Nat} (h : s.Canon) : (s.turned core m).Canon := h.onCore

theorem finishCommand {core m : Nat} {c : Command} (h : s.Canon) : (s.finishCommand core m c).Canon :=
  h.onMatrix.releaseOp.bump

theorem completeAccrd {t : Team} {e : Outst} (h : s.Canon) : (completeAccrd s t e).Canon := by
  unfold Machine.completeAccrd
  dsimp only
  split
  · exact h
  · split
    · exact h
    · split
      · exact h
      · split
        · exact h.finishCommand.turned.complete
        · exact (ite h.finishCommand.turned.onMstat h.finishCommand.turned).complete
        · exact h

theorem register {adds : List (Nat × RangeLock)} (h : s.Canon) : (s.register adds).Canon :=
  h.foldl fun _ _ h => h.onCore

theorem completeLksend {t : Team} {e : Outst} {o : F2} (h : s.Canon) : (completeLksend s t e o).Canon := by
  unfold Machine.completeLksend
  split
  · exact h.failEntry
  · dsimp only
    refine ite h (ite h.register.engBad ?_)
    generalize flits : List.foldl _ (s.register _) _ = s1
    have sent : s1.Canon := by
      rw [← flits]
      exact h.register.foldl fun _ _ h => h.nextSeq.send
    exact complete sent

theorem settleBatches {team : Nat} (h : s.Canon) : (s.settleBatches team).Canon := h.onTeam

theorem completeBseal {t : Team} {e : Outst} (h : s.Canon) : (completeBseal s t e).Canon :=
  ite h h.complete.settleBatches

theorem completeEntry {t : Team} {e : Outst} (h : s.Canon) : (completeEntry s t e).Canon := by
  unfold Machine.completeEntry
  split
  · exact h.completeLoad
  · exact h.completeLoad
  · exact h.completeLoad
  · exact h.completeStore
  · exact ite h.completeStore h.completeAtomic
  · exact h.completeAtomic
  · exact h.completeAtomic
  · exact h.completeAtomic
  · exact ite h.sendHacc h.completeHacc
  · exact h.completeLockl
  · exact h.completeUnlockl
  · exact h.completeCflush
  · exact h.completeCinval
  · exact h.completeAccrd
  · exact h.completeAccrd
  · exact h.completeLksend
  · exact h.completeBseal
  · exact h.completeTqpush
  · exact h.complete

theorem execF2Completion {t k : Nat} (h : s.Canon) : CanonNext (execF2Completion t k s) := by
  unfold Machine.execF2Completion
  split
  · exact ite h.perform h
  · exact h
  · split
    · exact h
    · split
      · exact ite h.post h
      · split
        · exact ite h h.completeQsrch
        · exact ite h (ite h.complete h.completeEntry)

/-! ### Translations, traps and fault records (R97, R263 to R278) -/

theorem fillAfter {c : Context} {hit : Bool} {g : Nat} (h : s.Canon) : (s.fillAfter c hit g).Canon := by
  unfold State.fillAfter
  split
  · exact h.countWalk
  · exact h.fillTlb

theorem execTranslationResult {t k : Nat} {hit : Bool} (h : s.Canon) : CanonNext (execTranslationResult t k hit s) := by
  unfold Machine.execTranslationResult
  dsimp only
  split
  · exact h
  · split
    · exact h
    · split
      · exact (ite h h.fillAfter).contextFault
      · exact ite h h.fillAfter
      · exact (ite h h.fillAfter).putTeam

theorem enterDue {t : Team} {watch : Bool} {r : Resume} (h : s.Canon) : (s.enterDue t watch r).Canon :=
  ite (ite h.contextFault h.enterTrap) h.enterTrap

theorem drawn (h : s.Canon) : s.drawn.Canon := h

theorem settledTrap {t : Team} {c : Clause} (h : s.Canon) : (s.settledTrap t c).Canon := by
  unfold State.settledTrap
  dsimp only
  split
  · split
    · exact h.drawn.enterTrap
    · exact h
  · split
    · exact h.drawn.enterTrap
    · exact h

theorem execTrapEntry {t : Nat} (h : s.Canon) : CanonNext (execTrapEntry t s) := by
  unfold Machine.execTrapEntry
  dsimp only
  split
  · exact h
  · split
    · exact h
    · split
      · split
        · exact h.enterTrap
        · exact ite h.enterDue h
      · split
        · split
          · exact h.enterTrap
          · exact h.enterTrap
          · split
            · exact h.enterDue
            · split
              · exact h.enterDue
              · exact h
        · split
          · exact h
          · split
            · exact h.settledTrap
            · split
              · exact h.enterDue
              · split
                · exact h.enterDue
                · exact h

theorem execTeamPark {t : Nat} (h : s.Canon) : CanonNext (execTeamPark t s) := by
  unfold Machine.execTeamPark
  dsimp only
  split
  · exact h
  · split
    · exact h
    · split
      · exact h
      · split
        · exact h
        · split
          · exact h
          · exact h.drawn.parkAt

theorem execParkedReissue {t : Nat} (h : s.Canon) : CanonNext (execParkedReissue t s) := by
  unfold Machine.execParkedReissue
  dsimp only
  split
  · exact h
  · split
    · exact h
    · split
      · exact h
      · exact h.setTeam

theorem ringWrite {host : Bool} {a : Nat} {bs : List Byte} (h : s.Canon) : (s.ringWrite host a bs).Canon :=
  ite h h.physWrite

theorem writeRecord {f : FaultRing} {r : State × FaultRing} (h : s.Canon) (written : s.writeRecord f = some r) :
    r.1.Canon := by
  unfold State.writeRecord at written
  split at written
  · contradiction
  · dsimp only at written
    split at written
    · contradiction
    · obtain rfl := Option.some.inj written
      exact (ite h h.countNoMemory).ringWrite.ringWrite

theorem writeBacklog {fs : List FaultRing} {r : State × List FaultRing} (h : s.Canon)
    (written : s.writeBacklog fs = some r) : r.1.Canon := by
  induction fs generalizing r with
  | nil => contradiction
  | cons f fs ih =>
    unfold State.writeBacklog at written
    split at written
    · next first =>
      obtain rfl := Option.some.inj written
      exact h.writeRecord first
    · obtain ⟨⟨later, left⟩, rest, rfl⟩ := Option.map_eq_some_iff.mp written
      exact ih (r := (later, left)) rest

theorem execFaultRecordWrite {ctx : Nat} (h : s.Canon) : CanonNext (execFaultRecordWrite ctx s) := by
  unfold Machine.execFaultRecordWrite
  refine nextIte h ?_
  split
  · next written => exact (h.writeBacklog written).onCtx.contextIrq
  · split
    · next written => exact (h.writeRecord written).onCtx.contextIrq
    · exact h

theorem execWatchdogExpiry {t : Nat} (h : s.Canon) : CanonNext (execWatchdogExpiry t s) := by
  unfold Machine.execWatchdogExpiry
  dsimp only
  split
  · exact h
  · split
    · exact h
    · split
      · exact h.contextFault
      · exact h.setTeam

theorem execContextReset {ctx : Nat} (h : s.Canon) : CanonNext (execContextReset ctx s) := by
  unfold Machine.execContextReset
  dsimp only
  split
  · exact h
  · exact ite h.finishSteps h.finishSteps.resetContext

/-! ### The matrix engine (R166 to R181) -/

theorem reasons {core m : Nat} {kvr wsr : Option Nat} (h : s.Canon) : (s.reasons core m kvr wsr).Canon := by
  unfold State.reasons
  dsimp only
  split
  · split
    · exact h.onMstat.onMstat
    · exact h.onMstat
  · split
    · exact h.onMstat
    · exact h

theorem weightTaken {core : Nat} {c : Command} (h : s.Canon) : (s.weightTaken core c).Canon := by
  unfold State.weightTaken
  split
  · exact h.onWeight
  · exact h.onWeight
  · exact h

theorem execCommandAcceptance {t k : Nat} (h : s.Canon) : CanonNext (execCommandAcceptance t k s) := by
  unfold Machine.execCommandAcceptance
  dsimp only
  split
  · exact h
  · split
    · exact h
    · split
      · exact h
      · split
        · exact h
        · exact h.reasons.failEntry
        · exact h.complete
        · split
          · exact h
          · exact ite (h.foldl fun _ _ h => ite h.engineRead h).register.weightTaken.onMatrix.setTeam
              (h.foldl fun _ _ h => ite h.engineRead h).register.weightTaken.onMatrix.complete

theorem engineStep {core m : Nat} {can : Instr → Bool} {step : State → Command → State} (h : s.Canon)
    (hs : ∀ s c, s.Canon → (step s c).Canon) : CanonNext (engineStep s core m can step) := by
  unfold Machine.engineStep
  split
  · exact h
  · refine nextIte h ?_
    split
    · exact ite h h.finishCommand
    · exact nextIte h (hs _ _ h).turned

theorem onHead {core m : Nat} {f : Command → Command} (h : s.Canon) : (s.onHead core m f).Canon := h.onMatrix

theorem endCommand {core m : Nat} {c : Command} (h : s.Canon) : (s.endCommand core m c).Canon :=
  ite h.onHead h.finishCommand

theorem weightLoaded {core m : Nat} {c : Command} {n : Nat} {r : Decoded} (h : s.Canon) :
    (s.weightLoaded core m c n r).Canon := by
  unfold State.weightLoaded
  dsimp only
  split
  · exact h.onWeight.endCommand
  · exact h.onWeight.onMstat.raiseMstat.endCommand
  · exact h

theorem suspendHead {core m : Nat} {va : DWord} (h : s.Canon) : (s.suspendHead core m va).Canon := h.onHead

theorem execWbloadDecode {core m : Nat} (h : s.Canon) : CanonNext (execWbloadDecode core m s) := by
  refine h.engineStep fun s c h => ?_
  dsimp only
  split
  · split
    · exact ite h.engBad h.weightLoaded
    · split
      · exact h.engTouch.engBad
      · split
        · exact h.engTouch.engFail fun _ h => h.suspendHead.onHead
        · exact h.engTouch.weightLoaded
  · exact h

theorem execWbdropExecute {core m : Nat} (h : s.Canon) : CanonNext (execWbdropExecute core m s) :=
  h.engineStep fun _ _ h => h.finishCommand

theorem setTile {core m k : Nat} {ws : List Word} (h : s.Canon) : (s.setTile core m k ws).Canon := h.onMatrix

theorem engAllowed {core m : Nat} {c : Command} {rs : List (Mode × Nat × Nat)} {k : List (Nat × Xlat) → State}
    (h : s.Canon) (hk : ∀ outs, (k outs).Canon) : (s.engAllowed core m c rs k).Canon := by
  unfold State.engAllowed
  split
  · exact h.engFail fun _ h => h.suspendHead
  · exact hk _

theorem engAccess {core m : Nat} {c : Command} {rds wrs dev : List (Nat × Nat)} {k : State → List (Nat × Xlat) → State}
    (h : s.Canon) (hk : ∀ s outs, s.Canon → (k s outs).Canon) : (s.engAccess core m c rds wrs k dev).Canon :=
  h.engAllowed fun _ => ite h.engTouch.engBad (hk _ _ h.engTouch)

theorem kStep {core m : Nat} {c : Command} {o : F2} {d : Matd} {bfmt : Nat} {bse8 : Bool} {b : PanelB} (h : s.Canon) :
    (kStep s core m c o d bfmt bse8 b).Canon := by
  unfold Machine.kStep
  extract_lets _ _ _ _ _ _ _ _ _ _ go
  have multiplied (s : State) (outs : List (Nat × Xlat)) (h : s.Canon) : (go s outs).Canon := by
    dsimp only [go]
    refine ite h.engBad (ite ?_ ?_)
    · exact h.setTile.raiseMstat.onHead.endCommand
    · exact h.setTile.raiseMstat.onHead
  exact ite (multiplied s [] h) (h.engAccess multiplied)

theorem execMmaKStep {core m : Nat} (h : s.Canon) : CanonNext (execMmaKStep core m s) := by
  refine h.engineStep fun s c h => ?_
  dsimp only
  split
  · exact h.kStep
  · exact h.kStep
  · exact h

theorem execCommandResume {core m : Nat} (h : s.Canon) : CanonNext (execCommandResume core m s) := by
  unfold Machine.execCommandResume
  split
  · split
    · exact h.onHead
    · exact h
  · exact h

theorem engWrite {e : EngineId} {outs : List (Nat × Xlat)} {va : Nat} {bs : List Byte} {ret : Option Retention}
    (h : s.Canon) :
    (s.engWrite e outs va bs ret).Canon :=
  h.engPut.remoteStores

theorem execTileImageOperation {core m : Nat} (h : s.Canon) : CanonNext (execTileImageOperation core m s) := by
  refine h.engineStep fun s c h => ?_
  dsimp only
  split
  · exact (h.foldl fun _ _ h => h.setTile).endCommand
  · refine ite (ite h.engBad ?_) (h.engAccess fun _ _ h => ?_)
    · exact h.setTile.raiseMstat.endCommand
    · exact h.setTile.raiseMstat.endCommand
  · exact ite h.mscrWrite.raiseMstat.endCommand (h.engAccess fun _ _ h => h.engWrite.raiseMstat.endCommand)
  · exact h

theorem execAccdrDrain {core m : Nat} (h : s.Canon) : CanonNext (execAccdrDrain core m s) := by
  refine h.engineStep fun s c h => ?_
  dsimp only
  split
  · refine ite (ite h.engBad h.mscrWrite.setTile.raiseMstat.endCommand) (h.engAllowed fun _ => ite ?_ ?_)
    · exact h.engWalk.teamRead.engBad
    · exact h.engWalk.teamRead.engWrite.setTile.raiseMstat.endCommand
  · exact h

theorem kvAppend {core m : Nat} {c : Command} (h : s.Canon) : (kvAppend s core m c).Canon := by
  unfold Machine.kvAppend
  split
  · exact h
  · dsimp only
    refine ite h.raiseMstat.endCommand (ite h.engBad (h.engAccess fun _ _ h => ?_))
    exact (ite h.engWrites h.engWrites.raiseMstat).endCommand

theorem execKvappAppend {core m : Nat} (h : s.Canon) : CanonNext (execKvappAppend core m s) :=
  h.engineStep fun _ _ h => h.kvAppend

theorem pselEnd {core m : Nat} {c : Command} {sinks : List Bool} {us : List (Word × Word)} (h : s.Canon) :
    (pselEnd s core m c sinks us).Canon :=
  h.mscrWrite.raiseMstat.endCommand

theorem pselect {core m : Nat} {c : Command} (h : s.Canon) : (pselect s core m c).Canon := by
  unfold Machine.pselect
  dsimp only
  split
  · exact h.engTouch.engBad
  · split
    · exact h.engTouch.pselEnd
    · exact h.engTouch.onHead.engFail fun _ h => h.suspendHead

theorem execPselSelection {core m : Nat} (h : s.Canon) : CanonNext (execPselSelection core m s) :=
  h.engineStep fun _ _ h => h.pselect

/-! ### Attention (R182 to R195) -/

theorem attnPage {core m : Nat} {c : Command} (h : s.Canon) : (attnPage s core m c).Canon := by
  unfold Machine.attnPage
  dsimp only
  refine h.engAccess fun s _ h => ite h.engBad (ite ?_ ?_)
  · exact h.mscrWrite.mscrWrite.raiseMstat.onHead.endCommand
  · exact h.mscrWrite.mscrWrite.raiseMstat.onHead

theorem massGo {core m : Nat} {c : Command} {rs : List (Word × Word)} {n j : Nat} (h : s.Canon) :
    (s.massGo core m c rs n j).Canon :=
  ite h.endCommand h.onHead

theorem addMass {e : EngineId} {core m : Nat} {outs : List (Nat × Xlat)} {va a : Nat} (h : s.Canon) :
    (s.addMass e core m outs va a).Canon :=
  h.engWrite.raiseMstat

theorem massStep {core m j : Nat} {c : Command} {plan : List (Nat × Nat × Nat)} (h : s.Canon) :
    (massStep s core m c plan j).Canon := by
  unfold Machine.massStep
  split
  · exact h.endCommand
  · exact ite h.engBad (h.engAccess fun _ _ h => h.addMass.raiseMstat.massGo)

theorem attnOut {core m : Nat} {c : Command} {rs : List AttnRow} {ooff n : Nat} (h : s.Canon) :
    (attnOut s core m c rs ooff n).Canon :=
  h.mscrWrite.raiseMstat.massGo

theorem attnOutput {core m : Nat} {c : Command} (h : s.Canon) : (attnOutput s core m c).Canon := by
  unfold Machine.attnOutput
  dsimp only
  split
  · exact h.massStep
  · exact ite h.engBad h.attnOut

theorem execAttnPage {core m : Nat} (h : s.Canon) : CanonNext (execAttnPage core m s) :=
  h.engineStep fun _ _ h => ite h.attnPage h.attnOutput

theorem execAttnfinMerge {core m : Nat} (h : s.Canon) : CanonNext (execAttnfinMerge core m s) := by
  refine h.engineStep fun s c h => ?_
  dsimp only
  split
  · exact h.massStep
  · exact ite h.engBad (ite h.raiseMstat.onHead h.attnOut)

/-! ### Copies (R197 to R200) -/

theorem execCopyAcceptance {t k : Nat} (h : s.Canon) : CanonNext (execCopyAcceptance t k s) := by
  unfold Machine.execCopyAcceptance
  split
  · exact h
  · split
    · exact h
    · refine nextIte h ?_
      split
      · exact h.failEntry
      · dsimp only
        refine nextIte h ?_
        generalize locked : s.register _ = s1
        have kept : s1.Canon := by
          rw [← locked]
          exact h.register
        exact complete kept

theorem finishCopy {op : CopyOp} (h : s.Canon) : (s.finishCopy op).Canon := .settleBatches (.bump (.releaseOp h))

theorem landRow {op : CopyOp} {d : CopyDesc} {off : Int} {bs : List Byte} {cast : Nat} (h : s.Canon) :
    (s.landRow op d off bs cast).Canon := by
  unfold State.landRow
  dsimp only
  split
  · exact h
  · exact ite (ite h.landScratch h).barChange (ite h.landScratch h)

theorem execCopyRow {j : Nat} (h : s.Canon) : CanonNext (execCopyRow j s) := by
  unfold Machine.execCopyRow
  split
  · exact h
  · next op _ =>
    refine nextIte h ?_
    dsimp only
    split
    · exact ite h h.finishCopy
    · split
      · exact h.engFail fun _ h => h
      · refine nextIte h.engTouch.engBad ?_
        generalize moved : (if (CopyDesc.ofBytes op.desc).dscr = true then _ else _ : State) = s1
        have kept : s1.Canon := by
          rw [← moved]
          exact ite (h.engTouch.foldl fun _ _ h => h.landRow) h.engTouch.engWrite
        exact ite (finishCopy kept) kept

/-! ### The ends of waits (R152, R200, R203, R208, R209) -/

theorem execWaitkDone {t k : Nat} (h : s.Canon) : CanonNext (execWaitkDone t k s) := by
  unfold Machine.execWaitkDone
  split
  · exact h
  · split
    · exact ite h.complete.acquire h
    · exact h

theorem execBwaitDone {t k : Nat} (h : s.Canon) : CanonNext (execBwaitDone t k s) := by
  unfold Machine.execBwaitDone
  split
  · exact h
  · split
    · split
      · exact h.complete.acquire
      · split
        · exact h.failEntry
        · exact h
    · exact h

theorem execWaitbDone {t k : Nat} (h : s.Canon) : CanonNext (execWaitbDone t k s) := by
  unfold Machine.execWaitbDone
  split
  · split
    · exact ite h.complete.acquireCopies h
    · exact h
  · exact h

theorem execXacqGrant {t k : Nat} (h : s.Canon) : CanonNext (execXacqGrant t k s) := by
  unfold Machine.execXacqGrant
  dsimp only
  split
  · exact h
  · split
    · split
      · exact h
      · split
        · exact h.failEntry
        · split
          · exact h
          · exact h.complete
    · exact h

theorem execXacqTimeout {t k : Nat} (h : s.Canon) : CanonNext (execXacqTimeout t k s) := by
  unfold Machine.execXacqTimeout
  split
  · exact h
  · split
    · split
      · exact h
      · split
        · exact h.failEntry
        · exact h.complete
    · exact h

theorem execGscanWaitEnd {t k : Nat} (h : s.Canon) : CanonNext (execGscanWaitEnd t k s) := by
  unfold Machine.execGscanWaitEnd
  split
  · exact h
  · next tm e _ =>
    split
    · dsimp only
      refine nextIte h ?_
      generalize got : (if (e.arg 1 == 0) = true then _ else _ : State × List Byte × Bool) = r
      have read : r.1.Canon := by
        rw [← got]
        split
        · exact h
        · exact h.teamRead
      exact nextIte read.failEntry (nextIte h (acquire (complete (remoteStores (teamWrite (release read))))))
    · exact h

end State.Canon

end Sys2Proof.Machine
end

section
/-! The canonical form of every memory, kept by queries, Dusk rows, grids, casts and contexts. -/

namespace Sys2Proof.Machine

namespace State.Canon

variable {s : State}

/-! ### Queries (R326 to R331) -/

theorem onQuery {q : Nat} {f : Query → Query} (h : s.Canon) : (s.onQuery q f).Canon := h

theorem popNext {rec : List Byte} {q : Query} (h : s.Canon) : (s.popNext rec q).Canon := by
  unfold State.popNext
  dsimp only
  split
  · exact h.onQuery
  · split
    · exact h.onQuery
    · exact ite h.onQuery (ite h.onQuery (ite h.contextFault h.onQuery))

theorem execQueryRound {q : Nat} (h : s.Canon) : CanonNext (execQueryRound q s) := by
  unfold Machine.execQueryRound
  split
  · exact h
  · split
    · exact h
    · split
      · exact h
      · split
        · exact h.onQuery
        · exact h.popNext

theorem execVertexDistance {q : Nat} {v : Word} (h : s.Canon) : CanonNext (execVertexDistance q v s) := by
  unfold Machine.execVertexDistance
  dsimp only
  split
  · exact h
  · split
    · exact h
    · split
      · exact h
      · split
        · exact h.contextFault
        · exact h.onQuery

theorem showWords {x : Query} {ks : List Nat} (h : s.Canon) : (s.showWords x ks).Canon :=
  (h.foldl fun _ _ h => h.vwrite).onQuery

theorem execQueryCompletion {q : Nat} (h : s.Canon) : CanonNext (execQueryCompletion q s) := by
  unfold Machine.execQueryCompletion
  split
  · exact h
  · next x _ =>
    split
    · exact h
    · dsimp only
      refine nextIte h (nextIte h.showWords ?_)
      generalize written : (if x.written = true then s else _ : State) = s1
      have kept : s1.Canon := by
        rw [← written]
        exact ite h (h.foldl fun _ _ h => h.vwrite).remoteStores.onQuery
      exact nextIte kept (bump kept)

/-! ### The Dusk engines' rows (R301 to R317) -/

theorem duskServed {die ctx : Nat} (h : s.Canon) : (s.duskServed die ctx).Canon := h

theorem fe {r : Fe State} (h : s.Canon) (hr : FeHolds State.Canon r) : CanonNext (s.fe r) := by
  unfold State.fe
  refine nextIte h ?_
  cases r with
  | ok s' => exact hr
  | error w => exact ite h h

theorem duskStep {die ctx : Nat} {can : Sweep → Bool} (h : s.Canon) : CanonNext (duskStep s die ctx can) := by
  unfold Machine.duskStep
  split
  · exact h
  · next w _ =>
    have served : (if w.ending = true then s else s.duskServed die ctx).Canon := ite h h.duskServed
    refine nextIte h ?_
    dsimp only
    split
    · exact nextIte served.heldStep (served.fe served.pageStep)
    · exact served.fe served.pageStep

theorem ringAccess {j : Nat} {hb : HandBack} {rds wrs : List (Nat × Nat)} {k : State → List (Nat × Xlat) → State}
    (h : s.Canon) (hk : ∀ s outs, s.Canon → (k s outs).Canon) : (s.ringAccess j hb rds wrs k).Canon := by
  unfold State.ringAccess
  dsimp only
  split
  · split
    · generalize told : s.ringMissing hb _ = s1
      have kept : s1.Canon := by
        rw [← told]
        exact h.queueFault
      exact kept
    · exact h.contextFault
    · exact h.contextFault
    · exact h.contextFault
    · exact ite (contextFault h) (ite h h)
    · exact h
  · exact ite h.engTouch.contextFault (hk _ _ h.engTouch)

theorem execHandBack {j : Nat} (h : s.Canon) : CanonNext (execHandBack j s) := by
  unfold Machine.execHandBack
  split
  · exact h
  · refine nextIte h (h.ringAccess fun s outs h => ?_)
    dsimp only
    refine ite h (h.ringAccess fun s _ h => ?_)
    generalize written : State.remoteStores (List.foldl _ _ _) _ _ _ _ = s1
    have kept : s1.Canon := by
      rw [← written]
      exact (h.foldl fun _ _ h => h.vwrite).remoteStores
    exact kept

theorem fresh (h : s.Canon) : s.fresh.2.Canon := h

theorem execBackgroundSweep {ctx : Nat} (h : s.Canon) : CanonNext (execBackgroundSweep ctx s) := by
  unfold Machine.execBackgroundSweep
  dsimp only
  split
  · exact h
  · exact .onCtx (.fresh h)

/-! ### Grids (R279 to R297) -/

theorem feRead {ctx die va n : Nat} (h : s.Canon) : FeHolds (·.1.Canon) (s.feRead ctx die va n) := by
  unfold State.feRead
  dsimp only
  refine FeHolds.bind h.feRange ?_
  rintro ⟨s1, r1⟩ (h1 : s1.Canon)
  split
  · exact h1
  · exact h1.countReads

theorem execDoorbell {fn ctx q : Nat} {idx : Word} (h : s.Canon) : CanonNext (execDoorbell fn ctx q idx s) := by
  refine nextIte h (h.fe (FeHolds.bind h.feRead ?_))
  rintro ⟨s1, r⟩ (h1 : s1.Canon)
  dsimp only
  split
  · exact h1.queueFault
  · split
    · exact h1.queueFault
    · split
      · exact h1
      · exact h1.onCtx

theorem queueWord {ctx q : Nat} (h : s.Canon) : FeHolds State.Canon (s.queueWord ctx q) := by
  unfold State.queueWord
  dsimp only
  split
  · exact h
  · exact h.feWrite

theorem onQueue {ctx q : Nat} {f : Queue → Queue} (h : s.Canon) : (s.onQueue ctx q f).Canon := h.onCtx

theorem takeQueue {ctx q : Nat} (h : s.Canon) : FeHolds (·.1.Canon) (s.takeQueue ctx q) := by
  unfold State.takeQueue
  dsimp only
  split
  · exact h
  · split
    · exact h
    · refine FeHolds.bind h.onQueue.queueWord ?_
      rintro s3 h3
      exact h3
    · split
      · exact h
      · refine FeHolds.bind h.feRead ?_
        rintro ⟨s4, r4⟩ (h4 : s4.Canon)
        split
        · exact h4.queueFault.onQueue
        · split
          · exact h
          · refine FeHolds.bind h4.onQueue.queueWord ?_
            rintro s7 h7
            exact h7

theorem queueDone {ctx q : Nat} (h : s.Canon) : FeHolds State.Canon (s.queueDone ctx q) := by
  unfold State.queueDone
  dsimp only
  refine FeHolds.bind h.onQueue.queueWord ?_
  rintro s1 h1
  exact ite h1.contextIrq h1

theorem sourceDone {ctx : Nat} {src : GridSource} {tokens : Nat} (h : s.Canon) :
    FeHolds State.Canon (s.sourceDone ctx src tokens) := by
  unfold State.sourceDone
  split
  · exact h.queueDone
  · exact h
  · exact h.onTokens

theorem taskDone {ctx : Nat} {src : GridSource} (h : s.Canon) : (s.taskDone ctx src).Canon := by
  unfold State.taskDone
  split
  · exact h
  · exact h

theorem launchRecord {ctx : Nat} {src : GridSource} {list : Bool} {gd : Nat} (h : s.Canon) :
    (s.launchRecord ctx src list gd).Canon :=
  h.record

theorem feNeeded {ctx die : Nat} {needed : Bool} {va n : Nat} (h : s.Canon) :
    FeHolds (·.1.Canon) (s.feNeeded ctx die needed va n) := by
  unfold State.feNeeded
  split
  · exact h.feRead
  · exact h

theorem feCount {ctx die va : Nat} (h : s.Canon) : FeHolds State.Canon (s.feCount ctx die va) := by
  unfold State.feCount
  dsimp only
  refine FeHolds.bind h.feRange ?_
  rintro ⟨s1, r1⟩ (h1 : s1.Canon)
  split
  · exact h1.queueFault
  · split
    · exact h1.request
    · split
      · exact h1.queueFault
      · exact h1.vwrite

theorem gridReport {ctx die : Nat} {d : GridDesc} {status : Nat} (h : s.Canon) :
    FeHolds State.Canon (s.gridReport ctx die d status) := by
  refine FeHolds.iteBind (p := State.Canon) h h.feWrite fun s1 h1 => ?_
  refine FeHolds.iteBind (p := State.Canon) h1 h1.feCount fun s2 h2 => ?_
  exact ite h2.contextIrq h2

theorem refuse {src : GridSource} {o : Offer} {d : GridDesc} {reason : Nat} (h : s.Canon) :
    FeHolds State.Canon (s.refuse src o d reason) := h.gridReport.bind fun _ h1 => h1.taskDone.sourceDone

theorem addGrid {src : GridSource} {o : Offer} {b : List Byte} {nteam : Nat} {args crec prec : List Byte} (h : s.Canon)
    :
    (s.addGrid src o b nteam args crec prec).Canon :=
  .onCtx (.fresh h)

theorem startOffer {src : GridSource} {o : Offer} (h : s.Canon) : FeHolds State.Canon (s.startOffer src o) := by
  unfold State.startOffer
  refine FeHolds.bind h.feRead ?_
  rintro ⟨s1, r⟩ (h1 : s1.Canon)
  dsimp only
  split
  · exact h1.launchRecord.taskDone.sourceDone
  · refine FeHolds.iteBind (p := State.Canon) h1 h1.feWrite fun s1 h1 => FeHolds.bind h1.feNeeded ?_
    rintro ⟨s2, ra⟩ (h2 : s2.Canon)
    refine FeHolds.bind h2.feNeeded ?_
    rintro ⟨s3, rc⟩ (h3 : s3.Canon)
    refine FeHolds.bind h3.feNeeded ?_
    rintro ⟨s4, rp⟩ (h4 : s4.Canon)
    dsimp only
    split
    · split
      · exact h4.refuse
      · exact h4.addGrid
    · exact h4.refuse

theorem takeBatch {die q : Nat} (h : s.Canon) : (s.takeBatch die q).1.Canon := by
  unfold State.takeBatch
  split
  · exact h
  · split
    · exact h
    · split
      · exact h
      · exact h.onTokens

theorem execGridStart {src : GridSource} (h : s.Canon) : CanonNext (execGridStart src s) := by
  refine h.fe ?_
  split
  · split
    · exact h
    · refine FeHolds.bind h.takeQueue ?_
      rintro ⟨s1, o⟩ (h1 : s1.Canon)
      dsimp only
      split
      · exact h1.startOffer
      · exact h1
  · split
    · split
      · exact h.startOffer
      · exact h
    · exact h
  · next die q =>
    have taken : (s.takeBatch die q).1.Canon := h.takeBatch
    split
    · next s1 o batch =>
      rw [batch] at taken
      split
      · exact taken.startOffer
      · exact h
    · exact h

/-! ### Casts and teams (R284 to R297) -/

theorem addCast {c : Cast} (h : s.Canon) (hc : Memory.wf c.scratch = true) :
    ({ s with casts := s.casts ++ [c] } : State).Canon := by
  refine ⟨⟨h.1.1, fun x hx => ?_⟩, h.2⟩
  obtain old | new := List.mem_append.mp hx
  · exact h.1.2 x old
  · rw [List.mem_singleton.mp new]
    exact hc

/-- A cast that is placed starts with an empty scratch. -/
theorem putCast {g : Grid} {idx core : Nat} {roles : List (Nat × Nat × Nat)} {restored : Bool}
    {pl : List (Nat × List (Nat × Bool × Nat × Nat))} (h : s.Canon) :
    (s.putCast g idx roles restored core pl).Canon := by
  unfold State.putCast
  dsimp only
  split
  · exact onMatrix (trimL1 (onCore (h.addCast rfl)))
  · exact trimL1 (onCore (h.addCast rfl))

theorem placeNext {g core : Nat} {s' : State} (h : s.Canon) (placed : s.placeNext g core = some s') : s'.Canon := by
  unfold State.placeNext at placed
  split at placed
  · contradiction
  · split at placed
    · contradiction
    · dsimp only at placed
      split at placed
      · contradiction
      · obtain rfl := Option.some.inj placed
        exact ite h.acquireLines.putCast.onGrid h.acquireLines.putCast.onGrid.taskDone

theorem placeAll {g fuel casts core : Nat} {s' : State} (h : s.Canon)
    (placed : State.placeAll g fuel casts core s = some s') : s'.Canon := by
  induction fuel generalizing s casts core with
  | zero =>
    cases casts with
    | zero => exact Option.some.inj placed ▸ h
    | succ n => contradiction
  | succ k ih =>
    cases casts with
    | zero => exact Option.some.inj placed ▸ h
    | succ n =>
      unfold State.placeAll at placed
      split at placed
      · next first => exact ih (h.placeNext first) placed
      · exact ih h placed

theorem tryPlace {g : Grid} {core : Nat} {s' : State} (h : s.Canon) (placed : s.tryPlace g core = some s') :
    s'.Canon := by
  unfold State.tryPlace at placed
  split at placed
  · contradiction
  · split at placed
    · split at placed
      · contradiction
      · exact h.placeAll placed
    · exact h.placeNext placed

theorem turnFronts {g : Grid} {dies : List Nat} (h : s.Canon) : (s.turnFronts g dies).Canon := h

theorem execCastPlace {g core : Nat} (h : s.Canon) : CanonNext (execCastPlace g core s) := by
  unfold Machine.execCastPlace
  split
  · exact h
  · split
    · exact h
    · next placed => exact nextIte h (h.tryPlace placed).turnFronts.onGrid

theorem execCoresidentHold {g : Nat} (h : s.Canon) : CanonNext (execCoresidentHold g s) := by
  unfold Machine.execCoresidentHold
  split
  · exact h
  · split
    · exact h.onGrid
    · exact h

theorem completeGrid {g : Grid} (h : s.Canon) : FeHolds State.Canon (s.completeGrid g) :=
  h.gridReport.bind fun _ h1 => sourceDone h1

theorem execTeamRetire {t : Nat} (h : s.Canon) : CanonNext (execTeamRetire t s) := by
  unfold Machine.execTeamRetire
  split
  · exact h
  · refine nextIte h (h.fe (FeHolds.map (p := State.Canon) ?_ fun _ h => h.settlePreempt))
    split
    · exact h.release.dropTeam.onGrid
    · split
      · exact h.release.dropTeam.onGrid.completeGrid
      · exact h.release.dropTeam.onGrid

/-! ### Contexts (R275, R276, R278, R299) and resolves (R271) -/

theorem execTokenQueueTimer {die q : Nat} (h : s.Canon) : CanonNext (execTokenQueueTimer die q s) :=
  ite h h.onTokens

theorem unbind {die q : Nat} (h : s.Canon) : (s.unbind die q).Canon := h

theorem execTokenQueueBind {die q : Nat} {record : List Byte} (h : s.Canon) :
    CanonNext (execTokenQueueBind die q record s) := by
  unfold Machine.execTokenQueueBind
  dsimp only
  split
  · exact h
  · split
    · exact h.window.unbind
    · split
      · exact h.window
      · exact .window h

theorem last {ctx : Nat} {n : BitVec 4} (h : s.Canon) : (s.last ctx n).Canon := h.onCtx

theorem execCdesc {fn ctx : Nat} {pa : DWord} (h : s.Canon) : CanonNext (execCdesc fn ctx pa s) := by
  unfold Machine.execCdesc
  dsimp only
  split
  · exact h
  · split
    · exact h.last
    · split
      · exact h.countNoMemory.last
      · exact h.countNoMemory.onCtx

theorem command {fn ctx : Nat} {can : Context → Bool} {act : State → State} (h : s.Canon)
    (ha : ∀ s, s.Canon → (act s).Canon) : CanonNext (s.command fn ctx can act) :=
  nextIte h (nextIte (ha _ h.last) h.last)

theorem execCcmdPreempt {fn ctx : Nat} (h : s.Canon) : CanonNext (execCcmdPreempt fn ctx s) :=
  h.command fun _ h => settlePreempt (onCtx h)

theorem execCcmdResume {fn ctx : Nat} (h : s.Canon) : CanonNext (execCcmdResume fn ctx s) :=
  h.command fun _ h => onCtx h

theorem execCcmdReset {fn ctx : Nat} (h : s.Canon) : CanonNext (execCcmdReset fn ctx s) :=
  h.command fun _ h => h.contextFault

theorem execCcmdUnregister {fn ctx : Nat} (h : s.Canon) : CanonNext (execCcmdUnregister fn ctx s) :=
  h.command fun _ h => h.onCtx

theorem execDusktb {fn ctx : Nat} {va : DWord} (h : s.Canon) : CanonNext (execDusktb fn ctx va s) := by
  refine nextIte h (nextIte h.last (nextIte h.onCtx (h.fe (FeHolds.bind h.feRead ?_))))
  rintro ⟨s1, r⟩ (h1 : s1.Canon)
  dsimp only
  split
  · exact h1.last
  · split
    · exact h1.last
    · exact h1.onCtx

theorem resolve {fn : Nat} {word : DWord} {act : Nat} {f : State → Nat → Nat → State} (h : s.Canon)
    (hf : ∀ s ctx g, s.Canon → (f s ctx g).Canon) : CanonNext (s.resolve fn word act f) :=
  nextIte h (hf _ _ _ h)

theorem clearGranules {ctx : Nat} {p : Nat → Bool} (h : s.Canon) : (s.clearGranules ctx p).Canon := h

theorem execResolveFail {fn : Nat} {word : DWord} (h : s.Canon) : CanonNext (execResolveFail fn word s) := by
  refine h.resolve fun s ctx g h => ?_
  refine clearGranules ?_
  generalize failed : List.foldl _ s _ = s1
  have kept : s1.Canon := by
    rw [← failed]
    refine h.foldl fun s t h => ?_
    split
    · exact h
    · exact ite h.enterTrap h.setTeam
  exact ite kept.contextFault kept

end State.Canon

end Sys2Proof.Machine
end

section
/-! The canonical form of every memory, kept by checkpoints, registers, the host, links and management. -/

namespace Sys2Proof.Machine

namespace State.Canon

variable {s : State}

/-! ### Checkpoints (R338 to R340) -/

theorem trigger (h : s.Canon) : s.trigger.Canon := ite h h

theorem execCkctlCheckpoint (h : s.Canon) : CanonNext (execCkctlCheckpoint s) := ite h.trigger h

theorem execCkctlLoad (h : s.Canon) : CanonNext (execCkctlLoad s) := by
  unfold Machine.execCkctlLoad
  dsimp only
  split
  · exact h
  · exact h

theorem execCkctlClear (h : s.Canon) : CanonNext (execCkctlClear s) := ite h h

theorem withCkstat {w : Word} (h : s.Canon) :
    ({ s with ck := none, regs := { s.regs with ckstat := w } } : State).Canon := h

theorem ckDone {op nerr : Nat} (h : s.Canon) : (s.ckDone op nerr).Canon := emit (emit h.withCkstat)

/-- The cells of an area, moved to start at `dst`, are canonical from `dst` on. -/
theorem copyCells_wfFrom {m : Memory} (w : m.wf = true) (lo hi dst : Nat) (bad : List Nat) :
    Memory.wfFrom dst (copyCells m lo hi dst bad) = true := by
  unfold copyCells
  have inside : Memory.wfFrom lo (m.filter fun c =>
      decide (lo ≤ c.1) && decide (c.1 < hi) && !bad.contains (c.1 / 65536)) = true := by
    refine Memory.wfFrom_of_bound (lo := 0) (Memory.wf_filter w _) fun c mem => ?_
    have kept := (List.mem_filter.mp mem).2
    simp only [Bool.and_eq_true, decide_eq_true_eq] at kept
    exact kept.1.1
  simpa using Memory.wfFrom_map_shift lo dst (Nat.le_refl lo) inside

theorem lt_of_mem_copyCells {m : Memory} {lo hi dst : Nat} {bad : List Nat} {c : Host.Cell}
    (mem : c ∈ copyCells m lo hi dst bad) : c.1 < hi - lo + dst := by
  unfold copyCells at mem
  obtain ⟨x, found, rfl⟩ := List.mem_map.mp mem
  have kept := (List.mem_filter.mp found).2
  simp only [Bool.and_eq_true, decide_eq_true_eq] at kept
  dsimp only
  omega

theorem execCheckpointComplete (h : s.Canon) : CanonNext (execCheckpointComplete s) := by
  refine nextIte h ?_
  have clean : s.cleanAll.Canon := h.cleanAll
  dsimp only
  generalize s.cleanAll = s1 at clean
  have copied := copyCells_wfFrom clean.1.1 0 (2 ^ 39) imageBase (s1.badGranules 0 (2 ^ 39))
  have whole := Memory.wfFrom_append (lo := 0) copied (Memory.wf_filter clean.1.1 fun c => decide (c.1 < imageBase))
    (fun c mem => of_decide_eq_true (List.mem_filter.mp mem).2) (Nat.zero_le _)
  exact ckDone (clean.of_mem whole rfl rfl)

theorem execCheckpointLoadComplete (h : s.Canon) : CanonNext (execCheckpointLoadComplete s) := by
  have rest : Memory.wfFrom (2 ^ 39) (s.mem.filter fun c => decide (2 ^ 39 ≤ c.1)) = true :=
    Memory.wfFrom_of_bound (lo := 0) (Memory.wf_filter h.1.1 _) fun c mem =>
      of_decide_eq_true (List.mem_filter.mp mem).2
  have copied := copyCells_wfFrom h.1.1 imageBase (imageBase + 2 ^ 39) 0 (s.badGranules imageBase (imageBase + 2 ^ 39))
  have whole := Memory.wfFrom_append rest copied (fun c mem => by
    simpa only [Nat.add_sub_cancel_left, Nat.add_zero] using lt_of_mem_copyCells mem) (Nat.zero_le _)
  exact nextIte h (ckDone (h.of_mem whole rfl rfl))

/-! ### Power, graphs and registers (R342, R349) -/

theorem setPmode {value : Word} (h : s.Canon) : (s.setPmode value).Canon := ite h h

theorem execPmode {value : Word} (h : s.Canon) : CanonNext (execPmode value s) := ite h.setPmode h

theorem execPowerModeChange (h : s.Canon) : CanonNext (execPowerModeChange s) := by
  unfold Machine.execPowerModeChange
  dsimp only
  split
  · exact h
  · exact .emit h

theorem execWheelSettingChange (h : s.Canon) : CanonNext (execWheelSettingChange s) := by
  unfold Machine.execWheelSettingChange
  dsimp only
  split
  · exact h
  · exact h

theorem execSshare {stack : Nat} {value : Word} (h : s.Canon) : CanonNext (execSshare stack value s) := by
  unfold Machine.execSshare
  dsimp only
  split
  · exact h
  · exact h

theorem grstat {g : Nat} {code : BitVec 2} (h : s.Canon) : (s.grstat g code).Canon := h

theorem execGraphRegistration {g : Nat} {record : List Byte} (h : s.Canon) :
    CanonNext (execGraphRegistration g record s) := by
  unfold Machine.execGraphRegistration
  dsimp only
  split
  · exact h
  · split
    · exact h.window.grstat
    · exact h.window.grstat

theorem execGraphUnregistration {g : Nat} {record : List Byte} (h : s.Canon) :
    CanonNext (execGraphUnregistration g record s) := by
  unfold Machine.execGraphUnregistration
  dsimp only
  split
  · exact h
  · split
    · exact h.window.grstat
    · exact h.window.grstat

theorem execUnregistrationEffect {g : Nat} (h : s.Canon) : CanonNext (execUnregistrationEffect g s) := by
  unfold Machine.execUnregistrationEffect
  dsimp only
  split
  · exact ite h.grstat h
  · exact h

theorem portControl {port : Nat} {en : Bool} (h : s.Canon) : (s.portControl port en).Canon := ite h (.emit h)

theorem windowWord {base size off n value : Nat} {endpoint : Bool} (h : s.Canon) :
    (s.windowWord base size off n value endpoint).Canon :=
  ite h.window.window h.window

theorem writeReg {off n value : Nat} (h : s.Canon) : (s.writeReg off n value).Canon := by
  unfold State.writeReg
  dsimp only
  refine ite (ite (h.setRegs rfl) h) (ite (ite h (h.setRegs rfl)) (ite (h.setRegs rfl) (ite h.portControl ?_)))
  exact ite (h.setRegs rfl) (ite (h.setRegs rfl) (ite h.windowWord (ite h.windowWord h)))

theorem execRegisterWrite {fn off n value : Nat} (h : s.Canon) : CanonNext (execRegisterWrite fn off n value s) := by
  unfold Machine.execRegisterWrite
  dsimp only
  split
  · split
    · exact h.onCtx
    · exact h
  · split
    · exact h.writeReg
    · exact h

/-! ### The host (R240, R346, R347) -/

theorem execHostPostedWrite {fn pa : Nat} {data : List Byte} (h : s.Canon) :
    CanonNext (execHostPostedWrite fn pa data s) := by
  unfold Machine.execHostPostedWrite
  split
  · exact h
  · exact h

theorem countRefused (h : s.Canon) : s.countRefused.Canon := h

theorem execPieceAcknowledgement {j : Nat} (h : s.Canon) : CanonNext (execPieceAcknowledgement j s) := by
  unfold Machine.execPieceAcknowledgement
  dsimp only
  split
  · exact h
  · split
    · exact h
    · exact ite (.countRefused h) (.physWrite h)

theorem execHostRead {fn pa n : Nat} (h : s.Canon) : CanonNext (execHostRead fn pa n s) := by
  unfold Machine.execHostRead
  split
  · exact h
  · split
    · exact h.countRefused.emit
    · exact .emit (.countNoMemory h)

theorem grantAts {ctx page : Nat} (h : s.Canon) : (s.grantAts ctx page).Canon := ite h h

theorem atsEntry {t : Team} {e : Outst} {granted : Bool} (h : s.Canon) : (s.atsEntry t e granted).Canon := by
  unfold State.atsEntry
  split
  · exact h
  · split
    · exact ite h.grantAts h.setTeam
    · exact h

theorem atsKey {key : Nat} {granted : Bool} (h : s.Canon) : (s.atsKey key granted).Canon := by
  unfold State.atsKey
  dsimp only
  split
  · exact h
  · exact ite (.grantAts h) (ite h (.contextFault h))

theorem atsFetch {t : Team} {granted : Bool} (h : s.Canon) : (s.atsFetch t granted).Canon := by
  unfold State.atsFetch
  dsimp only
  split
  · exact h
  · split
    · exact ite h.grantAts h.fetchTrap
    · exact h

theorem execAtsAnswer {t k : Nat} {granted : Bool} (h : s.Canon) : CanonNext (execAtsAnswer t k granted s) := by
  unfold Machine.execAtsAnswer
  split
  · exact h
  · split
    · split
      · exact h.atsEntry
      · exact h
    · split
      · exact h.atsKey
      · split
        · exact h.atsFetch
        · exact h

theorem execHostAtsInvalidation {page : Nat} (h : s.Canon) : CanonNext (execHostAtsInvalidation page s) := by
  unfold Machine.execHostAtsInvalidation
  dsimp only
  split
  · exact h
  · exact h

/-! ### Links (R352 to R359) -/

theorem received {f : Flit} (h : s.Canon) : (s.received f).Canon := h

theorem waitHere {ty : BitVec 4} {f : Flit} (h : s.Canon) : (s.waitHere ty f).Canon := ite h h

theorem arrive {ty : BitVec 4} {f : Flit} {s' : State} (h : s.Canon) (arrived : s.arrive ty f = some s') :
    s'.Canon := by
  unfold State.arrive at arrived
  split at arrived
  · contradiction
  · split at arrived
    · exact Option.some.inj arrived ▸ h
    · split at arrived
      · exact Option.some.inj arrived ▸ h.received
      · contradiction

theorem comes {ty : BitVec 4} {f : Flit} {k : State → State} (h : s.Canon) (hk : ∀ s, s.Canon → (k s).Canon) :
    CanonNext (s.comes ty f k) := by
  unfold State.comes
  cases arrived : s.arrive ty f with
  | none => exact h.waitHere
  | some s1 => exact hk s1 (h.arrive arrived)

theorem reply {f : Flit} {ty : BitVec 4} {opc : BitVec 8} {data : List Byte} (h : s.Canon) :
    (s.reply f ty opc data).Canon := by
  unfold State.reply
  dsimp only
  exact h.answerTo.send

theorem execRemoteStore {f : Flit} (h : s.Canon) : CanonNext (execRemoteStore f s) :=
  h.comes fun _ h => ite (h.foldl fun _ _ h => h.physWrite).reply h.reply

theorem execRemoteAtomic {f : Flit} (h : s.Canon) : CanonNext (execRemoteAtomic f s) :=
  h.comes fun _ h => ite h.reply (reply (physWrite h))

theorem closeRemote {r : Remote} (h : s.Canon) : (s.closeRemote r).Canon := ite h (.onTeam h)

theorem execAcknowledgement {f : Flit} (h : s.Canon) : CanonNext (execAcknowledgement f s) :=
  h.comes fun _ h => elim h fun _ => ite h h.closeRemote

theorem deliver {r : Remote} {v : Nat} (h : s.Canon) : (s.deliver r v).Canon := by
  unfold State.deliver
  split
  · exact h
  · exact h.onTeam

theorem execAtomicResponse {f : Flit} (h : s.Canon) : CanonNext (execAtomicResponse f s) :=
  h.comes fun _ h => elim h fun _ => h.closeRemote.deliver

theorem refuseRemote {r : Remote} (h : s.Canon) : (s.refuseRemote r).Canon := h.closeRemote.deliver.onCtx

theorem carryStat {k : CarryOut} {stat : Nat} (h : s.Canon) : (s.carryStat k stat).Canon := by
  have told : (s.onCast k.cast fun c => c.swrite (k.off + 20) (leBytes 4 stat)).Canon :=
    h.onCast fun _ hc => Cast.swrite_wf hc _ _
  unfold State.carryStat
  generalize s.onCast k.cast _ = s1 at told
  exact bump (releaseOp told)

theorem execRefusal {f : Flit} (h : s.Canon) : CanonNext (execRefusal f s) := by
  refine h.comes fun s h => ?_
  split
  · exact h.refuseRemote
  · exact elim h fun _ => h.carryStat

theorem addCarry {k : CarryIn} (h : s.Canon) : (s.addCarry k).Canon := h

theorem openCarry {f : Flit} (h : s.Canon) : (s.openCarry f).Canon := ite h h.fresh.addCarry

theorem onLanding {op : Nat} {f : CarryIn → CarryIn} (h : s.Canon) : (s.onLanding op f).Canon := h

theorem grantCarry {k : CarryIn} (h : s.Canon) : (s.grantCarry k).Canon := ite h h.register.onLanding

theorem landBytes {k : CarryIn} (h : s.Canon) : (s.landBytes k).Canon :=
  onLanding (h.foldl fun _ _ h => h.onCast fun _ hc => Cast.swrite_wf hc _ _)

theorem endCarry {k : CarryIn} {f : Flit} (h : s.Canon) : (s.endCarry k f).Canon := by
  unfold State.endCarry
  have counted {c : Prop} [Decidable c] {n : Nat} {ch : BarChange} :
      (if c then s.barChange k.cast n ch else s).Canon := ite h.barChange h
  extract_lets b s1 s2
  have kept : s1.Canon := counted
  clear_value s1
  exact reply (releaseOp kept)

theorem landOne {op : Nat} (h : s.Canon) : (s.landOne op).Canon := by
  unfold State.landOne
  split
  · exact h
  · refine ite h.grantCarry ?_
    dsimp only
    split
    · exact ite h.grantCarry.landBytes h.grantCarry
    · exact (ite h.grantCarry.landBytes h.grantCarry).endCarry

theorem landAll (h : s.Canon) : s.landAll.Canon := h.foldl fun _ _ h => h.landOne

theorem carryFlit {f : Flit} {last : Bool} (h : s.Canon) : (s.carryFlit f last).Canon := by
  have opened : (s.openCarry f).Canon := h.openCarry
  unfold State.carryFlit
  generalize s.openCarry f = s1 at opened
  exact landAll opened

theorem execCarryData {f : Flit} (h : s.Canon) : CanonNext (execCarryData f s) := h.comes fun _ h => h.carryFlit

theorem execCarryEnd {f : Flit} (h : s.Canon) : CanonNext (execCarryEnd f s) := h.comes fun _ h => h.carryFlit

theorem execCarryStatus {f : Flit} (h : s.Canon) : CanonNext (execCarryStatus f s) :=
  h.comes fun _ h => elim h fun _ => h.carryStat

theorem execFlitForward {f : Flit} (h : s.Canon) : CanonNext (execFlitForward f s) := by
  unfold Machine.execFlitForward
  split
  · exact h
  · split
    · exact h.emit
    · exact h.refuseFlit

theorem execFlitDiscard {f : Flit} (h : s.Canon) : CanonNext (execFlitDiscard f s) := by
  unfold Machine.execFlitDiscard
  dsimp only
  split
  · exact ite h.received h
  · exact h

theorem execPortUp {port : Nat} {peer : BitVec 19} (h : s.Canon) : CanonNext (execPortUp port peer s) := by
  unfold Machine.execPortUp
  dsimp only
  split
  · exact h
  · exact .emit h

theorem execPortDown {port : Nat} (h : s.Canon) : CanonNext (execPortDown port s) := by
  refine nextIte h (emit ((foldl ?_ fun _ _ h => h.refuseRemote).foldl fun _ _ h => h.carryStat))
  exact h

/-! ### Rails, alerts and management (R340, R341, R360 to R372) -/

theorem execPfail (h : s.Canon) : CanonNext (execPfail s) := h.trigger

theorem execMainRailFailure (h : s.Canon) : CanonNext (execMainRailFailure s) := h.cleared

theorem execRetvLoss (h : s.Canon) : CanonNext (execRetvLoss s) := ⟨⟨Memory.wf_filter h.1.1 _, h.1.2⟩, h.2⟩

theorem execThermalAlert (h : s.Canon) : CanonNext (execThermalAlert s) := h.emit

theorem execThermtrip (h : s.Canon) : CanonNext (execThermtrip s) := by
  unfold Machine.execThermtrip
  dsimp only
  split
  · exact h
  · exact .emit h

theorem execPatrolScrub {line : Nat} {correctable : Bool} (h : s.Canon) :
    CanonNext (execPatrolScrub line correctable s) := by
  unfold Machine.execPatrolScrub
  dsimp only
  split
  · exact h
  · exact h

theorem execPstatUpdate (h : s.Canon) : CanonNext (execPstatUpdate s) := h

theorem execClockThrottle {down : Bool} (h : s.Canon) : CanonNext (execClockThrottle down s) := by
  unfold Machine.execClockThrottle
  dsimp only
  split
  · exact h
  · exact h

theorem execIdent (h : s.Canon) : CanonNext (execIdent s) := h.answer

theorem execTelem (h : s.Canon) : CanonNext (execTelem s) := .answer h

theorem execSbReset {arg : Byte} (h : s.Canon) : CanonNext (execSbReset arg s) := by
  unfold Machine.execSbReset
  split
  · exact h.answer
  · exact h.answer.requestReset

theorem execFwstage {off : Nat} {chunk : List Byte} (h : s.Canon) : CanonNext (execFwstage off chunk s) := by
  unfold Machine.execFwstage
  dsimp only
  split
  · exact h.answer
  · exact .answer h

theorem execFwcommit (h : s.Canon) : CanonNext (execFwcommit s) := by
  unfold Machine.execFwcommit
  dsimp only
  split
  · exact .answer h
  · exact h.answer

theorem unlessRecovery {f : State → State} (h : s.Canon) (hf : (f s).Canon) : CanonNext (s.unlessRecovery f) :=
  ite h.answer hf

theorem execCktrig (h : s.Canon) : CanonNext (execCktrig s) := h.unlessRecovery h.trigger.answer

theorem execWrtset {authorised : Bool} {table : List Byte} (h : s.Canon) : CanonNext (execWrtset authorised table s) :=
  nextIte h (h.unlessRecovery (ite h h.answer))

theorem execPmset {value : Word} (h : s.Canon) : CanonNext (execPmset value s) :=
  h.unlessRecovery (ite h.answer h.setPmode.answer)

theorem execWorldTableSwitch (h : s.Canon) : CanonNext (execWorldTableSwitch s) := by
  unfold Machine.execWorldTableSwitch
  split
  · exact h
  · exact ite h h.switchTable

theorem spdm {code : Nat} {data : List Byte} (h : s.Canon) : (s.spdm code data).Canon := h.emit

theorem execSpdmRequest {req : SpdmRequest} (h : s.Canon) : CanonNext (execSpdmRequest req s) := by
  unfold Machine.execSpdmRequest
  dsimp only
  split
  · exact h
  · split
    · exact h.spdm
    · exact ite h.spdm h.spdm
    · exact ite h.spdm h.spdm
    · split
      · exact h.spdm
      · exact h.spdm
    · split
      · exact .spdm h
      · exact h.spdm
    · exact h.spdm

theorem execMctpControl {msg : List Byte} (h : s.Canon) : CanonNext (execMctpControl msg s) := h.emit

theorem execDynamicAddressAssignment {addr : BitVec 7} (h : s.Canon) :
    CanonNext (execDynamicAddressAssignment addr s) :=
  h

theorem execCcmdReserved {fn ctx : Nat} {cmd : BitVec 3} (h : s.Canon) : CanonNext (execCcmdReserved fn ctx cmd s) := by
  unfold Machine.execCcmdReserved
  split
  · exact h.last
  · exact h

end State.Canon

end Sys2Proof.Machine
end

section
/-! The canonical form of every memory, kept by rows of the table, turns and steps. -/

namespace Sys2Proof.Machine

namespace State.Canon

variable {s : State}

/-! ### Every row of the table -/

/-- An event leaves the memories canonical. -/
theorem exec_event {i : Instr} (h : s.Canon) (he : i.encoded = false) : CanonNext (exec i s) := by
  cases i with
  | clauseFetch _ => exact h.execClauseFetch
  | prefetchFill _ _ => exact h.execPrefetchFill
  | issuePortChoice _ _ _ => exact h.execIssuePortChoice
  | yieldWaitEnd _ => exact h.execYieldWaitEnd
  | f2Completion _ _ => exact h.execF2Completion
  | translationResult _ _ _ => exact h.execTranslationResult
  | trapEntry _ => exact h.execTrapEntry
  | teamPark _ => exact h.execTeamPark
  | parkedReissue _ => exact h.execParkedReissue
  | faultRecordWrite _ => exact h.execFaultRecordWrite
  | watchdogExpiry _ => exact h.execWatchdogExpiry
  | contextReset _ => exact h.execContextReset
  | commandAcceptance _ _ => exact h.execCommandAcceptance
  | wbloadDecode _ _ => exact h.execWbloadDecode
  | wbdropExecute _ _ => exact h.execWbdropExecute
  | mmaKStep _ _ => exact h.execMmaKStep
  | commandResume _ _ => exact h.execCommandResume
  | tileImageOperation _ _ => exact h.execTileImageOperation
  | accdrDrain _ _ => exact h.execAccdrDrain
  | kvappAppend _ _ => exact h.execKvappAppend
  | pselSelection _ _ => exact h.execPselSelection
  | attnPage _ _ => exact h.execAttnPage
  | attnfinMerge _ _ => exact h.execAttnfinMerge
  | copyAcceptance _ _ => exact h.execCopyAcceptance
  | copyRow => exact h.execCopyRow
  | waitkDone _ _ => exact h.execWaitkDone
  | bwaitDone _ _ => exact h.execBwaitDone
  | waitbDone _ _ => exact h.execWaitbDone
  | xacqGrant _ _ => exact h.execXacqGrant
  | xacqTimeout _ _ => exact h.execXacqTimeout
  | gscanWaitEnd _ _ => exact h.execGscanWaitEnd
  | queryRound _ => exact h.execQueryRound
  | vertexDistance _ _ => exact h.execVertexDistance
  | queryCompletion _ => exact h.execQueryCompletion
  | duskPageStep _ _ => exact h.duskStep
  | handBack _ => exact h.execHandBack
  | kvresRestore _ _ => exact h.duskStep
  | backgroundSweep _ => exact h.execBackgroundSweep
  | doorbell _ _ _ _ => exact h.execDoorbell
  | gridStart _ => exact h.execGridStart
  | castPlace _ _ => exact h.execCastPlace
  | coresidentHold _ => exact h.execCoresidentHold
  | teamRetire => exact h.execTeamRetire
  | tokenQueueTimer _ _ => exact h.execTokenQueueTimer
  | tokenQueueBind _ _ _ => exact h.execTokenQueueBind
  | cdesc _ _ _ => exact h.execCdesc
  | ccmdPreempt _ _ => exact h.execCcmdPreempt
  | ccmdResume _ _ => exact h.execCcmdResume
  | ccmdReset _ _ => exact h.execCcmdReset
  | ccmdUnregister _ _ => exact h.execCcmdUnregister
  | dusktb _ _ _ => exact h.execDusktb
  | resolveRetry _ _ => exact h.resolve fun _ _ _ h => h.clearGranules
  | resolveFail _ _ => exact h.execResolveFail
  | resolveRetryAll _ _ => exact h.resolve fun _ _ _ h => h.clearGranules
  | ckctlCheckpoint => exact h.execCkctlCheckpoint
  | ckctlLoad => exact h.execCkctlLoad
  | ckctlClear => exact h.execCkctlClear
  | checkpointComplete => exact h.execCheckpointComplete
  | checkpointLoadComplete => exact h.execCheckpointLoadComplete
  | pmode _ => exact h.execPmode
  | powerModeChange => exact h.execPowerModeChange
  | wheelSettingChange => exact h.execWheelSettingChange
  | sshare _ _ => exact h.execSshare
  | graphRegistration _ _ => exact h.execGraphRegistration
  | graphUnregistration _ _ => exact h.execGraphUnregistration
  | unregistrationEffect _ => exact h.execUnregistrationEffect
  | registerWrite _ _ _ _ => exact h.execRegisterWrite
  | hostPostedWrite _ _ _ => exact h.execHostPostedWrite
  | pieceAcknowledgement _ => exact h.execPieceAcknowledgement
  | hostRead _ _ _ => exact h.execHostRead
  | atsAnswer _ _ _ => exact h.execAtsAnswer
  | hostAtsInvalidation _ => exact h.execHostAtsInvalidation
  | remoteStore _ => exact h.execRemoteStore
  | remoteAtomic _ => exact h.execRemoteAtomic
  | acknowledgement _ => exact h.execAcknowledgement
  | atomicResponse _ => exact h.execAtomicResponse
  | refusal _ => exact h.execRefusal
  | carryData _ => exact h.execCarryData
  | carryEnd _ => exact h.execCarryEnd
  | carryStatus _ => exact h.execCarryStatus
  | flitForward _ => exact h.execFlitForward
  | flitReplay _ => exact h
  | portUp _ _ => exact h.execPortUp
  | portDown _ => exact h.execPortDown
  | pfail => exact h.execPfail
  | mainRailFailure => exact h.execMainRailFailure
  | retvLoss => exact h.execRetvLoss
  | coldReset => exact h.execColdReset
  | warmReset => exact h.execWarmReset
  | vfFunctionLevelReset _ => exact h.execVfFunctionLevelReset
  | thermalAlert => exact h.execThermalAlert
  | thermtrip => exact h.execThermtrip
  | stackAlert _ _ _ => exact h
  | patrolScrub _ _ => exact h.execPatrolScrub
  | ident => exact h.execIdent
  | telem => exact h.execTelem
  | sbReset _ => exact h.execSbReset
  | fwstage _ _ => exact h.execFwstage
  | fwcommit => exact h.execFwcommit
  | cktrig => exact h.execCktrig
  | wrtset _ _ => exact h.execWrtset
  | worldTableSwitch => exact h.execWorldTableSwitch
  | pmset _ => exact h.execPmset
  | spdmRequest _ => exact h.execSpdmRequest
  | mctpControl _ => exact h.execMctpControl
  | dynamicAddressAssignment _ => exact h.execDynamicAddressAssignment
  | flitDiscard _ => exact h.execFlitDiscard
  | pstatUpdate => exact h.execPstatUpdate
  | clockThrottle _ => exact h.execClockThrottle
  | ccmdReserved _ _ _ => exact h.execCcmdReserved
  | _ => exact (Bool.false_ne_true he.symm).elim

theorem exec {i : Instr} (h : s.Canon) : CanonNext (exec i s) := by
  cases he : i.encoded with
  | true => exact h.exec_encoded he
  | false => exact h.exec_event he

/-! ### Turns and steps -/

theorem mapNext {f : State → State} {r : Result} (hr : CanonNext r) (hf : ∀ s, s.Canon → (f s).Canon) :
    CanonNext (mapNext f r) := by
  cases r with
  | next s => exact hf s hr
  | fault e => trivial
  | refused e => trivial

theorem perform1 {t : Nat} {i : Instr} (h : s.Canon) : CanonNext (s.perform1 t i) :=
  mapNext (exec h) fun _ h => h

theorem undecoded {t : Team} {c : Clause} (h : s.Canon) : (s.undecoded t c).Canon := ite h h.trapNow

theorem issueTurn {t : Team} {c : Clause} (h : s.Canon) : CanonNext (s.issueTurn t c) := by
  unfold State.issueTurn
  refine nextIte h ?_
  split
  · dsimp only
    split
    · exact mapNext h.setTeam.perform1 fun _ h => h.onTeam
    · exact h.perform1
  · exact h.undecoded

theorem teamTurn {t : Nat} (h : s.Canon) : CanonNext (s.teamTurn t) := by
  unfold State.teamTurn
  split
  · exact h
  · refine nextIte h ?_
    split
    · exact h.exec
    · split
      · exact h.exec
      · exact h.issueTurn

theorem landLoad {t : Team} {e : Outst} {o : F2} {sx : Bool} {mask : Mask} (h : s.Canon) :
    (s.landLoad t e o sx mask).Canon :=
  ite h.loads.setTeam h

theorem landStore {t : Team} {e : Outst} {o : F2} {part rest : List (Nat × Nat)} (h : s.Canon) :
    (s.landStore t e o part rest).Canon :=
  h.release.stores.setTeam

theorem landAtomic {t : Team} {e : Outst} {o : F2} {op : Nat} {ret : Bool} {part rest : List (Nat × Nat)}
    (h : s.Canon) : (s.landAtomic t e o op ret part rest).Canon := by
  have landed : (Machine.atomicLanes t e (szBytes o.ext.sz) op (szScratch o.ext.sz) part
      (s.release t (atomicScope e.instr 1)) []).1.Canon := h.release.atomicLanes
  unfold State.landAtomic
  split
  · next some =>
    rw [some] at landed
    exact landed.setTeam
  · exact h

theorem landHacc {t : Team} {e : Outst} {o : F2} {part rest : List (Nat × Nat)} (h : s.Canon) :
    (s.landHacc t e o part rest).Canon := by
  have landed : (Machine.haccLanes t e o part s []).1.Canon := h.haccLanes
  unfold State.landHacc
  split
  · next some =>
    rw [some] at landed
    exact ite h landed.setTeam
  · exact h

theorem someLanes {t k : Nat} {mask : Mask} (h : s.Canon) : (s.someLanes t k mask).Canon := by
  unfold State.someLanes
  dsimp only
  split
  · exact h
  · split
    · exact h
    · split
      · exact h
      · split
        · exact h.landLoad
        · exact h.landLoad
        · exact h.landLoad
        · exact h.landStore
        · exact ite h.landAtomic h.landStore
        · exact h.landAtomic
        · exact h.landAtomic
        · exact h.landAtomic
        · exact h.landHacc
        · exact h

theorem postNow {t k : Nat} (h : s.Canon) : (s.postNow t k).Canon := by
  unfold State.postNow
  split
  · exact h
  · exact ite h.post h

theorem codeAhead {t line : Nat} (h : s.Canon) : (s.codeAhead t line).Canon := by
  unfold State.codeAhead
  split
  · exact h
  · exact ite h h.fillCode

theorem memError {burst : Nat} {silent : Option (List Byte)} (h : s.Canon) : (s.memError burst silent).Canon := by
  unfold State.memError
  refine ite h ?_
  split
  · exact ite h h
  · exact ⟨⟨Memory.wf_writeN h.1.1 _ _, h.1.2⟩, h.2⟩

theorem scratchError {cast block : Nat} (h : s.Canon) : (s.scratchError cast block).Canon := by
  refine h.onCastBeside fun c => ?_
  split
  · rfl
  · rfl

theorem passDusk {core m : Nat} (h : s.Canon) : (s.passDusk core m).Canon := by
  unfold State.passDusk
  dsimp only
  split
  · exact h
  · exact ite h h.onMatrix

theorem turn {x : Turn} (h : s.Canon) : CanonNext (s.turn x) := by
  cases x with
  | team t => exact h.teamTurn
  | event i => exact nextIte h (nextIte h h.exec)
  | lanes t k mask => exact h.someLanes
  | post t k => exact h.postNow
  | code t line => exact h.codeAhead
  | memError burst silent => exact h.memError
  | scratchError cast block => exact h.scratchError
  | landing => exact h.landAll
  | dusk core m => exact h.passDusk

theorem step (h : s.Canon) : CanonNext (step s) := by
  refine mapNext ?_ fun _ h => h.tick
  split
  · next r due => exact h.dueReset due
  · split
    · exact turn h
    · split
      · exact h.turn
      · exact h

end State.Canon

/-- Settles O38: every row of the table, and each of a step's own actions, leaves the memories canonical. -/
theorem everyStepKeepsMemoryCanonical : Obligations.EveryStepKeepsMemoryCanonical := by
  intro s s' mem windows next
  have kept := State.Canon.step ⟨mem, windows⟩
  rw [next] at kept
  exact kept

end Sys2Proof.Machine
end

section
/-! Requests of virtual functions (R344, R349, R350): what they leave as it is beside the context that they name. -/

namespace Sys2Proof.Machine

/-! ### The context of a number -/

@[simp] theorem State.ctx_no (s : State) (no : Nat) : (s.ctx no).no = no := by
  unfold State.ctx
  cases found : s.contexts.find? fun c => c.no == no with
  | none => rfl
  | some c => simpa using List.find?_some found

theorem State.ctx_congr {s s' : State} (h : s'.contexts = s.contexts) (no : Nat) : s'.ctx no = s.ctx no := by
  simp only [State.ctx, h]

/-- What is found by another test than that of the elements replaced. -/
theorem find?_replaceIf_other {α : Type} (l : List α) {p q : α → Bool} {y : α} (hy : q y = false)
    (hp : ∀ x, p x = true → q x = false) : (replaceIf l p fun _ => y).find? q = l.find? q := by
  induction l with
  | nil => rfl
  | cons x l ih =>
    simp only [replaceIf] at ih
    by_cases hx : p x = true
    · simp [replaceIf, hx, hy, hp x hx, ih]
    · simp [replaceIf, hx, List.find?_cons, ih]

theorem State.ctx_setCtx_other (s : State) {x : Context} {no : Nat} (other : no ≠ x.no) :
    (s.setCtx x).ctx no = s.ctx no := by
  have notX : (x.no == no) = false := by simpa using Ne.symm other
  unfold State.setCtx State.ctx
  split
  · dsimp only
    rw [find?_replaceIf_other (q := fun c : Context => c.no == no) s.contexts notX]
    intro y same
    rw [eq_of_beq same, notX]
  · simp [List.find?_append, notX]

theorem State.ctx_onCtx_other (s : State) {ctx no : Nat} {f : Context → Context}
    (keeps : (f (s.ctx ctx)).no = (s.ctx ctx).no) (other : no ≠ ctx) : (s.onCtx ctx f).ctx no = s.ctx no :=
  s.ctx_setCtx_other (by rwa [keeps, s.ctx_no])

/-! ### Changes beside one context -/

/-- From one state to another the device-wide registers, the ports and the world table stay as they are, and every
context but one. -/
structure OnlyContext (ctx : Nat) (s s' : State) : Prop where
  regs : s'.regs = s.regs
  ports : s'.ports = s.ports
  wrt : s'.wrt = s.wrt
  others : ∀ c, c ≠ ctx → s'.ctx c = s.ctx c

/-- The state that a row answers, where it answers one, differs in one context. -/
def OnlyContextNext (ctx : Nat) (s : State) : Result → Prop
  | .next s' => OnlyContext ctx s s'
  | _ => True

namespace OnlyContext

variable {ctx die : Nat} {s s' : State}

@[simp] theorem refl : OnlyContext ctx s s := ⟨rfl, rfl, rfl, fun _ _ => rfl⟩

theorem trans {s'' : State} (h : OnlyContext ctx s s') (h' : OnlyContext ctx s' s'') : OnlyContext ctx s s'' :=
  ⟨h'.regs.trans h.regs, h'.ports.trans h.ports, h'.wrt.trans h.wrt,
    fun c other => (h'.others c other).trans (h.others c other)⟩

theorem of_eq (regs : s'.regs = s.regs) (ports : s'.ports = s.ports) (wrt : s'.wrt = s.wrt)
    (contexts : s'.contexts = s.contexts) : OnlyContext ctx s s' :=
  ⟨regs, ports, wrt, fun c _ => State.ctx_congr contexts c⟩

theorem foldl {α : Type} {xs : List α} {f : State → α → State} (hf : ∀ s x, x ∈ xs → OnlyContext ctx s (f s x)) :
    OnlyContext ctx s (xs.foldl f s) :=
  List.foldlRecOn (motive := OnlyContext ctx s) xs f refl fun s' h x mem => h.trans (hf s' x mem)

theorem onCtx {f : Context → Context} (keeps : ∀ c, (f c).no = c.no := by intro; rfl) :
    OnlyContext ctx s (s.onCtx ctx f) :=
  ⟨by simp, by simp, by simp, fun _ other => s.ctx_onCtx_other (keeps _) other⟩

theorem last {n : BitVec 4} : OnlyContext ctx s (s.last ctx n) := onCtx

theorem countNoMemory {pa : Nat} : OnlyContext ctx s (s.countNoMemory pa) := by
  unfold State.countNoMemory
  split
  · exact refl
  · exact of_eq rfl rfl rfl rfl

theorem countReads {outs : List (Nat × Xlat)} {va n : Nat} : OnlyContext ctx s (s.countReads outs va n) := by
  refine foldl fun s g _ => ?_
  split
  · exact countNoMemory
  · exact refl

theorem record {ws : List Word} : OnlyContext ctx s (s.record ctx ws) := by
  unfold State.record
  exact onCtx

theorem contextFault {reason : Nat} {code : BitVec 8} {va : DWord} :
    OnlyContext ctx s (s.contextFault ctx die reason code va) := by
  unfold State.contextFault
  dsimp only
  split
  · exact record.trans onCtx
  · exact refl

theorem queueFault {cause queue : Nat} {wr : Bool} {code : BitVec 8} {va : DWord} :
    OnlyContext ctx s (s.queueFault ctx die cause queue wr code va) := record

theorem settlePreempt : OnlyContext ctx s (s.settlePreempt ctx) := by
  unfold State.settlePreempt
  split
  · exact (onCtx).trans (of_eq rfl rfl rfl rfl)
  · exact refl

/-- A change of the teams and the grids first. -/
theorem of_teams {ts : List Team} {gs : List Grid} (h : OnlyContext ctx { s with teams := ts, grids := gs } s') :
    OnlyContext ctx s s' :=
  ⟨h.regs, h.ports, h.wrt, h.others⟩

/-! ### Reads of the front end -/

theorem feRange {rd wr : Bool} {va n : Nat} :
    FeHolds (fun r => OnlyContext ctx s r.1) (s.feRange ctx die rd wr va n) := by
  unfold State.feRange
  dsimp only
  split
  · split
    · exact refl
    · exact refl
  · split
    · exact refl
    · exact refl
    · exact contextFault
    · split
      · exact of_eq rfl rfl rfl rfl
      · trivial
    · exact refl

theorem feRead {va n : Nat} : FeHolds (fun r => OnlyContext ctx s r.1) (s.feRead ctx die va n) := by
  unfold State.feRead
  refine FeHolds.bind feRange ?_
  rintro ⟨s1, r⟩ (h1 : OnlyContext ctx s s1)
  dsimp only
  split
  · exact h1
  · exact h1.trans countReads

theorem fe {r : Fe State} (hr : FeHolds (OnlyContext ctx s) r) : OnlyContextNext ctx s (s.fe r) := by
  unfold State.fe
  split
  · exact refl
  · cases r with
    | ok s' => exact hr
    | error w =>
      dsimp only
      split
      · exact refl
      · exact of_eq rfl rfl rfl rfl

/-! ### The requests -/

theorem command {fn : Nat} {can : Context → Bool} {act : State → State} (ha : ∀ s, OnlyContext ctx s (act s)) :
    OnlyContextNext ctx s (s.command fn ctx can act) := by
  unfold State.command
  split
  · exact refl
  · split
    · exact last.trans (ha _)
    · exact last

theorem execDoorbell {fn q : Nat} {idx : Word} : OnlyContextNext ctx s (execDoorbell fn ctx q idx s) := by
  have setQueue_no (c : Context) (x : Queue) : (c.setQueue x).no = c.no := by
    unfold Context.setQueue
    split <;> rfl
  unfold Machine.execDoorbell
  dsimp only
  split
  · exact refl
  · refine fe (FeHolds.bind feRead ?_)
    rintro ⟨s1, r⟩ (h1 : OnlyContext ctx s s1)
    dsimp only
    split
    · exact h1.trans queueFault
    · split
      · exact h1.trans queueFault
      · split
        · exact h1
        · exact h1.trans (onCtx fun c => setQueue_no c _)

theorem execCdesc {fn : Nat} {pa : DWord} : OnlyContextNext ctx s (execCdesc fn ctx pa s) := by
  unfold Machine.execCdesc
  split
  · exact refl
  · split
    · exact last
    · dsimp only
      split
      · exact countNoMemory.trans last
      · exact countNoMemory.trans onCtx

theorem execDusktb {fn : Nat} {va : DWord} : OnlyContextNext ctx s (execDusktb fn ctx va s) := by
  unfold Machine.execDusktb
  split
  · exact refl
  · split
    · exact last
    · split
      · exact onCtx
      · refine fe (FeHolds.bind feRead ?_)
        rintro ⟨s1, r⟩ (h1 : OnlyContext ctx s s1)
        dsimp only
        split
        · exact h1.trans last
        · split
          · exact h1.trans last
          · exact h1.trans onCtx

theorem resolve {fn act : Nat} {word : DWord} {f : State → Nat → Nat → State} (named : (resolveFields word).2.1 = ctx)
    (hf : ∀ g, OnlyContext ctx s (f s ctx g)) : OnlyContextNext ctx s (s.resolve fn word act f) := by
  unfold State.resolve
  dsimp only
  rw [named]
  split
  · exact refl
  · exact hf _

theorem enterTrap {t : Team} {tr : Trap} {r : Resume} (own : t.ctx = ctx) : OnlyContext ctx s (s.enterTrap t tr r) := by
  unfold State.enterTrap
  split
  · rw [own]
    exact contextFault
  · exact of_eq rfl rfl rfl rfl

theorem failParked {g : Nat} {t : Team} (own : t.ctx = ctx) : OnlyContext ctx s (s.failParked g t) := by
  unfold State.failParked
  cases t.park with
  | none => exact refl
  | some k =>
    dsimp only [Option.elim_some]
    split
    · exact enterTrap own
    · exact of_eq rfl rfl rfl rfl

theorem execResolveFail {fn : Nat} {word : DWord} (named : (resolveFields word).2.1 = ctx) :
    OnlyContextNext ctx s (execResolveFail fn word s) := by
  rw [execResolveFail_eq]
  refine resolve named fun g => ?_
  have failed : OnlyContext ctx s ((s.teams.filter fun t => t.ctx == ctx &&
      t.park.elim false fun k => k.missing.any (·.1 == g)).foldl (State.failParked g) s) := by
    refine foldl fun s t mem => failParked ?_
    have both := (List.mem_filter.mp mem).2
    simp only [Bool.and_eq_true, beq_iff_eq] at both
    exact both.1
  dsimp only
  split
  · exact failed.trans (contextFault.trans (of_eq rfl rfl rfl rfl))
  · exact failed.trans (of_eq rfl rfl rfl rfl)

theorem execRegisterWrite {fn off n v : Nat} (low : 0x100000 ≤ off) (high : off < 0x110000)
    (named : (off - 0x100000) / 64 = ctx) : OnlyContextNext ctx s (execRegisterWrite fn off n v s) := by
  have writeReg_no (c : Context) : (c.writeReg fn (off % 64) n v).no = c.no := by
    unfold Context.writeReg
    repeat' split
    all_goals rfl
  unfold Machine.execRegisterWrite
  rw [if_pos (by simp [low, high])]
  dsimp only
  rw [named]
  split
  · exact onCtx writeReg_no
  · exact refl

/-- Each request of a function changes one context. -/
theorem exec {i : Instr} {fn : Nat} (request : hostRequest fn ctx i = true) : OnlyContextNext ctx s (exec i s) := by
  cases i with
  | doorbell f c q idx =>
    obtain ⟨rfl, rfl⟩ : f = fn ∧ c = ctx := by simpa [hostRequest] using request
    exact execDoorbell
  | cdesc f c pa =>
    obtain ⟨rfl, rfl⟩ : f = fn ∧ c = ctx := by simpa [hostRequest] using request
    exact execCdesc
  | ccmdPreempt f c =>
    obtain ⟨rfl, rfl⟩ : f = fn ∧ c = ctx := by simpa [hostRequest] using request
    simp only [Machine.exec, execCcmdPreempt]
    exact command fun s => of_teams ((onCtx).trans settlePreempt)
  | ccmdResume f c =>
    obtain ⟨rfl, rfl⟩ : f = fn ∧ c = ctx := by simpa [hostRequest] using request
    simp only [Machine.exec, execCcmdResume]
    exact command fun s => of_teams onCtx
  | ccmdReset f c =>
    obtain ⟨rfl, rfl⟩ : f = fn ∧ c = ctx := by simpa [hostRequest] using request
    exact command fun s => contextFault
  | ccmdUnregister f c =>
    obtain ⟨rfl, rfl⟩ : f = fn ∧ c = ctx := by simpa [hostRequest] using request
    simp only [Machine.exec, execCcmdUnregister]
    exact command fun s => onCtx
  | ccmdReserved f c cmd =>
    obtain ⟨rfl, rfl⟩ : f = fn ∧ c = ctx := by simpa [hostRequest] using request
    simp only [Machine.exec, execCcmdReserved]
    split
    · exact last
    · exact refl
  | dusktb f c va =>
    obtain ⟨rfl, rfl⟩ : f = fn ∧ c = ctx := by simpa [hostRequest] using request
    exact execDusktb
  | resolveRetry f w =>
    obtain ⟨rfl, named⟩ : f = fn ∧ (resolveFields w).2.1 = ctx := by simpa [hostRequest] using request
    simp only [Machine.exec, execResolveRetry]
    exact resolve named fun g => of_eq rfl rfl rfl rfl
  | resolveFail f w =>
    obtain ⟨rfl, named⟩ : f = fn ∧ (resolveFields w).2.1 = ctx := by simpa [hostRequest] using request
    exact execResolveFail named
  | resolveRetryAll f w =>
    obtain ⟨rfl, named⟩ : f = fn ∧ (resolveFields w).2.1 = ctx := by simpa [hostRequest] using request
    simp only [Machine.exec, execResolveRetryAll]
    exact resolve named fun g => of_eq rfl rfl rfl rfl
  | registerWrite f off n v =>
    obtain ⟨⟨⟨rfl, low⟩, high⟩, named⟩ :
        ((f = fn ∧ 0x100000 ≤ off) ∧ off < 0x110000) ∧ (off - 0x100000) / 64 = ctx := by
      simpa [hostRequest] using request
    exact execRegisterWrite low high named
  | _ => exact absurd request Bool.false_ne_true

end OnlyContext

/-! ### Contexts that the function does not own -/

section
variable {s : State} {fn ctx : Nat}

theorem State.mayReach_foreign (virtual : fn ≠ 0) (foreign : (s.ctx ctx).cfunc.toNat ≠ fn) :
    s.mayReach fn ctx = false := by
  simp [State.mayReach, virtual, foreign]

/-- A request that its function may not make of the context changes nothing. -/
theorem exec_of_not_mayReach {i : Instr} (request : hostRequest fn ctx i = true) (out : s.mayReach fn ctx = false) :
    exec i s = .next s := by
  have resolve {word : DWord} {act : Nat} {f : State → Nat → Nat → State} (named : (resolveFields word).2.1 = ctx) :
      s.resolve fn word act f = .next s := by
    simp [State.resolve, named, out]
  cases i with
  | doorbell f c _ _ | cdesc f c _ | ccmdPreempt f c | ccmdResume f c | ccmdReset f c | ccmdUnregister f c
  | ccmdReserved f c _ | dusktb f c _ =>
    obtain ⟨rfl, rfl⟩ : f = fn ∧ c = ctx := by simpa [hostRequest] using request
    simp [exec, execDoorbell, execCdesc, execCcmdPreempt, execCcmdResume, execCcmdReset, execCcmdUnregister,
      execCcmdReserved, execDusktb, State.command, out]
  | resolveRetry f w | resolveFail f w | resolveRetryAll f w =>
    obtain ⟨rfl, named⟩ : f = fn ∧ (resolveFields w).2.1 = ctx := by simpa [hostRequest] using request
    simp only [exec, execResolveRetry, Machine.execResolveFail, execResolveRetryAll]
    exact resolve named
  | registerWrite f off n v =>
    obtain ⟨⟨⟨rfl, low⟩, high⟩, rfl⟩ : ((f = fn ∧ 0x100000 ≤ off) ∧ off < 0x110000) ∧ (off - 0x100000) / 64 = ctx := by
      simpa [hostRequest] using request
    simp [exec, execRegisterWrite, low, high, out]
  | _ => exact absurd request Bool.false_ne_true

/-- Outside the context blocks a virtual function writes and reads nothing. -/
theorem virtualFunction_outside {off : Nat} (n v : Nat) (virtual : fn ≠ 0) (outside : off < 0x100000 ∨ 0x110000 ≤ off) :
    exec (.registerWrite fn off n v) s = .next s ∧ s.bar0 fn off n = 0 := by
  have notBlock : ¬ (0x100000 ≤ off ∧ off < 0x110000) := by omega
  simp [exec, execRegisterWrite, State.bar0, notBlock, virtual]

theorem State.bar0_foreign {off : Nat} (n : Nat) (virtual : fn ≠ 0) (low : 0x100000 ≤ off) (high : off < 0x110000)
    (foreign : (s.ctx ((off - 0x100000) / 64)).cfunc.toNat ≠ fn) : s.bar0 fn off n = 0 := by
  simp [State.bar0, low, high, virtual, foreign]

end

/-- Settles O59: each request changes the context that it names alone, and only where its function may reach it. -/
theorem hostFunctionsReachOnlyTheirContexts : Obligations.HostFunctionsReachOnlyTheirContexts := by
  refine ⟨fun i s s' fn ctx virtual request next => ?_, fun s fn off n v virtual outside => virtualFunction_outside n v
    virtual outside, fun s fn off n virtual low high foreign => s.bar0_foreign n virtual low high foreign⟩
  have changed : OnlyContextNext ctx s (exec i s) := OnlyContext.exec request
  rw [next] at changed
  obtain ⟨regs, ports, wrt, others⟩ := changed
  refine ⟨regs, ports, wrt, others, fun foreign => ?_⟩
  rw [exec_of_not_mayReach request (State.mayReach_foreign virtual foreign)] at next
  exact (Host.Outcome.next.inj next).symm

end Sys2Proof.Machine
end

section
/-! Doorbells, grids that start, casts that are placed, and teams that retire (R279 to R297). -/

namespace Sys2Proof.Machine

/-! ### The front end's reads and writes (R362) -/

/-- Outside a switch of the world table an action of the front end that does not wait is its row's outcome. -/
theorem State.fe_ok {s s' : State} {r : Fe State} (steady : s.switching = false) (ok : r = .ok s') :
    s.fe r = .next s' := by
  simp only [State.fe, steady, ok, Bool.false_eq_true, if_false]

/-! ### Doorbells (R280, R281) -/

section
variable {s s1 : State} {fn ctx q : Nat} {idx : Word} {b : List Byte}

theorem execDoorbell_describes (reach : s.mayReach fn ctx = true) (live : (s.ctx ctx).live = true) (known : q < 16)
    (steady : s.switching = false)
    (read : s.feRead ctx (homeDie ctx) ((s.ctx ctx).qtab.toNat + 32 * q) 32 = .ok (s1, .ok b))
    (valid : queueEntryValid b = true) (enabled : (field b 0x10 4).testBit 7 = true) :
    execDoorbell fn ctx q idx s = .next (s1.onCtx ctx fun c =>
      let old := c.queue q
      let n := (idx - old.prod).toNat
      c.setQueue { old.described b with
        prod := idx, items := if n == 0 then old.items else addRing s1.clk (.ring old.prod.toNat n) old.items }) := by
  unfold execDoorbell
  dsimp only
  rw [if_neg (by simp [reach, live, known])]
  refine State.fe_ok steady ?_
  simp only [read, bind, Except.bind, valid, enabled, Bool.not_true, Bool.false_eq_true, if_false]

end

theorem takeWhile_reverse_append {α : Type} {p : α → Bool} {xs ys : List α} (none' : ∀ x ∈ xs, p x = false)
    (all' : ∀ y ∈ ys, p y = true) : (xs ++ ys).reverse.takeWhile p = ys.reverse := by
  have stops : xs.reverse.takeWhile p = [] := by
    rw [List.takeWhile_eq_nil_iff]
    intro some' first
    exact Bool.false_ne_true ((none' _ (List.mem_reverse.mp (List.getElem_mem _))).symm.trans first)
  rw [List.reverse_append, List.takeWhile_append_of_pos fun y mem => all' y (List.mem_reverse.mp mem), stops,
    List.append_nil]

/-- New ring entries go before the list entries of the same clock. -/
theorem addRing_append {clk : Nat} {x : QueueItem} {before lists : List QueueItem}
    (earlier : ∀ gd k, .list gd k ∈ before → k < clk) (now : ∀ i ∈ lists, ∃ gd, i = .list gd clk) :
    addRing clk x (before ++ lists) = before ++ x :: lists := by
  unfold addRing
  rw [takeWhile_reverse_append]
  · simp
  · intro i mem
    cases i with
    | ring e n => rfl
    | list gd k => exact beq_false_of_ne (Nat.ne_of_lt (earlier gd k mem))
  · intro i mem
    obtain ⟨gd, rfl⟩ := now i mem
    exact beq_self_eq_true clk

/-! ### Grids that start (R284, R285) -/

theorem State.startOffer_joins {s s5 : State} {src : GridSource} {o : Offer} {b args crec prec : List Byte}
    {nteam : Nat}
    (startable : Startable s src o b nteam args crec prec s5) :
    s.startOffer src o = .ok (s5.addGrid src o b nteam args crec prec) := by
  obtain ⟨s1, s2, s3, s4, desc, state, readArgs, readCrec, readPrec, rfl, allowed⟩ := startable
  unfold State.startOffer
  by_cases none' : (GridDesc.ofBytes b).statva = 0
  · rw [if_pos none'] at state
    subst state
    simp only [desc, readArgs, readCrec, readPrec, bind, Except.bind, none', beq_self_eq_true, if_true, allowed]
  · rw [if_neg none'] at state
    simp only [desc, state, readArgs, readCrec, readPrec, bind, Except.bind, beq_false_of_ne none', Bool.false_eq_true,
      if_false, allowed]

section
variable {s s0 s5 : State} {o : Offer} {b args crec prec : List Byte} {ctx q die j nteam : Nat}

theorem State.switching_of_starts (starts : s.starts ctx = true) : s.switching = false := by
  simp only [State.starts, Bool.and_eq_true, Bool.not_eq_true'] at starts
  exact starts.2

theorem execGridStart_queue (starts : s.starts ctx = true) (taken : s.takeQueue ctx q = .ok (s0, some o))
    (startable : Startable s0 (.queue ctx q) o b nteam args crec prec s5) :
    execGridStart (.queue ctx q) s = .next (s5.addGrid (.queue ctx q) o b nteam args crec prec) := by
  refine State.fe_ok (State.switching_of_starts starts) ?_
  simp only [starts, taken, bind, Except.bind, Bool.not_true, Bool.false_eq_true, if_false]
  exact State.startOffer_joins startable

theorem execGridStart_task (taken : s.takeTask die j = some o) (starts : s.starts o.ctx = true)
    (startable : Startable s (.task die j) o b nteam args crec prec s5) :
    execGridStart (.task die j) s = .next (s5.addGrid (.task die j) o b nteam args crec prec) := by
  refine State.fe_ok (State.switching_of_starts starts) ?_
  simp only [starts, taken, if_true]
  exact State.startOffer_joins startable

theorem execGridStart_batch (taken : s.takeBatch die q = (s0, some o)) (starts : s.starts o.ctx = true)
    (startable : Startable s0 (.batch die q) o b nteam args crec prec s5) :
    execGridStart (.batch die q) s = .next (s5.addGrid (.batch die q) o b nteam args crec prec) := by
  refine State.fe_ok (State.switching_of_starts starts) ?_
  simp only [starts, taken, if_true]
  exact State.startOffer_joins startable

end

/-! ### Casts (R289, R291) -/

section
variable {s s1 : State} {g core : Nat} {gr : Grid}

theorem execCastPlace_places (grid : s.grid? g = some gr) (placed : s.tryPlace gr core = some s1)
    (first : ∀ d ∈ s.placedOn s1, s.yields d gr = false) :
    execCastPlace g core s = .next ((s1.turnFronts gr (s.placedOn s1)).onGrid g fun x =>
      if x.toPlace == 0 then { x with holding := false, headAt := none } else x) := by
  have none' : (s.placedOn s1).any (fun d => s.yields d gr) = false := by simpa using first
  simp only [execCastPlace, grid, placed, none', Bool.false_eq_true, if_false]

/-- A ready grid of a higher priority, from no task queue, goes first on its die (R289). -/
theorem State.yields_of_priority {d : Nat} {h : Grid} (mem : h ∈ s.grids) (other : h.id ≠ gr.id)
    (ready : s.readyOn d h = true) (noTask : isTaskSource h.source = false) (higher : gr.pri < h.pri) :
    s.yields d gr = true := by
  have among : h ∈ s.grids.filter fun x => x.id != gr.id := List.mem_filter.mpr ⟨mem, bne_iff_ne.mpr other⟩
  unfold State.yields
  simp only [Bool.or_eq_true, List.any_eq_true]
  refine .inr ⟨h, among, ?_⟩
  simp [noTask, ready, FrontEnd.precedes, higher]

theorem execCastPlace_yields {d : Nat} {h : Grid} (grid : s.grid? g = some gr) (placed : s.tryPlace gr core = some s1)
    (there : ∃ c ∈ s1.casts.drop s.casts.length, coreDie c.core = d) (mem : h ∈ s.grids) (other : h.id ≠ gr.id)
    (ready : s.readyOn d h = true) (noTask : isTaskSource h.source = false) (higher : gr.pri < h.pri) :
    execCastPlace g core s = .next s := by
  obtain ⟨c, new, rfl⟩ := there
  have named : coreDie c.core ∈ s.placedOn s1 :=
    List.mem_eraseDups.mpr (List.mem_map.mpr ⟨c, new, rfl⟩)
  have waits : (s.placedOn s1).any (fun d => s.yields d gr) = true :=
    List.any_eq_true.mpr ⟨_, named, State.yields_of_priority mem other ready noTask higher⟩
  simp only [execCastPlace, grid, placed, waits, if_true]

theorem execCoresidentHold_holds {h : Nat} (grid : s.grid? g = some gr) (coresident : gr.d.cores = true)
    (waits : gr.toPlace ≠ 0) (starts : s.starts gr.ctx = true) (since : gr.headAt = some h)
    (long : h + 2 ^ 20 ≤ s.clk) :
    execCoresidentHold g s = .next (s.onGrid g fun x => { x with holding := true }) := by
  unfold execCoresidentHold
  rw [grid]
  dsimp only
  rw [coresident, bne_iff_ne.mpr waits, starts, since, Option.elim_some, decide_eq_true long, Bool.and_self,
    Bool.and_self, Bool.and_self, if_pos rfl]

end

/-! ### Teams that retire (R296, R297) -/

section
variable {s s1 s2 : State} {t : Nat} {tm : Team} {g : Grid}

/-- The state after an ended quiet team has left its cast and its grid. -/
def State.afterTeam (s : State) (tm : Team) : State :=
  ((s.release tm .dev).dropTeam tm).onGrid tm.grid fun g => { g with unretired := g.unretired - 1 }

theorem execTeamRetire_eq (team : s.team? t = some tm) (ended : tm.ended = true) (alive : s.alive tm.ctx = true)
    (quiet : s.quiet tm = true) (steady : s.switching = false) (grid : (s.afterTeam tm).grid? tm.grid = some g)
    (left : (if g.unretired == 0 then (s.afterTeam tm).completeGrid g else .ok (s.afterTeam tm)) = .ok s2) :
    execTeamRetire t s = .next (s2.settlePreempt tm.ctx) := by
  unfold State.afterTeam at grid left
  simp only [execTeamRetire, team, ended, alive, quiet, Bool.not_true, Bool.or_self, Bool.false_eq_true, if_false,
    grid, left]
  exact State.fe_ok steady rfl

theorem execTeamRetire_leaves (team : s.team? t = some tm) (ended : tm.ended = true) (alive : s.alive tm.ctx = true)
    (quiet : s.quiet tm = true) (steady : s.switching = false) (grid : (s.afterTeam tm).grid? tm.grid = some g)
    (more : g.unretired ≠ 0) : execTeamRetire t s = .next ((s.afterTeam tm).settlePreempt tm.ctx) :=
  execTeamRetire_eq team ended alive quiet steady grid (if_neg (mt eq_of_beq more))

theorem execTeamRetire_completes (team : s.team? t = some tm) (ended : tm.ended = true) (alive : s.alive tm.ctx = true)
    (quiet : s.quiet tm = true) (steady : s.switching = false) (grid : (s.afterTeam tm).grid? tm.grid = some g)
    (last : g.unretired = 0) (done : (s.afterTeam tm).completeGrid g = .ok s2) :
    execTeamRetire t s = .next (s2.settlePreempt tm.ctx) :=
  execTeamRetire_eq team ended alive quiet steady grid ((if_pos (beq_iff_eq.mpr last)).trans done)

end

/-- Settles O28: each clause singles out one branch of its row, which the lemma named after it takes. -/
theorem queuesGridsAndCastsComplete : Obligations.QueuesGridsAndCastsComplete :=
  ⟨fun _ _ _ _ _ _ _ reach live known steady read valid enabled =>
      execDoorbell_describes reach live known steady read valid enabled,
    fun _ _ _ _ earlier now => addRing_append earlier now,
    fun _ _ _ _ _ _ _ _ _ _ _ starts taken startable => execGridStart_queue starts taken startable,
    fun _ _ _ _ _ _ _ _ _ _ taken starts startable => execGridStart_task taken starts startable,
    fun _ _ _ _ _ _ _ _ _ _ _ taken starts startable => execGridStart_batch taken starts startable,
    fun _ _ _ _ _ grid placed first => execCastPlace_places grid placed first,
    fun _ _ _ _ _ _ _ grid placed there mem other ready noTask higher =>
      execCastPlace_yields grid placed there mem other ready noTask higher,
    fun _ _ _ _ grid coresident waits starts since long =>
      execCoresidentHold_holds grid coresident waits starts since long,
    fun _ _ _ _ team ended alive quiet steady grid more =>
      execTeamRetire_leaves team ended alive quiet steady grid more,
    fun _ _ _ _ _ team ended alive quiet steady grid last done =>
      execTeamRetire_completes team ended alive quiet steady grid last done⟩

end Sys2Proof.Machine
end

section
/-! Contexts and their commands, storage tables, the reset of a context, and token queues (R275 to R305, R350). -/

namespace Sys2Proof.Machine

/-! ### Context descriptors (R276) -/

section
variable {s : State} {fn ctx : Nat} {pa : DWord}

theorem State.worldRefused_congr {s s' : State} (wrt : s'.wrt = s.wrt) (contexts : s'.contexts = s.contexts)
    (b : List Byte) : s'.worldRefused b = s.worldRefused b := by
  simp only [State.worldRefused, wrt, contexts]

theorem State.countNoMemory_keeps (s : State) (pa : Nat) : (s.countNoMemory pa).poison = s.poison ∧
    (s.countNoMemory pa).wrt = s.wrt ∧ (s.countNoMemory pa).contexts = s.contexts := by
  unfold State.countNoMemory
  split <;> exact ⟨rfl, rfl, rfl⟩

@[simp] theorem State.physBad_countNoMemory (s : State) (pa a n : Nat) :
    (s.countNoMemory pa).physBad a n = s.physBad a n := by
  simp only [State.physBad, (s.countNoMemory_keeps pa).1]

@[simp] theorem State.worldRefused_countNoMemory (s : State) (pa : Nat) (b : List Byte) :
    (s.countNoMemory pa).worldRefused b = s.worldRefused b := by
  obtain ⟨-, wrt, contexts⟩ := s.countNoMemory_keeps pa
  exact State.worldRefused_congr wrt contexts b

/-- CDESC on a free number, while no checkpoint is loaded, looks at the descriptor alone. -/
theorem execCdesc_free (reach : s.mayReach fn ctx = true) (free : (s.ctx ctx).state = .free)
    (loads : s.ck ≠ some .load) : execCdesc fn ctx pa s =
      let b := s.physRead pa.toNat 64
      if pa.toNat % 64 != 0 || s.physBad pa.toNat 64 || contextBad b || s.worldRefused b then
        .next ((s.countNoMemory pa.toNat).last ctx 1)
      else .next ((s.countNoMemory pa.toNat).onCtx ctx (·.described b)) := by
  simp only [execCdesc, reach, free, beq_false_of_ne loads, bne_self_eq_false, Bool.not_true, Bool.or_self,
    Bool.false_eq_true, if_false, State.physBad_countNoMemory, State.worldRefused_countNoMemory]

theorem execCdesc_registers (reach : s.mayReach fn ctx = true) (free : (s.ctx ctx).state = .free)
    (loads : s.ck ≠ some .load) (aligned : pa.toNat % 64 = 0) (readable : s.physBad pa.toNat 64 = false)
    (good : contextBad (s.physRead pa.toNat 64) = false) (admitted : s.worldRefused (s.physRead pa.toNat 64) = false) :
    execCdesc fn ctx pa s = .next ((s.countNoMemory pa.toNat).onCtx ctx (·.described (s.physRead pa.toNat 64))) := by
  rw [execCdesc_free reach free loads]
  simp only [aligned, readable, good, admitted, bne_self_eq_false, Bool.or_self, Bool.false_eq_true, if_false]

theorem execCdesc_taken (reach : s.mayReach fn ctx = true) (taken : (s.ctx ctx).state ≠ .free) :
    execCdesc fn ctx pa s = .next (s.last ctx 3) := by
  simp only [execCdesc, reach, bne_iff_ne.mpr taken, Bool.not_true, Bool.true_or, Bool.false_eq_true, if_false, if_true]

theorem execCdesc_refuses (reach : s.mayReach fn ctx = true) (free : (s.ctx ctx).state = .free)
    (loads : s.ck ≠ some .load) (bad : pa.toNat % 64 ≠ 0 ∨ s.physBad pa.toNat 64 = true ∨
      contextBad (s.physRead pa.toNat 64) = true ∨ s.worldRefused (s.physRead pa.toNat 64) = true) :
    execCdesc fn ctx pa s = .next ((s.countNoMemory pa.toNat).last ctx 1) := by
  have refused : (pa.toNat % 64 != 0 || s.physBad pa.toNat 64 || contextBad (s.physRead pa.toNat 64)
      || s.worldRefused (s.physRead pa.toNat 64)) = true := by
    simpa only [Bool.or_eq_true, bne_iff_ne, or_assoc] using bad
  rw [execCdesc_free reach free loads]
  exact if_pos refused

end

/-! ### Commands (R276, R300, R301) -/

section
variable {s : State} {fn ctx : Nat} {can : Context → Bool} {act : State → State}

/-- A command that the context's state takes leaves 0 in LAST and acts. -/
theorem State.command_accepted (accepts : Accepts s fn ctx can) :
    s.command fn ctx can act = .next (act (s.last ctx 0)) := by
  obtain ⟨reach, can⟩ := accepts
  simp only [State.command, reach, can, Bool.not_true, Bool.false_eq_true, if_false, if_true]

theorem State.command_refused (reach : s.mayReach fn ctx = true) (cannot : can (s.ctx ctx) = false) :
    s.command fn ctx can act = .next (s.last ctx 3) := by
  simp only [State.command, reach, cannot, Bool.not_true, Bool.false_eq_true, if_false]

theorem execCcmdPreempt_accepted (accepts : Accepts s fn ctx (·.state == .registered)) : execCcmdPreempt fn ctx s =
    .next ((({ s.last ctx 0 with
      teams := s.teams.map fun t => if t.ctx == ctx then { t with preempt := true } else t } : State).onCtx ctx
        fun c => { c with state := .preempting }).settlePreempt ctx) := by
  refine (State.command_accepted accepts).trans ?_
  simp only [replaceIf, State.last, State.onCtx_teams]

theorem execCcmdResume_accepted (accepts : Accepts s fn ctx (·.state == .preempted)) : execCcmdResume fn ctx s =
    .next (({ s.last ctx 0 with grids := s.grids.map fun g =>
      if g.ctx == ctx && !g.saved.isEmpty then { g with headAt := some s.clk } else g } : State).onCtx ctx fun c =>
        { c with state := .registered }) := by
  refine (State.command_accepted accepts).trans ?_
  simp only [replaceIf, State.last, State.onCtx_grids, State.onCtx_clk]

theorem execCcmdReset_accepted (accepts : Accepts s fn ctx Context.live) :
    execCcmdReset fn ctx s = .next ((s.last ctx 0).contextFault ctx (homeDie ctx) 6 0 0) :=
  State.command_accepted accepts

theorem execCcmdUnregister_accepted (accepts : Accepts s fn ctx (fun c =>
      c.state == .reset || (c.state == .registered && !s.grids.any (·.ctx == ctx)))) :
    execCcmdUnregister fn ctx s = .next ((s.last ctx 0).onCtx ctx Context.unregistered) :=
  State.command_accepted accepts

theorem execCcmdReserved_refused {cmd : BitVec 3} (reach : s.mayReach fn ctx = true) (reserved : 5 ≤ cmd.toNat) :
    execCcmdReserved fn ctx cmd s = .next (s.last ctx 3) := by
  simp only [execCcmdReserved, reach, reserved, decide_true, Bool.and_self, if_true]

theorem execCcmdPreempt_refused (reach : s.mayReach fn ctx = true) (other : (s.ctx ctx).state ≠ .registered) :
    execCcmdPreempt fn ctx s = .next (s.last ctx 3) :=
  State.command_refused reach (beq_false_of_ne other)

theorem execCcmdResume_refused (reach : s.mayReach fn ctx = true) (other : (s.ctx ctx).state ≠ .preempted) :
    execCcmdResume fn ctx s = .next (s.last ctx 3) :=
  State.command_refused reach (beq_false_of_ne other)

theorem Context.live_eq_false {c : Context} (idle : c.state ∈ [CtxState.free, .resetting, .reset]) :
    c.live = false := by
  simp only [List.mem_cons, List.not_mem_nil, or_false] at idle
  unfold Context.live
  obtain state | state | state := idle <;> rw [state] <;> decide

theorem execCcmdReset_refused (reach : s.mayReach fn ctx = true)
    (idle : (s.ctx ctx).state ∈ [CtxState.free, .resetting, .reset]) : execCcmdReset fn ctx s = .next (s.last ctx 3) :=
  State.command_refused reach (Context.live_eq_false idle)

theorem execCcmdUnregister_refused (reach : s.mayReach fn ctx = true) (other : (s.ctx ctx).state ≠ .reset)
    (busy : (s.ctx ctx).state ≠ .registered ∨ s.grids.any (·.ctx == ctx) = true) :
    execCcmdUnregister fn ctx s = .next (s.last ctx 3) := by
  refine State.command_refused reach ?_
  obtain state | grid := busy
  · simp only [beq_false_of_ne other, beq_false_of_ne state, Bool.false_and, Bool.or_self]
  · simp only [beq_false_of_ne other, grid, Bool.not_true, Bool.and_false, Bool.or_self]

end

/-! ### Storage tables (R305) -/

section
variable {s s1 : State} {fn ctx : Nat} {va : DWord} {b : List Byte}

theorem execDusktb_unbinds (reach : s.mayReach fn ctx = true) (live : (s.ctx ctx).live = true) :
    execDusktb fn ctx 0 s = .next (s.onCtx ctx fun c => { c with
      last := 0, dusktb := 0, table := 0, header := [], bgAt := none, binds := c.binds + 1 }) := by
  simp only [execDusktb, reach, live, Bool.not_true, Bool.false_eq_true, if_false, beq_self_eq_true, if_true]

theorem execDusktb_binds (reach : s.mayReach fn ctx = true) (live : (s.ctx ctx).live = true) (named : va ≠ 0)
    (aligned : va.toNat % 256 = 0) (steady : s.switching = false)
    (read : s.feRead ctx (homeDie ctx) va.toNat 64 = .ok (s1, .ok b)) (good : headerBad b = false) :
    execDusktb fn ctx va s = .next (s1.onCtx ctx fun c => { c with
      last := 0, dusktb := va, table := va, header := b, binds := c.binds + 1
      bgAt := (headerPeriod b).map fun p => s1.ns + 1000 * p }) := by
  simp only [execDusktb, reach, live, beq_false_of_ne named, Bool.not_true, Bool.false_eq_true, if_false]
  refine State.fe_ok steady ?_
  simp only [read, bind, Except.bind, aligned, good, bne_self_eq_false, Bool.or_self, Bool.false_eq_true, if_false]

theorem execDusktb_refused (reach : s.mayReach fn ctx = true) (dead : (s.ctx ctx).live = false) :
    execDusktb fn ctx va s = .next (s.last ctx 3) := by
  simp only [execDusktb, reach, dead, Bool.not_true, Bool.not_false, Bool.false_eq_true, if_false, if_true]

end

/-! ### The reset of a context (R301) -/

section
variable {s : State} {ctx : Nat}

theorem execContextReset_resetting (resetting : (s.ctx ctx).state = .resetting) (runs : s.frozen = false) :
    execContextReset ctx s = .next (if (s.finishSteps ctx).stepsWait ctx then s.finishSteps ctx
      else (s.finishSteps ctx).resetContext ctx) := by
  simp only [execContextReset, resetting, runs, bne_self_eq_false, Bool.or_self, Bool.false_eq_true, if_false]

theorem execContextReset_resets (resetting : (s.ctx ctx).state = .resetting) (runs : s.frozen = false)
    (ended : (s.finishSteps ctx).stepsWait ctx = false) :
    execContextReset ctx s = .next ((s.finishSteps ctx).resetContext ctx) := by
  rw [execContextReset_resetting resetting runs, ended, if_neg Bool.false_ne_true]

theorem execContextReset_waits (resetting : (s.ctx ctx).state = .resetting) (runs : s.frozen = false)
    (waits : (s.finishSteps ctx).stepsWait ctx = true) : execContextReset ctx s = .next (s.finishSteps ctx) := by
  rw [execContextReset_resetting resetting runs, waits, if_pos rfl]

end

/-! ### Token queues (R287, R288) -/

section
variable {s : State} {die q : Nat} {record : List Byte} {queue : TokenQueue}

/-- A record written for one of a die's 64 token queues stands in its window, and unbinds the queue or binds it. -/
theorem execTokenQueueBind_known (known : die < 4) (among : q < 64) (size : record.length = 32)
    (up : s.pfReady = true) :
    execTokenQueueBind die q record s =
      let s1 := s.window (0x030000 + 2048 * die + 32 * q) record
      if bitsOf (field record 0x10 4) 9 0 == 0x3FF then .next (s1.unbind die q)
      else (boundQueue die q record).elim (.next s1) fun queue =>
        .next { s1.unbind die q with tokens := (s1.unbind die q).tokens ++ [queue] } := by
  simp only [execTokenQueueBind, Nat.not_le.mpr known, Nat.not_le.mpr among, size, up, decide_false, bne_self_eq_false,
    Bool.not_true, Bool.or_self, Bool.false_eq_true, if_false]
  cases boundQueue die q record with
  | none => rfl
  | some queue => rfl

theorem execTokenQueueBind_binds (known : die < 4) (among : q < 64) (size : record.length = 32) (up : s.pfReady = true)
    (named : bitsOf (field record 0x10 4) 9 0 ≠ 0x3FF) (valid : boundQueue die q record = some queue) :
    let s1 := (s.window (0x030000 + 2048 * die + 32 * q) record).unbind die q
    execTokenQueueBind die q record s = .next { s1 with tokens := s1.tokens ++ [queue] } := by
  rw [execTokenQueueBind_known known among size up, beq_false_of_ne named, valid]
  exact if_neg Bool.false_ne_true

theorem execTokenQueueBind_unbinds (known : die < 4) (among : q < 64) (size : record.length = 32)
    (up : s.pfReady = true) (unbound : bitsOf (field record 0x10 4) 9 0 = 0x3FF) : execTokenQueueBind die q record s =
      .next ((s.window (0x030000 + 2048 * die + 32 * q) record).unbind die q) := by
  rw [execTokenQueueBind_known known among size up]
  exact if_pos (beq_iff_eq.mpr unbound)

theorem execTokenQueueTimer_running (runs : s.stopped = false) :
    execTokenQueueTimer die q s = .next (s.onTokens die q fun t =>
      if t.timer.elim false fun x => decide (x ≤ s.ns) then TokenQueue.trigger t s.ns else t) := by
  simp only [execTokenQueueTimer, runs, Bool.false_eq_true, if_false]

end

/-- Settles O29: each clause singles out one branch of its row, which the lemma named after it takes. -/
theorem contextsAndTokenQueuesComplete : Obligations.ContextsAndTokenQueuesComplete :=
  ⟨fun _ _ _ _ reach free loads aligned readable good admitted =>
      execCdesc_registers reach free loads aligned readable good admitted,
    fun _ _ _ _ reach taken => execCdesc_taken reach taken,
    fun _ _ _ _ reach free loads bad => execCdesc_refuses reach free loads bad,
    fun _ _ _ accepts => execCcmdPreempt_accepted accepts,
    fun _ _ _ accepts => execCcmdResume_accepted accepts,
    fun _ _ _ accepts => execCcmdReset_accepted accepts,
    fun _ _ _ accepts => execCcmdUnregister_accepted accepts,
    fun _ _ _ _ reach reserved => execCcmdReserved_refused reach reserved,
    fun _ _ _ reach other => execCcmdPreempt_refused reach other,
    fun _ _ _ reach other => execCcmdResume_refused reach other,
    fun _ _ _ reach idle => execCcmdReset_refused reach idle,
    fun _ _ _ reach other busy => execCcmdUnregister_refused reach other busy,
    fun _ _ _ reach live => execDusktb_unbinds reach live,
    fun _ _ _ _ _ _ reach live named aligned steady read good =>
      execDusktb_binds reach live named aligned steady read good,
    fun _ _ _ _ reach dead => execDusktb_refused reach dead,
    fun _ _ resetting runs ended => execContextReset_resets resetting runs ended,
    fun _ _ resetting runs waits => execContextReset_waits resetting runs waits,
    fun _ _ => ⟨rfl, rfl, rfl, rfl, rfl, rfl, rfl⟩,
    fun _ _ _ _ _ known among size up named valid => execTokenQueueBind_binds known among size up named valid,
    fun _ _ _ _ known among size up unbound => execTokenQueueBind_unbinds known among size up unbound,
    fun _ _ _ runs => execTokenQueueTimer_running runs⟩

end Sys2Proof.Machine
end

section
/-! Checkpoints, power modes, thermal events, the patrol scrub and the loss of rails (R303, R338 to R342, R360). -/

namespace Sys2Proof.Machine

/-! ### Checkpoints (R338 to R340) -/

section
variable {s : State}

theorem State.trigger_checkpoints (idle : s.ck = none) (enabled : s.regs.cken = true) (rails : s.mainOn = true) :
    s.trigger =
      { s with ck := some .checkpoint, stopped := true, regs := { s.regs with ckstat := ckStatus 1 1 0 } } := by
  simp only [State.trigger, idle, enabled, rails, Option.isSome_none, Bool.not_true, Bool.or_self, Bool.false_eq_true,
    if_false]

theorem execCkctlCheckpoint_checkpoints (up : s.pfReady = true) (idle : s.ck = none) (enabled : s.regs.cken = true)
    (rails : s.mainOn = true) : execCkctlCheckpoint s =
      .next { s with ck := some .checkpoint, stopped := true, regs := { s.regs with ckstat := ckStatus 1 1 0 } } := by
  simp only [execCkctlCheckpoint, up, if_true, State.trigger_checkpoints idle enabled rails]

theorem execPfail_checkpoints (idle : s.ck = none) (enabled : s.regs.cken = true) (rails : s.mainOn = true) :
    execPfail s =
      .next { s with ck := some .checkpoint, stopped := true, regs := { s.regs with ckstat := ckStatus 1 1 0 } } := by
  simp only [execPfail, State.trigger_checkpoints idle enabled rails]

theorem execCkctlLoad_loads (up : s.pfReady = true) (idle : s.ck = none)
    (free : s.contexts.all (·.state == .free) = true) : execCkctlLoad s =
      .next { s with ck := some .load, regs := { s.regs with ckstat := ckStatus 1 2 0 } } := by
  have unused : s.contexts.any (·.state != .free) = false := by
    simpa only [List.any_eq_false, List.all_eq_true, bne_iff_ne, beq_iff_eq, not_not] using free
  simp only [execCkctlLoad, up, idle, unused, Option.isSome_none, Bool.not_true, Bool.or_self, Bool.false_eq_true,
    if_false]

theorem execCkctlClear_clears (up : s.pfReady = true) :
    execCkctlClear s = .next { s with regs := { s.regs with ckstat := 0 } } := by
  simp only [execCkctlClear, up, if_true]

theorem execCheckpointComplete_waits {w : Sweep} (among : w ∈ s.sweeps)
    (stepping : w.step.isSome = true) (runs : s.sweepRuns w = true) : execCheckpointComplete s = .next s := by
  have anyRuns : s.sweeps.any (fun w => w.step.isSome && s.sweepRuns w) = true :=
    List.any_eq_true.mpr ⟨w, among, by rw [stepping, runs, Bool.and_self]⟩
  simp only [execCheckpointComplete, anyRuns, Bool.or_true, if_true]

/-- The image stands in the upper half of LPDDR6. -/
theorem imageEnd : imageBase + 2 ^ 39 = 0x20000000000 := by
  norm_num [imageBase]

theorem execCheckpointComplete_copies (under : s.ck = some .checkpoint)
    (ended : ∀ w ∈ s.sweeps, w.step.isSome = true → s.sweepRuns w = false) :
    let s1 := s.cleanAll
    let bad := s1.badGranules 0 (2 ^ 39)
    execCheckpointComplete s = .next (({ s1 with
      mem := s1.mem.filter (fun c => decide (c.1 < 0x18000000000)) ++ copyCells s1.mem 0 (2 ^ 39) 0x18000000000 bad
      poison := s1.poison.filter fun b => decide (32 * b < 0x18000000000)
      regs := { s1.regs with ckseq := s1.regs.ckseq + 1 } } : State).ckDone 1 bad.length) := by
  have noneRuns : s.sweeps.any (fun w => w.step.isSome && s.sweepRuns w) = false := by
    simpa only [List.any_eq_false, Bool.and_eq_true, not_and, Bool.not_eq_true] using ended
  unfold execCheckpointComplete
  rw [under, noneRuns]
  exact if_neg Bool.false_ne_true

theorem execCheckpointLoadComplete_copies (loading : s.ck = some .load) :
    let bad := s.badGranules 0x18000000000 0x20000000000
    execCheckpointLoadComplete s = .next (({ s with
      mem := copyCells s.mem 0x18000000000 0x20000000000 0 bad ++ s.mem.filter (fun c => decide (2 ^ 39 ≤ c.1))
      poison := s.poison.filter fun b => decide (2 ^ 39 ≤ 32 * b) } : State).ckDone 2 bad.length) := by
  unfold execCheckpointLoadComplete
  rw [loading, imageEnd]
  exact if_neg Bool.false_ne_true

end

/-! ### Power modes and settings (R341, R342, R303) -/

section
variable {s : State}

theorem execPmode_taken {value : Word} (up : s.pfReady = true) : execPmode value s = .next (
    if value.toNat % 8 < 5 then { s with regs := { s.regs with pmode := value.setWidth 3 } } else s) := by
  have low : (value.setWidth 3).toNat = value.toNat % 8 := BitVec.toNat_setWidth 3 value
  simp only [execPmode, up, if_true, State.setPmode, low]
  by_cases taken : value.toNat % 8 < 5
  · rw [if_pos taken, if_neg (Nat.not_le.mpr taken)]
  · rw [if_neg taken, if_pos (Nat.not_lt.mp taken)]

theorem execPowerModeChange_changes (asked : s.regs.pmode ≠ s.regs.pmodeOn) (quiet : s.accessOpen = false) :
    execPowerModeChange s = .next
      (({ s with regs := { s.regs with pmodeOn := s.regs.pmode, mhz := modeClock s.regs.pmode } } : State).emit
        (.msix 0 0)) := by
  simp only [execPowerModeChange, beq_false_of_ne asked, quiet, Bool.or_self, Bool.false_eq_true, if_false]

theorem execPowerModeChange_waits (waits : s.accessOpen = true) : execPowerModeChange s = .next s := by
  simp only [execPowerModeChange, waits, Bool.or_true, if_true]

theorem execWheelSettingChange_waits (waits : s.accessOpen = true) : execWheelSettingChange s = .next s := by
  simp only [execWheelSettingChange, waits, if_true]

theorem execWheelSettingChange_changes (quiet : s.accessOpen = false) : execWheelSettingChange s =
    .next { s with regs := { s.regs with wctlOn := s.regs.wctl, slotmapOn := s.regs.slotmap } } := by
  simp only [execWheelSettingChange, quiet, Bool.false_eq_true, if_false]

theorem execClockThrottle_balanced {down : Bool} (balanced : s.regs.pmodeOn = 0) :
    execClockThrottle down s = .next { s with
      regs := { s.regs with mhz := if down then max 800 (s.regs.mhz - 25) else min 1200 (s.regs.mhz + 25) } } := by
  simp only [execClockThrottle, balanced, bne_self_eq_false, Bool.false_eq_true, if_false]

theorem execThermtrip_eq : execThermtrip s = .next (
    if s.regs.pmodeOn = 0 then { s with regs := { s.regs with mhz := max 800 (s.regs.mhz - 25) } }
    else ({ s with stopped := true } : State).emit .inBand) := by
  by_cases balanced : s.regs.pmodeOn = 0
  · rw [if_pos balanced]
    exact if_pos (beq_iff_eq.mpr balanced)
  · rw [if_neg balanced]
    exact if_neg (mt eq_of_beq balanced)

end

/-! ### The patrol scrub (R361) -/

section
variable {s : State} {line : Nat} {err : Bool}

theorem hasMemory_iff {pa : Nat} : hasMemory pa = true ↔ pa < 2 ^ 39 ∨ (2 ^ 40 ≤ pa ∧ pa < 2 ^ 41) := by
  simp only [hasMemory, Bool.or_eq_true, Bool.and_eq_true, decide_eq_true_eq]
  norm_num

theorem execPatrolScrub_counts (there : 128 * line < 2 ^ 39 ∨ (2 ^ 40 ≤ 128 * line ∧ 128 * line < 2 ^ 41))
    (rails : s.mainOn = true) :
    let n := ((List.range 4).filter fun k => s.poison.contains (4 * line + k)).length
    execPatrolScrub line err s = .next { s with tele := { s.tele with
      correctable := s.tele.correctable + (if err = true ∧ n ≠ 4 then 1 else 0)
      uncorrectable := s.tele.uncorrectable + n } } := by
  have counted (n : Nat) : (err && n != 4).toNat = if err = true ∧ n ≠ 4 then 1 else 0 := by
    simp only [Bool.toNat, Bool.cond_eq_ite, Bool.and_eq_true, bne_iff_ne]
  simp only [execPatrolScrub, hasMemory_iff.mpr there, rails, Bool.not_true, Bool.or_self, Bool.false_eq_true, if_false,
    counted, State.badBursts]

theorem execPatrolScrub_passes
    (off : s.mainOn = false ∨ (2 ^ 39 ≤ 128 * line ∧ 128 * line < 2 ^ 40) ∨ 2 ^ 41 ≤ 128 * line) :
    execPatrolScrub line err s = .next s := by
  have unread : hasMemory (128 * line) = false ∨ s.mainOn = false := by
    obtain off | hole := off
    · exact .inr off
    · refine .inl (Bool.eq_false_iff.mpr fun there => ?_)
      have there := hasMemory_iff.mp there
      omega
  unfold execPatrolScrub
  refine if_pos ?_
  obtain there | rails := unread
  · rw [there, Bool.not_false, Bool.true_or]
  · rw [rails, Bool.not_false, Bool.or_true]

end

/-! ### The loss of rails (R340) -/

section
variable {s : State}

theorem execMainRailFailure_retained (retained : s.retvOn = true) : execMainRailFailure s =
    let s1 := s.cleared (2 ^ 40)
    .next { s1 with
      regs := { s1.regs with
        ckstat := if s.regs.ckstat.toNat / 2 ^ 30 % 4 = 1 then s.regs.ckstat ||| 0xC0000000#32 else s.regs.ckstat
        ckseq := s.regs.ckseq }
      stopped := true, mainOn := false } := by
  simp only [execMainRailFailure, retained, if_true, lpddrBase, bitsOf, beq_iff_eq]
  rfl

end

/-- Settles O33: each clause singles out one branch of its row, which the lemma named after it takes. -/
theorem powerCheckpointAndDeviceComplete : Obligations.PowerCheckpointAndDeviceComplete :=
  ⟨fun _ up idle enabled rails => execCkctlCheckpoint_checkpoints up idle enabled rails,
    fun _ idle enabled rails => execPfail_checkpoints idle enabled rails,
    fun _ up idle free => execCkctlLoad_loads up idle free,
    fun _ up => execCkctlClear_clears up,
    fun _ _ _ among stepping runs => execCheckpointComplete_waits among stepping runs,
    fun _ under ended => execCheckpointComplete_copies under ended,
    fun _ loading => execCheckpointLoadComplete_copies loading,
    fun _ _ up => execPmode_taken up,
    fun _ asked quiet => execPowerModeChange_changes asked quiet,
    fun _ waits => ⟨execPowerModeChange_waits waits, execWheelSettingChange_waits waits⟩,
    fun _ quiet => execWheelSettingChange_changes quiet,
    fun _ => rfl,
    fun _ _ balanced => execClockThrottle_balanced balanced,
    fun _ => rfl,
    fun _ => execThermtrip_eq,
    fun _ _ _ _ => rfl,
    fun _ _ _ there rails => execPatrolScrub_counts there rails,
    fun _ _ _ off => execPatrolScrub_passes off,
    fun _ retained => execMainRailFailure_retained retained,
    fun _ => rfl⟩

end Sys2Proof.Machine
end

section
/-! Resets, the function-level reset, the side-band commands, the world region table and SPDM (R340, R363 to R373). -/

namespace Sys2Proof.Machine

/-! ### What the caches leave as it is: host memory and the management state -/

namespace State

/-- The memory of the host, and the state of bring-up, updates and attestation: neither is behind the caches. -/
def beside (s : State) : Memory × Mgmt := (s.hostMem, s.mgmt)

section
variable (s : State)

@[simp] theorem physWrite_beside (pa : Nat) (bs : List Byte) : (s.physWrite pa bs).beside = s.beside := by
  unfold State.physWrite State.countNoMemory
  dsimp only
  split <;> rfl

@[simp] theorem homeStore_beside (k : Line) (off : Nat) (bs : List Byte) :
    (s.homeStore k off bs).beside = s.beside := by
  unfold State.homeStore
  split
  · exact s.physWrite_beside _ _
  · rfl

@[simp] theorem contextFault_beside (ctx die reason : Nat) (code : BitVec 8) (va : DWord) :
    (s.contextFault ctx die reason code va).beside = s.beside := by
  unfold State.contextFault
  dsimp only
  split <;> simp [State.beside]

@[simp] theorem faultAsid_beside (d : Nat) (asid : BitVec 16) : (s.faultAsid d asid).beside = s.beside :=
  foldl_keeps State.beside (fun s _ => s.contextFault_beside _ _ _ _ _) _ s

@[simp] theorem writeBack_beside (d : Nat) (l : Line) : (s.writeBack d l).beside = s.beside := by
  have good (is : List Nat) : (is.foldl (fun (s : State) i =>
      s.physWrite (l.base + 32 * i) ((l.data.drop (32 * i)).take 32)) s).beside = s.beside :=
    foldl_keeps State.beside (fun s _ => s.physWrite_beside _ _) _ s
  unfold State.writeBack
  dsimp only
  split
  · exact foldl_keeps State.beside (fun s _ => s.homeStore_beside _ _ _) _ s
  · split <;> simp [good]

@[simp] theorem onL2_beside (d : Nat) (f : List Line → List Line) : (s.onL2 d f).beside = s.beside := rfl

@[simp] theorem putL2_beside (d : Nat) (l : Line) : (s.putL2 d l).beside = s.beside := rfl

@[simp] theorem onL1_beside (core : Nat) (f : List Line → List Line) : (s.onL1 core f).beside = s.beside := by
  simp [State.beside]

@[simp] theorem cleanL2_beside (d : Nat) (p : Line → Bool) : (s.cleanL2 d p).beside = s.beside :=
  foldl_keeps State.beside (fun s _ => s.writeBack_beside _ _) _ s

@[simp] theorem allocL2_beside (d : Nat) (l : Line) (ret : Option Retention) (store : Bool) :
    (s.allocL2 d l ret store).beside = s.beside := by
  unfold State.allocL2
  split
  · rfl
  · split
    · rfl
    · dsimp only
      split <;> simp

@[simp] theorem fetchLine_beside (d : Nat) (k : Line) (ret : Option Retention) (store : Bool) :
    (s.fetchLine d k ret store).1.beside = s.beside := by
  unfold State.fetchLine
  split
  · rfl
  · split
    · simp
    · split <;> simp

@[simp] theorem allocL1_beside (core : Nat) (l : Line) (ret : Retention) :
    (s.allocL1 core l ret).beside = s.beside := by
  unfold State.allocL1
  split <;> simp

@[simp] theorem dropL2_beside (d : Nat) (p : Line → Bool) : (s.dropL2 d p).beside = s.beside := by
  refine (foldl_keeps State.beside (fun s l => s.fetchLine_beside d l (some l.ret) false) _ _).trans ?_
  simp

@[simp] theorem dropL1_beside (core : Nat) (p : Line → Bool) : (s.dropL1 core p).beside = s.beside := by
  refine (foldl_keeps State.beside (fun s l => ?_) _ _).trans (s.onL1_beside core _)
  simp

theorem dropDies_beside (dies : List Nat) (p : Line → Bool) : (s.dropDies dies p).beside = s.beside :=
  (foldl_keeps State.beside (fun s _ => s.dropL2_beside _ _) _ _).trans
    ((foldl_keeps State.beside (fun s _ => s.cleanL2_beside _ _) _ _).trans
      (foldl_keeps State.beside (fun s _ => s.cleanL2_beside _ _) _ s))

theorem dropLines_beside (p : Line → Bool) : (s.dropLines p).beside = s.beside :=
  (foldl_keeps State.beside (fun s _ => s.dropL1_beside _ _) _ _).trans (s.dropDies_beside _ p)

end

end State

/-! ### Bring-up (R369) -/

/-- s' is s after a bring-up, accepted or not: it differs in the fields named here alone, and there it keeps what a
reset keeps. -/
def BroughtUp (s s' : State) : Prop :=
  ∃ ctr r w m on o,
    s' = { s with freeCtr := ctr, regs := r, wrt := w, mgmt := m, mainOn := on, out := o } ∧
      r.ckstat = s.regs.ckstat ∧ r.ckseq = s.regs.ckseq ∧ m.fw = s.mgmt.fw ∧ m.config = s.mgmt.config ∧
      m.session = s.mgmt.session ∧ m.staging = s.mgmt.staging ∧ m.dynaddr = s.mgmt.dynaddr

theorem BroughtUp.kept {s s' : State} (up : BroughtUp s s') : s'.mem = s.mem ∧ s'.poison = s.poison ∧ s'.ns = s.ns ∧
    s'.mgmt.staging = s.mgmt.staging ∧ s'.mgmt.dynaddr = s.mgmt.dynaddr := by
  obtain ⟨_, _, _, _, _, _, rfl, -, -, -, -, -, staging, dynaddr⟩ := up
  exact ⟨rfl, rfl, rfl, staging, dynaddr⟩

@[simp] theorem Regs.configured_ckstat (r : Regs) (b : List Byte) : (r.configured b).ckstat = r.ckstat := by
  unfold Regs.configured
  dsimp only
  split <;> rfl

@[simp] theorem Regs.configured_ckseq (r : Regs) (b : List Byte) : (r.configured b).ckseq = r.ckseq := by
  unfold Regs.configured
  dsimp only
  split <;> rfl

theorem State.recover_broughtUp (s : State) : BroughtUp s s.recover :=
  ⟨_, _, _, _, _, _, rfl, rfl, rfl, rfl, rfl, rfl, rfl, rfl⟩

theorem State.bringUp_broughtUp (s : State) : BroughtUp s s.bringUp := by
  unfold State.bringUp
  split
  case h_1 cfg slot _ _ =>
    have ckstat := s.regs.configured_ckstat cfg
    have ckseq := s.regs.configured_ckseq cfg
    dsimp only
    split <;> exact ⟨_, _, _, _, _, _, rfl, ckstat, ckseq, rfl, rfl, rfl, rfl, rfl⟩
  case h_2 => exact s.recover_broughtUp

theorem State.bringUp_accepts {s : State} {cfg : List Byte} {slot : Nat} (copy : s.mgmt.configCopy = some cfg)
    (boots : s.mgmt.bootSlot = some slot) (starts : Config.bringUpFails 6 s.freeCtr = false) :
    s.bringUp.regs = s.regs.configured cfg ∧ s.bringUp.mainOn = true ∧ s.bringUp.mgmt.recovery = false ∧
      s.bringUp.mgmt.running = slot ∧ s.bringUp.mgmt.image = s.mgmt.fw.getD slot [] ∧ s.bringUp.mgmt.cfg = cfg ∧
      s.bringUp.mem = s.mem ∧
      s.bringUp.wrt = if cfg.isEmpty then WorldTable.reset else worldTableOf ((imageBody cfg).drop 0x80) := by
  unfold State.bringUp
  rw [copy, boots, starts]
  exact ⟨rfl, rfl, rfl, rfl, rfl, rfl, rfl, rfl⟩

theorem State.bringUp_recovers {s : State} (lacks : s.mgmt.configCopy = none ∨ s.mgmt.bootSlot = none) :
    s.bringUp.mgmt.recovery = true ∧ s.bringUp.mainOn = false := by
  have recovers : s.bringUp = s.recover := by
    unfold State.bringUp
    obtain copy | boots := lacks
    · rw [copy]
    · rw [boots]
      cases s.mgmt.configCopy <;> rfl
  rw [recovers]
  exact ⟨rfl, rfl⟩

/-! ### Resets (R373) -/

section
variable {s : State}

theorem State.requestReset_starts {cold : Bool} (done : s.ck ≠ some .checkpoint)
    (ready : cold = true ∨ s.mgmt.wrtNext = none ∨ s.stopped = true) :
    s.requestReset cold = if cold then s.coldStart else s.warmStart := by
  have now : s.resetWaits cold = false := by
    unfold State.resetWaits State.switching
    rw [beq_false_of_ne done]
    obtain cold | table | halted := ready
    · rw [cold]; rfl
    · rw [table, Option.isSome_none, Bool.and_false]; rfl
    · rw [halted, Bool.not_true, Bool.and_false]; rfl
  simp only [State.requestReset, now, Bool.false_eq_true, if_false]

theorem State.requestReset_waits {cold : Bool} (waits : s.resetWaits cold = true) : s.requestReset cold =
    { s with mgmt := { s.mgmt with resetDue := some (cold || s.mgmt.resetDue == some true) } } := by
  simp only [State.requestReset, waits, if_true]

theorem execColdReset_starts (done : s.ck ≠ some .checkpoint) : execColdReset s = .next s.coldStart := by
  rw [execColdReset, State.requestReset_starts done (.inl rfl), if_pos rfl]

theorem execWarmReset_starts (done : s.ck ≠ some .checkpoint) (ready : s.mgmt.wrtNext = none ∨ s.stopped = true) :
    execWarmReset s = .next s.warmStart := by
  rw [execWarmReset, State.requestReset_starts done (.inr ready), if_neg Bool.false_ne_true]

theorem execWarmReset_waits (waits : s.resetWaits false = true) : execWarmReset s =
    .next { s with mgmt := { s.mgmt with resetDue := some (s.mgmt.resetDue == some true) } } := by
  rw [execWarmReset, State.requestReset_waits waits, Bool.false_or]

theorem State.resetWaits_table (table : s.mgmt.wrtNext ≠ none) (runs : s.stopped = false) :
    s.resetWaits false = true := by
  simp only [State.resetWaits, State.switching, Option.isSome_iff_ne_none.mpr table, runs, Bool.not_false,
    Bool.and_self, Bool.or_true]

theorem State.resetWaits_checkpoint (under : s.ck = some .checkpoint) (cold : Bool) : s.resetWaits cold = true := by
  simp only [State.resetWaits, under, beq_self_eq_true, Bool.true_or]

theorem execColdReset_waits (under : s.ck = some .checkpoint) :
    execColdReset s = .next { s with mgmt := { s.mgmt with resetDue := some true } } := by
  rw [execColdReset, State.requestReset_waits (State.resetWaits_checkpoint under true), Bool.true_or]

/-- The state that a warm reset clears: the world table that waits, if any, has taken effect. -/
def State.switched (s : State) : State := s.mgmt.wrtNext.elim s s.switchTable

theorem State.switchTable_keeps (s : State) (w : WorldTable) : (s.switchTable w).hostMem = s.hostMem ∧
    (s.switchTable w).regs = s.regs ∧ (s.switchTable w).mgmt.fw = s.mgmt.fw ∧
    (s.switchTable w).mgmt.config = s.mgmt.config := by
  have kept := s.dropLines_beside fun l => pageChanges s.wrt w (l.base / 65536)
  have regs := s.dropLines_regs fun l => pageChanges s.wrt w (l.base / 65536)
  unfold State.switchTable
  generalize s.dropLines (fun l => pageChanges s.wrt w (l.base / 65536)) = s1 at kept regs ⊢
  exact ⟨congrArg Prod.fst kept, regs, congrArg (·.2.fw) kept, congrArg (·.2.config) kept⟩

theorem State.switchTable_mem (s : State) (w : WorldTable) :
    (s.switchTable w).mem = (s.dropLines fun l => pageChanges s.wrt w (l.base / 65536)).mem := by
  unfold State.switchTable
  generalize s.dropLines (fun l => pageChanges s.wrt w (l.base / 65536)) = s1
  rfl

theorem State.switched_keeps (s : State) : s.switched.hostMem = s.hostMem ∧ s.switched.regs = s.regs ∧
    s.switched.mgmt.fw = s.mgmt.fw ∧ s.switched.mgmt.config = s.mgmt.config := by
  unfold State.switched
  cases s.mgmt.wrtNext with
  | none => exact ⟨rfl, rfl, rfl, rfl⟩
  | some w => exact s.switchTable_keeps w

theorem State.switched_of_none (settled : s.mgmt.wrtNext = none) : s.switched = s := by
  rw [State.switched, settled, Option.elim_none]

theorem State.warmStart_broughtUp (s : State) : BroughtUp (s.switched.cleared 0) s.warmStart :=
  State.bringUp_broughtUp _

/-- The management state with which a cold reset brings up: a slot staged and not committed is dead. -/
def State.coldMgmt (s : State) : Mgmt :=
  { s.mgmt with
    resetDue := none, flrDue := [], wrtNext := none, waiting := [], session := false
    dead := if s.mgmt.staging then some (1 - s.mgmt.marked) else s.mgmt.dead, staging := false, dynaddr := none }

/-- What a cold reset brings up. -/
def State.coldState (s : State) : State :=
  { s.cleared (if s.retvOn then lpddrBase else 2 ^ 41) with
    ns := 0, mgmt := s.coldMgmt, retvOn := true, freeCtr := s.freeCtr + 1 }

theorem State.coldStart_eq (s : State) : s.coldStart =
    if s.mgmt.recov || Config.bringUpFails 2 s.freeCtr then s.coldState.recover else s.coldState.bringUp := rfl

theorem State.coldStart_broughtUp (s : State) : BroughtUp s.coldState s.coldStart := by
  rw [State.coldStart_eq]
  split
  · exact State.recover_broughtUp _
  · exact State.bringUp_broughtUp _

end

/-- What every reset gives, whatever it keeps of memory: nothing runs, and the kept registers and the flash stay. -/
abbrev StartsAnew (s s' : State) : Prop :=
  s'.teams = [] ∧ s'.casts = [] ∧ s'.grids = [] ∧ s'.copies = [] ∧ s'.carries = [] ∧ s'.sweeps = [] ∧
    s'.queries = [] ∧ s'.tasks = [] ∧ s'.tokens = [] ∧ s'.tlb = [] ∧ s'.ats = [] ∧ s'.remotes = [] ∧ s'.pieces = [] ∧
    s'.graphs = [] ∧ s'.contexts = State.reset.contexts ∧ s'.cores = State.reset.cores ∧ s'.l2 = State.reset.l2 ∧
    s'.ports = State.reset.ports ∧ s'.clk = State.reset.clk ∧ s'.ck = none ∧ s'.stopped = false ∧
    s'.mgmt.session = false ∧ s'.regs.ckstat = s.regs.ckstat ∧ s'.regs.ckseq = s.regs.ckseq ∧ s'.mgmt.fw = s.mgmt.fw ∧
    s'.mgmt.config = s.mgmt.config ∧ s'.hostMem = s.hostMem

theorem BroughtUp.startsAnew {s x s' : State} {from' ns ctr : Nat} {m : Mgmt} {retv : Bool}
    (up : BroughtUp { x.cleared from' with ns := ns, mgmt := m, retvOn := retv, freeCtr := ctr } s')
    (host : x.hostMem = s.hostMem) (regs : x.regs = s.regs) (fw : m.fw = s.mgmt.fw) (config : m.config = s.mgmt.config)
    (session : m.session = false) : StartsAnew s s' := by
  have keptStat : x.regs.ckstat = s.regs.ckstat := by rw [regs]
  have keptSeq : x.regs.ckseq = s.regs.ckseq := by rw [regs]
  obtain ⟨_, _, _, _, _, _, rfl, ckstat, ckseq, upFw, upConfig, upSession, -, -⟩ := up
  exact ⟨rfl, rfl, rfl, rfl, rfl, rfl, rfl, rfl, rfl, rfl, rfl, rfl, rfl, rfl, rfl, rfl, rfl, rfl, rfl, rfl, rfl,
    upSession.trans session, ckstat.trans keptStat, ckseq.trans keptSeq, upFw.trans fw,
    upConfig.trans config, host⟩

section
variable {s : State}

theorem State.coldStart_startsAnew (s : State) : StartsAnew s s.coldStart :=
  s.coldStart_broughtUp.startsAnew rfl rfl rfl rfl rfl

theorem State.warmStart_startsAnew (s : State) : StartsAnew s s.warmStart := by
  obtain ⟨host, regs, fw, config⟩ := s.switched_keeps
  exact s.warmStart_broughtUp.startsAnew host regs fw config rfl

/-- Every address and every burst is from address 0 on. -/
theorem filter_from_zero {α : Type} (l : List α) (f : α → Nat) : l.filter (fun x => decide (0 ≤ f x)) = l :=
  List.filter_eq_self.mpr fun _ _ => decide_eq_true (Nat.zero_le _)

theorem State.cleared_zero_mem (s : State) : (s.cleared 0).mem = s.mem := filter_from_zero s.mem Prod.fst

theorem State.cleared_zero_poison (s : State) : (s.cleared 0).poison = s.poison :=
  filter_from_zero s.poison fun b => 32 * b

theorem State.warmStart_keeps (settled : s.mgmt.wrtNext = none) : s.warmStart.mem = s.mem ∧
    s.warmStart.poison = s.poison ∧ s.warmStart.ns = s.ns ∧ s.warmStart.mgmt.staging = s.mgmt.staging ∧
    s.warmStart.mgmt.dynaddr = s.mgmt.dynaddr := by
  obtain ⟨mem, poison, ns, staging, dynaddr⟩ := s.warmStart_broughtUp.kept
  rw [State.switched_of_none settled] at mem poison ns staging dynaddr
  exact ⟨mem.trans s.cleared_zero_mem, poison.trans s.cleared_zero_poison, ns, staging, dynaddr⟩

theorem State.warmStart_mem_of_table {w : WorldTable} (table : s.mgmt.wrtNext = some w) :
    s.warmStart.mem = (s.dropLines fun l => pageChanges s.wrt w (l.base / 65536)).mem := by
  obtain ⟨mem, -⟩ := s.warmStart_broughtUp.kept
  have switched : s.switched = s.switchTable w := by rw [State.switched, table, Option.elim_some]
  rw [mem, switched, State.cleared_zero_mem, State.switchTable_mem]

theorem State.coldStart_keeps (retained : s.retvOn = true) :
    s.coldStart.mem = s.mem.filter (fun c => decide (2 ^ 40 ≤ c.1)) ∧
      s.coldStart.poison = s.poison.filter (fun b => decide (2 ^ 40 ≤ 32 * b)) ∧ s.coldStart.ns = 0 ∧
      s.coldStart.mgmt.staging = false ∧ s.coldStart.mgmt.dynaddr = none := by
  obtain ⟨mem, poison, ns, staging, dynaddr⟩ := s.coldStart_broughtUp.kept
  have base : (if s.retvOn = true then lpddrBase else 2 ^ 41) = 2 ^ 40 := if_pos retained
  unfold State.coldState at mem poison
  rw [base] at mem poison
  exact ⟨mem, poison, ns, staging, dynaddr⟩

/-! ### The function-level reset (R373) -/

theorem execVfFunctionLevelReset_resets {vf : Nat} (virtual : vf ≠ 0) (up : s.hostUp = true)
    (done : s.ck ≠ some .checkpoint) :
    let l := (s.contexts.filter fun c => c.cfunc.toNat == vf && c.state != .free).map (·.no)
    let s1 := l.foldl State.flrFault s
    let s2 := l.foldl State.flrContext s1
    execVfFunctionLevelReset vf s = .next (
      if l.any s1.stepsWait = true then
        { s1 with mgmt := { s1.mgmt with flrDue := s.mgmt.flrDue.erase vf ++ [vf] } }
      else { s2 with mgmt := { s2.mgmt with flrDue := s.mgmt.flrDue.erase vf } }) := by
  simp only [execVfFunctionLevelReset, beq_false_of_ne virtual, up, beq_false_of_ne done, Bool.not_true, Bool.or_self,
    Bool.false_eq_true, if_false]
  exact (apply_ite Host.Outcome.next _ _ _).symm

theorem execVfFunctionLevelReset_waits {vf : Nat} (virtual : vf ≠ 0) (up : s.hostUp = true)
    (under : s.ck = some .checkpoint) : execVfFunctionLevelReset vf s =
      .next { s with mgmt := { s.mgmt with flrDue := s.mgmt.flrDue.erase vf ++ [vf] } } := by
  simp only [execVfFunctionLevelReset, beq_false_of_ne virtual, up, under, beq_self_eq_true, Bool.not_true,
    Bool.or_self, Bool.false_eq_true, if_false, if_true]

/-! ### Side-band commands (R364, R370) -/

theorem State.unlessRecovery_running {f : State → State} (runs : s.mgmt.recovery = false) :
    s.unlessRecovery f = .next (f s) := by
  simp only [State.unlessRecovery, runs, Bool.false_eq_true, if_false]

theorem State.unlessRecovery_recovering {f : State → State} (recovers : s.mgmt.recovery = true) :
    s.unlessRecovery f = .next (s.answer 2 []) := by
  simp only [State.unlessRecovery, recovers, if_true]

theorem execSbReset_eq {arg : Byte} : execSbReset arg s = .next (
    if arg.toNat < 2 then (s.answer 0 []).requestReset (arg == 1) else s.answer 1 []) := by
  unfold execSbReset
  by_cases known : arg.toNat < 2
  · rw [if_neg (Nat.not_le.mpr known), if_pos known]
  · rw [if_pos (Nat.not_lt.mp known), if_neg known]

theorem execFwstage_stages {off : Nat} {chunk : List Byte} (filled : chunk ≠ []) (size : chunk.length ≤ 1024) :
    let slot := 1 - s.mgmt.marked
    execFwstage off chunk s = .next (({ s with mgmt := { s.mgmt with
      fw := setAt s.mgmt.fw slot (putChunk (s.mgmt.fw.getD slot []) off chunk) [], staging := true
      dead := if s.mgmt.dead = some slot then none else s.mgmt.dead } } : State).answer 0 []) := by
  simp only [execFwstage, List.isEmpty_eq_false_iff.mpr filled, Nat.not_lt.mpr size, decide_false, Bool.or_self,
    Bool.false_eq_true, if_false, beq_iff_eq]

theorem execFwcommit_eq : execFwcommit s = .next (if s.mgmt.slotValid (1 - s.mgmt.marked) = true then
    ({ s with mgmt := { s.mgmt with marked := 1 - s.mgmt.marked, staging := false, firstUse := false } } :
      State).answer 0 []
    else s.answer 1 []) := by
  unfold execFwcommit
  exact (apply_ite Host.Outcome.next _ _ _).symm

theorem execCktrig_triggers (runs : s.mgmt.recovery = false) (idle : s.ck = none) (enabled : s.regs.cken = true)
    (rails : s.mainOn = true) : execCktrig s = .next (s.trigger.answer 0 []) := by
  have begun : (s.trigger.ck == s.ck) = false := by
    rw [State.trigger_checkpoints idle enabled rails, idle]
    rfl
  rw [execCktrig, State.unlessRecovery_running runs]
  simp only [begun, Bool.false_eq_true, if_false]

theorem execWrtset_idle {auth : Bool} {table : List Byte} (idle : s.mgmt.wrtNext = none) :
    execWrtset auth table s = s.unlessRecovery fun s =>
      if auth && s.mgmt.session && worldTableOk table then
        { s with mgmt := { s.mgmt with wrtNext := some (worldTableOf table) } }
      else s.answer 1 [] := by
  simp only [execWrtset, idle, Option.isSome_none, Bool.false_eq_true, if_false]

theorem execWrtset_running {auth : Bool} {table : List Byte} (runs : s.mgmt.recovery = false)
    (idle : s.mgmt.wrtNext = none) : execWrtset auth table s = .next (
      if (auth && s.mgmt.session && worldTableOk table) = true then
        { s with mgmt := { s.mgmt with wrtNext := some (worldTableOf table) } }
      else s.answer 1 []) :=
  (execWrtset_idle idle).trans (State.unlessRecovery_running runs)

theorem execWrtset_recovering {auth : Bool} {table : List Byte} (recovers : s.mgmt.recovery = true)
    (idle : s.mgmt.wrtNext = none) : execWrtset auth table s = .next (s.answer 2 []) :=
  (execWrtset_idle idle).trans (State.unlessRecovery_recovering recovers)

theorem execWorldTableSwitch_switches {w : WorldTable} (table : s.mgmt.wrtNext = some w)
    (quiet : s.accessOpen = false) : execWorldTableSwitch s = .next (s.switchTable w) := by
  simp only [execWorldTableSwitch, table, quiet, Bool.false_eq_true, if_false]

theorem execWorldTableSwitch_waits {w : WorldTable} (table : s.mgmt.wrtNext = some w) (waits : s.accessOpen = true) :
    execWorldTableSwitch s = .next s := by
  simp only [execWorldTableSwitch, table, waits, if_true]

theorem execPmset_running {value : Word} (runs : s.mgmt.recovery = false) : execPmset value s = .next (
    if 5 ≤ value.toNat % 8 then s.answer 1 []
    else ({ s with regs := { s.regs with pmode := value.setWidth 3 } } : State).answer 0 []) := by
  have low : (value.setWidth 3).toNat = value.toNat % 8 := BitVec.toNat_setWidth 3 value
  rw [execPmset, State.unlessRecovery_running runs, low]
  by_cases reserved : 5 ≤ value.toNat % 8
  · rw [if_pos reserved, if_pos reserved]
  · simp only [reserved, if_false, State.setPmode, low]

/-! ### SPDM (R368, R371) -/

theorem execSpdmRequest_negotiate (runs : s.mgmt.recovery = false) :
    execSpdmRequest .negotiate s = .next (s.spdm 0 spdmOffer) := by
  simp only [execSpdmRequest, runs, Bool.false_eq_true, if_false]

theorem execSpdmRequest_certificate {slot : Nat} (runs : s.mgmt.recovery = false) (known : slot < 2) :
    execSpdmRequest (.certificate slot) s = .next (s.spdm 1 (s.chain slot)) := by
  simp only [execSpdmRequest, runs, Bool.false_eq_true, if_false, known, if_true]

theorem execSpdmRequest_challenge {slot : Nat} {nonce : List Byte} (runs : s.mgmt.recovery = false)
    (known : slot < 2) : execSpdmRequest (.challenge slot nonce) s =
      .next (s.spdm 2 (Config.ed448Sign (s.keySeed slot) nonce)) := by
  simp only [execSpdmRequest, runs, Bool.false_eq_true, if_false, known, if_true]

theorem execSpdmRequest_measurements {index slot : Nat} {m : List Byte} (runs : s.mgmt.recovery = false)
    (known : slot < 2) (measured : s.measurements index = some m) : execSpdmRequest (.measurements index slot) s =
      .next (s.spdm 3 (m ++ Config.ed448Sign (s.keySeed slot) m)) := by
  simp only [execSpdmRequest, runs, Bool.false_eq_true, if_false, known, if_true, measured]

theorem State.keySeed_one (s : State) : s.keySeed 1 =
    Config.shake256 (s.keySeed 0 ++ imageDigest 2 s.mgmt.image ++ imageDigest 3 s.mgmt.cfg) 57 := by
  have named : ((1 : Nat) == 0) = false := rfl
  simp only [State.keySeed, named, beq_self_eq_true, Bool.false_eq_true, if_false, if_true]

theorem execSpdmRequest_keyExchange {key : List Byte} (runs : s.mgmt.recovery = false) :
    execSpdmRequest (.keyExchange key true) s = .next (({ s with
      mgmt := { s.mgmt with session := Config.shake256 key 64 == s.mgmt.ownkh } } : State).spdm 4 []) := by
  simp only [execSpdmRequest, runs, Bool.false_eq_true, if_false, if_true]

theorem execSpdmRequest_other {code : Byte} (runs : s.mgmt.recovery = false) :
    execSpdmRequest (.other code) s = .next (s.spdm 0xFF [code]) := by
  simp only [execSpdmRequest, runs, Bool.false_eq_true, if_false]

end

/-- Settles O35: each clause singles out one branch of its row, which the lemma named after it takes. -/
theorem managementComplete : Obligations.ManagementComplete :=
  ⟨fun _ done => execColdReset_starts done,
    fun _ done ready => execWarmReset_starts done ready,
    fun _ _ table runs => execWarmReset_waits (State.resetWaits_table table runs),
    fun _ under => ⟨execColdReset_waits under, execWarmReset_waits (State.resetWaits_checkpoint under false)⟩,
    fun s _ start => start.elim (fun cold => cold ▸ s.coldStart_startsAnew) fun warm => warm ▸ s.warmStart_startsAnew,
    fun _ settled => State.warmStart_keeps settled,
    fun _ _ table => State.warmStart_mem_of_table table,
    fun _ retained => State.coldStart_keeps retained,
    fun _ _ _ copy boots starts => State.bringUp_accepts copy boots starts,
    fun _ lacks => State.bringUp_recovers lacks,
    fun _ _ virtual up done => execVfFunctionLevelReset_resets virtual up done,
    fun _ _ virtual up under => execVfFunctionLevelReset_waits virtual up under,
    fun _ => rfl,
    fun _ => rfl,
    fun _ _ => execSbReset_eq,
    fun _ _ _ filled size => execFwstage_stages filled size,
    fun _ => execFwcommit_eq,
    fun _ runs idle enabled rails => execCktrig_triggers runs idle enabled rails,
    fun _ _ _ runs idle => execWrtset_running runs idle,
    fun _ _ table quiet => execWorldTableSwitch_switches table quiet,
    fun _ _ table waits => execWorldTableSwitch_waits table waits,
    fun _ _ runs => execPmset_running runs,
    fun _ _ recovers idle => execWrtset_recovering recovers idle,
    fun _ runs => execSpdmRequest_negotiate runs,
    fun _ _ runs known => execSpdmRequest_certificate runs known,
    fun _ _ _ runs known => execSpdmRequest_challenge runs known,
    fun _ _ _ _ runs known measured => execSpdmRequest_measurements runs known measured,
    fun s => s.keySeed_one,
    fun _ _ runs => execSpdmRequest_keyExchange runs,
    fun _ _ runs => execSpdmRequest_other runs,
    fun _ _ => rfl,
    fun _ _ => rfl⟩

end Sys2Proof.Machine
end

section
/-! The words of an instruction: operand codes, the formats F1 and F2 cut into fields and joined again, and the opcode
maps (R26, R62 to R67, R74). -/

namespace Sys2Proof.Codec

open Sys2Proof.Machine

/-! ### Fields of a joined word -/

theorem bit_of_ofBool {w : Nat} {x : BitVec w} {k : Nat} {b : Bool} (h : x.extractLsb' k 1 = BitVec.ofBool b) :
    x.getLsbD k = b := by
  rw [← ofBool_getLsbD] at h
  simpa using congrArg (BitVec.getLsbD · 0) h

/-- A word cut into the fields of R63 and joined again. -/
theorem f1Word_fields (x : Bool) (op : BitVec 7) (d a b : BitVec 8) :
    let w : Word := BitVec.ofBool x ++ op ++ d ++ a ++ b
    w.getLsbD 31 = x ∧ w.field 24 7 = op ∧ w.field 16 8 = d ∧ w.field 8 8 = a ∧ w.field 0 8 = b := by
  refine ⟨bit_of_ofBool ?_, ?_, ?_, ?_, ?_⟩ <;>
    simp (disch := decide) only [BitVec.extractLsb'_append_eq_of_le, BitVec.extractLsb'_append_eq_of_add_le] <;> simp

theorem f1Word_joined (w : Word) :
    BitVec.ofBool (w.getLsbD 31) ++ w.field 24 7 ++ w.field 16 8 ++ w.field 8 8 ++ w.field 0 8 = w := by
  simp only [ofBool_getLsbD, BitVec.extractLsb'_append_extractLsb'_eq_extractLsb', BitVec.extractLsb'_eq_self]

theorem x1Word_fields (x : X1) : (X1.word x).field 24 8 = x.c.code ∧
    (X1.word x).field 20 4 = BitVec.ofNat 4 x.ty.code ∧ (X1.word x).field 17 3 = x.rm.code ∧
    (X1.word x).getLsbD 16 = x.sat ∧ (X1.word x).getLsbD 15 = x.na ∧ (X1.word x).getLsbD 14 = x.nb ∧
    (X1.word x).field 8 6 = x.fn ∧ (X1.word x).field 0 8 = 0 := by
  refine ⟨?_, ?_, ?_, bit_of_ofBool ?_, bit_of_ofBool ?_, bit_of_ofBool ?_, ?_, ?_⟩ <;>
    simp (disch := decide) only [X1.word, BitVec.extractLsb'_append_eq_of_le,
      BitVec.extractLsb'_append_eq_of_add_le] <;> simp

/-! ### Operand codes (R26, R27) -/

theorem pair_lo (hi lo : Word) : (Word.pair hi lo).lo = lo :=
  (BitVec.extractLsb'_append_eq_of_add_le (by decide)).trans BitVec.extractLsb'_eq_self

theorem pair_hi (hi lo : Word) : (Word.pair hi lo).hi = hi :=
  (BitVec.extractLsb'_append_eq_of_le (by decide)).trans BitVec.extractLsb'_eq_self

theorem ofCode_code {o : Operand} (h : o.isLit = false) : Operand.ofCode o.code = .ok o := by
  cases o with
  | lit32 _ | lit64 _ => cases h
  | zero | lane | group | team | owner => rfl
  | v n | s n | p n | q n | k n | const n => revert n; decide

theorem code_of_ofCode {c : BitVec 8} {o : Operand} (h : Operand.ofCode c = .ok o) :
    o.code = c ∧ o.isLit = false := by
  have all : ∀ c : BitVec 8, (Operand.ofCode c).toOption.all fun o => o.code == c && !o.isLit := by decide
  simpa [h, Except.toOption] using all c

theorem literal_eq_nil {o : Operand} (h : o.isLit = false) : o.literal = [] := by
  cases o with
  | lit32 _ | lit64 _ => cases h
  | _ => rfl

/-- A code that is no literal's names an operand without a literal (R62). -/
theorem source_of_ofCode {c : BitVec 8} {o : Operand} (ws : List Word) (h : Operand.ofCode c = .ok o) :
    Operand.source c ws = .ok (o, ws) := by
  have literal (l : BitVec 8) (hl : (Operand.ofCode l).toOption = none) : (c == l) = false := by
    rw [beq_eq_false_iff_ne]
    rintro rfl
    simp [h, Except.toOption] at hl
  simp only [Operand.source, literal 0xF8 rfl, literal 0xF9 rfl, h, Bool.false_eq_true, if_false]

theorem source_code (o : Operand) (rest : List Word) : Operand.source o.code (o.literal ++ rest) = .ok (o, rest) := by
  cases h : o.isLit with
  | false => rw [literal_eq_nil h]; exact source_of_ofCode rest (ofCode_code h)
  | true =>
    cases o with
    | lit32 w => rfl
    | lit64 d => exact congrArg (fun d => Except.ok (Operand.lit64 d, rest)) (DWord.pair_hi_lo d)
    | _ => cases h

theorem spelled_of_source {c : BitVec 8} {ws rest : List Word} {o : Operand}
    (h : Operand.source c ws = .ok (o, rest)) : o.code = c ∧ o.literal ++ rest = ws := by
  unfold Operand.source at h
  split at h
  · next lit =>
    rw [beq_iff_eq] at lit
    split at h <;> cases h
    exact ⟨lit.symm, rfl⟩
  · split at h
    · next lit =>
      rw [beq_iff_eq] at lit
      split at h <;> cases h
      refine ⟨lit.symm, ?_⟩
      simp [Operand.literal, pair_lo, pair_hi]
    · split at h <;> cases h
      next h =>
      obtain ⟨code, lit⟩ := code_of_ofCode h
      exact ⟨code, by rw [literal_eq_nil lit, List.nil_append]⟩

/-! ### Decoding that succeeds -/

theorem bind_eq_ok {ε α β : Type} {x : Except ε α} {f : α → Except ε β} {b : β} (h : x >>= f = .ok b) :
    ∃ a, x = .ok a ∧ f a = .ok b := by
  cases x with
  | error _ => cases h
  | ok a => exact ⟨a, rfl, h⟩

theorem require_eq_ok {ok : Bool} {e : DecodeError} {u : Unit} (h : require ok e = .ok u) : ok = true := by
  cases ok with
  | true => rfl
  | false => cases h

theorem rm_ofCode_code (r : RM) : RM.ofCode r.code = .ok r := by cases r <;> rfl

theorem rm_code_of_ofCode {c : BitVec 3} {r : RM} (h : RM.ofCode c = .ok r) : r.code = c := by
  have all : ∀ c : BitVec 3, (RM.ofCode c).toOption.all fun r => r.code == c := by decide
  simpa [h, Except.toOption] using all c

theorem scope_ofCode_code (s : Scope) : Scope.ofCode s.code = .ok s := by cases s <;> rfl

theorem scope_code_of_ofCode {c : BitVec 3} {s : Scope} (h : Scope.ofCode c = .ok s) : s.code = c := by
  have all : ∀ c : BitVec 3, (Scope.ofCode c).toOption.all fun s => s.code == c := by decide
  simpa [h, Except.toOption] using all c

/-- A type whose number fits TY of X1 (R64, R65). -/
theorem ty_ofCode_code {t : Ty} (h : t.code < 16) : Ty.ofCode (BitVec.ofNat 4 t.code).toNat = some t := by
  cases t with
  | mx6 | mx6b | mx4 => simp [Ty.code] at h
  | _ => rfl

theorem ty_code_of_ofCode {c : BitVec 4} {t : Ty} (h : Ty.ofCode c.toNat = some t) : BitVec.ofNat 4 t.code = c := by
  have all : ∀ c : BitVec 4, (Ty.ofCode c.toNat).all fun t => BitVec.ofNat 4 t.code == c := by decide
  simpa [h] using all c

/-! ### F1 and X1 (R63 to R65) -/

theorem x1Fields_word {x : X1} (h : x.ty.code < 16) : X1.fields (X1.word x) x.c = .ok x := by
  obtain ⟨-, ty, rm, sat, na, nb, fn, low⟩ := x1Word_fields x
  simp only [X1.fields, ty, rm, sat, na, nb, fn, low, ty_ofCode_code h, rm_ofCode_code]
  rfl

theorem x1Word_of_fields {w : Word} {c : Operand} {x : X1} (code : c.code = w.field 24 8)
    (h : X1.fields w c = .ok x) : X1.word x = w ∧ x.c = c := by
  obtain ⟨u, low, h⟩ := bind_eq_ok h
  obtain ⟨rm, hrm, h⟩ := bind_eq_ok h
  have low : 0#8 = w.field 0 8 := (beq_iff_eq.mp (require_eq_ok low)).symm
  split at h
  · cases h
  · next ty hty =>
    cases h
    refine ⟨?_, rfl⟩
    simp only [X1.word, code, ty_code_of_ofCode hty, rm_code_of_ofCode hrm, low, ofBool_getLsbD,
      BitVec.extractLsb'_append_extractLsb'_eq_extractLsb', BitVec.extractLsb'_eq_self]

/-- What the words of an F1 instruction hold: a destination without a literal, and a type that TY names. -/
def F1Fits (o : F1) : Prop := o.d.isLit = false ∧ ∀ x, o.x = some x → x.ty.code < 16

/-- The first word of an F1 instruction. -/
def f1Head (o : F1) (op : BitVec 7) : Word :=
  BitVec.ofBool o.x.isSome ++ op ++ o.d.code ++ o.a.code ++ o.b.code

/-- The words after it. -/
def f1Tail (o : F1) : List Word :=
  match o.x with
  | none => o.a.literal ++ o.b.literal
  | some x => x.word :: (o.a.literal ++ o.b.literal ++ x.c.literal)

theorem f1_words (o : F1) (op : BitVec 7) : o.words op = f1Head o op :: f1Tail o := by
  obtain ⟨d, a, b, x⟩ := o
  cases x <;> rfl

theorem f1_ofWords {o : F1} (op : BitVec 7) (rest : List Word) (h : F1Fits o) :
    F1.ofWords (f1Head o op) (f1Tail o ++ rest) = .ok (o, rest) := by
  obtain ⟨bit, -, d, a, b⟩ := f1Word_fields o.x.isSome op o.d.code o.a.code o.b.code
  obtain ⟨dest, ty⟩ := h
  obtain ⟨od, oa, ob, ox⟩ := o
  cases ox with
  | none =>
    simp only [F1.ofWords, f1Head, f1Tail, bit, d, a, b, ofCode_code dest, List.append_assoc, source_code,
      bind, Except.bind]
    rfl
  | some x =>
    have c := (x1Word_fields x).1
    simp only [F1.ofWords, f1Head, f1Tail, bit, d, a, b, c, ofCode_code dest, List.append_assoc, List.cons_append,
      source_code, x1Fields_word (ty x rfl), bind, Except.bind]
    rfl

theorem f1_words_of_ofWords {w : Word} {ws rest : List Word} {o : F1} (h : F1.ofWords w ws = .ok (o, rest)) :
    o.words (w.field 24 7) ++ rest = w :: ws := by
  have word (x : Bool) (hx : w.getLsbD 31 = x) {d a b : Operand} (hd : d.code = w.field 16 8)
      (ha : a.code = w.field 8 8) (hb : b.code = w.field 0 8) :
      BitVec.ofBool x ++ w.field 24 7 ++ d.code ++ a.code ++ b.code = w := by
    rw [← hx, hd, ha, hb, f1Word_joined]
  obtain ⟨d, hd, h⟩ := bind_eq_ok h
  have hd := (code_of_ofCode hd).1
  split at h
  · next bit =>
    split at h
    · cases h
    · obtain ⟨⟨a, r⟩, ha, h⟩ := bind_eq_ok h
      obtain ⟨⟨b, r'⟩, hb, h⟩ := bind_eq_ok h
      obtain ⟨⟨c, r''⟩, hc, h⟩ := bind_eq_ok h
      obtain ⟨x, hx, h⟩ := bind_eq_ok h
      cases h
      obtain ⟨codeA, wordsA⟩ := spelled_of_source ha
      obtain ⟨codeB, wordsB⟩ := spelled_of_source hb
      obtain ⟨codeC, wordsC⟩ := spelled_of_source hc
      obtain ⟨wordX, opC⟩ := x1Word_of_fields codeC hx
      simp only [F1.words, Option.isSome_some, word _ bit hd codeA codeB, wordX, opC, List.cons_append,
        List.append_assoc, wordsC, wordsB, wordsA]
  · next bit =>
    obtain ⟨⟨a, r⟩, ha, h⟩ := bind_eq_ok h
    obtain ⟨⟨b, r'⟩, hb, h⟩ := bind_eq_ok h
    cases h
    obtain ⟨codeA, wordsA⟩ := spelled_of_source ha
    obtain ⟨codeB, wordsB⟩ := spelled_of_source hb
    simp only [F1.words, Option.isSome_none, word _ (Bool.eq_false_iff.mpr bit) hd codeA codeB, List.cons_append,
      List.append_assoc, wordsB, wordsA]

/-! ### F2 and X2 (R66, R67) -/

theorem f2Word_fields (x : Bool) (op : BitVec 7) (l : BitVec 4) (tk : BitVec 3) (d a : BitVec 8) :
    let w : Word := BitVec.ofBool x ++ op ++ l ++ tk ++ 0#1 ++ d ++ a
    w.getLsbD 31 = x ∧ w.field 24 7 = op ∧ w.field 20 4 = l ∧ w.field 17 3 = tk ∧ w.getLsbD 16 = false ∧
      w.field 8 8 = d ∧ w.field 0 8 = a := by
  refine ⟨bit_of_ofBool ?_, ?_, ?_, ?_, bit_of_ofBool ?_, ?_, ?_⟩ <;>
    simp (disch := decide) only [BitVec.extractLsb'_append_eq_of_le, BitVec.extractLsb'_append_eq_of_add_le] <;> simp

theorem x2Word_fields (x : X2) : (X2.word x).field 24 8 = x.b.code ∧ (X2.word x).field 20 4 = x.sz ∧
    (X2.word x).field 17 3 = x.sc.code ∧ (X2.word x).field 15 2 = x.rh ∧ (X2.word x).field 12 3 = x.fn ∧
    (X2.word x).field 0 12 = x.imm := by
  refine ⟨?_, ?_, ?_, ?_, ?_, ?_⟩ <;>
    simp (disch := decide) only [X2.word, BitVec.extractLsb'_append_eq_of_le,
      BitVec.extractLsb'_append_eq_of_add_le] <;> simp

theorem x2Word_of_fields {w : Word} {b : Operand} {sc : Scope} (hb : b.code = w.field 24 8)
    (hsc : Scope.ofCode (w.field 17 3) = .ok sc) :
    X2.word { b := b, sz := w.field 20 4, sc := sc, rh := w.field 15 2, fn := w.field 12 3, imm := w.field 0 12 } =
      w := by
  simp only [X2.word, hb, scope_code_of_ofCode hsc, BitVec.extractLsb'_append_extractLsb'_eq_extractLsb',
    BitVec.extractLsb'_eq_self]

/-- The first word of an F2 instruction. -/
def f2Head (o : F2) (op : BitVec 7) : Word :=
  BitVec.ofBool o.x.isSome ++ op ++ o.l ++ o.tk ++ 0#1 ++ o.d.code ++ o.a.code

/-- The words after it. -/
def f2Tail (o : F2) : List Word :=
  match o.x with
  | none => o.a.literal
  | some x => x.word :: (o.a.literal ++ x.b.literal)

theorem f2_words (o : F2) (op : BitVec 7) : o.words op = f2Head o op :: f2Tail o := by
  obtain ⟨l, tk, d, a, x⟩ := o
  cases x <;> rfl

theorem f2_ofWords {o : F2} (op : BitVec 7) (rest : List Word) (dest : o.d.isLit = false) :
    F2.ofWords (f2Head o op) (f2Tail o ++ rest) = .ok (o, rest) := by
  obtain ⟨bit, -, l, tk, zero, d, a⟩ := f2Word_fields o.x.isSome op o.l o.tk o.d.code o.a.code
  obtain ⟨ol, otk, od, oa, ox⟩ := o
  cases ox with
  | none =>
    simp only [F2.ofWords, f2Head, f2Tail, bit, l, tk, zero, d, a, ofCode_code dest, source_code, bind, Except.bind]
    rfl
  | some x =>
    obtain ⟨b, sz, sc, rh, fn, imm⟩ := x2Word_fields x
    simp only [F2.ofWords, f2Head, f2Tail, bit, l, tk, zero, d, a, b, sz, sc, rh, fn, imm, ofCode_code dest,
      List.append_assoc, List.cons_append, source_code, scope_ofCode_code, bind, Except.bind]
    rfl

theorem f2_words_of_ofWords {w : Word} {ws rest : List Word} {o : F2} (h : F2.ofWords w ws = .ok (o, rest)) :
    o.words (w.field 24 7) ++ rest = w :: ws := by
  have word (x : Bool) (hx : w.getLsbD 31 = x) (zero : w.getLsbD 16 = false) {d a : Operand}
      (hd : d.code = w.field 8 8) (ha : a.code = w.field 0 8) :
      BitVec.ofBool x ++ w.field 24 7 ++ w.field 20 4 ++ w.field 17 3 ++ 0#1 ++ d.code ++ a.code = w := by
    have zero' : 0#1 = w.extractLsb' 16 1 := by rw [← ofBool_getLsbD, zero]; rfl
    simp only [← hx, hd, ha, zero', ofBool_getLsbD, BitVec.extractLsb'_append_extractLsb'_eq_extractLsb',
      BitVec.extractLsb'_eq_self]
  obtain ⟨u, hz, h⟩ := bind_eq_ok h
  have zero : w.getLsbD 16 = false := by simpa using require_eq_ok hz
  obtain ⟨d, hd, h⟩ := bind_eq_ok h
  have hd := (code_of_ofCode hd).1
  split at h
  · next bit =>
    split at h
    · cases h
    · obtain ⟨⟨a, r⟩, ha, h⟩ := bind_eq_ok h
      obtain ⟨⟨b, r'⟩, hb, h⟩ := bind_eq_ok h
      obtain ⟨sc, hsc, h⟩ := bind_eq_ok h
      cases h
      obtain ⟨codeA, wordsA⟩ := spelled_of_source ha
      obtain ⟨codeB, wordsB⟩ := spelled_of_source hb
      simp only [F2.words, Option.isSome_some, word _ bit zero hd codeA,
        x2Word_of_fields codeB hsc, List.cons_append, List.append_assoc, wordsB, wordsA]
  · next bit =>
    obtain ⟨⟨a, r⟩, ha, h⟩ := bind_eq_ok h
    cases h
    obtain ⟨codeA, wordsA⟩ := spelled_of_source ha
    simp only [F2.words, Option.isSome_none, word _ (Bool.eq_false_iff.mpr bit) zero hd codeA, List.cons_append, wordsA]

/-! ### The opcode maps (R74) -/

theorem f1Op_spells {cls op : Nat} {f : F1 → Instr} (small : cls ≤ 1) (h : f1Op cls op = some f) (o : F1) :
    (f o).encoded = true ∧ (f o).cls = cls ∧ encode (f o) = o.words (BitVec.ofNat 7 op) := by
  match cls, small with
  | 0, _ =>
    simp only [f1Op, class0Op] at h
    split at h <;> cases h <;> exact ⟨rfl, rfl, rfl⟩
  | 1, _ =>
    simp only [f1Op, class1Op] at h
    split at h <;> cases h <;> exact ⟨rfl, rfl, rfl⟩

theorem f2Op_spells {cls op : Nat} {f : F2 → Instr} (large : 2 ≤ cls) (small : cls ≤ 4) (h : f2Op cls op = some f)
    (o : F2) : (f o).encoded = true ∧ (f o).cls = cls ∧ encode (f o) = o.words (BitVec.ofNat 7 op) := by
  match cls, large, small with
  | 2, _, _ =>
    simp only [f2Op, class2Op] at h
    split at h <;> cases h <;> exact ⟨rfl, rfl, rfl⟩
  | 3, _, _ =>
    simp only [f2Op, class3Op] at h
    split at h <;> cases h
    case h_9.refl => dsimp only; split <;> exact ⟨rfl, rfl, rfl⟩
    all_goals exact ⟨rfl, rfl, rfl⟩
  | 4, _, _ =>
    simp only [f2Op, class4Op] at h
    split at h <;> cases h <;> exact ⟨rfl, rfl, rfl⟩

end Sys2Proof.Codec
end

section
/-! What the checks of a well-formed instruction of classes 0 to 4 say of its words, and both directions of the codec
for them (R62 to R67, R74, R75). -/

namespace Sys2Proof.Codec

open Sys2Proof.Machine

/-! ### What the checks of a well-formed instruction say of its words (R63, R66) -/

/-- A destination that a check accepts, and which accepts no literal, has no literal. -/
theorem notLit_of_check {l : List (Bool × IllFormed)} (h : firstFail l = none) (p : Operand → Bool) {e : IllFormed}
    {d : Operand} (k : Nat) (mem : l[k]? = some (p d, e))
    (noLit : ∀ w v, p (.lit32 w) = false ∧ p (.lit64 v) = false) : d.isLit = false := by
  have ok : p d = true := firstFail_eq_none h _ (List.mem_of_getElem? mem)
  cases d with
  | lit32 w => simp [(noLit w 0).1] at ok
  | lit64 v => simp [(noLit 0 v).2] at ok
  | _ => rfl

theorem F1Fits.of_check {r : F1Rule} {o : F1} {kinds : List (Bool × IllFormed)} (h : r.check o kinds = none)
    (tys : ∀ t ∈ r.tys, t.code < 16) (p : Operand → Bool) {e : IllFormed} (dest : kinds[0]? = some (p o.d, e))
    (noLit : ∀ w v, p (.lit32 w) = false ∧ p (.lit64 v) = false) : F1Fits o := by
  refine ⟨notLit_of_check h p 10 dest noLit, fun x hx => tys _ ?_⟩
  simpa [F1.ext, hx] using (F1Rule.check_eq_none h).1

theorem F1Fits.of_chkInt {o : F1} {nin : Nat} {dflt : Ty} {tys : List Ty} {sat neg : Bool}
    (h : chkInt o nin dflt tys sat neg = none) (small : ∀ t ∈ tys, t.code < 16) : F1Fits o :=
  .of_check h small (Operand.dstOk _) rfl fun _ _ => ⟨rfl, rfl⟩

theorem F1Fits.of_chkShift {o : F1} {nin : Nat} {dflt : Ty} {tys : List Ty}
    (h : chkShift o nin dflt tys = none) (small : ∀ t ∈ tys, t.code < 16) : F1Fits o :=
  .of_check h small (Operand.dstOk _) rfl fun _ _ => ⟨rfl, rfl⟩

theorem F1Fits.of_chkFp {o : F1} {nin : Nat} {rms : List RM} {na nb : Bool} {fn : BitVec 6 → Bool}
    (h : chkFp o nin rms na nb fn = none) : F1Fits o :=
  .of_check h (by decide : ∀ t ∈ [Ty.f32], t.code < 16) (Operand.dstOk _) rfl fun _ _ => ⟨rfl, rfl⟩

theorem F1Fits.of_chkPacked {o : F1} {nin : Nat} {dflt : Ty} {tys : List Ty} {neg : Bool} {fn : BitVec 6 → Bool}
    (h : chkPacked o nin dflt tys neg fn = none) (small : ∀ t ∈ tys, t.code < 16) : F1Fits o :=
  .of_check h small (Operand.dstOk _) rfl fun _ _ => ⟨rfl, rfl⟩

theorem F1Fits.of_chkSet {o : F1} {dflt : Ty} {tys : List Ty} {neg : Bool} {maxCc : Nat}
    (h : chkSet o dflt tys neg maxCc = none) (small : ∀ t ∈ tys, t.code < 16) : F1Fits o :=
  .of_check h small Operand.dstCmp rfl fun _ _ => ⟨rfl, rfl⟩

theorem F1Fits.of_chkMove {o : F1} {nin : Nat} {fn : BitVec 6 → Bool} {bOk : Operand → Bool}
    (h : chkMove o nin fn bOk = none) : F1Fits o :=
  .of_check h (by decide : ∀ t ∈ bw, t.code < 16) (fun d => d.isV && d.runOk _) rfl fun _ _ => ⟨rfl, rfl⟩

theorem F1Fits.of_chkPred {o : F1} {nin : Nat} {nb wide : Bool} (h : chkPred o nin nb wide = none) : F1Fits o :=
  .of_check h (by decide : ∀ t ∈ [Ty.b32], t.code < 16) (fun d => d.isP || d.isQ) rfl fun _ _ => ⟨rfl, rfl⟩

theorem F1Fits.of_chkCarry {o : F1} (h : chkCarry o = none) : F1Fits o :=
  .of_check h (by decide : ∀ t ∈ [Ty.n32, .n64], t.code < 16) (Operand.dstOk _) rfl fun _ _ => ⟨rfl, rfl⟩

/-- A reduction's type is one of R132's. -/
theorem F1Fits.of_chkRed {o : F1} {nin maxFn : Nat} {bOk : Operand → Bool} (h : chkRed o nin maxFn bOk = none) :
    F1Fits o := by
  refine .of_check h ?_ (fun d => d.isV && d.runOk _) rfl fun _ _ => ⟨rfl, rfl⟩
  intro t ht
  dsimp only [redTypes] at ht
  split at ht
  · revert t; decide
  · split at ht
    · revert t; decide
    · cases ht

/-- A type that CVT converts to (R119). -/
theorem cvtPair_small {src dst : Ty} {r : List RM × Bool} (h : cvtPair src dst = some r) : dst.code < 16 := by
  cases dst with
  | mx6 | mx6b | mx4 => cases src <;> cases h
  | _ => decide

theorem F1Fits.of_chkCvt {o : F1} (h : chkCvt o = none) : F1Fits o := by
  unfold chkCvt at h
  split at h
  · cases h
  · split at h
    · cases h
    · split at h
      · cases h
      · next pair =>
        refine .of_check h ?_ (Operand.dstOk _) rfl fun _ _ => ⟨rfl, rfl⟩
        simpa using cvtPair_small pair

theorem F1Fits.of_chkPack {o : F1} {rms : List RM} {na : Bool} (h : chkPack o rms na = none) : F1Fits o := by
  unfold chkPack at h
  split at h
  · cases h
  · split at h
    · cases h
    · exact .of_check h (by decide : ∀ t ∈ [Ty.f32], t.code < 16) (Operand.dstOk _) rfl fun _ _ => ⟨rfl, rfl⟩

theorem F1Fits.of_chkImad {o : F1} (h : chkImad o = none) : F1Fits o := by
  unfold chkImad at h
  dsimp only at h
  split at h
  · exact .of_check h (by decide : ∀ t ∈ [Ty.s32, .n32], t.code < 16) (Operand.dstOk _) rfl fun _ _ => ⟨rfl, rfl⟩
  · exact .of_check h (by decide : ∀ t ∈ iw, t.code < 16) (Operand.dstOk _) rfl fun _ _ => ⟨rfl, rfl⟩

/-- Every well-formed instruction of class 0 or 1 is one that the opcode map of its class gives, with words that hold
its operands. -/
theorem f1_of_wellFormed {i : Instr} (small : i.cls ≤ 1) (h : i.illFormed = none) :
    ∃ op f o, i = f o ∧ f1Op i.cls (BitVec.toNat op) = some f ∧ encode i = o.words op ∧ F1Fits o := by
  cases i with
  | mov o | iadd o | isub o | imul o | imulh o | imin o | imax o | iabs o | ineg o | andL o | orL o | xorL o
  | andn o | notL o | brev o | bytep o => exact ⟨_, _, o, rfl, rfl, rfl, .of_chkInt h (by decide)⟩
  | shl o | shr o | sar o | rot o | bfx o | bfi o => exact ⟨_, _, o, rfl, rfl, rfl, .of_chkShift h (by decide)⟩
  | fadd o | fsub o | fmul o | ffma o | fmin o | fmax o | frcp o | frsq o | fsqrt o | fexp2 o | flog2 o | fscale o
  | fexpo o | frnd o => exact ⟨_, _, o, rfl, rfl, rfl, .of_chkFp h⟩
  | hfma2 o | hadd2 o | hmul2 o | dot4 o | dot2 o => exact ⟨_, _, o, rfl, rfl, rfl, .of_chkPacked h (by decide)⟩
  | iset o | fset o => exact ⟨_, _, o, rfl, rfl, rfl, .of_chkSet h (by decide)⟩
  | shfl o | compact o => exact ⟨_, _, o, rfl, rfl, rfl, .of_chkMove h⟩
  | pand o | por o | pxor o | pnot o | pmov o => exact ⟨_, _, o, rfl, rfl, rfl, .of_chkPred h⟩
  | bcast o =>
    exact ⟨_, _, o, rfl, rfl, rfl,
      .of_chkMove (bOk := fun b => if (o.ext .b32).fn == 1 then b == .zero else bcastB b) h⟩
  | segred o => exact ⟨_, _, o, rfl, rfl, rfl, .of_chkRed (bOk := fun b => b == .owner || b.isV) h⟩
  | reduce o | scan o => exact ⟨_, _, o, rfl, rfl, rfl, .of_chkRed (bOk := fun _ => true) h⟩
  | segscan o => exact ⟨_, _, o, rfl, rfl, rfl, .of_chkRed (bOk := Operand.isP) h⟩
  | pack o | unpk o => exact ⟨_, _, o, rfl, rfl, rfl, .of_chkPack h⟩
  | cvt o => exact ⟨_, _, o, rfl, rfl, rfl, .of_chkCvt h⟩
  | imad o => exact ⟨_, _, o, rfl, rfl, rfl, .of_chkImad h⟩
  | iadc o | isbc o => exact ⟨_, _, o, rfl, rfl, rfl, .of_chkCarry h⟩
  | sel o | popc o | clz o | lea o | sval o =>
    exact ⟨_, _, o, rfl, rfl, rfl, .of_check h (by decide) (Operand.dstOk _) rfl fun _ _ => ⟨rfl, rfl⟩⟩
  | fclass o =>
    exact ⟨_, _, o, rfl, rfl, rfl,
      .of_check h (by decide) (fun d => d.dstOk false || d.isP || d.isQ) rfl fun _ _ => ⟨rfl, rfl⟩⟩
  | vote o =>
    exact ⟨_, _, o, rfl, rfl, rfl, .of_check h (by decide) (fun d => d.isV || (d.isP && _)) rfl fun _ _ => ⟨rfl, rfl⟩⟩
  | lrscan o =>
    exact ⟨_, _, o, rfl, rfl, rfl,
      .of_check h (by decide) (fun d => d.isV && (_ || d.runOk 2)) rfl fun _ _ => ⟨rfl, rfl⟩⟩
  | matchP o | exset o | exdeal o =>
    exact ⟨_, _, o, rfl, rfl, rfl, .of_check h (by decide) Operand.isV rfl fun _ _ => ⟨rfl, rfl⟩⟩
  | exclr o =>
    have plain : o.x.isNone = true := firstFail_eq_none h (_, .noExt) (.head _)
    refine ⟨_, _, o, rfl, rfl, rfl, notLit_of_check h (· == .zero) 1 rfl (fun _ _ => ⟨rfl, rfl⟩), fun x hx => ?_⟩
    simp [hx] at plain
  | _ => exact absurd small (Nat.not_le_of_gt (Nat.le_of_ble_eq_true rfl))

/-- Every well-formed instruction of classes 2 to 4 is one that the opcode map of its class gives, with a destination
that has no literal. -/
theorem f2_of_wellFormed {i : Instr} (large : 2 ≤ i.cls) (small : i.cls ≤ 4)
    (h : i.illFormed = none) :
    ∃ op f o, i = f o ∧ f2Op i.cls (BitVec.toNat op) = some f ∧ encode i = o.words op ∧ o.d.isLit = false := by
  have inRange : decide (2 ≤ i.cls ∧ i.cls ≤ 4) = true := decide_eq_true ⟨large, small⟩
  cases i with
  | ld o =>
    exact ⟨_, _, o, rfl, rfl, rfl, notLit_of_check h
      (fun d => (d.isV || (d.isS && !o.vector)) && d.runOk (max 1 (szBytes o.ext.sz / 4))) 8 rfl fun _ _ => ⟨rfl, rfl⟩⟩
  | lda o =>
    exact ⟨_, _, o, rfl, rfl, rfl, notLit_of_check h
      (fun d => (d.isV || (d.isS && !o.a.isV)) && d.runOk (max 1 (szBytes o.ext.sz / 4))) 8 rfl fun _ _ => ⟨rfl, rfl⟩⟩
  | st o => exact ⟨_, _, o, rfl, rfl, rfl, notLit_of_check h (·.data2 (szBytes o.ext.sz)) 7 rfl fun _ _ => ⟨rfl, rfl⟩⟩
  | atomn o =>
    exact ⟨_, _, o, rfl, rfl, rfl, notLit_of_check h (·.data2 (szBytes o.ext.sz)) 5 rfl fun _ _ => ⟨rfl, rfl⟩⟩
  | atom o =>
    exact ⟨_, _, o, rfl, rfl, rfl, notLit_of_check h
      (fun d => (d.isV || (d.isS && !o.vector)) && d.runOk (szBytes o.ext.sz / 4)) 5 rfl fun _ _ => ⟨rfl, rfl⟩⟩
  | cas o =>
    exact ⟨_, _, o, rfl, rfl, rfl, notLit_of_check h
      (fun d => (d.isV || (d.isS && !o.vector)) && d.runOk (szBytes o.ext.sz / 4)) 6 rfl fun _ _ => ⟨rfl, rfl⟩⟩
  | gather o | scatr o =>
    exact ⟨_, _, o, rfl, rfl, rfl,
      notLit_of_check h (fun d => d.isV && d.runOk (szBytes o.ext.sz / 4)) 7 rfl fun _ _ => ⟨rfl, rfl⟩⟩
  | hacc o => exact ⟨_, _, o, rfl, rfl, rfl, notLit_of_check h Operand.isV 7 rfl fun _ _ => ⟨rfl, rfl⟩⟩
  | waitk o => exact ⟨_, _, o, rfl, rfl, rfl, notLit_of_check h Operand.isK 2 rfl fun _ _ => ⟨rfl, rfl⟩⟩
  | lockl o =>
    exact ⟨_, _, o, rfl, rfl, rfl,
      notLit_of_check h (fun d => (true && d.isS) || (false && d == .zero)) 5 rfl fun _ _ => ⟨rfl, rfl⟩⟩
  | unlockl o =>
    exact ⟨_, _, o, rfl, rfl, rfl,
      notLit_of_check h (fun d => (true && d.isS) || (true && d == .zero)) 5 rfl fun _ _ => ⟨rfl, rfl⟩⟩
  | cflush o | cinval o =>
    exact ⟨_, _, o, rfl, rfl, rfl,
      notLit_of_check h (fun d => (false && d.isS) || (true && d == .zero)) 5 rfl fun _ _ => ⟨rfl, rfl⟩⟩
  | pfetch o => exact ⟨_, _, o, rfl, rfl, rfl, notLit_of_check h (· == .zero) 8 rfl fun _ _ => ⟨rfl, rfl⟩⟩
  | fence o => exact ⟨_, _, o, rfl, rfl, rfl, notLit_of_check h (· == .zero) 5 rfl fun _ _ => ⟨rfl, rfl⟩⟩
  | wbload o | wbdrop o | mma o | mmas o | accz o | accld o | accst o | accdr o | attn o | attnfin o | psel o
  | kvapp o | demote o | kvres o =>
    exact ⟨_, _, o, rfl, rfl, rfl, notLit_of_check h Operand.kc 2 rfl fun _ _ => ⟨rfl, rfl⟩⟩
  | accrd o =>
    have fn : (!true || o.ext.fn == 0) = true := firstFail_eq_none h (_, .badFn) (List.mem_of_getElem? (i := 9) rfl)
    have ordinary : o.ext.fn.getLsbD 0 = false := by simp_all
    exact ⟨8, _, o, (if_neg (Bool.eq_false_iff.mp ordinary)).symm, rfl, rfl,
      notLit_of_check h Operand.isV 2 rfl fun _ _ => ⟨rfl, rfl⟩⟩
  | accrdSt o =>
    have fn : (o.ext.fn == 1 || o.ext.fn == 3) = true :=
      firstFail_eq_none h (_, .badFn) (List.mem_of_getElem? (i := 4) rfl)
    have status : o.ext.fn.getLsbD 0 = true := by
      rcases Bool.or_eq_true_iff.mp fn with fn | fn <;> rw [beq_iff_eq.mp fn] <;> rfl
    exact ⟨8, _, o, (if_pos status).symm, rfl, rfl, notLit_of_check h Operand.isS 2 rfl fun _ _ => ⟨rfl, rfl⟩⟩
  | copy o | copyy o | lksend o =>
    exact ⟨_, _, o, rfl, rfl, rfl, notLit_of_check h Operand.kc 1 rfl fun _ _ => ⟨rfl, rfl⟩⟩
  | bseal o | xrel o | binit o | arrdrop o | qsrch o =>
    exact ⟨_, _, o, rfl, rfl, rfl, notLit_of_check h (· == .zero) 1 rfl fun _ _ => ⟨rfl, rfl⟩⟩
  | waitb o => exact ⟨_, _, o, rfl, rfl, rfl, notLit_of_check h (· == .zero) 2 rfl fun _ _ => ⟨rfl, rfl⟩⟩
  | arrive o | xacq o =>
    exact ⟨_, _, o, rfl, rfl, rfl, notLit_of_check h (fun d => d.isS || d == .zero) 1 rfl fun _ _ => ⟨rfl, rfl⟩⟩
  | bwait o =>
    exact ⟨_, _, o, rfl, rfl, rfl, notLit_of_check h
      (fun d => match d with | .s _ | .const _ | .zero => true | _ => false) 2 rfl fun _ _ => ⟨rfl, rfl⟩⟩
  | spawn o | glaunch o => exact ⟨_, _, o, rfl, rfl, rfl, notLit_of_check h Operand.isQ 1 rfl fun _ _ => ⟨rfl, rfl⟩⟩
  | gscan o => exact ⟨_, _, o, rfl, rfl, rfl, notLit_of_check h Operand.isPair 1 rfl fun _ _ => ⟨rfl, rfl⟩⟩
  | tqpush o =>
    exact ⟨_, _, o, rfl, rfl, rfl, notLit_of_check h
      (fun d => match d with | .v _ | .s _ | .const _ | .zero => true | _ => false) 1 rfl fun _ _ => ⟨rfl, rfl⟩⟩
  | _ => exact absurd inRange Bool.false_ne_true

/-! ### Classes 0 to 4, both ways -/

/-- Decoding takes the first word's opcode to the map of its class. -/
theorem decodeInstr_f1 {cls : Nat} (small : cls ≤ 1) {w : Word} {ws : List Word} {f : F1 → Instr}
    (h : f1Op cls (w.field 24 7).toNat = some f) :
    decodeInstr cls (w :: ws) = F1.ofWords w ws >>= fun x => (f x.1).checked x.2 := by
  simp only [decodeInstr, small, if_true, h]

theorem decodeInstr_f2 {cls : Nat} (large : 2 ≤ cls) (small : cls ≤ 4) {w : Word} {ws : List Word} {f : F2 → Instr}
    (h : f2Op cls (w.field 24 7).toNat = some f) :
    decodeInstr cls (w :: ws) = F2.ofWords w ws >>= fun x => (f x.1).checked x.2 := by
  have above : ¬ cls ≤ 1 := by omega
  simp only [decodeInstr, above, small, if_true, if_false, h]

theorem checked_of_wellFormed {i : Instr} (h : i.illFormed = none) (rest : List Word) :
    i.checked rest = .ok (i, rest) := by
  simp only [Instr.checked, h]

theorem wellFormed_of_checked {i j : Instr} {rest rest' : List Word} (h : i.checked rest = .ok (j, rest')) :
    i = j ∧ rest = rest' ∧ i.illFormed = none := by
  unfold Instr.checked at h
  split at h <;> cases h
  next wellFormed => exact ⟨rfl, rfl, wellFormed⟩

/-- Settles O41: a destination and a type that the checks accept fit the first words, and the words are read back field
by field. -/
theorem decodeOfEncodeOfRegisterInstructions : Obligations.DecodeOfEncodeOfRegisterInstructions := by
  intro i rest _ small h
  obtain ⟨op, f, o, rfl, map, words, fits⟩ := f1_of_wellFormed small h
  obtain ⟨-, opcode, -⟩ := f1Word_fields o.x.isSome op o.d.code o.a.code o.b.code
  rw [words, f1_words, List.cons_append, decodeInstr_f1 small (opcode.symm ▸ map), f1_ofWords op rest fits]
  exact checked_of_wellFormed h rest

/-- Settles O42: as O41, by the words of F2. -/
theorem decodeOfEncodeOfMemoryAndAsynchronousInstructions :
    Obligations.DecodeOfEncodeOfMemoryAndAsynchronousInstructions := by
  intro i rest _ large small h
  obtain ⟨op, f, o, rfl, map, words, dest⟩ := f2_of_wellFormed large small h
  obtain ⟨-, opcode, -⟩ := f2Word_fields o.x.isSome op o.l o.tk o.d.code o.a.code
  rw [words, f2_words, List.cons_append, decodeInstr_f2 large small (opcode.symm ▸ map), f2_ofWords op rest dest]
  exact checked_of_wellFormed h rest

/-- An instruction that decodes by the map of class 0 or 1 is spelled by its words. -/
theorem f1_spelled {cls : Nat} (small : cls ≤ 1) {w : Word} {ws rest : List Word} {i : Instr}
    (h : decodeInstr cls (w :: ws) = .ok (i, rest)) :
    i.encoded = true ∧ i.cls = cls ∧ i.illFormed = none ∧ encode i ++ rest = w :: ws := by
  cases map : f1Op cls (w.field 24 7).toNat with
  | none => simp only [decodeInstr, small, if_true, map] at h; cases h
  | some f =>
    rw [decodeInstr_f1 small map] at h
    obtain ⟨⟨o, left⟩, ho, h⟩ := bind_eq_ok h
    obtain ⟨rfl, rfl, wellFormed⟩ := wellFormed_of_checked h
    obtain ⟨encoded, cls, words⟩ := f1Op_spells small map o
    rw [BitVec.ofNat_toNat, BitVec.setWidth_eq] at words
    exact ⟨encoded, cls, wellFormed, words.symm ▸ f1_words_of_ofWords ho⟩

theorem f2_spelled {cls : Nat} (large : 2 ≤ cls) (small : cls ≤ 4) {w : Word} {ws rest : List Word} {i : Instr}
    (h : decodeInstr cls (w :: ws) = .ok (i, rest)) :
    i.encoded = true ∧ i.cls = cls ∧ i.illFormed = none ∧ encode i ++ rest = w :: ws := by
  have above : ¬ cls ≤ 1 := by omega
  cases map : f2Op cls (w.field 24 7).toNat with
  | none => simp only [decodeInstr, above, small, if_true, if_false, map] at h; cases h
  | some f =>
    rw [decodeInstr_f2 large small map] at h
    obtain ⟨⟨o, left⟩, ho, h⟩ := bind_eq_ok h
    obtain ⟨rfl, rfl, wellFormed⟩ := wellFormed_of_checked h
    obtain ⟨encoded, cls, words⟩ := f2Op_spells large small map o
    rw [BitVec.ofNat_toNat, BitVec.setWidth_eq] at words
    exact ⟨encoded, cls, wellFormed, words.symm ▸ f2_words_of_ofWords ho⟩

end Sys2Proof.Codec
end

section
/-! The words of classes 5 and 6, decoded from their encoding (R72, R73, R82, R211). -/

namespace Sys2Proof.Codec

open Sys2Proof.Machine

/-! ### F3: class 5 (R72, R82) -/

section
variable (x : Bool) (op : BitVec 7) (b : BitVec 3) (q : BitVec 2) (neg cnd : Bool) (p : BitVec 3) (low : BitVec 14)

theorem f3Word_fields : let w := f3Word x op b q neg cnd p low
    w.getLsbD 31 = x ∧ w.field 24 7 = op ∧ w.field 21 3 = b ∧ w.field 19 2 = q ∧ w.getLsbD 18 = neg ∧
      w.getLsbD 17 = cnd ∧ w.field 14 3 = p ∧ w.field 0 14 = low := by
  refine ⟨bit_of_ofBool ?_, ?_, ?_, ?_, bit_of_ofBool ?_, bit_of_ofBool ?_, ?_, ?_⟩ <;>
    simp (disch := decide) only [f3Word, BitVec.extractLsb'_append_eq_of_le, BitVec.extractLsb'_append_eq_of_add_le] <;>
    simp

end

/-- A word is joined from its fields (R72). -/
theorem f3Word_eq {w : Word} {x : Bool} {op : BitVec 7} {b : BitVec 3} {q : BitVec 2} {neg cnd : Bool} {p : BitVec 3}
    {low : BitVec 14} (hx : w.getLsbD 31 = x) (hop : (w.field 24 7).toNat = op.toNat) (hb : w.field 21 3 = b)
    (hq : w.field 19 2 = q) (hneg : w.getLsbD 18 = neg) (hcnd : w.getLsbD 17 = cnd) (hp : w.field 14 3 = p)
    (hlow : w.field 0 14 = low) : f3Word x op b q neg cnd p low = w := by
  rw [← hx, ← BitVec.eq_of_toNat_eq hop, ← hb, ← hq, ← hneg, ← hcnd, ← hp, ← hlow]
  simp only [f3Word, ofBool_getLsbD, BitVec.extractLsb'_append_extractLsb'_eq_extractLsb', BitVec.extractLsb'_eq_self]

/-- The first word of PREP and PREPS (R82). -/
def prepWord (x : BitVec 1) (op : BitVec 7) (b : BitVec 3) (off : BitVec 18) : Word := x ++ op ++ b ++ 0#3 ++ off

theorem prepWord_fields (x : Bool) (op : BitVec 7) (b : BitVec 3) (off : BitVec 18) :
    let w := prepWord (BitVec.ofBool x) op b off
    w.getLsbD 31 = x ∧ w.field 24 7 = op ∧ w.field 21 3 = b ∧ w.field 18 3 = 0 ∧ w.field 0 18 = off := by
  refine ⟨bit_of_ofBool ?_, ?_, ?_, ?_, ?_⟩ <;>
    simp (disch := decide) only [prepWord, BitVec.extractLsb'_append_eq_of_le,
      BitVec.extractLsb'_append_eq_of_add_le] <;> simp

/-- The word X3 or X4 of an S code, a code and 16 bits. -/
theorem x3Word_fields (a b : BitVec 8) (low : BitVec 16) :
    let x : Word := a ++ b ++ low
    x.field 24 8 = a ∧ x.field 16 8 = b ∧ x.field 0 16 = low := by
  refine ⟨?_, ?_, ?_⟩ <;>
    simp (disch := decide) only [BitVec.extractLsb'_append_eq_of_le, BitVec.extractLsb'_append_eq_of_add_le] <;> simp

theorem linkWord_fields (a : BitVec 8) :
    let x : Word := a ++ 0#24
    x.field 24 8 = a ∧ x.field 16 8 = 0 ∧ x.field 0 16 = 0 := by
  refine ⟨?_, ?_, ?_⟩ <;>
    simp (disch := decide) only [BitVec.extractLsb'_append_eq_of_le, BitVec.extractLsb'_append_eq_of_add_le] <;> simp

theorem scmpLow_fields (cc ty : BitVec 3) :
    let low : BitVec 14 := cc ++ ty ++ 0#8
    low.extractLsb' 11 3 = cc ∧ low.extractLsb' 8 3 = ty ∧ low.extractLsb' 0 8 = 0 := by
  refine ⟨?_, ?_, ?_⟩ <;>
    simp (disch := decide) only [BitVec.extractLsb'_append_eq_of_le, BitVec.extractLsb'_append_eq_of_add_le] <;> simp

theorem lowField_eq (w : Word) : w.field 0 17 = w.field 14 3 ++ w.field 0 14 := by
  simp only [BitVec.extractLsb'_append_extractLsb'_eq_extractLsb']

theorem midField_eq (w : Word) :
    w.field 14 5 = BitVec.ofBool (w.getLsbD 18) ++ BitVec.ofBool (w.getLsbD 17) ++ w.field 14 3 := by
  simp only [ofBool_getLsbD, BitVec.extractLsb'_append_extractLsb'_eq_extractLsb']

theorem field_field (w : Word) {lo n : Nat} (k : Nat) (h : lo + k ≤ n) :
    (w.field 0 n).extractLsb' lo k = w.field lo k := by
  ext i hi
  have inside : lo + i < n := by omega
  simp [inside]

theorem x3Link_of_fields {b : BitVec 8} {s : BitVec 6} {x : Word} (ha : x.field 24 8 = (Operand.s s).code)
    (hb : x.field 16 8 = b) (low : x.field 0 16 = 0) : x3Link b x = .ok s := by
  simp only [x3Link, ha, hb, low, ofCode_code (o := .s s) rfl, beq_self_eq_true, require, if_true, bind, Except.bind]
  rfl

theorem cmp_ofCode_code (c : Cmp) : Cmp.ofCode c.code = .ok c := by cases c <;> rfl

theorem cmp_code_of_ofCode {c : BitVec 3} {r : Cmp} (h : Cmp.ofCode c = .ok r) : r.code = c := by
  have all : ∀ c : BitVec 3, (Cmp.ofCode c).toOption.all fun r => r.code == c := by decide
  simpa [h, Except.toOption] using all c

theorem scmpTy_ofCode_code (t : ScmpTy) : ScmpTy.ofCode t.code = .ok t := by cases t <;> rfl

theorem scmpTy_code_of_ofCode {c : BitVec 3} {t : ScmpTy} (h : ScmpTy.ofCode c = .ok t) : t.code = c := by
  have all : ∀ c : BitVec 3, (ScmpTy.ofCode c).toOption.all fun t => t.code == c := by decide
  simpa [h, Except.toOption] using all c

theorem notLit_of_scmpSrc {w : Bool} {o : Operand} (h : scmpSrc w o = true) : o.isLit = false := by
  cases o with
  | lit32 _ | lit64 _ => cases h
  | _ => rfl

theorem decodeInstr_plain5 {w : Word} (rest : List Word) (bit : w.getLsbD 31 = false) :
    decodeInstr 5 (w :: rest) = class5Plain w >>= fun i => i.checked rest := if_neg (Bool.eq_false_iff.mp bit)

theorem decodeInstr_ext5 {w : Word} (x : Word) (rest : List Word) (bit : w.getLsbD 31 = true) :
    decodeInstr 5 (w :: x :: rest) = class5Ext w x >>= fun i => i.checked rest := if_pos bit

theorem decode_plain5 {w : Word} {i : Instr} (rest : List Word) (bit : w.getLsbD 31 = false)
    (h : class5Plain w = .ok i) (ok : i.illFormed = none) : decodeInstr 5 (w :: rest) = .ok (i, rest) := by
  rw [decodeInstr_plain5 rest bit, h]
  exact checked_of_wellFormed ok rest

theorem decode_ext5 {w x : Word} {i : Instr} (rest : List Word) (bit : w.getLsbD 31 = true)
    (h : class5Ext w x = .ok i) (ok : i.illFormed = none) : decodeInstr 5 (w :: x :: rest) = .ok (i, rest) := by
  rw [decodeInstr_ext5 x rest bit, h]
  exact checked_of_wellFormed ok rest

theorem decode_f3 {op : BitVec 7} {b : BitVec 3} {q : BitVec 2} {neg cnd : Bool} {p : BitVec 3} {low : BitVec 14}
    {i : Instr} (rest : List Word) (ok : i.illFormed = none)
    (h : ∀ w : Word, w.field 24 7 = op → w.field 21 3 = b → w.field 19 2 = q → w.getLsbD 18 = neg →
      w.getLsbD 17 = cnd → w.field 14 3 = p → w.field 0 14 = low → class5Plain w = .ok i) :
    decodeInstr 5 (f3Word false op b q neg cnd p low :: rest) = .ok (i, rest) := by
  obtain ⟨bit, hop, hb, hq, hneg, hcnd, hp, hlow⟩ := f3Word_fields false op b q neg cnd p low
  exact decode_plain5 rest bit (h _ hop hb hq hneg hcnd hp hlow) ok

theorem decode_f3Ext {op : BitVec 7} {b : BitVec 3} {q : BitVec 2} {neg cnd : Bool} {p : BitVec 3} {low : BitVec 14}
    {i : Instr} {x : Word} (rest : List Word) (ok : i.illFormed = none)
    (h : ∀ w : Word, w.field 24 7 = op → w.field 21 3 = b → w.field 19 2 = q → w.getLsbD 18 = neg →
      w.getLsbD 17 = cnd → w.field 14 3 = p → w.field 0 14 = low → class5Ext w x = .ok i) :
    decodeInstr 5 (f3Word true op b q neg cnd p low :: x :: rest) = .ok (i, rest) := by
  obtain ⟨bit, hop, hb, hq, hneg, hcnd, hp, hlow⟩ := f3Word_fields true op b q neg cnd p low
  exact decode_ext5 rest bit (h _ hop hb hq hneg hcnd hp hlow) ok

theorem decode_encode_class5 {i : Instr} (h : i.cls = 5) (ok : i.illFormed = none) (rest : List Word) :
    decodeInstr 5 (encode i ++ rest) = .ok (i, rest) := by
  cases i with
  | prep b off =>
    obtain ⟨bit, op, hb, zero, hoff⟩ := prepWord_fields false 1 b off
    refine decode_plain5 rest (w := prepWord 0 1 b off) bit ?_ ok
    simp only [class5Plain, ← BitVec.ofBool_false, op, hb, zero, hoff]
    rfl
  | preps b off s =>
    obtain ⟨bit, op, hb, zero, hoff⟩ := prepWord_fields true 2 b off
    refine decode_ext5 rest (w := prepWord 1 2 b off) bit ?_ ok
    obtain ⟨ha, code, low⟩ := x3Word_fields (Operand.s s).code 0xF0#8 0#16
    have link := x3Link_of_fields (b := 0xF0) ha code low
    simp only [class5Ext, ← BitVec.ofBool_true, op, hb, zero, hoff, link]
    rfl
  | xcall b q neg cnd link =>
    cases link with
    | none =>
      refine decode_f3 rest ok fun w op b q neg cnd p low => ?_
      simp only [class5Plain, op, b, q, neg, cnd, p, low]
      rfl
    | some s =>
      obtain ⟨ha, code, low⟩ := linkWord_fields (Operand.s s).code
      refine decode_f3Ext rest ok fun w op hb hq hneg hcnd hp hlow => ?_
      have zero : w.field 0 17 = 0 := by rw [lowField_eq, hp, hlow]; rfl
      have link := x3Link_of_fields (b := 0) ha code low
      simp only [class5Ext, op, hb, hq, hneg, hcnd, zero, link]
      rfl
  | scmp q cc ty a b =>
    obtain ⟨left, right⟩ : scmpSrc ty.is64 a = true ∧ scmpSrc ty.is64 b = true :=
      ⟨firstFail_eq_none ok (_, .badSource) (.head _), firstFail_eq_none ok (_, .badSource) (.tail _ (.head _))⟩
    obtain ⟨ha, hb, low⟩ := x3Word_fields a.code b.code 0#16
    obtain ⟨hcc, hty, zero⟩ := scmpLow_fields cc.code ty.code
    refine decode_f3Ext rest ok fun w op hbr hq hneg hcnd hp hlow => ?_
    have unused : w.field 14 5 = 0 := by rw [midField_eq, hneg, hcnd, hp]; rfl
    have fcc : w.field 11 3 = cc.code := by rw [← hcc, ← hlow, field_field _ _ (by decide)]
    have fty : w.field 8 3 = ty.code := by rw [← hty, ← hlow, field_field _ _ (by decide)]
    have fzero : w.field 0 8 = 0 := by rw [← zero, ← hlow, field_field _ _ (by decide)]
    simp only [class5Ext, op, hbr, hq, unused, fcc, fty, fzero, ha, hb, low, ofCode_code (notLit_of_scmpSrc left),
      ofCode_code (notLit_of_scmpSrc right), cmp_ofCode_code, scmpTy_ofCode_code]
    rfl
  | qset q md =>
    cases md with
    | const v =>
      refine decode_f3 rest ok fun w op b q neg cnd p low => ?_
      simp only [class5Plain, op, b, q, neg, cnd, p, low]
      cases v <;> rfl
    | any p neg | all p neg =>
      refine decode_f3 rest ok fun w op b q neg cnd p low => ?_
      simp only [class5Plain, op, b, q, neg, cnd, p, low]
      rfl
  | ifP p | ifnP p | breakP p | contP p | exitP p | xany b p neg | xall b p neg | xfer _ _ _ _ | endloop _
  | endserial _ | nop | elseP | endif | loopP | serial | icsync | exitSaved | yieldP n | trapU _ _ _ _ | bkpt _ =>
    refine decode_f3 rest ok fun w op b q neg cnd p low => ?_
    simp only [class5Plain, op, b, q, neg, cnd, p, low]
    rfl
  | _ => cases h

/-! ### F4: class 6 (R73, R211) -/

theorem f4Word_fields (x : Bool) (op : BitVec 7) (d : BitVec 8) (imm : BitVec 16) : let w := f4Word x op d imm
    w.getLsbD 31 = x ∧ w.field 24 7 = op ∧ w.field 16 8 = d ∧ w.field 0 16 = imm := by
  refine ⟨bit_of_ofBool ?_, ?_, ?_, ?_⟩ <;>
    simp (disch := decide) only [f4Word, BitVec.extractLsb'_append_eq_of_le,
      BitVec.extractLsb'_append_eq_of_add_le] <;> simp

theorem decodeInstr_plain6 {w : Word} (rest : List Word) (bit : w.getLsbD 31 = false) :
    decodeInstr 6 (w :: rest) = class6Plain w >>= fun i => i.checked rest := if_neg (Bool.eq_false_iff.mp bit)

theorem decodeInstr_ext6 {w : Word} (x : Word) (rest : List Word) (bit : w.getLsbD 31 = true) :
    decodeInstr 6 (w :: x :: rest) = class6Ext w x >>= fun i => i.checked rest := if_pos bit

theorem decode_f4 {op : BitVec 7} {d : Operand} {imm : BitVec 16} {i : Instr} (rest : List Word)
    (ok : i.illFormed = none) (plain : d.isLit = false)
    (h : ∀ w : Word, w.field 24 7 = op → Operand.ofCode (w.field 16 8) = .ok d → w.field 0 16 = imm →
      class6Plain w = .ok i) : decodeInstr 6 (f4Word false op d.code imm :: rest) = .ok (i, rest) := by
  obtain ⟨bit, hop, hd, himm⟩ := f4Word_fields false op d.code imm
  have dest : Operand.ofCode ((f4Word false op d.code imm).field 16 8) = .ok d := by rw [hd]; exact ofCode_code plain
  rw [decodeInstr_plain6 rest bit, h _ hop dest himm]
  exact checked_of_wellFormed ok rest

theorem decode_f4Ext {op : BitVec 7} {d : Operand} {imm : BitVec 16} {i : Instr} {x : Word} (rest : List Word)
    (ok : i.illFormed = none) (plain : d.isLit = false)
    (h : ∀ w : Word, w.field 24 7 = op → Operand.ofCode (w.field 16 8) = .ok d → w.field 0 16 = imm →
      class6Ext w x = .ok i) : decodeInstr 6 (f4Word true op d.code imm :: x :: rest) = .ok (i, rest) := by
  obtain ⟨bit, hop, hd, himm⟩ := f4Word_fields true op d.code imm
  have dest : Operand.ofCode ((f4Word true op d.code imm).field 16 8) = .ok d := by rw [hd]; exact ofCode_code plain
  rw [decodeInstr_ext6 x rest bit, h _ hop dest himm]
  exact checked_of_wellFormed ok rest

/-- The operand that names VA, or SAVEPTR's code (R211). -/
def vaSource : Option (BitVec 6) → Operand
  | none => .zero
  | some s => .s s

theorem vaCode_eq (va : Option (BitVec 6)) : vaCode va = (vaSource va).code := by cases va <;> rfl

theorem vaOperand_vaSource (va : Option (BitVec 6)) : vaOperand (vaSource va) = .ok va := by cases va <;> rfl

theorem vaSource_notLit (va : Option (BitVec 6)) : (vaSource va).isLit = false := by cases va <;> rfl

theorem pageWord_fields (large : Bool) (asid : BitVec 16) :
    let x : Word := 0#15 ++ BitVec.ofBool large ++ asid
    x.field 17 15 = 0 ∧ x.getLsbD 16 = large ∧ x.field 0 16 = asid := by
  refine ⟨?_, bit_of_ofBool ?_, ?_⟩ <;>
    simp (disch := decide) only [BitVec.extractLsb'_append_eq_of_le, BitVec.extractLsb'_append_eq_of_add_le] <;> simp

theorem asidWord_eq (asid : BitVec 16) : (0#16 ++ asid : Word) = 0#15 ++ BitVec.ofBool false ++ asid := by
  ext i hi
  simp

theorem decode_encode_class6 {i : Instr} (h : i.cls = 6) (ok : i.illFormed = none) (rest : List Word) :
    decodeInstr 6 (encode i ++ rest) = .ok (i, rest) := by
  cases i with
  | srd d reg | swr d reg =>
    refine decode_f4 (d := .s d) rest ok rfl fun w op hd imm => ?_
    simp only [class6Plain, op, hd, imm]
    rfl
  | statesvTeam va | statesvBar va | statersTeam va | statersBar va =>
    change decodeInstr 6 (f4Word false _ (vaCode va) _ :: rest) = _
    rw [vaCode_eq]
    refine decode_f4 rest ok (vaSource_notLit va) fun w op hd imm => ?_
    simp only [class6Plain, op, hd, imm, vaOperand_vaSource, bind, Except.bind]
    rfl
  | svc code =>
    refine decode_f4 (d := .zero) rest ok rfl fun w op hd imm => ?_
    simp only [class6Plain, op, hd, imm]
    rfl
  | eret => rfl
  | clkrd d clk =>
    refine decode_f4 (d := .s d) rest ok rfl fun w op hd imm => ?_
    simp only [class6Plain, op, hd, imm]
    cases clk <;> rfl
  | worldx secure =>
    refine decode_f4 (d := .zero) rest ok rfl fun w op hd imm => ?_
    simp only [class6Plain, op, hd, imm]
    cases secure <;> rfl
  | tlbinv kind =>
    cases kind with
    | page s large asid =>
      obtain ⟨zero, hlarge, hasid⟩ := pageWord_fields large asid
      refine decode_f4Ext (d := .s s) rest ok rfl fun w op hd imm => ?_
      simp only [class6Ext, op, hd, imm, zero, hlarge, hasid]
      rfl
    | asid asid =>
      obtain ⟨zero, bit, hasid⟩ := pageWord_fields false asid
      change decodeInstr 6 (f4Word true 7 0xF0 1 :: (0#16 ++ asid) :: rest) = _
      rw [asidWord_eq]
      refine decode_f4Ext (d := .zero) rest ok rfl fun w op hd imm => ?_
      simp only [class6Ext, op, hd, imm, zero, bit, hasid]
      rfl
    | all => rfl
  | _ => cases h

theorem cls_le_six {i : Instr} (h : i.encoded = true) : i.cls ≤ 6 := by
  have coded : (!i.encoded || Nat.ble i.cls 6) = true := by cases i <;> rfl
  rw [h] at coded
  exact Nat.le_of_ble_eq_true coded

/-- Settles O43: every word of F3 and F4 is read back field by field. -/
theorem decodeOfEncodeOfControlAndSystemInstructions : Obligations.DecodeOfEncodeOfControlAndSystemInstructions := by
  intro i rest encoded large ok
  have cls : i.cls = 5 ∨ i.cls = 6 := by
    have small := cls_le_six encoded
    omega
  rcases cls with cls | cls <;> rw [cls]
  · exact decode_encode_class5 cls ok rest
  · exact decode_encode_class6 cls ok rest

end Sys2Proof.Codec
end

section
/-! Words of classes 5 and 6 that decode, and the codec as a whole (R72, R73, R75). -/

namespace Sys2Proof.Codec

open Sys2Proof.Machine

/-! ### Classes 5 and 6 from their words (R72, R73) -/

/-- What words spell an instruction of a class. -/
def Spells (cls : Nat) (ws : List Word) (i : Instr) : Prop := i.encoded = true ∧ i.cls = cls ∧ encode i = ws

theorem Spells.of_f3 {w : Word} {i : Instr} {op : Nat} {b : BitVec 3} {q : BitVec 2} {neg cnd : Bool} {p : BitVec 3}
    {low : BitVec 14} (bit : w.getLsbD 31 = false) (hop : (w.field 24 7).toNat = op) (he : i.encoded = true)
    (hc : i.cls = 5) (hw : encode i = [f3Word false (BitVec.ofNat 7 op) b q neg cnd p low])
    (fields : w.field 21 3 = b ∧ w.field 19 2 = q ∧ w.getLsbD 18 = neg ∧ w.getLsbD 17 = cnd ∧ w.field 14 3 = p ∧
      w.field 0 14 = low) : Spells 5 [w] i := by
  obtain ⟨hb, hq, hneg, hcnd, hp, hlow⟩ := fields
  have hop : (w.field 24 7).toNat = (BitVec.ofNat 7 op).toNat := by
    rw [BitVec.toNat_ofNat, Nat.mod_eq_of_lt (hop ▸ (w.field 24 7).isLt), hop]
  exact ⟨he, hc, by rw [hw, f3Word_eq bit hop hb hq hneg hcnd hp hlow]⟩

theorem prepWord_eq {w : Word} {x : Bool} {op : BitVec 7} (bit : w.getLsbD 31 = x)
    (hop : (w.field 24 7).toNat = op.toNat) (zero : (w.field 18 3 == 0) = true) :
    prepWord (BitVec.ofBool x) op (w.field 21 3) (w.field 0 18) = w := by
  rw [← bit, ← BitVec.eq_of_toNat_eq hop, prepWord, ofBool_getLsbD,
    show 0#3 = w.field 18 3 from (beq_iff_eq.mp zero).symm]
  simp only [BitVec.extractLsb'_append_extractLsb'_eq_extractLsb', BitVec.extractLsb'_eq_self]

/-- Bits [13:0] of QSET (R89). -/
theorem qsetLow_eq {low : BitVec 14} {v : Bool} {md : BitVec 2} (value : low.getLsbD 11 = v)
    (zero : ¬ (low.extractLsb' 0 11 != 0) = true) (form : (low.extractLsb' 12 2).toNat = md.toNat) :
    low = md ++ BitVec.ofBool v ++ 0#11 := by
  rw [← BitVec.eq_of_toNat_eq form, show 0#11 = low.extractLsb' 0 11 by simp_all, ← value, ofBool_getLsbD]
  simp only [BitVec.extractLsb'_append_extractLsb'_eq_extractLsb', BitVec.extractLsb'_eq_self]

theorem qsetLow_form {low : BitVec 14} {md : BitVec 2} (value : ¬ low.getLsbD 11 = true)
    (zero : ¬ (low.extractLsb' 0 11 != 0) = true) (form : (low.extractLsb' 12 2).toNat = md.toNat) :
    low = md ++ 0#12 := by
  have joined : ∀ md : BitVec 2, md ++ BitVec.ofBool false ++ 0#11 = md ++ 0#12 := by decide
  rw [qsetLow_eq (Bool.eq_false_iff.mpr value) zero form, joined]

theorem class5Plain_spells {w : Word} {i : Instr} (bit : w.getLsbD 31 = false) (h : class5Plain w = .ok i) :
    Spells 5 [w] i := by
  unfold class5Plain at h
  dsimp only at h
  split at h
  case h_2 op =>
    split at h <;> cases h
    next zero =>
      have words (b : BitVec 3) (off : BitVec 18) : encode (.prep b off) =
        [prepWord (BitVec.ofBool false) 1 b off] := rfl
      exact ⟨rfl, rfl, by rw [words, prepWord_eq (op := 1) bit op zero]⟩
  case h_18 op =>
    split at h
    · split at h <;> cases h
      next fields => exact .of_f3 bit op rfl rfl rfl (by simp_all)
    · split at h
      · split at h <;> cases h
        next fields => exact .of_f3 bit op rfl rfl rfl (by simp_all)
      · cases h
  case h_22 op =>
    split at h
    · cases h
    · next zero =>
      split at h
      · next form =>
        split at h <;> cases h
        next fields =>
        obtain ⟨⟨⟨br, neg⟩, cnd⟩, p⟩ : ((w.field 21 3 = 0 ∧ w.getLsbD 18 = false) ∧ w.getLsbD 17 = false) ∧
            w.field 14 3 = 0 := by simpa using fields
        exact .of_f3 bit op rfl rfl rfl ⟨br, rfl, neg, cnd, p, qsetLow_eq (md := 0) rfl zero form⟩
      · next form =>
        split at h
        · cases h
        · next value =>
          split at h <;> cases h
          next fields =>
          obtain ⟨br, cnd⟩ : w.field 21 3 = 0 ∧ w.getLsbD 17 = false := by simpa using fields
          exact .of_f3 bit op rfl rfl rfl
            ⟨br, rfl, rfl, cnd, rfl, qsetLow_form (md := 1) value zero form⟩
      · next form =>
        split at h
        · cases h
        · next value =>
          split at h <;> cases h
          next fields =>
          obtain ⟨br, cnd⟩ : w.field 21 3 = 0 ∧ w.getLsbD 17 = false := by simpa using fields
          exact .of_f3 bit op rfl rfl rfl
            ⟨br, rfl, rfl, cnd, rfl, qsetLow_form (md := 2) value zero form⟩
      · cases h
  case h_23 | h_24 | h_25 => cases h
  all_goals
    split at h <;> cases h
    next op fields => exact .of_f3 bit op rfl rfl rfl (by simp_all)

theorem sOperand_eq_ok {o : Operand} {s : BitVec 6} (h : sOperand o = .ok s) : o = .s s := by
  cases o <;> cases h
  rfl

/-- A word that x3Link accepts is spelled by its S code and B. -/
theorem x3Link_spelled {b : BitVec 8} {s : BitVec 6} {x : Word} (h : x3Link b x = .ok s) :
    (Operand.s s).code = x.field 24 8 ∧ b = x.field 16 8 ∧ 0#16 = x.field 0 16 := by
  obtain ⟨_, low, h⟩ := bind_eq_ok h
  obtain ⟨_, hb, h⟩ := bind_eq_ok h
  obtain ⟨o, ho, h⟩ := bind_eq_ok h
  obtain rfl := sOperand_eq_ok h
  exact ⟨(code_of_ofCode ho).1, (beq_iff_eq.mp (require_eq_ok hb)).symm, (beq_iff_eq.mp (require_eq_ok low)).symm⟩

theorem x3Word_eq {x : Word} {a b : BitVec 8} {low : BitVec 16} (ha : a = x.field 24 8) (hb : b = x.field 16 8)
    (hlow : low = x.field 0 16) : a ++ b ++ low = x := by
  simp only [ha, hb, hlow, BitVec.extractLsb'_append_extractLsb'_eq_extractLsb', BitVec.extractLsb'_eq_self]

theorem linkWord_eq {x : Word} {a : BitVec 8} (ha : a = x.field 24 8) (hb : 0#8 = x.field 16 8)
    (hlow : 0#16 = x.field 0 16) : a ++ 0#24 = x := by
  have zero : 0#24 = x.field 0 24 := by
    rw [show 0#24 = 0#8 ++ 0#16 from rfl, hb, hlow]
    simp only [BitVec.extractLsb'_append_extractLsb'_eq_extractLsb']
  rw [ha, zero]
  simp only [BitVec.extractLsb'_append_extractLsb'_eq_extractLsb', BitVec.extractLsb'_eq_self]

/-- Part of a field that is zero is zero. -/
theorem field_eq_zero {w : Word} {lo n : Nat} (h : w.field lo n = 0) {lo' k : Nat} (low : lo ≤ lo')
    (high : lo' + k ≤ lo + n) : w.field lo' k = 0 := by
  ext i hi
  have bit := congrArg (BitVec.getLsbD · (lo' - lo + i)) h
  have inside : lo' - lo + i < n := by omega
  simpa [inside, show lo + (lo' - lo + i) = lo' + i by omega] using bit

theorem bit_eq_false {w : Word} {lo n : Nat} (h : w.field lo n = 0) {k : Nat} (low : lo ≤ k) (high : k < lo + n) :
    w.getLsbD k = false :=
  bit_of_ofBool (field_eq_zero h low (by omega))

theorem class5Ext_spells {w x : Word} {i : Instr} (bit : w.getLsbD 31 = true) (h : class5Ext w x = .ok i) :
    Spells 5 [w, x] i := by
  unfold class5Ext at h
  dsimp only at h
  split at h
  · next op =>
    obtain ⟨_, zero, h⟩ := bind_eq_ok h
    obtain ⟨s, hs, h⟩ := bind_eq_ok h
    cases h
    obtain ⟨ha, hb, low⟩ := x3Link_spelled hs
    have words (b : BitVec 3) (off : BitVec 18) (s : BitVec 6) : encode (.preps b off s) =
        [prepWord (BitVec.ofBool true) 2 b off, (Operand.s s).code ++ (0xF0 : BitVec 8) ++ 0#16] := rfl
    exact ⟨rfl, rfl, by rw [words, prepWord_eq (op := 2) bit op (require_eq_ok zero), x3Word_eq ha hb low]⟩
  · next op =>
    obtain ⟨_, zero, h⟩ := bind_eq_ok h
    obtain ⟨cc, hcc, h⟩ := bind_eq_ok h
    obtain ⟨ty, hty, h⟩ := bind_eq_ok h
    obtain ⟨a, ha, h⟩ := bind_eq_ok h
    obtain ⟨c, hc, h⟩ := bind_eq_ok h
    cases h
    obtain ⟨⟨⟨br, mid⟩, low⟩, xlow⟩ : ((w.field 21 3 = 0 ∧ w.field 14 5 = 0) ∧ w.field 0 8 = 0) ∧
        x.field 0 16 = 0 := by
      simpa using require_eq_ok zero
    have wlow : w.field 0 14 = cc.code ++ ty.code ++ 0#8 := by
      rw [cmp_code_of_ofCode hcc, scmpTy_code_of_ofCode hty, show 0#8 = w.field 0 8 from low.symm]
      simp only [BitVec.extractLsb'_append_extractLsb'_eq_extractLsb']
    have words (q : BitVec 2) : encode (.scmp q cc ty a c) =
      [f3Word true 3 0 q false false 0 (cc.code ++ ty.code ++ 0#8), a.code ++ c.code ++ (0 : BitVec 16)] := rfl
    have first := f3Word_eq (op := 3) bit op br rfl (bit_eq_false mid (by decide) (by decide))
      (bit_eq_false mid (by decide) (by decide)) (field_eq_zero mid (by decide) (by decide)) wlow
    exact ⟨rfl, rfl, by rw [words, first, x3Word_eq (code_of_ofCode ha).1 (code_of_ofCode hc).1 xlow.symm]⟩
  · next op =>
    obtain ⟨_, zero, h⟩ := bind_eq_ok h
    obtain ⟨s, hs, h⟩ := bind_eq_ok h
    cases h
    obtain ⟨ha, hb, low⟩ := x3Link_spelled hs
    have zero : w.field 0 17 = 0 := beq_iff_eq.mp (require_eq_ok zero)
    have words (b : BitVec 3) (q : BitVec 2) (neg cnd : Bool) : encode (.xcall b q neg cnd (some s)) =
        [f3Word true 5 b q neg cnd 0 0, (Operand.s s).code ++ 0#24] := rfl
    have first := f3Word_eq (op := 5) bit op rfl rfl rfl rfl (field_eq_zero zero (by decide) (by decide))
      (field_eq_zero zero (by decide) (by decide))
    exact ⟨rfl, rfl, by rw [words, first, linkWord_eq ha hb low]⟩
  · split at h <;> cases h

theorem f4Word_eq {w : Word} {x : Bool} {op : BitVec 7} {d : BitVec 8} {imm : BitVec 16} (bit : w.getLsbD 31 = x)
    (hop : (w.field 24 7).toNat = op.toNat) (hd : d = w.field 16 8) (himm : w.field 0 16 = imm) :
    f4Word x op d imm = w := by
  rw [← bit, ← BitVec.eq_of_toNat_eq hop, hd, ← himm]
  simp only [f4Word, ofBool_getLsbD, BitVec.extractLsb'_append_extractLsb'_eq_extractLsb', BitVec.extractLsb'_eq_self]

theorem Spells.of_f4 {w : Word} {i : Instr} {op : Nat} {d : BitVec 8} {imm : BitVec 16} (bit : w.getLsbD 31 = false)
    (hop : (w.field 24 7).toNat = op) (he : i.encoded = true) (hc : i.cls = 6)
    (hw : encode i = [f4Word false (BitVec.ofNat 7 op) d imm]) (hd : d = w.field 16 8) (himm : w.field 0 16 = imm) :
    Spells 6 [w] i := by
  have hop : (w.field 24 7).toNat = (BitVec.ofNat 7 op).toNat := by
    rw [BitVec.toNat_ofNat, Nat.mod_eq_of_lt (hop ▸ (w.field 24 7).isLt), hop]
  exact ⟨he, hc, by rw [hw, f4Word_eq bit hop hd himm]⟩

theorem vaCode_of_vaOperand {o : Operand} {va : Option (BitVec 6)} (h : vaOperand o = .ok va) : vaCode va = o.code := by
  cases o <;> cases h <;> rfl

theorem noOperand_eq_ok {o : Operand} {u : Unit} (h : noOperand o = .ok u) : o = .zero :=
  beq_iff_eq.mp (require_eq_ok h)

/-- A one-bit immediate. -/
theorem ofNat_toNat_beq_one {imm : BitVec 16} (h : imm.toNat ≤ 1) : imm = BitVec.ofNat 16 (imm == 1).toNat := by
  have cases : imm.toNat = 0 ∨ imm.toNat = 1 := by omega
  rcases cases with e | e
  · obtain rfl : imm = 0 := BitVec.eq_of_toNat_eq e
    rfl
  · obtain rfl : imm = 1 := BitVec.eq_of_toNat_eq e
    rfl

theorem class6Plain_spells {w : Word} {i : Instr} (bit : w.getLsbD 31 = false) (h : class6Plain w = .ok i) :
    Spells 6 [w] i := by
  obtain ⟨d, hd, h⟩ := bind_eq_ok h
  have code := (code_of_ofCode hd).1
  dsimp only at h
  split at h
  · next op =>
    obtain ⟨s, hs, h⟩ := bind_eq_ok h
    cases h
    exact .of_f4 bit op rfl rfl rfl (sOperand_eq_ok hs ▸ code) rfl
  · next op =>
    obtain ⟨s, hs, h⟩ := bind_eq_ok h
    cases h
    exact .of_f4 bit op rfl rfl rfl (sOperand_eq_ok hs ▸ code) rfl
  · next op =>
    obtain ⟨va, hva, h⟩ := bind_eq_ok h
    have dest := (vaCode_of_vaOperand hva).trans code
    split at h
    · next imm => cases h; exact .of_f4 bit op rfl rfl rfl dest (beq_iff_eq.mp imm)
    · split at h
      · next imm => cases h; exact .of_f4 bit op rfl rfl rfl dest (beq_iff_eq.mp imm)
      · cases h
  · next op =>
    obtain ⟨va, hva, h⟩ := bind_eq_ok h
    have dest := (vaCode_of_vaOperand hva).trans code
    split at h
    · next imm => cases h; exact .of_f4 bit op rfl rfl rfl dest (beq_iff_eq.mp imm)
    · split at h
      · next imm => cases h; exact .of_f4 bit op rfl rfl rfl dest (beq_iff_eq.mp imm)
      · cases h
  · next op =>
    obtain ⟨_, zero, h⟩ := bind_eq_ok h
    cases h
    exact .of_f4 bit op rfl rfl rfl ((congrArg Operand.code (noOperand_eq_ok zero)).symm.trans code) rfl
  · next op =>
    obtain ⟨_, zero, h⟩ := bind_eq_ok h
    obtain ⟨_, imm, h⟩ := bind_eq_ok h
    cases h
    exact .of_f4 bit op rfl rfl rfl ((congrArg Operand.code (noOperand_eq_ok zero)).symm.trans code)
      (beq_iff_eq.mp (require_eq_ok imm))
  · next op =>
    obtain ⟨s, hs, h⟩ := bind_eq_ok h
    obtain ⟨_, imm, h⟩ := bind_eq_ok h
    cases h
    exact .of_f4 bit op rfl rfl rfl (sOperand_eq_ok hs ▸ code)
      (ofNat_toNat_beq_one (of_decide_eq_true (require_eq_ok imm)))
  · next op =>
    obtain ⟨_, zero, h⟩ := bind_eq_ok h
    obtain ⟨_, imm, h⟩ := bind_eq_ok h
    cases h
    exact .of_f4 bit op rfl rfl rfl ((congrArg Operand.code (noOperand_eq_ok zero)).symm.trans code)
      (ofNat_toNat_beq_one (of_decide_eq_true (require_eq_ok imm)))
  · cases h
  · cases h

theorem pageWord_eq {x : Word} {large : Bool} (zero : x.field 17 15 = 0) (bit : x.getLsbD 16 = large) :
    0#15 ++ BitVec.ofBool large ++ x.field 0 16 = x := by
  rw [← bit, ofBool_getLsbD, show 0#15 = x.field 17 15 from zero.symm]
  simp only [BitVec.extractLsb'_append_extractLsb'_eq_extractLsb', BitVec.extractLsb'_eq_self]

theorem class6Ext_spells {w x : Word} {i : Instr} (bit : w.getLsbD 31 = true) (h : class6Ext w x = .ok i) :
    Spells 6 [w, x] i := by
  obtain ⟨d, hd, h⟩ := bind_eq_ok h
  have code := (code_of_ofCode hd).1
  split at h
  · next op =>
    have first (imm : BitVec 16) (himm : (w.field 0 16).toNat = imm.toNat) : f4Word true 7 d.code imm = w :=
      f4Word_eq (op := 7) bit op code (BitVec.eq_of_toNat_eq himm)
    obtain ⟨_, zero, h⟩ := bind_eq_ok h
    have zero : x.field 17 15 = 0 := beq_iff_eq.mp (require_eq_ok zero)
    split at h
    · next imm =>
      obtain ⟨s, hs, h⟩ := bind_eq_ok h
      cases h
      have words (large : Bool) (asid : BitVec 16) : encode (.tlbinv (.page s large asid)) =
          [f4Word true 7 (Operand.s s).code 0, 0#15 ++ BitVec.ofBool large ++ asid] := rfl
      exact ⟨rfl, rfl, by rw [words, ← sOperand_eq_ok hs, first 0 imm, pageWord_eq zero rfl]⟩
    · next imm =>
      obtain ⟨_, none, h⟩ := bind_eq_ok h
      obtain ⟨_, small, h⟩ := bind_eq_ok h
      cases h
      have words (asid : BitVec 16) : encode (.tlbinv (.asid asid)) =
          [f4Word true 7 Operand.zero.code 1, 0#16 ++ asid] := rfl
      have small : x.getLsbD 16 = false := by simpa using require_eq_ok small
      exact ⟨rfl, rfl, by rw [words, ← noOperand_eq_ok none, first 1 imm, asidWord_eq, pageWord_eq zero small]⟩
    · next imm =>
      obtain ⟨_, none, h⟩ := bind_eq_ok h
      obtain ⟨_, all, h⟩ := bind_eq_ok h
      cases h
      have words : encode (.tlbinv .all) = [f4Word true 7 Operand.zero.code 2, 0] := rfl
      exact ⟨rfl, rfl, by rw [words, ← noOperand_eq_ok none, first 2 imm, beq_iff_eq.mp (require_eq_ok all)]⟩
    · cases h
  · split at h <;> cases h

/-- Classes 5 and 6: what a plain or an extended word spells is what it decodes to. -/
theorem f34_spelled {w : Word} {ws rest : List Word} {i : Instr} {cls : Nat} (large : 5 ≤ cls) (small : cls ≤ 6)
    (h : decodeInstr cls (w :: ws) = .ok (i, rest)) :
    i.encoded = true ∧ i.cls = cls ∧ i.illFormed = none ∧ encode i ++ rest = w :: ws := by
  have spelled {left ws' : List Word} {j : Instr} (hs : Spells cls ws' j) (hc : j.checked left = .ok (i, rest)) :
      i.encoded = true ∧ i.cls = cls ∧ i.illFormed = none ∧ encode i ++ rest = ws' ++ left := by
    obtain ⟨rfl, rfl, wellFormed⟩ := wellFormed_of_checked hc
    obtain ⟨encoded, hcls, words⟩ := hs
    exact ⟨encoded, hcls, wellFormed, by rw [words]⟩
  have classes : cls = 5 ∨ cls = 6 := by omega
  cases bit : w.getLsbD 31 with
  | false =>
    rcases classes with rfl | rfl
    · rw [decodeInstr_plain5 ws bit] at h
      obtain ⟨j, hj, hc⟩ := bind_eq_ok h
      exact spelled (class5Plain_spells bit hj) hc
    · rw [decodeInstr_plain6 ws bit] at h
      obtain ⟨j, hj, hc⟩ := bind_eq_ok h
      exact spelled (class6Plain_spells bit hj) hc
  | true =>
    cases ws with
    | nil =>
      rcases classes with rfl | rfl <;> rw [decodeInstr, if_neg (by decide), if_neg (by decide), if_pos bit] at h <;>
        cases h
    | cons x ws =>
      rcases classes with rfl | rfl
      · rw [decodeInstr_ext5 x ws bit] at h
        obtain ⟨j, hj, hc⟩ := bind_eq_ok h
        exact spelled (class5Ext_spells bit hj) hc
      · rw [decodeInstr_ext6 x ws bit] at h
        obtain ⟨j, hj, hc⟩ := bind_eq_ok h
        exact spelled (class6Ext_spells bit hj) hc

/-- Settles O44: each format refuses what its words do not spell. -/
theorem decodedWordsAreTheEncoding : Obligations.DecodedWordsAreTheEncoding := by
  intro cls ws i rest small h
  cases ws with
  | nil => cases h
  | cons w ws =>
    by_cases f1 : cls ≤ 1
    · exact f1_spelled f1 h
    · by_cases f2 : cls ≤ 4
      · exact f2_spelled (by omega) f2 h
      · exact f34_spelled (by omega) small h

/-- Settles O40: each decodes by computation. -/
theorem writtenOutWordsDecode : Obligations.WrittenOutWordsDecode := by
  refine ⟨rfl, rfl, rfl, rfl, rfl, rfl, rfl, rfl, rfl, rfl, rfl, rfl, rfl, rfl, rfl⟩

end Sys2Proof.Codec
end

section
/-! A team's turn runs the instruction that its words decode to (R59, R61, R71, R75). -/

namespace Sys2Proof.Machine

/-- Classes above 6, which no header has, decode as class 6. -/
theorem decodeInstr_of_six_le {cls : Nat} (h : 6 ≤ cls) (ws : List Word) : decodeInstr cls ws = decodeInstr 6 ws := by
  have none : ¬ cls ≤ 1 ∧ ¬ cls ≤ 4 ∧ (cls == 5) = false := ⟨by omega, by omega, beq_eq_false_iff_ne.mpr (by omega)⟩
  obtain ⟨f1, f2, five⟩ := none
  cases ws <;> simp [decodeInstr, f1, f2, five]

/-- What decodes is an encoded instruction that no check refuses, whatever the class. -/
theorem wellFormed_of_decodeInstr {cls : Nat} {ws rest : List Word} {i : Instr}
    (h : decodeInstr cls ws = .ok (i, rest)) : i.encoded = true ∧ i.illFormed = none := by
  by_cases small : cls ≤ 6
  · obtain ⟨encoded, -, wellFormed, -⟩ := Codec.decodedWordsAreTheEncoding cls ws i rest small h
    exact ⟨encoded, wellFormed⟩
  · rw [decodeInstr_of_six_le (by omega)] at h
    obtain ⟨encoded, -, wellFormed, -⟩ := Codec.decodedWordsAreTheEncoding 6 ws i rest le_rfl h
    exact ⟨encoded, wellFormed⟩

theorem wellFormed_of_clause {c : Clause} {i : Instr} (h : c.instr = some i) :
    i.encoded = true ∧ i.illFormed = none := by
  unfold Clause.instr at h
  split at h <;> cases h
  next decoded =>
  obtain ⟨⟨j, left⟩, hj, placed⟩ := Codec.bind_eq_ok decoded
  refine wellFormed_of_decodeInstr (rest := left) (hj.trans ?_)
  dsimp only at placed
  split at placed <;> split at placed <;> cases placed <;> rfl

/-- A team's turn, first on the agenda, at a clause: its instruction issues. -/
theorem step_issueTurn {s : State} {rest : List Turn} {t : Team} {c : Clause} {p : Nat} (due : s.dueReset = none)
    (agenda : s.agenda = .team t.id :: rest) (found : ({ s with agenda := rest } : State).team? t.id = some t)
    (running : ({ s with agenda := rest } : State).running t = true) (clause : t.clause = some c)
    (port : t.port = some p) :
    step s = mapNext State.tick (({ s with agenda := rest } : State).issueTurn t c) := by
  simp [step, due, agenda, State.turn, State.teamTurn, found, running, clause, port]

/-- Settles O36: a turn at a clause is the issue of its instruction, which the codec says is encoded and well formed. -/
theorem aStepRunsTheDecodedInstruction : Obligations.AStepRunsTheDecodedInstruction := by
  intro s rest t c p due agenda s0 found running clause port pos
  have within : ¬ c.header.n < c.pos := Nat.not_lt.mpr pos
  rw [step_issueTurn due agenda found running clause port, State.issueTurn, if_neg within]
  constructor
  · intro i decoded
    simp only [decoded]
    refine ⟨fun clear => ?_, fun doubt => ?_, State.current_eq found clause, wellFormed_of_clause decoded⟩
    · rw [if_neg (by simpa using clear)]
      rfl
    · rw [if_pos (List.any_eq_true.mpr doubt)]
      rfl
  · intro undecoded open_ free
    simp [undecoded, State.undecoded, open_, free, mapNext, s0]

end Sys2Proof.Machine
end

section
/-! The device right after reset (R333, R342, R349, R350). -/

namespace Sys2Proof.Machine

theorem leNat_eq_zero {bs : List Byte} (h : ∀ b ∈ bs, b = 0) : leNat bs = 0 := by
  induction bs with
  | nil => rfl
  | cons b bs ih =>
    rw [leNat, h b (List.mem_cons_self ..), ih fun x hx => h x (List.mem_cons_of_mem _ hx)]
    rfl

/-- Memory that lists nothing reads 0 (log 1). -/
theorem readN_nil (a n : Nat) : leNat (Memory.readN [] a n) = 0 := by
  refine leNat_eq_zero fun b hb => ?_
  obtain ⟨k, -, rfl⟩ := List.mem_map.mp hb
  rfl

theorem getD_replicate_self {α : Type} (n k : Nat) (d : α) : (List.replicate n d).getD k d = d := by
  simp only [List.getD_eq_getElem?_getD, List.getElem?_replicate]
  split <;> rfl

theorem Context.readReg_reset (no off : Nat) : (Context.reset no).readReg off = 0 := by
  unfold Context.readReg
  split <;> simp [Context.reset, CtxState.code]

theorem State.ctx_reset (no : Nat) : State.reset.ctx no = Context.reset no := rfl

/-- A choice of zeros. -/
theorem ite_eq_zero {c : Bool} {a b : Nat} (ha : c = true → a = 0) (hb : b = 0) : (if c = true then a else b) = 0 := by
  split
  · exact ha ‹_›
  · exact hb

/-- A device-wide register reads 0 after reset, but for the search shares (R342, R349). -/
theorem readReg_reset {off : Nat} (n : Nat) (share : ∀ k, k < 8 → off ≠ 0x40 + 4 * k) :
    State.reset.readReg off n = 0 := by
  have notShare (h : (0x40 ≤ off && off < 0x60 && off % 4 == 0) = true) : False := by
    simp only [Bool.and_eq_true, decide_eq_true_eq, beq_iff_eq] at h
    obtain ⟨⟨low, high⟩, aligned⟩ := h
    exact share ((off - 0x40) / 4) (by omega) (by omega)
  have port (k : Nat) : State.reset.ports.getD k Port.reset = Port.reset := getD_replicate_self 16 k _
  have slot (k : Nat) : State.reset.regs.slotmap.getD k 0 = 0 := getD_replicate_self 32 k _
  unfold State.readReg
  refine ite_eq_zero (fun _ => rfl) <| ite_eq_zero (fun _ => rfl) <| ite_eq_zero (fun _ => rfl) <|
    ite_eq_zero (fun _ => rfl) <| ite_eq_zero (fun _ => ?_) <| ite_eq_zero (fun h => (notShare h).elim) <|
    ite_eq_zero (fun _ => rfl) <| ite_eq_zero (fun _ => rfl) <| ite_eq_zero (fun _ => ?_) <|
    ite_eq_zero (fun _ => ?_) <| ite_eq_zero (fun _ => rfl) <| ite_eq_zero (fun _ => rfl) <|
    ite_eq_zero (fun _ => rfl) <| ite_eq_zero (fun _ => readN_nil off n) rfl
  · simp only [slot]
    rfl
  · rw [port]
    rfl
  · rw [port]
    rfl

/-- Settles O39: each register of BAR0 holds its reset value, and what nothing lists reads 0. -/
theorem resetMemoryIsCanonicalAndReadsAsListed : Obligations.ResetMemoryIsCanonicalAndReadsAsListed := by
  refine ⟨⟨rfl, fun _ h => (List.not_mem_nil h).elim⟩, rfl, rfl, rfl, rfl, rfl, fun fn off n _ _ share => ?_, ?_,
    fun _ _ => rfl, fun _ => rfl⟩
  · unfold State.bar0
    refine ite_eq_zero (fun _ => ite_eq_zero (fun _ => ?_) rfl) (ite_eq_zero (fun pf => ?_) rfl)
    · rw [State.ctx_reset, Context.readReg_reset]
    · exact readReg_reset n (share (beq_iff_eq.mp pf))
  · decide

end Sys2Proof.Machine
end

section
/-! Fetching a clause, ending a prefetch, choosing a clause for a port, and the end of a YIELD wait (R59, R85, R87, R95,
R262, R292). -/

namespace Sys2Proof.Machine

/-! ### What a fetch finds (R59, R262) -/

/-- The lines of a range of whole words are the lines of its words. -/
theorem mem_lineRange_words {a n l : Nat} (aligned : a % 4 = 0) (h : l ∈ lineRange a (4 * n)) :
    ∃ k < n, (a + 4 * k) / 128 = l ∧ max a (l * 128) = a + 4 * k := by
  unfold lineRange at h
  split at h
  · cases h
  · next some_ =>
    have pos : n ≠ 0 := fun e => some_ (by simp [e])
    obtain ⟨j, hj, rfl⟩ := List.mem_map.mp h
    have inside := List.mem_range.mp hj
    exact ⟨(max a ((a / 128 + j) * 128) - a) / 4, by omega, by omega, by omega⟩

theorem State.firstBadWord_eq_none {s : State} {t : Team} {x : Xlat} {va n : Nat}
    (good : ∀ k < n, s.xbad x (va % 65536 + 4 * k) 4 = false) : s.firstBadWord t x va n = none := by
  refine List.find?_eq_none.mpr fun k hk => ?_
  simp [good k (List.mem_range.mp hk)]

/-- Nothing stops a fetch of words that lie in one granule, on permitted lines, in good memory. -/
theorem State.fetchStop_eq_none {s : State} {t : Team} {x : Xlat} {va n : Nat} (aligned : va % 4 = 0)
    (inside : va % 65536 + 4 * n ≤ 65536) (fit : ∀ k < n, (s.fetchLineX t ((va + 4 * k) / 128)).isMapped = true ∧
      s.xbad x (va % 65536 + 4 * k) 4 = false) : s.fetchStop t x va n = none := by
  refine List.findSome?_eq_none_iff.mpr fun l hl => ?_
  obtain ⟨k, hk, rfl, start⟩ := mem_lineRange_words aligned hl
  have mapped := (fit k hk).1
  have good : s.firstBadWord t x (va + 4 * k) ((min (va + 4 * n) ((va + 4 * k) / 128 * 128 + 128) - (va + 4 * k)) / 4) =
      none := by
    refine State.firstBadWord_eq_none fun j hj => ?_
    have place : (va + 4 * k) % 65536 + 4 * j = va % 65536 + 4 * (k + j) := by omega
    rw [place]
    exact (fit (k + j) (by omega)).2
  simp only [start, mapped, good, Bool.not_true, Bool.false_eq_true, if_false, Option.map_none]

/-- A fetch in one granule, with no line of code held, gives what memory holds (R59, R87). -/
theorem State.fetchAt_ok {s : State} {t : Team} {pc : DWord} (aligned : pc.toNat % 4 = 0)
    (inside : pc.toNat % 65536 + 484 ≤ 65536) (cold : (s.core t.core).code = []) (n : Nat)
    (len : clauseLen ((wordsOf (s.xread (s.fetchMap t (pc.toNat / 128)) (pc.toNat % 65536) 484)).headD 0)
      (wordsOf (s.xread (s.fetchMap t (pc.toNat / 128)) (pc.toNat % 65536) 484)).tail = n) (short : n ≤ 120)
    (fit : ∀ k ≤ n, (s.fetchLineX t ((pc.toNat + 4 * k) / 128)).isMapped = true ∧
      s.xbad (s.fetchMap t (pc.toNat / 128)) (pc.toNat % 65536 + 4 * k) 4 = false) :
    s.fetchAt t pc = .ok ((wordsOf (s.xread (s.fetchMap t (pc.toNat / 128)) (pc.toNat % 65536) 484)).headD 0)
      ((wordsOf (s.xread (s.fetchMap t (pc.toNat / 128)) (pc.toNat % 65536) 484)).tail.take n) := by
  have room : min ((65536 - pc.toNat % 65536) / 4) 121 = 121 := by omega
  have words : s.codeWords t (s.fetchMap t (pc.toNat / 128)) pc.toNat 0 121 =
      wordsOf (s.xread (s.fetchMap t (pc.toNat / 128)) (pc.toNat % 65536) 484) := by
    simp [State.codeWords, cold]
  have go (m : Nat) (hm : m ≤ n + 1) : s.fetchStop t (s.fetchMap t (pc.toNat / 128)) pc.toNat m = none :=
    State.fetchStop_eq_none aligned (by omega) fun k hk => fit k (by omega)
  have least : min (1 + n) 121 ≤ n + 1 := by omega
  have whole : 1 + n ≤ 121 := by omega
  simp only [State.fetchAt, aligned, room, words, len, go 1 (by omega), go _ least, whole, bne_self_eq_false,
    Bool.false_eq_true, if_false, if_true, Nat.add_sub_cancel_left]

theorem State.fetchAt_misaligned {s : State} {t : Team} {pc : DWord} (h : pc.toNat % 4 ≠ 0) :
    s.fetchAt t pc = .bad .misaligned pc := by
  simp [State.fetchAt, h]

/-! ### CLAUSE_FETCH (R262, R87) -/

section
variable {s : State} {t : Nat} {tm : Team} (found : s.team? t = some tm) (running : s.running tm = true)
  (between : tm.clause = none) (clear : tm.trapWaits = false)

include found running between clear

theorem execClauseFetch_held {h : Word} {ws : List Word} (via : tm.via = some (h :: ws)) :
    exec (.clauseFetch t) s = .next (s.installClause tm h ws) := by
  simp [exec, execClauseFetch, found, running, between, clear, via]

theorem execClauseFetch_fetched (via : tm.via = none) (steady : s.switching = false) :
    exec (.clauseFetch t) s = match s.fetchAt tm tm.pc with
      | .ok h ws => .next ((s.fetched tm tm.pc.toNat (1 + ws.length)).installClause tm h ws)
      | .missing gs => .next (s.parkFetch tm gs)
      | .bad code addr => .next (s.fetchTrap tm code addr)
      | .walkError g => .next (s.contextFault tm.ctx (unitDie (s.ctx tm.ctx).asid g) 4 0 0)
      | .await _ => .next s := by
  simp only [exec, execClauseFetch, found, running, between, clear, via, steady]
  rfl

end

theorem State.installClause_header {s : State} {t : Team} {h : Word} {ws : List Word} {hd : Header}
    (header : Header.ofWord h = some hd) : s.installClause t h ws =
      s.setTeam { t with clause := some (startClause hd ws t.resume), via := none, target := false } := by
  simp only [State.installClause, header]

theorem State.installClause_invalid {s : State} {t : Team} {h : Word} {ws : List Word}
    (header : Header.ofWord h = none) (done : t.outst.all (fun o => o.clause == t.clauseNo) = true) :
    s.installClause t h ws =
      s.enterTrap t { code := .illegalClause, addr := t.pc } { epc := t.pc, idx := 0, rk := 2, cmask := 0 } := by
  simp only [State.installClause, header, State.fetchTrap, Team.earlierDone, done, if_true, Team.fetchResume]

theorem execPrefetchFill_eq {s : State} {t : Nat} {b : BitVec 3} {tm : Team} (found : s.team? t = some tm)
    (alive : s.alive tm.ctx = true) (started : (tm.branch b.toNat).pf = 1) :
    exec (.prefetchFill t b) s = .next (match s.fetchAt tm ((tm.branch b.toNat).target.setWidth 64) with
      | .ok h ws => (s.fetched tm (tm.branch b.toNat).target.toNat (1 + ws.length)).setTeam
          (tm.setBranch b.toNat { tm.branch b.toNat with pf := 2, copy := h :: ws })
      | _ => s.setTeam (tm.setBranch b.toNat { tm.branch b.toNat with pf := 3, copy := [] })) := by
  simp only [exec, execPrefetchFill, found, alive, started]
  cases s.fetchAt tm ((tm.branch b.toNat).target.setWidth 64) <;> rfl

theorem execIssuePortChoice_eq {s : State} {core sub port : Nat} {b : Team} (real : port < 2)
    (free : (s.subTeams core sub).any (·.port == some port) = false)
    (best : s.bestTeam ((s.subTeams core sub).filter s.ready) = some b) : exec (.issuePortChoice core sub port) s =
    .next { s with teams := s.teams.map fun t =>
      if !(t.core == core && t.sub == sub) then t
      else if t.id == b.id then
        ({ t with port := some port, passed := 0, lastY := false, wdog := 0, resume := none, shadows := t.unwaited } :
          Team).closeClause Outst.checked s.clk
      else if ((s.subTeams core sub).filter s.ready).any (·.id == t.id) then
        { t with passed := t.passed + 1, lastY := false }
      else { t with lastY := false } } := by
  have two : ¬ 2 ≤ port := by omega
  simp only [exec, execIssuePortChoice, two, free, best, decide_false, Bool.or_false, Bool.false_eq_true, if_false,
    replaceIf]
  congr 2
  refine List.map_congr_left fun t _ => ?_
  cases (t.core == core && t.sub == sub) <;> rfl

/-- Settles O26: the outcome of the fetch decides what CLAUSE_FETCH does, and a fetch inside one granule reads
memory. -/
theorem fetchPrefetchAndChoiceComplete : Obligations.FetchPrefetchAndChoiceComplete := by
  refine ⟨?_, ?_, ?_, ?_, ?_, ?_, ?_, fun _ _ _ => State.fetchAt_misaligned, fun _ _ _ _ => execPrefetchFill_eq,
    fun _ _ _ _ _ => execIssuePortChoice_eq, ?_⟩
  · intro s t tm h ws hd found running between clear via steady fetch header
    rw [execClauseFetch_fetched found running between clear via steady, fetch]
    exact congrArg _ (State.installClause_header header)
  · intro s t tm h ws hd found running between clear via header
    rw [execClauseFetch_held found running between clear via, State.installClause_header header]
  · intro s t tm gs found running between clear via steady fetch
    rw [execClauseFetch_fetched found running between clear via steady, fetch]
  · intro s t tm code a found running between clear via steady fetch
    rw [execClauseFetch_fetched found running between clear via steady, fetch]
    rfl
  · intro s t tm g found running between clear via steady fetch
    rw [execClauseFetch_fetched found running between clear via steady, fetch]
  · intro s t tm h ws found running between clear via steady fetch header done
    rw [execClauseFetch_fetched found running between clear via steady, fetch]
    exact congrArg _ (State.installClause_invalid header done)
  · intro s t pc aligned inside cold x ws n short fit
    exact State.fetchAt_ok aligned inside cold n rfl short fit
  · intro s t steady
    exact congrArg Host.Outcome.next (if_neg (Bool.eq_false_iff.mp steady))

end Sys2Proof.Machine
end

section
/-! Two core sites of one number.

Refutes O20. `State.forget` drops a line of an L1 by replacing every listed core of that core's number by the first one
listed. The clause on `forget` speaks of every state, and the list of cores of a state may name one number twice. -/

namespace Sys2Proof.Machine

/-- A core site 0 that has locked line 7 and holds line 5 in its L1. -/
def Core.lockedAndHolding : Core :=
  { Core.reset 0 with
    locks := [{ ctx := 0, asid := 0, line := 7 }]
    l1 := [{ asid := 0, line := 5, base := 0, leaf := 0, home := 0, ret := .normal, since := 0,
             data := List.replicate 128 0, dirty := 0, bad := 0 }] }

/-- A state that lists core site 0 twice. -/
def State.twinCores : State := { State.reset with cores := [Core.lockedAndHolding, Core.reset 0] }

/-- Forgetting line 5 gives the second core of the number the locks of the first. -/
theorem State.twinCores_forget_locks :
    (State.twinCores.forget fun _ l => l == 5).cores.map (·.locks) =
      [[{ ctx := 0, asid := 0, line := 7 }], [{ ctx := 0, asid := 0, line := 7 }]] := by
  decide +kernel

/-- Refutes O20: of two listed cores of one number, the second has no lock, and after line 5 is forgotten it has the
locks of the first. -/
theorem not_systemInstructionsComplete : ¬ Obligations.SystemInstructionsComplete := by
  unfold Obligations.SystemInstructionsComplete
  rintro ⟨-, -, -, -, -, -, -, -, -, -, -, -, -, -, -, -, -, -, -, -, -, forgets, -⟩
  obtain ⟨-, locks⟩ := forgets State.twinCores fun _ l => l == 5
  rw [State.twinCores_forget_locks] at locks
  exact absurd locks (by decide)

end Sys2Proof.Machine

end

section
/-! A write-back to memory that is not canonical.

Refutes O54. `Memory.write` takes a byte 0 as a byte no longer listed, and `Memory.read` stops at the first listed
address above the one it looks for. Where the listed addresses do not ascend, a byte 0 written back takes a listed
address away that had hidden another, which lies in no line of a cache. The statement speaks of every state, and its
clauses on the bytes outside the lines have no premise that memory is canonical. -/

namespace Sys2Proof.Machine

/-- A WAITK with device scope. -/
def deviceWait : F2 :=
  { l := 0, tk := 0, d := .k 0, a := .zero,
    x := some { b := .zero, sz := 0, sc := .dev, fn := 0, rh := 0, imm := 0 } }

/-- A WAITK that waits for 0 on a counter that is 0. -/
def deviceWaitEntry : Outst :=
  { pos := 1, clause := 0, instr := .waitk deviceWait, l := 0, tk := 0, act := 0, addrs := [], data := [], datb := [],
    args := [0, 0], block := [], needs := [], outs := [], fail := none, seq := 9, since := 0, taken := false }

/-- A dirty line of die 1 at device addresses 128 to 255, whose first byte has been stored as 0. -/
def dirtyLine : Line :=
  { asid := 0, line := 1, base := 128, leaf := 0, home := 1, ret := .normal, since := 0,
    data := List.replicate 128 0, dirty := 1, bad := 0 }

/-- The line stands in the L2 of die 0, whose team waits; device memory lists address 128 before address 0. -/
def State.waitingOverDirtyLine : State :=
  let s := State.reset.placeInstr 5 []
  { s with
    teams := s.teams.map fun t => { t with outst := [deviceWaitEntry] }
    l2 := [[dirtyLine], [], [], []]
    mem := [(128, 1), (0, 7)] }

/-- The acquire at the end of the wait writes the byte 0 back, and address 0 then reads another value. -/
theorem execWaitkDone_shows_hidden_byte :
    ∃ s', exec (.waitkDone 2 9) State.waitingOverDirtyLine = .next s' ∧ s'.mem.read 0 = 7 := by
  refine ⟨_, rfl, ?_⟩
  decide +kernel

/-- Address 0 lies in no line that a cache holds. -/
theorem State.waitingOverDirtyLine_not_lineAt : ¬ State.waitingOverDirtyLine.lineAt 0 := by
  rintro (⟨ls, hls, l, hl, hbase, -⟩ | ⟨c, hc, l, hl, -⟩)
  · have hlines : ∀ ls ∈ State.waitingOverDirtyLine.l2, ∀ l ∈ ls, l.base ≠ 0 := by decide +kernel
    exact hlines ls hls l hl (Nat.le_zero.mp hbase)
  · have hnone : ∀ c ∈ State.waitingOverDirtyLine.cores, c.l1 = [] := by decide +kernel
    simp [hnone c hc] at hl

/-- Refutes O54: a waiting WAITK ends and its acquire writes a dirty line back, and address 0, which is in no line,
reads 0 before and 7 after. -/
theorem not_issueAndLoadsStoreNothing : ¬ Obligations.IssueAndLoadsStoreNothing := by
  unfold Obligations.IssueAndLoadsStoreNothing
  rintro ⟨-, -, waits⟩
  obtain ⟨s', hnext, hafter⟩ := execWaitkDone_shows_hidden_byte
  obtain ⟨-, -, -, hmem⟩ := waits _ _ _ _ (.inl hnext)
  have hbefore : State.waitingOverDirtyLine.mem.read 0 = 0 := by decide
  have hsame := hmem 0 State.waitingOverDirtyLine_not_lineAt
  rw [hafter, hbefore] at hsame
  exact absurd hsame (by decide)

end Sys2Proof.Machine

end

section
/-! A store through pages that overlap.

Refutes O14. `Outst.location` tells two lanes apart by their device addresses, and lanes aligned in their granules meet
in whole locations only where the pages begin at multiples of the size. The statement has no premise on where the pages
begin: where one begins in the middle of a word of another, two lanes of one store write some bytes in common, and
the lane performed last decides what those hold. -/

namespace Sys2Proof.Machine

/-- A store of words. -/
def wordStore : F2 :=
  { l := 0, tk := 0, d := .v 7, a := .v 2,
    x := some { b := .v 3, sz := 2, sc := .none, rh := 0, fn := 0, imm := 0 } }

/-- The system-coherent page of a granule. -/
def coherentPage (g : Nat) : Page := { asid := 0, g := g, leaf := 0x0100000000000000, via := none }

/-- Lane 0 stores 1 through granule 3, and lane 1 stores 2 through granule 4, whose page begins two bytes later. -/
def overlappingStore : Outst :=
  { pos := 1, clause := 0, instr := .st wordStore, l := 0, tk := 0, act := 3, addrs := [(0, 0x30000), (1, 0x40000)],
    data := [(0, 0x11111111), (1, 0x22222222)], datb := [], args := [], block := [], needs := [],
    outs := [(3, .mapped 0x50000 (coherentPage 3)), (4, .mapped 0x50002 (coherentPage 4))],
    fail := none, seq := 9, since := 0, taken := false }

/-- The store is outstanding, with memory and caches as after reset. -/
def State.beforeOverlappingStore : State :=
  let s := State.reset.placeInstr 5 []
  { s with teams := s.teams.map fun t => { t with outst := [overlappingStore] } }

/-- The store may be performed. -/
theorem overlappingStore_performs : ∃ tm, Performs State.beforeOverlappingStore 2 9 tm overlappingStore := by
  refine ⟨(State.beforeOverlappingStore.team? 2).get (by decide +kernel), ?_⟩
  decide +kernel

theorem overlappingStore_properLanes : ProperLanes overlappingStore (szBytes wordStore.ext.sz) := by
  refine ⟨by decide, by decide, by decide, by decide, fun g b p hmem => ?_⟩
  simp only [overlappingStore, List.mem_cons, Prod.mk.injEq, Xlat.mapped.injEq, List.not_mem_nil, or_false] at hmem
  obtain ⟨rfl, -, rfl⟩ | ⟨rfl, -, rfl⟩ := hmem <;> rfl

theorem overlappingStore_uncached : overlappingStore.uncached := by
  intro g b p hmem
  simp only [overlappingStore, List.mem_cons, Prod.mk.injEq, Xlat.mapped.injEq, List.not_mem_nil, or_false] at hmem
  obtain ⟨-, -, rfl⟩ | ⟨-, -, rfl⟩ := hmem <;> decide

theorem beforeOverlappingStore_memWf : State.beforeOverlappingStore.MemWf :=
  ⟨by decide +kernel, by decide +kernel⟩

/-- The result is a next state in which the byte at a device address has a value. -/
def leavesByte (r : Result) (a : Nat) (v : Byte) : Bool :=
  match r with
  | .next s => s.mem.read a == v
  | _ => false

theorem leavesByte_next {r : Result} {s : State} {a : Nat} {v : Byte} (hr : r = .next s) (h : leavesByte r a v = true) :
    s.mem.read a = v := by
  subst hr
  exact eq_of_beq h

/-- At once: lane 1 is written last. -/
theorem overlappingStore_at_once :
    leavesByte (exec (.f2Completion 2 9) State.beforeOverlappingStore) 0x50002 0x22 = true := by
  decide +kernel

/-- Lane 1 apart: lane 0 is written last. -/
theorem overlappingStore_lane1_apart :
    leavesByte (exec (.f2Completion 2 9) (State.beforeOverlappingStore.someLanes 2 9 2)) 0x50002 0x11 = true := by
  decide +kernel

/-- Refutes O14: a byte that both lanes store holds lane 1's value when they are performed at once, and lane 0's when
lane 1 is performed before. -/
theorem not_lanesPerformedApartLeaveTheSameMemory : ¬ Obligations.LanesPerformedApartLeaveTheSameMemory := by
  unfold Obligations.LanesPerformedApartLeaveTheSameMemory
  rintro ⟨-, -, same⟩
  obtain ⟨tm, hperf⟩ := overlappingStore_performs
  obtain ⟨a, b, ha, hb, hmem, -⟩ := same _ 2 9 2 tm _ wordStore beforeOverlappingStore_memWf hperf rfl
    overlappingStore_properLanes (.inr overlappingStore_uncached)
  have hlane1 := leavesByte_next ha overlappingStore_at_once
  have hlane0 := leavesByte_next hb overlappingStore_lane1_apart
  rw [hmem, hlane1] at hlane0
  exact absurd hlane0 (by decide)

end Sys2Proof.Machine

end
